-- ==== Sys2Proof/Word.lean ====
section
/-! DEFINITION. The words of the Fenzeam: 64-bit registers (R9), 64 B granules, instance numbers (R7, R8). -/

namespace Sys2Proof

/-- A register, and one 8-byte word of memory (R9). -/
abbrev Word := BitVec 64
/-- One byte of memory. -/
abbrev Byte := BitVec 8
/-- One 64 B granule, byte 0 in bits [7:0] (little-endian, R9). -/
abbrev Granule := BitVec 512
/-- A module address (R16: the module address space is 48 bits wide). -/
abbrev Addr := BitVec 48
/-- A descriptor: 64 B, header in bits [127:0], body above (R191). -/
abbrev Descriptor := BitVec 512
/-- A flit of 256 B (R241). -/
abbrev Flit := BitVec 2048

/-- Tiles T00 to T63 (R7). -/
abbrev TileNo := Fin 64
/-- Varnish dies V00 to V15, each beside its stack (R8). -/
abbrev DieNo := Fin 16
/-- Fabric ports F00 to F23 (R8). -/
abbrev PortNo := Fin 24
/-- Host ports H0 to H3 (R8). -/
abbrev HostNo := Fin 4
/-- Ateliers A00 to A15 (R8). -/
abbrev AtlNo := Fin 16
/-- Rings 0 to 524,287 (R181). -/
abbrev RingNo := Fin 524288
/-- Ring groups 0 to 8,191 (R181). -/
abbrev GrpNo := Fin 8192
/-- The collective engines of Y0 and Y1 (R183). -/
abbrev EngNo := Fin 2
/-- Core rails VDD_HC0 to VDD_HC3 (R358). -/
abbrev RailNo := Fin 4
/-- Arrival counters of one tile (R8). -/
abbrev CtrNo := Fin 1024
/-- Power domains (R361). -/
abbrev DomNo := Fin 432

end Sys2Proof
end

