-- ==== Sys2Proof/Syntax.lean ====
section
/-! DEFINITION. The commands of the block: one constructor of `Instr` for each row of the opcode table.
The table gives its rows no operands, so each constructor carries what the row's rule says the event
brings from outside (a register value, read data, a frame's bytes, a sensor reading) and the unit it happens to. -/

namespace Sys2Proof

/-- Who presents a palette access (R64), in the fixed priority order 1 to 8. -/
inductive Requester where
  | matrix | vector | sfu | remote | localDma | host | writeBack | scrub
  deriving DecidableEq, Repr

/-- Where a granule transfer comes from (R67, R69): transfers of one source to one tile keep their order. -/
inductive Source where
  | tile (t : TileNo)
  | yuna (e : EngNo)
  | varnish (n : DieNo)
  | host (h : HostNo)
  deriving DecidableEq, Repr

/-- A granule transfer (R67, R68): one granule, the bits it names, and its counter enable and index.
`sender` is the delivery number of the descriptor that sent it, when one of this module did. -/
structure Transfer where
  addr : Addr
  data : Granule
  bits : Granule
  ac : Option CtrNo
  src : Source
  sender : Option Nat
  deriving DecidableEq, Repr

/-- The part of the matrix array a product runs on (R108 HALF). -/
inductive Half where
  | whole | left | right
  deriving DecidableEq, Repr

/-- The engine that takes a descriptor at issue (R183, R194). -/
inductive Engine where
  | mx (t : TileNo) (h : Half)
  | ve (t : TileNo)
  | copy (t : TileNo)
  | seq (t : TileNo)
  | die (n : DieNo)
  | coll (e : EngNo)
  | fixative
  | power
  deriving DecidableEq, Repr

/-- The unit whose stall age a watchdog compares (R150, R204 DETAIL). -/
inductive StallUnit where
  | mx (t : TileNo) (right : Bool)
  | ve (t : TileNo)
  | die (n : DieNo)
  deriving DecidableEq, Repr

/-- The event that loses a host port (R337). -/
inductive LossCause where
  | linkDown | hotReset | flr | bmeCleared
  deriving DecidableEq, Repr

/-- The read of host memory that failed for want of a completion (R187, R190, R208). -/
inductive HostRead where
  | doorbell (g : GrpNo)
  | ring (r : RingNo)
  | schedule (a : AtlNo)
  deriving DecidableEq, Repr

/-- The read of the doorbell summary: SUMMARY and CQ_HEAD (R184). -/
structure Summary where
  summary : BitVec 64
  cqHead : BitVec 32
  deriving DecidableEq, Repr

/-- One bit fault standing in a stored granule: its granule address and an error mask over the eight
72-bit codewords of the granule, word w in bits [72w+71:72w] (R77, R84). `wrongRow`: the bank reads another row in its
place, which the check bits show (R77). -/
structure Upset where
  addr : Addr
  mask : BitVec 576
  wrongRow : Bool := false
  deriving DecidableEq, Repr

/-- What the SPI NOR's image slot shows to the ROM (R410, R411). -/
structure ImageSlot where
  magicOk : Bool
  lengthOk : Bool
  digestOk : Bool
  keyOk : Bool
  sigOk : Bool
  version : BitVec 32
  rollback : BitVec 8
  deriving DecidableEq, Repr

/-- The board configuration block (R412); `crcOk` is the result of its CRC-32. -/
structure BoardConfig where
  crcOk : Bool
  moduleId : BitVec 16
  linkEn : BitVec 24
  linkPmd : BitVec 24
  pmbAddr : BitVec 32
  tbRole : Bool
  deriving DecidableEq, Repr

/-- How a stack came through step 5 of the start-up sequence (R409, R414). -/
structure StackBoot where
  trained : Bool
  keptOk : Bool
  hard : BitVec 16
  sparesMin : BitVec 16
  deriving DecidableEq, Repr

/-- The outcome of the start-up step in progress (R409, R414). -/
inductive BootResult where
  | rom (pllLocked : Bool)
  | image (norFound : Bool) (slotA slotB : ImageSlot)
  | firmware (cfg : BoardConfig)
  | edges (failed : Option (Fin 4))
  | stacksAndTiles (trained : List StackBoot) (badTile : Option TileNo)
  | links
  | ready
  deriving DecidableEq, Repr

/-- One regulator's telemetry as PMBus returns it (R374). -/
structure Telemetry where
  status : BitVec 16
  temp : BitVec 8
  iout : BitVec 16
  vout : BitVec 16
  deriving DecidableEq, Repr

/-- One core rail's monitor reading (R375): VSENSE in mV and ISENSE in A. -/
structure RailSense where
  mv : BitVec 16
  amps : BitVec 16
  deriving DecidableEq, Repr

/-- A PCIe configuration access to one DWORD register (R336, R409). -/
inductive CfgAccess where
  | read
  | write (v : BitVec 32)
  deriving DecidableEq, Repr

/-- The base address registers through which a host port is reached (R338). -/
inductive Bar where
  | bar0 | bar2
  deriving DecidableEq, Repr

/-- The commands, in the order of the opcode table. -/
inductive Instr where
  -- Host and register access
  | registerWrite (port : HostNo) (bar : Bar) (addr : Addr) (data : List Byte)
  | hostMemoryRead (port : HostNo) (bar : Bar) (addr : Addr) (len : Nat)
  | hostMemoryWrite (port : HostNo) (bar : Bar) (addr : Addr) (data : List (Option Byte))
  | hostConfigRequest (port : HostNo) (dword : Fin 1024) (acc : CfgAccess)
  -- Palette
  | granuleAccept (x : Transfer)
  | granuleCommit (t : TileNo) (src : Source)
  | paletteRequestSet (t : TileNo) (req : Requester) (sender : Option Nat) (addrs : List Addr) (upsets : List Upset) (busy : Bool)
  | eccWriteBack (t : TileNo)
  | requestAged (t : TileNo)
  | patrolScrub (t : TileNo) (upsets : List Upset) (idle : Bool)
  | scrubPriorityRaise (t : TileNo) (upsets : List Upset)
  | palAcWrite (port : HostNo) (t : TileNo) (n : CtrNo) (v : Word)
  | palAcAdd (port : HostNo) (t : TileNo) (v : Word)
  | palInjectArm (port : HostNo) (t : TileNo) (v : Word)
  | gateDrainEnd (t : TileNo) (q : Fin 4)
  | quarterInitDone (t : TileNo) (q : Fin 4)
  | palFill (t : TileNo)
  | palCopy (t : TileNo)
  -- Tensor moves
  | tensorCopy (t : TileNo)
  | tensorGather (t : TileNo)
  | tensorScatter (t : TileNo)
  -- Matrix array
  | mxProduct (t : TileNo) (h : Half)
  | mxFirstFeed (t : TileNo) (h : Half)
  | mxPassStart (t : TileNo) (h : Half)
  | mxPaceRelease (t : TileNo) (h : Half)
  | stallReport (u : StallUnit) (cause : Fin 16)
  | stallAbort (u : StallUnit)
  | parkThreshold (t : TileNo) (right : Bool)
  | park (port : HostNo) (t : TileNo) (v : Word)
  | parkTakeEffect (t : TileNo) (right : Bool)
  | releaseHalf (port : HostNo) (t : TileNo) (v : Word)
  | splitWrite (port : HostNo) (t : TileNo) (v : Word)
  | splitTakeEffect (t : TileNo)
  -- Vector engine
  | veStrokeMap (t : TileNo)
  | veStrokeReduce (t : TileNo)
  | veStrokeScan (t : TileNo)
  | vePaceRelease (t : TileNo)
  -- Special functions
  | norm (t : TileNo)
  | softmaxFull (t : TileNo)
  | softmaxPartial (t : TileNo)
  | softmaxApply (t : TileNo)
  | softmaxMerge (t : TileNo)
  -- Rings
  | pollSweep
  | summaryReadReturn (g : GrpNo) (data : Option Summary)
  | tailReadReturn (g : GrpNo) (tails : Option (List (BitVec 32)))
  | schedTableRead (a : AtlNo) (entries : List (BitVec 32))
  | ringFetch (r : RingNo)
  | ringFetchReturn (r : RingNo) (data : Option (List Descriptor))
  | descriptorDeliver (r : RingNo)
  | descriptorIssue (e : Engine)
  | descriptorComplete (id : Nat)
  | cqRecordWrite (g : GrpNo) (ok : Bool)
  | msixSend (g : GrpNo)
  | msixHoldoffEnd (g : GrpNo)
  | msixUnmask (port : HostNo) (vec : Option (Fin 2048))
  | nop (id : Nat)
  | streamSet (id : Nat)
  | counterAdd (id : Nat)
  | hostWrite (id : Nat)
  | ringEnable (port : HostNo) (r : RingNo) (v : Word)
  | ringDisable (port : HostNo) (r : RingNo) (v : Word)
  | ringResume (port : HostNo) (r : RingNo) (v : Word)
  | retiredWrite (port : HostNo) (r : RingNo) (v : Word)
  | groupActivate (port : HostNo) (g : GrpNo) (v : Word)
  | txnTagGrant
  -- Timebase
  | pllLock
  | pllUnlock
  | tbBroadcast (diffs : List (Fin 105 × Int))
  | tbCapture (port : HostNo) (v : Word)
  | tbLoad (port : HostNo) (v : Word)
  | syncRequestSend (f1 : BitVec 2)
  | syncRequestReceive (p : PortNo) (f2 f3 : BitVec 2)
  | syncResponseReceive (p : PortNo) (f4 : BitVec 2) (replayed : Bool)
  | syncResponseMissed
  | stampReached (target : BitVec 8) (lc : Fin 16)
  -- Link
  | linkEnable (port : HostNo) (p : PortNo) (v : Word)
  | laneTrained (p : PortNo) (lane : Fin 8) (ok : Bool)
  | portAligned (p : PortNo) (reversed : Bool) (txDelay rxDelay : BitVec 16)
  | peerInfoReceive (p : PortNo) (mod : BitVec 16) (peer : BitVec 5) (lanes : BitVec 8) (txDelay rxDelay : BitVec 16)
  | retrain (port : HostNo) (p : PortNo) (v : Word)
  | flitReceive (p : PortNo) (flit : Flit) (fecBad : Bool)
  | replayTimeout (p : PortNo)
  | laneLockLoss (p : PortNo) (lane : Fin 8)
  | degradeWindowEnd (p : PortNo) (ce ue : List (BitVec 32))
  | portIdleEnd (p : PortNo)
  -- Frames
  | frameForward (p : PortNo)
  | writeFrameReceive (p : Option PortNo)
  | collFrameReceive (p : Option PortNo) (contrib : BitVec 32)
  | membershipFrameReceive (p : Option PortNo)
  | ackReceive (p : Option PortNo)
  | noticeReceive (p : Option PortNo)
  | reasmTimeout (p : PortNo) (vl : Fin 17) (cls : Bool)
  | ackTimeout (tag : BitVec 32)
  | genHoldExpire (e : EngNo)
  | silentThreshold (e : EngNo) (id : Nat) (member : BitVec 16)
  -- Collectives
  | fabSend (id : Nat)
  | collAllReduce (id : Nat)
  | collReduceScatter (id : Nat)
  | collAllGather (id : Nat)
  | collVoteSum (id : Nat)
  | collDispatch (id : Nat)
  | collCombine (id : Nat)
  | groupSetLocal (id : Nat)
  | groupSetDistribute (id : Nat)
  | groupSetRemove (id : Nat)
  -- Varnish
  | varUpdate (n : DieNo)
  | varPass1End (n : DieNo)
  | exchangeModuleRecord (e : EngNo)
  | exchangeGatherComplete (e : EngNo)
  | varPass2End (n : DieNo)
  | varPush (n : DieNo)
  | varProgram (n : DieNo)
  | varStateSetStep (n : DieNo)
  | varStateRelease (n : DieNo)
  | stackAccess (n : DieNo) (own : Bool) (sender : Option Nat) (addr : Addr) (wr : Option (Granule × Granule)) (upset : BitVec 576) (spare : Bool)
  -- Failure
  | pprComplete (n : DieNo)
  | varDieFail (n : DieNo)
  | riskWindow (hottest : Int)
  | copyStepAdvance
  | fixSnapshot (id : Nat)
  | fixRestoreSend (id : Nat)
  | fixRestoreApply (id : Nat)
  | fixRestoreServe (id : Nat)
  | rngCheckDisarm (port : HostNo) (v : Word)
  -- Hosts and ateliers
  | hostLoss (port : HostNo) (cause : LossCause)
  | atsInvalidate (port : HostNo)
  | lock (port : HostNo) (a : AtlNo) (v : Word)
  | quiesce (port : HostNo) (a : AtlNo) (v : Word)
  | quiesceDone (a : AtlNo)
  | quiesceStallAbort (id : Nat)
  | release (port : HostNo) (a : AtlNo) (v : Word)
  | adopt (port : HostNo) (v : Word)
  | dissolve (port : HostNo) (v : Word)
  | shareSet (port : HostNo) (t : TileNo) (v : Word)
  | shareOkWrite (port : HostNo) (a : AtlNo) (v : Word)
  -- Power
  | railOpWrite (port : HostNo) (d : RailNo) (v : Word)
  | railOpSettle (d : RailNo) (mv : BitVec 16)
  | railSettleTimeout (d : RailNo) (mv : BitVec 16)
  | droopStart (d : RailNo) (mv : BitVec 16)
  | droopEnd (d : RailNo)
  | pwrDomainWake (id : Nat)
  | pwrDomainIdle (id : Nat)
  | pwrDomainOff (id : Nat)
  | pwrDomainRelease (id : Nat)
  | wowSet (id : Nat)
  | wowClear (id : Nat)
  | domCmdWake (port : HostNo) (v : Word)
  | domCmdIdle (port : HostNo) (v : Word)
  | domCmdOff (port : HostNo) (v : Word)
  | domCmdRelease (port : HostNo) (v : Word)
  | domainTransitionDone (d : DomNo)
  | quietWrite (port : HostNo) (v : Word)
  | thermalTrip (quarterDegrees : Int)
  -- Plant
  | governorUpdate (rails : List RailSense) (quarterDegrees : Int)
  | ballastStop (t : TileNo)
  | lsnAssert
  | lsnAck
  | lsnAckTimeout
  | riseCovered
  | lsnDeassert
  | lsnHoldMax
  | curtailAssert (level : Fin 16)
  | curtailLevelChange (level : Fin 16)
  | curtailRelease
  | socFrameReceive (frame : BitVec 192) (gap : Bool)
  | socTimeout
  | forecastSend
  | pmbusPoll (readings : List (Option Telemetry))
  | plantEnWrite (port : HostNo) (v : Word)
  -- Counters
  | pmcWindow (id : Nat)
  | windowEdge (t : TileNo)
  | sbufRdWrite (port : HostNo) (t : TileNo) (v : Word)
  | periodicDump (t : TileNo) (room : Bool)
  -- Start-up
  | coldReset
  | moduleReset (cause : BitVec 2)
  | hostPerst (port : HostNo) (high : Bool)
  | bootStepDone (r : BootResult)
  | fuseProg (port : HostNo) (v : Word)
  | fusePulseDone (marginOk : Bool)
  | sketchEnable (port : HostNo) (v : Word)
  | sketchDisable (port : HostNo) (v : Word)
  | sketchSample
  | pwrGoodFall
  | resetNRelease
  | hostLinkUp (port : HostNo) (width rate : BitVec 8) (flitMode : Bool)
  | lsnAckFall
  | fenceHostReadReturn (id : Nat)
  | hostReadTimeout (r : HostRead)
  | bankRefresh (n : DieNo) (pc : Fin 32) (temp : BitVec 8)
  deriving DecidableEq, Repr

end Sys2Proof
end

