-- ==== Sys2Proof/Decode.lean ====
section
/-! DEFINITION. The command that a word spells. The block has no instruction words: every row of the opcode table has an
empty list of fields and no bits, so no word spells a command. -/

namespace Sys2Proof

/-- The command that an `nbits`-bit word spells by the table's bits: none, since the table gives no row bits (DESIGN
CHOICE, log entry 2). -/
def decodeTableWord (_nbits _w : Nat) : Option Instr := none

end Sys2Proof
end

