-- ==== Sys2Proof/Config.lean ====
section
/-! DEFINITION. Values that nothing in the spec fixes: opaque functions of the index of the next free value. No proof
can see a value of them. -/

namespace Sys2Proof

/-- A free bit (DESIGN CHOICE, log entry 4). -/
opaque Config.freeBit : Nat → Bool
/-- A free 64-bit value (DESIGN CHOICE, log entry 4). -/
opaque Config.freeWord : Nat → BitVec 64
/-- A free granule (DESIGN CHOICE, log entry 4). -/
opaque Config.freeGranule : Nat → BitVec 512

/-- PLANT.BALLAST_MASK, which R378 names and no register table gives (DESIGN CHOICE, log entry 57). -/
opaque Config.ballastMask : BitVec 64

end Sys2Proof
end

