-- ==== Sys2Proof/Machine/Float.lean ====
section
/-! DEFINITION. The numeric formats and arithmetic of R34 to R56: element types, exact values, one rounding, integers,
votes, microscaling blocks and the grain generator. -/

namespace Sys2Proof.Machine

/-- Exception flags in the layout of R54. -/
abbrev Flags := BitVec 8

def flagInexact : Flags := 0x01
def flagUnderflow : Flags := 0x02
def flagOverflow : Flags := 0x04
def flagDivZero : Flags := 0x08
def flagInvalid : Flags := 0x10
def flagSaturated : Flags := 0x20
def flagClamped : Flags := 0x40

/-- An exact value: NaN, an infinity, or (−1)^neg · m · 2^e, where m = 0 is a signed zero. -/
inductive Val where
  | nan
  | inf (neg : Bool)
  | fin (neg : Bool) (m : Nat) (e : Int)
  deriving DecidableEq, Repr

/-- How a format uses its top exponent (R35). -/
inductive Top where
  | ieee | e4m3 | e2m1
  deriving DecidableEq, Repr

/-- A floating-point format: exponent and fraction bits, bias, and its top exponent (R35). -/
structure Fmt where
  ebits : Nat
  fbits : Nat
  bias : Nat
  top : Top
  deriving DecidableEq, Repr

def fp32 : Fmt := ⟨8, 23, 127, .ieee⟩
def bf16 : Fmt := ⟨8, 7, 127, .ieee⟩
def fp16 : Fmt := ⟨5, 10, 15, .ieee⟩
def e4m3 : Fmt := ⟨4, 3, 7, .e4m3⟩
def e5m2 : Fmt := ⟨5, 2, 15, .ieee⟩
def e2m1 : Fmt := ⟨2, 1, 1, .e2m1⟩
/-- WX without its 22 ignored low bits (R38). -/
def wx42 : Fmt := ⟨18, 23, 131071, .ieee⟩

/-- The canonical NaN of a format (R36). -/
def Fmt.nan (f : Fmt) : Nat :=
  match f.top with
  | .ieee => (2 ^ f.ebits - 1) * 2 ^ f.fbits + 2 ^ (f.fbits - 1)
  | .e4m3 => 0x7f
  | .e2m1 => 0

/-- The largest finite code without its sign. -/
def Fmt.maxCode (f : Fmt) : Nat :=
  match f.top with
  | .ieee => (2 ^ f.ebits - 1) * 2 ^ f.fbits - 1
  | .e4m3 => 0x7e
  | .e2m1 => 0x7

/-- The value that a code of a format encodes (R35). -/
def Fmt.decode (f : Fmt) (c : Nat) : Val :=
  let neg := (c >>> (f.ebits + f.fbits)) % 2 == 1
  let ex := (c >>> f.fbits) % 2 ^ f.ebits
  let fr := c % 2 ^ f.fbits
  if f.top = .ieee ∧ ex = 2 ^ f.ebits - 1 then (if fr = 0 then .inf neg else .nan)
  else if f.top = .e4m3 ∧ ex = 15 ∧ fr = 7 then .nan
  else if ex = 0 then .fin neg fr (1 - (f.bias : Int) - f.fbits)
  else .fin neg (2 ^ f.fbits + fr) ((ex : Int) - f.bias - f.fbits)

/-- A rounding mode (R46); SR carries bits [23:0] of its draw (R47). -/
inductive Rm where
  | rne | rtz | sr (r : Nat)
  deriving DecidableEq, Repr

/-- m / 2^sh as a whole number under a rounding mode, and whether it is inexact (R46, R47). -/
def roundShift (m sh : Nat) (rm : Rm) : Nat × Bool :=
  let k := m >>> sh
  let rem := m % 2 ^ sh
  let up : Bool :=
    match rm with
    | .rne => 2 ^ sh < 2 * rem || (2 ^ sh == 2 * rem && k % 2 == 1)
    | .rtz => false
    | .sr r => 2 ^ 24 ≤ (rem <<< 24) >>> sh + r % 2 ^ 24
  (if rem ≠ 0 ∧ up then k + 1 else k, rem != 0)

/-- m · 2^e as a multiple of 2^q: the multiple, and whether it is inexact. -/
def roundAt (m : Nat) (e q : Int) (rm : Rm) : Nat × Bool :=
  if q ≤ e then (m <<< (e - q).toNat, false) else roundShift m (q - e).toNat rm

/-- a · 2^x < b · 2^y, for whole a and b. -/
def ltScaled (a : Nat) (x : Int) (b : Nat) (y : Int) : Bool :=
  if x ≤ y then a < b <<< (y - x).toNat else a <<< (x - y).toNat < b

/-- A code with its sign bit. -/
def Fmt.signed (f : Fmt) (neg : Bool) (c : Nat) : Nat := (if neg then 2 ^ (f.ebits + f.fbits) else 0) + c

/-- The one rounding of an exact value into a format (R48, R49): the code, and the flags raised. Under SR a value between
the maximum and the next place overflows where its draw rounds it up (DEDUCED, log entry 74). -/
def Fmt.round (f : Fmt) (rm : Rm) (sat : Bool) : Val → Nat × Flags
  | .nan => (f.nan, flagInvalid)
  | .inf neg =>
    match f.top with
    | .ieee => (f.signed neg ((2 ^ f.ebits - 1) * 2 ^ f.fbits), 0)
    | _ => (f.nan, flagInvalid)
  | .fin neg m e =>
    if m = 0 then (f.signed neg 0, 0)
    else
      let emin : Int := 1 - (f.bias : Int)
      let big : Int := (m.log2 : Int) + e
      let q := max big emin - f.fbits
      let (k, inexact) := roundAt m e q rm
      -- the code of k · 2^q: a carry out of the fraction steps the exponent field by itself
      let code := if k < 2 ^ f.fbits then k else (q + f.fbits - emin).toNat * 2 ^ f.fbits + k
      let halfUp : Bool :=
        match rm with
        | .rne =>
          -- the maximum plus half a place of the top binade (R49)
          let mx := f.maxCode % 2 ^ f.fbits + 2 ^ f.fbits
          let qx : Int := (f.maxCode / 2 ^ f.fbits : Nat) - (f.bias : Int) - f.fbits
          !ltScaled m e (2 * mx + 1) (qx - 1)
        | _ => false
      if f.maxCode < code ∨ halfUp then
        (if f.top = .ieee ∧ !sat ∧ rm ≠ .rtz then
           (f.signed neg ((2 ^ f.ebits - 1) * 2 ^ f.fbits), flagOverflow ||| flagInexact)
         else (f.signed neg f.maxCode, flagOverflow ||| flagInexact ||| flagSaturated))
      else
        let fl : Flags := if inexact then flagInexact else 0
        let tiny : Bool := inexact && big < emin &&
          ltScaled (roundAt m e (big - f.fbits) rm).1 (big - f.fbits) 1 emin
        (f.signed neg code, if tiny then fl ||| flagUnderflow else fl)

/-! ### Exact operations (R48). Each gives the exact result and the INVALID or DIV_BY_ZERO it raises. -/

/-- −v. -/
def Val.neg : Val → Val
  | .nan => .nan
  | .inf s => .inf (!s)
  | .fin s m e => .fin (!s) m e

/-- |v|. -/
def Val.abs : Val → Val
  | .nan => .nan
  | .inf _ => .inf false
  | .fin _ m e => .fin false m e

/-- v is ±0. -/
def Val.isZero : Val → Bool
  | .fin _ m _ => m == 0
  | _ => false

def Val.isNan : Val → Bool
  | .nan => true
  | _ => false

def Val.isFinite : Val → Bool
  | .fin _ _ _ => true
  | _ => false

/-- The sign bit of a value that has one. -/
def Val.sign : Val → Bool
  | .nan => false
  | .inf s => s
  | .fin s _ _ => s

/-- A whole number as a value; zero is +0. -/
def Val.ofInt (i : Int) : Val := .fin (i < 0) i.natAbs 0

/-- A signed sum of two finite values; an exact zero is +0 unless both are −0. -/
def addFinite (s1 : Bool) (m1 : Nat) (e1 : Int) (s2 : Bool) (m2 : Nat) (e2 : Int) : Val :=
  let e := min e1 e2
  let a : Int := (m1 <<< (e1 - e).toNat : Nat)
  let b : Int := (m2 <<< (e2 - e).toNat : Nat)
  let t := (if s1 then -a else a) + (if s2 then -b else b)
  if t = 0 then .fin (s1 && s2 && m1 == 0 && m2 == 0) 0 e else .fin (t < 0) t.natAbs e

/-- a + b. -/
def Val.add : Val → Val → Val × Flags
  | .nan, _ => (.nan, flagInvalid)
  | _, .nan => (.nan, flagInvalid)
  | .inf s, .inf t => if s = t then (.inf s, 0) else (.nan, flagInvalid)
  | .inf s, .fin _ _ _ => (.inf s, 0)
  | .fin _ _ _, .inf t => (.inf t, 0)
  | .fin s m e, .fin t n f =>
    if m = 0 ∧ n ≠ 0 then (.fin t n f, 0) else if n = 0 ∧ m ≠ 0 then (.fin s m e, 0)
    else (addFinite s m e t n f, 0)

/-- a · b. -/
def Val.mul : Val → Val → Val × Flags
  | .nan, _ => (.nan, flagInvalid)
  | _, .nan => (.nan, flagInvalid)
  | .inf s, .inf t => (.inf (s != t), 0)
  | .inf s, .fin t n _ => if n = 0 then (.nan, flagInvalid) else (.inf (s != t), 0)
  | .fin s m _, .inf t => if m = 0 then (.nan, flagInvalid) else (.inf (s != t), 0)
  | .fin s m e, .fin t n f => (.fin (s != t) (m * n) (e + f), 0)

/-- a · b + c, exact. -/
def Val.fma (a b c : Val) : Val × Flags :=
  let (p, f1) := a.mul b
  let (r, f2) := p.add c
  (r, f1 ||| f2)

/-- a / b to 96 significant bits with a sticky last bit, which rounds as the exact quotient does. -/
def Val.div : Val → Val → Val × Flags
  | .nan, _ => (.nan, flagInvalid)
  | _, .nan => (.nan, flagInvalid)
  | .inf _, .inf _ => (.nan, flagInvalid)
  | .inf s, .fin t _ _ => (.inf (s != t), 0)
  | .fin s _ _, .inf t => (.fin (s != t) 0 0, 0)
  | .fin s m e, .fin t n f =>
    if n = 0 then (if m = 0 then (.nan, flagInvalid) else (.inf (s != t), flagDivZero))
    else if m = 0 then (.fin (s != t) 0 0, 0)
    else
      let sh := 96 + n.log2
      let k := (m <<< sh) / n
      (.fin (s != t) (2 * k + (if (m <<< sh) % n = 0 then 0 else 1)) (e - f - sh - 1), 0)

/-- √a to 96 significant bits with a sticky last bit. -/
def Val.sqrt : Val → Val × Flags
  | .nan => (.nan, flagInvalid)
  | .inf s => if s then (.nan, flagInvalid) else (.inf false, 0)
  | .fin s m e =>
    if m = 0 then (.fin s 0 0, 0)
    else if s then (.nan, flagInvalid)
    else
      let sh := 192 + (if (e - 192) % 2 = 0 then 0 else 1)
      let v := m <<< sh
      let k := Nat.sqrt v
      (.fin false (2 * k + (if k * k = v then 0 else 1)) ((e - sh) / 2 - 1), 0)

/-- a < b for values that are not NaN. −0 and +0 are equal. -/
def Val.lt : Val → Val → Bool
  | .nan, _ => false
  | _, .nan => false
  | .inf s, .inf t => s && !t
  | .inf s, .fin _ _ _ => s
  | .fin _ _ _, .inf t => !t
  | .fin s m e, .fin t n f =>
    match s, t with
    | true, false => m != 0 || n != 0
    | false, true => false
    | false, false => ltScaled m e n f
    | true, true => ltScaled n f m e

/-- a = b as numbers. -/
def Val.eqv (a b : Val) : Bool := !a.isNan && !b.isNan && !a.lt b && !b.lt a

/-! ### Integers and votes (R43 to R45) -/

/-- The limits of a two's-complement integer of `w` bits. -/
def intMin (w : Nat) : Int := -(2 ^ (w - 1) : Nat)
def intMax (w : Nat) : Int := (2 ^ (w - 1) : Nat) - 1

/-- Saturate a whole number to `w` bits. -/
def satInt (w : Nat) (i : Int) : Int × Flags :=
  if i < intMin w then (intMin w, flagSaturated) else if intMax w < i then (intMax w, flagSaturated) else (i, 0)

/-- The two's-complement code of a whole number in `w` bits. -/
def intCode (w : Nat) (i : Int) : Nat := (i % (2 ^ w : Nat)).toNat

/-- The whole number that a two's-complement code encodes. -/
def intOf (w : Nat) (c : Nat) : Int := if c % 2 ^ w < 2 ^ (w - 1) then (c % 2 ^ w : Nat) else (c % 2 ^ w : Nat) - (2 ^ w : Nat)

/-- A value to an integer of `w` bits (R43). -/
def toInt (w : Nat) (rm : Rm) : Val → Int × Flags
  | .nan => (0, flagInvalid)
  | .inf s => (if s then intMin w else intMax w, flagSaturated ||| flagInvalid)
  | .fin s m e =>
    let (k, inexact) := roundAt m e 0 rm
    let (i, fl) := satInt w (if s then -(k : Int) else k)
    (i, if inexact then fl ||| flagInexact else fl)

/-- The vote of a value: its s bit, its f bit and the flags (R44, R54). -/
def voteOf : Val → Bool × Bool × Flags
  | .nan => (true, true, flagInvalid)
  | .inf _ => (true, true, flagInvalid)
  | .fin s m _ => if m = 0 then (false, true, 0) else (s, false, 0)

/-- What a vote adds to a count: +1, −1 or 0, and INVALID where it is nonfinite (R45). -/
def voteValue (sb fb : Bool) : Int × Flags :=
  if fb then (0, if sb then flagInvalid else 0) else (if sb then -1 else 1, 0)

/-! ### Element types (R34) -/

/-- The element types. -/
inductive ElemType where
  | fp32 | bf16 | fp16 | e4m3 | e5m2 | mxE4m3 | mxE5m2 | mxFp4 | int8 | int16 | int32 | vote | wx
  deriving DecidableEq, Repr

/-- The type of a 5-bit code; a reserved code names none. -/
def ElemType.ofCode : Nat → Option ElemType
  | 0x00 => some .fp32
  | 0x01 => some .bf16
  | 0x02 => some .fp16
  | 0x03 => some .e4m3
  | 0x04 => some .e5m2
  | 0x05 => some .mxE4m3
  | 0x06 => some .mxE5m2
  | 0x07 => some .mxFp4
  | 0x08 => some .int8
  | 0x09 => some .int16
  | 0x0A => some .int32
  | 0x0B => some .vote
  | 0x0C => some .wx
  | _ => none

/-- The type is a microscaling type. -/
def ElemType.isMx : ElemType → Bool
  | .mxE4m3 | .mxE5m2 | .mxFp4 => true
  | _ => false

/-- The type is an integer. -/
def ElemType.isInt : ElemType → Bool
  | .int8 | .int16 | .int32 => true
  | _ => false

/-- The bits of one element, without its block scale. -/
def ElemType.bits : ElemType → Nat
  | .fp32 => 32
  | .bf16 => 16
  | .fp16 => 16
  | .e4m3 => 8
  | .e5m2 => 8
  | .mxE4m3 => 8
  | .mxE5m2 => 8
  | .mxFp4 => 4
  | .int8 => 8
  | .int16 => 16
  | .int32 => 32
  | .vote => 2
  | .wx => 64

/-- The floating-point format of a type's element codes; integers and votes have none. -/
def ElemType.fmt : ElemType → Option Fmt
  | .fp32 => some Machine.fp32
  | .bf16 => some Machine.bf16
  | .fp16 => some Machine.fp16
  | .e4m3 => some Machine.e4m3
  | .e5m2 => some Machine.e5m2
  | .mxE4m3 => some Machine.e4m3
  | .mxE5m2 => some Machine.e5m2
  | .mxFp4 => some Machine.e2m1
  | .wx => some wx42
  | _ => none

/-- The value of an element as it is read: a number, a whole number, or a vote (s, f). -/
inductive Elt where
  | num (v : Val)
  | int (i : Int)
  | vote (s f : Bool)
  deriving DecidableEq, Repr

/-- 2^(E − 127) times a value; scale 0xFF makes NaN (R40). -/
def scaled (scale : Nat) : Val → Val
  | .nan => .nan
  | .inf s => if scale = 255 then .nan else .inf s
  | .fin s m e => if scale = 255 then .nan else .fin s m (e + ((scale : Int) - 127))

/-- Decode an element code of a type; `scale` is its block scale, for an MX type (R35, R38, R40, R43, R44). -/
def ElemType.decode (t : ElemType) (scale code : Nat) : Elt :=
  match t with
  | .int8 => .int (intOf 8 code)
  | .int16 => .int (intOf 16 code)
  | .int32 => .int (intOf 32 code)
  | .vote => .vote (code % 2 == 1) (code / 2 % 2 == 1)
  | .wx => .num (wx42.decode (code >>> 22))
  | .mxE4m3 => .num (scaled scale (Machine.e4m3.decode code))
  | .mxE5m2 => .num (scaled scale (Machine.e5m2.decode code))
  | .mxFp4 => .num (scaled scale (Machine.e2m1.decode code))
  | .fp32 => .num (Machine.fp32.decode code)
  | .bf16 => .num (Machine.bf16.decode code)
  | .fp16 => .num (Machine.fp16.decode code)
  | .e4m3 => .num (Machine.e4m3.decode code)
  | .e5m2 => .num (Machine.e5m2.decode code)

/-- An element as an exact value. A nonfinite vote is NaN (R99). -/
def Elt.val : Elt → Val
  | .num v => v
  | .int i => .ofInt i
  | .vote s f => if f then (if s then .nan else .fin false 0 0) else .fin s 1 0

/-- The element as a whole number of at most 32 bits, rounded under a mode (R43, R45, R95). -/
def Elt.toInt (rm : Rm) : Elt → Int × Flags
  | .num v => Machine.toInt 32 rm v
  | .int i => (i, 0)
  | .vote s f => voteValue s f

/-- An element of a type as an operation reads it: an MX element is decoded into FP32, and rounded where FP32 does not hold
it (R40, R49) (DEDUCED, log entry 73). -/
def ElemType.asRead (t : ElemType) (x : Elt) : Elt × Flags :=
  match x with
  | .num v =>
    if t.isMx then
      let r := Machine.fp32.round .rne false v
      (.num (Machine.fp32.decode r.1), r.2)
    else (x, 0)
  | _ => (x, 0)

/-- Convert an element into a type that is not MX: its code and the flags (R43, R44, R48, R49, R99). -/
def ElemType.encode (t : ElemType) (rm : Rm) (sat : Bool) (x : Elt) : Nat × Flags :=
  let toI (w : Nat) : Nat × Flags :=
    match x with
    | .num v => let r := Machine.toInt w rm v; (intCode w r.1, r.2)
    | .int i => let r := satInt w i; (intCode w r.1, r.2)
    | .vote s f => let r := voteValue s f; (intCode w r.1, r.2)
  match t with
  | .int8 => toI 8
  | .int16 => toI 16
  | .int32 => toI 32
  | .vote =>
    match x with
    | .vote s f => ((if s then 1 else 0) + (if f then 2 else 0), 0)
    | _ => let r := voteOf x.val; ((if r.1 then 1 else 0) + (if r.2.1 then 2 else 0), r.2.2)
  | .wx => let r := wx42.round rm sat x.val; (r.1 <<< 22, r.2)
  | .fp32 | .bf16 | .fp16 | .e4m3 | .e5m2 | .mxE4m3 | .mxE5m2 | .mxFp4 =>
    match t.fmt with
    | some f => f.round rm sat x.val
    | none => (0, 0)

/-- The code of +0, or of an abstention (R93, R101). -/
def ElemType.zero : ElemType → Nat
  | .vote => 2
  | _ => 0

/-! ### Microscaling blocks (R40 to R42) -/

/-- The emax of R42. -/
def ElemType.emax : ElemType → Int
  | .mxE4m3 => 8
  | .mxE5m2 => 15
  | _ => 2

/-- The exponent floor(log2 |v|) of a finite nonzero value. -/
def Val.expo : Val → Option Int
  | .fin _ m e => if m = 0 then none else some ((m.log2 : Int) + e)
  | _ => none

/-- The largest exponent of the finite nonzero values of a list. -/
def maxExpo (vs : List Val) : Option Int :=
  vs.foldl (fun a v => match a, v.expo with
    | some x, some y => some (max x y)
    | none, y => y
    | x, none => x) none

/-- Encode a block under R42: the scale, the element codes and the flags. `rms` gives each element its mode, with its
own draw under SR. -/
def encodeBlock (t : ElemType) (vs : List (Val × Rm)) : Nat × List Nat × Flags :=
  if t = .mxFp4 ∧ vs.any (fun v => !v.1.isFinite) then (255, vs.map fun _ => 0, flagInvalid)
  else
    let x0 : Int := match maxExpo (vs.map Prod.fst) with
      | none => 0
      | some x => x - t.emax
    let x := max (-127) (min 127 x0)
    let f := (t.fmt).getD Machine.e4m3
    let rs := vs.map fun v => f.round v.2 true (match v.1 with
      | .fin s m e => .fin s m (e - x)
      | w => w)
    ((x + 127).toNat, rs.map Prod.fst,
      rs.foldl (fun a r => a ||| r.2) (if x0 = x then 0 else flagClamped))

/-! ### The grain generator (R50, R51) -/

/-- One round of the grain generator. -/
def grainRound (keyLo keyHi : Word) (x : Word) (i : Nat) : Word :=
  let x := x + (if i % 2 = 0 then keyLo else keyHi) + BitVec.ofNat 64 i
  let x := x * 0x0000100010001001
  x ^^^ (x >>> 32)

/-- The draw of a counter under a key. -/
def grain (ctr keyLo keyHi : Word) : Word := (List.range 8).foldl (grainRound keyLo keyHi) ctr

/-- The counter word of a draw: tile, site and element index (R51). -/
def grainCtr (tile site index : Nat) : Word :=
  BitVec.ofNat 64 ((tile % 2 ^ 16) * 2 ^ 48 + (site % 2 ^ 8) * 2 ^ 40 + index % 2 ^ 40)

/-- A rounding mode of the encoding of R46; SR takes its draw. -/
def rmOf (code : Nat) (draw : Nat) : Rm :=
  match code with
  | 0 => .rne
  | 1 => .rtz
  | _ => .sr (draw % 2 ^ 24)

/-- sdiff(a, b, w): the wrapping difference as a signed number (R15). -/
def sdiff (a b w : Nat) : Int := intOf w (((a : Int) - b) % (2 ^ w : Nat)).toNat

/-- FP32's code of an FP32 value. -/
def code32 (v : Val) : Nat := (fp32.round .rne false v).1

end Sys2Proof.Machine
end

