-- ==== Sys2Proof/Machine/RegTable.lean ====
section
/-! DEFINITION. The register tables of every block, field masks and reset values, written from the tables of
R22, R84, R104, R129, R158, R179, R195, R211, R212, R234, R238, R278, R279, R306, R335, R354 to R356, R386, R387,
R403, R405 and R423 to R426. -/

namespace Sys2Proof.Machine

/-- The register blocks (R18, R19). `grp` and `ringr` are the group and ring entries of the RING window (R212). -/
inductive Blk where
  | cap | tb | pwr | plant | risk | dbg | fuse | cmc | host | atl | coll | link | hbm | var | ring | grp | ringr | mx | ve | sfu | pal | seq | pmc
  deriving DecidableEq, Repr

/-- A register, or an array of them: offset, stride and count; reset value; and the bits of each access code of
R10. A bit in no mask is reserved and reads 0 (R11). -/
structure RegDef where
  off : Nat
  stride : Nat
  count : Nat
  reset : Word
  ro : Word
  rw : Word
  w1c : Word
  w1s : Word
  rwl : Word
  deriving DecidableEq, Repr

/-- The bits that a register implements. -/
def RegDef.impl (d : RegDef) : Word := d.ro ||| d.rw ||| d.w1c ||| d.w1s ||| d.rwl

/-- CAP registers (R22). -/
def regsCap : List RegDef := [
  ⟨0x0, 8, 1, 0x3a9ef064b1010000, 0xffffffffffff0000, 0x0, 0x0, 0x0, 0x0⟩,  -- CAP.ID
  ⟨0x8, 8, 1, 0x4008080410, 0xffffffffffff, 0x0, 0x0, 0x0, 0x0⟩,  -- CAP.TILES
  ⟨0x10, 8, 1, 0x100010001020401, 0xffffffffffffff01, 0x0, 0x0, 0x0, 0x0⟩,  -- CAP.ARRAY
  ⟨0x18, 8, 1, 0x800020000000000, 0xffffffff00000000, 0x0, 0x0, 0x0, 0x0⟩,  -- CAP.VECTOR
  ⟨0x20, 8, 1, 0xc0000200400060, 0xffffffffffffffff, 0x0, 0x0, 0x0, 0x0⟩,  -- CAP.PALETTE
  ⟨0x28, 8, 1, 0x400200410302800, 0xffffffffffffff00, 0x0, 0x0, 0x0, 0x0⟩,  -- CAP.SYNC
  ⟨0x30, 8, 1, 0x1010010000009000, 0xffffffffffffffff, 0x0, 0x0, 0x0, 0x0⟩,  -- CAP.MEMORY
  ⟨0x38, 8, 1, 0x180804101000084d, 0xffffffffffffffff, 0x0, 0x0, 0x0, 0x0⟩,  -- CAP.FABRIC
  ⟨0x40, 8, 1, 0x800001000010000, 0xffffffffffffffff, 0x0, 0x0, 0x0, 0x0⟩,  -- CAP.QUEUES
  ⟨0x48, 8, 1, 0x1b0041388000000, 0xffffffffff000000, 0x0, 0x0, 0x0, 0x0⟩,  -- CAP.POWER
  ⟨0x50, 8, 1, 0x20018012c0000, 0xffffffffffff0000, 0x0, 0x0, 0x0, 0x0⟩,  -- CAP.LATENCY
  ⟨0x58, 8, 1, 0xf424000640200, 0xffffffffffffff00, 0x0, 0x0, 0x0, 0x0⟩  -- CAP.TIMEBASE
]

/-- TB registers (R234). -/
def regsTb : List RegDef := [
  ⟨0x0, 8, 1, 0x0, 0xffffffffffffffff, 0x0, 0x0, 0x0, 0x0⟩,  -- TB.NOW
  ⟨0x8, 8, 1, 0x2, 0x0, 0x2, 0x0, 0xc, 0x1⟩,  -- TB.CTL
  ⟨0x10, 8, 1, 0x0, 0x0, 0xffffffffffffffff, 0x0, 0x0, 0x0⟩,  -- TB.LOAD
  ⟨0x18, 8, 1, 0xff00000000000000, 0xffffffffff00003f, 0x0, 0x0, 0x0, 0x0⟩,  -- TB.STATUS
  ⟨0x20, 8, 1, 0x3e804000000, 0x0, 0xffffffff0000, 0x0, 0x0, 0xffff000000009f9f⟩,  -- TB.SYNC
  ⟨0x28, 8, 1, 0x0, 0xffffffffffff, 0x0, 0x0, 0x0, 0x0⟩,  -- TB.OFFSET
  ⟨0x30, 8, 1, 0x0, 0xffffffffffff, 0x0, 0x0, 0x0, 0x0⟩,  -- TB.DELAY
  ⟨0x38, 8, 1, 0x0, 0xffffffff, 0x0, 0x0, 0x0, 0x0⟩,  -- TB.FREQ
  ⟨0x40, 8, 1, 0x0, 0x0, 0x0, 0x3f, 0x0, 0x0⟩,  -- TB.EVENT
  ⟨0x48, 8, 1, 0x0, 0xffffffffffffffff, 0x0, 0x0, 0x0, 0x0⟩,  -- TB.CAPTURE
  ⟨0x50, 8, 1, 0x0, 0xffffffffffff, 0x0, 0x0, 0x0, 0x0⟩,  -- TB.LAST_STEP
  ⟨0x100, 8, 24, 0x0, 0x0, 0xffff, 0x0, 0x0, 0x0⟩  -- TB.PORT_ASYM[n]
]

/-- PWR registers (R386). -/
def regsPwr : List RegDef := [
  ⟨0x0, 8, 1, 0x0, 0x0, 0x2, 0x0, 0x0, 0x0⟩,  -- PWR.CTL
  ⟨0x8, 8, 1, 0x0, 0xf003, 0x0, 0x0, 0x0, 0x0⟩,  -- PWR.STATUS
  ⟨0x10, 8, 4, 0x2ee0011, 0xffffffffffff0130, 0x0, 0x0, 0x0, 0x3⟩,  -- PWR.RAIL[d]
  ⟨0x30, 8, 1, 0x640028, 0x0, 0xffff00ff, 0x0, 0x0, 0x0⟩,  -- PWR.DROOP_CFG
  ⟨0x38, 8, 4, 0x0, 0x0, 0xffffffff, 0x0, 0x0, 0x0⟩,  -- PWR.DROOP[d]
  ⟨0x58, 8, 1, 0x0, 0x63fe00ffffffffff, 0x0, 0x8000000000000000, 0x0, 0x0⟩,  -- PWR.LAST_WAKE
  ⟨0x60, 8, 1, 0x0, 0x0, 0xffffffffffffffff, 0x0, 0x0, 0x0⟩,  -- PWR.WOW
  ⟨0x68, 8, 1, 0x0, 0x0, 0xffff, 0x0, 0x0, 0x0⟩,  -- PWR.WOW_DIES
  ⟨0x70, 8, 1, 0x0, 0xf0000, 0xf1ff, 0x0, 0x8000000000000000, 0x0⟩,  -- PWR.DOM_CMD
  ⟨0x100, 8, 27, 0x0, 0xffffffffffffffff, 0x0, 0x0, 0x0, 0x0⟩  -- PWR.DSTATE[i]
]

/-- PLANT registers (R387). -/
def regsPlant : List RegDef := [
  ⟨0x0, 8, 1, 0xd, 0x0, 0xf, 0x0, 0x0, 0x0⟩,  -- PLANT.CTL
  ⟨0x8, 8, 1, 0x138800000200, 0xffffffffffff03ff, 0x0, 0x0, 0x0, 0x0⟩,  -- PLANT.STATUS
  ⟨0x10, 8, 1, 0x3e8ffff00001388, 0x0, 0x0, 0x0, 0x0, 0xffffffffffffffff⟩,  -- PLANT.LIMITS
  ⟨0x18, 8, 1, 0x64000f00961770, 0x0, 0xffff00ff0fffffff, 0x0, 0x0, 0x0⟩,  -- PLANT.LSN
  ⟨0x20, 8, 1, 0x10000800158, 0x0, 0xffffffffffff, 0x0, 0x0, 0x0⟩,  -- PLANT.IEST
  ⟨0x28, 8, 1, 0x6409c403e80fa0, 0x0, 0xffffffffffffffff, 0x0, 0x0, 0x0⟩,  -- PLANT.SOC
  ⟨0x30, 8, 1, 0xffff000000000000, 0xffff000001ffffff, 0x0, 0x0, 0x0, 0x0⟩,  -- PLANT.SOC_NOW
  ⟨0x38, 8, 4, 0x0, 0x0, 0xffffffffffffffff, 0x0, 0x0, 0x0⟩,  -- PLANT.CURT_TABLE[i]
  ⟨0x58, 8, 1, 0x640064, 0xffff00000000, 0xffff00ff, 0x0, 0x0, 0x0⟩,  -- PLANT.THERM
  ⟨0x60, 8, 1, 0x0, 0x0, 0xffffffffffff, 0x0, 0x0, 0x0⟩,  -- PLANT.PLAN
  ⟨0x68, 8, 1, 0x434241400064, 0x0, 0x7f7f7f7fffff, 0x0, 0x0, 0x0⟩,  -- PLANT.PMB
  ⟨0x70, 8, 4, 0x0, 0xffff00ffffffffff, 0x0, 0x0, 0x0, 0x0⟩,  -- PLANT.RAIL_TELEM[d]
  ⟨0x90, 8, 1, 0x2bc, 0x0, 0xffff, 0x0, 0x0, 0x0⟩,  -- PLANT.UNCORE
  ⟨0x98, 8, 1, 0x0, 0x0, 0xffffffff, 0x0, 0x0, 0x0⟩,  -- PLANT.LSN_NOTICES
  ⟨0xa0, 8, 1, 0x0, 0x0, 0xffffffff, 0x0, 0x0, 0x0⟩,  -- PLANT.LSN_NOACK
  ⟨0xa8, 8, 1, 0x0, 0x0, 0xffffffff, 0x0, 0x0, 0x0⟩,  -- PLANT.CURT_EVENTS
  ⟨0xb0, 8, 1, 0x0, 0x0, 0xffffffff, 0x0, 0x0, 0x0⟩,  -- PLANT.LINK_ERR
  ⟨0xb8, 8, 1, 0x0, 0x0, 0x0, 0x3ff, 0x0, 0x0⟩  -- PLANT.EVENT
]

/-- RISK registers (R335). -/
def regsRisk : List RegDef := [
  ⟨0x0, 8, 1, 0x5, 0x0, 0xd, 0x0, 0x0, 0x0⟩,  -- RISK.CTL
  ⟨0x8, 8, 1, 0x0, 0x3ff, 0x0, 0x0, 0x0, 0x0⟩,  -- RISK.SCORE
  ⟨0x10, 8, 1, 0x10e08040, 0x0, 0xffffffff, 0x0, 0x0, 0x0⟩,  -- RISK.LEVELS
  ⟨0x18, 8, 1, 0x8000f4240, 0x0, 0xffffffffff, 0x0, 0x0, 0x0⟩,  -- RISK.WINDOW
  ⟨0x20, 8, 1, 0x200040008000100, 0x0, 0xffffffffffffffff, 0x0, 0x0, 0x0⟩,  -- RISK.WEIGHT
  ⟨0x28, 8, 1, 0x40404040, 0x0, 0xffffffff, 0x0, 0x0, 0x0⟩,  -- RISK.BUMP
  ⟨0x30, 8, 1, 0x0, 0xffffffffffffffff, 0x0, 0x0, 0x0, 0x0⟩,  -- RISK.INPUTS
  ⟨0x38, 8, 1, 0xffff000000000000, 0x0, 0x0, 0x0, 0x0, 0xffff00000000001f⟩,  -- RISK.BUDDY
  ⟨0x40, 8, 1, 0x0, 0x0, 0x0, 0x0, 0x0, 0xffffffffffff⟩,  -- RISK.REGION
  ⟨0x48, 8, 1, 0x0, 0x0, 0x0, 0x0, 0x0, 0xffffffff⟩,  -- RISK.REGION_SIZE
  ⟨0x50, 8, 1, 0x0, 0x0, 0x0, 0x0, 0x0, 0xfffffffffffffff⟩,  -- RISK.MANIFEST
  ⟨0x58, 8, 1, 0x0, 0x0, 0x0, 0x0, 0x0, 0xffff⟩,  -- RISK.COVER
  ⟨0x60, 8, 1, 0x0, 0x0, 0x0, 0x0, 0x0, 0x800000000007ffff⟩,  -- RISK.NOTIFY
  ⟨0x68, 8, 1, 0x0, 0xf1, 0x0, 0x0, 0x0, 0x0⟩,  -- RISK.STATUS
  ⟨0x70, 8, 1, 0x0, 0xffffffffffff0003, 0x0, 0x0, 0x0, 0x0⟩,  -- RISK.IMAGE
  ⟨0x78, 8, 1, 0x0, 0x0, 0x0, 0x1ff, 0x0, 0x0⟩,  -- RISK.EVENT
  ⟨0x80, 8, 1, 0x0, 0xfff0ffffffffffff, 0x0, 0x0, 0x0, 0x0⟩,  -- RISK.LAST_COPY
  ⟨0x88, 8, 1, 0x0, 0xffff, 0x0, 0x0, 0x0, 0x0⟩,  -- RISK.VAR_FAILED
  ⟨0x90, 8, 1, 0x0, 0x3000000000ffffff, 0x0, 0xc000000000000000, 0x0, 0x0⟩,  -- RISK.RETIRE_LOG
  ⟨0x98, 8, 1, 0x0, 0xffffffff, 0x0, 0x0, 0x0, 0x0⟩,  -- RISK.RETIRED
  ⟨0xa0, 8, 1, 0x0, 0x0, 0x0, 0xffff, 0x0, 0x0⟩,  -- RISK.RNG_CHECK
  ⟨0x100, 8, 16, 0x0, 0xffffffffffffffff, 0x0, 0x0, 0x0, 0x0⟩  -- RISK.TAG[a]
]

/-- DBG registers (R425). -/
def regsDbg : List RegDef := [
  ⟨0x0, 8, 1, 0x40, 0x0, 0xfff3, 0x0, 0x0, 0x0⟩,  -- DBG.CTL
  ⟨0x8, 8, 1, 0x0, 0x0, 0x1f0f0fff, 0x0, 0x0, 0x0⟩,  -- DBG.SEL
  ⟨0x10, 8, 1, 0x0, 0xff03, 0xffffffff00000000, 0x0, 0x0, 0x0⟩  -- DBG.STATUS
]

/-- FUSE registers (R426). -/
def regsFuse : List RegDef := [
  ⟨0x0, 8, 1, 0x0, 0xff03, 0x0, 0x0, 0x0, 0x0⟩,  -- FUSE.STATUS
  ⟨0x8, 8, 1, 0x0, 0x0, 0xff00000000003f3f, 0x0, 0x10000, 0x0⟩,  -- FUSE.PROG
  ⟨0x100, 8, 64, 0x0, 0xffffffffffffffff, 0x0, 0x0, 0x0, 0x0⟩  -- FUSE.WORD[w]
]

/-- CMC registers (R405, R423). -/
def regsCmc : List RegDef := [
  ⟨0x8000, 16, 32, 0x0, 0x0, 0xffffffffffff, 0x0, 0x0, 0x0⟩,  -- CMC.UC[n]
  ⟨0x8008, 16, 32, 0x0, 0x0, 0xe000000007ff00ff, 0x0, 0x0, 0x0⟩,  -- CMC.UC_SEL[n]
  ⟨0x8200, 8, 1, 0x0, 0x0, 0x0, 0xffffffff, 0x0, 0x0⟩,  -- CMC.UC_OVF
  ⟨0x0, 8, 1, 0x0, 0xffffff00f3, 0x0, 0x0, 0x0, 0x0⟩,  -- CMC.STATUS
  ⟨0x8, 8, 1, 0x0, 0xffffffffffff000f, 0x0, 0x0, 0x0, 0x0⟩,  -- CMC.BOOT
  ⟨0x10, 8, 1, 0x0, 0x0, 0x2, 0x0, 0x1, 0x0⟩,  -- CMC.RESET
  ⟨0x18, 8, 1, 0x0, 0x3, 0x0, 0x0, 0x0, 0x0⟩  -- CMC.RESET_CAUSE
]

/-- HOST registers (R354). -/
def regsHost : List RegDef := [
  ⟨0x0, 8, 1, 0x0, 0xfff01f, 0x0, 0x0, 0x0, 0x0⟩,  -- HOST.STATUS
  ⟨0x8, 8, 1, 0x0, 0x0, 0x0, 0xf, 0x0, 0x0⟩,  -- HOST.EVENT
  ⟨0x10, 8, 1, 0x0, 0x0, 0xffffffff, 0x0, 0x0, 0x0⟩,  -- HOST.DENIED
  ⟨0x18, 8, 1, 0x0, 0x2000ffffffffffff, 0x0, 0xc000000000000000, 0x0, 0x0⟩,  -- HOST.DENIED_LOG
  ⟨0x20, 8, 1, 0x0, 0x0, 0xffffffff, 0x0, 0x0, 0x0⟩,  -- HOST.NARROW
  ⟨0x28, 8, 1, 0x0, 0x0, 0xffffffff, 0x0, 0x0, 0x0⟩,  -- HOST.LOCKED
  ⟨0x30, 8, 1, 0x0, 0xffffffffffff, 0x0, 0xc000000000000000, 0x0, 0x0⟩,  -- HOST.LOCKED_LOG
  ⟨0x38, 8, 1, 0x0, 0x0, 0xffffffff, 0x0, 0x0, 0x0⟩,  -- HOST.POISON
  ⟨0x40, 8, 1, 0x0, 0x0, 0xffffffff, 0x0, 0x0, 0x0⟩  -- HOST.ATS
]

/-- ATL registers (R355, R356). -/
def regsAtl : List RegDef := [
  ⟨0x0, 8, 1, 0x0, 0x0, 0x0, 0x0, 0x0, 0x8000000000000003⟩,  -- ATL.OWNER
  ⟨0x8, 8, 1, 0x0, 0x0, 0x80, 0x0, 0x1c, 0x0⟩,  -- ATL.CTL
  ⟨0x10, 8, 1, 0x0, 0xffffff0f, 0x0, 0x0, 0x0, 0x0⟩,  -- ATL.STATUS
  ⟨0x18, 8, 1, 0x0, 0x0, 0x0, 0x0, 0x0, 0xffffffffffffffff⟩,  -- ATL.TILES
  ⟨0x20, 8, 1, 0x0, 0x0, 0x0, 0x0, 0x0, 0xffff⟩,  -- ATL.DIES
  ⟨0x28, 8, 1, 0x0, 0x0, 0x0, 0x0, 0x0, 0x1fff3fff⟩,  -- ATL.RINGS
  ⟨0x30, 8, 1, 0x1000000000000, 0x0, 0x0, 0x0, 0x0, 0x1ffff0001ffff⟩,  -- ATL.TXN
  ⟨0x38, 8, 1, 0xf4240, 0x0, 0xffffffff, 0x0, 0x0, 0x0⟩,  -- ATL.QCFG
  ⟨0x40, 8, 8, 0x0, 0x0, 0x0, 0x0, 0x0, 0x800fffffffffffff⟩,  -- ATL.HBM[i]
  ⟨0x80, 8, 1, 0x0, 0x1ffff, 0x0, 0x0, 0x0, 0x0⟩,  -- ATL.TAGS_IN_USE
  ⟨0x88, 8, 1, 0x0, 0x0, 0xffffffff, 0x0, 0x0, 0x0⟩,  -- ATL.TAGS_WAIT
  ⟨0x8000, 8, 1, 0x0, 0x0, 0x0, 0x0, 0x0, 0x800000000000000f⟩,  -- ATL.MGMT
  ⟨0x8008, 8, 1, 0x0, 0x0, 0x3f, 0x0, 0x8000000000000000, 0x0⟩,  -- ATL.ADOPT
  ⟨0x8010, 8, 1, 0x0, 0x0, 0xf, 0x0, 0x8000000000000000, 0x0⟩,  -- ATL.DISSOLVE
  ⟨0x8100, 8, 64, 0x20000000000, 0x0, 0x80ff03ff00000000, 0x0, 0x0, 0x0⟩  -- ATL.SHARE[t]
]

/-- COLL registers (R279). -/
def regsColl : List RegDef := [
  ⟨0x0, 8, 1, 0xffff, 0x0, 0xffff, 0x0, 0x0, 0x0⟩,  -- COLL.ID
  ⟨0x8, 8, 1, 0x0, 0xff00ff7f, 0x0, 0x0, 0x0, 0x0⟩,  -- COLL.STATUS
  ⟨0x10, 8, 1, 0x30d40, 0x0, 0xffffffff, 0x0, 0x0, 0x0⟩,  -- COLL.E2E
  ⟨0x18, 8, 1, 0xf4240, 0x0, 0xffffffff, 0x0, 0x0, 0x0⟩,  -- COLL.GEN_HOLD
  ⟨0x20, 8, 1, 0xf4240, 0x0, 0xffffffff, 0x0, 0x0, 0x0⟩,  -- COLL.SILENT_THRESH
  ⟨0x28, 8, 1, 0x0, 0xfffffff0000000, 0x0, 0xc000000000000000, 0x0, 0x0⟩,  -- COLL.SILENT_LOG
  ⟨0x30, 8, 1, 0x0, 0x0, 0xffffffff, 0x0, 0x0, 0x0⟩,  -- COLL.GEN_STALE_COUNT
  ⟨0x38, 8, 1, 0x0, 0x0, 0xffffffff, 0x0, 0x0, 0x0⟩,  -- COLL.DISPATCH_DROP
  ⟨0x40, 8, 1, 0x0, 0x0, 0xffffffff, 0x0, 0x0, 0x0⟩,  -- COLL.VOTE_SAT_COUNT
  ⟨0x48, 8, 1, 0xfff, 0x0, 0xfff, 0x0, 0x0, 0x0⟩,  -- COLL.ROUTE_CTL
  ⟨0x50, 8, 1, 0x0, 0x0, 0xffff, 0x0, 0x0, 0x0⟩,  -- COLL.ROUTE_ADDR
  ⟨0x58, 8, 1, 0x0, 0x0, 0xffffffffffffffff, 0x0, 0x0, 0x0⟩,  -- COLL.ROUTE_DATA
  ⟨0x60, 8, 1, 0x0, 0x0, 0xffffffffffffffff, 0x0, 0x0, 0x0⟩,  -- COLL.VL_OWNER
  ⟨0x68, 8, 1, 0x1, 0x1, 0x1fffe, 0x0, 0x0, 0x0⟩,  -- COLL.VL_VALID
  ⟨0x70, 8, 1, 0x0, 0x0, 0xffffffff, 0x0, 0x0, 0x0⟩,  -- COLL.OOB_WRITE_COUNT
  ⟨0x78, 8, 1, 0x0, 0x0, 0xffffffff, 0x0, 0x0, 0x0⟩,  -- COLL.OOB_READ_COUNT
  ⟨0x100, 16, 64, 0x0, 0xffc0fff0ffffffff, 0x0, 0x0, 0x0, 0x0⟩,  -- COLL.GROUP[s].ID
  ⟨0x108, 16, 64, 0x0, 0x1fff0fff, 0x0, 0x0, 0x0, 0x0⟩  -- COLL.GROUP[s].SIZE
]

/-- LINK registers (R278). -/
def regsLink : List RegDef := [
  ⟨0x0, 8, 1, 0x8, 0x0, 0xf39, 0x0, 0x2, 0x0⟩,  -- LINK.CTL
  ⟨0x8, 8, 1, 0x0, 0xffff000000ff, 0x0, 0x0, 0x0, 0x0⟩,  -- LINK.STATUS
  ⟨0x10, 8, 1, 0xffff000000000000, 0xffff001f00000001, 0x0, 0x0, 0x0, 0x0⟩,  -- LINK.PEER
  ⟨0x18, 8, 1, 0x0, 0xffffffff, 0x0, 0x0, 0x0, 0x0⟩,  -- LINK.CAL
  ⟨0x20, 8, 1, 0x0, 0xffffffff, 0x0, 0x0, 0x0, 0x0⟩,  -- LINK.PEER_CAL
  ⟨0x28, 8, 1, 0x186a0, 0x0, 0xffffffff, 0x0, 0x0, 0x0⟩,  -- LINK.REASM_TIMEOUT
  ⟨0x30, 8, 1, 0x7d000000000, 0x0, 0xffffffffffff, 0x0, 0x0, 0x0⟩,  -- LINK.RETRY
  ⟨0x38, 8, 1, 0x100003e80000c350, 0x0, 0xff00ffffffffffff, 0x0, 0x0, 0x0⟩,  -- LINK.DEGRADE
  ⟨0x40, 8, 8, 0x0, 0x0, 0xffffffff, 0x0, 0x0, 0x0⟩,  -- LINK.LANE_CE[n]
  ⟨0x80, 8, 8, 0x0, 0x0, 0xffffffff, 0x0, 0x0, 0x0⟩,  -- LINK.LANE_UE[n]
  ⟨0xc0, 8, 1, 0x0, 0x0, 0xffffffff, 0x0, 0x0, 0x0⟩,  -- LINK.REASM_DROP
  ⟨0xc8, 8, 1, 0x800020, 0xffffffffffff0000, 0xffff, 0x0, 0x0, 0x0⟩,  -- LINK.CREDIT
  ⟨0xd0, 8, 1, 0x0, 0x0, 0x0, 0x7f, 0x0, 0x0⟩  -- LINK.EVENT
]

/-- HBM registers (R424). -/
def regsHbm : List RegDef := [
  ⟨0x0, 8, 1, 0x0, 0xff00010f, 0x0, 0x0, 0x0, 0x0⟩,  -- HBM.STATUS
  ⟨0x8, 8, 1, 0x0, 0x0, 0xffffffffffffffff, 0x0, 0x0, 0x0⟩,  -- HBM.ERR
  ⟨0x10, 8, 1, 0x0, 0x0, 0xffffffff, 0x0, 0x0, 0x0⟩,  -- HBM.ODECC
  ⟨0x18, 8, 1, 0x0, 0xffffffffffff, 0x0, 0x0, 0x0, 0x0⟩  -- HBM.REPAIR
]

/-- VAR registers (R306). -/
def regsVar : List RegDef := [
  ⟨0x0, 8, 1, 0x0, 0x0, 0x0, 0x0, 0x0, 0x3⟩,  -- VAR.CTL
  ⟨0x8, 8, 1, 0x0, 0xf8e1, 0x0, 0x400, 0x0, 0x0⟩,  -- VAR.STATUS
  ⟨0x10, 8, 1, 0x0, 0xffffffff, 0x0, 0x0, 0x0, 0x0⟩,  -- VAR.STEP
  ⟨0x18, 8, 1, 0x0, 0x0, 0x0, 0xff, 0x0, 0x0⟩,  -- VAR.FLAGS
  ⟨0x20, 8, 1, 0xf4240, 0x0, 0xffffffffffffffff, 0x0, 0x0, 0x0⟩,  -- VAR.WDOG
  ⟨0x28, 8, 1, 0x0, 0x3c0000ffffffffff, 0x0, 0xc000000000000000, 0x0, 0x0⟩,  -- VAR.STALL_LOG
  ⟨0x30, 8, 1, 0x0, 0x3fc0ffffffffffff, 0x0, 0xc000000000000000, 0x0, 0x0⟩,  -- VAR.SKEW_LOG
  ⟨0x38, 8, 1, 0x0, 0x0, 0xffffffff, 0x0, 0x0, 0x0⟩,  -- VAR.LAZY_SKIP
  ⟨0x40, 8, 1, 0x0, 0x0, 0xffffffff, 0x0, 0x0, 0x0⟩,  -- VAR.ROW_AHEAD
  ⟨0x48, 8, 1, 0x0, 0x0, 0x0, 0x0, 0x0, 0xffffffffffff⟩,  -- VAR.CHG_BASE
  ⟨0x50, 8, 1, 0x0, 0x0, 0xffffffffffff, 0x0, 0x0, 0x0⟩,  -- VAR.PUSHED
  ⟨0x58, 8, 1, 0x0, 0x7f7f7f7f, 0x0, 0x0, 0x0, 0x0⟩,  -- VAR.PROG
  ⟨0x60, 8, 1, 0x0, 0x0, 0xffffffff, 0x0, 0x0, 0x0⟩,  -- VAR.OOB_WRITE_COUNT
  ⟨0x68, 8, 1, 0x0, 0x0, 0xffffffff, 0x0, 0x0, 0x0⟩,  -- VAR.OOB_READ_COUNT
  ⟨0x400, 8, 65, 0x0, 0xffffffffffffffff, 0x0, 0x0, 0x0, 0x0⟩  -- VAR.NORM[g]
]

/-- RING registers (R211). -/
def regsRing : List RegDef := [
  ⟨0x0, 8, 1, 0x7d0, 0x0, 0xfffff, 0x0, 0x0, 0x0⟩,  -- RING.POLL
  ⟨0x8, 8, 1, 0x0, 0x3fff00000000, 0xffffffff, 0x0, 0x0, 0x0⟩,  -- RING.POLL_STATUS
  ⟨0x10, 8, 1, 0x0, 0x1ffff, 0x1ffff00000000, 0x0, 0x0, 0x0⟩,  -- RING.TXN
  ⟨0x18, 8, 1, 0x0, 0x0, 0xffffffff, 0x0, 0x0, 0x0⟩,  -- RING.TXN_WAIT
  ⟨0x100, 8, 16, 0x0, 0x0, 0x0, 0x0, 0x0, 0xfffffffffffff7ff⟩,  -- RING.SCHED[a]
  ⟨0x180, 8, 16, 0x0, 0x0, 0x0, 0x0, 0x0, 0xffff⟩  -- RING.FTD[a]
]

/-- GRP registers (R212). -/
def regsGrp : List RegDef := [
  ⟨0x0, 8, 1, 0x0, 0x0, 0x1, 0x0, 0x0, 0xfffffffffffff000⟩,  -- RING.GRP[g].DB
  ⟨0x8, 8, 1, 0x0, 0x0, 0x0, 0x0, 0x0, 0xfffffffffffff01f⟩,  -- RING.GRP[g].CQ
  ⟨0x10, 8, 1, 0x0, 0xffffffffffffffff, 0x0, 0x0, 0x0, 0x0⟩,  -- RING.GRP[g].CQ_POS
  ⟨0x18, 8, 1, 0x10000, 0x0, 0xffff00010000, 0x0, 0x0, 0x7ff⟩,  -- RING.GRP[g].IRQ
  ⟨0x20, 8, 1, 0x0, 0xffffffffffffffff, 0x0, 0x0, 0x0, 0x0⟩,  -- RING.GRP[g].SUMMARY_SEEN
  ⟨0x28, 8, 1, 0x0, 0x1, 0x0, 0xe, 0x0, 0x0⟩  -- RING.GRP[g].STATUS
]

/-- RINGR registers (R212). -/
def regsRingr : List RegDef := [
  ⟨0x0, 8, 1, 0x0, 0x0, 0x0, 0x0, 0x0, 0xfffffffffffffc1f⟩,  -- RING[r].BASE
  ⟨0x8, 8, 1, 0x0, 0x1f, 0x0, 0x0, 0x0, 0xff80⟩,  -- RING[r].CFG
  ⟨0x10, 8, 1, 0x0, 0x0, 0x1, 0x0, 0x2, 0x0⟩,  -- RING[r].CTL
  ⟨0x18, 8, 1, 0x0, 0xf03, 0x3ff1000, 0x0, 0x0, 0x0⟩,  -- RING[r].STATE
  ⟨0x20, 8, 1, 0x0, 0xffffffffffffffff, 0x0, 0x0, 0x0, 0x0⟩,  -- RING[r].POS
  ⟨0x28, 8, 1, 0x0, 0x0, 0xffffffff, 0x0, 0x0, 0x0⟩,  -- RING[r].RETIRED
  ⟨0x30, 8, 1, 0x0, 0x0, 0xffffffffffffffff, 0x0, 0x0, 0x0⟩,  -- RING[r].SEED
  ⟨0x38, 8, 1, 0x0, 0x0, 0xffffffffffffffff, 0x0, 0x0, 0x0⟩  -- RING[r].KEY_HI
]

/-- MX registers (R129). -/
def regsMx : List RegDef := [
  ⟨0x0, 8, 1, 0x0, 0x4, 0x0, 0x0, 0x0, 0x1⟩,  -- MX.CTL
  ⟨0x8, 8, 1, 0x0, 0xf330, 0x0, 0x0, 0x0, 0x0⟩,  -- MX.STATUS
  ⟨0x10, 8, 1, 0x0, 0x0, 0x0, 0xff, 0x0, 0x0⟩,  -- MX.FLAGS
  ⟨0x18, 8, 1, 0x0, 0x0, 0x0, 0x0, 0x303, 0x0⟩,  -- MX.PARK
  ⟨0x20, 8, 1, 0x186a0, 0x0, 0xffffffff, 0x0, 0x0, 0x0⟩,  -- MX.PARK_THRESH
  ⟨0x28, 8, 1, 0xf4240, 0x0, 0xffffffffffffffff, 0x0, 0x0, 0x0⟩,  -- MX.WDOG
  ⟨0x30, 8, 1, 0x0, 0x3c0000ffffffffff, 0x0, 0xc000000000000000, 0x0, 0x0⟩,  -- MX.STALL_LOG
  ⟨0x38, 8, 1, 0x0, 0x3e0000ffffffffff, 0x0, 0xc000000000000000, 0x0, 0x0⟩  -- MX.PARK_LOG
]

/-- VE registers (R158). -/
def regsVe : List RegDef := [
  ⟨0x0, 8, 1, 0x0, 0xff, 0x0, 0x0, 0x0, 0x0⟩,  -- VE.STATUS
  ⟨0x8, 8, 1, 0x0, 0x0, 0x0, 0xff, 0x0, 0x0⟩,  -- VE.FLAGS
  ⟨0x10, 8, 1, 0xf4240, 0x0, 0xffffffffffffffff, 0x0, 0x0, 0x0⟩,  -- VE.WDOG
  ⟨0x18, 8, 1, 0x0, 0x3c0000ffffffffff, 0x0, 0xc000000000000000, 0x0, 0x0⟩,  -- VE.STALL_LOG
  ⟨0x20, 8, 1, 0x0, 0x0, 0xffffffff, 0x0, 0x0, 0x0⟩,  -- VE.CLAMP_COUNT
  ⟨0x28, 8, 1, 0x0, 0x0, 0xffffffff, 0x0, 0x0, 0x0⟩  -- VE.NONFINITE_COUNT
]

/-- SFU registers (R179). -/
def regsSfu : List RegDef := [
  ⟨0x0, 8, 1, 0x0, 0xfd, 0x0, 0x0, 0x0, 0x0⟩,  -- SFU.STATUS
  ⟨0x8, 8, 1, 0x0, 0x0, 0x0, 0xff, 0x0, 0x0⟩,  -- SFU.FLAGS
  ⟨0x10, 8, 1, 0x0, 0x0, 0xffffffff, 0x0, 0x0, 0x0⟩,  -- SFU.LOGIT_SAT_COUNT
  ⟨0x18, 8, 1, 0x0, 0x0, 0xffffffff, 0x0, 0x0, 0x0⟩,  -- SFU.EMPTY_SOFTMAX_COUNT
  ⟨0x20, 8, 1, 0x0, 0x0, 0xffffffff, 0x0, 0x0, 0x0⟩,  -- SFU.EMPTY_REDUCE_COUNT
  ⟨0x28, 8, 1, 0x10001, 0xffffffff, 0x0, 0x0, 0x0, 0x0⟩  -- SFU.TABLE_ID
]

/-- PAL registers (R84). -/
def regsPal : List RegDef := [
  ⟨0x0, 8, 1, 0x1000002, 0x0, 0x0, 0x0, 0x0, 0xffff0003⟩,  -- PAL.CTL
  ⟨0x8, 8, 1, 0x0, 0x1ff, 0x0, 0x0, 0x0, 0x0⟩,  -- PAL.STATUS
  ⟨0x10, 8, 1, 0x0, 0x0, 0xffffffff, 0x0, 0x0, 0x0⟩,  -- PAL.ECC_CE_COUNT
  ⟨0x18, 8, 1, 0x0, 0x7ff00000000fffff, 0x0, 0x8000000000000000, 0x0, 0x0⟩,  -- PAL.ECC_CE_LOG
  ⟨0x20, 8, 1, 0x0, 0x0, 0xffffffff, 0x0, 0x0, 0x0⟩,  -- PAL.ECC_UE_COUNT
  ⟨0x28, 8, 1, 0x0, 0xfffff, 0x0, 0xc000000000000000, 0x0, 0x0⟩,  -- PAL.ECC_UE_LOG
  ⟨0x30, 8, 1, 0x0, 0xfffff, 0x0, 0x0, 0x0, 0x0⟩,  -- PAL.POISONED
  ⟨0x38, 8, 1, 0x0, 0x0, 0xffffffff, 0x0, 0x0, 0x0⟩,  -- PAL.DARK_REFUSED
  ⟨0x40, 8, 1, 0x0, 0x0, 0x41ff0000000fffff, 0x0, 0x8000000000000000, 0x0⟩,  -- PAL.INJECT
  ⟨0x48, 8, 1, 0x0, 0x0, 0x3ffffffffff, 0x0, 0x0, 0x0⟩,  -- PAL.AC_ADD
  ⟨0x2000, 8, 1024, 0x0, 0x0, 0xffffffff, 0x0, 0x0, 0x0⟩  -- PAL.AC[n]
]

/-- SEQ registers (R104, R195, R238). -/
def regsSeq : List RegDef := [
  ⟨0x800, 8, 1, 0x0, 0x0, 0xffffffff, 0x0, 0x0, 0x0⟩,  -- SEQ.OOB_WRITE_COUNT
  ⟨0x808, 8, 1, 0x0, 0x0, 0xffffffff, 0x0, 0x0, 0x0⟩,  -- SEQ.OOB_READ_COUNT
  ⟨0x810, 8, 1, 0x0, 0x0, 0xffffffff, 0x0, 0x0, 0x0⟩,  -- SEQ.INDEX_CLAMP_COUNT
  ⟨0x818, 8, 1, 0x0, 0xffffffffff, 0x0, 0xc000000000000000, 0x0, 0x0⟩,  -- SEQ.INDEX_FAULT_LOG
  ⟨0x820, 8, 1, 0x0, 0xffffffff, 0x0, 0x0, 0x0, 0x0⟩,  -- SEQ.INDEX_FAULT_VALUE
  ⟨0x0, 8, 1, 0x0, 0x3ff03ff001f, 0x0, 0x0, 0x0, 0x0⟩,  -- SEQ.STATUS
  ⟨0x8, 8, 1, 0x0, 0xff07ffffffffffff, 0x0, 0x0, 0x0, 0x0⟩,  -- SEQ.LAST_ISSUE
  ⟨0x900, 8, 4, 0x0, 0xe00000ffffffffff, 0x0, 0x0, 0x0, 0x0⟩,  -- SEQ.LC[n]
  ⟨0x920, 8, 1, 0x0, 0xffffffff, 0xffffffff00000000, 0x0, 0x0, 0x0⟩,  -- SEQ.LC_LOAN
  ⟨0x928, 8, 1, 0x0, 0x0, 0xffffffff, 0x0, 0x0, 0x0⟩  -- SEQ.LATE_COUNT
]

/-- PMC registers (R403). -/
def regsPmc : List RegDef := [
  ⟨0x0, 8, 1, 0x1, 0x2, 0xd, 0x0, 0x0, 0x0⟩,  -- PMC.CTL
  ⟨0x8, 8, 1, 0x0, 0x0, 0x0, 0xffff, 0x0, 0x0⟩,  -- PMC.OVF
  ⟨0x10, 8, 1, 0x0, 0xf03f, 0xffffffff00000f00, 0x0, 0x0, 0x0⟩,  -- PMC.SBUF_CTL
  ⟨0x18, 8, 1, 0x0, 0x0, 0x0, 0x0, 0x0, 0xfffffffffffff01f⟩,  -- PMC.DUMP_BASE
  ⟨0x20, 8, 1, 0x0, 0xffffffff00000000, 0xffff0001, 0x0, 0x0, 0x0⟩,  -- PMC.DUMP_CTL
  ⟨0x28, 8, 1, 0x0, 0x0, 0xffffffff, 0x0, 0x0, 0x0⟩,  -- PMC.DUMP_LOST
  ⟨0x30, 8, 1, 0x0, 0xfffff, 0xffffffff00000000, 0x0, 0x0, 0x0⟩,  -- PMC.WIN
  ⟨0x100, 8, 16, 0x0, 0x0, 0xffffffffffff, 0x0, 0x0, 0x0⟩,  -- PMC.CTR[n]
  ⟨0x180, 8, 16, 0x0, 0x0, 0xf0ffffff0000f0ff, 0x0, 0x0, 0x0⟩,  -- PMC.EVSEL[n]
  ⟨0x200, 8, 24, 0x0, 0x0, 0xffffffffffffffff, 0x0, 0x0, 0x0⟩,  -- PMC.TD[u][c]
  ⟨0x2c0, 8, 4, 0x0, 0x0, 0xffffffffffffffff, 0x0, 0x0, 0x0⟩,  -- PMC.TD_BEATS[u]
  ⟨0x400, 8, 128, 0x0, 0xffffffffffffffff, 0x0, 0x0, 0x0, 0x0⟩  -- PMC.SBUF[i]
]

/-- The registers of a block. -/
def blkRegs : Blk → List RegDef
  | .cap => regsCap
  | .tb => regsTb
  | .pwr => regsPwr
  | .plant => regsPlant
  | .risk => regsRisk
  | .dbg => regsDbg
  | .fuse => regsFuse
  | .cmc => regsCmc
  | .host => regsHost
  | .atl => regsAtl
  | .coll => regsColl
  | .link => regsLink
  | .hbm => regsHbm
  | .var => regsVar
  | .ring => regsRing
  | .grp => regsGrp
  | .ringr => regsRingr
  | .mx => regsMx
  | .ve => regsVe
  | .sfu => regsSfu
  | .pal => regsPal
  | .seq => regsSeq
  | .pmc => regsPmc

end Sys2Proof.Machine
end

