-- ==== Sys2Proof/Machine/Fields.lean ====
section
/-! DEFINITION. The named register fields: BLOCK_REGISTER_FIELD with its block, offset, array and bits, from the
same tables as the register masks. -/

namespace Sys2Proof.Machine

/-- A register field: its block, the offset of its register, the stride and the count of its array, and its bits. -/
structure Fld where
  blk : Blk
  off : Nat
  stride : Nat
  count : Nat
  hi : Nat
  lo : Nat
  deriving DecidableEq, Repr

/-- The width of a field. -/
def Fld.width (f : Fld) : Nat := f.hi - f.lo + 1

/-- CAP.ID.FAMILY (R22). -/ def CAP_ID_FAMILY : Fld := ⟨.cap, 0x0, 8, 1, 63, 48⟩
/-- CAP.ID.PART (R22). -/ def CAP_ID_PART : Fld := ⟨.cap, 0x0, 8, 1, 47, 32⟩
/-- CAP.ID.STEPPING (R22). -/ def CAP_ID_STEPPING : Fld := ⟨.cap, 0x0, 8, 1, 31, 24⟩
/-- CAP.ID.CAP_VERSION (R22). -/ def CAP_ID_CAP_VERSION : Fld := ⟨.cap, 0x0, 8, 1, 23, 16⟩
/-- CAP.TILES.TILE_COUNT (R22). -/ def CAP_TILES_TILE_COUNT : Fld := ⟨.cap, 0x8, 8, 1, 47, 32⟩
/-- CAP.TILES.MESH_X (R22). -/ def CAP_TILES_MESH_X : Fld := ⟨.cap, 0x8, 8, 1, 31, 24⟩
/-- CAP.TILES.MESH_Y (R22). -/ def CAP_TILES_MESH_Y : Fld := ⟨.cap, 0x8, 8, 1, 23, 16⟩
/-- CAP.TILES.DIES (R22). -/ def CAP_TILES_DIES : Fld := ⟨.cap, 0x8, 8, 1, 15, 8⟩
/-- CAP.TILES.TILES_PER_DIE (R22). -/ def CAP_TILES_TILES_PER_DIE : Fld := ⟨.cap, 0x8, 8, 1, 7, 0⟩
/-- CAP.ARRAY.ROWS (R22). -/ def CAP_ARRAY_ROWS : Fld := ⟨.cap, 0x10, 8, 1, 63, 48⟩
/-- CAP.ARRAY.COLS (R22). -/ def CAP_ARRAY_COLS : Fld := ⟨.cap, 0x10, 8, 1, 47, 32⟩
/-- CAP.ARRAY.MAC_16 (R22). -/ def CAP_ARRAY_MAC_16 : Fld := ⟨.cap, 0x10, 8, 1, 31, 24⟩
/-- CAP.ARRAY.MAC_8 (R22). -/ def CAP_ARRAY_MAC_8 : Fld := ⟨.cap, 0x10, 8, 1, 23, 16⟩
/-- CAP.ARRAY.MAC_4 (R22). -/ def CAP_ARRAY_MAC_4 : Fld := ⟨.cap, 0x10, 8, 1, 15, 8⟩
/-- CAP.ARRAY.SPLIT (R22). -/ def CAP_ARRAY_SPLIT : Fld := ⟨.cap, 0x10, 8, 1, 0, 0⟩
/-- CAP.VECTOR.VE_LANES (R22). -/ def CAP_VECTOR_VE_LANES : Fld := ⟨.cap, 0x18, 8, 1, 63, 48⟩
/-- CAP.VECTOR.SFU_LANES (R22). -/ def CAP_VECTOR_SFU_LANES : Fld := ⟨.cap, 0x18, 8, 1, 47, 32⟩
/-- CAP.PALETTE.PAL_KIB (R22). -/ def CAP_PALETTE_PAL_KIB : Fld := ⟨.cap, 0x20, 8, 1, 63, 40⟩
/-- CAP.PALETTE.BANKS (R22). -/ def CAP_PALETTE_BANKS : Fld := ⟨.cap, 0x20, 8, 1, 39, 24⟩
/-- CAP.PALETTE.BEAT_BYTES (R22). -/ def CAP_PALETTE_BEAT_BYTES : Fld := ⟨.cap, 0x20, 8, 1, 23, 16⟩
/-- CAP.PALETTE.BANK_KIB (R22). -/ def CAP_PALETTE_BANK_KIB : Fld := ⟨.cap, 0x20, 8, 1, 15, 0⟩
/-- CAP.SYNC.ARRIVAL_COUNTERS (R22). -/ def CAP_SYNC_ARRIVAL_COUNTERS : Fld := ⟨.cap, 0x28, 8, 1, 63, 48⟩
/-- CAP.SYNC.COUNTER_BITS (R22). -/ def CAP_SYNC_COUNTER_BITS : Fld := ⟨.cap, 0x28, 8, 1, 47, 40⟩
/-- CAP.SYNC.LAUNCH_COMPARATORS (R22). -/ def CAP_SYNC_LAUNCH_COMPARATORS : Fld := ⟨.cap, 0x28, 8, 1, 39, 32⟩
/-- CAP.SYNC.PMC_COUNT (R22). -/ def CAP_SYNC_PMC_COUNT : Fld := ⟨.cap, 0x28, 8, 1, 31, 24⟩
/-- CAP.SYNC.PMC_BITS (R22). -/ def CAP_SYNC_PMC_BITS : Fld := ⟨.cap, 0x28, 8, 1, 23, 16⟩
/-- CAP.SYNC.STAMP_BITS (R22). -/ def CAP_SYNC_STAMP_BITS : Fld := ⟨.cap, 0x28, 8, 1, 15, 8⟩
/-- CAP.MEMORY.STACKS (R22). -/ def CAP_MEMORY_STACKS : Fld := ⟨.cap, 0x30, 8, 1, 63, 56⟩
/-- CAP.MEMORY.UPDATE_DIES (R22). -/ def CAP_MEMORY_UPDATE_DIES : Fld := ⟨.cap, 0x30, 8, 1, 55, 48⟩
/-- CAP.MEMORY.VAR_LANES (R22). -/ def CAP_MEMORY_VAR_LANES : Fld := ⟨.cap, 0x30, 8, 1, 47, 32⟩
/-- CAP.MEMORY.STACK_MIB (R22). -/ def CAP_MEMORY_STACK_MIB : Fld := ⟨.cap, 0x30, 8, 1, 31, 0⟩
/-- CAP.FABRIC.FABRIC_PORTS (R22). -/ def CAP_FABRIC_FABRIC_PORTS : Fld := ⟨.cap, 0x38, 8, 1, 63, 56⟩
/-- CAP.FABRIC.LANES_PER_PORT (R22). -/ def CAP_FABRIC_LANES_PER_PORT : Fld := ⟨.cap, 0x38, 8, 1, 55, 48⟩
/-- CAP.FABRIC.HOST_PORTS (R22). -/ def CAP_FABRIC_HOST_PORTS : Fld := ⟨.cap, 0x38, 8, 1, 47, 40⟩
/-- CAP.FABRIC.ATELIERS (R22). -/ def CAP_FABRIC_ATELIERS : Fld := ⟨.cap, 0x38, 8, 1, 39, 32⟩
/-- CAP.FABRIC.GROUP_MAX (R22). -/ def CAP_FABRIC_GROUP_MAX : Fld := ⟨.cap, 0x38, 8, 1, 31, 16⟩
/-- CAP.FABRIC.LANE_RATE (R22). -/ def CAP_FABRIC_LANE_RATE : Fld := ⟨.cap, 0x38, 8, 1, 15, 0⟩
/-- CAP.QUEUES.RINGS (R22). -/ def CAP_QUEUES_RINGS : Fld := ⟨.cap, 0x40, 8, 1, 63, 40⟩
/-- CAP.QUEUES.RING_LOG2_ENTRIES (R22). -/ def CAP_QUEUES_RING_LOG2_ENTRIES : Fld := ⟨.cap, 0x40, 8, 1, 39, 32⟩
/-- CAP.QUEUES.OUTSTANDING (R22). -/ def CAP_QUEUES_OUTSTANDING : Fld := ⟨.cap, 0x40, 8, 1, 31, 0⟩
/-- CAP.POWER.DOMAINS (R22). -/ def CAP_POWER_DOMAINS : Fld := ⟨.cap, 0x48, 8, 1, 63, 48⟩
/-- CAP.POWER.RAILS (R22). -/ def CAP_POWER_RAILS : Fld := ⟨.cap, 0x48, 8, 1, 47, 40⟩
/-- CAP.POWER.CEILING_W (R22). -/ def CAP_POWER_CEILING_W : Fld := ⟨.cap, 0x48, 8, 1, 39, 24⟩
/-- CAP.LATENCY.MESH_HOP_BEATS (R22). -/ def CAP_LATENCY_MESH_HOP_BEATS : Fld := ⟨.cap, 0x50, 8, 1, 63, 48⟩
/-- CAP.LATENCY.DIE_CROSS_BEATS (R22). -/ def CAP_LATENCY_DIE_CROSS_BEATS : Fld := ⟨.cap, 0x50, 8, 1, 47, 32⟩
/-- CAP.LATENCY.FABRIC_HOP_NS (R22). -/ def CAP_LATENCY_FABRIC_HOP_NS : Fld := ⟨.cap, 0x50, 8, 1, 31, 16⟩
/-- CAP.TIMEBASE.TB_KHZ (R22). -/ def CAP_TIMEBASE_TB_KHZ : Fld := ⟨.cap, 0x58, 8, 1, 63, 32⟩
/-- CAP.TIMEBASE.REF_MHZ (R22). -/ def CAP_TIMEBASE_REF_MHZ : Fld := ⟨.cap, 0x58, 8, 1, 31, 16⟩
/-- CAP.TIMEBASE.SKEW_TICKS (R22). -/ def CAP_TIMEBASE_SKEW_TICKS : Fld := ⟨.cap, 0x58, 8, 1, 15, 8⟩
/-- PAL.CTL.SCRUB_INTERVAL (R84). -/ def PAL_CTL_SCRUB_INTERVAL : Fld := ⟨.pal, 0x0, 8, 1, 31, 16⟩
/-- PAL.CTL.SCRUB_EN (R84). -/ def PAL_CTL_SCRUB_EN : Fld := ⟨.pal, 0x0, 8, 1, 1, 1⟩
/-- PAL.CTL.EN (R84). -/ def PAL_CTL_EN : Fld := ⟨.pal, 0x0, 8, 1, 0, 0⟩
/-- PAL.STATUS.SCRUB_ACTIVE (R84). -/ def PAL_STATUS_SCRUB_ACTIVE : Fld := ⟨.pal, 0x8, 8, 1, 8, 8⟩
/-- PAL.STATUS.Q3_GATE (R84). -/ def PAL_STATUS_Q3_GATE : Fld := ⟨.pal, 0x8, 8, 1, 7, 6⟩
/-- PAL.STATUS.Q2_GATE (R84). -/ def PAL_STATUS_Q2_GATE : Fld := ⟨.pal, 0x8, 8, 1, 5, 4⟩
/-- PAL.STATUS.Q1_GATE (R84). -/ def PAL_STATUS_Q1_GATE : Fld := ⟨.pal, 0x8, 8, 1, 3, 2⟩
/-- PAL.STATUS.Q0_GATE (R84). -/ def PAL_STATUS_Q0_GATE : Fld := ⟨.pal, 0x8, 8, 1, 1, 0⟩
/-- PAL.ECC_CE_COUNT.CE_COUNT (R84). -/ def PAL_ECC_CE_COUNT_CE_COUNT : Fld := ⟨.pal, 0x10, 8, 1, 31, 0⟩
/-- PAL.ECC_CE_LOG.VALID (R84). -/ def PAL_ECC_CE_LOG_VALID : Fld := ⟨.pal, 0x18, 8, 1, 63, 63⟩
/-- PAL.ECC_CE_LOG.WORD (R84). -/ def PAL_ECC_CE_LOG_WORD : Fld := ⟨.pal, 0x18, 8, 1, 62, 60⟩
/-- PAL.ECC_CE_LOG.SYNDROME (R84). -/ def PAL_ECC_CE_LOG_SYNDROME : Fld := ⟨.pal, 0x18, 8, 1, 59, 52⟩
/-- PAL.ECC_CE_LOG.GRANULE (R84). -/ def PAL_ECC_CE_LOG_GRANULE : Fld := ⟨.pal, 0x18, 8, 1, 19, 0⟩
/-- PAL.ECC_UE_COUNT.UE_COUNT (R84). -/ def PAL_ECC_UE_COUNT_UE_COUNT : Fld := ⟨.pal, 0x20, 8, 1, 31, 0⟩
/-- PAL.ECC_UE_LOG.VALID (R84). -/ def PAL_ECC_UE_LOG_VALID : Fld := ⟨.pal, 0x28, 8, 1, 63, 63⟩
/-- PAL.ECC_UE_LOG.OVERRUN (R84). -/ def PAL_ECC_UE_LOG_OVERRUN : Fld := ⟨.pal, 0x28, 8, 1, 62, 62⟩
/-- PAL.ECC_UE_LOG.GRANULE (R84). -/ def PAL_ECC_UE_LOG_GRANULE : Fld := ⟨.pal, 0x28, 8, 1, 19, 0⟩
/-- PAL.POISONED.COUNT (R84). -/ def PAL_POISONED_COUNT : Fld := ⟨.pal, 0x30, 8, 1, 19, 0⟩
/-- PAL.DARK_REFUSED.COUNT (R84). -/ def PAL_DARK_REFUSED_COUNT : Fld := ⟨.pal, 0x38, 8, 1, 31, 0⟩
/-- PAL.INJECT.ARM (R84). -/ def PAL_INJECT_ARM : Fld := ⟨.pal, 0x40, 8, 1, 63, 63⟩
/-- PAL.INJECT.DOUBLE (R84). -/ def PAL_INJECT_DOUBLE : Fld := ⟨.pal, 0x40, 8, 1, 62, 62⟩
/-- PAL.INJECT.WORD (R84). -/ def PAL_INJECT_WORD : Fld := ⟨.pal, 0x40, 8, 1, 56, 54⟩
/-- PAL.INJECT.BIT (R84). -/ def PAL_INJECT_BIT : Fld := ⟨.pal, 0x40, 8, 1, 53, 48⟩
/-- PAL.INJECT.GRANULE (R84). -/ def PAL_INJECT_GRANULE : Fld := ⟨.pal, 0x40, 8, 1, 19, 0⟩
/-- PAL.AC_ADD.INDEX (R84). -/ def PAL_AC_ADD_INDEX : Fld := ⟨.pal, 0x48, 8, 1, 41, 32⟩
/-- PAL.AC_ADD.ADDEND (R84). -/ def PAL_AC_ADD_ADDEND : Fld := ⟨.pal, 0x48, 8, 1, 31, 0⟩
/-- PAL.AC[n].VALUE (R84). -/ def PAL_AC_VALUE : Fld := ⟨.pal, 0x2000, 8, 1024, 31, 0⟩
/-- SEQ.OOB_WRITE_COUNT.COUNT (R104). -/ def SEQ_OOB_WRITE_COUNT_COUNT : Fld := ⟨.seq, 0x800, 8, 1, 31, 0⟩
/-- SEQ.OOB_READ_COUNT.COUNT (R104). -/ def SEQ_OOB_READ_COUNT_COUNT : Fld := ⟨.seq, 0x808, 8, 1, 31, 0⟩
/-- SEQ.INDEX_CLAMP_COUNT.COUNT (R104). -/ def SEQ_INDEX_CLAMP_COUNT_COUNT : Fld := ⟨.seq, 0x810, 8, 1, 31, 0⟩
/-- SEQ.INDEX_FAULT_LOG.VALID (R104). -/ def SEQ_INDEX_FAULT_LOG_VALID : Fld := ⟨.seq, 0x818, 8, 1, 63, 63⟩
/-- SEQ.INDEX_FAULT_LOG.OVERRUN (R104). -/ def SEQ_INDEX_FAULT_LOG_OVERRUN : Fld := ⟨.seq, 0x818, 8, 1, 62, 62⟩
/-- SEQ.INDEX_FAULT_LOG.POSITION (R104). -/ def SEQ_INDEX_FAULT_LOG_POSITION : Fld := ⟨.seq, 0x818, 8, 1, 39, 0⟩
/-- SEQ.INDEX_FAULT_VALUE.VALUE (R104). -/ def SEQ_INDEX_FAULT_VALUE_VALUE : Fld := ⟨.seq, 0x820, 8, 1, 31, 0⟩
/-- MX.CTL.TREE_EN (R129). -/ def MX_CTL_TREE_EN : Fld := ⟨.mx, 0x0, 8, 1, 2, 2⟩
/-- MX.CTL.SPLIT (R129). -/ def MX_CTL_SPLIT : Fld := ⟨.mx, 0x0, 8, 1, 0, 0⟩
/-- MX.STATUS.SPLIT_ACTIVE (R129). -/ def MX_STATUS_SPLIT_ACTIVE : Fld := ⟨.mx, 0x8, 8, 1, 15, 15⟩
/-- MX.STATUS.SPLIT_PENDING (R129). -/ def MX_STATUS_SPLIT_PENDING : Fld := ⟨.mx, 0x8, 8, 1, 14, 14⟩
/-- MX.STATUS.FROZEN (R129). -/ def MX_STATUS_FROZEN : Fld := ⟨.mx, 0x8, 8, 1, 13, 13⟩
/-- MX.STATUS.TREE_ACTIVE (R129). -/ def MX_STATUS_TREE_ACTIVE : Fld := ⟨.mx, 0x8, 8, 1, 12, 12⟩
/-- MX.STATUS.PARKED_R (R129). -/ def MX_STATUS_PARKED_R : Fld := ⟨.mx, 0x8, 8, 1, 9, 9⟩
/-- MX.STATUS.PARKED_L (R129). -/ def MX_STATUS_PARKED_L : Fld := ⟨.mx, 0x8, 8, 1, 8, 8⟩
/-- MX.STATUS.BUSY_R (R129). -/ def MX_STATUS_BUSY_R : Fld := ⟨.mx, 0x8, 8, 1, 5, 5⟩
/-- MX.STATUS.BUSY_L (R129). -/ def MX_STATUS_BUSY_L : Fld := ⟨.mx, 0x8, 8, 1, 4, 4⟩
/-- MX.FLAGS.FLAGS (R129). -/ def MX_FLAGS_FLAGS : Fld := ⟨.mx, 0x10, 8, 1, 7, 0⟩
/-- MX.PARK.RELEASE_R (R129). -/ def MX_PARK_RELEASE_R : Fld := ⟨.mx, 0x18, 8, 1, 9, 9⟩
/-- MX.PARK.RELEASE_L (R129). -/ def MX_PARK_RELEASE_L : Fld := ⟨.mx, 0x18, 8, 1, 8, 8⟩
/-- MX.PARK.PARK_R (R129). -/ def MX_PARK_PARK_R : Fld := ⟨.mx, 0x18, 8, 1, 1, 1⟩
/-- MX.PARK.PARK_L (R129). -/ def MX_PARK_PARK_L : Fld := ⟨.mx, 0x18, 8, 1, 0, 0⟩
/-- MX.PARK_THRESH.TICKS (R129). -/ def MX_PARK_THRESH_TICKS : Fld := ⟨.mx, 0x20, 8, 1, 31, 0⟩
/-- MX.WDOG.THRESH_B (R129). -/ def MX_WDOG_THRESH_B : Fld := ⟨.mx, 0x28, 8, 1, 63, 32⟩
/-- MX.WDOG.THRESH_A (R129). -/ def MX_WDOG_THRESH_A : Fld := ⟨.mx, 0x28, 8, 1, 31, 0⟩
/-- MX.STALL_LOG.VALID (R129). -/ def MX_STALL_LOG_VALID : Fld := ⟨.mx, 0x30, 8, 1, 63, 63⟩
/-- MX.STALL_LOG.OVERRUN (R129). -/ def MX_STALL_LOG_OVERRUN : Fld := ⟨.mx, 0x30, 8, 1, 62, 62⟩
/-- MX.STALL_LOG.CAUSE (R129). -/ def MX_STALL_LOG_CAUSE : Fld := ⟨.mx, 0x30, 8, 1, 61, 58⟩
/-- MX.STALL_LOG.START (R129). -/ def MX_STALL_LOG_START : Fld := ⟨.mx, 0x30, 8, 1, 39, 0⟩
/-- MX.PARK_LOG.VALID (R129). -/ def MX_PARK_LOG_VALID : Fld := ⟨.mx, 0x38, 8, 1, 63, 63⟩
/-- MX.PARK_LOG.OVERRUN (R129). -/ def MX_PARK_LOG_OVERRUN : Fld := ⟨.mx, 0x38, 8, 1, 62, 62⟩
/-- MX.PARK_LOG.HALF (R129). -/ def MX_PARK_LOG_HALF : Fld := ⟨.mx, 0x38, 8, 1, 61, 61⟩
/-- MX.PARK_LOG.REASON (R129). -/ def MX_PARK_LOG_REASON : Fld := ⟨.mx, 0x38, 8, 1, 60, 57⟩
/-- MX.PARK_LOG.START (R129). -/ def MX_PARK_LOG_START : Fld := ⟨.mx, 0x38, 8, 1, 39, 0⟩
/-- VE.STATUS.PACE_WAIT (R158). -/ def VE_STATUS_PACE_WAIT : Fld := ⟨.ve, 0x0, 8, 1, 7, 7⟩
/-- VE.STATUS.FROZEN (R158). -/ def VE_STATUS_FROZEN : Fld := ⟨.ve, 0x0, 8, 1, 6, 6⟩
/-- VE.STATUS.PHASE (R158). -/ def VE_STATUS_PHASE : Fld := ⟨.ve, 0x0, 8, 1, 5, 4⟩
/-- VE.STATUS.MODE (R158). -/ def VE_STATUS_MODE : Fld := ⟨.ve, 0x0, 8, 1, 3, 2⟩
/-- VE.STATUS.SFU_HELD (R158). -/ def VE_STATUS_SFU_HELD : Fld := ⟨.ve, 0x0, 8, 1, 1, 1⟩
/-- VE.STATUS.BUSY (R158). -/ def VE_STATUS_BUSY : Fld := ⟨.ve, 0x0, 8, 1, 0, 0⟩
/-- VE.FLAGS.FLAGS (R158). -/ def VE_FLAGS_FLAGS : Fld := ⟨.ve, 0x8, 8, 1, 7, 0⟩
/-- VE.WDOG.THRESH_B (R158). -/ def VE_WDOG_THRESH_B : Fld := ⟨.ve, 0x10, 8, 1, 63, 32⟩
/-- VE.WDOG.THRESH_A (R158). -/ def VE_WDOG_THRESH_A : Fld := ⟨.ve, 0x10, 8, 1, 31, 0⟩
/-- VE.STALL_LOG.VALID (R158). -/ def VE_STALL_LOG_VALID : Fld := ⟨.ve, 0x18, 8, 1, 63, 63⟩
/-- VE.STALL_LOG.OVERRUN (R158). -/ def VE_STALL_LOG_OVERRUN : Fld := ⟨.ve, 0x18, 8, 1, 62, 62⟩
/-- VE.STALL_LOG.CAUSE (R158). -/ def VE_STALL_LOG_CAUSE : Fld := ⟨.ve, 0x18, 8, 1, 61, 58⟩
/-- VE.STALL_LOG.START (R158). -/ def VE_STALL_LOG_START : Fld := ⟨.ve, 0x18, 8, 1, 39, 0⟩
/-- VE.CLAMP_COUNT.COUNT (R158). -/ def VE_CLAMP_COUNT_COUNT : Fld := ⟨.ve, 0x20, 8, 1, 31, 0⟩
/-- VE.NONFINITE_COUNT.COUNT (R158). -/ def VE_NONFINITE_COUNT_COUNT : Fld := ⟨.ve, 0x28, 8, 1, 31, 0⟩
/-- SFU.STATUS.PASS (R179). -/ def SFU_STATUS_PASS : Fld := ⟨.sfu, 0x0, 8, 1, 7, 6⟩
/-- SFU.STATUS.MODE (R179). -/ def SFU_STATUS_MODE : Fld := ⟨.sfu, 0x0, 8, 1, 5, 4⟩
/-- SFU.STATUS.KIND (R179). -/ def SFU_STATUS_KIND : Fld := ⟨.sfu, 0x0, 8, 1, 3, 2⟩
/-- SFU.STATUS.BUSY (R179). -/ def SFU_STATUS_BUSY : Fld := ⟨.sfu, 0x0, 8, 1, 0, 0⟩
/-- SFU.FLAGS.FLAGS (R179). -/ def SFU_FLAGS_FLAGS : Fld := ⟨.sfu, 0x8, 8, 1, 7, 0⟩
/-- SFU.LOGIT_SAT_COUNT.COUNT (R179). -/ def SFU_LOGIT_SAT_COUNT_COUNT : Fld := ⟨.sfu, 0x10, 8, 1, 31, 0⟩
/-- SFU.EMPTY_SOFTMAX_COUNT.COUNT (R179). -/ def SFU_EMPTY_SOFTMAX_COUNT_COUNT : Fld := ⟨.sfu, 0x18, 8, 1, 31, 0⟩
/-- SFU.EMPTY_REDUCE_COUNT.COUNT (R179). -/ def SFU_EMPTY_REDUCE_COUNT_COUNT : Fld := ⟨.sfu, 0x20, 8, 1, 31, 0⟩
/-- SFU.TABLE_ID.METHOD (R179). -/ def SFU_TABLE_ID_METHOD : Fld := ⟨.sfu, 0x28, 8, 1, 31, 16⟩
/-- SFU.TABLE_ID.REVISION (R179). -/ def SFU_TABLE_ID_REVISION : Fld := ⟨.sfu, 0x28, 8, 1, 15, 0⟩
/-- SEQ.STATUS.DELIVERED (R195). -/ def SEQ_STATUS_DELIVERED : Fld := ⟨.seq, 0x0, 8, 1, 41, 32⟩
/-- SEQ.STATUS.PENDING (R195). -/ def SEQ_STATUS_PENDING : Fld := ⟨.seq, 0x0, 8, 1, 25, 16⟩
/-- SEQ.STATUS.POWER_WAIT (R195). -/ def SEQ_STATUS_POWER_WAIT : Fld := ⟨.seq, 0x0, 8, 1, 4, 4⟩
/-- SEQ.STATUS.COPY_BUSY (R195). -/ def SEQ_STATUS_COPY_BUSY : Fld := ⟨.seq, 0x0, 8, 1, 3, 3⟩
/-- SEQ.STATUS.VE_BUSY (R195). -/ def SEQ_STATUS_VE_BUSY : Fld := ⟨.seq, 0x0, 8, 1, 2, 2⟩
/-- SEQ.STATUS.MX_BUSY_R (R195). -/ def SEQ_STATUS_MX_BUSY_R : Fld := ⟨.seq, 0x0, 8, 1, 1, 1⟩
/-- SEQ.STATUS.MX_BUSY_L (R195). -/ def SEQ_STATUS_MX_BUSY_L : Fld := ⟨.seq, 0x0, 8, 1, 0, 0⟩
/-- SEQ.LAST_ISSUE.OPCODE (R195). -/ def SEQ_LAST_ISSUE_OPCODE : Fld := ⟨.seq, 0x8, 8, 1, 63, 56⟩
/-- SEQ.LAST_ISSUE.RING (R195). -/ def SEQ_LAST_ISSUE_RING : Fld := ⟨.seq, 0x8, 8, 1, 50, 32⟩
/-- SEQ.LAST_ISSUE.POSITION (R195). -/ def SEQ_LAST_ISSUE_POSITION : Fld := ⟨.seq, 0x8, 8, 1, 31, 0⟩
/-- RING.POLL.INTERVAL (R211). -/ def RING_POLL_INTERVAL : Fld := ⟨.ring, 0x0, 8, 1, 19, 0⟩
/-- RING.POLL_STATUS.ACTIVE_GROUPS (R211). -/ def RING_POLL_STATUS_ACTIVE_GROUPS : Fld := ⟨.ring, 0x8, 8, 1, 45, 32⟩
/-- RING.POLL_STATUS.OVERRUN (R211). -/ def RING_POLL_STATUS_OVERRUN : Fld := ⟨.ring, 0x8, 8, 1, 31, 0⟩
/-- RING.TXN.PEAK (R211). -/ def RING_TXN_PEAK : Fld := ⟨.ring, 0x10, 8, 1, 48, 32⟩
/-- RING.TXN.IN_USE (R211). -/ def RING_TXN_IN_USE : Fld := ⟨.ring, 0x10, 8, 1, 16, 0⟩
/-- RING.TXN_WAIT.COUNT (R211). -/ def RING_TXN_WAIT_COUNT : Fld := ⟨.ring, 0x18, 8, 1, 31, 0⟩
/-- RING.SCHED[a].ADDR (R211). -/ def RING_SCHED_ADDR : Fld := ⟨.ring, 0x100, 8, 16, 63, 12⟩
/-- RING.SCHED[a].LENGTH (R211). -/ def RING_SCHED_LENGTH : Fld := ⟨.ring, 0x100, 8, 16, 10, 0⟩
/-- RING.FTD[a].MB_COUNT (R211). -/ def RING_FTD_MB_COUNT : Fld := ⟨.ring, 0x180, 8, 16, 15, 0⟩
/-- RING.GRP[g].DB.ADDR (R212). -/ def GRP_DB_ADDR : Fld := ⟨.grp, 0x0, 8, 1, 63, 12⟩
/-- RING.GRP[g].DB.ACTIVE (R212). -/ def GRP_DB_ACTIVE : Fld := ⟨.grp, 0x0, 8, 1, 0, 0⟩
/-- RING.GRP[g].CQ.ADDR (R212). -/ def GRP_CQ_ADDR : Fld := ⟨.grp, 0x8, 8, 1, 63, 12⟩
/-- RING.GRP[g].CQ.LOG2_ENTRIES (R212). -/ def GRP_CQ_LOG2_ENTRIES : Fld := ⟨.grp, 0x8, 8, 1, 4, 0⟩
/-- RING.GRP[g].CQ_POS.HEAD_SEEN (R212). -/ def GRP_CQ_POS_HEAD_SEEN : Fld := ⟨.grp, 0x10, 8, 1, 63, 32⟩
/-- RING.GRP[g].CQ_POS.TAIL (R212). -/ def GRP_CQ_POS_TAIL : Fld := ⟨.grp, 0x10, 8, 1, 31, 0⟩
/-- RING.GRP[g].IRQ.HOLDOFF (R212). -/ def GRP_IRQ_HOLDOFF : Fld := ⟨.grp, 0x18, 8, 1, 47, 32⟩
/-- RING.GRP[g].IRQ.FAULT_IRQ (R212). -/ def GRP_IRQ_FAULT_IRQ : Fld := ⟨.grp, 0x18, 8, 1, 16, 16⟩
/-- RING.GRP[g].IRQ.VECTOR (R212). -/ def GRP_IRQ_VECTOR : Fld := ⟨.grp, 0x18, 8, 1, 10, 0⟩
/-- RING.GRP[g].SUMMARY_SEEN.VALUE (R212). -/ def GRP_SUMMARY_SEEN_VALUE : Fld := ⟨.grp, 0x20, 8, 1, 63, 0⟩
/-- RING.GRP[g].STATUS.DB_BACKWARD (R212). -/ def GRP_STATUS_DB_BACKWARD : Fld := ⟨.grp, 0x28, 8, 1, 3, 3⟩
/-- RING.GRP[g].STATUS.DB_READ_ERR (R212). -/ def GRP_STATUS_DB_READ_ERR : Fld := ⟨.grp, 0x28, 8, 1, 2, 2⟩
/-- RING.GRP[g].STATUS.CQ_WRITE_ERR (R212). -/ def GRP_STATUS_CQ_WRITE_ERR : Fld := ⟨.grp, 0x28, 8, 1, 1, 1⟩
/-- RING.GRP[g].STATUS.CQ_FULL (R212). -/ def GRP_STATUS_CQ_FULL : Fld := ⟨.grp, 0x28, 8, 1, 0, 0⟩
/-- RING[r].BASE.ADDR (R212). -/ def RING_BASE_ADDR : Fld := ⟨.ringr, 0x0, 8, 1, 63, 10⟩
/-- RING[r].BASE.LOG2_ENTRIES (R212). -/ def RING_BASE_LOG2_ENTRIES : Fld := ⟨.ringr, 0x0, 8, 1, 4, 0⟩
/-- RING[r].CFG.TARGET (R212). -/ def RING_CFG_TARGET : Fld := ⟨.ringr, 0x8, 8, 1, 15, 8⟩
/-- RING[r].CFG.SCHED (R212). -/ def RING_CFG_SCHED : Fld := ⟨.ringr, 0x8, 8, 1, 7, 7⟩
/-- RING[r].CFG.OWNED (R212). -/ def RING_CFG_OWNED : Fld := ⟨.ringr, 0x8, 8, 1, 4, 4⟩
/-- RING[r].CFG.ATELIER (R212). -/ def RING_CFG_ATELIER : Fld := ⟨.ringr, 0x8, 8, 1, 3, 0⟩
/-- RING[r].CTL.RESUME (R212). -/ def RING_CTL_RESUME : Fld := ⟨.ringr, 0x10, 8, 1, 1, 1⟩
/-- RING[r].CTL.ENABLE (R212). -/ def RING_CTL_ENABLE : Fld := ⟨.ringr, 0x10, 8, 1, 0, 0⟩
/-- RING[r].STATE.CURSOR (R212). -/ def RING_STATE_CURSOR : Fld := ⟨.ringr, 0x18, 8, 1, 25, 16⟩
/-- RING[r].STATE.PHASE (R212). -/ def RING_STATE_PHASE : Fld := ⟨.ringr, 0x18, 8, 1, 12, 12⟩
/-- RING[r].STATE.HALT_CAUSE (R212). -/ def RING_STATE_HALT_CAUSE : Fld := ⟨.ringr, 0x18, 8, 1, 11, 8⟩
/-- RING[r].STATE.STATE (R212). -/ def RING_STATE_STATE : Fld := ⟨.ringr, 0x18, 8, 1, 1, 0⟩
/-- RING[r].POS.TAIL (R212). -/ def RING_POS_TAIL : Fld := ⟨.ringr, 0x20, 8, 1, 63, 32⟩
/-- RING[r].POS.FETCHED (R212). -/ def RING_POS_FETCHED : Fld := ⟨.ringr, 0x20, 8, 1, 31, 0⟩
/-- RING[r].RETIRED.RETIRED (R212). -/ def RING_RETIRED_RETIRED : Fld := ⟨.ringr, 0x28, 8, 1, 31, 0⟩
/-- RING[r].SEED.SEED (R212). -/ def RING_SEED_SEED : Fld := ⟨.ringr, 0x30, 8, 1, 63, 0⟩
/-- RING[r].KEY_HI.STEP (R212). -/ def RING_KEY_HI_STEP : Fld := ⟨.ringr, 0x38, 8, 1, 63, 16⟩
/-- RING[r].KEY_HI.MB (R212). -/ def RING_KEY_HI_MB : Fld := ⟨.ringr, 0x38, 8, 1, 15, 0⟩
/-- TB.NOW.COUNT (R234). -/ def TB_NOW_COUNT : Fld := ⟨.tb, 0x0, 8, 1, 63, 0⟩
/-- TB.CTL.CAPTURE (R234). -/ def TB_CTL_CAPTURE : Fld := ⟨.tb, 0x8, 8, 1, 3, 3⟩
/-- TB.CTL.LOAD (R234). -/ def TB_CTL_LOAD : Fld := ⟨.tb, 0x8, 8, 1, 2, 2⟩
/-- TB.CTL.SERVE (R234). -/ def TB_CTL_SERVE : Fld := ⟨.tb, 0x8, 8, 1, 1, 1⟩
/-- TB.CTL.ROLE (R234). -/ def TB_CTL_ROLE : Fld := ⟨.tb, 0x8, 8, 1, 0, 0⟩
/-- TB.LOAD.VALUE (R234). -/ def TB_LOAD_VALUE : Fld := ⟨.tb, 0x10, 8, 1, 63, 0⟩
/-- TB.STATUS.HOPS (R234). -/ def TB_STATUS_HOPS : Fld := ⟨.tb, 0x18, 8, 1, 63, 56⟩
/-- TB.STATUS.EXCHANGES (R234). -/ def TB_STATUS_EXCHANGES : Fld := ⟨.tb, 0x18, 8, 1, 55, 24⟩
/-- TB.STATUS.UP_IN_USE (R234). -/ def TB_STATUS_UP_IN_USE : Fld := ⟨.tb, 0x18, 8, 1, 5, 4⟩
/-- TB.STATUS.SETTLING (R234). -/ def TB_STATUS_SETTLING : Fld := ⟨.tb, 0x18, 8, 1, 3, 3⟩
/-- TB.STATUS.STATE (R234). -/ def TB_STATUS_STATE : Fld := ⟨.tb, 0x18, 8, 1, 2, 0⟩
/-- TB.SYNC.DOMAIN (R234). -/ def TB_SYNC_DOMAIN : Fld := ⟨.tb, 0x20, 8, 1, 63, 48⟩
/-- TB.SYNC.STEP_THRESH (R234). -/ def TB_SYNC_STEP_THRESH : Fld := ⟨.tb, 0x20, 8, 1, 47, 32⟩
/-- TB.SYNC.PERIOD (R234). -/ def TB_SYNC_PERIOD : Fld := ⟨.tb, 0x20, 8, 1, 31, 16⟩
/-- TB.SYNC.ALT_VALID (R234). -/ def TB_SYNC_ALT_VALID : Fld := ⟨.tb, 0x20, 8, 1, 15, 15⟩
/-- TB.SYNC.ALT_PORT (R234). -/ def TB_SYNC_ALT_PORT : Fld := ⟨.tb, 0x20, 8, 1, 12, 8⟩
/-- TB.SYNC.UP_VALID (R234). -/ def TB_SYNC_UP_VALID : Fld := ⟨.tb, 0x20, 8, 1, 7, 7⟩
/-- TB.SYNC.UP_PORT (R234). -/ def TB_SYNC_UP_PORT : Fld := ⟨.tb, 0x20, 8, 1, 4, 0⟩
/-- TB.OFFSET.THETA (R234). -/ def TB_OFFSET_THETA : Fld := ⟨.tb, 0x28, 8, 1, 47, 0⟩
/-- TB.DELAY.D (R234). -/ def TB_DELAY_D : Fld := ⟨.tb, 0x30, 8, 1, 47, 0⟩
/-- TB.FREQ.FREQ (R234). -/ def TB_FREQ_FREQ : Fld := ⟨.tb, 0x38, 8, 1, 31, 0⟩
/-- TB.EVENT.PORT_SWITCH (R234). -/ def TB_EVENT_PORT_SWITCH : Fld := ⟨.tb, 0x40, 8, 1, 5, 5⟩
/-- TB.EVENT.SKEW_ERR (R234). -/ def TB_EVENT_SKEW_ERR : Fld := ⟨.tb, 0x40, 8, 1, 4, 4⟩
/-- TB.EVENT.HOLDOVER (R234). -/ def TB_EVENT_HOLDOVER : Fld := ⟨.tb, 0x40, 8, 1, 3, 3⟩
/-- TB.EVENT.UP_LOST (R234). -/ def TB_EVENT_UP_LOST : Fld := ⟨.tb, 0x40, 8, 1, 2, 2⟩
/-- TB.EVENT.STEPPED (R234). -/ def TB_EVENT_STEPPED : Fld := ⟨.tb, 0x40, 8, 1, 1, 1⟩
/-- TB.EVENT.PLL_UNLOCK (R234). -/ def TB_EVENT_PLL_UNLOCK : Fld := ⟨.tb, 0x40, 8, 1, 0, 0⟩
/-- TB.CAPTURE.VALUE (R234). -/ def TB_CAPTURE_VALUE : Fld := ⟨.tb, 0x48, 8, 1, 63, 0⟩
/-- TB.LAST_STEP.TICKS (R234). -/ def TB_LAST_STEP_TICKS : Fld := ⟨.tb, 0x50, 8, 1, 47, 0⟩
/-- TB.PORT_ASYM[n].ASYM (R234). -/ def TB_PORT_ASYM_ASYM : Fld := ⟨.tb, 0x100, 8, 24, 15, 0⟩
/-- SEQ.LC[n].ARMED (R238). -/ def SEQ_LC_ARMED : Fld := ⟨.seq, 0x900, 8, 4, 63, 63⟩
/-- SEQ.LC[n].MATCHED (R238). -/ def SEQ_LC_MATCHED : Fld := ⟨.seq, 0x900, 8, 4, 62, 62⟩
/-- SEQ.LC[n].LOANED (R238). -/ def SEQ_LC_LOANED : Fld := ⟨.seq, 0x900, 8, 4, 61, 61⟩
/-- SEQ.LC[n].STAMP (R238). -/ def SEQ_LC_STAMP : Fld := ⟨.seq, 0x900, 8, 4, 39, 0⟩
/-- SEQ.LC_LOAN.SLIPS (R238). -/ def SEQ_LC_LOAN_SLIPS : Fld := ⟨.seq, 0x920, 8, 1, 63, 32⟩
/-- SEQ.LC_LOAN.LAST_SLIP (R238). -/ def SEQ_LC_LOAN_LAST_SLIP : Fld := ⟨.seq, 0x920, 8, 1, 31, 0⟩
/-- SEQ.LATE_COUNT.COUNT (R238). -/ def SEQ_LATE_COUNT_COUNT : Fld := ⟨.seq, 0x928, 8, 1, 31, 0⟩
/-- LINK.CTL.PMD (R278). -/ def LINK_CTL_PMD : Fld := ⟨.link, 0x0, 8, 1, 11, 8⟩
/-- LINK.CTL.MIN_WIDTH (R278). -/ def LINK_CTL_MIN_WIDTH : Fld := ⟨.link, 0x0, 8, 1, 5, 4⟩
/-- LINK.CTL.AUTO_DEGRADE (R278). -/ def LINK_CTL_AUTO_DEGRADE : Fld := ⟨.link, 0x0, 8, 1, 3, 3⟩
/-- LINK.CTL.RETRAIN (R278). -/ def LINK_CTL_RETRAIN : Fld := ⟨.link, 0x0, 8, 1, 1, 1⟩
/-- LINK.CTL.EN (R278). -/ def LINK_CTL_EN : Fld := ⟨.link, 0x0, 8, 1, 0, 0⟩
/-- LINK.STATUS.LANES_UP (R278). -/ def LINK_STATUS_LANES_UP : Fld := ⟨.link, 0x8, 8, 1, 47, 40⟩
/-- LINK.STATUS.LANE_SET (R278). -/ def LINK_STATUS_LANE_SET : Fld := ⟨.link, 0x8, 8, 1, 39, 32⟩
/-- LINK.STATUS.WIDTH (R278). -/ def LINK_STATUS_WIDTH : Fld := ⟨.link, 0x8, 8, 1, 7, 4⟩
/-- LINK.STATUS.REVERSED (R278). -/ def LINK_STATUS_REVERSED : Fld := ⟨.link, 0x8, 8, 1, 3, 3⟩
/-- LINK.STATUS.STATE (R278). -/ def LINK_STATUS_STATE : Fld := ⟨.link, 0x8, 8, 1, 2, 0⟩
/-- LINK.PEER.MODULE (R278). -/ def LINK_PEER_MODULE : Fld := ⟨.link, 0x10, 8, 1, 63, 48⟩
/-- LINK.PEER.PORT (R278). -/ def LINK_PEER_PORT : Fld := ⟨.link, 0x10, 8, 1, 36, 32⟩
/-- LINK.PEER.VALID (R278). -/ def LINK_PEER_VALID : Fld := ⟨.link, 0x10, 8, 1, 0, 0⟩
/-- LINK.CAL.TX_DELAY (R278). -/ def LINK_CAL_TX_DELAY : Fld := ⟨.link, 0x18, 8, 1, 31, 16⟩
/-- LINK.CAL.RX_DELAY (R278). -/ def LINK_CAL_RX_DELAY : Fld := ⟨.link, 0x18, 8, 1, 15, 0⟩
/-- LINK.PEER_CAL.TX_DELAY (R278). -/ def LINK_PEER_CAL_TX_DELAY : Fld := ⟨.link, 0x20, 8, 1, 31, 16⟩
/-- LINK.PEER_CAL.RX_DELAY (R278). -/ def LINK_PEER_CAL_RX_DELAY : Fld := ⟨.link, 0x20, 8, 1, 15, 0⟩
/-- LINK.REASM_TIMEOUT.TICKS (R278). -/ def LINK_REASM_TIMEOUT_TICKS : Fld := ⟨.link, 0x28, 8, 1, 31, 0⟩
/-- LINK.RETRY.TIMEOUT (R278). -/ def LINK_RETRY_TIMEOUT : Fld := ⟨.link, 0x30, 8, 1, 47, 32⟩
/-- LINK.RETRY.REPLAYS (R278). -/ def LINK_RETRY_REPLAYS : Fld := ⟨.link, 0x30, 8, 1, 31, 0⟩
/-- LINK.DEGRADE.UE_THRESH (R278). -/ def LINK_DEGRADE_UE_THRESH : Fld := ⟨.link, 0x38, 8, 1, 63, 56⟩
/-- LINK.DEGRADE.WINDOW (R278). -/ def LINK_DEGRADE_WINDOW : Fld := ⟨.link, 0x38, 8, 1, 47, 32⟩
/-- LINK.DEGRADE.CE_THRESH (R278). -/ def LINK_DEGRADE_CE_THRESH : Fld := ⟨.link, 0x38, 8, 1, 31, 0⟩
/-- LINK.LANE_CE[n].COUNT (R278). -/ def LINK_LANE_CE_COUNT : Fld := ⟨.link, 0x40, 8, 8, 31, 0⟩
/-- LINK.LANE_UE[n].COUNT (R278). -/ def LINK_LANE_UE_COUNT : Fld := ⟨.link, 0x80, 8, 8, 31, 0⟩
/-- LINK.REASM_DROP.COUNT (R278). -/ def LINK_REASM_DROP_COUNT : Fld := ⟨.link, 0xc0, 8, 1, 31, 0⟩
/-- LINK.CREDIT.RESERVE_USED (R278). -/ def LINK_CREDIT_RESERVE_USED : Fld := ⟨.link, 0xc8, 8, 1, 63, 48⟩
/-- LINK.CREDIT.POOL (R278). -/ def LINK_CREDIT_POOL : Fld := ⟨.link, 0xc8, 8, 1, 47, 32⟩
/-- LINK.CREDIT.VL0_RESERVE (R278). -/ def LINK_CREDIT_VL0_RESERVE : Fld := ⟨.link, 0xc8, 8, 1, 31, 16⟩
/-- LINK.CREDIT.VL_RESERVE (R278). -/ def LINK_CREDIT_VL_RESERVE : Fld := ⟨.link, 0xc8, 8, 1, 15, 0⟩
/-- LINK.EVENT.CREDIT_CLAMP (R278). -/ def LINK_EVENT_CREDIT_CLAMP : Fld := ⟨.link, 0xd0, 8, 1, 6, 6⟩
/-- LINK.EVENT.PEER_CHANGE (R278). -/ def LINK_EVENT_PEER_CHANGE : Fld := ⟨.link, 0xd0, 8, 1, 5, 5⟩
/-- LINK.EVENT.REPLAY_STORM (R278). -/ def LINK_EVENT_REPLAY_STORM : Fld := ⟨.link, 0xd0, 8, 1, 4, 4⟩
/-- LINK.EVENT.REASM_DROP (R278). -/ def LINK_EVENT_REASM_DROP : Fld := ⟨.link, 0xd0, 8, 1, 3, 3⟩
/-- LINK.EVENT.RETRAINED (R278). -/ def LINK_EVENT_RETRAINED : Fld := ⟨.link, 0xd0, 8, 1, 2, 2⟩
/-- LINK.EVENT.FAILED (R278). -/ def LINK_EVENT_FAILED : Fld := ⟨.link, 0xd0, 8, 1, 1, 1⟩
/-- LINK.EVENT.DEGRADE (R278). -/ def LINK_EVENT_DEGRADE : Fld := ⟨.link, 0xd0, 8, 1, 0, 0⟩
/-- COLL.ID.MODULE (R279). -/ def COLL_ID_MODULE : Fld := ⟨.coll, 0x0, 8, 1, 15, 0⟩
/-- COLL.STATUS.HELD (R279). -/ def COLL_STATUS_HELD : Fld := ⟨.coll, 0x8, 8, 1, 31, 24⟩
/-- COLL.STATUS.RUNNING (R279). -/ def COLL_STATUS_RUNNING : Fld := ⟨.coll, 0x8, 8, 1, 15, 8⟩
/-- COLL.STATUS.GROUPS (R279). -/ def COLL_STATUS_GROUPS : Fld := ⟨.coll, 0x8, 8, 1, 6, 0⟩
/-- COLL.E2E.ACK_TIMEOUT (R279). -/ def COLL_E2E_ACK_TIMEOUT : Fld := ⟨.coll, 0x10, 8, 1, 31, 0⟩
/-- COLL.GEN_HOLD.TICKS (R279). -/ def COLL_GEN_HOLD_TICKS : Fld := ⟨.coll, 0x18, 8, 1, 31, 0⟩
/-- COLL.SILENT_THRESH.TICKS (R279). -/ def COLL_SILENT_THRESH_TICKS : Fld := ⟨.coll, 0x20, 8, 1, 31, 0⟩
/-- COLL.SILENT_LOG.VALID (R279). -/ def COLL_SILENT_LOG_VALID : Fld := ⟨.coll, 0x28, 8, 1, 63, 63⟩
/-- COLL.SILENT_LOG.OVERRUN (R279). -/ def COLL_SILENT_LOG_OVERRUN : Fld := ⟨.coll, 0x28, 8, 1, 62, 62⟩
/-- COLL.SILENT_LOG.GROUP (R279). -/ def COLL_SILENT_LOG_GROUP : Fld := ⟨.coll, 0x28, 8, 1, 55, 44⟩
/-- COLL.SILENT_LOG.MODULE (R279). -/ def COLL_SILENT_LOG_MODULE : Fld := ⟨.coll, 0x28, 8, 1, 43, 28⟩
/-- COLL.GEN_STALE_COUNT.COUNT (R279). -/ def COLL_GEN_STALE_COUNT_COUNT : Fld := ⟨.coll, 0x30, 8, 1, 31, 0⟩
/-- COLL.DISPATCH_DROP.COUNT (R279). -/ def COLL_DISPATCH_DROP_COUNT : Fld := ⟨.coll, 0x38, 8, 1, 31, 0⟩
/-- COLL.VOTE_SAT_COUNT.COUNT (R279). -/ def COLL_VOTE_SAT_COUNT_COUNT : Fld := ⟨.coll, 0x40, 8, 1, 31, 0⟩
/-- COLL.ROUTE_CTL.TTL (R279). -/ def COLL_ROUTE_CTL_TTL : Fld := ⟨.coll, 0x48, 8, 1, 11, 0⟩
/-- COLL.ROUTE_ADDR.MODULE (R279). -/ def COLL_ROUTE_ADDR_MODULE : Fld := ⟨.coll, 0x50, 8, 1, 15, 0⟩
/-- COLL.ROUTE_DATA.ENTRY (R279). -/ def COLL_ROUTE_DATA_ENTRY : Fld := ⟨.coll, 0x58, 8, 1, 63, 0⟩
/-- COLL.VL_OWNER.OWNER (R279). -/ def COLL_VL_OWNER_OWNER : Fld := ⟨.coll, 0x60, 8, 1, 63, 0⟩
/-- COLL.VL_VALID.VALID (R279). -/ def COLL_VL_VALID_VALID : Fld := ⟨.coll, 0x68, 8, 1, 16, 1⟩
/-- COLL.VL_VALID.VL0 (R279). -/ def COLL_VL_VALID_VL0 : Fld := ⟨.coll, 0x68, 8, 1, 0, 0⟩
/-- COLL.OOB_WRITE_COUNT.COUNT (R279). -/ def COLL_OOB_WRITE_COUNT_COUNT : Fld := ⟨.coll, 0x70, 8, 1, 31, 0⟩
/-- COLL.OOB_READ_COUNT.COUNT (R279). -/ def COLL_OOB_READ_COUNT_COUNT : Fld := ⟨.coll, 0x78, 8, 1, 31, 0⟩
/-- COLL.GROUP[s].ID.VALID (R279). -/ def COLL_GROUP_ID_VALID : Fld := ⟨.coll, 0x100, 16, 64, 63, 63⟩
/-- COLL.GROUP[s].ID.ATELIER (R279). -/ def COLL_GROUP_ID_ATELIER : Fld := ⟨.coll, 0x100, 16, 64, 62, 59⟩
/-- COLL.GROUP[s].ID.VL (R279). -/ def COLL_GROUP_ID_VL : Fld := ⟨.coll, 0x100, 16, 64, 58, 54⟩
/-- COLL.GROUP[s].ID.GROUP (R279). -/ def COLL_GROUP_ID_GROUP : Fld := ⟨.coll, 0x100, 16, 64, 47, 36⟩
/-- COLL.GROUP[s].ID.GEN (R279). -/ def COLL_GROUP_ID_GEN : Fld := ⟨.coll, 0x100, 16, 64, 31, 16⟩
/-- COLL.GROUP[s].ID.SEQ (R279). -/ def COLL_GROUP_ID_SEQ : Fld := ⟨.coll, 0x100, 16, 64, 15, 0⟩
/-- COLL.GROUP[s].SIZE.COUNT (R279). -/ def COLL_GROUP_SIZE_COUNT : Fld := ⟨.coll, 0x108, 16, 64, 28, 16⟩
/-- COLL.GROUP[s].SIZE.RANK (R279). -/ def COLL_GROUP_SIZE_RANK : Fld := ⟨.coll, 0x108, 16, 64, 11, 0⟩
/-- VAR.CTL.ARB (R306). -/ def VAR_CTL_ARB : Fld := ⟨.var, 0x0, 8, 1, 1, 0⟩
/-- VAR.STATUS.HELD_CAUSE (R306). -/ def VAR_STATUS_HELD_CAUSE : Fld := ⟨.var, 0x8, 8, 1, 15, 12⟩
/-- VAR.STATUS.HELD (R306). -/ def VAR_STATUS_HELD : Fld := ⟨.var, 0x8, 8, 1, 11, 11⟩
/-- VAR.STATUS.NORM_NONFINITE (R306). -/ def VAR_STATUS_NORM_NONFINITE : Fld := ⟨.var, 0x8, 8, 1, 10, 10⟩
/-- VAR.STATUS.PHASE (R306). -/ def VAR_STATUS_PHASE : Fld := ⟨.var, 0x8, 8, 1, 7, 5⟩
/-- VAR.STATUS.BUSY (R306). -/ def VAR_STATUS_BUSY : Fld := ⟨.var, 0x8, 8, 1, 0, 0⟩
/-- VAR.STEP.K (R306). -/ def VAR_STEP_K : Fld := ⟨.var, 0x10, 8, 1, 31, 0⟩
/-- VAR.FLAGS.FLAGS (R306). -/ def VAR_FLAGS_FLAGS : Fld := ⟨.var, 0x18, 8, 1, 7, 0⟩
/-- VAR.WDOG.THRESH_B (R306). -/ def VAR_WDOG_THRESH_B : Fld := ⟨.var, 0x20, 8, 1, 63, 32⟩
/-- VAR.WDOG.THRESH_A (R306). -/ def VAR_WDOG_THRESH_A : Fld := ⟨.var, 0x20, 8, 1, 31, 0⟩
/-- VAR.STALL_LOG.VALID (R306). -/ def VAR_STALL_LOG_VALID : Fld := ⟨.var, 0x28, 8, 1, 63, 63⟩
/-- VAR.STALL_LOG.OVERRUN (R306). -/ def VAR_STALL_LOG_OVERRUN : Fld := ⟨.var, 0x28, 8, 1, 62, 62⟩
/-- VAR.STALL_LOG.CAUSE (R306). -/ def VAR_STALL_LOG_CAUSE : Fld := ⟨.var, 0x28, 8, 1, 61, 58⟩
/-- VAR.STALL_LOG.START (R306). -/ def VAR_STALL_LOG_START : Fld := ⟨.var, 0x28, 8, 1, 39, 0⟩
/-- VAR.SKEW_LOG.VALID (R306). -/ def VAR_SKEW_LOG_VALID : Fld := ⟨.var, 0x30, 8, 1, 63, 63⟩
/-- VAR.SKEW_LOG.OVERRUN (R306). -/ def VAR_SKEW_LOG_OVERRUN : Fld := ⟨.var, 0x30, 8, 1, 62, 62⟩
/-- VAR.SKEW_LOG.CAUSE (R306). -/ def VAR_SKEW_LOG_CAUSE : Fld := ⟨.var, 0x30, 8, 1, 61, 58⟩
/-- VAR.SKEW_LOG.DIE (R306). -/ def VAR_SKEW_LOG_DIE : Fld := ⟨.var, 0x30, 8, 1, 57, 54⟩
/-- VAR.SKEW_LOG.MODULE (R306). -/ def VAR_SKEW_LOG_MODULE : Fld := ⟨.var, 0x30, 8, 1, 47, 32⟩
/-- VAR.SKEW_LOG.K_SEEN (R306). -/ def VAR_SKEW_LOG_K_SEEN : Fld := ⟨.var, 0x30, 8, 1, 31, 0⟩
/-- VAR.LAZY_SKIP.COUNT (R306). -/ def VAR_LAZY_SKIP_COUNT : Fld := ⟨.var, 0x38, 8, 1, 31, 0⟩
/-- VAR.ROW_AHEAD.COUNT (R306). -/ def VAR_ROW_AHEAD_COUNT : Fld := ⟨.var, 0x40, 8, 1, 31, 0⟩
/-- VAR.CHG_BASE.ADDR (R306). -/ def VAR_CHG_BASE_ADDR : Fld := ⟨.var, 0x48, 8, 1, 47, 0⟩
/-- VAR.PUSHED.COUNT (R306). -/ def VAR_PUSHED_COUNT : Fld := ⟨.var, 0x50, 8, 1, 47, 0⟩
/-- VAR.PROG.N3 (R306). -/ def VAR_PROG_N3 : Fld := ⟨.var, 0x58, 8, 1, 30, 24⟩
/-- VAR.PROG.N2 (R306). -/ def VAR_PROG_N2 : Fld := ⟨.var, 0x58, 8, 1, 22, 16⟩
/-- VAR.PROG.N1 (R306). -/ def VAR_PROG_N1 : Fld := ⟨.var, 0x58, 8, 1, 14, 8⟩
/-- VAR.PROG.N0 (R306). -/ def VAR_PROG_N0 : Fld := ⟨.var, 0x58, 8, 1, 6, 0⟩
/-- VAR.OOB_WRITE_COUNT.COUNT (R306). -/ def VAR_OOB_WRITE_COUNT_COUNT : Fld := ⟨.var, 0x60, 8, 1, 31, 0⟩
/-- VAR.OOB_READ_COUNT.COUNT (R306). -/ def VAR_OOB_READ_COUNT_COUNT : Fld := ⟨.var, 0x68, 8, 1, 31, 0⟩
/-- VAR.NORM[g].SCALE (R306). -/ def VAR_NORM_SCALE : Fld := ⟨.var, 0x400, 8, 65, 63, 32⟩
/-- VAR.NORM[g].S (R306). -/ def VAR_NORM_S : Fld := ⟨.var, 0x400, 8, 65, 31, 0⟩
/-- RISK.CTL.RECOVER (R335). -/ def RISK_CTL_RECOVER : Fld := ⟨.risk, 0x0, 8, 1, 3, 3⟩
/-- RISK.CTL.AUTO (R335). -/ def RISK_CTL_AUTO : Fld := ⟨.risk, 0x0, 8, 1, 2, 2⟩
/-- RISK.CTL.EN (R335). -/ def RISK_CTL_EN : Fld := ⟨.risk, 0x0, 8, 1, 0, 0⟩
/-- RISK.SCORE.LEVEL (R335). -/ def RISK_SCORE_LEVEL : Fld := ⟨.risk, 0x8, 8, 1, 9, 8⟩
/-- RISK.SCORE.SCORE (R335). -/ def RISK_SCORE_SCORE : Fld := ⟨.risk, 0x8, 8, 1, 7, 0⟩
/-- RISK.LEVELS.HYST (R335). -/ def RISK_LEVELS_HYST : Fld := ⟨.risk, 0x10, 8, 1, 31, 24⟩
/-- RISK.LEVELS.L3 (R335). -/ def RISK_LEVELS_L3 : Fld := ⟨.risk, 0x10, 8, 1, 23, 16⟩
/-- RISK.LEVELS.L2 (R335). -/ def RISK_LEVELS_L2 : Fld := ⟨.risk, 0x10, 8, 1, 15, 8⟩
/-- RISK.LEVELS.L1 (R335). -/ def RISK_LEVELS_L1 : Fld := ⟨.risk, 0x10, 8, 1, 7, 0⟩
/-- RISK.WINDOW.DECAY (R335). -/ def RISK_WINDOW_DECAY : Fld := ⟨.risk, 0x18, 8, 1, 39, 32⟩
/-- RISK.WINDOW.TICKS (R335). -/ def RISK_WINDOW_TICKS : Fld := ⟨.risk, 0x18, 8, 1, 31, 0⟩
/-- RISK.WEIGHT.W_LINK (R335). -/ def RISK_WEIGHT_W_LINK : Fld := ⟨.risk, 0x20, 8, 1, 63, 48⟩
/-- RISK.WEIGHT.W_TEMP (R335). -/ def RISK_WEIGHT_W_TEMP : Fld := ⟨.risk, 0x20, 8, 1, 47, 32⟩
/-- RISK.WEIGHT.W_DROOP (R335). -/ def RISK_WEIGHT_W_DROOP : Fld := ⟨.risk, 0x20, 8, 1, 31, 16⟩
/-- RISK.WEIGHT.W_CE (R335). -/ def RISK_WEIGHT_W_CE : Fld := ⟨.risk, 0x20, 8, 1, 15, 0⟩
/-- RISK.BUMP.B_SYNC (R335). -/ def RISK_BUMP_B_SYNC : Fld := ⟨.risk, 0x28, 8, 1, 31, 24⟩
/-- RISK.BUMP.B_SILENT (R335). -/ def RISK_BUMP_B_SILENT : Fld := ⟨.risk, 0x28, 8, 1, 23, 16⟩
/-- RISK.BUMP.B_PORT (R335). -/ def RISK_BUMP_B_PORT : Fld := ⟨.risk, 0x28, 8, 1, 15, 8⟩
/-- RISK.BUMP.B_UE (R335). -/ def RISK_BUMP_B_UE : Fld := ⟨.risk, 0x28, 8, 1, 7, 0⟩
/-- RISK.INPUTS.LINK (R335). -/ def RISK_INPUTS_LINK : Fld := ⟨.risk, 0x30, 8, 1, 63, 48⟩
/-- RISK.INPUTS.TEMP (R335). -/ def RISK_INPUTS_TEMP : Fld := ⟨.risk, 0x30, 8, 1, 47, 32⟩
/-- RISK.INPUTS.DROOP (R335). -/ def RISK_INPUTS_DROOP : Fld := ⟨.risk, 0x30, 8, 1, 31, 16⟩
/-- RISK.INPUTS.CE (R335). -/ def RISK_INPUTS_CE : Fld := ⟨.risk, 0x30, 8, 1, 15, 0⟩
/-- RISK.BUDDY.MODULE (R335). -/ def RISK_BUDDY_MODULE : Fld := ⟨.risk, 0x38, 8, 1, 63, 48⟩
/-- RISK.BUDDY.VL (R335). -/ def RISK_BUDDY_VL : Fld := ⟨.risk, 0x38, 8, 1, 4, 0⟩
/-- RISK.REGION.BASE (R335). -/ def RISK_REGION_BASE : Fld := ⟨.risk, 0x40, 8, 1, 47, 0⟩
/-- RISK.REGION_SIZE.BLOCKS (R335). -/ def RISK_REGION_SIZE_BLOCKS : Fld := ⟨.risk, 0x48, 8, 1, 31, 0⟩
/-- RISK.MANIFEST.ENTRIES (R335). -/ def RISK_MANIFEST_ENTRIES : Fld := ⟨.risk, 0x50, 8, 1, 59, 48⟩
/-- RISK.MANIFEST.ADDR (R335). -/ def RISK_MANIFEST_ADDR : Fld := ⟨.risk, 0x50, 8, 1, 47, 0⟩
/-- RISK.COVER.ATELIERS (R335). -/ def RISK_COVER_ATELIERS : Fld := ⟨.risk, 0x58, 8, 1, 15, 0⟩
/-- RISK.NOTIFY.VALID (R335). -/ def RISK_NOTIFY_VALID : Fld := ⟨.risk, 0x60, 8, 1, 63, 63⟩
/-- RISK.NOTIFY.RING (R335). -/ def RISK_NOTIFY_RING : Fld := ⟨.risk, 0x60, 8, 1, 18, 0⟩
/-- RISK.STATUS.COPY (R335). -/ def RISK_STATUS_COPY : Fld := ⟨.risk, 0x68, 8, 1, 7, 5⟩
/-- RISK.STATUS.DRAINED (R335). -/ def RISK_STATUS_DRAINED : Fld := ⟨.risk, 0x68, 8, 1, 4, 4⟩
/-- RISK.STATUS.BUSY (R335). -/ def RISK_STATUS_BUSY : Fld := ⟨.risk, 0x68, 8, 1, 0, 0⟩
/-- RISK.IMAGE.K (R335). -/ def RISK_IMAGE_K : Fld := ⟨.risk, 0x70, 8, 1, 63, 32⟩
/-- RISK.IMAGE.USEQ (R335). -/ def RISK_IMAGE_USEQ : Fld := ⟨.risk, 0x70, 8, 1, 31, 16⟩
/-- RISK.IMAGE.SLOT (R335). -/ def RISK_IMAGE_SLOT : Fld := ⟨.risk, 0x70, 8, 1, 1, 1⟩
/-- RISK.IMAGE.VALID (R335). -/ def RISK_IMAGE_VALID : Fld := ⟨.risk, 0x70, 8, 1, 0, 0⟩
/-- RISK.EVENT.RETIRE_EXHAUSTED (R335). -/ def RISK_EVENT_RETIRE_EXHAUSTED : Fld := ⟨.risk, 0x78, 8, 1, 8, 8⟩
/-- RISK.EVENT.BLOCK_RETIRED (R335). -/ def RISK_EVENT_BLOCK_RETIRED : Fld := ⟨.risk, 0x78, 8, 1, 7, 7⟩
/-- RISK.EVENT.RNG_SKEW (R335). -/ def RISK_EVENT_RNG_SKEW : Fld := ⟨.risk, 0x78, 8, 1, 6, 6⟩
/-- RISK.EVENT.VAR_FAIL (R335). -/ def RISK_EVENT_VAR_FAIL : Fld := ⟨.risk, 0x78, 8, 1, 5, 5⟩
/-- RISK.EVENT.SNAP_FAIL (R335). -/ def RISK_EVENT_SNAP_FAIL : Fld := ⟨.risk, 0x78, 8, 1, 4, 4⟩
/-- RISK.EVENT.DRAINED (R335). -/ def RISK_EVENT_DRAINED : Fld := ⟨.risk, 0x78, 8, 1, 3, 3⟩
/-- RISK.EVENT.LEVEL3 (R335). -/ def RISK_EVENT_LEVEL3 : Fld := ⟨.risk, 0x78, 8, 1, 2, 2⟩
/-- RISK.EVENT.LEVEL2 (R335). -/ def RISK_EVENT_LEVEL2 : Fld := ⟨.risk, 0x78, 8, 1, 1, 1⟩
/-- RISK.EVENT.LEVEL1 (R335). -/ def RISK_EVENT_LEVEL1 : Fld := ⟨.risk, 0x78, 8, 1, 0, 0⟩
/-- RISK.LAST_COPY.STATUS (R335). -/ def RISK_LAST_COPY_STATUS : Fld := ⟨.risk, 0x80, 8, 1, 63, 56⟩
/-- RISK.LAST_COPY.CAUSE (R335). -/ def RISK_LAST_COPY_CAUSE : Fld := ⟨.risk, 0x80, 8, 1, 55, 52⟩
/-- RISK.LAST_COPY.BYTES (R335). -/ def RISK_LAST_COPY_BYTES : Fld := ⟨.risk, 0x80, 8, 1, 47, 0⟩
/-- RISK.VAR_FAILED.DIES (R335). -/ def RISK_VAR_FAILED_DIES : Fld := ⟨.risk, 0x88, 8, 1, 15, 0⟩
/-- RISK.RETIRE_LOG.VALID (R335). -/ def RISK_RETIRE_LOG_VALID : Fld := ⟨.risk, 0x90, 8, 1, 63, 63⟩
/-- RISK.RETIRE_LOG.OVERRUN (R335). -/ def RISK_RETIRE_LOG_OVERRUN : Fld := ⟨.risk, 0x90, 8, 1, 62, 62⟩
/-- RISK.RETIRE_LOG.METHOD (R335). -/ def RISK_RETIRE_LOG_METHOD : Fld := ⟨.risk, 0x90, 8, 1, 61, 60⟩
/-- RISK.RETIRE_LOG.STACK (R335). -/ def RISK_RETIRE_LOG_STACK : Fld := ⟨.risk, 0x90, 8, 1, 23, 20⟩
/-- RISK.RETIRE_LOG.BLOCK (R335). -/ def RISK_RETIRE_LOG_BLOCK : Fld := ⟨.risk, 0x90, 8, 1, 19, 0⟩
/-- RISK.RETIRED.COUNT (R335). -/ def RISK_RETIRED_COUNT : Fld := ⟨.risk, 0x98, 8, 1, 31, 0⟩
/-- RISK.RNG_CHECK.ARMED (R335). -/ def RISK_RNG_CHECK_ARMED : Fld := ⟨.risk, 0xa0, 8, 1, 15, 0⟩
/-- RISK.TAG[a].KEY_HI (R335). -/ def RISK_TAG_KEY_HI : Fld := ⟨.risk, 0x100, 8, 16, 63, 0⟩
/-- HOST.STATUS.WIDTH (R354). -/ def HOST_STATUS_WIDTH : Fld := ⟨.host, 0x0, 8, 1, 23, 16⟩
/-- HOST.STATUS.RATE (R354). -/ def HOST_STATUS_RATE : Fld := ⟨.host, 0x0, 8, 1, 15, 12⟩
/-- HOST.STATUS.NO_FLIT (R354). -/ def HOST_STATUS_NO_FLIT : Fld := ⟨.host, 0x0, 8, 1, 4, 4⟩
/-- HOST.STATUS.ATS_EN (R354). -/ def HOST_STATUS_ATS_EN : Fld := ⟨.host, 0x0, 8, 1, 3, 3⟩
/-- HOST.STATUS.MGMT (R354). -/ def HOST_STATUS_MGMT : Fld := ⟨.host, 0x0, 8, 1, 2, 2⟩
/-- HOST.STATUS.BME (R354). -/ def HOST_STATUS_BME : Fld := ⟨.host, 0x0, 8, 1, 1, 1⟩
/-- HOST.STATUS.UP (R354). -/ def HOST_STATUS_UP : Fld := ⟨.host, 0x0, 8, 1, 0, 0⟩
/-- HOST.EVENT.BME_CLEARED (R354). -/ def HOST_EVENT_BME_CLEARED : Fld := ⟨.host, 0x8, 8, 1, 3, 3⟩
/-- HOST.EVENT.FLR (R354). -/ def HOST_EVENT_FLR : Fld := ⟨.host, 0x8, 8, 1, 2, 2⟩
/-- HOST.EVENT.HOT_RESET (R354). -/ def HOST_EVENT_HOT_RESET : Fld := ⟨.host, 0x8, 8, 1, 1, 1⟩
/-- HOST.EVENT.LINK_DOWN (R354). -/ def HOST_EVENT_LINK_DOWN : Fld := ⟨.host, 0x8, 8, 1, 0, 0⟩
/-- HOST.DENIED.COUNT (R354). -/ def HOST_DENIED_COUNT : Fld := ⟨.host, 0x10, 8, 1, 31, 0⟩
/-- HOST.DENIED_LOG.VALID (R354). -/ def HOST_DENIED_LOG_VALID : Fld := ⟨.host, 0x18, 8, 1, 63, 63⟩
/-- HOST.DENIED_LOG.OVERRUN (R354). -/ def HOST_DENIED_LOG_OVERRUN : Fld := ⟨.host, 0x18, 8, 1, 62, 62⟩
/-- HOST.DENIED_LOG.WRITE (R354). -/ def HOST_DENIED_LOG_WRITE : Fld := ⟨.host, 0x18, 8, 1, 61, 61⟩
/-- HOST.DENIED_LOG.ADDR (R354). -/ def HOST_DENIED_LOG_ADDR : Fld := ⟨.host, 0x18, 8, 1, 47, 0⟩
/-- HOST.NARROW.COUNT (R354). -/ def HOST_NARROW_COUNT : Fld := ⟨.host, 0x20, 8, 1, 31, 0⟩
/-- HOST.LOCKED.COUNT (R354). -/ def HOST_LOCKED_COUNT : Fld := ⟨.host, 0x28, 8, 1, 31, 0⟩
/-- HOST.LOCKED_LOG.VALID (R354). -/ def HOST_LOCKED_LOG_VALID : Fld := ⟨.host, 0x30, 8, 1, 63, 63⟩
/-- HOST.LOCKED_LOG.OVERRUN (R354). -/ def HOST_LOCKED_LOG_OVERRUN : Fld := ⟨.host, 0x30, 8, 1, 62, 62⟩
/-- HOST.LOCKED_LOG.ADDR (R354). -/ def HOST_LOCKED_LOG_ADDR : Fld := ⟨.host, 0x30, 8, 1, 47, 0⟩
/-- HOST.POISON.COUNT (R354). -/ def HOST_POISON_COUNT : Fld := ⟨.host, 0x38, 8, 1, 31, 0⟩
/-- HOST.ATS.INVALIDATIONS (R354). -/ def HOST_ATS_INVALIDATIONS : Fld := ⟨.host, 0x40, 8, 1, 31, 0⟩
/-- ATL.OWNER.VALID (R355). -/ def ATL_OWNER_VALID : Fld := ⟨.atl, 0x0, 8, 1, 63, 63⟩
/-- ATL.OWNER.PORT (R355). -/ def ATL_OWNER_PORT : Fld := ⟨.atl, 0x0, 8, 1, 1, 0⟩
/-- ATL.CTL.SHARE_OK (R355). -/ def ATL_CTL_SHARE_OK : Fld := ⟨.atl, 0x8, 8, 1, 7, 7⟩
/-- ATL.CTL.RELEASE (R355). -/ def ATL_CTL_RELEASE : Fld := ⟨.atl, 0x8, 8, 1, 4, 4⟩
/-- ATL.CTL.QUIESCE (R355). -/ def ATL_CTL_QUIESCE : Fld := ⟨.atl, 0x8, 8, 1, 3, 3⟩
/-- ATL.CTL.LOCK (R355). -/ def ATL_CTL_LOCK : Fld := ⟨.atl, 0x8, 8, 1, 2, 2⟩
/-- ATL.STATUS.HELD (R355). -/ def ATL_STATUS_HELD : Fld := ⟨.atl, 0x10, 8, 1, 31, 8⟩
/-- ATL.STATUS.ORPHANED (R355). -/ def ATL_STATUS_ORPHANED : Fld := ⟨.atl, 0x10, 8, 1, 3, 3⟩
/-- ATL.STATUS.STATE (R355). -/ def ATL_STATUS_STATE : Fld := ⟨.atl, 0x10, 8, 1, 2, 0⟩
/-- ATL.TILES.MASK (R355). -/ def ATL_TILES_MASK : Fld := ⟨.atl, 0x18, 8, 1, 63, 0⟩
/-- ATL.DIES.MASK (R355). -/ def ATL_DIES_MASK : Fld := ⟨.atl, 0x20, 8, 1, 15, 0⟩
/-- ATL.RINGS.FIRST (R355). -/ def ATL_RINGS_FIRST : Fld := ⟨.atl, 0x28, 8, 1, 28, 16⟩
/-- ATL.RINGS.COUNT (R355). -/ def ATL_RINGS_COUNT : Fld := ⟨.atl, 0x28, 8, 1, 13, 0⟩
/-- ATL.TXN.MAX (R355). -/ def ATL_TXN_MAX : Fld := ⟨.atl, 0x30, 8, 1, 48, 32⟩
/-- ATL.TXN.RESERVE (R355). -/ def ATL_TXN_RESERVE : Fld := ⟨.atl, 0x30, 8, 1, 16, 0⟩
/-- ATL.QCFG.STALL_TICKS (R355). -/ def ATL_QCFG_STALL_TICKS : Fld := ⟨.atl, 0x38, 8, 1, 31, 0⟩
/-- ATL.HBM[i].VALID (R355). -/ def ATL_HBM_VALID : Fld := ⟨.atl, 0x40, 8, 8, 63, 63⟩
/-- ATL.HBM[i].BASE_BLK (R355). -/ def ATL_HBM_BASE_BLK : Fld := ⟨.atl, 0x40, 8, 8, 51, 20⟩
/-- ATL.HBM[i].BLOCKS (R355). -/ def ATL_HBM_BLOCKS : Fld := ⟨.atl, 0x40, 8, 8, 19, 0⟩
/-- ATL.TAGS_IN_USE.COUNT (R355). -/ def ATL_TAGS_IN_USE_COUNT : Fld := ⟨.atl, 0x80, 8, 1, 16, 0⟩
/-- ATL.TAGS_WAIT.COUNT (R355). -/ def ATL_TAGS_WAIT_COUNT : Fld := ⟨.atl, 0x88, 8, 1, 31, 0⟩
/-- ATL.MGMT.VALID (R356). -/ def ATL_MGMT_VALID : Fld := ⟨.atl, 0x8000, 8, 1, 63, 63⟩
/-- ATL.MGMT.ATELIER (R356). -/ def ATL_MGMT_ATELIER : Fld := ⟨.atl, 0x8000, 8, 1, 3, 0⟩
/-- ATL.ADOPT.GO (R356). -/ def ATL_ADOPT_GO : Fld := ⟨.atl, 0x8008, 8, 1, 63, 63⟩
/-- ATL.ADOPT.PORT (R356). -/ def ATL_ADOPT_PORT : Fld := ⟨.atl, 0x8008, 8, 1, 5, 4⟩
/-- ATL.ADOPT.ATELIER (R356). -/ def ATL_ADOPT_ATELIER : Fld := ⟨.atl, 0x8008, 8, 1, 3, 0⟩
/-- ATL.DISSOLVE.GO (R356). -/ def ATL_DISSOLVE_GO : Fld := ⟨.atl, 0x8010, 8, 1, 63, 63⟩
/-- ATL.DISSOLVE.ATELIER (R356). -/ def ATL_DISSOLVE_ATELIER : Fld := ⟨.atl, 0x8010, 8, 1, 3, 0⟩
/-- ATL.SHARE[t].VALID (R356). -/ def ATL_SHARE_VALID : Fld := ⟨.atl, 0x8100, 8, 64, 63, 63⟩
/-- ATL.SHARE[t].RIGHT (R356). -/ def ATL_SHARE_RIGHT : Fld := ⟨.atl, 0x8100, 8, 64, 55, 52⟩
/-- ATL.SHARE[t].RQ (R356). -/ def ATL_SHARE_RQ : Fld := ⟨.atl, 0x8100, 8, 64, 51, 48⟩
/-- ATL.SHARE[t].AC_SPLIT (R356). -/ def ATL_SHARE_AC_SPLIT : Fld := ⟨.atl, 0x8100, 8, 64, 41, 32⟩
/-- PWR.CTL.QUIET (R386). -/ def PWR_CTL_QUIET : Fld := ⟨.pwr, 0x0, 8, 1, 1, 1⟩
/-- PWR.STATUS.OP_BUSY (R386). -/ def PWR_STATUS_OP_BUSY : Fld := ⟨.pwr, 0x8, 8, 1, 15, 12⟩
/-- PWR.STATUS.MODE (R386). -/ def PWR_STATUS_MODE : Fld := ⟨.pwr, 0x8, 8, 1, 1, 0⟩
/-- PWR.RAIL[d].ISENSE (R386). -/ def PWR_RAIL_ISENSE : Fld := ⟨.pwr, 0x10, 8, 4, 63, 48⟩
/-- PWR.RAIL[d].VSENSE (R386). -/ def PWR_RAIL_VSENSE : Fld := ⟨.pwr, 0x10, 8, 4, 47, 32⟩
/-- PWR.RAIL[d].VTARGET (R386). -/ def PWR_RAIL_VTARGET : Fld := ⟨.pwr, 0x10, 8, 4, 31, 16⟩
/-- PWR.RAIL[d].BUSY (R386). -/ def PWR_RAIL_BUSY : Fld := ⟨.pwr, 0x10, 8, 4, 8, 8⟩
/-- PWR.RAIL[d].OP_NOW (R386). -/ def PWR_RAIL_OP_NOW : Fld := ⟨.pwr, 0x10, 8, 4, 5, 4⟩
/-- PWR.RAIL[d].OP (R386). -/ def PWR_RAIL_OP : Fld := ⟨.pwr, 0x10, 8, 4, 1, 0⟩
/-- PWR.DROOP_CFG.RECOVER (R386). -/ def PWR_DROOP_CFG_RECOVER : Fld := ⟨.pwr, 0x30, 8, 1, 31, 16⟩
/-- PWR.DROOP_CFG.MV (R386). -/ def PWR_DROOP_CFG_MV : Fld := ⟨.pwr, 0x30, 8, 1, 7, 0⟩
/-- PWR.DROOP[d].COUNT (R386). -/ def PWR_DROOP_COUNT : Fld := ⟨.pwr, 0x38, 8, 4, 31, 0⟩
/-- PWR.LAST_WAKE.VALID (R386). -/ def PWR_LAST_WAKE_VALID : Fld := ⟨.pwr, 0x58, 8, 1, 63, 63⟩
/-- PWR.LAST_WAKE.SOURCE (R386). -/ def PWR_LAST_WAKE_SOURCE : Fld := ⟨.pwr, 0x58, 8, 1, 62, 61⟩
/-- PWR.LAST_WAKE.DOMAIN (R386). -/ def PWR_LAST_WAKE_DOMAIN : Fld := ⟨.pwr, 0x58, 8, 1, 57, 49⟩
/-- PWR.LAST_WAKE.TIME (R386). -/ def PWR_LAST_WAKE_TIME : Fld := ⟨.pwr, 0x58, 8, 1, 39, 0⟩
/-- PWR.WOW.TILES (R386). -/ def PWR_WOW_TILES : Fld := ⟨.pwr, 0x60, 8, 1, 63, 0⟩
/-- PWR.WOW_DIES.DIES (R386). -/ def PWR_WOW_DIES_DIES : Fld := ⟨.pwr, 0x68, 8, 1, 15, 0⟩
/-- PWR.DOM_CMD.GO (R386). -/ def PWR_DOM_CMD_GO : Fld := ⟨.pwr, 0x70, 8, 1, 63, 63⟩
/-- PWR.DOM_CMD.RESULT (R386). -/ def PWR_DOM_CMD_RESULT : Fld := ⟨.pwr, 0x70, 8, 1, 19, 16⟩
/-- PWR.DOM_CMD.OP (R386). -/ def PWR_DOM_CMD_OP : Fld := ⟨.pwr, 0x70, 8, 1, 15, 12⟩
/-- PWR.DOM_CMD.DOMAIN (R386). -/ def PWR_DOM_CMD_DOMAIN : Fld := ⟨.pwr, 0x70, 8, 1, 8, 0⟩
/-- PWR.DSTATE[i].STATE_j (R386). -/ def PWR_DSTATE : Fld := ⟨.pwr, 0x100, 8, 27, 63, 0⟩
/-- PLANT.CTL.CURT_EN (R387). -/ def PLANT_CTL_CURT_EN : Fld := ⟨.plant, 0x0, 8, 1, 3, 3⟩
/-- PLANT.CTL.FORECAST_EN (R387). -/ def PLANT_CTL_FORECAST_EN : Fld := ⟨.plant, 0x0, 8, 1, 2, 2⟩
/-- PLANT.CTL.SOC_EN (R387). -/ def PLANT_CTL_SOC_EN : Fld := ⟨.plant, 0x0, 8, 1, 1, 1⟩
/-- PLANT.CTL.EN (R387). -/ def PLANT_CTL_EN : Fld := ⟨.plant, 0x0, 8, 1, 0, 0⟩
/-- PLANT.STATUS.FLOOR_EFF (R387). -/ def PLANT_STATUS_FLOOR_EFF : Fld := ⟨.plant, 0x8, 8, 1, 63, 48⟩
/-- PLANT.STATUS.CEIL_EFF (R387). -/ def PLANT_STATUS_CEIL_EFF : Fld := ⟨.plant, 0x8, 8, 1, 47, 32⟩
/-- PLANT.STATUS.P_EST (R387). -/ def PLANT_STATUS_P_EST : Fld := ⟨.plant, 0x8, 8, 1, 31, 16⟩
/-- PLANT.STATUS.PINS_PLANT (R387). -/ def PLANT_STATUS_PINS_PLANT : Fld := ⟨.plant, 0x8, 8, 1, 9, 9⟩
/-- PLANT.STATUS.SOC_STALE (R387). -/ def PLANT_STATUS_SOC_STALE : Fld := ⟨.plant, 0x8, 8, 1, 8, 8⟩
/-- PLANT.STATUS.CURT_LVL (R387). -/ def PLANT_STATUS_CURT_LVL : Fld := ⟨.plant, 0x8, 8, 1, 7, 4⟩
/-- PLANT.STATUS.CURT_ACK (R387). -/ def PLANT_STATUS_CURT_ACK : Fld := ⟨.plant, 0x8, 8, 1, 3, 3⟩
/-- PLANT.STATUS.CURTAILED (R387). -/ def PLANT_STATUS_CURTAILED : Fld := ⟨.plant, 0x8, 8, 1, 2, 2⟩
/-- PLANT.STATUS.LSN_ACK (R387). -/ def PLANT_STATUS_LSN_ACK : Fld := ⟨.plant, 0x8, 8, 1, 1, 1⟩
/-- PLANT.STATUS.LSN_OUT (R387). -/ def PLANT_STATUS_LSN_OUT : Fld := ⟨.plant, 0x8, 8, 1, 0, 0⟩
/-- PLANT.LIMITS.RAMP_DOWN (R387). -/ def PLANT_LIMITS_RAMP_DOWN : Fld := ⟨.plant, 0x10, 8, 1, 63, 48⟩
/-- PLANT.LIMITS.RAMP_UP (R387). -/ def PLANT_LIMITS_RAMP_UP : Fld := ⟨.plant, 0x10, 8, 1, 47, 32⟩
/-- PLANT.LIMITS.FLOOR (R387). -/ def PLANT_LIMITS_FLOOR : Fld := ⟨.plant, 0x10, 8, 1, 31, 16⟩
/-- PLANT.LIMITS.CEILING (R387). -/ def PLANT_LIMITS_CEILING : Fld := ⟨.plant, 0x10, 8, 1, 15, 0⟩
/-- PLANT.LSN.HOLD_MAX (R387). -/ def PLANT_LSN_HOLD_MAX : Fld := ⟨.plant, 0x18, 8, 1, 63, 48⟩
/-- PLANT.LSN.FALLBACK (R387). -/ def PLANT_LSN_FALLBACK : Fld := ⟨.plant, 0x18, 8, 1, 39, 32⟩
/-- PLANT.LSN.STEP_A (R387). -/ def PLANT_LSN_STEP_A : Fld := ⟨.plant, 0x18, 8, 1, 27, 16⟩
/-- PLANT.LSN.LEAD (R387). -/ def PLANT_LSN_LEAD : Fld := ⟨.plant, 0x18, 8, 1, 15, 0⟩
/-- PLANT.IEST.BAL (R387). -/ def PLANT_IEST_BAL : Fld := ⟨.plant, 0x20, 8, 1, 47, 32⟩
/-- PLANT.IEST.VE (R387). -/ def PLANT_IEST_VE : Fld := ⟨.plant, 0x20, 8, 1, 31, 16⟩
/-- PLANT.IEST.MX (R387). -/ def PLANT_IEST_MX : Fld := ⟨.plant, 0x20, 8, 1, 15, 0⟩
/-- PLANT.SOC.TIMEOUT (R387). -/ def PLANT_SOC_TIMEOUT : Fld := ⟨.plant, 0x28, 8, 1, 63, 48⟩
/-- PLANT.SOC.SOC_CEIL (R387). -/ def PLANT_SOC_SOC_CEIL : Fld := ⟨.plant, 0x28, 8, 1, 47, 32⟩
/-- PLANT.SOC.SOC_LO (R387). -/ def PLANT_SOC_SOC_LO : Fld := ⟨.plant, 0x28, 8, 1, 31, 16⟩
/-- PLANT.SOC.SOC_HI (R387). -/ def PLANT_SOC_SOC_HI : Fld := ⟨.plant, 0x28, 8, 1, 15, 0⟩
/-- PLANT.SOC_NOW.AGE (R387). -/ def PLANT_SOC_NOW_AGE : Fld := ⟨.plant, 0x30, 8, 1, 63, 48⟩
/-- PLANT.SOC_NOW.VALID (R387). -/ def PLANT_SOC_NOW_VALID : Fld := ⟨.plant, 0x30, 8, 1, 24, 24⟩
/-- PLANT.SOC_NOW.SEQ (R387). -/ def PLANT_SOC_NOW_SEQ : Fld := ⟨.plant, 0x30, 8, 1, 23, 16⟩
/-- PLANT.SOC_NOW.SOC (R387). -/ def PLANT_SOC_NOW_SOC : Fld := ⟨.plant, 0x30, 8, 1, 15, 0⟩
/-- PLANT.CURT_TABLE[i].ENTRY (R387). -/ def PLANT_CURT_TABLE : Fld := ⟨.plant, 0x38, 8, 4, 63, 0⟩
/-- PLANT.THERM.TJ_MAX (R387). -/ def PLANT_THERM_TJ_MAX : Fld := ⟨.plant, 0x58, 8, 1, 47, 32⟩
/-- PLANT.THERM.STEP_W (R387). -/ def PLANT_THERM_STEP_W : Fld := ⟨.plant, 0x58, 8, 1, 31, 16⟩
/-- PLANT.THERM.T_LIMIT (R387). -/ def PLANT_THERM_T_LIMIT : Fld := ⟨.plant, 0x58, 8, 1, 7, 0⟩
/-- PLANT.PLAN.P_100MS (R387). -/ def PLANT_PLAN_P_100MS : Fld := ⟨.plant, 0x60, 8, 1, 47, 32⟩
/-- PLANT.PLAN.P_10MS (R387). -/ def PLANT_PLAN_P_10MS : Fld := ⟨.plant, 0x60, 8, 1, 31, 16⟩
/-- PLANT.PLAN.P_1MS (R387). -/ def PLANT_PLAN_P_1MS : Fld := ⟨.plant, 0x60, 8, 1, 15, 0⟩
/-- PLANT.PMB.ADDR3 (R387). -/ def PLANT_PMB_ADDR3 : Fld := ⟨.plant, 0x68, 8, 1, 46, 40⟩
/-- PLANT.PMB.ADDR2 (R387). -/ def PLANT_PMB_ADDR2 : Fld := ⟨.plant, 0x68, 8, 1, 38, 32⟩
/-- PLANT.PMB.ADDR1 (R387). -/ def PLANT_PMB_ADDR1 : Fld := ⟨.plant, 0x68, 8, 1, 30, 24⟩
/-- PLANT.PMB.ADDR0 (R387). -/ def PLANT_PMB_ADDR0 : Fld := ⟨.plant, 0x68, 8, 1, 22, 16⟩
/-- PLANT.PMB.POLL (R387). -/ def PLANT_PMB_POLL : Fld := ⟨.plant, 0x68, 8, 1, 15, 0⟩
/-- PLANT.RAIL_TELEM[d].STATUS_WORD (R387). -/ def PLANT_RAIL_TELEM_STATUS_WORD : Fld := ⟨.plant, 0x70, 8, 4, 63, 48⟩
/-- PLANT.RAIL_TELEM[d].TEMP (R387). -/ def PLANT_RAIL_TELEM_TEMP : Fld := ⟨.plant, 0x70, 8, 4, 39, 32⟩
/-- PLANT.RAIL_TELEM[d].IOUT (R387). -/ def PLANT_RAIL_TELEM_IOUT : Fld := ⟨.plant, 0x70, 8, 4, 31, 16⟩
/-- PLANT.RAIL_TELEM[d].VOUT (R387). -/ def PLANT_RAIL_TELEM_VOUT : Fld := ⟨.plant, 0x70, 8, 4, 15, 0⟩
/-- PLANT.UNCORE.W (R387). -/ def PLANT_UNCORE_W : Fld := ⟨.plant, 0x90, 8, 1, 15, 0⟩
/-- PLANT.LSN_NOTICES.COUNT (R387). -/ def PLANT_LSN_NOTICES_COUNT : Fld := ⟨.plant, 0x98, 8, 1, 31, 0⟩
/-- PLANT.LSN_NOACK.COUNT (R387). -/ def PLANT_LSN_NOACK_COUNT : Fld := ⟨.plant, 0xa0, 8, 1, 31, 0⟩
/-- PLANT.CURT_EVENTS.COUNT (R387). -/ def PLANT_CURT_EVENTS_COUNT : Fld := ⟨.plant, 0xa8, 8, 1, 31, 0⟩
/-- PLANT.LINK_ERR.COUNT (R387). -/ def PLANT_LINK_ERR_COUNT : Fld := ⟨.plant, 0xb0, 8, 1, 31, 0⟩
/-- PLANT.EVENT.HOLD_MAX (R387). -/ def PLANT_EVENT_HOLD_MAX : Fld := ⟨.plant, 0xb8, 8, 1, 9, 9⟩
/-- PLANT.EVENT.PMB_ERR (R387). -/ def PLANT_EVENT_PMB_ERR : Fld := ⟨.plant, 0xb8, 8, 1, 8, 8⟩
/-- PLANT.EVENT.AVS_ERR (R387). -/ def PLANT_EVENT_AVS_ERR : Fld := ⟨.plant, 0xb8, 8, 1, 7, 7⟩
/-- PLANT.EVENT.PINS (R387). -/ def PLANT_EVENT_PINS : Fld := ⟨.plant, 0xb8, 8, 1, 6, 6⟩
/-- PLANT.EVENT.THERM_LIMIT (R387). -/ def PLANT_EVENT_THERM_LIMIT : Fld := ⟨.plant, 0xb8, 8, 1, 5, 5⟩
/-- PLANT.EVENT.SOC_LOW (R387). -/ def PLANT_EVENT_SOC_LOW : Fld := ⟨.plant, 0xb8, 8, 1, 4, 4⟩
/-- PLANT.EVENT.SOC_STALE (R387). -/ def PLANT_EVENT_SOC_STALE : Fld := ⟨.plant, 0xb8, 8, 1, 3, 3⟩
/-- PLANT.EVENT.CURT_UNMET (R387). -/ def PLANT_EVENT_CURT_UNMET : Fld := ⟨.plant, 0xb8, 8, 1, 2, 2⟩
/-- PLANT.EVENT.LATE_ACK (R387). -/ def PLANT_EVENT_LATE_ACK : Fld := ⟨.plant, 0xb8, 8, 1, 1, 1⟩
/-- PLANT.EVENT.NOACK (R387). -/ def PLANT_EVENT_NOACK : Fld := ⟨.plant, 0xb8, 8, 1, 0, 0⟩
/-- PMC.CTL.USER_READ (R403). -/ def PMC_CTL_USER_READ : Fld := ⟨.pmc, 0x0, 8, 1, 3, 3⟩
/-- PMC.CTL.FREEZE_ON_OVF (R403). -/ def PMC_CTL_FREEZE_ON_OVF : Fld := ⟨.pmc, 0x0, 8, 1, 2, 2⟩
/-- PMC.CTL.FROZEN (R403). -/ def PMC_CTL_FROZEN : Fld := ⟨.pmc, 0x0, 8, 1, 1, 1⟩
/-- PMC.CTL.EN (R403). -/ def PMC_CTL_EN : Fld := ⟨.pmc, 0x0, 8, 1, 0, 0⟩
/-- PMC.OVF.OVF (R403). -/ def PMC_OVF_OVF : Fld := ⟨.pmc, 0x8, 8, 1, 15, 0⟩
/-- PMC.SBUF_CTL.LOST (R403). -/ def PMC_SBUF_CTL_LOST : Fld := ⟨.pmc, 0x10, 8, 1, 63, 32⟩
/-- PMC.SBUF_CTL.WR (R403). -/ def PMC_SBUF_CTL_WR : Fld := ⟨.pmc, 0x10, 8, 1, 15, 12⟩
/-- PMC.SBUF_CTL.RD (R403). -/ def PMC_SBUF_CTL_RD : Fld := ⟨.pmc, 0x10, 8, 1, 11, 8⟩
/-- PMC.SBUF_CTL.FULL (R403). -/ def PMC_SBUF_CTL_FULL : Fld := ⟨.pmc, 0x10, 8, 1, 5, 5⟩
/-- PMC.SBUF_CTL.COUNT (R403). -/ def PMC_SBUF_CTL_COUNT : Fld := ⟨.pmc, 0x10, 8, 1, 4, 0⟩
/-- PMC.DUMP_BASE.ADDR (R403). -/ def PMC_DUMP_BASE_ADDR : Fld := ⟨.pmc, 0x18, 8, 1, 63, 12⟩
/-- PMC.DUMP_BASE.LOG2_RECORDS (R403). -/ def PMC_DUMP_BASE_LOG2_RECORDS : Fld := ⟨.pmc, 0x18, 8, 1, 4, 0⟩
/-- PMC.DUMP_CTL.SEQ (R403). -/ def PMC_DUMP_CTL_SEQ : Fld := ⟨.pmc, 0x20, 8, 1, 63, 32⟩
/-- PMC.DUMP_CTL.PERIOD (R403). -/ def PMC_DUMP_CTL_PERIOD : Fld := ⟨.pmc, 0x20, 8, 1, 31, 16⟩
/-- PMC.DUMP_CTL.EN (R403). -/ def PMC_DUMP_CTL_EN : Fld := ⟨.pmc, 0x20, 8, 1, 0, 0⟩
/-- PMC.DUMP_LOST.COUNT (R403). -/ def PMC_DUMP_LOST_COUNT : Fld := ⟨.pmc, 0x28, 8, 1, 31, 0⟩
/-- PMC.WIN.SKIPPED (R403). -/ def PMC_WIN_SKIPPED : Fld := ⟨.pmc, 0x30, 8, 1, 63, 32⟩
/-- PMC.WIN.OPEN (R403). -/ def PMC_WIN_OPEN : Fld := ⟨.pmc, 0x30, 8, 1, 19, 16⟩
/-- PMC.WIN.CLAIMED (R403). -/ def PMC_WIN_CLAIMED : Fld := ⟨.pmc, 0x30, 8, 1, 15, 0⟩
/-- PMC.CTR[n].VALUE (R403). -/ def PMC_CTR_VALUE : Fld := ⟨.pmc, 0x100, 8, 16, 47, 0⟩
/-- PMC.EVSEL[n].EN (R403). -/ def PMC_EVSEL_EN : Fld := ⟨.pmc, 0x180, 8, 16, 63, 63⟩
/-- PMC.EVSEL[n].EDGE (R403). -/ def PMC_EVSEL_EDGE : Fld := ⟨.pmc, 0x180, 8, 16, 62, 62⟩
/-- PMC.EVSEL[n].CHAIN (R403). -/ def PMC_EVSEL_CHAIN : Fld := ⟨.pmc, 0x180, 8, 16, 61, 61⟩
/-- PMC.EVSEL[n].SAMPLE (R403). -/ def PMC_EVSEL_SAMPLE : Fld := ⟨.pmc, 0x180, 8, 16, 60, 60⟩
/-- PMC.EVSEL[n].PERIOD (R403). -/ def PMC_EVSEL_PERIOD : Fld := ⟨.pmc, 0x180, 8, 16, 55, 32⟩
/-- PMC.EVSEL[n].UNIT (R403). -/ def PMC_EVSEL_UNIT : Fld := ⟨.pmc, 0x180, 8, 16, 15, 12⟩
/-- PMC.EVSEL[n].EVENT (R403). -/ def PMC_EVSEL_EVENT : Fld := ⟨.pmc, 0x180, 8, 16, 7, 0⟩
/-- PMC.TD[u][c].COUNT (R403). -/ def PMC_TD_COUNT : Fld := ⟨.pmc, 0x200, 8, 24, 63, 0⟩
/-- PMC.TD_BEATS[u].COUNT (R403). -/ def PMC_TD_BEATS_COUNT : Fld := ⟨.pmc, 0x2c0, 8, 4, 63, 0⟩
/-- PMC.SBUF[i].WORD (R403). -/ def PMC_SBUF_WORD : Fld := ⟨.pmc, 0x400, 8, 128, 63, 0⟩
/-- CMC.UC[n].VALUE (R405). -/ def CMC_UC_VALUE : Fld := ⟨.cmc, 0x8000, 16, 32, 47, 0⟩
/-- CMC.UC_SEL[n].EN (R405). -/ def CMC_UC_SEL_EN : Fld := ⟨.cmc, 0x8008, 16, 32, 63, 63⟩
/-- CMC.UC_SEL[n].EDGE (R405). -/ def CMC_UC_SEL_EDGE : Fld := ⟨.cmc, 0x8008, 16, 32, 62, 62⟩
/-- CMC.UC_SEL[n].CHAIN (R405). -/ def CMC_UC_SEL_CHAIN : Fld := ⟨.cmc, 0x8008, 16, 32, 61, 61⟩
/-- CMC.UC_SEL[n].KIND (R405). -/ def CMC_UC_SEL_KIND : Fld := ⟨.cmc, 0x8008, 16, 32, 26, 24⟩
/-- CMC.UC_SEL[n].SOURCE (R405). -/ def CMC_UC_SEL_SOURCE : Fld := ⟨.cmc, 0x8008, 16, 32, 23, 16⟩
/-- CMC.UC_SEL[n].EVENT (R405). -/ def CMC_UC_SEL_EVENT : Fld := ⟨.cmc, 0x8008, 16, 32, 7, 0⟩
/-- CMC.UC_OVF.OVF (R405). -/ def CMC_UC_OVF_OVF : Fld := ⟨.cmc, 0x8200, 8, 1, 31, 0⟩
/-- CMC.STATUS.ERR_ARG (R423). -/ def CMC_STATUS_ERR_ARG : Fld := ⟨.cmc, 0x0, 8, 1, 39, 24⟩
/-- CMC.STATUS.BOOT_ERR (R423). -/ def CMC_STATUS_BOOT_ERR : Fld := ⟨.cmc, 0x0, 8, 1, 23, 16⟩
/-- CMC.STATUS.STAGE (R423). -/ def CMC_STATUS_STAGE : Fld := ⟨.cmc, 0x0, 8, 1, 7, 4⟩
/-- CMC.STATUS.DEGRADED (R423). -/ def CMC_STATUS_DEGRADED : Fld := ⟨.cmc, 0x0, 8, 1, 1, 1⟩
/-- CMC.STATUS.READY (R423). -/ def CMC_STATUS_READY : Fld := ⟨.cmc, 0x0, 8, 1, 0, 0⟩
/-- CMC.BOOT.FW_VERSION (R423). -/ def CMC_BOOT_FW_VERSION : Fld := ⟨.cmc, 0x8, 8, 1, 63, 32⟩
/-- CMC.BOOT.IMG_ROLLBACK (R423). -/ def CMC_BOOT_IMG_ROLLBACK : Fld := ⟨.cmc, 0x8, 8, 1, 31, 24⟩
/-- CMC.BOOT.FUSE_ROLLBACK (R423). -/ def CMC_BOOT_FUSE_ROLLBACK : Fld := ⟨.cmc, 0x8, 8, 1, 23, 16⟩
/-- CMC.BOOT.STACKS_KEPT (R423). -/ def CMC_BOOT_STACKS_KEPT : Fld := ⟨.cmc, 0x8, 8, 1, 3, 3⟩
/-- CMC.BOOT.CFG_VALID (R423). -/ def CMC_BOOT_CFG_VALID : Fld := ⟨.cmc, 0x8, 8, 1, 2, 2⟩
/-- CMC.BOOT.SECURE (R423). -/ def CMC_BOOT_SECURE : Fld := ⟨.cmc, 0x8, 8, 1, 1, 1⟩
/-- CMC.BOOT.SLOT (R423). -/ def CMC_BOOT_SLOT : Fld := ⟨.cmc, 0x8, 8, 1, 0, 0⟩
/-- CMC.RESET.KEEP_STACKS (R423). -/ def CMC_RESET_KEEP_STACKS : Fld := ⟨.cmc, 0x10, 8, 1, 1, 1⟩
/-- CMC.RESET.GO (R423). -/ def CMC_RESET_GO : Fld := ⟨.cmc, 0x10, 8, 1, 0, 0⟩
/-- CMC.RESET_CAUSE.CAUSE (R423). -/ def CMC_RESET_CAUSE_CAUSE : Fld := ⟨.cmc, 0x18, 8, 1, 1, 0⟩
/-- HBM.STATUS.TEMP (R424). -/ def HBM_STATUS_TEMP : Fld := ⟨.hbm, 0x0, 8, 1, 31, 24⟩
/-- HBM.STATUS.REFRESH_X2 (R424). -/ def HBM_STATUS_REFRESH_X2 : Fld := ⟨.hbm, 0x0, 8, 1, 8, 8⟩
/-- HBM.STATUS.KEPT (R424). -/ def HBM_STATUS_KEPT : Fld := ⟨.hbm, 0x0, 8, 1, 3, 3⟩
/-- HBM.STATUS.STATE (R424). -/ def HBM_STATUS_STATE : Fld := ⟨.hbm, 0x0, 8, 1, 2, 0⟩
/-- HBM.ERR.UE (R424). -/ def HBM_ERR_UE : Fld := ⟨.hbm, 0x8, 8, 1, 63, 32⟩
/-- HBM.ERR.CE (R424). -/ def HBM_ERR_CE : Fld := ⟨.hbm, 0x8, 8, 1, 31, 0⟩
/-- HBM.ODECC.COUNT (R424). -/ def HBM_ODECC_COUNT : Fld := ⟨.hbm, 0x10, 8, 1, 31, 0⟩
/-- HBM.REPAIR.SPARES_MIN (R424). -/ def HBM_REPAIR_SPARES_MIN : Fld := ⟨.hbm, 0x18, 8, 1, 47, 32⟩
/-- HBM.REPAIR.HARD (R424). -/ def HBM_REPAIR_HARD : Fld := ⟨.hbm, 0x18, 8, 1, 31, 16⟩
/-- HBM.REPAIR.SOFT (R424). -/ def HBM_REPAIR_SOFT : Fld := ⟨.hbm, 0x18, 8, 1, 15, 0⟩
/-- DBG.CTL.DIV (R425). -/ def DBG_CTL_DIV : Fld := ⟨.dbg, 0x0, 8, 1, 15, 4⟩
/-- DBG.CTL.MODE (R425). -/ def DBG_CTL_MODE : Fld := ⟨.dbg, 0x0, 8, 1, 1, 1⟩
/-- DBG.CTL.EN (R425). -/ def DBG_CTL_EN : Fld := ⟨.dbg, 0x0, 8, 1, 0, 0⟩
/-- DBG.SEL.SOURCE (R425). -/ def DBG_SEL_SOURCE : Fld := ⟨.dbg, 0x8, 8, 1, 28, 24⟩
/-- DBG.SEL.NODE (R425). -/ def DBG_SEL_NODE : Fld := ⟨.dbg, 0x8, 8, 1, 19, 16⟩
/-- DBG.SEL.GROUP (R425). -/ def DBG_SEL_GROUP : Fld := ⟨.dbg, 0x8, 8, 1, 11, 0⟩
/-- DBG.STATUS.LOST (R425). -/ def DBG_STATUS_LOST : Fld := ⟨.dbg, 0x10, 8, 1, 63, 32⟩
/-- DBG.STATUS.RESULT (R425). -/ def DBG_STATUS_RESULT : Fld := ⟨.dbg, 0x10, 8, 1, 15, 8⟩
/-- DBG.STATUS.SEALED (R425). -/ def DBG_STATUS_SEALED : Fld := ⟨.dbg, 0x10, 8, 1, 1, 1⟩
/-- DBG.STATUS.ACTIVE (R425). -/ def DBG_STATUS_ACTIVE : Fld := ⟨.dbg, 0x10, 8, 1, 0, 0⟩
/-- FUSE.STATUS.RESULT (R426). -/ def FUSE_STATUS_RESULT : Fld := ⟨.fuse, 0x0, 8, 1, 15, 8⟩
/-- FUSE.STATUS.VPP_OK (R426). -/ def FUSE_STATUS_VPP_OK : Fld := ⟨.fuse, 0x0, 8, 1, 1, 1⟩
/-- FUSE.STATUS.BUSY (R426). -/ def FUSE_STATUS_BUSY : Fld := ⟨.fuse, 0x0, 8, 1, 0, 0⟩
/-- FUSE.PROG.ARM (R426). -/ def FUSE_PROG_ARM : Fld := ⟨.fuse, 0x8, 8, 1, 63, 56⟩
/-- FUSE.PROG.GO (R426). -/ def FUSE_PROG_GO : Fld := ⟨.fuse, 0x8, 8, 1, 16, 16⟩
/-- FUSE.PROG.WORD (R426). -/ def FUSE_PROG_WORD : Fld := ⟨.fuse, 0x8, 8, 1, 13, 8⟩
/-- FUSE.PROG.BIT (R426). -/ def FUSE_PROG_BIT : Fld := ⟨.fuse, 0x8, 8, 1, 5, 0⟩
/-- FUSE.WORD[w].VALUE (R426). -/ def FUSE_WORD_VALUE : Fld := ⟨.fuse, 0x100, 8, 64, 63, 0⟩

end Sys2Proof.Machine
end

