-- ==== Sys2Proof/Machine/AddressMap.lean ====
section
/-! DEFINITION. The module address space: what lies at an address (R16 to R19), where a register of a block lies, and
the reset value and bit masks of the register at an address (R10 to R12). -/

namespace Sys2Proof.Machine

/-- What lies at a module address: byte `off` of palette `t` or of stack `n`, offset `off` of a register window, or
nothing that is populated. -/
inductive Place where
  | palette (t off : Nat)
  | stack (n off : Nat)
  | reg (b : Blk) (inst off : Nat)
  | hole
  | absent
  deriving DecidableEq, Repr

/-- The populated bytes of one palette, 48 MiB. -/
def paletteBytes : Nat := 0x3000000
/-- The populated bytes of one stack, 36 × 2^30. -/
def stackBytes : Nat := 0x900000000
/-- The first address of palette t. -/
def paletteBase (t : Nat) : Nat := 0x10000000000 + t * 0x4000000
/-- The first address of stack n. -/
def stackBase (n : Nat) : Nat := n * 0x1000000000

/-- The block of a tile's register window at window offset `o` (R18). -/
def tilePlace (t o : Nat) : Place :=
  match o / 0x10000 with
  | 0 => .reg .mx t (o % 0x10000)
  | 1 => .reg .ve t (o % 0x10000)
  | 2 => .reg .sfu t (o % 0x10000)
  | 3 => .reg .pal t (o % 0x10000)
  | 4 => .reg .seq t (o % 0x10000)
  | 5 => .reg .pmc t (o % 0x10000)
  | _ => .reg .seq t 0xfff8

/-- The place in the RING window at window offset `o` (R211, R212). -/
def ringPlace (o : Nat) : Place :=
  if o < 0x100000 then .reg .ring 0 o
  else if o < 0x180000 then .reg .grp ((o - 0x100000) / 64) (o % 64)
  else if 0x1000000 ≤ o ∧ o < 0x3000000 then .reg .ringr ((o - 0x1000000) / 64) (o % 64)
  else .reg .ring 0 0x8000

/-- The single blocks of the uncore, by window number (R19). -/
def uncoreOne : Nat → Option Blk
  | 0 => some .cap
  | 1 => some .tb
  | 2 => some .pwr
  | 3 => some .plant
  | 4 => some .risk
  | 5 => some .dbg
  | 6 => some .fuse
  | 7 => some .cmc
  | _ => none

/-- The place of uncore offset `o` from 0x210_0000_0000 (R19). -/
def uncorePlace (o : Nat) : Place :=
  let w := o / 0x10000
  let r := o % 0x10000
  if 0x10000000 ≤ o then (if o < 0x20000000 then ringPlace (o - 0x10000000) else .absent)
  else match uncoreOne w with
    | some b => .reg b 0 r
    | none =>
      if 0x10 ≤ w ∧ w < 0x14 then .reg .host (w - 0x10) r
      else if 0x20 ≤ w ∧ w < 0x30 then .reg .atl (w - 0x20) r
      else if 0x30 ≤ w ∧ w < 0x32 then .reg .coll (w - 0x30) r
      else if 0x100 ≤ w ∧ w < 0x118 then .reg .link (w - 0x100) r
      else if 0x200 ≤ w ∧ w < 0x210 then .reg .hbm (w - 0x200) r
      else if 0x300 ≤ w ∧ w < 0x310 then .reg .var (w - 0x300) r
      else .absent

/-- What lies at a module address (R16, R17). -/
def place (a : Nat) : Place :=
  if a < 0x10000000000 then
    (if a % 0x1000000000 < stackBytes then .stack (a / 0x1000000000) (a % 0x1000000000) else .absent)
  else if a < 0x20000000000 then
    (let o := a - 0x10000000000
     if o / 0x4000000 < 64 ∧ o % 0x4000000 < paletteBytes then .palette (o / 0x4000000) (o % 0x4000000) else .absent)
  else if a < 0x21000000000 then
    (let o := a - 0x20000000000
     if o / 0x100000 < 64 then tilePlace (o / 0x100000) (o % 0x100000) else .absent)
  else uncorePlace (a - 0x21000000000)

/-- The byte at address `a` is palette or stack memory. -/
def isMemory (a : Nat) : Bool :=
  match place a with
  | .palette _ _ => true
  | .stack _ _ => true
  | _ => false

/-- The base address of a block's window or entry. -/
def blkBase : Blk → Nat → Nat
  | .mx, t => 0x20000000000 + t * 0x100000
  | .ve, t => 0x20000010000 + t * 0x100000
  | .sfu, t => 0x20000020000 + t * 0x100000
  | .pal, t => 0x20000030000 + t * 0x100000
  | .seq, t => 0x20000040000 + t * 0x100000
  | .pmc, t => 0x20000050000 + t * 0x100000
  | .cap, _ => 0x21000000000
  | .tb, _ => 0x21000010000
  | .pwr, _ => 0x21000020000
  | .plant, _ => 0x21000030000
  | .risk, _ => 0x21000040000
  | .dbg, _ => 0x21000050000
  | .fuse, _ => 0x21000060000
  | .cmc, _ => 0x21000070000
  | .host, n => 0x21000100000 + n * 0x10000
  | .atl, n => 0x21000200000 + n * 0x10000
  | .coll, n => 0x21000300000 + n * 0x10000
  | .link, n => 0x21001000000 + n * 0x10000
  | .hbm, n => 0x21002000000 + n * 0x10000
  | .var, n => 0x21003000000 + n * 0x10000
  | .ring, _ => 0x21010000000
  | .grp, g => 0x21010100000 + g * 64
  | .ringr, r => 0x21011000000 + r * 64

/-- The registers that one copy holds for every instance window: ATL offsets 0x8000 and above (R356), and the
module-wide registers of COLL (R279). -/
def oneCopy (b : Blk) (off : Nat) : Bool :=
  match b with
  | .atl => 0x8000 ≤ off
  | .coll => off = 0x0 || off = 0x48 || off = 0x50 || off = 0x58 || off = 0x60 || off = 0x68
  | _ => false

/-- How many instances a block has (R8, R181). -/
def blkCount : Blk → Nat
  | .mx | .ve | .sfu | .pal | .seq | .pmc => 64
  | .cap | .tb | .pwr | .plant | .risk | .dbg | .fuse | .cmc | .ring => 1
  | .host => 4
  | .atl | .hbm | .var => 16
  | .coll => 2
  | .link => 24
  | .grp => 8192
  | .ringr => 524288

/-- The bytes of a block's window or entry. -/
def blkSize : Blk → Nat
  | .ring => 0x100000
  | .grp | .ringr => 64
  | _ => 0x10000

/-- The address of the register that holds offset `off` of instance `i` of block `b`; instances and offsets count within the
block. -/
def regAddr (b : Blk) (i off : Nat) : Nat :=
  blkBase b (if oneCopy b (off % blkSize b) then 0 else i % blkCount b) + off % blkSize b

/-- The block whose register window an address lies in. -/
def blkAt (a : Nat) : Option Blk :=
  match place a with
  | .reg b _ _ => some b
  | _ => none

/-- The register of a list that lies at offset `off`. -/
def findDef : List RegDef → Nat → Option RegDef
  | [], _ => none
  | d :: ds, off =>
    if d.off ≤ off ∧ off < d.off + d.stride * d.count ∧ (off - d.off) % d.stride = 0 then some d else findDef ds off

/-- The register at a module address: its block, instance, offset and definition. -/
def regAt (a : Nat) : Option (Blk × Nat × Nat × RegDef) :=
  match place a with
  | .reg b i off => (findDef (blkRegs b) off).map fun d => (b, i, off, d)
  | _ => none

/-- Reset values that depend on the place in an array (R386, R387). -/
def resetOf (b : Blk) (off : Nat) (d : RegDef) : Word :=
  match b with
  | .pwr => if off = 0x1d0 then 0x3333333333333333 else d.reset
  | .plant =>
    if 0x38 ≤ off ∧ off < 0x58 then
      (let i := (off - 0x38) / 8
       BitVec.ofNat 64 ((4500 - 250 * (4 * i)) + (4500 - 250 * (4 * i + 1)) * 2 ^ 16
         + (4500 - 250 * (4 * i + 2)) * 2 ^ 32 + (4500 - 250 * (4 * i + 3)) * 2 ^ 48))
    else d.reset
  | _ => d.reset

/-- What a register that nothing has written reads as; 0 where no register lies (R11, R12). -/
def regReset (a : Nat) : Word :=
  match regAt a with
  | some (b, _, off, d) => resetOf b off d
  | none => 0

/-- The bits that hardware or software can change at an address: none in CAP (R20) and none where no register is. -/
def regBits (a : Nat) : Word :=
  match regAt a with
  | some (.cap, _, _, _) => 0
  | some (_, _, _, d) => d.impl
  | none => 0

/-- The address of a field's register: instance `i`, array element `k`, each counted within its array. -/
def Fld.addr (f : Fld) (i k : Nat) : Nat := regAddr f.blk i (f.off + f.stride * (k % f.count))

end Sys2Proof.Machine
end

