-- ==== Sys2Proof/Machine/Maps.lean ====
section
/-! DEFINITION. Sparse maps and sets of natural numbers in one canonical form: keys strictly rising, and no entry
equal to what an unlisted key reads as. Memory, registers and the block's tables are held so. -/

namespace Sys2Proof.Machine

/-- The value at key `k`; a key that is not listed reads as `d k`. -/
def mapGet {α : Type} (d : Nat → α) : List (Nat × α) → Nat → α
  | [], k => d k
  | (k', v) :: m, k => if k = k' then v else mapGet d m k

/-- Take key `k` out. -/
def mapDrop {α : Type} (m : List (Nat × α)) (k : Nat) : List (Nat × α) := m.filter fun e => e.1 != k

/-- Put `v` at key `k`; writing what an unlisted key reads as removes the entry. -/
def mapSet {α : Type} [DecidableEq α] (d : Nat → α) : List (Nat × α) → Nat → α → List (Nat × α)
  | [], k, v => if v = d k then [] else [(k, v)]
  | (k', v') :: m, k, v =>
    if k < k' then (if v = d k then mapDrop ((k', v') :: m) k else (k, v) :: (k', v') :: m)
    else if k = k' then (if v = d k then mapDrop m k else (k, v) :: m)
    else (k', v') :: mapSet d m k v

/-- Every key of the map is above `k`. -/
def keysAbove {α : Type} (k : Nat) (m : List (Nat × α)) : Bool := m.all fun e => k < e.1

/-- The canonical form. -/
def mapWf {α : Type} [DecidableEq α] (d : Nat → α) : List (Nat × α) → Bool
  | [] => true
  | (k, v) :: m => keysAbove k m && decide (v ≠ d k) && mapWf d m

/-- Put a number into a set kept strictly rising. -/
def setIns : List Nat → Nat → List Nat
  | [], k => [k]
  | k' :: m, k => if k < k' then k :: k' :: m else if k = k' then k' :: m else k' :: setIns m k

/-- A set kept strictly rising. -/
def setWf : List Nat → Bool
  | [] => true
  | k :: m => (m.all fun k' => k < k') && setWf m

end Sys2Proof.Machine
end

