-- ==== Sys2Proof/Machine/State.lean ====
section
/-! DEFINITION. The state of the module as plain data: its registers, its memory, the units' own state, the queue of
waiting commands, and what the module has sent outside. -/

namespace Sys2Proof.Machine

/-- Status codes of completion records (R205). -/
inductive Status where
  | ok | lateLaunch | emptyReduce | oobWrite | emptySoftmax | indexFault | darkBank | eccUncorr | stallAbort
  | parked | frameTimeout | genStale | stepSkew | rngSkew | pinOwned | accessDenied | malformed
  deriving DecidableEq, Repr

/-- What the module sends outside. -/
inductive Out where
  /-- A BAR or configuration read completes: `none` is an Unsupported Request; `poisoned` sets the poisoned-TLP
  indication (R342). -/
  | hostCompletion (port : HostNo) (data : Option (List Byte)) (poisoned : Bool)
  /-- A configuration request completes, or is answered with Configuration Request Retry Status (`none`, R409). -/
  | cfgCompletion (port : HostNo) (data : Option (BitVec 32))
  /-- A read of host memory through a port. -/
  | hostRead (port : HostNo) (addr : Word) (len : Nat)
  /-- A write of host memory through a port: little-endian bytes. -/
  | hostWrite (port : HostNo) (addr : Word) (data : List Byte)
  /-- An MSI-X message of a port's table entry: the entry's address and data (R206, R352). -/
  | msix (port : HostNo) (vector : Nat) (addr : Word) (data : BitVec 32)
  /-- A flit leaves on a port (R241). -/
  | flit (port : PortNo) (f : Flit)
  /-- The control flit of step 4 of training: module ID, port, lane set, TX_DELAY and RX_DELAY (R245). The spec gives
  its content and not its layout. -/
  | peerInfo (port : PortNo) (module laneSet txDelay rxDelay : Nat)
  /-- The contributor count of a vote sum's frame whose first flit has left (R268) (DESIGN CHOICE, log entry 93). -/
  | contrib (port : PortNo) (count : BitVec 32)
  /-- The control flit that names a degraded lane set (R247). -/
  | laneSet (port : PortNo) (lanes : Nat)
  /-- A frame of 24 bytes leaves on the plant link (R382). -/
  | plantFrame (bits : BitVec 192)
  /-- An AVSBus command sets a core rail's voltage in mV (R359, R373). -/
  | avs (rail : RailNo) (mv : Nat)
  /-- An AVSBus command sets a core rail's Vout transition rate in mV/µs (R373). -/
  | avsRate (rail : RailNo) (mvPerUs : Nat)
  /-- The PMBus addresses read in a poll (R374). -/
  | pmbusRead (addr : Nat)
  /-- A sample is driven onto SK[31:0] with a strobe (R421). -/
  | sketch (bits : BitVec 32)
  deriving DecidableEq, Repr

/-- The stream context of a descriptor (R196): `keyHi` is STEP in [63:16] and MB in [15:0]. -/
structure Ctx where
  seed : Word := 0
  keyHi : Word := 0
  backward : Bool := false
  deriving DecidableEq, Repr

/-- How far a delivered descriptor has come. `issued`: an engine has taken it. `done`: its reads, writes and host
writes are over and its status is fixed (R203). `recorded`: completed, its record waiting or written (R204). -/
inductive Phase where
  | delivered | issued | done | recorded
  deriving DecidableEq, Repr

/-- The FENCE_HOST read round trip of a descriptor (R201). -/
inductive HostFence where
  | none | held | reading | confirmed
  deriving DecidableEq, Repr

/-- A sequencer slot: a delivered descriptor (R189, R199). `id` is its delivery number. -/
structure Slot where
  id : Nat
  target : Nat
  ring : Nat
  pos : Nat
  words : Descriptor
  ctx : Ctx
  atelier : Nat
  phase : Phase := .delivered
  waitMet : Bool := false
  stampMet : Bool := false
  fence : HostFence := .none
  lc : Option Nat := none
  /-- Its stamped launch has happened (R229). -/
  launched : Bool := false
  /-- Bits [39:0] of its target's replica when it was delivered. -/
  came : Nat := 0
  held : Bool := false
  headerBad : Bool := false
  /-- Its ring has been enabled since its delivery: it has completed, and its record waits (R190, R198). -/
  old : Bool := false
  /-- Its engine holds a request for want of a transaction tag (R202). -/
  tagless : Bool := false
  start : Nat := 0
  /-- The count of its target's replica when its engine last advanced: where a stall starts (R119, R150). -/
  moved : Nat := 0
  reported : Bool := false
  arose : List (Status × Nat) := []
  flags : BitVec 8 := 0
  /-- Granule transfers, frames and host writes of the descriptor that are not yet over (R203). -/
  outstanding : Nat := 0
  /-- The engine that took it at issue. -/
  on : Option Engine := none
  /-- The records and blocks that its body names, as read at issue (R87, R114), in the order of reading. -/
  recs : List Nat := []
  deriving DecidableEq, Repr

/-- A descriptor fetched and not yet delivered (R189), with the context it takes. -/
structure Fetched where
  ring : Nat
  pos : Nat
  words : Descriptor
  ctx : Ctx
  deriving DecidableEq, Repr

/-- A record waiting for room in its group's CQ (R204). `slot` is the descriptor whose slot it keeps; `irq` says that its
writing is a cause of a message (R206), and `fault` that it is one under FAULT_IRQ. -/
structure CqRecord where
  group : Nat
  bits : BitVec 256
  slot : Option Nat
  irq : Bool
  fault : Bool
  /-- Its write has waited for a transaction tag (R202). -/
  waited : Bool := false
  deriving DecidableEq, Repr

/-- One MSI-X table entry and its pending bit (R338, R352). `mask` is the entry's Vector Control mask bit. -/
structure MsixEntry where
  addr : Word := 0
  data : BitVec 32 := 0
  mask : Bool := true
  pending : Bool := false
  /-- The groups whose messages are pending (R206, R352). -/
  groups : List Nat := []
  deriving DecidableEq, Repr

/-- A group's message spacing (R206): whether the holdoff after its last message runs, and whether causes wait. -/
structure Holdoff where
  running : Bool := false
  waiting : Bool := false
  deriving DecidableEq, Repr

/-- A frame: the four words of its header and its payload granules (R250). -/
structure Frame where
  w0 : Word
  w1 : Word
  w2 : Word
  w3 : Word
  payload : List Granule := []
  /-- The contributor count that goes with a partial vote sum of this module: R268 gives its sum and no field of a frame
  for it (DESIGN CHOICE, log entry 93). -/
  contrib : BitVec 32 := 0
  deriving DecidableEq, Repr

/-- A frame that a descriptor or a fixative copy sends and that is to be acknowledged (R253): the descriptor's delivery
number or the copy's, its atelier where it has one, and the frame without its TAG. It leaves once every frame of the
sender with the same `key` and a lower `batch` is answered. -/
structure Sending where
  slot : Nat
  atelier : Option Nat
  key : Nat
  batch : Nat
  frame : Frame
  deriving DecidableEq, Repr

/-- A read request set that its palette has accepted (R62, R64): the granules that its gates admitted. -/
structure PalWait where
  tile : Nat
  req : Requester
  sender : Option Nat
  granules : List Nat
  deriving DecidableEq, Repr

/-- What a palette has accepted and its banks have not yet served: a transfer of a tile (R67), a read request set (R62), or
the write-back of a corrected granule of a tile (R79). -/
inductive Banked where
  | write (tile : Nat) (x : Transfer)
  | read (w : PalWait)
  | back (tile g : Nat)
  deriving DecidableEq, Repr

/-- A request waiting for a transaction tag (R202): its atelier, and what it sends once it has one. -/
structure TagWait where
  atelier : Option Nat
  what : List Out
  frame : Option Sending := none
  /-- A FENCE_HOST's read, by its descriptor. -/
  fence : Option Nat := none
  /-- A transfer or read set that has not reached its palette. -/
  access : Option Banked := none
  deriving DecidableEq, Repr

/-- Rings, poller, scheduler, sequencers and completion queues (R180 to R213). -/
structure RingUnit where
  slots : List Slot := []
  nextId : Nat := 0
  fetched : List Fetched := []
  /-- Reads of ring memory outstanding: ring, first position, entries. -/
  fetching : List (Nat × Nat × Nat) := []
  /-- Completed positions at or past RETIRED, as (ring, position). -/
  retDone : List (Nat × Nat) := []
  /-- Rings enabled or resumed since their group's last TAIL read (R186), and rings that must not fetch before it. -/
  fresh : List Nat := []
  /-- Rings enabled (1) or resumed (0) since the sweep in progress started, which wait for the next one (R180, R187). -/
  late : List (Nat × Bool) := []
  /-- Rings whose outstanding fetch has been given up: its data are dropped (R190). -/
  stale : List Nat := []
  /-- Groups whose rings retired or changed state since the mirror was written (R188). -/
  dirty : List Nat := []
  sweeping : Bool := false
  sweepOwed : Bool := false
  sumReads : List Nat := []
  tailReads : List (Nat × Word) := []
  /-- The segment that a SCHED ring delivers (R209): its first position and the next one of it. -/
  segment : List (Nat × Nat × Nat) := []
  /-- The position each ring started from when it was last enabled (R198). -/
  starts : List (Nat × Nat) := []
  /-- The schedule table of each SCHED ring's walk, as read at its start (R208), and the rings whose read is outstanding. -/
  schedules : List (Nat × List (BitVec 32)) := []
  schedReads : List Nat := []
  /-- SCHED rings whose next segment starts a walk for which the table has been asked for (R208). -/
  rewound : List Nat := []
  /-- Non-posted requests outstanding, by port (R336). -/
  asked : List (Nat × Nat) := []
  cqWait : List CqRecord := []
  /-- Groups whose last CQ write failed: their records are held (R204). -/
  cqHeld : List Nat := []
  holdoffs : List (Nat × Holdoff) := []
  /-- MSI-X entries by 2048·port + vector. -/
  msix : List (Nat × MsixEntry) := []
  /-- Last ring served in the round robin of each target (R189), and descriptors taken in its turn. -/
  turn : List (Nat × Nat × Nat) := []
  tagWaits : List TagWait := []
  deriving DecidableEq, Repr

/-- The patrol scrub of one tile (R78): the next line, and whether its read is pending. -/
structure Scrub where
  line : Nat := 0
  pending : Bool := false
  deriving DecidableEq, Repr

/-- Palette traffic: what the bank queues hold, in the order of acceptance, and the scrubs. -/
structure PalUnit where
  banks : List Banked := []
  scrubs : List (Nat × Scrub) := []
  deriving DecidableEq, Repr

/-- The accepted transfers, with their tiles. -/
def PalUnit.queue (p : PalUnit) : List (Nat × Transfer) := p.banks.filterMap fun b => match b with
  | .write t x => some (t, x)
  | _ => none
/-- The accepted read request sets. -/
def PalUnit.waits (p : PalUnit) : List PalWait := p.banks.filterMap fun b => match b with
  | .read w => some w
  | _ => none
/-- The write-backs owed. -/
def PalUnit.writeBacks (p : PalUnit) : List Nat := p.banks.filterMap fun b => match b with
  | .back _ g => some g
  | _ => none

/-- Host ports: whether management rights have fallen back to H0 (R350), each port's configuration space as DWORDs by
1024·port + DWORD, the ateliers adopted and not yet released, and those that a level-3 copy is draining (R325). -/
structure HostUnit where
  mgmtFallback : Bool := false
  adopted : List Nat := []
  draining : List Nat := []
  config : List (Nat × BitVec 32) := []
  deriving DecidableEq, Repr

/-- The timebase (R214 to R226): the master's count, the PLL's lock, the servo's accumulator and slew in units of
2^−40 tick, each replica's difference from the master, and the sync exchange in progress. -/
structure Timebase where
  count : Word := 0
  locked : Bool := false
  acc : Int := 0
  slew : Int := 0
  /-- The upstream port that the last period used. -/
  lastPort : Option Nat := none
  skews : List (Nat × Int) := []
  /-- The request in flight: t1, once its frame has left, its port and its domain (R220, R226, R277). -/
  request : Option (Option Word × Nat × Nat) := none
  missed : Nat := 0
  upLost : Bool := false
  altLost : Bool := false
  /-- Consecutive exchanges in ACQUIRE with a magnitude of θ of 4 ticks or less (R219), and in LOCKED (R226). -/
  good : Nat := 0
  settled : Nat := 0
  deriving DecidableEq, Repr

/-- A fixative copy, or a SEND or SERVE of an image (R324, R325, R329): its number, its kind (1 to 3 the level of a copy, 4
SEND, 5 SERVE), its descriptor where it has one, the step whose frames are out, what was latched (K, USEQ, manifest,
rings as (ring, RETIRED, context, CURSOR), tags), the image slot it writes, and what came of its frames. -/
structure FixJob where
  id : Nat
  kind : Nat
  slot : Option Nat := none
  step : Nat := 0
  /-- VAR.STEP.K of the sixteen dies. -/
  ks : List Nat := []
  k : Nat := 0
  useq : Nat := 0
  manifest : List (Nat × Nat) := []
  rings : List (Nat × Nat × Ctx × Nat) := []
  tags : List (Nat × Word) := []
  into : Nat := 0
  serial : Nat := 0
  /-- Copies every block and every record (level 2). -/
  full : Bool := false
  skipped : Nat := 0
  /-- Granule addresses of the first granules of the blocks copied. -/
  blocks : List Nat := []
  /-- The GROUP and ROUTE records written, as a number, behind the place they start at. -/
  shared : Nat := 0
  bytes : Nat := 0
  outstanding : Nat := 0
  arose : List (Status × Nat) := []
  /-- CAUSE of a failure that this module found (R326). -/
  cause : Nat := 0
  deriving DecidableEq, Repr

/-- The risk estimator's window in progress and the fixative (R319 to R326). -/
structure FailUnit where
  ce : Nat := 0
  droops : Nat := 0
  links : Nat := 0
  /-- The hottest reading at the last window's end. -/
  hottest : Option Int := none
  /-- Levels of the copies that rises have armed for the next update boundary, in order (R321, R325). -/
  armed : List Nat := []
  /-- Fixative jobs in the order they came; the first runs. -/
  jobs : List FixJob := []
  /-- USEQ of the last update completed. -/
  lastUseq : Nat := 0
  /-- The VALID image slots at the buddy, with their serials and their GROUP and ROUTE records (R322, R325). -/
  images : List (Nat × Nat × Nat) := []
  /-- Serial of the last completed copy. -/
  serial : Nat := 0
  deriving DecidableEq, Repr

/-- The CMC's non-volatile store (R313, R406): soft repairs and retired-out blocks, as 2^20·stack + block. -/
structure NvStore where
  soft : List Nat := []
  retiredOut : List Nat := []
  deriving DecidableEq, Repr

/-- A stack access that waits for its pseudo-channel's repair to end (R300, R313). -/
structure StackWait where
  own : Bool
  sender : Option Nat
  granule : Nat
  write : Option (Granule × Granule)
  /-- A spare row remains in the bank of the granule. -/
  spare : Bool
  deriving DecidableEq, Repr

/-- Stacks: those with a repair in progress, the single accesses and host reads (port, address, length) that wait for it,
and whether the command in hand has met one (DEDUCED, log entry 46). -/
structure StackUnit where
  repairing : List Nat := []
  waits : List (Nat × StackWait) := []
  reads : List (HostNo × Nat × Nat) := []
  met : Bool := false
  deriving DecidableEq, Repr

/-- An open sampling window (R398): its tile and descriptor, the counters it claims, when it opened, the index of its
next point edge, and whether its armed edge lost LC3 to a launch (R233). -/
structure PmcWindow where
  tile : Nat
  slot : Nat
  claims : Nat
  opened : Nat
  duration : Nat
  point : Nat
  dumps : Bool
  next : Nat := 1
  recalled : Bool := false
  deriving DecidableEq, Repr

/-- Sampling windows in order of opening, the tiles whose LC3 is lent, each tile's records lost since the last one written
(R400), and what the edge counters remember (R389): the (tile, counter) pairs whose event has occurred in the beat or tick in
progress, and in the one before. Tile 64 stands for the uncore. -/
structure PmcUnit where
  windows : List PmcWindow := []
  lent : List Nat := []
  lost : List (Nat × Nat) := []
  seen : List (Nat × Nat) := []
  before : List (Nat × Nat) := []
  deriving DecidableEq, Repr

/-- A product in progress on an array or half (R107, R111): its descriptor, the index of its pass, the next vector, the
ACTIVE and SHADOW tiles as columns of (code, scale), and whether its first feed is allowed. A SHADOW tile whose load met
poison is none. -/
structure MxRun where
  tile : Nat
  half : Half
  slot : Nat
  pass : Nat := 0
  next : Nat := 0
  fed : Bool := false
  active : List (List (Nat × Nat)) := []
  shadow : Option (List (List (Nat × Nat))) := none
  deriving DecidableEq, Repr

/-- Products in progress, and parks that have not yet taken effect: (tile, right, reason) (R126). -/
structure MxUnit where
  runs : List MxRun := []
  parks : List (Nat × Bool × Nat) := []
  deriving DecidableEq, Repr

/-- A VE_STROKE in progress (R144, R149): its descriptor, its next wave, and what it holds across waves: the values of MX
visits not yet complete by (output, canonical element), the terms of RED by result, and the operands of SCAN by
element. -/
structure VeRun where
  tile : Nat
  slot : Nat
  wave : Nat := 0
  held : List (Nat × Nat × Val) := []
  terms : List (Nat × Val) := []
  ab : List (Nat × Val × Val) := []
  deriving DecidableEq, Repr

/-- A frame on its way out of a port (R241, R244): its lane, class, chunks, how many have left, and the frame as it was
before it was routed. -/
structure TxFrame where
  vl : Nat
  cls : Nat
  chunks : List (BitVec 128)
  sent : Nat := 0
  frame : Frame
  /-- The port that it came by, whose credits go back once it has left (R244). -/
  origin : Option Nat := none
  /-- A sync frame: the fraction of its departure's timestamp, in quarters of a tick (R220, R277). -/
  stamp : Option Nat := none
  deriving DecidableEq, Repr

/-- The link layer of one port (R241 to R249). -/
structure PortUnit where
  /-- Lanes that have finished their part of training, trained or not. -/
  tried : BitVec 8 := 0
  aligned : Bool := false
  /-- The peer information has been sent. -/
  told : Bool := false
  bad : BitVec 8 := 0
  /-- Electrical idle after a failure. -/
  idle : Bool := false
  retraining : Bool := false
  nextSeq : Nat := 0
  /-- Unacknowledged flits, oldest first. -/
  replay : List Flit := []
  /-- SEQ of the last flit received in order. -/
  seen : Nat := 4095
  /-- A NAK has been sent for the gap in progress. -/
  gap : Bool := false
  /-- Replays since ACK last moved. -/
  storm : Nat := 0
  queue : List TxFrame := []
  /-- Chunk 0 of the control flits that have not left (R241). -/
  controls : List (BitVec 128) := []
  lastVl : Nat := 0
  /-- Credits held, by 2·VL + CLASS. -/
  credits : List (Nat × Nat) := []
  /-- Partial frames in reassembly, by 2·VL + CLASS. -/
  partials : List (Nat × List (BitVec 128)) := []
  deriving DecidableEq, Repr

/-- A frame sent and not yet answered (R253). -/
structure Flight where
  tag : Nat
  sending : Sending
  deriving DecidableEq, Repr

/-- A whole frame at this module: the port it came by (none: over the mesh), and the contributor count that a partial
sum of COLL_VOTE_SUM carries with it (R268). -/
structure Arrived where
  port : Option Nat
  frame : Frame
  contrib : BitVec 32 := 0
  /-- The count of its port's replica when its chunk 0 arrived (R220, R277). -/
  came : Nat := 0
  /-- The port's credits for it are still to be returned: the port has not failed since (R244, R249). -/
  owed : Bool := true
  deriving DecidableEq, Repr

/-- A record of a membership that arrives in pieces (R259). -/
structure Pieces where
  src : Nat
  group : Nat
  gen : Nat
  got : List (Nat × List Nat)
  deriving DecidableEq, Repr

/-- A collective in progress (R264 to R268): its engine and descriptor, the group's slot, generation and sequence
number, its signature, the members, this module's rank, E, the local terms as carried on the wire, the partial sums
held, the elements of the result received, and the contributor total where known. -/
structure Coll where
  eng : Nat
  slot : Nat
  group : Nat
  gen : Nat
  seq : Nat
  sig : Nat
  members : List Nat
  rank : Nat
  count : Nat
  terms : List Nat
  /-- TREE: partial sums by (level, canonical element), with the contributors in them. -/
  partials : List (Nat × Nat × Nat × Nat) := []
  /-- Canonical elements of the result that this member holds. -/
  held : List Nat := []
  /-- Elements that this member has yet to send on in the reduce phase. -/
  owe : Nat := 0
  total : Option Nat := none
  /-- It gathers the module records of a norm exchange (R293): its result goes to the exchange unit. -/
  exch : Bool := false
  /-- The first extent of DST, which cuts the rows of an MX tensor into blocks (R41, R265). -/
  rowLen : Nat := 32
  deriving DecidableEq, Repr

/-- The fabric: ports, frames received whole, frames sent and not answered or waiting for an earlier one, routing's
round robin by destination, member lists by 64·engine + slot, pieces, held and staged frames by engine, collectives,
and those that refuse further frames with a status (engine, group, generation, sequence number, code). -/
structure Fabric where
  ports : List (Nat × PortUnit) := []
  rx : List Arrived := []
  flights : List Flight := []
  waiting : List Sending := []
  nextTag : Nat := 0
  turn : List (Nat × Nat) := []
  members : List (Nat × List Nat) := []
  pieces : List Pieces := []
  held : List (Nat × Arrived) := []
  staged : List (Nat × Arrived) := []
  colls : List Coll := []
  refused : List (Nat × Nat × Nat × Nat × Nat) := []
  deriving DecidableEq, Repr

/-- A VAR_UPDATE in progress on a die (R293): its descriptor, its phase (1 pass 1, 2 exchange, 3 pass 2, 4 done), the K and
sums of its pass 1 by group, as FP32 codes and counts, whether pass 1 faulted, and SCALE by group. -/
structure VarRun where
  die : Nat
  slot : Nat
  phase : Nat := 1
  sums : List Nat := []
  counts : List Nat := []
  fault : Bool := false
  scales : List Nat := []
  deriving DecidableEq, Repr

/-- One die's report to an exchange unit (R293, R294). -/
structure Report where
  die : Nat
  slot : Nat
  k : Nat
  fault : Bool
  sums : List Nat
  counts : List Nat
  deriving DecidableEq, Repr

/-- An open norm exchange (R293 to R296): its unit, USEQ, SET and GROUP, the reports, the module record once it is formed,
and the bytes gathered from the members. -/
structure Exchange where
  eng : Nat
  useq : Nat
  set : Nat
  group : Nat
  reports : List Report := []
  record : Option Nat := none
  gathered : List (Nat × Nat) := []
  deriving DecidableEq, Repr

/-- The Varnish dies: updates in progress, open exchanges, and the program slots by 4·die + slot. -/
structure VarUnit where
  runs : List VarRun := []
  /-- DETAIL of the hold of each held die (R296). -/
  holds : List (Nat × Nat) := []
  exchanges : List Exchange := []
  progs : List (Nat × List Nat) := []
  deriving DecidableEq, Repr

/-- What is asked of a power domain (R367, R368): a wake, released as soon as it is HELD where `rel`; a wake of a domain
that another one needs, which leaves it as it is unless it is OFF; IDLE; OFF; RELEASE. -/
inductive DomOp where
  | wake (rel : Bool)
  | wakeFor (rel : Bool)
  | idle
  | off
  | release
  deriving DecidableEq, Repr

/-- Who asks for a transition (R370): a PWR_DOMAIN by its delivery number, PWR.DOM_CMD, or wake-on-work. -/
inductive DomSource where
  | descriptor (id : Nat)
  | command
  | work
  deriving DecidableEq, Repr

/-- A request for one domain that has not ended (R368). -/
structure DomReq where
  dom : Nat
  op : DomOp
  src : DomSource
  deriving DecidableEq, Repr

/-- Power control: the requests in arrival order, the domains in a timed step of a transition (R366), the rails in a
droop event (R360), and whether THERM_TRIP_N is asserted (R372). -/
structure PowerUnit where
  reqs : List DomReq := []
  moving : List Nat := []
  droops : List Nat := []
  thermTrip : Bool := false
  deriving DecidableEq, Repr

/-- The governor and the plant interface (R375 to R384): each tile's throttle where it is below 64, the arrays in ballast
and those whose ballast has made way for a stamped product, the predicted increases of the rails whose voltage rises, the
rails' admitted currents at the last 10 updates and the last 100 power estimates with the latest first, when LSN_OUT last rose
and fell, what has become of the notice in progress, the state of the curtail pins, SEQ of the next forecast, and the count at
the last valid SoC frame. -/
structure PlantUnit where
  thetas : List (Nat × Nat) := []
  ballast : List Nat := []
  standing : List Nat := []
  raises : List (Nat × Nat) := []
  history : List (List Nat) := []
  lsnRose : Nat := 0
  lsnFell : Option Nat := none
  estimates : List Nat := []
  acked : Bool := false
  late : Bool := false
  covered : Bool := false
  curtReq : Bool := false
  curtLvl : Nat := 0
  seq : Nat := 0
  socAt : Nat := 0
  deriving DecidableEq, Repr

/-- Start-up, resets and pins (R406 to R422): PWR_GOOD, RESET_N held low, the step of R409 in progress, a failed
sequence, whether step 1 senses the fuses, the ports whose HOST_PERST_N is high, the stacks kept in self refresh, the
board configuration in effect, and the fuse bit in progress with the pulses given to it. -/
structure BootUnit where
  powerGood : Bool := true
  resetLow : Bool := false
  step : Nat := 1
  failed : Bool := false
  sense : Bool := true
  perst : List Nat := []
  kept : List Nat := []
  cfg : Option BoardConfig := none
  fuseWord : Nat := 0
  fuseBit : Nat := 0
  pulses : Nat := 0
  deriving DecidableEq, Repr

/-- The units' own state beside the registers. -/
structure Units where
  pwr : PowerUnit := {}
  plant : PlantUnit := {}
  boot : BootUnit := {}
  var : VarUnit := {}
  fab : Fabric := {}
  pmc : PmcUnit := {}
  mx : MxUnit := {}
  ve : List VeRun := []
  nv : NvStore := {}
  hbm : StackUnit := {}
  tb : Timebase := {}
  fail : FailUnit := {}
  host : HostUnit := {}
  rings : RingUnit := {}
  pal : PalUnit := {}
  deriving DecidableEq, Repr

/-- A stop of the machine. -/
inductive Fault where
  /-- Raised by a meaning whose operands are of a shape that no event of the hardware brings (a list of the wrong
  length, no byte enabled): the command stands for nothing. Safe: no hardware behaviour is lost. -/
  | illFormed (mnemonic : String)
  deriving DecidableEq, Repr

/-- A refusal. -/
inductive Refusal where
  /-- Raised by an arm of `exec` whose command has no meaning yet. Safe. -/
  | notModelled (mnemonic : String)
  deriving DecidableEq, Repr

/-- The module. An unlisted register reads as its reset value, an unlisted byte as 0, an unlisted fuse word as 0. -/
structure State where
  pending : List Instr := []
  out : List Out := []
  freeNext : Nat := 0
  regs : List (Nat × Word) := []
  mem : List Host.Cell := []
  poison : List Nat := []
  upsets : List (Nat × BitVec 576) := []
  routes : List (Nat × Word) := []
  fuses : List (Nat × Word) := []
  units : Units := {}
  deriving DecidableEq, Repr

/-- The module right after a cold reset, before step 1 of the start-up sequence has ended (R406, R409) (DEDUCED, log
entry 5; DESIGN CHOICE, log entry 6). -/
def State.reset : State := {}

end Sys2Proof.Machine
end

