-- ==== Sys2Proof/Machine/Effects.lean ====
section
/-! DEFINITION. Everything a command can do to the module: the primitive effects, the states that effects reach, and
the actions that meanings are written in. An action carries the proof that its effects reach its result, so what every
effect keeps, every command keeps. -/

namespace Sys2Proof.Machine

/-- The bytes of a granule at address `a`, merged under `mask` into what `m` holds there: `n` bytes from byte `i`. -/
def putBytes (a : Nat) (v mask : BitVec 512) : Nat → List Host.Cell → List Host.Cell
  | 0, m => m
  | n + 1, m =>
    let m' := putBytes a v mask n m
    let old := mapGet (fun _ => (0 : Byte)) m (a + n)
    let k := mask.extractLsb' (8 * n) 8
    mapSet (fun _ => (0 : Byte)) m' (a + n) ((old &&& ~~~ k) ||| (v.extractLsb' (8 * n) 8 &&& k))

/-- The primitive effects. -/
inductive Eff where
  /-- Register at address `a` takes `v` in the bits it implements. -/
  | reg (a : Nat) (v : Word)
  /-- The bits of granule number `g` that `mask` names take those of `v`. -/
  | granule (g : Nat) (v mask : BitVec 512)
  /-- Granule `g` becomes poisoned, or is so no longer. -/
  | poison (g : Nat)
  | heal (g : Nat)
  /-- The bit errors standing in granule `g` become `m`. -/
  | upset (g : Nat) (m : BitVec 576)
  /-- An entry of the route table (R280). -/
  | route (m : Nat) (v : Word)
  /-- Bit `b` of fuse word `w` is blown (R418). -/
  | blow (w b : Nat)
  /-- Something leaves the module. -/
  | out (o : Out)
  /-- One free value is used. -/
  | draw
  /-- The units' own state changes. -/
  | units (u : Units)
  /-- The registers that `p` picks return to their reset values. -/
  | wipeRegs (p : Nat → Bool)
  /-- The memory whose byte addresses `p` picks loses its contents, its poison and its errors. -/
  | wipeMem (p : Nat → Bool)
  /-- The route table returns to its reset contents. -/
  | wipeRoutes

/-- The default of the fuse array: an unblown word (DESIGN CHOICE, log entry 3). -/
def fuseReset (_ : Nat) : Word := 0
/-- The default of memory: +0 (DESIGN CHOICE, log entry 7). -/
def memReset (_ : Nat) : Byte := 0
/-- Memory is in its canonical form: addresses strictly rising, all of them in palettes or stacks, and no entry that says
what an unlisted byte reads as. -/
def Memory.wf (m : List Host.Cell) : Bool := mapWf memReset m && m.all fun e => isMemory e.1
/-- The default of the error masks: no error (DESIGN CHOICE, log entry 7). -/
def upsetReset (_ : Nat) : BitVec 576 := 0
/-- The default of the route table: no route. -/
def routeReset (_ : Nat) : Word := 0

/-- The bits that a route entry has (R280). -/
def routeMask : Word := 0x8003ffffffffffff

/-- What a primitive effect does. -/
def Eff.apply (s : State) : Eff → State
  | .reg a v => { s with regs := mapSet regReset s.regs a ((v &&& regBits a) ||| (regReset a &&& ~~~ regBits a)) }
  | .granule g v mask => { s with mem := if isMemory (64 * g) then putBytes (64 * g) v mask 64 s.mem else s.mem }
  | .poison g => { s with poison := setIns s.poison g }
  | .heal g => { s with poison := s.poison.filter (· ≠ g) }
  | .upset g m => { s with upsets := mapSet upsetReset s.upsets g m }
  | .route m v => { s with routes := mapSet routeReset s.routes m (v &&& routeMask) }
  | .blow w b => { s with fuses := mapSet fuseReset s.fuses w (mapGet fuseReset s.fuses w ||| (1 <<< b)) }
  | .out o => { s with out := s.out ++ [o] }
  | .draw => { s with freeNext := s.freeNext + 1 }
  | .units u => { s with units := u }
  | .wipeRegs p => { s with regs := s.regs.filter fun e => !p e.1 }
  | .wipeMem p =>
    { s with mem := s.mem.filter (fun e => !p e.1), poison := s.poison.filter (fun g => !p (64 * g)),
             upsets := s.upsets.filter fun e => !p (64 * e.1) }
  | .wipeRoutes => { s with routes := [] }

/-- `Reach s t`: effects lead from `s` to `t`. -/
inductive Reach (s : State) : State → Prop where
  | refl : Reach s s
  | eff {t : State} (h : Reach s t) (e : Eff) : Reach s (e.apply t)

/-- An action that starts in `s₀`. -/
abbrev Act (s₀ : State) := StateM {s : State // Reach s₀ s}

/-- The module is without good supplies or held in reset: nothing happens in it (R407, R416) (DEDUCED, log entry 64). -/
def State.inReset (s : State) : Bool := !s.units.boot.powerGood || s.units.boot.resetLow

/-- The state an action leads to from `s` (DEDUCED, log entry 64). -/
def performAlways (s : State) (a : Act s Unit) : State := (a ⟨s, .refl⟩).2.1

/-- A command that meets a stack whose repair was in progress waits: it has no effect yet (R313) (DEDUCED, log entry
46). -/
def State.orWaits (s t : State) : State := if t.units.hbm.met && !s.units.hbm.met then s else t

/-- A meaning's next state: the action run from `s`, out of reset (DESIGN CHOICE, log entry 8; DEDUCED, log entry 64;
DEDUCED, log entry 67). -/
def perform (s : State) (a : Act s Unit) : State := if s.inReset then s else s.orWaits (performAlways s a)

variable {s₀ : State}

/-- The state now. -/
def now : Act s₀ State := fun s => (s.1, s)

/-- Do one primitive effect. -/
def emit (e : Eff) : Act s₀ Unit := fun s => ((), ⟨e.apply s.1, s.2.eff e⟩)

/-- Read something off the state. -/
def ask {α : Type} (f : State → α) : Act s₀ α := fun s => (f s.1, s)

/-- Change the units' own state. -/
def change (f : Units → Units) : Act s₀ Unit := fun s => ((), ⟨(Eff.units (f s.1.units)).apply s.1, s.2.eff _⟩)

/-- The register word held at an address. -/
def State.held (s : State) (a : Nat) : Word := mapGet regReset s.regs a

/-- Bits [hi:lo] of a word as a number. -/
def bits (w : Word) (hi lo : Nat) : Nat := (w.toNat >>> lo) % 2 ^ (hi - lo + 1)

/-- `w` with bits [hi:lo] replaced by `v`. -/
def putBits (w : Word) (hi lo v : Nat) : Word :=
  let m : Word := BitVec.ofNat 64 ((2 ^ (hi - lo + 1) - 1) <<< lo)
  (w &&& ~~~ m) ||| (BitVec.ofNat 64 (v <<< lo) &&& m)

/-- A field of instance `i`, array element `k`. -/
def State.fld (s : State) (f : Fld) (i : Nat := 0) (k : Nat := 0) : Nat := bits (s.held (f.addr i k)) f.hi f.lo

/-- A one-bit field is 1. -/
def State.on (s : State) (f : Fld) (i : Nat := 0) (k : Nat := 0) : Bool := s.fld f i k != 0

/-- A field, within an action. -/
def fld (f : Fld) (i : Nat := 0) (k : Nat := 0) : Act s₀ Nat := ask fun s => s.fld f i k

/-- A one-bit field is 1, within an action. -/
def isOn (f : Fld) (i : Nat := 0) (k : Nat := 0) : Act s₀ Bool := ask fun s => s.on f i k

/-- Set a field to `v` modulo its width. -/
def setF (f : Fld) (v : Nat) (i : Nat := 0) (k : Nat := 0) : Act s₀ Unit := do
  let w ← ask fun s => s.held (f.addr i k)
  emit (.reg (f.addr i k) (putBits w f.hi f.lo v))

/-- Set a one-bit field to 1. -/
def raise (f : Fld) (i : Nat := 0) (k : Nat := 0) : Act s₀ Unit := setF f 1 i k

/-- Add to a count that saturates at all ones. -/
def countUp (f : Fld) (n : Nat) (i : Nat := 0) (k : Nat := 0) : Act s₀ Unit := do
  let v ← fld f i k
  setF f (min (v + n) (2 ^ f.width - 1)) i k

/-- Add to a count that wraps. -/
def countWrap (f : Fld) (n : Nat) (i : Nat := 0) (k : Nat := 0) : Act s₀ Unit := do
  let v ← fld f i k
  setF f (v + n) i k

/-- Do an action on each element of a list. -/
def each {α : Type} (xs : List α) (f : α → Act s₀ Unit) : Act s₀ Unit :=
  match xs with
  | [] => pure ()
  | x :: xs => do
    f x
    each xs f

/-- Add to uncore counter `c`; whether it wrapped (R391, R404). -/
def bumpUncore (c n : Nat) : Act s₀ Bool := do
  let v ← fld CMC_UC_VALUE 0 c
  setF CMC_UC_VALUE ((v + n) % 2 ^ 48) 0 c
  if v + n < 2 ^ 48 then pure false
  else
    let o ← fld CMC_UC_OVF_OVF
    setF CMC_UC_OVF_OVF (o ||| 2 ^ c)
    pure true

/-- What `n` occurrences of its event add to counter `c` of tile `t`: in edge mode 1 where they are the first in this beat
or tick and there were none in the last (R389) (DESIGN CHOICE, log entry 60). -/
def counted (t c n : Nat) (edge : Bool) : Act s₀ Nat := do
  let p := (← now).units.pmc
  if !edge then pure n
  else if p.seen.contains (t, c) then pure 0
  else
    change fun u => { u with pmc := { u.pmc with seen := (t, c) :: u.pmc.seen } }
    pure (if p.before.contains (t, c) then 0 else 1)

/-- The beat or tick in progress ends for the counters that `p` names (R389). -/
def endInterval (p : Nat × Nat → Bool) : Act s₀ Unit := change fun u =>
  { u with pmc := { u.pmc with
      before := u.pmc.before.filter (fun x => !p x) ++ u.pmc.seen.filter p
      seen := u.pmc.seen.filter fun x => !p x } }

/-- `n` occurrences of an uncore event at one instance of a kind (R404). -/
def uncore (kind source ev n : Nat) : Act s₀ Unit :=
  if n = 0 then pure ()
  else each (List.range 32) fun c => do
    let s ← now
    let chained := c % 2 = 1 && s.on CMC_UC_SEL_CHAIN 0 c
    if !chained && s.fld CMC_UC_SEL_KIND 0 c == kind && s.fld CMC_UC_SEL_SOURCE 0 c == source
        && s.fld CMC_UC_SEL_EVENT 0 c == ev then
      let k ← counted 64 c n (s.on CMC_UC_SEL_EDGE 0 c)
      if s.on CMC_UC_SEL_EN 0 c ∧ k ≠ 0 then
        if ← bumpUncore c k then
          if c % 2 = 0 ∧ s.on CMC_UC_SEL_CHAIN 0 (c + 1) ∧ s.on CMC_UC_SEL_EN 0 (c + 1) then
            let _ ← bumpUncore (c + 1) 1

/-- The uncore event that something sent outside is: kind, source, code and occurrences (R404). -/
def Out.event : Out → Option (Nat × Nat × Nat × Nat)
  | .hostRead p _ _ => some (4, p.val, 0x40, 1)
  | .hostWrite p _ d => some (4, p.val, 0x41, (d.length + 63) / 64)
  | .msix p _ _ _ => some (4, p.val, 0x43, 1)
  | .flit p f => some (2, p.val, if f.extractLsb' 37 2 = 0 then 0x24 else 0x20, 1)
  | _ => none

/-- Send something outside (DESIGN CHOICE, log entry 68). -/
def send (o : Out) : Act s₀ Unit := do
  emit (.out o)
  match o.event with
  | some (kind, source, ev, n) => uncore kind source ev n
  | none => pure ()

/-- A log that keeps its first event: fill it while VALID is 0, else set OVERRUN. -/
def logFirst (valid overrun : Fld) (i : Nat) (fill : Act s₀ Unit) : Act s₀ Unit := do
  if ← isOn valid i then raise overrun i
  else
    raise valid i
    fill

/-- A value that nothing constrains: the index of the next free value (DESIGN CHOICE, log entry 4). -/
def freeIndex : Act s₀ Nat := do
  let n ← ask fun s => s.freeNext
  emit .draw
  pure n

end Sys2Proof.Machine
end

