-- ==== Sys2Proof/Machine/Regs.lean ====
section
/-! DEFINITION. Ownership, the reach of host ports, the atelier lock, and the one checked register write that every
register command goes through (R10 to R14, R17, R340 to R347, R362). -/

namespace Sys2Proof.Machine

/-- Bit `n` of a number. -/
def bit (v n : Nat) : Bool := v.testBit n

/-- The numbers below `n` that satisfy `p`, first one. -/
def firstBelow (n : Nat) (p : Nat → Bool) : Option Nat := (List.range n).find? p

/-! ### Power domains -/

/-- The state of a power domain: 0 OFF, 1 WAKING, 2 HELD, 3 ON, 4 IDLE, 5 CLOSING, 6 TRIPPED (R363, R386). -/
def State.dom (s : State) (d : Nat) : Nat := s.fld PWR_DSTATE 0 (d / 16) / 16 ^ (d % 16) % 16

/-- Power is removed from a domain. -/
def State.dark (s : State) (d : Nat) : Bool := s.dom d = 0 || s.dom d = 6

/-- The domain of a fabric port's group (R361). -/
def portDomain (p : Nat) : Nat := if p < 12 then 416 + p / 2 else 424 + (p - 12) / 2
/-- The domain of a host port (R361). -/
def hostDomain (h : Nat) : Nat := if h < 2 then 422 + h else 430 + (h - 2)

/-- The domain whose power the registers of a block follow (R362); PAL, SEQ and PMC do not follow one. -/
def blkDomain : Blk → Nat → Option Nat
  | .mx, t => some (6 * t)
  | .ve, t => some (6 * t + 1)
  | .sfu, t => some (6 * t + 1)
  | .var, n => some (384 + n)
  | .hbm, n => some (384 + n)
  | .link, p => some (portDomain p)
  | .host, h => some (hostDomain h)
  | _, _ => none

/-- The block is without power: its registers read their reset values and take no writes (R362) (DEDUCED, log entry 20).
-/
def State.blkDark (s : State) (b : Blk) (i : Nat) : Bool :=
  match blkDomain b i with
  | some d => s.dark d
  | none => false

/-- Before READY, BAR2 reaches only the CAP, CMC, FUSE and DBG windows (R409, R414) (DEDUCED, log entry 16). -/
def State.early (s : State) (b : Blk) : Bool :=
  !s.on CMC_STATUS_READY && !(b = .cap || b = .cmc || b = .fuse || b = .dbg)

/-! ### Ownership -/

/-- Atelier `a` exists (R340). -/
def State.exists (s : State) (a : Nat) : Bool := s.on ATL_OWNER_VALID a
/-- The port that owns atelier `a`. -/
def State.portOf (s : State) (a : Nat) : Nat := s.fld ATL_OWNER_PORT a
/-- The atelier that owns tile `t` (its left-half atelier, R345). -/
def State.tileOwner (s : State) (t : Nat) : Option Nat :=
  firstBelow 16 fun a => s.exists a && bit (s.fld ATL_TILES_MASK a) t
/-- The atelier that owns Varnish die `n` and its stack. -/
def State.dieOwner (s : State) (n : Nat) : Option Nat :=
  firstBelow 16 fun a => s.exists a && bit (s.fld ATL_DIES_MASK a) n
/-- Atelier `a` owns ring group `g`. -/
def State.ownsGroup (s : State) (a g : Nat) : Bool :=
  s.exists a && s.fld ATL_RINGS_FIRST a ≤ g && g < s.fld ATL_RINGS_FIRST a + s.fld ATL_RINGS_COUNT a
/-- The atelier that owns ring group `g`. -/
def State.groupOwner (s : State) (g : Nat) : Option Nat := firstBelow 16 fun a => s.ownsGroup a g
/-- The atelier of a ring (RING[r].CFG.ATELIER, set by ATL.RINGS, R340). -/
def State.ringOwner (s : State) (r : Nat) : Option Nat := s.groupOwner (r / 64)

/-- The atelier that holds management rights (R341), while rights have not fallen back to H0 (R350). -/
def State.mgmtAtelier (s : State) : Option Nat :=
  if s.on ATL_MGMT_VALID && !s.units.host.mgmtFallback then some (s.fld ATL_MGMT_ATELIER) else none
/-- The management port: that of the management atelier, else H0 (R341). -/
def State.mgmtPort (s : State) : Nat :=
  match s.mgmtAtelier with
  | some a => s.portOf a
  | none => 0

/-- The right-half atelier of tile `t`, where the sharing policy permits the tile to be shared (R345). -/
def State.rightOf (s : State) (t : Nat) : Option Nat :=
  match s.tileOwner t with
  | none => none
  | some l =>
    let r := s.fld ATL_SHARE_RIGHT 0 t
    if s.on ATL_SHARE_VALID 0 t && r != l && s.exists r && s.on ATL_CTL_SHARE_OK l && s.on ATL_CTL_SHARE_OK r then some r
    else none

/-- The right-half atelier that SHARE names for tile `t`, whatever permission it still gives (R128, R345). -/
def State.rightHolder (s : State) (t : Nat) : Option Nat :=
  let r := s.fld ATL_SHARE_RIGHT 0 t
  if s.on ATL_SHARE_VALID 0 t && s.tileOwner t != some r && s.exists r then some r else none

/-- Port `p` owns the atelier. A port that was lost does not: its link coming back restores no ownership (R337). -/
def State.owns (s : State) (p : Nat) : Option Nat → Bool
  | some a => s.exists a && s.portOf a == p && !s.on ATL_STATUS_ORPHANED a
  | none => false

/-- Counter `n` of tile `t` belongs to atelier `a` (R340, R346). -/
def State.ownsCounter (s : State) (a t n : Nat) : Bool :=
  match s.rightOf t with
  | some r => if n < s.fld ATL_SHARE_AC_SPLIT 0 t then s.tileOwner t == some a else r == a
  | none => s.tileOwner t == some a

/-- Palette offset `o` of tile `t` belongs to atelier `a`; a shared tile is divided by quarters (R346). -/
def State.ownsPalette (s : State) (a t o : Nat) : Bool :=
  match s.rightOf t with
  | some r => if bit (s.fld ATL_SHARE_RQ 0 t) (o / 0xc00000) then r == a else s.tileOwner t == some a
  | none => s.tileOwner t == some a

/-- Address `x` lies in HBM range `i` of atelier `a` (R340, R355). -/
def State.inRange (s : State) (a i x : Nat) : Bool :=
  s.on ATL_HBM_VALID a i && s.fld ATL_HBM_BASE_BLK a i * 0x10000 ≤ x
    && x < (s.fld ATL_HBM_BASE_BLK a i + s.fld ATL_HBM_BLOCKS a i) * 0x10000

/-- Memory address `x` belongs to atelier `a` (R342): its palettes, its quarters of shared tiles, its HBM ranges. -/
def State.ownsByte (s : State) (a x : Nat) : Bool :=
  s.exists a &&
  match place x with
  | .palette t o => s.ownsPalette a t o
  | .stack _ _ => (List.range 8).any fun i => s.inRange a i x
  | _ => false

/-! ### Reach of a port (R343, R347, R355, R356) -/

/-- A port may read the register (R343). The offsets of the RING window that hold no register are the management port's
(DESIGN CHOICE, log entry 91). -/
def State.mayRead (s : State) (p : Nat) (b : Blk) (i off : Nat) : Bool :=
  let mgmt := p == s.mgmtPort
  match b with
  | .cap => true
  | .mx | .ve | .sfu | .pal | .seq | .pmc => s.owns p (s.tileOwner i) || s.owns p (s.rightOf i)
  | .var | .hbm => s.owns p (s.dieOwner i) || mgmt
  | .grp => s.owns p (s.groupOwner i)
  | .ringr => s.owns p (s.ringOwner i)
  | .ring =>
    if 0x100 ≤ off && off < 0x180 then s.owns p (some ((off - 0x100) / 8))
    else if 0x180 ≤ off && off < 0x200 then s.owns p (some ((off - 0x180) / 8))
    else mgmt
  | .atl => s.owns p (some i) || mgmt
  | .host => p == i || mgmt
  | .tb => mgmt || off = 0x0 || off = 0x18
  | .coll => mgmt || off = 0x0
  | _ => mgmt

/-- A register that only the management port writes: a resource field, a module-wide register, ATL.MGMT, ATL.ADOPT,
ATL.DISSOLVE or ATL.SHARE. A write from any other port is discarded and recorded as R11 describes (R341) (DEDUCED, log
entry 14). -/
def mgmtOnly (b : Blk) (off : Nat) : Bool :=
  match findDef (blkRegs b) off with
  | none => false
  | some d =>
    match b with
    | .tb | .link | .coll | .risk | .pwr | .plant | .dbg | .fuse | .cmc => true
    | .ring => off < 0x100
    | .atl => 0x8000 ≤ off || d.rwl != 0
    | _ => false

/-- A register write from a port is not refused under R342: the port reaches the window, or the register is one of R341
(DEDUCED, log entry 13). -/
def State.mayTry (s : State) (p : Nat) (b : Blk) (i off : Nat) : Bool := s.mayRead p b i off || mgmtOnly b off

/-- The bits of a register that a port may write (R343, R347, R355, R356). -/
def State.writeMask (s : State) (p : Nat) (b : Blk) (i off : Nat) : Word :=
  let all : Word := 0xffffffffffffffff
  let only (ok : Bool) : Word := if ok then all else 0
  let mgmt := p == s.mgmtPort
  match b with
  | .cap => 0
  | .mx | .ve | .sfu | .pal | .seq | .pmc =>
    if s.owns p (s.tileOwner i) then
      (match b with
       | .pal => if 0x2000 ≤ off ∧ off < 0x4000 then
           only ((s.rightOf i).isNone || (off - 0x2000) / 8 < s.fld ATL_SHARE_AC_SPLIT 0 i
             || s.owns p (s.rightOf i)) else all
       | .mx => if off = 0x18 ∧ (s.rightOf i).isSome ∧ !s.owns p (s.rightOf i) then
           ~~~ (BitVec.ofNat 64 (2 ^ MX_PARK_PARK_R.lo + 2 ^ MX_PARK_RELEASE_R.lo)) else all
       | _ => all)
    else if s.owns p (s.rightOf i) then
      (match b with
       | .mx => if off = 0x18 then
           BitVec.ofNat 64 (2 ^ MX_PARK_PARK_R.lo + 2 ^ MX_PARK_RELEASE_R.lo) else 0
       | .pal => if 0x2000 ≤ off ∧ off < 0x4000 then only (s.fld ATL_SHARE_AC_SPLIT 0 i ≤ (off - 0x2000) / 8) else 0
       | _ => 0)
    else 0
  | .var | .hbm => only (s.owns p (s.dieOwner i))
  | .grp => only (s.owns p (s.groupOwner i))
  | .ringr => only (s.owns p (s.ringOwner i))
  | .ring =>
    if 0x100 ≤ off ∧ off < 0x180 then only (s.owns p (some ((off - 0x100) / 8)))
    else if 0x180 ≤ off ∧ off < 0x200 then only (s.owns p (some ((off - 0x180) / 8)))
    else only mgmt
  | .atl =>
    if 0x8000 ≤ off then only mgmt
    else if off = 0x8 then
      (if s.owns p (some i) then all else if mgmt then ~~~ (BitVec.ofNat 64 (2 ^ ATL_CTL_SHARE_OK.lo)) else 0)
    else if off = 0x38 ∨ off = 0x88 then only (s.owns p (some i) || mgmt)
    else only mgmt
  | .host => only (p == i || mgmt)
  | _ => only mgmt

/-- The atelier whose lock fixes the RWL fields of a register (R341, R344). -/
def State.locker (s : State) (b : Blk) (i off : Nat) : Option Nat :=
  match b with
  | .mx | .ve | .sfu | .pal | .seq | .pmc => s.tileOwner i
  | .var | .hbm => s.dieOwner i
  | .grp => s.groupOwner i
  | .ringr => s.ringOwner i
  | .ring =>
    if 0x100 ≤ off ∧ off < 0x180 then some ((off - 0x100) / 8)
    else if 0x180 ≤ off ∧ off < 0x200 then some ((off - 0x180) / 8)
    else s.mgmtAtelier
  | .atl => if 0x8000 ≤ off then s.mgmtAtelier else some i
  | _ => s.mgmtAtelier

/-- The RWL fields of a register are locked (R11, R344). -/
def State.locked (s : State) (b : Blk) (i off : Nat) : Bool :=
  match s.locker b i off with
  | some a => s.on ATL_CTL_LOCK a
  | none => false

variable {s₀ : State}

/-- A DWORD of a port's configuration space, as its bits that software has written. -/
def State.config (s : State) (p dw : Nat) : BitVec 32 := mapGet (fun _ => 0) s.units.host.config (1024 * p + dw)

/-- The Function is in D3hot: the PowerState field of its PMCSR, DWORD 0x11. It answers requests to its BARs as Unsupported
Requests (R336) (PRESUMED, log entry 9). -/
def State.d3hot (s : State) (p : Nat) : Bool := (s.config p 0x11).toNat % 4 = 3

/-! ### Refusals and their records -/

/-- A write discarded under R11, or by a rule that records as R11 describes (DEDUCED, log entry 14). -/
def recordLocked (p a : Nat) : Act s₀ Unit := do
  countUp HOST_LOCKED_COUNT 1 p
  logFirst HOST_LOCKED_LOG_VALID HOST_LOCKED_LOG_OVERRUN p (setF HOST_LOCKED_LOG_ADDR a p)

/-- Bits of a port's configuration space become 1. -/
def setConfig (p dw : Nat) (v : BitVec 32) : Act s₀ Unit :=
  change fun u => { u with host := { u.host with
    config := mapSet (fun _ => 0) u.host.config (1024 * p + dw) (mapGet (fun _ => 0) u.host.config (1024 * p + dw) ||| v) } }

/-- AER logs an advisory non-fatal Unsupported Request (R336): the Uncorrectable and Correctable Error Status registers and
the Device Status register (PRESUMED, log entry 9). -/
def logAdvisory (p : Nat) : Act s₀ Unit := do
  setConfig p 0x41 0x100000
  setConfig p 0x44 0x2000
  setConfig p 0x1e 0x90000

/-- An access refused under R17 or R342 (DEDUCED, log entry 14). -/
def recordDenied (p : Nat) (write : Bool) (a : Nat) : Act s₀ Unit := do
  countUp HOST_DENIED_COUNT 1 p
  logFirst HOST_DENIED_LOG_VALID HOST_DENIED_LOG_OVERRUN p do
    setF HOST_DENIED_LOG_WRITE (if write then 1 else 0) p
    setF HOST_DENIED_LOG_ADDR a p
  logAdvisory p

/-- A narrow or misaligned register write (R13). -/
def recordNarrow (p : Nat) : Act s₀ Unit := countUp HOST_NARROW_COUNT 1 p

/-! ### The checked write -/

/-- A register write as it reaches its register: the block, instance and offset, the address, the held value, the
value that the plain rules of R10 would leave, the W1S bits that the write sets, the value written, and the bits that
the port may write. -/
structure RegWrite where
  port : Nat
  blk : Blk
  inst : Nat
  off : Nat
  addr : Nat
  old : Word
  new : Word
  sets : Word
  raw : Word
  may : Word
  deriving DecidableEq, Repr

/-- What the access codes make of a write: the plain new value, the W1S bits set, and the bits that the write tried to
change and may not (R10, R11). -/
def applyCodes (d : RegDef) (old v may : Word) (locked : Bool) : Word × Word × Word :=
  let fixed : Word := if locked then d.rwl else 0
  let plain := (d.rw ||| d.rwl) &&& may &&& ~~~ fixed
  let new := ((old &&& ~~~ plain) ||| (v &&& plain)) &&& ~~~ (v &&& d.w1c &&& may)
  let tried := ((v ^^^ old) &&& (d.rw ||| d.rwl)) ||| (v &&& (d.w1c ||| (d.w1s &&& ~~~ old)))
  (new, v &&& d.w1s &&& may, tried &&& (~~~ may ||| fixed))

/-- A 64-bit register write from a port in D0 (R336): the windows open before READY (R409), the reach of R341, R343 and R347, the
lock of R11, the power of R362, then what the register does with it (DESIGN CHOICE, log entry 11). -/
def checkedWrite (p a : Nat) (v : Word) (hook : RegWrite → Act s₀ Unit) : Act s₀ Unit := do
  let s ← now
  match place a with
  | .reg b i off =>
    if s.early b || s.d3hot p then pure ()
    else if !s.mayTry p b i off then recordDenied p true a
    else match findDef (blkRegs b) off with
      | none => pure ()
      | some d =>
        if s.blkDark b i then pure ()
        else
          let ra := regAddr b i off
          let old := s.held ra
          let (new, sets, blocked) := applyCodes d old v (s.writeMask p b i off) (s.locked b i off)
          if blocked != 0 then recordLocked p a
          if s.writeMask p b i off != 0 then hook ⟨p, b, i, off, ra, old, new, sets, v, s.writeMask p b i off⟩
  | _ => recordDenied p true a

/-- The plain register: it takes the new value. -/
def plainHook (w : RegWrite) : Act s₀ Unit := emit (.reg w.addr w.new)

/-- The register keeps its value and the write is recorded as R11 describes. -/
def discardRecorded (w : RegWrite) : Act s₀ Unit := recordLocked w.port w.addr

/-- A field's value in a written word. -/
def RegWrite.field (w : RegWrite) (f : Fld) : Nat := bits w.new f.hi f.lo
/-- A one-bit W1S field is set by the write. -/
def RegWrite.does (w : RegWrite) (f : Fld) : Bool := bits w.sets f.hi f.lo != 0

end Sys2Proof.Machine
end

