-- ==== Sys2Proof/Machine/Records.lean ====
section
/-! DEFINITION. Status codes, completion and event records, and the risk estimator that every error path reports to
(R204, R205, R319 to R321, R334). -/

namespace Sys2Proof.Machine

/-- The code of a status (R205). -/
def Status.code : Status → Nat
  | .ok => 0x00
  | .lateLaunch => 0x01
  | .emptyReduce => 0x02
  | .oobWrite => 0x03
  | .emptySoftmax => 0x04
  | .indexFault => 0x05
  | .darkBank => 0x06
  | .eccUncorr => 0x07
  | .stallAbort => 0x08
  | .parked => 0x09
  | .frameTimeout => 0x0A
  | .genStale => 0x0B
  | .stepSkew => 0x0C
  | .rngSkew => 0x0D
  | .pinOwned => 0x0E
  | .accessDenied => 0x0F
  | .malformed => 0x10

/-- The rank of a status; STATUS carries the lowest (R205). -/
def Status.rank : Status → Nat
  | .ok => 17
  | .lateLaunch => 16
  | .emptyReduce => 15
  | .oobWrite => 14
  | .emptySoftmax => 13
  | .indexFault => 12
  | .pinOwned => 11
  | .rngSkew => 10
  | .stepSkew => 9
  | .frameTimeout => 8
  | .genStale => 7
  | .darkBank => 6
  | .parked => 5
  | .stallAbort => 4
  | .eccUncorr => 3
  | .accessDenied => 2
  | .malformed => 1

/-- The status is of class F (R205). -/
def Status.isFault : Status → Bool
  | .ok | .lateLaunch | .emptyReduce | .oobWrite => false
  | _ => true

/-- The status of a code that an ACK or a record carries; an unknown code is OK's. -/
def Status.ofCode : Nat → Status
  | 0x01 => .lateLaunch
  | 0x02 => .emptyReduce
  | 0x03 => .oobWrite
  | 0x04 => .emptySoftmax
  | 0x05 => .indexFault
  | 0x06 => .darkBank
  | 0x07 => .eccUncorr
  | 0x08 => .stallAbort
  | 0x09 => .parked
  | 0x0A => .frameTimeout
  | 0x0B => .genStale
  | 0x0C => .stepSkew
  | 0x0D => .rngSkew
  | 0x0E => .pinOwned
  | 0x0F => .accessDenied
  | 0x10 => .malformed
  | _ => .ok

/-- The statuses that arose in a descriptor, each with the DETAIL of its first occurrence. -/
abbrev Arose := List (Status × Nat)

/-- Add a status; its first occurrence keeps its DETAIL (R205). -/
def Arose.put (l : Arose) (st : Status) (detail : Nat) : Arose :=
  if st = .ok ∨ l.any (fun x => x.1 = st) then l else l ++ [(st, detail)]

/-- Add the statuses of a second list. -/
def Arose.join (l m : Arose) : Arose := m.foldl (fun a x => Arose.put a x.1 x.2) l

/-- The status that STATUS carries, with its DETAIL: the one of lowest rank (R205). -/
def Arose.first (l : Arose) : Status × Nat :=
  l.foldl (fun a x => if x.1.rank < a.1.rank then x else a) (.ok, 0)

/-- STATUS_SET: bit c for every status that arose; OK's bit where none did (R204, R205). -/
def Arose.set (l : Arose) : Nat := if l.isEmpty then 1 else l.foldl (fun a x => a ||| 2 ^ x.1.code) 0

/-- A record of R204, without its PHASE. -/
def cqBits (kind ring pos : Nat) (status : Nat) (flags : Flags) (opcode start set ended detail : Nat) : BitVec 256 :=
  BitVec.ofNat 256 (
    (kind % 8 * 2 ^ 60 + ring % 2 ^ 19 * 2 ^ 32 + pos % 2 ^ 32)
    + (status % 2 ^ 8 * 2 ^ 56 + flags.toNat * 2 ^ 48 + opcode % 2 ^ 8 * 2 ^ 40) * 2 ^ 64
    + (start % 2 ^ 40 * 2 ^ 24 + set % 2 ^ 24) * 2 ^ 128
    + (ended % 2 ^ 40 * 2 ^ 24 + detail % 2 ^ 24) * 2 ^ 192)

variable {s₀ : State}

/-- The master's count as a number. -/
def State.ticks (s : State) : Nat := s.units.tb.count.toNat

/-- The count of a replica (R216): the master's, moved by the replica's own difference (DESIGN CHOICE, log entry 66). -/
def State.replica (s : State) (n : Nat) : Nat :=
  (((s.ticks : Int) + mapGet (fun _ => (0 : Int)) s.units.tb.skews n) % (2 ^ 64 : Nat)).toNat

/-- The replica that a target compares and records with (R216): tiles 0 to 63, dies 64 to 79, Y1's logic 80, ports 81 to
104; Y0's units use the master (DESIGN CHOICE, log entry 66). -/
def replicaOf (target : Nat) : Option Nat :=
  if target < 64 then some target else if target < 80 then some target else if target = 0x51 then some 80 else none

/-- The count of a target's replica. -/
def State.clock (s : State) (target : Nat) : Nat :=
  match replicaOf target with
  | some n => s.replica n
  | none => s.ticks

/-- Bits [39:0] of the count of a target's replica. -/
def State.now40 (s : State) (target : Nat) : Nat := s.clock target % 2 ^ 40

/-- Put a record into its group's queue of waiting records (R204). -/
def queueRecord (r : CqRecord) : Act s₀ Unit :=
  change fun u => { u with rings := { u.rings with cqWait := u.rings.cqWait ++ [r] } }

/-! ### The risk estimator -/

/-- A RISK.NOTIFY record (R334). Its START is stated nowhere: a free value (DESIGN CHOICE, log entry 35). -/
def notifyRecord (st : Status) (events : Nat) : Act s₀ Unit := do
  if ← isOn RISK_NOTIFY_VALID then
    let r ← fld RISK_NOTIFY_RING
    let t ← ask fun s => s.ticks
    if (← fld RING_CFG_TARGET r) = 0x52 then
      let i ← freeIndex
      queueRecord { group := r / 64, slot := none, irq := false, fault := true,
                    bits := cqBits 0 r 0xffffffff st.code 0 0x60 (Config.freeWord i).toNat (2 ^ st.code) t events }

/-- Set a bit of RISK.EVENT; a bit that becomes 1 is notified (R334). -/
def riskEvent (f : Fld) : Act s₀ Unit := do
  if ← isOn f then pure ()
  else
    raise f
    notifyRecord .ok (2 ^ f.lo)

/-- The level that a score gives, from the level before it, under the thresholds and the hysteresis (R321). -/
def riskLevel (l1 l2 l3 hyst score level : Nat) : Nat :=
  let up := if l3 ≤ score then 3 else if l2 ≤ score then 2 else if l1 ≤ score then 1 else 0
  let keeps (n th : Nat) : Bool := n ≤ level && th - hyst ≤ score
  let kept := if keeps 3 l3 then 3 else if keeps 2 l2 then 2 else if keeps 1 l1 then 1 else 0
  max up kept

/-- Set the score and recompute the level; each level passed on a rise sets its event, and with AUTO a rise to 2 or 3
arms the copy of that level (R320, R321, R325). -/
def setScore (v : Nat) : Act s₀ Unit := do
  setF RISK_SCORE_SCORE (min v 255)
  let old ← fld RISK_SCORE_LEVEL
  let s ← now
  let new := riskLevel (s.fld RISK_LEVELS_L1) (s.fld RISK_LEVELS_L2) (s.fld RISK_LEVELS_L3) (s.fld RISK_LEVELS_HYST)
    (min v 255) old
  setF RISK_SCORE_LEVEL new
  if old < 1 ∧ 1 ≤ new then riskEvent RISK_EVENT_LEVEL1
  if old < 2 ∧ 2 ≤ new then riskEvent RISK_EVENT_LEVEL2
  if old < 3 ∧ 3 ≤ new then riskEvent RISK_EVENT_LEVEL3
  if old < new ∧ 2 ≤ new ∧ s.on RISK_CTL_AUTO then
    change fun u => { u with fail := { u.fail with armed := u.fail.armed ++ [new] } }

/-- Add a bump to the score at once (R320), while the estimator runs (R335 EN). -/
def riskBump (f : Fld) : Act s₀ Unit := do
  if ← isOn RISK_CTL_EN then
    let b ← fld f
    let v ← fld RISK_SCORE_SCORE
    setScore (v + b)

/-- Count a corrected error for the estimator's window (R319). -/
def riskCe (n : Nat) : Act s₀ Unit := change fun u => { u with fail := { u.fail with ce := u.fail.ce + n } }
/-- Count uncorrectable codewords and replays of links for the estimator's window (R319). -/
def riskLink (n : Nat) : Act s₀ Unit := change fun u => { u with fail := { u.fail with links := u.fail.links + n } }

end Sys2Proof.Machine
end

