-- ==== Sys2Proof/Machine/Counters.lean ====
section
/-! DEFINITION. Tile performance counters: adding the occurrences of an event, wrapping, chaining, and the sample of the
occurrence that makes a counter wrap (R389 to R396). -/

namespace Sys2Proof.Machine

variable {s₀ : State}

/-- What a sample says of an occurrence (R395): its descriptor, its granule address, its stroke instruction, its
element, and its latency in ticks where the event has one in ticks. -/
structure Occ where
  slot : Option Slot := none
  addr : Nat := 0
  instr : Option Nat := none
  element : Nat := 0
  ticks : Option Nat := none
  /-- Why the beat was starved: CAUSE. -/
  cause : Nat := 0
  deriving DecidableEq, Repr

/-- Event codes of R390. -/
def evRefBeats : Nat := 0x01
def evTicks : Nat := 0x02
def evMxVectors : Nat := 0x20
def evMxPasses : Nat := 0x21
def evMxLoadRows : Nat := 0x22
def evMxDepthUnused : Nat := 0x23
def evVeInstr : Nat := 0x28
def evVeFn : Nat := 0x29
def evVeWaves : Nat := 0x2A
def evMxBallast : Nat := 0x24
def evPalRead : Nat := 0x30
def evPalWrite : Nat := 0x31
def evPalExtra : Nat := 0x32
def evPalAged : Nat := 0x33
def evPalCe : Nat := 0x34
def evAcCommits : Nat := 0x38
def evRemoteOut : Nat := 0x39
def evDescIssued : Nat := 0x40
def evDescDone : Nat := 0x41
def evDescPending : Nat := 0x42
def evLate : Nat := 0x43
def evOobWrite : Nat := 0x44
def evTxnWait : Nat := 0x48

/-- The event's row lists a UNIT (R390). -/
def hasUnit (ev : Nat) : Bool :=
  (0x10 ≤ ev && ev ≤ 0x15) || (0x20 ≤ ev && ev ≤ 0x24) || (0x28 ≤ ev && ev ≤ 0x2A) || (0x30 ≤ ev && ev ≤ 0x34)
    || ev = 0x40 || ev = 0x41

/-- The LATENCY is in beats (R395): a time that the model does not carry. -/
def latencyInBeats (ev : Nat) : Bool :=
  (0x10 ≤ ev && ev ≤ 0x15) || ev = 0x20 || ev = 0x28 || ev = 0x29 || ev = 0x30 || ev = 0x31 || ev = 0x32 || ev = 0x38

/-- The eight words of a sample record (R395). -/
def sampleWords (c unit ev time : Nat) (o : Occ) (latency latUnit : Nat) : List Nat :=
  let d := o.slot
  let has := if d.isSome then 1 else 0
  let op := (d.map fun x => x.words.toNat % 256).getD 0
  let ring := (d.map Slot.ring).getD 0
  let pos := (d.map Slot.pos).getD 0
  let start := (d.map Slot.start).getD 0
  [ 2 ^ 63 + has * 2 ^ 62 + (if o.instr.isSome then 2 ^ 61 else 0) + c * 2 ^ 57 + unit % 16 * 2 ^ 53
      + o.cause % 32 * 2 ^ 48 + ev % 256 * 2 ^ 40 + time % 2 ^ 40,
    op * 2 ^ 56 + ring % 2 ^ 19 * 2 ^ 32 + pos % 2 ^ 32,
    o.instr.getD 0 % 256 * 2 ^ 56 + o.addr % 2 ^ 48,
    start % 2 ^ 40,
    latency % 2 ^ 32 * 2 ^ 32 + latUnit * 2 ^ 30,
    o.element % 2 ^ 40, 0, 0 ]

/-- Write a sample record, or lose it where the buffer is full (R394, R396). -/
def writeSample (t : Nat) (words : List Nat) : Act s₀ Unit := do
  let n ← fld PMC_SBUF_CTL_COUNT t
  if 16 ≤ n then countUp PMC_SBUF_CTL_LOST 1 t
  else
    let wr ← fld PMC_SBUF_CTL_WR t
    each words.zipIdx fun e => setF PMC_SBUF_WORD e.1 t (8 * wr + e.2)
    setF PMC_SBUF_CTL_WR ((wr + 1) % 16) t
    setF PMC_SBUF_CTL_COUNT (n + 1) t
    setF PMC_SBUF_CTL_FULL (if n + 1 = 16 then 1 else 0) t

/-- Sample the occurrence that made counter `c` wrap (R394). -/
def sampleWrap (t c ev : Nat) (o : Occ) : Act s₀ Unit := do
  let s ← now
  let unit := s.fld PMC_EVSEL_UNIT t c
  let time := s.now40 t
  match o.ticks with
  | some n => writeSample t (sampleWords c unit ev time o n 1)
  | none =>
    if latencyInBeats ev then
      let i ← freeIndex
      writeSample t (sampleWords c unit ev time o (Config.freeWord i).toNat 0)
    else writeSample t (sampleWords c unit ev time o 0 2)

/-- The value that a counter takes after it passes 2^48 − 1 (R391, R394). -/
def wrapped (sample : Bool) (period new : Nat) : Nat :=
  if sample then 2 ^ 48 - (if period = 0 then 2 ^ 24 else period) + (new - 2 ^ 48) else new - 2 ^ 48

/-- Add to counter `c`; whether it wrapped. -/
def bumpCounter (t c n ev : Nat) (o : Occ) : Act s₀ Bool := do
  let s ← now
  let new := s.fld PMC_CTR_VALUE t c + n
  if new < 2 ^ 48 then
    setF PMC_CTR_VALUE new t c
    pure false
  else
    setF PMC_CTR_VALUE (wrapped (s.on PMC_EVSEL_SAMPLE t c) (s.fld PMC_EVSEL_PERIOD t c) new) t c
    setF PMC_OVF_OVF (s.fld PMC_OVF_OVF t ||| 2 ^ c) t
    if s.on PMC_CTL_FREEZE_ON_OVF t then raise PMC_CTL_FROZEN t
    if s.on PMC_EVSEL_SAMPLE t c then sampleWrap t c ev o
    pure true

/-- Counter `c` counts now (R389, R391) (DEDUCED, log entry 97). -/
def State.counting (s : State) (t c : Nat) : Bool :=
  s.on PMC_CTL_EN t && !s.on PMC_CTL_FROZEN t && s.on PMC_EVSEL_EN t c

/-- `n` occurrences of an event at tile `t` in one beat or tick, for the units listed (R389 to R391) (DESIGN CHOICE, log
entry 60). -/
def tally (t ev : Nat) (units : List Nat) (n : Nat) (o : Occ := {}) : Act s₀ Unit :=
  if n = 0 then pure ()
  else each (List.range 16) fun c => do
    let s ← now
    let chained := c % 2 = 1 && s.on PMC_EVSEL_CHAIN t c
    if !chained && s.fld PMC_EVSEL_EVENT t c == ev && (!hasUnit ev || units.contains (s.fld PMC_EVSEL_UNIT t c)) then
      let k ← counted t c n (s.on PMC_EVSEL_EDGE t c)
      if s.counting t c ∧ k ≠ 0 then
        if ← bumpCounter t c k ev o then
          if c % 2 = 0 ∧ s.on PMC_EVSEL_CHAIN t (c + 1) ∧ s.counting t (c + 1) then
            let _ ← bumpCounter t (c + 1) 1 (s.fld PMC_EVSEL_EVENT t (c + 1)) {}

/-- `n` slots of category `c` of unit `u` in one beat (R392, R393): TD[u][c], 0 RETIRED to 5 IDLE. -/
def tallySlots (t u c n : Nat) (o : Occ := {}) : Act s₀ Unit := do
  countWrap PMC_TD_COUNT n t (6 * u + c)
  tally t (0x10 + c) [u] n o

/-- A beat in which a unit issues: its slots are RETIRED or WASTED (R392, R393). -/
def tallyIssue (t u retired wasted : Nat) (o : Occ := {}) : Act s₀ Unit := do
  countWrap PMC_TD_BEATS_COUNT 1 t u
  tallySlots t u 0 retired o
  tallySlots t u 1 wasted o

/-- Who makes a palette or stack access: the tile whose own engine it is, the descriptor, the UNIT code of R390, and the
source that its transfers count as (R69). -/
structure Who where
  own : Option Nat := none
  slot : Option Slot := none
  unit : Nat := 6
  src : Option Source := none
  deriving DecidableEq, Repr

/-- The access is made by an engine of die `n` itself. -/
def Who.ofDie (w : Who) (n : Nat) : Bool := w.slot.any fun d => d.target = 0x40 + n

/-- An access of stack `n` counts as a read or write of its die, and as one of an outside requester where it is one
(R404). -/
def tallyStack (w : Who) (n ev : Nat) : Act s₀ Unit := do
  uncore 0 n ev 1
  if !w.ofDie n then uncore 0 n 0x06 1

/-- The units under which an access at tile `t` counts. -/
def Who.units (w : Who) (t : Nat) : List Nat := if w.own = some t then [w.unit, 6] else [6]

end Sys2Proof.Machine
end

