-- ==== Sys2Proof/Machine/Memory.lean ====
section
/-! DEFINITION. Memory as every engine sees it: granules, gates, ECC, poison, stacks, arrival counters, and the
ownership of intervals (R60, R67 to R72, R77 to R84, R313, R315, R342, R365). -/

namespace Sys2Proof.Machine

variable {s₀ : State}

/-! ### Waits (R70, R72, R199, R200) -/

/-- A field [hi:lo] of a descriptor's 512 bits. -/
def dBits (w : Descriptor) (hi lo : Nat) : Nat := (w.toNat >>> lo) % 2 ^ (hi - lo + 1)

/-- Opcode of a descriptor (R191). -/
def opcodeOf (w : Descriptor) : Nat := dBits w 7 0
/-- STAMP (R191). -/
def stampOf (w : Descriptor) : Nat := dBits w 63 24
/-- WAIT_KIND, WAIT_REF and WAIT_TARGET (R191). -/
def waitKind (w : Descriptor) : Nat := dBits w 127 126
def waitRef (w : Descriptor) : Nat := dBits w 125 106
def waitTarget (w : Descriptor) : Nat := dBits w 105 74

/-- The delivered descriptors. -/
def State.slots (s : State) : List Slot := s.units.rings.slots

/-- The slot of a delivery number. -/
def State.slot (s : State) (id : Nat) : Option Slot := s.slots.find? fun d => d.id = id

/-- Change the rings' own state. -/
def changeRings (f : RingUnit → RingUnit) : Act s₀ Unit := change fun u => { u with rings := f u.rings }

/-- Change one slot. -/
def withSlot (id : Nat) (f : Slot → Slot) : Act s₀ Unit :=
  changeRings fun r => { r with slots := r.slots.map fun d => if d.id = id then f d else d }

/-- A header wait is satisfied now (R70, R200). -/
def State.waitSatisfied (s : State) (w : Descriptor) : Bool :=
  match waitKind w with
  | 0 => true
  | 1 => 0 ≤ sdiff (s.fld PAL_AC_VALUE (waitRef w / 1024) (waitRef w % 1024)) (waitTarget w) 32
  | _ => 0 ≤ sdiff (s.fld RING_RETIRED_RETIRED (waitRef w % 2 ^ 19)) (waitTarget w) 32

/-- Note every wait that is satisfied now; once satisfied, a wait stays so (R70, R200). -/
def settleWaits : Act s₀ Unit := do
  let s ← now
  changeRings fun r => { r with slots := r.slots.map fun d =>
    if d.phase = .delivered ∧ !d.waitMet ∧ s.waitSatisfied d.words then { d with waitMet := true } else d }

/-- Add to arrival counter `n` of tile `t`, modulo 2^32 (R68, R72). -/
def acAdd (t n k : Nat) : Act s₀ Unit := do
  countWrap PAL_AC_VALUE k t n
  settleWaits

/-! ### Gates and granules -/

/-- The granule number of an address. -/
def granuleOf (a : Nat) : Nat := a / 64
/-- The granule index within a palette of the byte at offset `o` (R59). -/
def palGranule (o : Nat) : Nat := o / 64
/-- The first granule number of palette `t`. -/
def palFirst (t : Nat) : Nat := paletteBase t / 64
/-- Granules of one palette. -/
def palGranules : Nat := 786432

/-- The line of a palette's granule `g`, which is its row in its bank (R59). -/
def palLine (g : Nat) : Nat := g / 512
/-- The bank of a palette's granule `g`: its place in its line, rotated by the line's number (R59). -/
def palBank (g : Nat) : Nat := (g % 512 + palLine g) % 512

/-- B of R62: the largest number of distinct granules of a set that fall in one bank. -/
def setBeats (gs : List Nat) : Nat :=
  let bs := gs.eraseDups.map palBank
  bs.foldl (fun a b => max a (bs.count b)) 0

/-- The domain of the quarter that holds offset `o` of palette `t` (R60, R361). -/
def quarterDomain (t o : Nat) : Nat := 6 * t + 2 + o / 0xc00000

/-- The quarter's gate is OPEN (R81, R363). -/
def State.gateOpen (s : State) (t o : Nat) : Bool := s.dom (quarterDomain t o) = 3

/-- Stack `n` serves: its die and its PHY are ON (R365). -/
def State.stackOn (s : State) (n : Nat) : Bool := s.dom (384 + n) = 3 && s.dom (400 + n) = 3

/-- Die `n` has failed (R315). -/
def State.dieFailed (s : State) (n : Nat) : Bool := bit (s.fld RISK_VAR_FAILED_DIES) n

/-- The block of stack `n` that holds offset `o` is retired out (R313). -/
def State.retiredOut (s : State) (n o : Nat) : Bool := s.units.nv.retiredOut.contains (n * 2 ^ 20 + o / 0x10000)

/-- The bytes of granule `g` as stored, without its standing errors. -/
def State.granule (s : State) (g : Nat) : Granule :=
  BitVec.ofNat 512 ((List.range 64).foldl (fun a k => a + (mapGet memReset s.mem (64 * g + k)).toNat * 256 ^ k) 0)

/-- The errors standing in granule `g`, and those of its word `w` as 72 bits (DEDUCED, log entry 18). -/
def State.errors (s : State) (g : Nat) : BitVec 576 := mapGet upsetReset s.upsets g
/-- (DEDUCED, log entry 18.) -/
def errWord (m : BitVec 576) (w : Nat) : Nat := (m.toNat >>> (72 * w)) % 2 ^ 72

/-- How many bits of a number below 2^n are 1. -/
def ones (v n : Nat) : Nat := (List.range n).foldl (fun a k => a + v / 2 ^ k % 2) 0

/-- The words of a granule with one error, ascending (DEDUCED, log entry 18). -/
def correctable (m : BitVec 576) : List Nat := (List.range 8).filter fun w => ones (errWord m w) 72 = 1
/-- Some word of the granule holds more than one error (DEDUCED, log entry 18). -/
def uncorrectable (m : BitVec 576) : Bool := (List.range 8).any fun w => 1 < ones (errWord m w) 72

/-- The errors of a granule's data bits (DEDUCED, log entry 18). -/
def dataErrors (m : BitVec 576) : Granule :=
  BitVec.ofNat 512 ((List.range 8).foldl (fun a w => a + errWord m w % 2 ^ 64 * 2 ^ (64 * w)) 0)

/-- The position of a number's lowest 1. -/
def lowestOne (v n : Nat) : Nat := ((List.range n).find? fun k => v / 2 ^ k % 2 = 1).getD 0

/-- All bits of a granule. -/
def fullMask : Granule := BitVec.allOnes 512

/-- The granule is poisoned. -/
def State.poisoned (s : State) (g : Nat) : Bool := s.poison.contains g

/-! ### ECC events -/

/-- Corrected words of a palette granule: counted, logged and reported (R79, R84) (DEDUCED, log entry 19). -/
def palCorrected (who : Who) (t g : Nat) (m : BitVec 576) : Act s₀ Unit := do
  let ws := correctable m
  tally t evPalCe [6] ws.length { slot := who.slot, addr := 64 * g }
  countUp PAL_ECC_CE_COUNT_CE_COUNT ws.length t
  riskCe ws.length
  each ws fun w => do
    raise PAL_ECC_CE_LOG_VALID t
    setF PAL_ECC_CE_LOG_WORD w t
    setF PAL_ECC_CE_LOG_SYNDROME (lowestOne (errWord m w) 72) t
    setF PAL_ECC_CE_LOG_GRANULE (g - palFirst t) t

/-- Change the palettes' traffic. -/
def changePal (f : PalUnit → PalUnit) : Act s₀ Unit := change fun u => { u with pal := f u.pal }

/-- Owe a write-back of a corrected granule of palette `t` (R79) (DEDUCED, log entry 19). -/
def oweWriteBack (t g : Nat) : Act s₀ Unit :=
  changePal fun p => if p.banks.contains (.back t g) then p else { p with banks := p.banks ++ [.back t g] }

/-- The write-back of a granule. -/
def Banked.isBack (g : Nat) : Banked → Bool
  | .back _ k => k = g
  | _ => false

/-- A new write to a granule abandons its write-back (R79). -/
def dropWriteBack (g : Nat) : Act s₀ Unit :=
  changePal fun p => { p with banks := p.banks.filter fun b => !b.isBack g }

/-- A granule found uncorrectable: its data stay as stored, with their errors, and it is poisoned (DEDUCED, log entry
69). -/
def spoil (g : Nat) : Act s₀ Unit := do
  let s ← now
  emit (.granule g (s.granule g ^^^ dataErrors (s.errors g)) fullMask)
  emit (.upset g 0)
  emit (.poison g)

/-- An uncorrectable error in a palette: poisoned, counted, logged and reported once (R79) (DEDUCED, log entry 69). -/
def palUncorrectable (t g : Nat) : Act s₀ Unit := do
  spoil g
  dropWriteBack g
  countUp PAL_ECC_UE_COUNT_UE_COUNT 1 t
  countUp PAL_POISONED_COUNT 1 t
  logFirst PAL_ECC_UE_LOG_VALID PAL_ECC_UE_LOG_OVERRUN t (setF PAL_ECC_UE_LOG_GRANULE (g - palFirst t) t)
  riskBump RISK_BUMP_B_UE

/-- An uncorrectable error in a stack retires its block (R313): logged, repaired where a spare row remains in the bank,
else retired out; every granule of the block is +0 and poisoned (DEDUCED, log entry 46; DEDUCED, log entry 69). -/
def stackRetire (n g : Nat) (spare : Bool) : Act s₀ Unit := do
  let o := 64 * g - stackBase n
  let blk := o / 0x10000
  countUp HBM_ERR_UE 1 n
  riskBump RISK_BUMP_B_UE
  logFirst RISK_RETIRE_LOG_VALID RISK_RETIRE_LOG_OVERRUN 0 do
    setF RISK_RETIRE_LOG_METHOD (if spare then 0 else 1)
    setF RISK_RETIRE_LOG_STACK n
    setF RISK_RETIRE_LOG_BLOCK blk
  riskEvent RISK_EVENT_BLOCK_RETIRED
  let base := stackBase n + blk * 0x10000
  emit (.wipeMem fun a => base ≤ a && a < base + 0x10000)
  each (List.range 1024).reverse fun k => emit (.poison (base / 64 + k))
  let key := n * 2 ^ 20 + blk
  if spare then
    countUp HBM_REPAIR_SOFT 1 n
    change fun u => { u with
      nv := { u.nv with soft := u.nv.soft ++ [key] },
      hbm := { u.hbm with repairing := setIns u.hbm.repairing n } }
  else
    countUp RISK_RETIRED_COUNT 1
    riskEvent RISK_EVENT_RETIRE_EXHAUSTED
    change fun u => { u with nv := { u.nv with retiredOut := u.nv.retiredOut ++ [key] } }

/-! ### Reads and writes of one granule -/

/-- How an access of a granule ended: data or commit; a gate or stack that is not open (R82, R365); poison or an
uncorrectable error (R79, R313, R315); or a palette that takes no access from outside its tile (R84 EN). -/
inductive Got where
  | ok | dark | uncorr | denied
  deriving DecidableEq, Repr

/-- The status that an access gives its descriptor, with its DETAIL. -/
def Got.status : Got → Status × Nat
  | .ok => (.ok, 0)
  | .dark => (.darkBank, 0)
  | .uncorr => (.eccUncorr, 0)
  | .denied => (.accessDenied, 3)

/-- Where a granule lies in memory and what meets an access to it before its data are looked at. `own` is the tile of
the engine, when it is a tile's (DEDUCED, log entry 15; DEDUCED, log entry 20). -/
def State.meets (s : State) (own : Option Nat) (g : Nat) : Got :=
  match place (64 * g) with
  | .palette t o =>
    if own ≠ some t ∧ !s.on PAL_CTL_EN t then .denied else if s.gateOpen t o then .ok else .dark
  | .stack n o =>
    if s.dieFailed n then .uncorr else if !s.stackOn n then .dark else if s.retiredOut n o then .uncorr else .ok
  | _ => .denied

/-- A granule of stack `n` is corrected (R313). -/
def stackCorrected (n : Nat) (m : BitVec 576) : Act s₀ Unit := do
  countUp HBM_ERR_CE 1 n
  uncore 1 n 0x11 1
  riskCe (correctable m).length

/-- A read is counted where its granule lies (R390, R404). -/
def noteRead (who : Who) (g : Nat) : Act s₀ Unit :=
  match place (64 * g) with
  | .palette t _ => tally t evPalRead (who.units t) 1 { slot := who.slot, addr := 64 * g }
  | .stack n _ => tallyStack who n 0x04
  | _ => pure ()

/-- Read a palette granule whose gate lets the read in: correctable errors are corrected, counted and owed a write-back;
an uncorrectable one poisons the granule (R79). -/
def readPalette (who : Who) (t g : Nat) : Act s₀ (Granule × Got) := do
  noteRead who g
  let s ← now
  let m := s.errors g
  if s.poisoned g then pure (0, .uncorr)
  else if m = 0 then pure (s.granule g, .ok)
  else if uncorrectable m then
    palUncorrectable t g
    pure (0, .uncorr)
  else
    palCorrected who t g m
    oweWriteBack t g
    pure (s.granule g, .ok)

/-- An access of stack `n` meets a repair that was in progress when the command came (R313) (DEDUCED, log entry 46). -/
def meetRepair (n : Nat) : Act s₀ Unit := do
  if s₀.units.hbm.repairing.contains n && (← now).units.hbm.repairing.contains n then
    change fun u => { u with hbm := { u.hbm with met := true } }

/-- Read a granule of a stack that serves (R313). -/
def readStack (who : Who) (n g : Nat) : Act s₀ (Granule × Got) := do
  meetRepair n
  noteRead who g
  let s ← now
  let m := s.errors g
  if s.poisoned g then pure (0, .uncorr)
  else if m = 0 then pure (s.granule g, .ok)
  else if uncorrectable m then
    let i ← freeIndex
    stackRetire n g (Config.freeBit i)
    pure (0, .uncorr)
  else
    stackCorrected n m
    emit (.upset g 0)
    pure (s.granule g, .ok)

/-- Arm of PAL.INJECT: the next write of its granule takes the error (R84) (DEDUCED, log entry 18). -/
def injectOn (t g : Nat) : Act s₀ Unit := do
  let s ← now
  if s.on PAL_INJECT_ARM t ∧ s.fld PAL_INJECT_GRANULE t = g - palFirst t then
    setF PAL_INJECT_ARM 0 t
    let b := 72 * s.fld PAL_INJECT_WORD t + s.fld PAL_INJECT_BIT t
    let b' := 72 * s.fld PAL_INJECT_WORD t + (s.fld PAL_INJECT_BIT t ^^^ 1)
    emit (.upset g (BitVec.ofNat 576 (if s.on PAL_INJECT_DOUBLE t then 2 ^ b + 2 ^ b' else 2 ^ b)))

/-- The write itself, with fresh check bits. -/
def storeGranule (g : Nat) (v mask : Granule) : Act s₀ Unit := do
  emit (.granule g v mask)
  emit (.upset g 0)
  dropWriteBack g

/-- Take the poison off a granule; POISONED of its tile falls by 1 (R79). -/
def healGranule (g : Nat) : Act s₀ Unit := do
  emit (.heal g)
  match place (64 * g) with
  | .palette t _ =>
    let k ← fld PAL_POISONED_COUNT t
    setF PAL_POISONED_COUNT (k - 1) t
  | _ => pure ()

/-- A transfer that has committed is counted: its arrival counter, and the events of the tile (R68, R404). -/
def countCommit (who : Who) (t g : Nat) (ac : Option Nat) : Act s₀ Unit := do
  match ac with
  | some n =>
    acAdd t n 1
    tally t evAcCommits [] 1 { slot := who.slot, addr := 64 * g }
  | none => pure ()
  tally t evPalWrite (who.units t) 1 { slot := who.slot, addr := 64 * g }

/-- The granule takes the bits, and is poisoned no longer (R79). -/
def replaceGranule (g : Nat) (v mask : Granule) : Act s₀ Unit := do
  let s ← now
  storeGranule g v mask
  if s.poisoned g then healGranule g else pure ()

/-- A write into a palette granule whose gate it has passed (R67, R68, R79): a masked write meets the granule's poison
and errors first (DEDUCED, log entry 24). -/
def commitPalette (who : Who) (t g : Nat) (v mask : Granule) (ac : Option Nat) : Act s₀ Got := do
  let s ← now
  let m := s.errors g
  if mask ≠ fullMask ∧ s.poisoned g then pure .uncorr
  else if mask ≠ fullMask ∧ uncorrectable m then
    palUncorrectable t g
    pure .uncorr
  else
    if mask ≠ fullMask ∧ m ≠ 0 then palCorrected who t g m
    replaceGranule g v mask
    injectOn t g
    countCommit who t g ac
    pure .ok

/-- A write into a stack granule that serves (R300, R313). -/
def commitStack (who : Who) (n g : Nat) (v mask : Granule) : Act s₀ Got := do
  meetRepair n
  let s ← now
  let m := s.errors g
  if mask ≠ fullMask ∧ s.poisoned g then pure .uncorr
  else if mask ≠ fullMask ∧ uncorrectable m then
    let i ← freeIndex
    stackRetire n g (Config.freeBit i)
    pure .uncorr
  else
    if mask ≠ fullMask ∧ m ≠ 0 then stackCorrected n m
    tallyStack who n 0x05
    replaceGranule g v mask
    pure .ok

/-! ### Transaction tags (R202, R353) -/

/-- Tags that atelier `a` has reserved and does not use. -/
def State.spareReserve (s : State) (a : Nat) : Nat :=
  if s.exists a then s.fld ATL_TXN_RESERVE a - s.fld ATL_TAGS_IN_USE_COUNT a else 0

/-- A tag is free for an atelier, or for the module's own requests (R353). -/
def State.tagFree (s : State) (owner : Option Nat) : Bool :=
  let others := ((List.range 16).filter fun b => owner ≠ some b).foldl (fun n b => n + s.spareReserve b) 0
  s.fld RING_TXN_IN_USE + 1 + others ≤ 65536 &&
  match owner with
  | some a => s.fld ATL_TAGS_IN_USE_COUNT a < s.fld ATL_TXN_MAX a
  | none => true

/-- Take a tag. -/
def takeTag (owner : Option Nat) : Act s₀ Unit := do
  let n ← fld RING_TXN_IN_USE
  setF RING_TXN_IN_USE (n + 1)
  let p ← fld RING_TXN_PEAK
  setF RING_TXN_PEAK (max p (n + 1))
  match owner with
  | some a => do
    let k ← fld ATL_TAGS_IN_USE_COUNT a
    setF ATL_TAGS_IN_USE_COUNT (k + 1) a
  | none => pure ()

/-- Give a tag back. -/
def freeTag (owner : Option Nat) : Act s₀ Unit := do
  let n ← fld RING_TXN_IN_USE
  setF RING_TXN_IN_USE (n - 1)
  match owner with
  | some a => do
    let k ← fld ATL_TAGS_IN_USE_COUNT a
    setF ATL_TAGS_IN_USE_COUNT (k - 1) a
  | none => pure ()

/-- A tag is held for a moment: PEAK notes it (R202). -/
def notePeak : Act s₀ Unit := do
  let n ← fld RING_TXN_IN_USE
  let p ← fld RING_TXN_PEAK
  setF RING_TXN_PEAK (max p (n + 1))

/-- A request waits for a tag: counted once (R202). -/
def countTagWait (owner : Option Nat) : Act s₀ Unit := do
  countUp RING_TXN_WAIT_COUNT 1
  match owner with
  | some a => countUp ATL_TAGS_WAIT_COUNT 1 a
  | none => pure ()

/-- The atelier whose share of the tags a sender's request draws on (R353); the module's own where it has none. -/
def State.sharer (s : State) (sender : Option Nat) : Option Nat := (sender.bind s.slot).map Slot.atelier

/-- The sender of an accepted access that holds a tag: a transfer until it commits, and a read from another tile until its
data (R202) (DEDUCED, log entry 90). -/
def Banked.holder : Banked → Option (Option Nat)
  | .write _ x => some x.sender
  | .read w => if w.req = .remote then some w.sender else none
  | .back _ _ => none

/-- An accepted access is over: its tag is free. -/
def releaseTag (b : Banked) : Act s₀ Unit := do
  match b.holder with
  | some sender => freeTag ((← now).sharer sender)
  | none => pure ()

/-- Accepted accesses are given up, with their tags. -/
def dropBanked (p : Banked → Bool) : Act s₀ Unit := do
  let gone ← ask fun s => s.units.pal.banks.filter p
  changePal fun u => { u with banks := u.banks.filter fun b => !p b }
  each gone releaseTag

/-! ### Accepted accesses (R32, R62, R64, R67, R69) -/

/-- A status reaches the descriptor that sent a request; `ended` says that the request is over. -/
def tellSender (sender : Option Nat) (e : Got) (ended : Bool) : Act s₀ Unit :=
  match sender with
  | none => pure ()
  | some id => withSlot id fun d =>
    { d with arose := Arose.put d.arose e.status.1 e.status.2,
             outstanding := if ended then d.outstanding - 1 else d.outstanding }

/-- The UNIT code of a requester of the tile itself (R390). -/
def requesterUnit : Requester → Option Nat
  | .matrix => some 0
  | .vector => some 2
  | .sfu => some 3
  | .localDma => some 4
  | .writeBack | .scrub => some 6
  | .remote | .host => none

/-- The tile whose palette a source writes as its own (R84 EN). -/
def sourceOwn : Source → Option Nat
  | .tile t => some t.val
  | _ => none

/-- The granules of `gs` that lie in palette `t`, by their index in it. -/
def palIndices (t : Nat) (gs : List Nat) : List Nat :=
  (gs.filter fun g => palFirst t ≤ g && g < palFirst t + palGranules).map fun g => g - palFirst t

/-- The palettes that a set of granules reaches. -/
def tilesOf (gs : List Nat) : List Nat :=
  (gs.filterMap fun g => match place (64 * g) with
    | .palette t _ => some t
    | _ => none).eraseDups

/-- A request set completes: its beats beyond the first are counted at each palette that served it (R62, R390). -/
def countSet (who : Who) (gs : List Nat) : Act s₀ Unit :=
  each (tilesOf gs) fun t => tally t evPalExtra (who.units t) (setBeats (palIndices t gs) - 1) { slot := who.slot }

/-- A descriptor stops at a request set that met poison: no later set of it is served (R79). -/
def stopSender (sender : Option Nat) : Act s₀ Unit :=
  match sender with
  | none => pure ()
  | some id => do
    dropBanked fun b => match b with
      | .read w => w.sender = some id
      | _ => false
    withSlot id fun d => if d.phase = .issued then { d with phase := .done } else d

/-- A read request set is served: each distinct granule once (R63), with the ECC and poison of R79. A poisoned granule stops
the reading descriptor (R79) (DEDUCED, log entry 23). -/
def serveSet (w : PalWait) : Act s₀ Unit := do
  let who : Who := { own := (requesterUnit w.req).map fun _ => w.tile, slot := w.sender.bind (← now).slot,
                     unit := (requesterUnit w.req).getD 6 }
  each w.granules.eraseDups fun g => do
    let (_, e) ← readPalette who w.tile g
    tellSender w.sender e false
    if e = .uncorr then stopSender w.sender
  countSet who w.granules

/-- An accepted transfer commits (R67, R68, R79). Its gate let it in, so it commits during a drain too (R82) (DEDUCED, log
entry 24). -/
def commitTransfer (t : Nat) (x : Transfer) : Act s₀ Unit := do
  let who : Who := { own := sourceOwn x.src, slot := x.sender.bind (← now).slot, unit := 4 }
  let e ← commitPalette who t (granuleOf x.addr.toNat) x.data x.bits (x.ac.map Fin.val)
  tellSender x.sender e true

/-- A corrected granule is written back with fresh check bits (R79) (DEDUCED, log entry 19). -/
def writeBack (t g : Nat) : Act s₀ Unit := do
  emit (.upset g 0)
  tally t evPalWrite [6] 1 { addr := 64 * g }

/-- The tile of an accepted access. -/
def Banked.tile : Banked → Nat
  | .write t _ => t
  | .read w => w.tile
  | .back t _ => t

/-- The granules of an accepted access. -/
def Banked.granules : Banked → List Nat
  | .write _ x => [granuleOf x.addr.toNat]
  | .read w => w.granules
  | .back _ g => [g]

/-- An accepted access writes granule `g`. -/
def Banked.writes (g : Nat) : Banked → Bool
  | .write _ x => granuleOf x.addr.toNat = g
  | _ => false

/-- An accepted access reads granule `g`. -/
def Banked.reads (g : Nat) : Banked → Bool
  | .read w => w.granules.contains g
  | _ => false

/-- An accepted access is a transfer of source `src`. -/
def Banked.ofSource (src : Option Source) : Banked → Bool
  | .write _ x => some x.src = src
  | _ => false

/-- `b` is served after `a`, accepted before it: a read and a write of one granule, transfers of one source, and read sets
of one engine keep their order (R32, R62, R69) (DEDUCED, log entry 72). -/
def Banked.follows (b a : Banked) : Bool :=
  a.tile = b.tile && match b with
    | .write _ x => a.reads (granuleOf x.addr.toNat) || a.ofSource (some x.src)
    | .read w => w.granules.any a.writes || (match a with
      | .read v => v.req = w.req && v.sender = w.sender
      | _ => false)
    | .back _ _ => false

/-- Serve one accepted access, whose tag is free then. -/
def serveBanked (b : Banked) : Act s₀ Unit := do
  match b with
  | .write t x => commitTransfer t x
  | .read w => serveSet w
  | .back t g => writeBack t g
  releaseTag b

/-- Take the first element that satisfies `p` out of a list. -/
def takeFirst {α : Type} (p : α → Bool) : List α → Option α × List α
  | [] => (none, [])
  | x :: xs => if p x then (some x, xs) else let r := takeFirst p xs; (r.1, x :: r.2)

/-- Serve the first accepted access that satisfies `p`. -/
def serveFirst (p : Banked → Bool) : Act s₀ Unit := do
  let (b, rest) ← ask fun s => takeFirst p s.units.pal.banks
  match b with
  | none => pure ()
  | some b =>
    changePal fun u => { u with banks := rest }
    serveBanked b

/-- Serve what palette `t` has accepted, in the order of acceptance, for as long as `held` holds of the banks. -/
def drainWhile (t : Nat) (held : List Banked → Bool) : Nat → Act s₀ Unit
  | 0 => pure ()
  | n + 1 => do
    if (← ask fun s => held s.units.pal.banks) then
      serveFirst fun b => b.tile = t
      drainWhile t held n
    else pure ()

/-- Serve what must come first of palette `t`'s accepted accesses (R32, R69) (DEDUCED, log entry 72). -/
def settleBanks (t : Nat) (held : List Banked → Bool) : Act s₀ Unit := do
  drainWhile t held (← now).units.pal.banks.length

/-- Serve an accepted access, after all that it follows. -/
def serveInTurn (b : Banked) : Act s₀ Unit := do
  settleBanks b.tile fun l => (l.takeWhile (· ≠ b)).any b.follows
  serveFirst (· = b)

/-! ### Accesses of an engine -/

/-- Read one granule for an engine, behind the transfers to it that its palette has accepted (R32). A gate that is not
open gives +0 (R82). -/
def readGranule (who : Who) (g : Nat) : Act s₀ (Granule × Got) := do
  match (← now).meets who.own g with
  | .ok =>
    match place (64 * g) with
    | .palette t _ =>
      settleBanks t fun l => l.any fun b => b.tile = t && b.writes g
      readPalette who t g
    | .stack n _ => readStack who n g
    | _ => pure (0, .denied)
  | e => pure (0, e)

/-- A write meets a gate that is not OPEN, or a stack that does not serve (R82, R365). -/
def refuseDark (g : Nat) : Act s₀ Got := do
  match place (64 * g) with
  | .palette t _ => countUp PAL_DARK_REFUSED_COUNT 1 t
  | _ => pure ()
  pure .dark

/-- A granule leaves its tile: the event REMOTE_OUT (R390). -/
def noteRemote (who : Who) (g : Nat) : Act s₀ Unit :=
  match who.own, place (64 * g) with
  | some t, .palette k _ => if t = k then pure () else tally t evRemoteOut [] 1 { slot := who.slot, addr := 64 * g }
  | _, _ => pure ()

/-- A transfer to a palette comes behind the transfers of its source and the reads of its granule that the palette has
accepted (R32, R69). -/
def settleFor (who : Who) (t g : Nat) : Act s₀ Unit :=
  settleBanks t fun l => l.any fun b => b.tile = t && (b.reads g || b.ofSource who.src)

/-- A granule transfer that has arrived commits, or is refused (R67, R79, R82). -/
def landGranule (who : Who) (g : Nat) (v mask : Granule) (ac : Option Nat) : Act s₀ Got := do
  match (← now).meets who.own g with
  | .ok =>
    match place (64 * g) with
    | .palette t _ =>
      settleFor who t g
      commitPalette who t g v mask ac
    | .stack n _ => commitStack who n g v mask
    | _ => pure .denied
  | .dark => refuseDark g
  | e => pure e

/-- A granule transfer commits, or is refused (R67, R79, R82): `mask` names its bits, `ac` its counter on the tile that
holds the granule. -/
def writeGranule (who : Who) (g : Nat) (v mask : Granule) (ac : Option Nat) : Act s₀ Got := do
  noteRemote who g
  landGranule who g v mask ac

/-- A granule of palette `t` becomes poisoned where it is not; POISONED rises by 1 (R84). -/
def poisonPalette (t g : Nat) : Act s₀ Unit := do
  if !(← now).poisoned g then
    emit (.poison g)
    countUp PAL_POISONED_COUNT 1 t

/-- A destination granule of a PAL_COPY is written poisoned (R76): its contents come with it, and it counts as committed
(DEDUCED, log entry 70). -/
def writePoisoned (who : Who) (g : Nat) (v : Granule) (ac : Option Nat) : Act s₀ Got := do
  match (← now).meets who.own g, place (64 * g) with
  | .ok, .palette t _ =>
    settleFor who t g
    storeGranule g v fullMask
    injectOn t g
    poisonPalette t g
    countCommit who t g ac
    pure .ok
  | _, _ => writeGranule who g v fullMask ac

/-! ### Accesses that reach a palette from outside (R62, R67, R202) -/

/-- A transfer that holds a tag reaches the banks: its gate admits it, or refuses it, and its tag is free again (R67, R82,
R84) (DEDUCED, log entry 24). -/
def admitTransfer (t : Nat) (x : Transfer) : Act s₀ Unit := do
  let g := granuleOf x.addr.toNat
  match (← now).meets (sourceOwn x.src) g with
  | .ok => changePal fun p => { p with banks := p.banks ++ [.write t x] }
  | .dark => do
    let e ← refuseDark g
    tellSender x.sender e true
    releaseTag (.write t x)
  | e => do
    tellSender x.sender e true
    releaseTag (.write t x)

/-- A read request set reaches the banks: each gate admits its granules or refuses them (R67, R82), and what is admitted
waits for its banks. -/
def admitSet (w : PalWait) : Act s₀ Unit := do
  let own := (requesterUnit w.req).map fun _ => w.tile
  let s ← now
  each (w.granules.filter fun g => s.meets own g ≠ .ok) fun g => tellSender w.sender (s.meets own g) false
  match w.granules.filter fun g => s.meets own g = .ok with
  | [] => releaseTag (.read w)
  | gs => changePal fun p => { p with banks := p.banks ++ [.read { w with granules := gs }] }

/-- An access that holds its tag, if it needs one, reaches the banks. -/
def takeIn : Banked → Act s₀ Unit
  | .write t x => admitTransfer t x
  | .read w => admitSet w
  | .back _ _ => pure ()

/-- A transfer of the same source is held for a tag: it goes first (R69). -/
def State.heldBefore (s : State) (b : Banked) : Bool :=
  s.units.rings.tagWaits.any fun w => w.access.any fun a => b.follows a

/-- An access comes from outside: it takes its tag, or is held for one (R202) (DEDUCED, log entry 90). -/
def presentAccess (b : Banked) : Act s₀ Unit := do
  let s ← now
  match b.holder with
  | none => takeIn b
  | some sender =>
    let owner := s.sharer sender
    if s.tagFree owner && !s.heldBefore b then
      takeTag owner
      takeIn b
    else
      countTagWait owner
      changeRings fun r => { r with tagWaits := r.tagWaits ++ [{ atelier := owner, what := [], access := some b }] }

/-- A transfer's last flit reaches the bank queue of its palette (R67). -/
def actGranuleAccept (x : Transfer) : Act s₀ Unit := do
  match place x.addr.toNat with
  | .palette t _ =>
    match x.sender with
    | some id => withSlot id fun d => { d with outstanding := d.outstanding + 1 }
    | none => pure ()
    presentAccess (.write t x)
  | _ => pure ()

/-! ### Ownership of intervals (R90, R342) -/

/-- The HBM ranges of atelier `a` cover every byte from `lo` to `hi`, walking range by range (R342). -/
def State.covers (s : State) (a hi : Nat) : Nat → Nat → Bool
  | 0, lo => hi < lo
  | n + 1, lo =>
    if hi < lo then true
    else match (List.range 8).find? fun i => s.inRange a i lo with
      | none => false
      | some i => s.covers a hi n ((s.fld ATL_HBM_BASE_BLK a i + s.fld ATL_HBM_BLOCKS a i) * 0x10000)

/-- Atelier `a` may access every byte from `lo` to `hi`: they lie in one palette or one stack, and are the atelier's
(R17, R90, R342). -/
def State.allowed (s : State) (a lo hi : Nat) : Bool :=
  lo ≤ hi && s.exists a &&
  match place lo, place hi with
  | .palette t o, .palette t' o' =>
    t == t' && (List.range 4).all fun q => q < o / 0xc00000 || o' / 0xc00000 < q || s.ownsPalette a t (q * 0xc00000)
  | .stack n _, .stack n' _ => n == n' && s.covers a hi 8 lo
  | _, _ => false

end Sys2Proof.Machine
end

