-- ==== Sys2Proof/Machine/Tensor.lean ====
section
/-! DEFINITION. Tensor records, canonical order, element addresses, bounds boxes and intervals (R85 to R93), and an
engine's element reads and staged writes (R62, R63, R67, R94, R427). -/

namespace Sys2Proof.Machine

/-- A tensor record with every dimension filled in: d ≥ RANK has extent 1, stride 0 and box [0, 1) (R85, R86). -/
structure Tensor where
  rank : Nat
  type : ElemType
  base : Nat
  ext : List Nat
  stride : List Int
  lo : List Nat
  hi : List Nat
  deriving DecidableEq, Repr

/-- Word `k` of a record of sixteen 8-byte words. -/
def recWord (w : Nat) (k : Nat) : Nat := (w >>> (64 * k)) % 2 ^ 64

/-- The alignment of BASE (R86). -/
def ElemType.align : ElemType → Nat
  | .fp32 => 4
  | .bf16 | .fp16 | .int16 => 2
  | .int32 => 4
  | .wx => 8
  | .mxE4m3 | .mxE5m2 | .mxFp4 | .vote => 64
  | _ => 1

/-- A record of 128 B; none where R86 calls it malformed. -/
def parseTensor (w : Nat) : Option Tensor :=
  let w0 := recWord w 0
  let rank := w0 / 2 ^ 53 % 8
  match ElemType.ofCode (w0 / 2 ^ 48 % 32) with
  | none => none
  | some ty =>
    let dim (d : Nat) := recWord w (2 + d)
    let box (d : Nat) := recWord w (7 + d)
    let used := List.range rank
    let unused := (List.range 5).filter fun d => rank ≤ d
    let base := w0 % 2 ^ 48
    let ext := (List.range 5).map fun d => if d < rank then dim d / 2 ^ 40 else 1
    let stride := (List.range 5).map fun d => if d < rank then intOf 40 (dim d) else (0 : Int)
    let lo := (List.range 5).map fun d => if d < rank then box d % 2 ^ 24 else 0
    let hi := (List.range 5).map fun d => if d < rank then box d / 2 ^ 24 % 2 ^ 24 else 1
    if rank = 0 ∨ 5 < rank then none
    else if w0 / 2 ^ 56 ≠ 0 ∨ recWord w 1 ≠ 0 then none
    else if [12, 13, 14, 15].any fun k => recWord w k ≠ 0 then none
    else if unused.any fun d => dim d ≠ 0 ∨ box d ≠ 0 then none
    else if used.any fun d => box d / 2 ^ 48 ≠ 0 then none
    else if base % ty.align ≠ 0 then none
    else if ty.isMx ∧ (stride.head? ≠ some 1 ∨ (stride.drop 1).any fun x => x % 32 ≠ 0) then none
    else if 2 ^ 40 ≤ ext.foldl (· * ·) 1 then none
    else some ⟨rank, ty, base, ext, stride, lo, hi⟩

/-- The number of elements (R88). -/
def Tensor.count (t : Tensor) : Nat := t.ext.foldl (· * ·) 1

/-- The extent of a dimension. -/
def Tensor.extent (t : Tensor) (d : Nat) : Nat := t.ext.getD d 1

/-- The loop index of canonical element `e` under the extents (R88). -/
def unravel : List Nat → Nat → List Nat
  | [], _ => []
  | n :: ns, e => e % n :: unravel ns (e / n)

/-- The canonical element index of a loop index (R88). -/
def ravel : List Nat → List Nat → Nat
  | n :: ns, j :: js => j + n * ravel ns js
  | _, _ => 0

/-- Every loop index in canonical order. -/
def Tensor.indices (t : Tensor) : List (List Nat) := (List.range t.count).map (unravel t.ext)

/-- The canonical index of a loop index of the tensor. -/
def Tensor.canon (t : Tensor) (j : List Nat) : Nat := ravel t.ext j

/-- The signed element offset q of R89. -/
def Tensor.q (t : Tensor) (j : List Nat) : Int :=
  (List.zipWith (fun (a : Nat) (b : Int) => (a : Int) * b) j t.stride).foldl (· + ·) 0

/-- Where an element lies, in bit addresses: its code (or s bit), its width, and its block scale or f bit (R89). -/
structure Spot where
  bit : Nat
  width : Nat
  scale : Option Nat := none
  flag : Option Nat := none
  deriving DecidableEq, Repr

/-- The bytes of an MX group (R41). -/
def ElemType.group : ElemType → Nat
  | .mxFp4 => 1088
  | _ => 2112

/-- element_bits of R89 at element offset `q`. -/
def Tensor.spotAt (t : Tensor) (q : Int) : Spot :=
  if t.type.isMx then
    let eb := t.type.bits
    let blk := q / 32
    let grp := blk / 64
    let b := (blk - 64 * grp).toNat
    let g0 := ((t.base : Int) + grp * t.type.group).toNat
    { bit := 8 * g0 + b * 32 * eb + (q - 32 * blk).toNat * eb, width := eb,
      scale := some (8 * (g0 + 64 * 32 * eb / 8) + 8 * b) }
  else if t.type = .vote then
    let gran := ((t.base : Int) + 64 * (q / 256)).toNat
    let s := 8 * gran + (q % 256).toNat
    { bit := s, width := 1, flag := some (s + 256) }
  else
    { bit := (8 * ((t.base : Int) + q * (t.type.bits / 8 : Nat))).toNat, width := t.type.bits }

/-- The bit address of the code of the element at offset `q`, which may lie below 0 (R89). -/
def Tensor.bitAt (t : Tensor) (q : Int) : Int :=
  if t.type.isMx then
    let blk := q / 32
    let grp := blk / 64
    8 * ((t.base : Int) + grp * t.type.group) + (blk - 64 * grp) * 32 * t.type.bits + (q - 32 * blk) * t.type.bits
  else if t.type = .vote then 8 * ((t.base : Int) + 64 * (q / 256)) + q % 256
  else 8 * ((t.base : Int) + q * (t.type.bits / 8 : Nat))

/-- The granules that an access of a spot reaches. -/
def Spot.granules (p : Spot) : List Nat :=
  let a := p.bit / 512
  match p.scale with
  | some b => if b / 512 = a then [a] else [a, b / 512]
  | none => [a]

/-- A loop index is inside the box (R92). -/
def Tensor.inBox (t : Tensor) (j : List Nat) : Bool :=
  (List.range 5).all fun d => t.lo.getD d 0 ≤ j.getD d 0 && j.getD d 0 < t.hi.getD d 1

/-- The index that a read takes: each dimension clamped into the box; none for an empty box (R92, R93). -/
def Tensor.clamp (t : Tensor) (j : List Nat) : Option (List Nat) :=
  if (List.range 5).any fun d => t.hi.getD d 1 ≤ t.lo.getD d 0 then none
  else some ((List.range 5).map fun d => max (t.lo.getD d 0) (min (j.getD d 0) (t.hi.getD d 1 - 1)))

/-- The effective range of dimension `d` (R90); none where it is empty. -/
def Tensor.range (t : Tensor) (write : Bool) (d : Nat) : Option (Nat × Nat) :=
  let n := t.extent d
  let lo := t.lo.getD d 0
  let hi := t.hi.getD d 1
  if write then (if lo < min hi n then some (lo, min hi n - 1) else none)
  else if n = 0 ∨ hi ≤ lo then none
  else some (max lo (min 0 (hi - 1)), max lo (min (n - 1) (hi - 1)))

/-- The lowest and highest byte that a descriptor can touch (R90); none where it touches none. One that would reach below
address 0 has no such interval, and (1, 0) stands for it. -/
def Tensor.interval (t : Tensor) (write : Bool) : Option (Nat × Nat) :=
  let rs := (List.range 5).map fun d => t.range write d
  if rs.any Option.isNone then none
  else
    let corner (least : Bool) : Int := (List.range 5).foldl (fun a d =>
      match t.range write d with
      | some (x, y) =>
        let s := t.stride.getD d 0
        a + (if least then min ((x : Int) * s) (y * s) else max ((x : Int) * s) (y * s))
      | none => a) 0
    if t.bitAt (corner true) < 0 then some (1, 0) else
    let p := t.spotAt (corner true)
    let r := t.spotAt (corner false)
    let top := max ((r.bit + r.width - 1) / 8) (match r.scale, r.flag with
      | some b, _ => b / 8
      | _, some b => b / 8
      | _, _ => 0)
    some (p.bit / 8, top)

/-- A byte that a tensor touches, for what lies where it lies; its BASE where it touches none (DESIGN CHOICE, log entry 76).
-/
def Tensor.home (t : Tensor) (write : Bool) : Nat :=
  match t.interval write with
  | some (lo, hi) => if lo ≤ hi then lo else t.base
  | none => t.base

/-- The tensor's interval lies wholly in the atelier's memory; a tensor that touches nothing passes (R90). -/
def State.mayAccess (s : State) (a : Nat) (t : Tensor) (write : Bool) : Bool :=
  match t.interval write with
  | none => true
  | some (lo, hi) => s.allowed a lo hi

/-- Two intervals overlap. -/
def overlaps : Option (Nat × Nat) → Option (Nat × Nat) → Bool
  | some (a, b), some (c, d) => a ≤ d && c ≤ b
  | _, _ => false

/-! ### Request sets (R62) -/

/-- Successive granules of a stream, a run in one granule counted once. -/
def collapse : List Nat → List Nat
  | [] => []
  | a :: as =>
    match collapse as with
    | [] => [a]
    | b :: bs => if a = b then b :: bs else a :: b :: bs

/-- The stream's granule stride is +1 throughout, or −1 throughout (R62). -/
def unitStride (gs : List Nat) : Bool :=
  let ps := gs.zip (gs.drop 1)
  !ps.isEmpty && (ps.all (fun p => p.2 = p.1 + 1) || ps.all (fun p => p.1 = p.2 + 1))

/-- Number the requests of a stream by their request set: 512 to a set, cut at line boundaries where `cut`. The
arguments are the set in progress, how many requests it has, and the line of its last one. -/
def setNumbers (cut : Bool) : Nat → Nat → Option Nat → List Nat → List Nat
  | _, _, _, [] => []
  | n, k, line, g :: gs =>
    let l := g / 512
    if k = 512 ∨ (cut ∧ k ≠ 0 ∧ line ≠ some l) then (n + 1) :: setNumbers cut (n + 1) 1 (some l) gs
    else n :: setNumbers cut n (k + 1) (some l) gs

/-- The line is that of the granule within its palette. -/
def lineKey (g : Nat) : Nat :=
  match place (64 * g) with
  | .palette t o => t * 2 ^ 40 + o / 64
  | _ => 2 ^ 60 + g

/-- The request-set number of each request of a stream. -/
def requestSets (gs : List Nat) : List Nat := setNumbers (unitStride gs) 0 0 none (gs.map lineKey)

/-! ### Element reads and staged writes -/

/-- A write request of an engine: a granule with the bits it takes. -/
structure Req where
  g : Nat
  data : Granule
  mask : Granule
  deriving DecidableEq, Repr

/-- An engine's work in one operation: who makes its accesses, the read requests of its stream newest first and those of its
last element, whether a wave's sets have been read ahead, the granules that the request set in progress has read, the bits
the operation has written over them, its write requests newest first, the granules that a wave has sent, and what arose.
`stopped` says that a read met poison, or that the `budget` of waves is spent. -/
structure Io where
  who : Who
  atelier : Nat
  reqs : List Nat := []
  last : List Nat := []
  wave : Bool := false
  cache : List (Nat × Granule) := []
  wrote : List (Nat × Granule × Granule) := []
  stage : List Req := []
  sent : List Nat := []
  budget : Option Nat := none
  tagged : Bool := false
  arose : Arose := []
  flags : Flags := 0
  oobRead : Nat := 0
  oobWrite : Nat := 0
  stopped : Bool := false
  deriving DecidableEq, Repr

/-- An engine's operation. -/
abbrev Work (s₀ : State) := StateT Io (StateM {s : State // Reach s₀ s})

variable {s₀ : State}

/-- An action on the machine, within an operation. -/
def doing {α : Type} (a : Act s₀ α) : Work s₀ α := liftM (m := StateM {s : State // Reach s₀ s}) a

/-- Raise flags. -/
def raiseFlags (f : Flags) : Work s₀ Unit := modify fun io => { io with flags := io.flags ||| f }

/-- A status arises. -/
def arises (st : Status) (detail : Nat := 0) : Work s₀ Unit :=
  modify fun io => { io with arose := Arose.put io.arose st detail }

/-- Merge masked bits. -/
def blend (old new mask : Granule) : Granule := (old &&& ~~~ mask) ||| (new &&& mask)

/-- The read request sets of a stream of granule requests (R62). -/
def readSets (gs : List Nat) : List (List Nat) :=
  let ns := requestSets gs
  (List.range (ns.foldl max 0 + 1)).map fun k => (gs.zip ns).filterMap fun p => if p.2 = k then some p.1 else none

/-- Cut a list into chunks of `c`. -/
def chunks {α : Type} (c : Nat) (xs : List α) : List (List α) :=
  (List.range ((xs.length + c - 1) / c)).map fun k => (xs.drop (k * c)).take c

/-- The stream of reads ends, and the write set of a wave with it: each set is counted at its palettes (R62, R390). -/
def endStream : Work s₀ Unit := do
  let io ← get
  modify fun io => { io with reqs := [], last := [], cache := [], sent := [], wave := false }
  for gs in (if io.reqs.isEmpty then [] else readSets io.reqs.reverse) ++ chunks 512 io.sent do
    doing (countSet io.who gs)

/-- The stream requests a granule: a request that its last element made too is the same one, and a 513th begins a new set,
which reads its granules again (R62, R63). -/
def request (g : Nat) : Work s₀ Unit :=
  modify fun io =>
    if io.wave ∨ io.last.contains g ∨ io.reqs.head? = some g then io
    else { io with
      reqs := g :: io.reqs
      cache := if io.reqs.length % 512 = 0 then io.cache.filter fun e => io.last.contains e.1 else io.cache }

/-- A transaction tag is held for a request of the operation (R202). -/
def useTag : Work s₀ Unit := modify fun io => { io with tagged := true }

/-- Read a granule; a read that leaves the tile takes a tag (R202). -/
def readFrom (g : Nat) : Work s₀ (Granule × Got) := do
  let io ← get
  match io.who.own, place (64 * g) with
  | some t, .palette k _ => if t = k then pure () else useTag
  | _, _ => useTag
  doing (readGranule io.who g)

/-- Send a granule transfer, which takes a tag until it commits or is refused (R202). -/
def sendTo (g : Nat) (v mask : Granule) (ac : Option Nat) : Work s₀ Got := do
  useTag
  doing (writeGranule (← get).who g v mask ac)

/-- A granule as the operation sees it: read where the request set in progress has not read it, under the bits that the
operation has itself written (R63, R94). -/
def load (g : Nat) : Work s₀ Granule := do
  let io ← get
  let v ← match io.cache.find? fun e => e.1 = g with
    | some e => pure e.2
    | none => do
      let (v, e) ← readFrom g
      modify fun io => { io with cache := (g, v) :: io.cache }
      if e ≠ .ok then arises e.status.1 e.status.2
      if e = .uncorr then modify fun io => { io with stopped := true }
      pure v
  match io.wrote.find? fun e => e.1 = g with
  | some (_, d, m) => pure (blend v d m)
  | none => pure v

/-- The stream requests a granule. -/
def fetch (g : Nat) : Work s₀ Granule := do
  request g
  load g

/-- Read sets in order, each to its end, up to the first that meets poison (R62, R79). -/
def fetchSets : List (List Nat) → Work s₀ Unit
  | [] => pure ()
  | gs :: rest => do
    for g in gs do
      let _ ← load g
    let io ← get
    doing (countSet io.who gs)
    if io.stopped then pure () else fetchSets rest

/-- A wave reads its inputs: its distinct granules, in sets of 512 (R146, R177). -/
def fetchWave (gs : List Nat) : Work s₀ Unit := do
  endStream
  modify fun io => { io with wrote := [], wave := true }
  fetchSets (chunks 512 gs.eraseDups)

/-- `n` bits at a bit address; they lie in one granule. -/
def readBits (b n : Nat) : Work s₀ Nat := do
  let v ← fetch (b / 512)
  pure ((v.toNat >>> (b % 512)) % 2 ^ n)

/-- The raw code and block scale of the element at offset `q`; a vote's code is f·2 + s. -/
def rawAt (t : Tensor) (q : Int) : Work s₀ (Nat × Nat) := do
  let p := t.spotAt q
  let c ← readBits p.bit p.width
  let x ← match p.scale, p.flag with
    | some b, _ => do
      let sc ← readBits b 8
      pure (c, sc)
    | none, some b => do
      let f ← readBits b 1
      pure (c + 2 * f, 0x7f)
    | none, none => pure (c, 0x7f)
  modify fun io => { io with last := p.granules }
  pure x

/-- The raw code and scale that a read of loop index `j` delivers, through the bounds box (R92, R93). -/
def getRaw (t : Tensor) (j : List Nat) : Work s₀ (Nat × Nat) := do
  match t.clamp j with
  | none =>
    modify fun io => { io with oobRead := io.oobRead + 1 }
    pure (t.type.zero, 0x7f)
  | some k =>
    if k ≠ j then modify fun io => { io with oobRead := io.oobRead + 1 }
    rawAt t (t.q k)

/-- The element that a read of loop index `j` delivers (DEDUCED, log entry 27). -/
def getElt (t : Tensor) (j : List Nat) : Work s₀ Elt := do
  let (c, sc) ← getRaw t j
  pure (t.type.decode sc c)

/-- The granules that a read of loop index `j` requests (R62, R92). -/
def Tensor.reads (t : Tensor) (j : List Nat) : List Nat :=
  match t.clamp j with
  | none => []
  | some k => (t.spotAt (t.q k)).granules

/-- Stage a write of `n` bits at a bit address. A run of writes in one granule is one request. -/
def writeBits (b n v : Nat) : Work s₀ Unit :=
  modify fun io =>
    let g := b / 512
    let m : Granule := BitVec.ofNat 512 ((2 ^ n - 1) <<< (b % 512))
    let d : Granule := BitVec.ofNat 512 ((v % 2 ^ n) <<< (b % 512))
    let wrote := match io.wrote.find? fun e => e.1 = g with
      | some (_, d', m') => (g, blend d' d m, m' ||| m) :: io.wrote.filter fun e => e.1 ≠ g
      | none => (g, d, m) :: io.wrote
    let stage := match io.stage with
      | r :: rs => if r.g = g then ⟨g, blend r.data d m, r.mask ||| m⟩ :: rs else ⟨g, d, m⟩ :: r :: rs
      | [] => [⟨g, d, m⟩]
    { io with wrote := wrote, stage := stage }

/-- Stage a raw code at loop index `j`, or suppress and count it outside the box (R93). MX codes go through blocks. -/
def putRaw (t : Tensor) (j : List Nat) (c : Nat) : Work s₀ Unit := do
  if t.inBox j then
    let p := t.spotAt (t.q j)
    writeBits p.bit p.width c
    match p.flag with
    | some b => writeBits b 1 (c / 2)
    | none => pure ()
  else modify fun io => { io with oobWrite := io.oobWrite + 1 }

/-- Stage a converted element at loop index `j` (R48, R49, R93). The element is converted whether or not it is
suppressed; only an element inside the box raises flags. -/
def putElt (t : Tensor) (j : List Nat) (rm : Rm) (sat : Bool) (x : Elt) : Work s₀ Unit := do
  let (c, fl) := t.type.encode rm sat x
  if t.inBox j then raiseFlags fl
  putRaw t j c

/-- The blocks of a dense MX tensor, which is laid out as R41 numbers them: none where its strides are others. -/
def Tensor.blocks (t : Tensor) : Option Nat :=
  let rows := (t.extent 0 + 31) / 32
  let dense := (List.range 5).all fun d => d = 0 || t.extent d ≤ 1
    || t.stride.getD d 0 = ((32 * rows * ((t.ext.take d).drop 1).foldl (· * ·) 1 : Nat) : Int)
  if t.type.isMx ∧ dense ∧ t.count ≠ 0 then some (rows * (t.ext.drop 1).foldl (· * ·) 1) else none

/-- Stage `n` bits from a bit address on, a granule at a time: `f` gives the bit at an address. -/
def writeRun (f : Nat → Bool) (b : Nat) : Nat → Nat → Work s₀ Unit
  | 0, _ => pure ()
  | fuel + 1, n => do
    if n = 0 then pure ()
    else
      let k := min n (512 - b % 512)
      writeBits b k ((List.range k).foldl (fun a i => a + if f (b + i) then 2 ^ i else 0) 0)
      writeRun f (b + k) fuel (n - k)

/-- The last block of a dense MX tensor brings the rest of its group: elements of +0 and scales of 0x7F (R41) (DEDUCED, log
entry 77). -/
def padGroup (t : Tensor) (blk : Int) : Work s₀ Unit := do
  match t.blocks with
  | none => pure ()
  | some n =>
    if blk + 1 = n ∧ n % 64 ≠ 0 then
      let p := t.spotAt (32 * (blk + 1))
      writeRun (fun _ => false) p.bit 40 ((64 - n % 64) * 32 * p.width)
      match p.scale with
      | some b => writeRun (fun x => x % 8 ≠ 7) b 2 (8 * (64 - n % 64))
      | none => pure ()

/-- One element of a visit to an MX block: its position in the block, its value and its rounding. -/
abbrev Visit := List (Nat × Val × Rm)

/-- Encode and stage one visit to block `blk`: positions that it does not name take +0 (R42, R427). -/
def putBlock (t : Tensor) (blk : Int) (vs : Visit) : Work s₀ Unit := do
  let full : List (Val × Rm) := (List.range 32).map fun i =>
    match vs.find? fun e => e.1 = i with
    | some (_, v, r) => (v, r)
    | none => (.fin false 0 0, .rne)
  let (sc, codes, fl) := encodeBlock t.type full
  raiseFlags fl
  let p := t.spotAt (32 * blk)
  for (c, i) in codes.zipIdx do
    writeBits (p.bit + i * p.width) p.width c
  match p.scale with
  | some b => writeBits b 8 sc
  | none => pure ()
  padGroup t blk

/-- The visit that an element of an MX destination belongs to: its block, and its outer loop index (R427). -/
def visitKey (t : Tensor) (j : List Nat) : Int × List Nat := (t.q j / 32, j.drop 1)

/-- Cut a list into runs of elements of one key. -/
def runsBy {α β : Type} [DecidableEq β] (key : α → β) : List α → List (List α)
  | [] => []
  | x :: xs =>
    match runsBy key xs with
    | [] => [[x]]
    | [] :: rest => [x] :: rest
    | (y :: ys) :: rest => if key x = key y then (x :: y :: ys) :: rest else [x] :: (y :: ys) :: rest

/-- How many of the first `n` elements of a list lie in its runs that end within them. -/
def wholeRuns {α : Type} : List (List α) → Nat → Nat
  | [], _ => 0
  | r :: rs, n => if r.length ≤ n then r.length + wholeRuns rs (n - r.length) else 0

/-- Group elements of an MX destination, in canonical order, into visits of blocks (R427). -/
def visits (t : Tensor) (es : List (List Nat × Val × Rm)) : List (Int × Visit) :=
  (runsBy (fun e => visitKey t e.1) es).filterMap fun r => r.head?.map fun e =>
    (t.q e.1 / 32, r.map fun x => ((t.q x.1 % 32).toNat, x.2.1, x.2.2))

/-- Stage converted elements, in order, into a destination of any type; `es` gives each its loop index, element and
rounding. Whole visits of an MX destination are encoded together. -/
def putAll (t : Tensor) (sat : Bool) (es : List (List Nat × Elt × Rm)) : Work s₀ Unit := do
  if t.type.isMx then
    for (j, _, _) in es do
      if !t.inBox j then modify fun io => { io with oobWrite := io.oobWrite + 1 }
    let ins := es.filter fun e => t.inBox e.1
    for (b, vs) in visits t (ins.map fun e => (e.1, e.2.1.val, e.2.2)) do
      putBlock t b vs
  else
    for (j, x, r) in es do
      putElt t j r sat x

/-- Add a request to the transfers of its set: requests of one set that name one granule make one transfer (R62, R63). -/
def addReq : List Req → Req → List Req
  | [], r => [r]
  | x :: xs, r => if x.g = r.g then ⟨x.g, blend x.data r.data r.mask, x.mask ||| r.mask⟩ :: xs else x :: addReq xs r

/-- The transfers of each request set of a stream of write requests, merged (R62, R63) (DEDUCED, log entry 24). -/
def writeSets (rs : List Req) : List (List Req) :=
  let ns := requestSets (rs.map Req.g)
  (List.range (ns.foldl max 0 + 1)).map fun k =>
    ((rs.zip ns).filterMap fun p => if p.2 = k then some p.1 else none).foldl addReq []

/-- The transfers of a stream of write requests. -/
def transfers (rs : List Req) : List Req := (writeSets rs).flatten

/-- Commit the transfers of one request set, in order, naming a counter; refused granules give their status (R67, R82). -/
def commitSet (ac : Option Nat) (rs : List Req) : Work s₀ Unit := do
  let io ← get
  for r in rs do
    let e ← sendTo r.g r.data r.mask ac
    if e ≠ .ok then arises e.status.1 e.status.2
  doing (countSet io.who (rs.map Req.g))

/-- Commit everything staged, in order (DEDUCED, log entry 24). -/
def commitStaged (ac : Option Nat) : Work s₀ Unit := do
  let io ← get
  modify fun io => { io with stage := [] }
  for rs in writeSets io.stage.reverse do
    commitSet ac rs

/-- Read 128 bytes of a record, or `n` granules of a block, at an address within the atelier's memory: none where the
read fails, with its status (R87, R145). -/
def readWhole (a n : Nat) : Work s₀ (Option Nat) := do
  let io ← get
  let s ← doing now
  if a % 64 ≠ 0 ∨ !s.allowed io.atelier a (a + 64 * n - 1) then
    arises .accessDenied 3
    pure none
  else
    let mut v : Nat := 0
    let mut good := true
    for k in List.range n do
      let (d, e) ← readFrom (a / 64 + k)
      if e ≠ .ok then
        arises e.status.1 e.status.2
        good := false
      v := v + d.toNat * 2 ^ (512 * k)
    pure (if good then some v else none)

end Sys2Proof.Machine
end

