-- ==== Sys2Proof/Machine/Slots.lean ====
section
/-! DEFINITION. Delivered descriptors: their engines, running an operation for one, fixing its status, completing and
retiring it (R183, R194, R196 to R204). -/

namespace Sys2Proof.Machine

variable {s₀ : State}

/-! ### Finding and changing slots -/

/-- Take a slot out. -/
def dropSlot (id : Nat) : Act s₀ Unit :=
  changeRings fun r => { r with slots := r.slots.filter fun d => d.id ≠ id }

/-- The descriptor that an engine has in progress and not yet brought to its end. -/
def State.working (s : State) (e : Engine) : Option Slot :=
  s.slots.find? fun d => d.on = some e && d.phase = .issued

/-- An engine has a descriptor in progress. -/
def State.busy (s : State) (e : Engine) : Bool :=
  s.slots.any fun d => d.on = some e && (d.phase = .issued || d.phase = .done)

/-- The descriptors that an engine has in progress. -/
def State.onEngine (s : State) (e : Engine) : List Slot :=
  s.slots.filter fun d => d.on = some e && (d.phase = .issued || d.phase = .done)

/-- A field [hi:lo] of the descriptor body's word `k` (R191: the body starts at byte 16). -/
def body (w : Descriptor) (k hi lo : Nat) : Nat := dBits w (128 + 64 * k + hi) (128 + 64 * k + lo)

/-- HALF of MX_PRODUCT (R108). -/
def halfOf (w : Descriptor) : Half :=
  match body w 4 59 58 with
  | 1 => .left
  | 2 => .right
  | _ => .whole

/-- The engine that a descriptor runs on (R183, R194). -/
def engineOf (target : Nat) (w : Descriptor) : Engine :=
  if h : target < 64 then
    let t : TileNo := ⟨target, h⟩
    let op := opcodeOf w
    if op = 0x20 then .mx t (halfOf w)
    else if op = 0x28 ∨ op = 0x30 ∨ op = 0x31 then .ve t
    else if op = 0x10 ∨ op = 0x11 ∨ op = 0x18 ∨ op = 0x19 ∨ op = 0x1A then .copy t
    else .seq t
  else if h : 0x40 ≤ target ∧ target < 0x50 then .die ⟨target - 0x40, by omega⟩
  else if target = 0x50 then .coll 0
  else if target = 0x51 then .coll 1
  else if target = 0x52 then .fixative
  else .power

/-- The tile whose palette an engine reaches as its own. -/
def ownTile : Engine → Option Nat
  | .mx t _ | .ve t | .copy t | .seq t => some t.val
  | _ => none

/-! ### Registers that an engine's work counts in (R54, R104, R279, R306) -/

/-- Suppressed writes, in elements or granules (DEDUCED, log entry 27). -/
def countOob (e : Engine) (writes reads : Nat) : Act s₀ Unit :=
  match e with
  | .mx t _ | .ve t | .copy t | .seq t => do
    countUp SEQ_OOB_WRITE_COUNT_COUNT writes t
    countUp SEQ_OOB_READ_COUNT_COUNT reads t
  | .die n => do
    countUp VAR_OOB_WRITE_COUNT_COUNT writes n
    countUp VAR_OOB_READ_COUNT_COUNT reads n
  | .coll y => do
    countUp COLL_OOB_WRITE_COUNT_COUNT writes y
    countUp COLL_OOB_READ_COUNT_COUNT reads y
  | .fixative => do
    countUp COLL_OOB_WRITE_COUNT_COUNT writes 0
    countUp COLL_OOB_READ_COUNT_COUNT reads 0
  | .power => pure ()

/-- The sticky exception register of an engine takes a descriptor's flags (R54); those of NORM and SOFTMAX go to
SFU.FLAGS (R178). -/
def stickyFlags (d : Slot) (e : Engine) (fl : Flags) : Act s₀ Unit :=
  let orIn (f : Fld) (i : Nat) : Act s₀ Unit := do
    let v ← fld f i
    setF f (v ||| fl.toNat) i
  match e with
  | .mx t _ => orIn MX_FLAGS_FLAGS t
  | .ve t => if opcodeOf d.words = 0x28 then orIn VE_FLAGS_FLAGS t else orIn SFU_FLAGS_FLAGS t
  | .die n => orIn VAR_FLAGS_FLAGS n
  | _ => pure ()

/-- The UNIT code of an engine (R390). -/
def engineUnit : Engine → Nat
  | .mx _ .right => 1
  | .mx _ _ => 0
  | .ve _ => 2
  | .copy _ => 4
  | _ => 6

/-- The source that an engine's transfers count as (R69). -/
def engineSource : Engine → Option Source
  | .mx t _ | .ve t | .copy t | .seq t => some (.tile t)
  | .die n => some (.varnish n)
  | .coll y => some (.yuna y)
  | .fixative | .power => none

/-- Who an engine's accesses for a descriptor are made by. -/
def whoFor (e : Engine) (d : Slot) : Who :=
  { own := ownTile e, slot := some d, unit := engineUnit e, src := engineSource e }

/-! ### Launch comparators (R227 to R233) -/

/-- The comparators of a target (R231). -/
def comparators (target : Nat) : Nat :=
  if target < 0x40 then 4 else if target < 0x50 then 8 else if target < 0x52 then 16 else 4

/-- A stamped descriptor delivered and not yet launched. -/
def Slot.unlaunched (d : Slot) : Bool :=
  stampOf d.words ≠ 0 && !d.launched && (d.phase = .delivered || d.phase = .issued)

/-- LC3 of tile `t` is lent to its window edge. -/
def State.lentLc3 (s : State) (t : Nat) : Bool := s.units.pmc.lent.contains t

/-- The lowest comparator of a target that no descriptor holds. -/
def State.freeLc (s : State) (target : Nat) : Option Nat :=
  firstBelow (comparators target) fun n => !(s.slots.any fun d => d.target = target && d.lc = some n)

/-- A descriptor's stamp has been reached by its target's replica (R227). -/
def State.stampPast (s : State) (d : Slot) : Bool := 0 ≤ sdiff (s.now40 d.target) (stampOf d.words) 40

/-- Where a window's next edge lies, in ticks after its open, and whether it is the close (R398). -/
def PmcWindow.edge (w : PmcWindow) : Nat × Bool :=
  if w.point ≠ 0 ∧ w.next * w.point < w.duration then (w.next * w.point, false) else (w.duration, true)

/-- How many ticks ago the window's next edge fell; negative where it lies ahead. -/
def State.edgeAge (s : State) (w : PmcWindow) : Int := sdiff (s.replica w.tile) w.opened 64 - (w.edge.1 : Int)

/-- The edge to which LC3 of tile `t` is lent has its time: it fires before any recall (R233). -/
def State.edgeDue (s : State) (t : Nat) : Bool :=
  s.lentLc3 t && (s.units.pmc.windows.find? fun w => w.tile = t).any fun w => 0 ≤ s.edgeAge w

/-- The loan of LC3 ends; its edge waits to be re-armed (R233). -/
def recallLoan (t : Nat) : Act s₀ Unit :=
  change fun u =>
    let first := u.pmc.windows.find? fun w => w.tile = t
    if u.pmc.lent.contains t then
      { u with pmc := { u.pmc with
        lent := u.pmc.lent.filter (· ≠ t),
        windows := u.pmc.windows.map fun x =>
          if some x.slot = first.map PmcWindow.slot then { x with recalled := true } else x } }
    else u

/-- LC3 is lent to the first window of a tile where the loan is permitted (R233). An edge that is re-armed slips where its
time is past already. -/
def lendLc3 (t : Nat) : Act s₀ Unit := do
  let s ← now
  match s.units.pmc.windows.find? fun w => w.tile = t with
  | none => pure ()
  | some w =>
    if !s.lentLc3 t && (s.slots.filter fun d => d.target = t && d.unlaunched).length < 4
        && !(s.slots.any fun d => d.target = t && d.lc = some 3) then
      let late := w.recalled && decide (0 < s.edgeAge w)
      change fun u => { u with pmc := { u.pmc with
        lent := setIns u.pmc.lent t,
        windows := u.pmc.windows.map fun x => if x.slot = w.slot then { x with recalled := late } else x } }

/-- Arm one stamped descriptor on the lowest free comparator; a stamp already past is reached at once (R228, R231). -/
def armStamp (id : Nat) : Act s₀ Unit := do
  let s ← now
  match s.slot id with
  | none => pure ()
  | some d =>
    match s.freeLc d.target with
    | none => pure ()
    | some n =>
      if d.target < 64 ∧ n = 3 ∧ s.edgeDue d.target then pure ()
      else
      if d.target < 64 ∧ n = 3 then recallLoan d.target
      withSlot id fun x => { x with lc := some n, stampMet := s.stampPast d }

/-- Arm the stamped descriptors of a target that wait for a comparator, in delivery order, and lend LC3 (R231, R233). -/
def armStamps (target : Nat) : Act s₀ Unit := do
  let s ← now
  each (s.slots.filter fun d => d.target = target && d.lc.isNone && d.unlaunched) fun d => armStamp d.id
  if target < 64 then
    if 4 ≤ (s.slots.filter fun d => d.target = target && d.unlaunched).length && !s.edgeDue target then recallLoan target
    lendLc3 target

/-- A recall of LC3 that a due edge held up takes effect (R233). -/
def settleLoans : Act s₀ Unit := do
  each (← now).units.pmc.lent armStamps

/-- Comparators have come free, and LC3 with them: every target arms what waits (R231, R233). -/
def rearm : Act s₀ Unit := each (List.range 0x54) armStamps

/-- A step of the count acts on every armed comparator (R224). -/
def settleStamps : Act s₀ Unit := do
  let s ← now
  changeRings fun r => { r with slots := r.slots.map fun d =>
    if d.lc.isSome ∧ d.unlaunched ∧ s.stampPast d then { d with stampMet := true } else d }

/-- The launch of a stamped descriptor: its lateness and the freeing of its comparator (R229 to R231). -/
def launch (id : Nat) : Act s₀ Unit := do
  let s ← now
  match s.slot id with
  | none => pure ()
  | some d =>
    if d.unlaunched then
      let l := sdiff (s.now40 d.target) (stampOf d.words) 40
      withSlot id fun x => { x with
        lc := none
        launched := true
        arose := if 1000 < l then Arose.put x.arose .lateLaunch (min (l.toNat / 1024) 0xffffff) else x.arose }
      change fun u => { u with plant := { u.plant with standing := u.plant.standing.filter (· ≠ d.target) } }
      if 1000 < l ∧ d.target < 64 then
        countUp SEQ_LATE_COUNT_COUNT 1 d.target
        tally d.target evLate [] 1 { slot := some d, ticks := some l.toNat }
      armStamps d.target

/-! ### Running an operation -/

/-- What an operation leaves in its descriptor: its statuses, flags and counts; OOB_WRITE where it suppressed a write
(R93). -/
def absorb (d : Slot) (e : Engine) (io : Io) : Act s₀ Unit := do
  countOob e io.oobWrite io.oobRead
  match ownTile e with
  | some t => tally t evOobWrite [] io.oobWrite { slot := some d }
  | none => pure ()
  stickyFlags d e io.flags
  if io.tagged then notePeak
  let extra : Arose := if io.oobWrite = 0 then io.arose else Arose.put io.arose .oobWrite 0
  let s ← now
  withSlot d.id fun x => { x with arose := Arose.join x.arose extra, flags := x.flags ||| io.flags,
                                  moved := s.clock d.target, reported := false, tagless := false }

/-- Run an operation for a descriptor and leave its results in the slot. -/
def runFor (d : Slot) (e : Engine) {α : Type} (w : Work s₀ α) : Act s₀ α := do
  let (x, io) ← (do
    let x ← w
    endStream
    pure x : Work s₀ α).run { who := whoFor e d, atelier := d.atelier }
  absorb d e io
  pure x

/-- The stall age of a descriptor: the ticks since its engine last advanced, up to 0xFFFF_FFFF (R119, R150) (DEDUCED, log
entry 33). -/
def State.stallAge (s : State) (d : Slot) : Nat := min (sdiff (s.clock d.target) d.moved 64).toNat 0xffffffff

/-- The descriptor's work is over and its status fixed (R203). -/
def finish (id : Nat) : Act s₀ Unit := withSlot id fun d => { d with phase := .done }

/-- An engine goes on with a descriptor that finds a transaction tag free; without one it freezes with a request held,
which is counted once (R202, R353) (DEDUCED, log entry 90). -/
def tagged (d : Slot) (a : Act s₀ Unit) : Act s₀ Unit := do
  if (← now).tagFree (some d.atelier) then a
  else if !d.tagless then
    countTagWait (some d.atelier)
    withSlot d.id fun x => { x with tagless := true }

/-- The whole of a descriptor's work on its engine in one command: it must be in progress there with one of the
opcodes. -/
def wholeRun (e : Engine) (ops : List Nat) (w : Slot → Work s₀ Unit) : Act s₀ Unit := do
  match (← now).working e with
  | some d =>
    if ops.contains (opcodeOf d.words) then
      tagged d do
        runFor d e (w d)
        finish d.id
  | none => pure ()

/-! ### Retirement (R203, R204) -/

/-- Walk RETIRED over the completed positions. -/
def walkRetired (done : List (Nat × Nat)) (r : Nat) : Nat → Nat → Nat
  | 0, p => p
  | n + 1, p => if done.contains (r, p) then walkRetired done r n ((p + 1) % 2 ^ 32) else p

/-- A group's mirror has something new to say (R188). -/
def markDirty (g : Nat) : Act s₀ Unit := changeRings fun u => { u with dirty := setIns u.dirty g }

/-- Set a ring's STATE and note it for the mirror. -/
def setRingState (r v : Nat) : Act s₀ Unit := do
  setF RING_STATE_STATE v r
  markDirty (r / 64)

/-- A stopping ring with nothing left in progress becomes DISABLED (R190). -/
def settleStopping (r : Nat) : Act s₀ Unit := do
  let s ← now
  if s.fld RING_STATE_STATE r = 3 ∧ !(s.slots.any fun d => d.ring = r && d.phase ≠ .recorded) then
    setRingState r 0

/-- The descriptors before a slot in its own ring that fences count (R198). -/
def State.before (s : State) (d : Slot) : List Slot :=
  s.slots.filter fun x => x.ring = d.ring && x.id ≠ d.id && !x.old && sdiff x.pos d.pos 32 < 0

/-- FENCE_HOST's read may start: everything earlier has completed, and its records and the mirror are written (R198). -/
def State.hostFenceReady (s : State) (d : Slot) : Bool :=
  d.phase = .delivered && dBits d.words 11 11 = 1 && d.fence = .none && (s.before d).isEmpty
    && !s.units.rings.dirty.contains (d.ring / 64)

/-- No descriptor before a position of a ring has been delivered since the ring was last enabled: a fence there is met at
once (R198, R200). -/
def State.leads (s : State) (d : Slot) : Bool :=
  (s.before d).isEmpty && (s.units.rings.starts.any fun e => e.1 = d.ring && e.2 = s.fld RING_RETIRED_RETIRED d.ring)
    && !(s.units.rings.retDone.any fun e => e.1 = d.ring && sdiff e.2 d.pos 32 < 0)

/-- Non-posted requests outstanding on a port, at most 768 (R336). -/
def State.asked (s : State) (p : Nat) : Nat := mapGet (fun _ => 0) s.units.rings.asked p
def State.portRoom (s : State) (p : Nat) : Bool := s.asked p < 768

/-- Every host read of a request may go out. -/
def State.mayAsk (s : State) (what : List Out) : Bool := what.all fun o => match o with
  | .hostRead p _ _ => s.portRoom p
  | _ => true

/-- Change the number of requests outstanding on a port. -/
def countAsked (p : Nat) (f : Nat → Nat) : Act s₀ Unit :=
  changeRings fun r => { r with asked := mapSet (fun _ => 0) r.asked p (f (mapGet (fun _ => 0) r.asked p)) }

/-- Send outside, a read of host memory with its count. -/
def sendAsk (o : Out) : Act s₀ Unit := do
  match o with
  | .hostRead p _ _ => countAsked p (· + 1)
  | _ => pure ()
  send o

/-- A read of host memory by `owner`, through port `p`, is over: its tag is free (R202). -/
def answered (owner : Option Nat) (p : Nat) : Act s₀ Unit := do
  freeTag owner
  countAsked p (· - 1)

/-- The host read of a fence (R201): of the doorbell page of its descriptor's group (DESIGN CHOICE, log entry 95). -/
def State.fenceRead (s : State) (d : Slot) : Out :=
  .hostRead (Fin.ofNat 4 (s.portOf d.atelier)) (s.held (GRP_DB_ADDR.addr (d.ring / 64) 0) &&& ~~~ 0xfff) 8

/-- The host read of a fence goes out with a transaction tag, or is held for one (R201, R202) (DEDUCED, log entry 36). -/
def readFence (d : Slot) : Act s₀ Unit := do
  let s ← now
  if s.tagFree (some d.atelier) && s.mayAsk [s.fenceRead d] then
    takeTag (some d.atelier)
    withSlot d.id fun x => { x with fence := .reading }
    sendAsk (s.fenceRead d)
  else
    if !s.tagFree (some d.atelier) then countTagWait (some d.atelier)
    withSlot d.id fun x => { x with fence := .held }
    changeRings fun r => { r with tagWaits := r.tagWaits ++ [{ atelier := some d.atelier, what := [], fence := some d.id }] }

/-- Start the host reads of the fences that have become ready (R201). -/
def settleFences : Act s₀ Unit := do
  let s ← now
  each (s.slots.filter fun d => s.hostFenceReady d) readFence

/-- A position of a ring has completed: RETIRED moves past it when every earlier position has (R203). -/
def retire (r pos : Nat) : Act s₀ Unit := do
  let s ← now
  let ret := s.fld RING_RETIRED_RETIRED r
  if 0 ≤ sdiff pos ret 32 then
    let done := (r, pos) :: s.units.rings.retDone
    let p := walkRetired done r done.length ret
    changeRings fun u => { u with retDone := done.filter fun e => e.1 ≠ r || 0 ≤ sdiff e.2 p 32 }
    if p ≠ ret then
      setF RING_RETIRED_RETIRED p r
      markDirty (r / 64)
      settleWaits
      settleFences

/-- A record is asked for: CR, IRQ, or a status of class F (R204). -/
def Slot.records (d : Slot) : Bool :=
  dBits d.words 12 12 = 1 || dBits d.words 13 13 = 1 || (Arose.first d.arose).1.isFault

/-- The completion record of a descriptor, formed now (R204). -/
def State.completion (s : State) (d : Slot) : CqRecord :=
  let (st, detail) := Arose.first d.arose
  { group := d.ring / 64, slot := some d.id, irq := dBits d.words 13 13 = 1, fault := st.isFault,
    bits := cqBits 0 d.ring d.pos st.code d.flags (opcodeOf d.words) d.start (Arose.set d.arose) (s.now40 d.target) detail }

/-- A descriptor completes: its comparator is freed; its record waits for the CQ, or it retires silently (R204). -/
def completeSlot (id : Nat) : Act s₀ Unit := do
  let s ← now
  match s.slot id with
  | none => pure ()
  | some d =>
    if d.target < 64 then
      tally d.target evDescDone ((d.on.map engineUnit).toList.filter (· < 5)) 1
        { slot := some d, ticks := some ((sdiff (s.now40 d.target) d.start 40).toNat) }
    if d.records then
      withSlot id fun x => { x with phase := .recorded, lc := none, on := none }
      queueRecord (s.completion d)
    else
      dropSlot id
      retire d.ring d.pos
    armStamps d.target
    settleStopping d.ring
    settleFences

/-- A descriptor completes at once with a status. -/
def completeWith (id : Nat) (arose : Arose) : Act s₀ Unit := do
  withSlot id fun d => { d with arose := Arose.join d.arose arose, phase := .done }
  completeSlot id

end Sys2Proof.Machine
end

