-- ==== Sys2Proof/Machine/Prepare.lean ====
section
/-! DEFINITION. The checks that a descriptor's body meets at issue, and the records that it reads then (R87, R90, R192);
draws of a descriptor's grain generator (R51, R196); and streams of element reads that stop at a poisoned request set
(R79). -/

namespace Sys2Proof.Machine

variable {s₀ : State}

/-- Preparing a descriptor: its checks note the statuses that arise, and it fails, or ends with the raw records it has read.
-/
abbrev Prep (s₀ : State) := OptionT (Work s₀)

/-- The body fails with a status. -/
def failWith {α : Type} (st : Status) (detail : Nat) : Prep s₀ α := do
  OptionT.lift (arises st detail)
  failure

/-- A check of the body: where it fails its status arises, and the further checks are made (R192). -/
def check (st : Status) (detail : Nat) (ok : Bool) : Prep s₀ Unit :=
  if ok then pure () else OptionT.lift (arises st detail)

/-- The body is malformed (R192). -/
def malformed {α : Type} : Prep s₀ α := failWith .malformed 5

/-- The body is malformed unless the condition holds. -/
def demand (ok : Bool) : Prep s₀ Unit := check .malformed 5 ok

/-- The access is refused unless the condition holds (R17). -/
def permit (ok : Bool) : Prep s₀ Unit := check .accessDenied 3 ok

/-- Checks whose failure leaves the further ones to be made: what they give, where they give it (R192) (DEDUCED, log entry
34). -/
def attempt {α : Type} (p : Prep s₀ α) : Prep s₀ (Option α) := OptionT.lift p.run

/-- Go on only where no check has failed (R192). -/
def sound : Prep s₀ Unit := do
  if (← OptionT.lift get).arose.isEmpty then pure () else failure

/-- Read a block of `n` granules whole, with the status of a read that fails (R87, R114). -/
def readBlock (a n : Nat) : Prep s₀ Nat := do
  match ← OptionT.lift (readWhole a n) with
  | some v => pure v
  | none => failure

/-- Read the record that a tensor reference names (R87). -/
def readRef (ref : Nat) : Prep s₀ Nat :=
  if ref ≠ 0 ∧ ref < 2 ^ 48 ∧ ref % 64 = 0 then readBlock ref 2 else malformed

/-- The tensor of a raw record; malformed as R86 says. -/
def tensorOf (rec : Nat) : Prep s₀ Tensor := do
  match parseTensor rec with
  | some t => pure t
  | none => malformed

/-- Read the records that tensor references name, all of them whatever becomes of one, with their tensors (R87, R192). -/
def readTensors : List Nat → Prep s₀ (List (Nat × Tensor))
  | [] => pure []
  | ref :: refs => do
    let x ← OptionT.lift (do
      let r ← readRef ref
      let t ← tensorOf r
      pure (r, t) : Prep s₀ (Nat × Tensor)).run
    let xs ← OptionT.lift (readTensors refs).run
    match x, xs with
    | some x, some xs => pure (x :: xs)
    | _, _ => failure

/-- R90's check of one tensor of the descriptor. -/
def permitTensor (t : Tensor) (write : Bool) : Prep s₀ Unit := do
  let io ← OptionT.lift get
  let s ← OptionT.lift (doing now)
  permit (s.mayAccess io.atelier t write)

/-- Bytes `lo` to `hi` belong to the descriptor's atelier (R342, R346). -/
def permitBytes (lo hi : Nat) : Prep s₀ Unit := do
  let io ← OptionT.lift get
  let s ← OptionT.lift (doing now)
  permit (s.allowed io.atelier lo hi)

/-- The counter that a descriptor names belongs to its atelier: counter `ac` of the tile that holds `base` (R346). -/
def permitCounter (base : Nat) (ac : Option Nat) : Prep s₀ Unit := do
  let io ← OptionT.lift get
  let s ← OptionT.lift (doing now)
  match ac, place base with
  | some n, .palette t _ => permit (s.ownsCounter io.atelier t n)
  | _, _ => pure ()

/-- The body words from word `k` on are all zero. -/
def zeroFrom (w : Descriptor) (k : Nat) : Bool := (w.toNat >>> (128 + 64 * k)) == 0

/-- The tensor that a record read at issue holds. A descriptor that has issued named only well-formed records. -/
def Slot.tensor (d : Slot) (k : Nat) : Tensor :=
  (parseTensor (d.recs.getD k 0)).getD ⟨1, .fp32, 0, [0, 1, 1, 1, 1], [0, 0, 0, 0, 0], [0, 0, 0, 0, 0], [0, 1, 1, 1, 1]⟩

/-- The counter that AC_EN and AC_INDEX name, in a body word whose low 16 bits hold them (R68). -/
def acOf (w : Descriptor) (k : Nat) : Option Nat := if body w k 15 15 = 1 then some (body w k 9 0) else none

/-- The draw of a descriptor at tile number, site and element index (R51, R196). -/
def Slot.draw (d : Slot) (tile site e : Nat) : Nat := (grain (grainCtr tile site e) d.ctx.seed d.ctx.keyHi).toNat

/-! ### Streams of reads -/

/-- The requests of elements that request the listed granules: one that the last element with a request already made is the
same request. -/
def newRequests : List Nat → List (List Nat) → List (List Nat)
  | _, [] => []
  | prev, gs :: rest => (gs.filter fun g => !prev.contains g) :: newRequests (if gs.isEmpty then prev else gs) rest

/-- Give each element the set of its last request, from the sets of all requests in order. -/
def setsOf : Nat → List Nat → List (List Nat) → List Nat
  | _, _, [] => []
  | cur, sets, gs :: rest =>
    let mine := sets.take gs.length
    let k := mine.getLastD cur
    k :: setsOf k (sets.drop gs.length) rest

/-- The request set of each element of a stream (R62). -/
def elementSets (gss : List (List Nat)) : List Nat :=
  let reqs := newRequests [] gss
  setsOf 0 (requestSets reqs.flatten) reqs

/-- How many elements of a stream come before the request set of element `n` (R79). -/
def servedBefore (gss : List (List Nat)) (n : Nat) : Nat :=
  let sets := elementSets gss
  match sets[n]? with
  | some k => (sets.takeWhile fun x => x < k).length
  | none => gss.length

/-- Read elements in order, raw, until a read meets poison; `none` stands for an element that reads +0. -/
def readRaws (t : Tensor) (z : Nat) : List (Option (List Nat)) → Work s₀ (List (Nat × Nat))
  | [] => pure []
  | j :: js => do
    let x ← match j with
      | some i => getRaw t i
      | none => pure (z, 0x7f)
    if (← get).stopped then pure []
    else
      let xs ← readRaws t z js
      pure (x :: xs)

/-- The granules of the request set that element `n` of a stream completes. -/
def faultingSet (gss : List (List Nat)) (n : Nat) : List Nat :=
  let reqs := (newRequests [] gss).flatten
  match (elementSets gss)[n]? with
  | some k => (reqs.zip (requestSets reqs)).filterMap fun p => if p.2 = k then some p.1 else none
  | none => []

/-- Read a stream of elements: those of the request sets before the one that met poison, which is read to its end (R79)
(DEDUCED, log entry 27). -/
def readStream (t : Tensor) (js : List (Option (List Nat))) : Work s₀ (List (Nat × Nat)) := do
  let xs ← readRaws t t.type.zero js
  if xs.length = js.length then
    endStream
    pure xs
  else
    let gss := js.map fun j => match j with
      | some i => t.reads i
      | none => []
    for g in faultingSet gss xs.length do
      let _ ← fetch g
    endStream
    pure (xs.take (servedBefore gss xs.length))

end Sys2Proof.Machine
end

