-- ==== Sys2Proof/Machine/CopyUnit.lean ====
section
/-! DEFINITION. The tile's copy unit: PAL_FILL and PAL_COPY (R74 to R76), TENSOR_COPY, TENSOR_GATHER and TENSOR_SCATTER
(R95, R97 to R104, R427). -/

namespace Sys2Proof.Machine

variable {s₀ : State}

/-! ### PAL_FILL and PAL_COPY -/

/-- The granules of a range that lie in the palette of tile `t` are the atelier's (R342, R346). -/
def permitGranules (t first n : Nat) : Prep s₀ Unit :=
  if n = 0 ∨ palGranules ≤ first then pure ()
  else permitBytes (64 * (palFirst t + first)) (64 * (palFirst t + min (first + n) palGranules) - 1)

/-- The reserved bits of a PAL_FILL or PAL_COPY body are 0, and its granules and counter are the atelier's (R74 to R76,
R346). -/
def prepPal (fill : Bool) (t : Nat) (w : Descriptor) : Prep s₀ (List Nat) := do
  demand (body w 0 63 52 = 0 && body w 0 31 20 = 0 && body w 2 63 16 = 0 && body w 2 14 10 = 0 && zeroFrom w 3)
  demand (fill || body w 1 63 20 = 0)
  let n := body w 0 51 32
  permitGranules t (body w 0 19 0) n
  if fill then pure ()
  else
    let src := min (body w 1 19 0) (palGranules - 1)
    permitGranules t src n
  permitCounter (paletteBase t) (acOf w 2)
  pure []

/-- A PATTERN repeated eight times (R74). -/
def patternGranule (p : Nat) : Granule :=
  BitVec.ofNat 512 ((List.range 8).foldl (fun a k => a + p % 2 ^ 64 * 2 ^ (64 * k)) 0)

/-- Statuses of a granule's write (DEDUCED, log entry 70). -/
def noteGot (e : Got) : Work s₀ Unit := if e = .ok then pure () else arises e.status.1 e.status.2

/-- PAL_FILL (R74, R76). Its sets are cut at lines, so each takes one beat. -/
def palFillWork (t : Nat) (d : Slot) : Work s₀ Unit := do
  let w := d.words
  let dst := body w 0 19 0
  for k in List.range (body w 0 51 32) do
    if palGranules ≤ dst + k then modify fun io => { io with oobWrite := io.oobWrite + 1 }
    else noteGot (← sendTo (palFirst t + dst + k) (patternGranule (body w 1 63 0)) fullMask (acOf w 2))

/-- Read the granules of one request set, each distinct one once: data, and whether the granule is poisoned; a gate that is
not OPEN gives +0 with DARK_BANK (R63, R76). -/
def palSet : List (Nat × Granule × Bool) → List Nat → Work s₀ (List (Granule × Bool))
  | _, [] => pure []
  | seen, g :: gs => do
    let x ← match seen.find? fun e => e.1 = g with
      | some e => pure e.2
      | none => do
        let (v, e) ← readFrom g
        noteGot e
        let s ← doing now
        pure (if e = .uncorr then (s.granule g, true) else (v, false))
    let xs ← palSet ((g, x) :: seen) gs
    pure (x :: xs)

/-- Read the source granules of a copy, request set by request set (R62, R76). -/
def palSources : List (List Nat) → Work s₀ (List (Granule × Bool))
  | [] => pure []
  | gs :: rest => do
    let xs ← palSet [] gs
    doing (countSet (← get).who gs)
    let ys ← palSources rest
    pure (xs ++ ys)

/-- PAL_COPY: as if every source granule were read before any destination granule is written (R75, R76) (DEDUCED, log
entry 70). -/
def palCopyWork (t : Nat) (d : Slot) : Work s₀ Unit := do
  let w := d.words
  let dst := body w 0 19 0
  let who := (← get).who
  let xs ← palSources (readSets ((List.range (body w 0 51 32)).map fun k =>
    palFirst t + min (body w 1 19 0 + k) (palGranules - 1)))
  for ((v, bad), k) in xs.zipIdx do
    if palGranules ≤ dst + k then modify fun io => { io with oobWrite := io.oobWrite + 1 }
    else
      let g := palFirst t + dst + k
      useTag
      noteGot (← doing (if bad then writePoisoned who g v (acOf w 2)
        else writeGranule who g v fullMask (acOf w 2)))

/-! ### Typed moves -/

/-- A type pair that R99 and R39 allow, with a destination box that R99 allows. -/
def pairAllowed (src : ElemType) (dst : Tensor) : Bool :=
  (dst.type ≠ .wx || src = .fp32 || src = .bf16 || src = .wx) && (src ≠ .wx || dst.type = .wx || dst.type = .fp32)
    && (!dst.type.isMx || (List.range 5).all fun k => dst.lo.getD k 0 = 0 && dst.extent k ≤ dst.hi.getD k 1)

/-- A destination that takes adds (R95, R103): not MX, VOTE or WX, and not under SR. -/
def addable (dst : Tensor) (rmode : Nat) : Bool :=
  rmode ≠ 2 && !dst.type.isMx && dst.type ≠ .vote && dst.type ≠ .wx

/-- One element of a move: the destination's loop index, and the source's where there is one. -/
structure Move where
  dst : List Nat
  src : Option (List Nat)
  deriving DecidableEq, Repr

/-- Positions of the blocks of a tensor that its elements name: (block, position), as a key. -/
def namedKeys (t : Tensor) (js : List (List Nat)) : List Int := js.map t.q

/-- The destination takes whole source blocks in place: element for element the same position, each destination block
from one source block, and padding on padding (R99). -/
def blockAligned (src dst : Tensor) (ms : List Move) : Bool :=
  let qs := ms.map fun m => (dst.q m.dst, (m.src.bind src.clamp).map src.q)
  let pairs := qs.filterMap fun p => p.2.map fun x => (p.1 / 32, x / 32)
  let named := namedKeys src src.indices
  qs.all (fun p => match p.2 with
    | some x => p.1 % 32 = x % 32
    | none => false) &&
  pairs.all (fun p => pairs.all fun r => p.1 ≠ r.1 || p.2 = r.2) &&
  pairs.all fun p => (List.range 32).all fun k =>
    !named.contains (32 * p.2 + k) || qs.any fun r => r.1 = 32 * p.1 + k

/-- Stage a visit of raw codes with their block's scale (R99, R427). -/
def putRawVisit (t : Tensor) (blk : Int) (scale : Nat) (codes : List (Nat × Nat)) : Work s₀ Unit := do
  let p := t.spotAt (32 * blk)
  for i in List.range 32 do
    writeBits (p.bit + i * p.width) p.width ((codes.find? fun c => c.1 = i).map Prod.snd |>.getD 0)
  match p.scale with
  | some b => writeBits b 8 scale
  | none => pure ()
  padGroup t blk

/-- Group raw codes into visits of blocks: the block, its scale, and its codes by position. -/
def rawVisits (t : Tensor) (es : List (List Nat × Nat × Nat)) : List (Int × Nat × List (Nat × Nat)) :=
  (runsBy (fun e => visitKey t e.1) es).filterMap fun r => r.head?.map fun e =>
    (t.q e.1 / 32, e.2.2, r.map fun x => ((t.q x.1 % 32).toNat, x.2.1))

/-- The conversion of a move: RMODE, SAT and SITE of its body, and the tile and descriptor that draws are for. -/
structure Conv where
  rmode : Nat
  sat : Bool
  site : Nat
  tile : Nat
  slot : Slot

/-- The rounding of a destination element, with its own draw under SR (R51). -/
def Conv.rm (c : Conv) (dst : Tensor) (j : List Nat) : Rm :=
  if c.rmode = 2 then rmOf 2 (c.slot.draw c.tile c.site (dst.canon j)) else rmOf c.rmode 0

/-- Write moved elements (R98, R99): a visit to an MX block whose last value is not known is not written (R427). A copy of
WX to WX keeps the bits that R38 ignores (DESIGN CHOICE, log entry 78). -/
def putMoves (c : Conv) (src dst : Tensor) (ms : List Move) (aligned : Bool) (xs : List (Nat × Nat)) : Work s₀ Unit := do
  let n := if dst.type.isMx then wholeRuns (runsBy (fun m : Move => visitKey dst m.dst) ms) xs.length else xs.length
  let es := (ms.zip xs).take n
  if src.type = dst.type ∧ !dst.type.isMx then
    for (m, x) in es do
      putRaw dst m.dst x.1
  else if src.type = dst.type ∧ aligned then
    for (b, sc, cs) in rawVisits dst (es.map fun e => (e.1.dst, e.2)) do
      putRawVisit dst b sc cs
  else
    let vs := es.map fun e => (e.1.dst, src.type.asRead (src.type.decode e.2.2 e.2.1), c.rm dst e.1.dst)
    for v in vs do
      if dst.inBox v.1 then raiseFlags v.2.1.2
    putAll dst c.sat (vs.map fun v => (v.1, v.2.1.1, v.2.2))

/-! ### Adds into the destination (R95, R103) -/

/-- Add floating-point elements one at a time into the destination, each add rounded once; how many were added before a
read met poison. -/
def addFloats (c : Conv) (src dst : Tensor) : List (Move × (Nat × Nat)) → Work s₀ Nat
  | [] => pure 0
  | (m, x) :: es => do
    if dst.inBox m.dst then
      let (c0, sc0) ← rawAt dst (dst.q m.dst)
      if (← get).stopped then pure 0
      else
        let (y, fl) := src.type.asRead (src.type.decode x.2 x.1)
        let r := (dst.type.decode sc0 c0).val.add y.val
        raiseFlags (fl ||| r.2)
        putElt dst m.dst (rmOf c.rmode 0) c.sat (.num r.1)
        let n ← addFloats c src dst es
        pure (n + 1)
    else
      modify fun io => { io with oobWrite := io.oobWrite + 1 }
      let n ← addFloats c src dst es
      pure (n + 1)

/-- The exact sums that integer adds leave, by bit address of the destination element; how many terms were taken before
a read met poison. -/
def addInts (c : Conv) (src dst : Tensor) : List (Nat × Int) → List (Move × (Nat × Nat)) → Work s₀ (List (Nat × Int) × Nat)
  | sums, [] => pure (sums, 0)
  | sums, (m, x) :: es => do
    if dst.inBox m.dst then
      let b := (dst.spotAt (dst.q m.dst)).bit
      let (y, fl₀) := src.type.asRead (src.type.decode x.2 x.1)
      let (i, fl) := y.toInt (rmOf c.rmode 0)
      let old ← match sums.find? fun e => e.1 = b with
        | some e => pure e.2
        | none => do
          let (c0, _) ← rawAt dst (dst.q m.dst)
          pure (intOf dst.type.bits c0)
      if (← get).stopped then pure (sums, 0)
      else
        raiseFlags (fl₀ ||| fl)
        let (r, n) ← addInts c src dst ((b, old + i) :: sums.filter fun e => e.1 ≠ b) es
        pure (r, n + 1)
    else
      modify fun io => { io with oobWrite := io.oobWrite + 1 }
      let (r, n) ← addInts c src dst sums es
      pure (r, n + 1)

/-- Write the sums of integer adds, each saturated once (R45, R95). -/
def putSums (dst : Tensor) (sums : List (Nat × Int)) (ms : List Move) : Work s₀ Unit := do
  for e in sums do
    raiseFlags (satInt dst.type.bits e.2).2
  for m in ms do
    if dst.inBox m.dst then
      match sums.find? fun e => e.1 = (dst.spotAt (dst.q m.dst)).bit with
      | some e => putRaw dst m.dst (intCode dst.type.bits (satInt dst.type.bits e.2).1)
      | none => pure ()

/-- Elements of a read-modify-write stream that come before the request set of the one that met poison. -/
def addCut (dst : Tensor) (es : List (Move × (Nat × Nat))) (n : Nat) : List (Move × (Nat × Nat)) :=
  if n = es.length then es
  else es.take (servedBefore (es.map fun e => if dst.inBox e.1.dst then (dst.spotAt (dst.q e.1.dst)).granules else []) n)

/-- Adds of a move (R95, R103). Where a destination read meets poison, the sums are formed again from the request sets
before it. -/
def putAdds (c : Conv) (src dst : Tensor) (ms : List Move) (xs : List (Nat × Nat)) : Work s₀ Unit := do
  let es := ms.zip xs
  let io ← get
  if dst.type.isInt then
    let (sums, n) ← addInts c src dst [] es
    if n = es.length then putSums dst sums ms
    else
      let es' := addCut dst es n
      modify fun io' => { io' with oobWrite := io.oobWrite, flags := io.flags, stopped := false }
      let (sums, _) ← addInts c src dst [] es'
      putSums dst sums (es'.map Prod.fst)
      modify fun io' => { io' with stopped := true }
  else
    let n ← addFloats c src dst es
    if n = es.length then pure ()
    else
      modify fun io' => { io' with oobWrite := io.oobWrite, flags := io.flags, stage := io.stage, wrote := io.wrote,
                                   stopped := false }
      let _ ← addFloats c src dst (addCut dst es n)
      modify fun io' => { io' with stopped := true }

/-- Run a list of moves: read, convert or add, and commit. Where a read meets poison, the elements of the request sets before
it are written, also where source and destination overlap (DESIGN CHOICE, log entry 79). -/
def runMoves (c : Conv) (src dst : Tensor) (ms : List Move) (reduce : Bool) (ac : Option Nat) : Work s₀ Unit := do
  let xs ← readStream src (ms.map Move.src)
  if reduce then putAdds c src dst ms xs
  else putMoves c src dst ms (dst.type.isMx && src.type = dst.type && blockAligned src dst ms) xs
  commitStaged ac

/-! ### TENSOR_COPY, TENSOR_GATHER and TENSOR_SCATTER -/

/-- Element e of the destination takes element e of the source (R98). -/
def copyMoves (src dst : Tensor) : List Move := (List.zip dst.indices src.indices).map fun p => ⟨p.1, some p.2⟩

/-- The body and records of a tensor move (R97 to R100, R103). -/
def prepTensor (w : Descriptor) : Prep s₀ (List Nat) := do
  let op := opcodeOf w
  let imode := body w 3 41 40
  let gdim := body w 3 39 37
  let add := body w 3 36 36 = 1
  let reduce := add || body w 3 35 35 = 1
  let rmode := body w 3 33 32
  demand (body w 3 63 42 = 0 && body w 3 23 16 = 0 && body w 3 14 10 = 0 && zeroFrom w 4)
  demand (rmode ≠ 3 && imode ≠ 3 && (!add || op = 0x1A))
  demand (op ≠ 0x18 || (body w 2 63 0 = 0 && imode = 0 && gdim = 0))
  let xs ← readTensors ([body w 0 63 0, body w 1 63 0] ++ if op = 0x18 then [] else [body w 2 63 0])
  match xs.map Prod.snd with
  | src :: dst :: rest =>
    demand (body w 3 15 15 = 0 || (match place (dst.home true) with
      | .stack _ _ => false
      | _ => true))
    demand (pairAllowed src.type dst && (!reduce || addable dst rmode))
    demand (op ≠ 0x18 || src.count = dst.count)
    for idx in rest do
      demand (idx.type = .int32 && src.rank = dst.rank && gdim < dst.rank)
      demand ((List.range 5).all fun k => k = gdim || src.extent k = dst.extent k)
      demand (idx.count = (if op = 0x19 then dst else src).extent gdim)
      demand (op ≠ 0x1A || reduce || !dst.type.isMx)
    permitTensor src false
    permitTensor dst true
    for idx in rest do
      permitTensor idx false
    permitCounter (dst.home true) (acOf w 3)
  | _ => malformed
  pure (xs.map Prod.fst)

/-- The conversion of a tensor move. -/
def tensorConv (t : Nat) (d : Slot) : Conv :=
  ⟨body d.words 3 33 32, body d.words 3 34 34 = 1, body d.words 3 31 24, t, d⟩

/-- TENSOR_COPY (R98). -/
def tensorCopyWork (t : Nat) (d : Slot) : Work s₀ Unit :=
  let src := d.tensor 0
  let dst := d.tensor 1
  if dst.count = 0 then pure ()
  else runMoves (tensorConv t d) src dst (copyMoves src dst) (body d.words 3 35 35 = 1) (acOf d.words 3)

/-- What an index resolves to (R101): an index, no element, or a fault; and whether the clamp is counted. -/
inductive Resolved where
  | elem (i : Nat)
  | nothing
  | fault
  deriving DecidableEq, Repr

/-- Resolve an index against an extent (R101). -/
def resolve (imode n : Nat) (i : Int) : Resolved × Bool :=
  if n = 0 then (if imode = 2 then .fault else .nothing, false)
  else if 0 ≤ i ∧ i < n then (.elem i.toNat, false)
  else if imode = 2 then (.fault, false)
  else if imode = 1 ∧ i < 0 ∧ -(n : Int) ≤ i then (.elem (i + n).toNat, false)
  else (.elem (if i < 0 then 0 else n - 1), true)

/-- Record an index fault (R101, R104). -/
def logIndexFault (t pos value : Nat) : Work s₀ Unit := do
  arises .indexFault
  doing (logFirst SEQ_INDEX_FAULT_LOG_VALID SEQ_INDEX_FAULT_LOG_OVERRUN t do
    setF SEQ_INDEX_FAULT_LOG_POSITION pos t
    setF SEQ_INDEX_FAULT_VALUE_VALUE value t)

/-- Read and resolve the index tensor: the indices of the request sets before one that meets poison (R101). None where
that happens and the index tensor aliases the destination. -/
def readIndices (t imode n : Nat) (idx dst : Tensor) : Work s₀ (Option (List Resolved)) := do
  let xs ← readStream idx (idx.indices.map some)
  let hit := (← get).stopped
  if hit ∧ overlaps (idx.interval false) (dst.interval true) then pure none
  else
    modify fun io => { io with stopped := false }
    let rs := xs.map fun x => resolve imode n (intOf 32 x.1)
    for ((r, x), k) in (rs.zip xs).zipIdx do
      if r.2 then doing (countUp SEQ_INDEX_CLAMP_COUNT_COUNT 1 t)
      if r.1 = .fault then logIndexFault t k x.1
    pure (some (rs.map Prod.fst))

/-- The slices of a gather (R100): destination positions below the last index read, in canonical order. -/
def gatherMoves (g : Nat) (dst : Tensor) (rs : List Resolved) : List Move :=
  dst.indices.filterMap fun j =>
    match (rs[j.getD g 0]? : Option Resolved) with
    | some (.elem i) => some ⟨j, some (j.set g i)⟩
    | some _ => some ⟨j, none⟩
    | none => none

/-- The slices of a scatter, in the source's canonical order (R103). -/
def scatterMoves (g : Nat) (src : Tensor) (rs : List Resolved) : List Move :=
  src.indices.filterMap fun j =>
    match (rs[j.getD g 0]? : Option Resolved) with
    | some (.elem i) => some ⟨j.set g i, some j⟩
    | _ => none

/-- The elements of a scatter's slices that have no place, its destination having none: suppressed and counted (R93, R101).
-/
def suppressSlices (src : Tensor) (g : Nat) (rs : List Resolved) : Work s₀ Unit :=
  let n := (src.indices.filter fun j => (rs[j.getD g 0]? : Option Resolved) = some .nothing).length
  modify fun io => { io with oobWrite := io.oobWrite + n }

/-- TENSOR_GATHER and TENSOR_SCATTER (R100 to R103). A scatter whose destination has no element in the indexed dimension
alone resolves its indices (DEDUCED, log entry 26). -/
def tensorIndexedWork (scatter : Bool) (t : Nat) (d : Slot) : Work s₀ Unit := do
  let src := d.tensor 0
  let dst := d.tensor 1
  let idx := d.tensor 2
  let g := body d.words 3 39 37
  if dst.count = 0 ∧ !(scatter ∧ dst.extent g = 0 ∧ src.count ≠ 0) then pure ()
  else
    match ← readIndices t (body d.words 3 41 40) ((if scatter then dst else src).extent g) idx dst with
    | none => pure ()
    | some rs =>
      if scatter then suppressSlices src g rs
      runMoves (tensorConv t d) src dst (if scatter then scatterMoves g src rs else gatherMoves g dst rs)
        (body d.words 3 35 35 = 1 || body d.words 3 36 36 = 1) (acOf d.words 3)

end Sys2Proof.Machine
end

