-- ==== Sys2Proof/Machine/Sfu.lean ====
section
/-! DEFINITION. The special functions of the SFU (R160 to R166). The exact reals of R160 and R161, from which constants,
coefficients and seam values are rounded to 64 or 36 significant bits, are computed as fixed-point numbers of 640
fractional bits, whose error is far below any of those roundings (DEDUCED, log entry 21). -/

namespace Sys2Proof.Machine

/-! ### Exact dyadic numbers -/

/-- The exact number m · 2^e. -/
structure Dy where
  m : Int
  e : Int
  deriving DecidableEq, Repr

/-- Align two dyadic numbers to the lower exponent. -/
def Dy.align (a b : Dy) : Int × Int × Int :=
  let e := min a.e b.e
  (a.m * (2 ^ (a.e - e).toNat : Nat), b.m * (2 ^ (b.e - e).toNat : Nat), e)

def Dy.add (a b : Dy) : Dy := let (x, y, e) := a.align b; ⟨x + y, e⟩
def Dy.sub (a b : Dy) : Dy := let (x, y, e) := a.align b; ⟨x - y, e⟩
def Dy.mul (a b : Dy) : Dy := ⟨a.m * b.m, a.e + b.e⟩
def Dy.neg (a : Dy) : Dy := ⟨-a.m, a.e⟩
def Dy.abs (a : Dy) : Dy := ⟨a.m.natAbs, a.e⟩
def Dy.scale (a : Dy) (k : Int) : Dy := ⟨a.m, a.e + k⟩
def Dy.le (a b : Dy) : Bool := let (x, y, _) := a.align b; x ≤ y
def Dy.lt (a b : Dy) : Bool := let (x, y, _) := a.align b; x < y
def Dy.max (a b : Dy) : Dy := if a.le b then b else a
def Dy.min (a b : Dy) : Dy := if a.le b then a else b
def Dy.ofInt (i : Int) : Dy := ⟨i, 0⟩

/-- The largest whole number not above it. -/
def Dy.floor (a : Dy) : Int := if 0 ≤ a.e then a.m * (2 ^ a.e.toNat : Nat) else a.m / (2 ^ (-a.e).toNat : Nat)

/-- The exponent of its leading bit. -/
def Dy.log2 (a : Dy) : Int := (a.m.natAbs.log2 : Int) + a.e

/-- A finite value as a dyadic number. -/
def Dy.ofVal : Val → Dy
  | .fin s m e => ⟨if s then -(m : Int) else m, e⟩
  | _ => ⟨0, 0⟩

/-- A dyadic number as a value. -/
def Dy.val (a : Dy) : Val := .fin (a.m < 0) a.m.natAbs a.e

/-! ### Reals to 640 fractional bits -/

/-- The fractional bits (DEDUCED, log entry 21). -/
def fxBits : Nat := 640
/-- One. -/
def fxOne : Int := (2 ^ fxBits : Nat)
def fxMul (a b : Int) : Int := a * b / fxOne
def fxDiv (a b : Int) : Int := a * fxOne / b

/-- A dyadic number to fixed point. -/
def fxOf (a : Dy) : Int :=
  let k := a.e + fxBits
  if 0 ≤ k then a.m * (2 ^ k.toNat : Nat) else a.m / (2 ^ (-k).toNat : Nat)

/-- √a. -/
def fxSqrt (a : Int) : Int := (Nat.sqrt (a.toNat * 2 ^ fxBits) : Nat)

/-- A series: term n + 1 is `next n` of term n; `n` terms from `t`. -/
def fxSeries (next : Nat → Int → Int) : Nat → Nat → Int → Int
  | 0, _, _ => 0
  | n + 1, k, t => t + fxSeries next n (k + 1) (next k t)

/-- Square `n` times. -/
def fxSquares : Nat → Int → Int
  | 0, x => x
  | n + 1, x => fxSquares n (fxMul x x)

/-- e^x, for x below 2^8 in magnitude (DEDUCED, log entry 21). -/
def fxExp (x : Int) : Int :=
  let r := x / (2 ^ 40 : Nat)
  fxSquares 40 (fxSeries (fun k t => fxMul t r / ((k : Int) + 1)) 24 0 fxOne)

/-- ln y, for y from 1/2 to 2 (DEDUCED, log entry 21). -/
def fxLn (y : Int) : Int :=
  let z := fxDiv (y - fxOne) (y + fxOne)
  let z2 := fxMul z z
  -- 2 (z + z³/3 + …): the odd powers, each divided by its exponent
  let odd := (List.range 210).foldl (fun (acc : Int × Int) (k : Nat) =>
    (acc.1 + acc.2 / (2 * (k : Int) + 1), fxMul acc.2 z2)) (0, z)
  2 * odd.1

/-- atan(1/n). -/
def fxAtanInv (n : Nat) : Int :=
  ((List.range 150).foldl (fun (acc : Int × Int) (k : Nat) =>
    (acc.1 + (if k % 2 = 0 then 1 else -1) * (acc.2 / (2 * (k : Int) + 1)), acc.2 / ((n * n : Nat) : Int)))
    (0, fxOne / (n : Int))).1

def fxPi : Int := 16 * fxAtanInv 5 - 4 * fxAtanInv 239
def fxLn2 : Int := fxLn (2 * fxOne)
/-- 1/√(2π). -/
def fxInvRoot2Pi : Int := fxDiv fxOne (fxSqrt (2 * fxPi))

/-- v + v³/3 + v⁵/15 + …, over the odd factorials. -/
def fxOddSeries (v : Int) : Int :=
  let v2 := fxMul v v
  fxSeries (fun k t => fxMul t v2 / (2 * (k : Int) + 3)) 700 0 v

/-- Φ(v) − 1/2, for v ≥ 0 (DEDUCED, log entry 21). -/
def fxPhiC (v : Int) : Int := fxMul (fxMul (fxExp (-(fxMul v v / 2))) fxInvRoot2Pi) (fxOddSeries v)

/-- σ(u). -/
def fxSigma (u : Int) : Int := fxDiv fxOne (fxOne + fxExp (-u))

/-- Round a fixed-point number to `n` significant bits, to nearest even. -/
def fxRound (n : Nat) (a : Int) : Dy :=
  let m := a.natAbs
  if m = 0 then ⟨0, 0⟩
  else
    let len := m.log2 + 1
    if len ≤ n then ⟨a, -(fxBits : Int)⟩
    else
      let k := (roundShift m (len - n) .rne).1
      ⟨if a < 0 then -(k : Int) else k, (len - n : Nat) - (fxBits : Int)⟩

/-- The constants of R160. -/
def sfuLe : Dy := fxRound 64 (fxDiv fxOne fxLn2)
def sfuL2 : Dy := fxRound 64 fxLn2
def fxK1 : Int := 2 * fxSqrt (fxDiv (2 * fxOne) fxPi)
def sfuK1 : Dy := fxRound 64 fxK1
def sfuK3 : Dy := fxRound 64 (fxK1 * 44715 / 1000000)

/-! ### Segments (R161) -/

/-- The polynomial sets of R162. -/
inductive SfuSet where
  | exp2 | log1p (neg : Bool) | sigP | sigN | tanh | spP | spN | rsqrt | recip | erf
  | geluP | geluN | geluT | gtP | gtN | siluP | siluN
  deriving DecidableEq, Repr

/-- The argument of GELU_TANH's logistic form: 2√(2/π)·(u + 0.044715·u³). -/
def fxGtArg (u : Int) : Int := fxMul fxK1 (u + fxMul u (fxMul u u) * 44715 / 1000000)

/-- The target function of a set at |u|. -/
def SfuSet.target (t : SfuSet) (u : Int) : Int :=
  match t with
  | .exp2 => fxExp (fxMul u fxLn2)
  | .log1p neg => fxLn (if neg then fxOne - u else fxOne + u)
  | .sigP => fxSigma u
  | .sigN => fxSigma (-u)
  | .tanh => fxOne - fxDiv (2 * fxOne) (fxExp (2 * u) + fxOne)
  | .spP => u + fxLn (fxOne + fxExp (-u))
  | .spN => fxLn (fxOne + fxExp (-u))
  | .rsqrt => fxDiv fxOne (fxSqrt u)
  | .recip => fxDiv fxOne u
  | .erf => 2 * fxPhiC (fxMul u (fxSqrt (2 * fxOne)))
  | .geluP => fxMul u (fxOne / 2 + fxPhiC u)
  | .geluN => -(fxMul u (fxOne / 2 - fxPhiC u))
  | .geluT => fxMul u (fxExp (fxMul u u / 2) / 2 - fxMul fxInvRoot2Pi (fxOddSeries u))
  | .gtP => fxMul u (fxSigma (fxGtArg u))
  | .gtN => -(fxMul u (fxSigma (-(fxGtArg u))))
  | .siluP => fxMul u (fxSigma u)
  | .siluN => -(fxMul u (fxSigma (-u)))

/-- The segment [a, a + 2^h) that holds |u|: a and h. -/
def segment (u : Dy) : Dy × Int :=
  if u.lt ⟨1, -32⟩ then (⟨0, 0⟩, -32)
  else
    let e := u.log2
    let i := (u.scale (6 - e)).floor
    (⟨i, e - 6⟩, e - 6)

/-- The segment holds the minimum of its function: the one that is not clamped. -/
def SfuSet.unclamped (t : SfuSet) (a : Dy) : Bool :=
  match t with
  | .geluN | .gtN => a.le ⟨3, -2⟩ && Dy.le ⟨3, -2⟩ a
  | .siluN => a.le ⟨81, -6⟩ && Dy.le ⟨81, -6⟩ a
  | _ => false

/-- (1 + cos((2i + 1)π/8))/2 for i = 0 to 3. -/
def fxNodes : List Int :=
  let c1 := fxSqrt (2 * fxOne + fxSqrt (2 * fxOne)) / 2
  let c3 := fxSqrt (2 * fxOne - fxSqrt (2 * fxOne)) / 2
  [(fxOne + c1) / 2, (fxOne + c3) / 2, (fxOne - c3) / 2, (fxOne - c1) / 2]

/-- The cubic through four points, in powers of the argument (DEDUCED, log entry 21). -/
def fxCubic (xs ys : List Int) : List Int :=
  match xs, ys with
  | [x0, x1, x2, x3], [y0, y1, y2, y3] =>
    let d01 := fxDiv (y1 - y0) (x1 - x0)
    let d12 := fxDiv (y2 - y1) (x2 - x1)
    let d23 := fxDiv (y3 - y2) (x3 - x2)
    let d012 := fxDiv (d12 - d01) (x2 - x0)
    let d123 := fxDiv (d23 - d12) (x3 - x1)
    let d := fxDiv (d123 - d012) (x3 - x0)
    [ y0 - fxMul d01 x0 + fxMul d012 (fxMul x0 x1) - fxMul d (fxMul x0 (fxMul x1 x2)),
      d01 - fxMul d012 (x0 + x1) + fxMul d (fxMul x0 x1 + fxMul x0 x2 + fxMul x1 x2),
      d012 - fxMul d (x0 + x1 + x2), d ]
  | _, _ => [0, 0, 0, 0]

/-- The coefficients c0 to c3 of the segment [a, a + 2^h), each to 36 significant bits (R161) (DEDUCED, log entry 21).
-/
def SfuSet.coeffs (t : SfuSet) (a : Dy) (h : Int) : List Dy :=
  let a0 := fxOf a
  let w := fxOf ⟨1, h⟩
  let ys := fxNodes.map fun s => t.target (a0 + fxMul w s)
  (fxCubic fxNodes ys).zipIdx.map fun p => (fxRound 36 p.1).scale (-h * p.2)

/-- The seam value at `a` (R161). -/
def SfuSet.seam (t : SfuSet) (a : Dy) : Dy := fxRound 36 (t.target (fxOf a))

/-- seg_eval of R160 at |u| (DEDUCED, log entry 21). -/
def SfuSet.eval (t : SfuSet) (u : Dy) : Dy :=
  let (a, h) := segment u
  let r := u.sub a
  let v := (t.coeffs a h).foldr (fun c acc => c.add (r.mul acc)) ⟨0, 0⟩
  if t.unclamped a then v
  else
    let p := t.seam a
    let q := t.seam (a.add ⟨1, h⟩)
    (v.max (p.min q)).min (p.max q)

/-- e_core of R160. Beyond 2^±400,000, outside the range of every format, the exponent is held there: the rounding and
its flags are those of the exact value. -/
def eCore (z : Dy) : Dy :=
  let t := z.mul sfuLe
  let n := t.floor
  let f := t.sub (Dy.ofInt n)
  (SfuSet.exp2.eval f).scale (max (-400000) (min 400000 n))

/-! ### Functions (R162, R165) -/

/-- The functions of R141. -/
inductive SfuFn where
  | exp | log | sigmoid | tanh | softplus | rsqrt | recip | erf | gelu | geluTanh | silu
  deriving DecidableEq, Repr

/-- The function of a code (R141). -/
def SfuFn.ofCode : Nat → Option SfuFn
  | 0x01 => some .exp
  | 0x02 => some .log
  | 0x03 => some .sigmoid
  | 0x04 => some .tanh
  | 0x05 => some .softplus
  | 0x06 => some .rsqrt
  | 0x07 => some .recip
  | 0x08 => some .erf
  | 0x09 => some .gelu
  | 0x0A => some .geluTanh
  | 0x0B => some .silu
  | _ => none

/-- What evaluating a function gives: a listed value with its flags, a flat value, an underflow to −0, or an exact
value to round. -/
inductive SfuResult where
  | listed (v : Val) (f : Flags)
  | flat (v : Val)
  | tiny
  | exact (v : Dy)
  deriving DecidableEq, Repr

/-- One half. -/
def valHalf : Val := .fin false 1 (-1)
def valOne (neg : Bool) : Val := .fin neg 1 0
def valZero (neg : Bool) : Val := .fin neg 0 0
def invalidResult : SfuResult := .listed .nan flagInvalid

/-- The results for ±∞ (R165). -/
def SfuFn.atInf (f : SfuFn) (neg : Bool) : SfuResult :=
  match f, neg with
  | .exp, true | .sigmoid, true | .softplus, true => .listed (valZero false) 0
  | .log, true | .rsqrt, true => invalidResult
  | .tanh, true | .erf, true => .listed (valOne true) 0
  | .recip, _ => .listed (valZero neg) 0
  | .gelu, true | .geluTanh, true | .silu, true => .listed (valZero true) 0
  | .sigmoid, false | .tanh, false | .erf, false => .listed (valOne false) 0
  | .rsqrt, false => .listed (valZero false) 0
  | .exp, false | .log, false | .softplus, false | .gelu, false | .geluTanh, false | .silu, false =>
    .listed (.inf false) 0

/-- The results for ±0 (R165); SOFTPLUS gives ln 2, which is rounded. -/
def SfuFn.atZero (f : SfuFn) (neg : Bool) : SfuResult :=
  match f with
  | .exp => .listed (valOne false) 0
  | .log => .listed (.inf true) flagDivZero
  | .sigmoid => .listed valHalf 0
  | .tanh | .erf | .gelu | .geluTanh | .silu => .listed (valZero neg) 0
  | .softplus => .exact sfuL2
  | .rsqrt | .recip => .listed (.inf neg) flagDivZero

/-- An odd whole multiplier of a power of 2 is 1: the value is ±2^k, with its k. -/
def Dy.pow2 (a : Dy) : Option Int := if a.m.natAbs = 2 ^ a.m.natAbs.log2 then some a.log2 else none

/-- 2^k is representable in a format. -/
def Fmt.holdsPow2 (f : Fmt) (k : Int) : Bool := 1 - (f.bias : Int) - f.fbits ≤ k && k ≤ f.bias

/-- The regions of R162 for a finite nonzero x. -/
def SfuFn.atFinite (f : SfuFn) (fmt : Fmt) (x : Dy) : SfuResult :=
  let neg := x.m < 0
  let u := x.abs
  let ge (n : Nat) : Bool := Dy.le (Dy.ofInt n) u
  let gt (n : Nat) : Bool := Dy.lt (Dy.ofInt n) u
  let xv := x.val
  let signed (v : Dy) : Dy := if neg then v.neg else v
  match f with
  | .exp => .exact (eCore x)
  | .log =>
    if neg then invalidResult
    else
      -- x = 2^k·m with m in [0.75, 1.5)
      let e := x.log2
      let k := if Dy.lt (x.scale (-e)) ⟨3, -1⟩ then e else e + 1
      let m := (x.scale (-k)).sub (Dy.ofInt 1)
      if k = 0 ∧ m.m = 0 then .listed (valZero false) 0
      else .exact (((Dy.ofInt k).mul sfuL2).add ((SfuSet.log1p (m.m < 0)).eval m.abs))
  | .sigmoid =>
    if neg then (if gt 24 then .exact (eCore x) else .exact (SfuSet.sigN.eval u))
    else if ge 32 then .flat (valOne false) else .exact (SfuSet.sigP.eval u)
  | .tanh => if ge 16 then .flat (valOne neg) else .exact (signed (SfuSet.tanh.eval u))
  | .softplus =>
    if neg then (if gt 24 then .exact (eCore x) else .exact (SfuSet.spN.eval u))
    else if ge 32 then .flat xv else .exact (SfuSet.spP.eval u)
  | .rsqrt =>
    if neg then invalidResult
    else
      let k := x.log2 / 2
      let m := x.scale (-2 * k)
      if x.pow2 = some (2 * k) then .listed (.fin false 1 (-k)) 0
      else .exact ((SfuSet.rsqrt.eval m).scale (-k))
  | .recip =>
    let k := x.log2
    if x.pow2.isSome ∧ fmt.holdsPow2 (-k) then .listed (.fin neg 1 (-k)) 0
    else .exact (signed ((SfuSet.recip.eval (u.scale (-k))).scale (-k)))
  | .erf => if ge 4 then .flat (valOne neg) else .exact (signed (SfuSet.erf.eval u))
  | .gelu =>
    if neg then
      (if gt 16 then .tiny
       else if gt 8 then
         .exact (((SfuSet.geluT.eval u).mul (eCore ((u.mul u).neg.scale (-1)))).neg)
       else .exact (SfuSet.geluN.eval u))
    else if ge 8 then .flat xv else .exact (SfuSet.geluP.eval u)
  | .geluTanh =>
    if neg then
      (if gt 16 then .tiny
       else if gt 8 then .exact (x.mul (eCore ((sfuK1.mul x).add (sfuK3.mul (x.mul (x.mul x))))))
       else .exact (SfuSet.gtN.eval u))
    else if ge 8 then .flat xv else .exact (SfuSet.gtP.eval u)
  | .silu =>
    if neg then (if gt 24 then .exact (x.mul (eCore x)) else .exact (SfuSet.siluN.eval u))
    else if ge 32 then .flat xv else .exact (SfuSet.siluP.eval u)

/-- sfu_eval (R160): the code in a format, and the flags. A result that R165 does not list raises INEXACT. -/
def sfuEval (f : SfuFn) (fmt : Fmt) (x : Val) : Nat × Flags :=
  let r := match x with
    | .nan => invalidResult
    | .inf s => f.atInf s
    | .fin s m e => if m = 0 then f.atZero s else f.atFinite fmt ⟨if s then -(m : Int) else m, e⟩
  match r with
  | .listed .nan fl => (fmt.nan, fl)
  | .listed v fl => ((fmt.round .rne false v).1, fl)
  | .flat v => ((fmt.round .rne false v).1, flagInexact)
  | .tiny => (fmt.signed true 0, flagUnderflow ||| flagInexact)
  | .exact v => let r := fmt.round .rne false v.val; (r.1, r.2 ||| flagInexact)

end Sys2Proof.Machine
end

