-- ==== Sys2Proof/Machine/Stroke.lean ====
section
/-! DEFINITION. Stroke programs: the stroke block, its static checks, and the run of a program on one element (R132 to
R143, R157). -/

namespace Sys2Proof.Machine

variable {s₀ : State}

/-! ### Instructions (R137 to R139) -/

/-- Fields of an instruction word. -/
def iOp (w : Nat) : Nat := w / 2 ^ 26 % 64
def iD (w : Nat) : Nat := w / 2 ^ 22 % 16
def iA (w : Nat) : Nat := w / 2 ^ 16 % 64
def iB (w : Nat) : Nat := w / 2 ^ 10 % 64
def iC (w : Nat) : Nat := w / 2 ^ 4 % 64
def iM (w : Nat) : Nat := w % 16
def iType (w : Nat) : Nat := w / 2 ^ 11 % 32
def iRm (w : Nat) : Nat := w / 2 ^ 9 % 4
def iSat (w : Nat) : Bool := w / 2 ^ 8 % 2 == 1
def iSite (w : Nat) : Nat := w % 256

/-- What an opcode of R139 takes: how many of A, B and C are operands, and what follows them: nothing, the modifier M,
the function code in B, or the conversion tail. -/
inductive Form where
  | plain (n : Nat)
  | modified
  | function
  | tail (n : Nat)
  deriving DecidableEq, Repr

/-- The form of an opcode; none for a reserved one. -/
def formOf : Nat → Option Form
  | 0x01 | 0x09 | 0x0A => some (.plain 1)
  | 0x02 | 0x03 | 0x04 | 0x07 | 0x08 | 0x10 | 0x11 | 0x1D => some (.plain 2)
  | 0x05 | 0x06 | 0x0C => some (.plain 3)
  | 0x0B => some .modified
  | 0x0D | 0x0E | 0x1C | 0x1E => some (.tail 1)
  | 0x12 | 0x13 => some (.tail 0)
  | 0x18 => some .function
  | _ => none

/-- The selectors that an instruction reads. -/
def selectors (w : Nat) : List Nat :=
  match formOf (iOp w) with
  | some (.plain n) => [iA w, iB w, iC w].take n
  | some .modified => [iA w, iB w]
  | some .function => [iA w]
  | some (.tail n) => [iA w].take n
  | none => []

/-- Kinds of values (R138). -/
inductive Kind where
  | float | int
  deriving DecidableEq, Repr

/-! ### The stroke block (R134) -/

/-- A program with its iteration space and operands. -/
structure Stroke where
  rank : Nat
  bf : Bool
  mode : Nat
  axis : Nat
  chunk : Nat
  h0 : Option Nat
  ext : List Nat
  consts : List Val
  /-- What rounding the constants raises. -/
  constFlags : Flags
  instrs : List Nat
  refs : List Nat
  ins : List (Option Tensor)
  outs : List (Option Tensor)
  deriving DecidableEq, Repr

/-- Word `k` of a stroke block. -/
def blkWord (b k : Nat) : Nat := (b >>> (64 * k)) % 2 ^ 64

/-- Extents of a block, as written. -/
def blkExtents (b : Nat) : List Nat :=
  [blkWord b 1 % 2 ^ 24, blkWord b 1 / 2 ^ 24 % 2 ^ 24, blkWord b 2 % 2 ^ 24, blkWord b 2 / 2 ^ 24 % 2 ^ 24,
   blkWord b 3 % 2 ^ 24]

/-- The program's format (R130). -/
def Stroke.fmt (p : Stroke) : Fmt := if p.bf then bf16 else fp32

/-- The lanes of a wave in elements (R130). -/
def Stroke.lanes (p : Stroke) : Nat := if p.bf then 4096 else 2048

/-- A stroke block without its tensors. A BF16 program rounds its constants as it reads the block (DESIGN CHOICE, log entry
75). -/
def parseBlock (b : Nat) : Stroke :=
  let h := blkWord b 0
  let rank := h / 2 ^ 53 % 8
  let bf := h / 2 ^ 52 % 2 == 1
  let mode := h / 2 ^ 50 % 4
  let ks : List (Val × Flags) := (List.range 8).map fun i =>
    let v := fp32.decode (blkWord b (10 + i / 2) / 2 ^ (32 * (i % 2)) % 2 ^ 32)
    if bf then
      let r := bf16.round .rne false v
      (bf16.decode r.1, r.2)
    else (v, 0)
  { rank := rank, bf := bf, mode := mode, axis := h / 2 ^ 47 % 8
    chunk := 2 ^ (h / 2 ^ 43 % 16)
    h0 := if h / 2 ^ 42 % 2 = 1 then some (h / 2 ^ 40 % 4) else none
    ext := (blkExtents b).zipIdx.map fun e => if e.2 < rank then e.1 else 1
    consts := ks.map Prod.fst
    constFlags := ks.foldl (fun a k => a ||| k.2) 0
    instrs := (List.range (h % 128)).map fun i => blkWord b (14 + i / 2) / 2 ^ (32 * (i % 2)) % 2 ^ 32
    refs := (List.range 6).map fun i => blkWord b (4 + i)
    ins := [], outs := [] }

/-- Reserved bits, extents and the header of a block (R134, R142). -/
def blockWf (b : Nat) : Bool :=
  let h := blkWord b 0
  let p := parseBlock b
  let cl := h / 2 ^ 43 % 16
  h / 2 ^ 56 = 0 && h / 2 ^ 7 % 2 ^ 33 = 0 && blkWord b 1 / 2 ^ 48 = 0 && blkWord b 2 / 2 ^ 48 = 0
    && blkWord b 3 / 2 ^ 24 = 0 && blkWord b 46 = 0 && blkWord b 47 = 0
    && 1 ≤ h % 128 && h % 128 ≤ 64 && 1 ≤ p.rank && p.rank ≤ 5 && p.axis < p.rank && p.mode ≠ 3
    && ((blkExtents b).drop p.rank).all (· = 0)
    && (if p.mode = 2 then 4 ≤ cl && cl ≤ 11 else cl = 0 && p.h0.isNone)
    && (p.mode ≠ 0 || p.axis = 0)
    && (match p.h0 with
        | some k => p.refs.getD k 0 ≠ 0
        | none => true)
    && !(p.bf && p.mode ≠ 0)

/-- A selector of R138, used under R142. -/
def selectorOk (p : Stroke) (s : Nat) : Bool :=
  s < 0x10 || (s < 0x14 && p.refs.getD (s - 0x10) 0 ≠ 0) || (0x18 ≤ s && s ≤ 0x24)
    || (0x28 ≤ s && s ≤ 0x2C && !p.bf)

/-- An instruction's fields, without kinds (R137, R139, R142). -/
def instrOk (p : Stroke) (w : Nat) : Bool :=
  let op := iOp w
  (selectors w).all (selectorOk p) &&
  match formOf op with
  | none => false
  | some (.plain n) => (2 ≤ n || iB w = 0) && (3 ≤ n || iC w = 0) && iM w = 0
  | some .modified => iC w = 0 && iM w ≤ 3
  | some .function => 1 ≤ iB w && iB w ≤ 11 && iC w = 0 && iM w = 0
  | some (.tail n) =>
    (1 ≤ n || iA w = 0) && iRm w ≠ 3 &&
    (if op = 0x0D then [1, 2, 3, 4, 8, 9, 10].contains (iType w)
     else if op = 0x1C then iType w ≤ 2 && iD w = 0
     else if op = 0x1E then iType w = 0 && iD w ≤ 1 && p.refs.getD (4 + iD w) 0 ≠ 0
     else if op = 0x0E then iType w = 0 && !iSat w
     else iType w = 0 && iRm w = 0 && !iSat w)

/-- How many instructions of a program have an opcode. -/
def Stroke.countOp (p : Stroke) (op : Nat) : Nat := (p.instrs.filter fun w => iOp w = op).length

/-- The outputs that the program's ST instructions write. -/
def Stroke.stores (p : Stroke) : List Nat := (p.instrs.filter fun w => iOp w = 0x1E).map iD

/-- The program's form (R142). -/
def programOk (p : Stroke) : Bool :=
  p.instrs.all (instrOk p) && p.stores.length = p.stores.eraseDups.length
    && (if p.mode = 1 then p.countOp 0x1C = 1 && !p.stores.contains 1 && p.refs.getD 5 0 ≠ 0 else p.countOp 0x1C = 0)
    && p.countOp 0x1D = (if p.mode = 2 then 1 else 0)

/-- The kind of an input of a type (R138). -/
def ElemType.kind (t : ElemType) : Kind := if t.isInt || t = .vote then .int else .float

/-- The kind of a selector's value, given the temporaries' kinds. -/
def selKind (p : Stroke) (ts : List Kind) (s : Nat) : Kind :=
  if s < 0x10 then ts.getD s .float
  else if s < 0x14 then (match p.ins.getD (s - 0x10) none with
    | some t => t.type.kind
    | none => .float)
  else if s = 0x23 ∨ s = 0x24 ∨ 0x28 ≤ s then .int
  else .float

/-- The kinds of an instruction: whether its operands have those of R139 and R142, and its result's kind. -/
def instrKinds (p : Stroke) (ts : List Kind) (w : Nat) : Bool × Kind :=
  let ks := (selectors w).map (selKind p ts)
  let op := iOp w
  let outType : Option ElemType := (p.outs.getD (if op = 0x1C then 1 else iD w) none).map Tensor.type
  let srToFp32 : Bool := iRm w = 2 && outType = some .fp32
  let r : Bool × Kind :=
    match op with
    | 0x01 => (true, ks.headD .float)
    | 0x0B => (ks.all (· = .float), .int)
    | 0x0C => (ks.take 1 = [.int] && ks[1]? = ks[2]?, ks.getD 1 .float)
    | 0x0D => (ks.all (· = .float), if 8 ≤ iType w then .int else .float)
    | 0x0E => (ks.all (· = .int), .float)
    | 0x10 => (ks.all (· = .int), .int)
    | 0x11 => (ks = [.float, .int], .int)
    | 0x12 => (true, .int)
    | 0x1E => (!srToFp32 && (ks = [.int]) = ((outType.map ElemType.isInt).getD false : Bool), .float)
    | 0x1C => (!srToFp32 && ks = [.float], .float)
    | _ => (ks.all (· = .float), .float)
  (r.1 && (!p.bf || op = 0x0B || op = 0x0C || (!ks.contains .int && r.2 = .float)), r.2)

/-- Every instruction's kinds are right (R140). -/
def kindsOk (p : Stroke) : List Kind → List Nat → Bool
  | _, [] => true
  | ts, w :: ws =>
    let (ok, k) := instrKinds p ts w
    ok && kindsOk p (if iOp w = 0x1C ∨ iOp w = 0x1E then ts else ts.set (iD w) k) ws

/-! ### One element -/

/-- The run of a program on one element: its temporaries, the values it stores by output, the operand of RED, those of
SCAN, and what it raises. -/
structure Lane where
  temps : List Elt := List.replicate 16 (.num (.fin false 0 0))
  stores : List (Nat × Elt) := []
  red : Option Val := none
  ab : Option (Val × Val) := none
  flags : Flags := 0
  nonfinite : Nat := 0
  deriving DecidableEq, Repr

/-- A number as a 32-bit two's-complement integer. -/
def wrap32 (i : Int) : Int := intOf 32 (intCode 32 i)

/-- The value of an element of input `k` as the program reads it: integers and votes as ints, a number in the program's
format; the conversion of a NaN raises INVALID (R36, R132, R138) (DEDUCED, log entry 73). -/
def inputValue (p : Stroke) (k : Nat) (x : Elt) : Elt × Flags :=
  let t := ((p.ins.getD k none).map Tensor.type).getD .fp32
  match t.asRead x with
  | (.num v, fl) =>
    let r := p.fmt.round .rne false v
    (.num (p.fmt.decode r.1), if v.isNan && t = (if p.bf then .bf16 else .fp32) then 0 else fl ||| r.2)
  | (.int i, _) => (.int i, 0)
  | (.vote s f, _) => let r := voteValue s f; (.int r.1, r.2)

/-- An element's exact value, for an operand of float kind. -/
def Elt.float : Elt → Val
  | .num v => v
  | _ => .fin false 0 0

/-- An element's whole number, for an operand of int kind. -/
def Elt.whole : Elt → Int
  | .int i => i
  | _ => 0

/-- The order of MAX and MIN: −0 before +0 (R139). -/
def before (a b : Val) : Bool := a.lt b || (a.isZero && b.isZero && a.sign && !b.sign)

/-- IEEE 754-2019 maximum and minimum. -/
def valMax (a b : Val) : Val × Flags :=
  if a.isNan || b.isNan then (.nan, flagInvalid) else (if before a b then b else a, 0)
def valMin (a b : Val) : Val × Flags :=
  if a.isNan || b.isNan then (.nan, flagInvalid) else (if before b a then b else a, 0)

/-- An exact result rounded to a format under RNE, as a value (R132). -/
def rounded (f : Fmt) (r : Val × Flags) : Val × Flags :=
  let c := f.round .rne false r.1
  (f.decode c.1, r.2 ||| c.2)

/-- CMP (R139): whether the relation holds; a NaN operand raises INVALID (R36). -/
def compares (m : Nat) (a b : Val) : Bool × Flags :=
  if a.isNan || b.isNan then (m == 3, flagInvalid)
  else match m with
    | 0 => (a.lt b, 0)
    | 1 => (a.lt b || a.eqv b, 0)
    | 2 => (a.eqv b, 0)
    | _ => (!a.eqv b, 0)

/-- CVT and ITOF (R139). -/
def convert (w : Nat) (rm : Rm) (x : Elt) : Elt × Flags :=
  match ElemType.ofCode (iType w) with
  | some t =>
    if t.isInt then let r := toInt t.bits rm x.float; (.int r.1, r.2)
    else match t.fmt with
      | some f => let r := f.round rm (iSat w) x.float; (.num (f.decode r.1), r.2)
      | none => (x, 0)
  | none => (x, 0)

/-- The arithmetic of R139 and R157: the result of an instruction from its operands. `draw` is the draw at its site. -/
def aluOp (p : Stroke) (w draw : Nat) (xs : List Elt) : Elt × Flags :=
  let a := (xs.getD 0 (.int 0)).float
  let b := (xs.getD 1 (.int 0)).float
  let c := (xs.getD 2 (.int 0)).float
  let num (r : Val × Flags) : Elt × Flags := (.num r.1, r.2)
  let fmt := p.fmt
  match iOp w with
  | 0x02 => num (rounded fmt (a.add b))
  | 0x03 => num (rounded fmt (a.add b.neg))
  | 0x04 => num (rounded fmt (a.mul b))
  | 0x05 => num (rounded fmt (Val.fma a b c))
  | 0x06 => num (rounded fmt (Val.fma a.neg b c))
  | 0x07 => num (valMax a b)
  | 0x08 => num (valMin a b)
  | 0x09 => num (a.abs, if a.isNan then flagInvalid else 0)
  | 0x0A => num (a.neg, if a.isNan then flagInvalid else 0)
  | 0x0B => let r := compares (iM w) a b; (.int (if r.1 then 1 else 0), r.2)
  | 0x0C => (if (xs.getD 0 (.int 0)).whole ≠ 0 then xs.getD 1 (.int 0) else xs.getD 2 (.int 0), 0)
  | 0x0D => convert w (rmOf (iRm w) draw) (xs.getD 0 (.int 0))
  | 0x0E =>
    let r := fp32.round (rmOf (iRm w) draw) false (.ofInt (xs.getD 0 (.int 0)).whole)
    (.num (fp32.decode r.1), r.2)
  | 0x10 => (.int (wrap32 ((xs.getD 0 (.int 0)).whole + (xs.getD 1 (.int 0)).whole)), 0)
  | 0x11 =>
    let v := voteOf a
    let r := voteValue v.1 v.2.1
    (.int (wrap32 ((xs.getD 1 (.int 0)).whole + r.1)), v.2.2)
  | 0x12 => (.int (intOf 32 draw), 0)
  | 0x13 => num (rounded fmt (.fin false (draw / 2 ^ 40) (-24), 0))
  | 0x18 =>
    match SfuFn.ofCode (iB w) with
    | some f => let r := sfuEval f fmt a; (.num (fmt.decode r.1), r.2)
    | none => (xs.getD 0 (.int 0), 0)
  | _ => (xs.getD 0 (.int 0), 0)

/-- The value of a selector (R138). -/
def selValue (p : Stroke) (ins : List Elt) (j : List Nat) (l : Lane) (s : Nat) : Elt × Flags :=
  if s < 0x10 then (l.temps.getD s (.int 0), 0)
  else if s < 0x14 then inputValue p (s - 0x10) (ins.getD (s - 0x10) (.int 0))
  else if s < 0x20 then (.num (p.consts.getD (s - 0x18) .nan), 0)
  else if 0x28 ≤ s then (.int (j.getD (s - 0x28) 0), 0)
  else match s with
    | 0x20 => (.num (.fin false 0 0), 0)
    | 0x21 => (.num (.fin false 1 0), 0)
    | 0x22 => (.num (.fin true 1 0), 0)
    | 0x24 => (.int 1, 0)
    | _ => (.int 0, 0)

/-- One instruction on one element (R139, R140). `h` is the result of SCAN; none in the first sweep, which runs no
store (R155). -/
def laneStep (p : Stroke) (ins : List Elt) (j : List Nat) (draw : Nat → Nat) (h : Option Val) (first : Bool) (l : Lane)
    (w : Nat) : Lane :=
  if first && (l.ab.isSome || iOp w = 0x1E) then l
  else
    let vs : List (Elt × Flags) := (selectors w).map (selValue p ins j l)
    let l := { l with flags := vs.foldl (fun (f : Flags) (v : Elt × Flags) => f ||| v.2) l.flags }
    let xs := vs.map Prod.fst
    let a := (xs.getD 0 (.int 0)).float
    match iOp w with
    | 0x1C => { l with red := some a }
    | 0x1E => { l with stores := l.stores ++ [(iD w, xs.getD 0 (.int 0))] }
    | 0x1D => { l with ab := some (a, (xs.getD 1 (.int 0)).float), temps := l.temps.set (iD w) (.num (h.getD .nan)) }
    | op =>
      let r := aluOp p w (draw (iSite w)) xs
      { l with temps := l.temps.set (iD w) r.1, flags := l.flags ||| r.2,
               nonfinite := l.nonfinite + (if op = 0x11 ∧ !a.isFinite then 1 else 0) }

/-- The program on one element. -/
def runLane (p : Stroke) (ins : List Elt) (j : List Nat) (draw : Nat → Nat) (h : Option Val) (first : Bool) : Lane :=
  p.instrs.foldl (laneStep p ins j draw h first) {}

/-! ### Reductions and scans (R153 to R155) -/

/-- The combine of R153 and R154: SUM rounds to FP32; MAX and MIN are exact. -/
def redOp (rop : Nat) (a b : Val) : Val × Flags :=
  match rop with
  | 0 => rounded fp32 (a.add b)
  | 1 => valMax a b
  | _ => valMin a b

/-- combine of R154: an absent operand gives the other. -/
def combine {α : Type} (op : α → α → α × Flags) : Option α → Option α → Option α × Flags
  | none, v => (v, 0)
  | u, none => (u, 0)
  | some u, some v => let r := op u v; (some r.1, r.2)

/-- The lanes of reduce_axis0: the least power of two that is at least n, and at most 2,048. -/
def laneCount (n : Nat) : Nat := (List.range 11).foldl (fun s _ => if s < n ∧ s < 2048 then 2 * s else s) 1

/-- Combine neighbours. -/
def pairUp {α : Type} (op : α → α → α × Flags) : List (Option α) → List (Option α × Flags)
  | a :: b :: rest => combine op a b :: pairUp op rest
  | [a] => [(a, 0)]
  | [] => []

/-- `n` halvings of the lanes. -/
def halvings {α : Type} (op : α → α → α × Flags) : Nat → List (Option α) → Flags → Option α × Flags
  | 0, xs, f => (xs.headD none, f)
  | n + 1, xs, f =>
    if xs.length ≤ 1 then (xs.headD none, f)
    else
      let rs := pairUp op xs
      halvings op n (rs.map Prod.fst) (rs.foldl (fun a r => a ||| r.2) f)

/-- The accumulators of the lanes before the halvings (DEDUCED, log entry 28). -/
def laneSums {α : Type} (op : α → α → α × Flags) (s : Nat) (xs : List α) : List (Option α × Flags) :=
  (List.range s).map fun l =>
    ((xs.zipIdx.filter fun x => x.2 % s = l).map Prod.fst).foldl (fun acc x =>
      let r := combine op acc.1 (some x)
      (r.1, acc.2 ||| r.2)) (none, 0)

/-- reduce_axis0 of R154. -/
def reduceAxis0 {α : Type} (op : α → α → α × Flags) (xs : List α) : Option α × Flags :=
  let rs := laneSums op (laneCount xs.length) xs
  halvings op 11 (rs.map Prod.fst) (rs.foldl (fun a r => a ||| r.2) 0)

/-- reduce_outer of R154: from left to right. -/
def reduceOuter {α : Type} (op : α → α → α × Flags) (xs : List α) : Option α × Flags :=
  xs.foldl (fun acc x => let r := combine op acc.1 (some x); (r.1, acc.2 ||| r.2)) (none, 0)

/-- FMA rounded to FP32. -/
def fma32 (a b c : Val) : Val × Flags := rounded fp32 (Val.fma a b c)

/-- The first sweep over a chunk: p and q of R155. -/
def chunkSummary (ab : List (Val × Val)) : Val × Val × Flags :=
  match ab with
  | [] => (.nan, .nan, 0)
  | (a, b) :: rest => rest.foldl (fun s x =>
      let p := rounded fp32 (x.1.mul s.1)
      let q := fma32 x.1 s.2.1 x.2
      (p.1, q.1, s.2.2 ||| p.2 ||| q.2)) (a, b, 0)

/-- The carries of R155, from the carry into the first chunk. -/
def carries : Option Val → List (Val × Val × Flags) → List (Option Val) × Flags
  | _, [] => ([], 0)
  | c, s :: rest =>
    let n : Val × Flags := match c with
      | none => (s.2.1, 0)
      | some h => fma32 s.1 h s.2.1
    let r := carries (some n.1) rest
    -- the last summary feeds no carry
    (c :: r.1, if rest.isEmpty then r.2 else n.2 ||| r.2)

/-- The second sweep over a chunk, from its carry. -/
def chunkScan : Option Val → List (Val × Val) → List (Val × Flags)
  | _, [] => []
  | none, (_, b) :: rest => (b, 0) :: chunkScan (some b) rest
  | some h, (a, b) :: rest => let r := fma32 a h b; r :: chunkScan (some r.1) rest

/-- scan of R155 over one sequence in chunks of `c`; a NaN operand raises INVALID (R36). -/
def scanSeq (c : Nat) (h0 : Option Val) (ab : List (Val × Val)) : List Val × Flags :=
  let cs := chunks c ab
  let ss := cs.map chunkSummary
  let (ks, f) := carries h0 ss
  let bad := ab.any (fun x => x.1.isNan || x.2.isNan) || h0.any Val.isNan
  let f := ss.foldl (fun a s => a ||| s.2.2) (if bad then f ||| flagInvalid else f)
  let outs := (ks.zip cs).flatMap fun x => chunkScan x.1 x.2
  (outs.map Prod.fst, outs.foldl (fun a r => a ||| r.2) f)

end Sys2Proof.Machine
end

