-- ==== Sys2Proof/Machine/Rings.lean ====
section
/-! DEFINITION. Transaction tags, the poller, the ring scheduler, completion queues and messages, and the ring
registers (R180 to R190, R202 to R213, R352, R353). -/

namespace Sys2Proof.Machine

variable {s₀ : State}

/-! ### Transaction tags (R202, R353) -/

/-- Send what a request sends once it has a tag and its port has room for it, or hold it (R202, R336, R353) (DEDUCED, log
entry 36). -/
def withTag (owner : Option Nat) (what : List Out) : Act s₀ Unit := do
  let s ← now
  if s.tagFree owner && s.mayAsk what then
    takeTag owner
    each what sendAsk
  else
    if !s.tagFree owner then countTagWait owner
    changeRings fun r => { r with tagWaits := r.tagWaits ++ [{ atelier := owner, what := what }] }

/-- A request that sends `o` still waits for its tag. -/
def State.waitsTag (s : State) (o : Out) : Bool := s.units.rings.tagWaits.any fun w => w.what.contains o

/-- Split a list at the first element that satisfies `p`. -/
def extractFirst {α : Type} (p : α → Bool) : List α → Option α × List α
  | [] => (none, [])
  | x :: xs => if p x then (some x, xs) else let r := extractFirst p xs; (r.1, x :: r.2)

/-! ### Groups -/

/-- The owning port of an atelier, as a port number. -/
def State.atelierPort (s : State) (a : Nat) : HostNo := Fin.ofNat 4 (s.portOf a)

/-- Fetch and delivery go on for an atelier (R348). -/
def State.fetches (s : State) (a : Nat) : Bool := s.fld ATL_STATUS_STATE a = 1

/-- The host address of a group's doorbell page and of its CQ. -/
def State.doorbell (s : State) (g : Nat) : Word := s.held (GRP_DB_ADDR.addr g 0) &&& 0xfffffffffffff000
def State.cqBase (s : State) (g : Nat) : Word := s.held (GRP_CQ_ADDR.addr g 0) &&& 0xfffffffffffff000

/-- An atelier's records and mirrors are held: it is orphaned, or adopted and not yet released (R349, R350) (DEDUCED,
log entry 52). -/
def State.holdsRecords (s : State) (a : Nat) : Bool := s.on ATL_STATUS_ORPHANED a || s.units.host.adopted.contains a

/-- Little-endian bytes of a number. -/
def bytesOf (n : Nat) (v : Nat) : List Byte := (List.range n).map fun k => BitVec.ofNat 8 (v / 256 ^ k)

/-- The number of little-endian bytes. -/
def ofBytes (bs : List Byte) : Nat := bs.foldr (fun b a => b.toNat + 256 * a) 0

/-- An event record of KIND 1 to 3 (R204, R207). What the layout states for no such record is a free value (DESIGN
CHOICE, log entry 35). -/
def eventRecord (kind ring : Nat) (pos start opcode : Option Nat) (detail : Nat) (target : Nat) : Act s₀ Unit := do
  let i ← freeIndex
  let free := (Config.freeWord i).toNat
  let j ← freeIndex
  let t ← ask fun s => s.now40 target
  queueRecord { group := ring / 64, slot := none, irq := false, fault := true,
                bits := cqBits kind ring (pos.getD free) 0 0 (opcode.getD (free / 2 ^ 32))
                  (start.getD (Config.freeWord j).toNat) 0 t detail }

/-- The RETIRED mirror of a group is written (R184, R188), while its atelier has a port. -/
def writeMirror (g : Nat) : Act s₀ Unit := do
  let s ← now
  match s.groupOwner g with
  | none => pure ()
  | some a =>
    if s.holdsRecords a then pure ()
    else
      let data := (List.range 64).flatMap fun i =>
        let r := 64 * g + i
        bytesOf 8 (s.fld RING_RETIRED_RETIRED r + s.fld RING_STATE_STATE r * 2 ^ 32
          + s.fld RING_STATE_HALT_CAUSE r * 2 ^ 36)
      send (.hostWrite (s.atelierPort a) (s.doorbell g + 0x240) data)
      changeRings fun u => { u with dirty := u.dirty.filter (· ≠ g) }
      settleFences

/-- A sweep ends when none of its reads is outstanding: the mirrors of the groups that changed are written (R188). -/
def settleSweep : Act s₀ Unit := do
  let s ← now
  let u := s.units.rings
  if u.sweeping && u.sumReads.isEmpty && u.tailReads.isEmpty then
    changeRings fun r => { r with sweeping := false }
    each u.dirty writeMirror

/-- The groups that the poller reads: ACTIVE ones of ateliers that fetch (R186, R348). -/
def State.polled (s : State) : List Nat :=
  s.regs.filterMap fun e =>
    match place e.1 with
    | .reg .grp g 0 =>
      if bits e.2 0 0 = 1 then
        (match s.groupOwner g with
         | some a => if s.fetches a then some g else none
         | none => none)
      else none
    | _ => none

/-- The reads of a doorbell page. -/
def State.summaryRead (s : State) (g : Nat) : Out :=
  .hostRead (s.atelierPort ((s.groupOwner g).getD 0)) (s.doorbell g) 16
def State.tailRead (s : State) (g : Nat) : Out :=
  .hostRead (s.atelierPort ((s.groupOwner g).getD 0)) (s.doorbell g + 0x40) 512

/-- Start a sweep (R186): one read for each polled group. The poller's reads are the module's own (R353). -/
def startSweep : Act s₀ Unit := do
  let s ← now
  let gs := s.polled
  changeRings fun u => { u with sweeping := true, sumReads := gs, sweepOwed := false, late := [] }
  uncore 5 0 0x50 1
  each gs fun g => withTag none [s.summaryRead g]
  settleSweep

/-- A sweep falls due (R186). One that has not ended delays it. -/
def actPollSweep : Act s₀ Unit := do
  let s ← now
  if s.units.rings.sweeping then
    if !s.units.rings.sweepOwed then
      countUp RING_POLL_STATUS_OVERRUN 1
      changeRings fun u => { u with sweepOwed := true }
  else startSweep

/-- POLL_SWEEP. -/
def execPollSweep (s : State) : Host.Outcome State Fault Refusal := .next (perform s actPollSweep)

/-- The sweep's outstanding reads may be over, and a delayed sweep may start. -/
def sweepOn : Act s₀ Unit := do
  settleSweep
  let s ← now
  if !s.units.rings.sweeping && s.units.rings.sweepOwed then startSweep

/-- A read of a doorbell page failed (R187). -/
def doorbellError (g : Nat) : Act s₀ Unit := do
  raise GRP_STATUS_DB_READ_ERR g
  setF GRP_DB_ACTIVE 0 g
  let s ← now
  let full : Nat := if (2 ^ s.fld GRP_CQ_LOG2_ENTRIES g : Int) ≤ sdiff (s.fld GRP_CQ_POS_TAIL g) (s.fld GRP_CQ_POS_HEAD_SEEN g) 32
    then 1 else 0
  let status := 8 * s.fld GRP_STATUS_DB_BACKWARD g + 4 + 2 * s.fld GRP_STATUS_CQ_WRITE_ERR g + full
  eventRecord 3 (64 * g) none none none status 0x50

/-- The summary read of a group is over. -/
def dropSummary (g : Nat) : Act s₀ Unit := do
  let s ← now
  changeRings fun u => { u with sumReads := u.sumReads.filter (· ≠ g) }
  answered none (s.portOf ((s.groupOwner g).getD 0))

/-- The CQ_HEAD of a group as the sweep read it: held records go on when it moves (R204) (DEDUCED, log entry 36). -/
def takeHead (g head : Nat) : Act s₀ Unit := do
  let old ← fld GRP_CQ_POS_HEAD_SEEN g
  setF GRP_CQ_POS_HEAD_SEEN head g
  if old ≠ head then changeRings fun u => { u with cqHeld := u.cqHeld.filter (· ≠ g) }

/-- A ring was enabled or resumed since the sweep in progress started. -/
def State.isLate (s : State) (r : Nat) : Bool := s.units.rings.late.any fun e => e.1 = r

/-- A ring of the group waits for a TAIL read of this sweep (R180, R186). -/
def State.wantsTails (s : State) (g : Nat) : Bool := s.units.rings.fresh.any fun r => r / 64 = g && !s.isLate r

/-- SUMMARY_READ_RETURN (R186, R187): none is a failed read. -/
def actSummaryReadReturn (g : Nat) (data : Option Summary) : Act s₀ Unit := do
  let s ← now
  if s.units.rings.sumReads.contains g && !s.waitsTag (s.summaryRead g) then
    dropSummary g
    match data with
    | none => doorbellError g
    | some d =>
      takeHead g d.cqHead.toNat
      if (d.summary.toNat ≠ s.fld GRP_SUMMARY_SEEN_VALUE g || s.wantsTails g)
          && ((s.groupOwner g).any fun a => s.fetches a) then
        changeRings fun u => { u with tailReads := u.tailReads ++ [(g, d.summary)] }
        withTag none [s.tailRead g]
    sweepOn

/-- SUMMARY_READ_RETURN. -/
def execSummaryReadReturn (g : GrpNo) (data : Option Summary) (s : State) : Host.Outcome State Fault Refusal :=
  .next (perform s (actSummaryReadReturn g data))

/-! ### Fetch (R189, R190) -/

/-- The context that a ring's fetch has reached (R196). -/
def State.ringCtx (s : State) (r : Nat) : Ctx :=
  ⟨s.held (RING_SEED_SEED.addr r 0), s.held (RING_KEY_HI_STEP.addr r 0), s.on RING_STATE_PHASE r⟩

/-- Set it. -/
def setRingCtx (r : Nat) (c : Ctx) : Act s₀ Unit := do
  emit (.reg (RING_SEED_SEED.addr r 0) c.seed)
  emit (.reg (RING_KEY_HI_STEP.addr r 0) c.keyHi)
  setF RING_STATE_PHASE (if c.backward then 1 else 0) r

/-- The outstanding fetch of a ring, if it has one, is given up (R190). -/
def giveUpFetch (r : Nat) : Act s₀ Unit :=
  changeRings fun u => if u.fetching.any (fun x => x.1 = r) then { u with stale := setIns u.stale r } else u

/-- A ring halts (R190, R207). -/
def haltRing (r cause : Nat) : Act s₀ Unit := do
  giveUpFetch r
  setF RING_STATE_HALT_CAUSE cause r
  setRingState r 2
  let s ← now
  eventRecord 2 r (some (s.fld RING_POS_FETCHED r)) none none cause (s.fld RING_CFG_TARGET r)

/-- The fetched and undelivered descriptors of a ring, in position order. -/
def State.waiting (s : State) (r : Nat) : List Fetched := s.units.rings.fetched.filter fun f => f.ring = r

/-- Fetched descriptors that have not been delivered are discarded: FETCHED and the context move back to the first of
them (R190, R348). -/
def discardFetched (r : Nat) : Act s₀ Unit := do
  giveUpFetch r
  match (← now).waiting r with
  | [] => pure ()
  | f :: _ =>
    setF RING_POS_FETCHED f.pos r
    setRingCtx r f.ctx
    changeRings fun u => { u with fetched := u.fetched.filter fun x => x.ring ≠ r }

/-- The first position of a ring that has not been delivered. -/
def State.firstUndelivered (s : State) (r : Nat) : Nat :=
  match s.waiting r with
  | f :: _ => f.pos
  | [] => s.fld RING_POS_FETCHED r

/-- How many entries the next read of a ring covers (R187, R189, R209). -/
def State.fetchable (s : State) (r : Nat) : Nat :=
  let f := s.fld RING_POS_FETCHED r
  let n := 2 ^ s.fld RING_BASE_LOG2_ENTRIES r
  let ahead (p : Nat) : Int := sdiff p f 32
  let window : Int :=
    if s.on RING_CFG_SCHED r then ahead ((s.firstUndelivered r + 4096) % 2 ^ 32) else 64
  if s.fld RING_STATE_STATE r ≠ 1 || s.units.rings.fresh.contains r
      || s.units.rings.fetching.any (fun x => x.1 = r)
      || !((s.ringOwner r).any fun a => s.fetches a) then 0
  else
    (min (min (min 64 window) (ahead (s.fld RING_POS_TAIL r)))
      (min (ahead ((s.fld RING_RETIRED_RETIRED r + n) % 2 ^ 32)) ((n - f % n : Nat) : Int))).toNat

/-- The read of `n` ring entries at position `p`. -/
def State.ringRead (s : State) (r p n : Nat) : Out :=
  let base := s.held (RING_BASE_ADDR.addr r 0) &&& 0xfffffffffffffc00
  .hostRead (s.atelierPort ((s.ringOwner r).getD 0))
    (base + BitVec.ofNat 64 (64 * (p % 2 ^ s.fld RING_BASE_LOG2_ENTRIES r))) (64 * n)

/-- RING_FETCH (R189). -/
def actRingFetch (r : Nat) : Act s₀ Unit := do
  let s ← now
  let n := s.fetchable r
  if n ≠ 0 then
    let p := s.fld RING_POS_FETCHED r
    changeRings fun u => { u with fetching := u.fetching ++ [(r, p, n)] }
    withTag (s.ringOwner r) [s.ringRead r p n]

/-- RING_FETCH. -/
def execRingFetch (r : RingNo) (s : State) : Host.Outcome State Fault Refusal := .next (perform s (actRingFetch r))

/-- The descriptor at a position has been delivered since its ring was enabled: it holds a slot, or has completed (R190,
R209). -/
def State.delivered (s : State) (r p : Nat) : Bool :=
  s.slots.any (fun d => d.ring = r && d.pos = p && !d.old) || s.units.rings.retDone.contains (r, p)

/-- STREAM_SET's context (R196). -/
def streamCtx (w : Descriptor) : Ctx :=
  ⟨BitVec.ofNat 64 (body w 0 63 0), BitVec.ofNat 64 (body w 1 63 0), body w 2 0 0 = 1⟩

/-- Take fetched entries in order, up to one whose SEQ is stale (R190, R196). -/
def takeEntries (r : Nat) : List Descriptor → Act s₀ Unit
  | [] => pure ()
  | w :: ws => do
    let s ← now
    let p := s.fld RING_POS_FETCHED r
    if dBits w 69 64 ≠ p / 2 ^ s.fld RING_BASE_LOG2_ENTRIES r % 64 then haltRing r 1
    else
      let c := s.ringCtx r
      let own : Ctx := if opcodeOf w = 0x01 then streamCtx w else c
      if !s.delivered r p then
        changeRings fun u => { u with fetched := u.fetched ++ [⟨r, p, w, c⟩] }
      if opcodeOf w = 0x01 then setRingCtx r own
      setF RING_POS_FETCHED ((p + 1) % 2 ^ 32) r
      takeEntries r ws

/-! ### Schedules (R208, R209) -/

/-- The table of a ring's walk: none where the walk follows the fill-then-drain order. -/
def State.walkTable (s : State) (r : Nat) : Option (List (BitVec 32)) :=
  (s.units.rings.schedules.find? fun e => e.1 = r).map Prod.snd

/-- The schedule entry at a ring's cursor position `c`: PHASE and MB; none where there is none, or its table has not
been read (R208). -/
def State.schedEntry (s : State) (r c : Nat) : Option (Bool × Nat) :=
  match s.ringOwner r, s.walkTable r with
  | none, _ => none
  | some _, some es => (es[c]?).map fun v => (v.toNat / 2 ^ 31 = 1, v.toNat % 2 ^ 16)
  | some a, none =>
    if s.units.rings.schedReads.contains r then none
    else
      let m := s.fld RING_FTD_MB_COUNT 0 a
      if c < m then some (false, c) else if c < 2 * m then some (true, 2 * m - 1 - c) else none

/-- The number of entries of a ring's walk. -/
def State.schedLength (s : State) (r : Nat) : Nat :=
  match s.ringOwner r, s.walkTable r with
  | none, _ => 0
  | some _, some es => es.length
  | some a, none => 2 * s.fld RING_FTD_MB_COUNT 0 a

/-- The read of an atelier's schedule table. -/
def State.schedRead (s : State) (a : Nat) : Out :=
  .hostRead (s.atelierPort a) (s.held (RING_SCHED_ADDR.addr 0 a) &&& 0xfffffffffffff000) (4 * s.fld RING_SCHED_LENGTH 0 a)

/-- A walk of a SCHED ring starts: its table, if its atelier has one, is read afresh (R208). -/
def startWalk (r : Nat) : Act s₀ Unit := do
  let s ← now
  match s.ringOwner r with
  | none => pure ()
  | some a =>
    changeRings fun u => { u with schedules := u.schedules.filter fun e => e.1 ≠ r }
    if s.fld RING_SCHED_LENGTH 0 a ≠ 0 then
      changeRings fun u => { u with schedReads := u.schedReads ++ [r] }
      withTag (some a) [s.schedRead a]

/-- A read of an atelier's table has a tag, and is outstanding. -/
def State.schedOut (s : State) (a : Nat) : Bool :=
  (s.units.rings.tagWaits.filter fun w => w.atelier = some a && w.what.contains (s.schedRead a)).length
    < (s.units.rings.schedReads.filter fun r => s.ringOwner r = some a).length

/-- The open segment of a SCHED ring: its first position and the next one of it. -/
def State.segmentOf (s : State) (r : Nat) : Option (Nat × Nat) :=
  (s.units.rings.segment.find? fun e => e.1 = r).map Prod.snd

/-- A fetched descriptor that starts a segment whose context is a schedule entry (R209): a STREAM_SET, or the first
descriptor since the ring was enabled. -/
def startsSegment (s : State) (r : Nat) (want : Bool × Nat) (f : Fetched) : Bool :=
  let c : Option Ctx :=
    if opcodeOf f.words = 0x01 then some (streamCtx f.words)
    else if (s.units.rings.starts.find? fun e => e.1 = r).map Prod.snd = some f.pos then some f.ctx
    else none
  match c with
  | some x => x.backward = want.1 && x.keyHi.toNat % 2 ^ 16 = want.2
  | none => false

/-- The open segment of a SCHED ring is over: its next position starts another, or was delivered before (R209). -/
def State.segmentOver (s : State) (r : Nat) : Bool :=
  (s.segmentOf r).any fun g =>
    ((s.waiting r).any fun f => f.pos = g.2 && opcodeOf f.words = 0x01) || s.delivered r g.2

/-- The cursor of the segment that would start next: the entry after that of the open segment, the first one of the walk
that follows, or the cursor's own. -/
def State.nextCursor (s : State) (r : Nat) : Nat :=
  let c := s.fld RING_STATE_CURSOR r
  if (s.segmentOf r).isNone then c else if s.units.rings.rewound.contains r then 0 else c + 1

/-- The schedule entry of the segment that would start next. -/
def State.nextEntry (s : State) (r : Nat) : Option (Bool × Nat) := s.schedEntry r (s.nextCursor r)

/-- The last segment of a walk is over: the next walk's table is read before its first segment is chosen (R208). -/
def settleWalk (r : Nat) : Act s₀ Unit := do
  let s ← now
  if s.on RING_CFG_SCHED r && s.segmentOver r && !s.units.rings.rewound.contains r
      && !s.units.rings.schedReads.contains r && s.schedLength r ≤ s.fld RING_STATE_CURSOR r + 1 then
    changeRings fun u => { u with rewound := setIns u.rewound r }
    startWalk r

/-- The descriptor that a ring delivers next (R189, R209), and whether it starts a segment (DEDUCED, log entry 22). -/
def State.nextDelivery (s : State) (r : Nat) : Option (Fetched × Bool) :=
  let fs := s.waiting r
  if !s.on RING_CFG_SCHED r then fs.head?.map fun f => (f, false)
  else
    let open1 : Option Fetched := (s.segmentOf r).bind fun g => fs.find? fun f => f.pos = g.2
    match s.segmentOf r, open1 with
    | some _, some f =>
      if opcodeOf f.words ≠ 0x01 then some (f, false)
      else
        ((s.nextEntry r).bind fun w => fs.find? (startsSegment s r w)).map fun x => (x, true)
    | some g, none =>
      -- the segment's next position was delivered before, so it starts another segment; or it is not fetched yet
      if s.delivered r g.2 then
        ((s.nextEntry r).bind fun w => fs.find? (startsSegment s r w)).map fun x => (x, true)
      else none
    | none, _ => ((s.nextEntry r).bind fun w => fs.find? (startsSegment s r w)).map fun x => (x, true)

/-- A full SCHED ring with no match in its search window halts (R209). -/
def settleSched (r : Nat) : Act s₀ Unit := do
  let s ← now
  if s.on RING_CFG_SCHED r && s.fld RING_STATE_STATE r = 1 && s.fetchable r = 0
      && !s.units.rings.fetching.any (fun x => x.1 = r) && !s.units.rings.fresh.contains r
      && sdiff (s.fld RING_POS_TAIL r) (s.fld RING_RETIRED_RETIRED r) 32 = (2 ^ s.fld RING_BASE_LOG2_ENTRIES r : Nat)
      && (s.nextEntry r).isSome && (s.nextDelivery r).isNone then
    haltRing r 4

/-- SCHED_TABLE_READ: the table of a walk's start has been read (R208). One read is outstanding for each waiting ring; where
a ring has asked again since, only the last read counts. -/
def actSchedTableRead (a : Nat) (entries : List (BitVec 32)) : Act s₀ Unit := do
  let s ← now
  match extractFirst (fun r => s.ringOwner r = some a) s.units.rings.schedReads with
  | (none, _) => pure ()
  | (some r, rest) =>
    if s.schedOut a then
      changeRings fun u => { u with
        schedReads := rest
        schedules := if rest.contains r then u.schedules else (r, entries) :: u.schedules.filter fun e => e.1 ≠ r }
      answered (some a) (s.portOf a)
      settleSched r

/-- SCHED_TABLE_READ: at most 1,024 entries (R211). -/
def execSchedTableRead (a : AtlNo) (entries : List (BitVec 32)) (s : State) : Host.Outcome State Fault Refusal :=
  if entries.length ≤ 1024 then .next (perform s (actSchedTableRead a entries)) else .fault (.illFormed "SCHED_TABLE_READ")

/-- RING_FETCH_RETURN (R190): none is a failed read. Data of a fetch that has since been given up are dropped, and data
of another length than the read asked for are no return of it (DEDUCED, log entry 36). -/
def actRingFetchReturn (r : Nat) (data : Option (List Descriptor)) : Act s₀ Unit := do
  let s ← now
  match s.units.rings.fetching.find? fun x => x.1 = r with
  | none => pure ()
  | some (_, p, n) =>
    if !s.waitsTag (s.ringRead r p n) && data.all (fun ws => ws.length = n) then
      changeRings fun u => { u with fetching := u.fetching.filter (fun x => x.1 ≠ r), stale := u.stale.filter (· ≠ r) }
      answered (s.ringOwner r) (s.portOf ((s.ringOwner r).getD 0))
      if !s.units.rings.stale.contains r && s.fld RING_STATE_STATE r = 1 && !s.units.rings.fresh.contains r && s.fld RING_POS_FETCHED r = p
          && ((s.ringOwner r).any fun a => s.fetches a) then
        match data with
        | none => haltRing r 2
        | some ws =>
          uncore 5 0 0x51 n
          takeEntries r ws
          settleWalk r
          settleSched r

/-- RING_FETCH_RETURN. -/
def execRingFetchReturn (r : RingNo) (data : Option (List Descriptor)) (s : State) : Host.Outcome State Fault Refusal :=
  .next (perform s (actRingFetchReturn r data))

/-- A ring takes its TAIL (R187); one enabled in the sweep takes it in the next, and one resumed in it goes on fetching from
the next (R180) (DEDUCED, log entry 22). -/
def takeTail (r tail : Nat) : Act s₀ Unit := do
  let s ← now
  let st := s.fld RING_STATE_STATE r
  if (st = 1 ∨ st = 2) ∧ !s.units.rings.late.contains (r, true) then
    if sdiff tail (s.fld RING_POS_TAIL r) 32 < 0 then raise GRP_STATUS_DB_BACKWARD (r / 64)
    else setF RING_POS_TAIL tail r
    if !s.isLate r then changeRings fun u => { u with fresh := u.fresh.filter (· ≠ r) }
    let s' ← now
    if st = 1 ∧ (2 ^ s.fld RING_BASE_LOG2_ENTRIES r : Int)
        < sdiff (s'.fld RING_POS_TAIL r) (s'.fld RING_RETIRED_RETIRED r) 32 then haltRing r 3
    else settleSched r

/-- TAIL_READ_RETURN (R186, R187): the 64 TAILs of a group, or a failed read. -/
def actTailReadReturn (g : Nat) (tails : Option (List (BitVec 32))) : Act s₀ Unit := do
  let s ← now
  match s.units.rings.tailReads.find? fun x => x.1 = g with
  | none => pure ()
  | some (_, sum) =>
    if !s.waitsTag (s.tailRead g) then
      changeRings fun u => { u with tailReads := u.tailReads.filter fun x => x.1 ≠ g }
      answered none (s.portOf ((s.groupOwner g).getD 0))
      match tails with
      | none => doorbellError g
      | some ts =>
        emit (.reg (GRP_SUMMARY_SEEN_VALUE.addr g 0) sum)
        each ts.zipIdx fun t => takeTail (64 * g + t.2) t.1.toNat
      sweepOn

/-- TAIL_READ_RETURN. -/
def execTailReadReturn (g : GrpNo) (tails : Option (List (BitVec 32))) (s : State) : Host.Outcome State Fault Refusal :=
  if (tails.all fun ts => ts.length = 64) then .next (perform s (actTailReadReturn g tails))
  else .fault (.illFormed "TAIL_READ_RETURN")

/-- A read of host memory gets no completion in time (R187, R190, R208). -/
def actHostReadTimeout (h : HostRead) : Act s₀ Unit := do
  let s ← now
  match h with
  | .doorbell g =>
    if s.units.rings.sumReads.contains g.val then actSummaryReadReturn g none else actTailReadReturn g none
  | .ring r => actRingFetchReturn r none
  | .schedule a =>
    match extractFirst (fun r => s.ringOwner r = some a.val) s.units.rings.schedReads with
    | (none, _) => pure ()
    | (some r, rest) =>
      if s.schedOut a then
        changeRings fun u => { u with
          schedReads := rest
          schedules := if rest.contains r then u.schedules else (r, []) :: u.schedules.filter fun e => e.1 ≠ r }
        answered (some a) (s.portOf a)
        if !rest.contains r ∧ s.fld RING_STATE_STATE r = 1 then haltRing r 2

/-- HOST_READ_TIMEOUT. -/
def execHostReadTimeout (h : HostRead) (s : State) : Host.Outcome State Fault Refusal :=
  .next (perform s (actHostReadTimeout h))

/-! ### Completion queues and messages (R204, R206, R352) -/

/-- A group's CQ is full (R204). A CQ_HEAD ahead of the records written leaves it empty. -/
def State.cqFull (s : State) (g : Nat) : Bool :=
  (2 ^ s.fld GRP_CQ_LOG2_ENTRIES g : Int) ≤ sdiff (s.fld GRP_CQ_POS_TAIL g) (s.fld GRP_CQ_POS_HEAD_SEEN g) 32

/-- The message spacing of a group. -/
def State.holdoff (s : State) (g : Nat) : Holdoff := mapGet (fun _ => {}) s.units.rings.holdoffs g

/-- Set it. -/
def setHoldoff (g : Nat) (h : Holdoff) : Act s₀ Unit :=
  changeRings fun u => { u with holdoffs := mapSet (fun _ => {}) u.holdoffs g h }

/-- A cause of a message arises (R206); an orphaned atelier's is dropped (R349). -/
def msixCause (g : Nat) : Act s₀ Unit := do
  let s ← now
  match s.groupOwner g with
  | some a => if !s.on ATL_STATUS_ORPHANED a then setHoldoff g { s.holdoff g with waiting := true }
  | none => pure ()

/-- An MSI-X table entry of a port. -/
def State.msixEntry (s : State) (p v : Nat) : MsixEntry := mapGet (fun _ => {}) s.units.rings.msix (2048 * p + v)

/-- Set it. -/
def setMsix (p v : Nat) (e : MsixEntry) : Act s₀ Unit :=
  changeRings fun u => { u with msix := mapSet (fun _ => {}) u.msix (2048 * p + v) e }

/-- MSI-X Enable and Function Mask of the Message Control word, which the model places at DWORD 0x2C (PRESUMED, log entry
9). -/
def State.msixEnabled (s : State) (p : Nat) : Bool := (s.config p 0x2C).getLsbD 31
def State.msixMasked (s : State) (p : Nat) : Bool := (s.config p 0x2C).getLsbD 30

/-- Send a port's message of a vector, after the mirrors of the groups that it is for, or leave it pending for them (R188,
R352). -/
def sendVector (p v : Nat) (gs : List Nat) : Act s₀ Unit := do
  let s ← now
  let e := s.msixEntry p v
  if s.msixEnabled p && !s.msixMasked p && !e.mask then
    each gs writeMirror
    setMsix p v { e with pending := false, groups := [] }
    send (.msix (Fin.ofNat 4 p) v e.addr e.data)
  else setMsix p v { e with pending := true, groups := gs }

/-- A group's message is due: it goes out, or waits with those of its vector that are pending (R206, R352). -/
def sendMessage (g : Nat) : Act s₀ Unit := do
  let s ← now
  setHoldoff g ⟨s.fld GRP_IRQ_HOLDOFF g ≠ 0, false⟩
  match s.groupOwner g with
  | none => pure ()
  | some a =>
    let v := s.fld GRP_IRQ_VECTOR g
    sendVector (s.portOf a) v (setIns (s.msixEntry (s.portOf a) v).groups g)

/-- MSIX_SEND: causes wait and no holdoff runs (R206). -/
def actMsixSend (g : Nat) : Act s₀ Unit := do
  let h ← ask fun s => s.holdoff g
  if h.waiting && !h.running then sendMessage g

/-- MSIX_SEND. -/
def execMsixSend (g : GrpNo) (s : State) : Host.Outcome State Fault Refusal := .next (perform s (actMsixSend g))

/-- MSIX_HOLDOFF_END: causes that arose in the holdoff are sent as one message (R206). -/
def actMsixHoldoffEnd (g : Nat) : Act s₀ Unit := do
  let h ← ask fun s => s.holdoff g
  if h.running then
    if h.waiting then sendMessage g else setHoldoff g {}

/-- MSIX_HOLDOFF_END. -/
def execMsixHoldoffEnd (g : GrpNo) (s : State) : Host.Outcome State Fault Refusal :=
  .next (perform s (actMsixHoldoffEnd g))

/-- Pending vectors of a port that are no longer masked send one message each (R352). -/
def sendPending (p : Nat) : Act s₀ Unit := do
  let s ← now
  each (s.units.rings.msix.filter fun e => e.1 / 2048 = p && e.2.pending) fun e => sendVector p (e.1 % 2048) e.2.groups

/-- MSIX_UNMASK: a vector's mask bit, or the Function Mask, is cleared (R352). -/
def actMsixUnmask (p : Nat) (vec : Option (Fin 2048)) : Act s₀ Unit := do
  match vec with
  | some v => do
    let e ← ask fun s => s.msixEntry p v
    setMsix p v { e with mask := false }
    if e.pending then sendVector p v e.groups
  | none => do
    let c ← ask fun s => s.config p 0x2C
    change fun u => { u with host := { u.host with
      config := mapSet (fun _ => 0) u.host.config (1024 * p + 0x2C) (c &&& ~~~ (BitVec.ofNat 32 (2 ^ 30))) } }
    sendPending p

/-- MSIX_UNMASK. -/
def execMsixUnmask (port : HostNo) (vec : Option (Fin 2048)) (s : State) : Host.Outcome State Fault Refusal :=
  .next (perform s (actMsixUnmask port vec))

/-- CQ_RECORD_WRITE: the first waiting record of a group is written where there is room (R204); `ok` says whether the
write succeeds. An orphaned atelier's records are held (R349) (DEDUCED, log entry 36). -/
def actCqRecordWrite (g : Nat) (ok : Bool) : Act s₀ Unit := do
  let s ← now
  match extractFirst (fun r : CqRecord => r.group = g) s.units.rings.cqWait, s.groupOwner g with
  | (some r, rest), some a =>
    if s.holdsRecords a || s.cqFull g || s.units.rings.cqHeld.contains g then pure ()
    else if !s.tagFree (some a) then
      if !r.waited then
        countTagWait (some a)
        changeRings fun u => { u with cqWait := u.cqWait.map fun x => if x = r then { x with waited := true } else x }
    else
      let k := s.fld GRP_CQ_LOG2_ENTRIES g
      let n := s.fld GRP_CQ_POS_TAIL g
      let phase : BitVec 256 := if n / 2 ^ k % 2 = 0 then 0x8000000000000000 else 0
      takeTag (some a)
      send (.hostWrite (s.atelierPort a) (s.cqBase g + BitVec.ofNat 64 (32 * (n % 2 ^ k))) (bytesOf 32 (r.bits ||| phase).toNat))
      freeTag (some a)
      if ok then
        changeRings fun u => { u with cqWait := rest }
        uncore 5 0 0x52 1
        setF GRP_CQ_POS_TAIL (n + 1) g
        if r.irq || (r.fault && s.on GRP_IRQ_FAULT_IRQ g) then msixCause g
        match r.slot.bind s.slot with
        | some d =>
          dropSlot d.id
          if !d.old then retire d.ring d.pos
          settleStopping d.ring
        | none => pure ()
        settleFences
      else
        raise GRP_STATUS_CQ_WRITE_ERR g
        changeRings fun u => { u with cqHeld := setIns u.cqHeld g }
  | _, _ => pure ()

/-- CQ_RECORD_WRITE. -/
def execCqRecordWrite (g : GrpNo) (ok : Bool) (s : State) : Host.Outcome State Fault Refusal :=
  .next (perform s (actCqRecordWrite g ok))

/-! ### Ring registers (R211, R212) -/

/-- A ring can be enabled (R212, R183). -/
def State.canEnable (s : State) (r : Nat) : Bool :=
  let k := s.fld RING_BASE_LOG2_ENTRIES r
  (s.ringOwner r).isSome && s.fld RING_CFG_TARGET r < 0x54 && 4 ≤ k && k ≤ 16 && s.on GRP_DB_ACTIVE (r / 64)

/-- Enable a ring (R190, R198, R212): fetching restarts at RETIRED, once its TAIL has been read. The TAIL that the next
one is compared with is RETIRED (DEDUCED, log entry 22). -/
def enableRing (r : Nat) : Act s₀ Unit := do
  let p ← fld RING_RETIRED_RETIRED r
  setF RING_CTL_ENABLE 1 r
  setF RING_STATE_HALT_CAUSE 0 r
  setF RING_POS_FETCHED p r
  setF RING_POS_TAIL p r
  changeRings fun u => { u with
    fresh := setIns u.fresh r
    late := (if u.sweeping then [(r, true)] else []) ++ u.late.filter fun e => e.1 ≠ r
    slots := u.slots.map fun d => if d.ring = r then { d with old := true } else d
    rewound := u.rewound.filter (· ≠ r)
    retDone := u.retDone.filter fun e => e.1 ≠ r
    starts := (r, p) :: u.starts.filter fun e => e.1 ≠ r
    segment := u.segment.filter fun e => e.1 ≠ r }
  setRingState r 1
  if ← isOn RING_CFG_SCHED r then startWalk r

/-- Disable a ring (R190). -/
def disableRing (r : Nat) : Act s₀ Unit := do
  setF RING_CTL_ENABLE 0 r
  discardFetched r
  changeRings fun u => { u with
    fresh := u.fresh.filter (· ≠ r)
    late := u.late.filter fun e => e.1 ≠ r
    segment := u.segment.filter fun e => e.1 ≠ r }
  setRingState r 3
  settleStopping r

/-- A write of RING[r].CTL (R190, R212) (DEDUCED, log entry 22). -/
def hookRingCtl (w : RegWrite) : Act s₀ Unit := do
  if w.may ≠ 0 then
    let r := w.inst
    let s ← now
    let st := s.fld RING_STATE_STATE r
    if w.field RING_CTL_ENABLE = 1 then
      if st = 0 && s.canEnable r then enableRing r
      else if st = 2 && w.does RING_CTL_RESUME then
        setF RING_STATE_HALT_CAUSE 0 r
        changeRings fun u => { u with
          fresh := setIns u.fresh r
          late := (if u.sweeping && !s.isLate r then [(r, false)] else []) ++ u.late }
        setRingState r 1
        if s.walkTable r = some [] then startWalk r
    else if st = 1 ∨ st = 2 then disableRing r

/-- RING_ENABLE. -/
def execRingEnable (port : HostNo) (r : RingNo) (v : Word) (s : State) : Host.Outcome State Fault Refusal :=
  .next (perform s (checkedWrite port (RING_CTL_ENABLE.addr r 0) v hookRingCtl))

/-- RING_DISABLE. -/
def execRingDisable (port : HostNo) (r : RingNo) (v : Word) (s : State) : Host.Outcome State Fault Refusal :=
  .next (perform s (checkedWrite port (RING_CTL_ENABLE.addr r 0) v hookRingCtl))

/-- RING_RESUME. -/
def execRingResume (port : HostNo) (r : RingNo) (v : Word) (s : State) : Host.Outcome State Fault Refusal :=
  .next (perform s (checkedWrite port (RING_CTL_RESUME.addr r 0) v hookRingCtl))

/-- A field that takes writes only while the ring is DISABLED (R212). -/
def hookWhileDisabled (w : RegWrite) : Act s₀ Unit := do
  if (← fld RING_STATE_STATE w.inst) = 0 then plainHook w

/-- A write of RING[r].RETIRED while DISABLED sets RETIRED and FETCHED (R212). -/
def hookRetired (w : RegWrite) : Act s₀ Unit := do
  if (← fld RING_STATE_STATE w.inst) = 0 ∧ w.may ≠ 0 then
    plainHook w
    setF RING_POS_FETCHED (w.field RING_RETIRED_RETIRED) w.inst
    changeRings fun u => { u with retDone := u.retDone.filter fun e => e.1 ≠ w.inst }
    settleWaits

/-- RETIRED_WRITE. -/
def execRetiredWrite (port : HostNo) (r : RingNo) (v : Word) (s : State) : Host.Outcome State Fault Refusal :=
  .next (perform s (checkedWrite port (RING_RETIRED_RETIRED.addr r 0) v hookRetired))

/-- An atelier may bind a ring to a target (R342). -/
def State.targetAllowed (s : State) (a t : Nat) : Bool :=
  if t < 64 then s.tileOwner t = some a || s.rightOf t = some a
  else if t < 0x50 then s.dieOwner (t - 0x40) = some a
  else t = 0x50 || t = 0x51 || t = 0x53 || (t = 0x52 && s.mgmtAtelier = some a)

/-- A write of RING[r].CFG (R342): a TARGET that the atelier may not bind is discarded and recorded. -/
def hookRingCfg (w : RegWrite) : Act s₀ Unit := do
  let s ← now
  let t := w.field RING_CFG_TARGET
  if t = s.fld RING_CFG_TARGET w.inst || ((s.ringOwner w.inst).any fun a => s.targetAllowed a t) then plainHook w
  else discardRecorded w

/-- A write of RING.GRP[g].DB (R212): ACTIVE is taken only with the doorbell and the CQ set. -/
def hookGrpDb (w : RegWrite) : Act s₀ Unit := do
  let s ← now
  let k := s.fld GRP_CQ_LOG2_ENTRIES w.inst
  let ok : Bool := w.field GRP_DB_ADDR ≠ 0 && s.fld GRP_CQ_ADDR w.inst ≠ 0 && 6 ≤ k && k ≤ 16
  emit (.reg w.addr (if w.field GRP_DB_ACTIVE = 1 ∧ !ok then putBits w.new 0 0 (bits w.old 0 0) else w.new))

/-- GROUP_ACTIVATE. -/
def execGroupActivate (port : HostNo) (g : GrpNo) (v : Word) (s : State) : Host.Outcome State Fault Refusal :=
  .next (perform s (checkedWrite port (GRP_DB_ADDR.addr g 0) v hookGrpDb))

/-- A write of RING.SCHED[a] (R211): a LENGTH above 1,024 is discarded and recorded. -/
def hookSched (w : RegWrite) : Act s₀ Unit :=
  if 1024 < w.field RING_SCHED_LENGTH then discardRecorded w else plainHook w

end Sys2Proof.Machine
end

