-- ==== Sys2Proof/Machine/Frames.lean ====
section
/-! DEFINITION. Frames and the link layer under them: the layout of R250, flits and their CRC, credits and the sender of
R241 to R244, routing (R255, R280), and frames that descriptors send and have acknowledged (R253). -/

namespace Sys2Proof.Machine

variable {s₀ : State}

/-! ### The frame header (R250) -/

/-- Frame kinds. -/
def kindWrite : Nat := 0
def kindReduce : Nat := 1
def kindGather : Nat := 2
def kindMembership : Nat := 3
def kindAck : Nat := 4
def kindNotice : Nat := 5
def kindSync : Nat := 6
def kindSyncResp : Nat := 7

def Frame.dst (f : Frame) : Nat := bits f.w0 63 48
def Frame.src (f : Frame) : Nat := bits f.w0 47 32
def Frame.kind (f : Frame) : Nat := bits f.w0 31 28
def Frame.vl (f : Frame) : Nat := bits f.w0 27 23
def Frame.cls (f : Frame) : Nat := bits f.w0 22 22
def Frame.ttl (f : Frame) : Nat := bits f.w0 21 10
def Frame.bitmask (f : Frame) : Bool := bits f.w0 0 0 = 1
def Frame.gen (f : Frame) : Nat := bits f.w1 63 48
def Frame.addr (f : Frame) : Nat := bits f.w1 47 0
def Frame.group (f : Frame) : Nat := bits f.w2 63 52
def Frame.granules (f : Frame) : Nat := bits f.w2 50 44
def Frame.ac (f : Frame) : Option Nat := if bits f.w2 33 33 = 1 then some (bits f.w2 43 34) else none
def Frame.tag (f : Frame) : Nat := bits f.w2 31 0
def Frame.kw (f : Frame) : Nat := f.w3.toNat

/-- A frame from its fields; its TTL and TAG are filled in where it is sent. -/
def mkFrame (dst src kind vl gen addr group : Nat) (ac : Option Nat) (kw : Nat) (payload : List Granule)
    (bitmask : Bool := false) : Frame :=
  { w0 := BitVec.ofNat 64 (dst % 2 ^ 16 * 2 ^ 48 + src % 2 ^ 16 * 2 ^ 32 + kind % 16 * 2 ^ 28 + vl % 32 * 2 ^ 23
      + (if bitmask then 1 else 0))
    w1 := BitVec.ofNat 64 (gen % 2 ^ 16 * 2 ^ 48 + addr % 2 ^ 48)
    w2 := BitVec.ofNat 64 (group % 2 ^ 12 * 2 ^ 52 + payload.length % 128 * 2 ^ 44 + ac.getD 0 % 1024 * 2 ^ 34
      + (if ac.isSome then 2 ^ 33 else 0))
    w3 := BitVec.ofNat 64 kw
    payload := payload }

def Frame.withTtl (f : Frame) (n : Nat) : Frame := { f with w0 := putBits f.w0 21 10 n }
def Frame.withCls (f : Frame) (n : Nat) : Frame := { f with w0 := putBits f.w0 22 22 n }
def Frame.withContrib (f : Frame) (n : Nat) : Frame := { f with contrib := BitVec.ofNat 32 n }
def Frame.withTag (f : Frame) (n : Nat) : Frame := { f with w2 := putBits f.w2 31 0 n }

/-- The chunks of a frame: two of header, four for each granule (R241, R250). -/
def Frame.chunks (f : Frame) : List (BitVec 128) :=
  [f.w1 ++ f.w0, f.w3 ++ f.w2] ++ f.payload.flatMap fun g => (List.range 4).map fun k => g.extractLsb' (128 * k) 128

/-- Granules from chunks. -/
def granulesOf : List (BitVec 128) → List Granule
  | a :: b :: c :: d :: rest => (d ++ c ++ b ++ a) :: granulesOf rest
  | _ => []

/-- The frame that chunks hold. -/
def frameOf : List (BitVec 128) → Frame
  | a :: b :: rest =>
    { w0 := a.extractLsb' 0 64
      w1 := a.extractLsb' 64 64
      w2 := b.extractLsb' 0 64
      w3 := b.extractLsb' 64 64
      payload := granulesOf rest }
  | _ => { w0 := 0, w1 := 0, w2 := 0, w3 := 0 }

/-- How many chunks a frame has, from its first two (R250). -/
def chunksNeeded : List (BitVec 128) → Nat
  | _ :: b :: _ => 2 + 4 * ((b.toNat >>> 44) % 128)
  | _ => 2

/-! ### Flits (R241, R242) -/

/-- One bit of the CRC. -/
def crcBit (c b : Nat) : Nat :=
  let c' := c * 2 % 2 ^ 64
  if c / 2 ^ 63 = b then c' else c' ^^^ 0x42F0E1EBA9EA3693

/-- One byte of the CRC, most significant bit first. -/
def crcByte (c b : Nat) : Nat :=
  [7, 6, 5, 4, 3, 2, 1, 0].foldl (fun a k => crcBit a (b / 2 ^ k % 2)) c

/-- The CRC of the first 248 bytes of a flit (R242). -/
def flitCrc (w : Nat) : Nat :=
  ((List.range 248).foldl (fun a k => crcByte a (w / 256 ^ k % 256)) (2 ^ 64 - 1)) ^^^ (2 ^ 64 - 1)

/-- A flit header's fields. -/
structure FlitHdr where
  seq : Nat := 0
  ack : Nat := 0
  nak : Bool := false
  type : Nat := 0
  first : Bool := false
  vl : Nat := 0
  cls : Nat := 0
  next : Nat := 0
  nextVl : Nat := 0
  nextCls : Nat := 0
  creditVl : Nat := 0
  creditCls : Nat := 0
  credit : Nat := 0
  deriving DecidableEq, Repr

/-- The header word. -/
def FlitHdr.word (h : FlitHdr) : Nat :=
  h.seq % 4096 * 2 ^ 52 + h.ack % 4096 * 2 ^ 40 + (if h.nak then 2 ^ 39 else 0) + h.type % 4 * 2 ^ 37
    + (if h.first then 2 ^ 36 else 0) + h.vl % 32 * 2 ^ 31 + h.cls % 2 * 2 ^ 30 + h.next % 16 * 2 ^ 26
    + h.nextVl % 32 * 2 ^ 21 + h.nextCls % 2 * 2 ^ 20 + h.creditVl % 32 * 2 ^ 15 + h.creditCls % 2 * 2 ^ 14
    + h.credit % 1024 * 2 ^ 4

/-- The header of a flit. -/
def hdrOf (f : Flit) : FlitHdr :=
  let w : Word := f.extractLsb' 0 64
  { seq := bits w 63 52, ack := bits w 51 40, nak := bits w 39 39 = 1, type := bits w 38 37, first := bits w 36 36 = 1,
    vl := bits w 35 31, cls := bits w 30 30, next := bits w 29 26, nextVl := bits w 25 21, nextCls := bits w 20 20,
    creditVl := bits w 19 15, creditCls := bits w 14 14, credit := bits w 13 4 }

/-- A flit with its CRC (DESIGN CHOICE, log entry 38). -/
def mkFlit (h : FlitHdr) (cs : List (BitVec 128)) : Flit :=
  let w := h.word + cs.zipIdx.foldl (fun a c => a + c.1.toNat * 2 ^ (64 + 128 * c.2)) 0
  BitVec.ofNat 2048 (w + flitCrc w * 2 ^ 1984)

/-- The CRC holds. -/
def crcOk (f : Flit) : Bool := flitCrc (f.toNat % 2 ^ 1984) = f.toNat / 2 ^ 1984

/-- Chunk `k` of a flit. -/
def chunkOf (f : Flit) (k : Nat) : BitVec 128 := f.extractLsb' (64 + 128 * k) 128

/-! ### Ports -/

/-- The link layer of a port (DESIGN CHOICE, log entry 6). -/
def State.port (s : State) (p : Nat) : PortUnit := mapGet (fun _ => {}) s.units.fab.ports p

/-- Change the fabric's own state. -/
def changeFab (f : Fabric → Fabric) : Act s₀ Unit := change fun u => { u with fab := f u.fab }

/-- Change a port's link layer. -/
def withPort (p : Nat) (f : PortUnit → PortUnit) : Act s₀ Unit :=
  changeFab fun u => { u with ports := mapSet (fun _ => {}) u.ports p (f (mapGet (fun _ => {}) u.ports p)) }

/-- The port carries traffic: ACTIVE or DEGRADED (DESIGN CHOICE, log entry 38). -/
def State.live (s : State) (p : Nat) : Bool := s.fld LINK_STATUS_STATE p = 3 || s.fld LINK_STATUS_STATE p = 4

/-- This module's ID. -/
def State.moduleId (s : State) : Nat := s.fld COLL_ID_MODULE

/-- The key of a lane and class. VL0 has one buffer and one store of credits (R244) (DEDUCED, log entry 39). -/
def laneKey (vl cls : Nat) : Nat := if vl = 0 then 0 else 2 * vl + cls

/-- Credits that a port holds for a lane and class. -/
def PortUnit.credit (u : PortUnit) (k : Nat) : Nat := mapGet (fun _ => 0) u.credits k

/-- The chunks of a frame that its next flit carries: 15, or those that are left. A flit holds padding only after the
end of a frame (R241). -/
def TxFrame.part (f : TxFrame) : Nat := min 15 (f.chunks.length - f.sent)

/-- The credits that the next flit of a frame takes: one for every four chunks of the frame (R244) (DEDUCED, log entry
39). -/
def TxFrame.price (f : TxFrame) : Nat := (f.sent + f.part + 3) / 4 - (f.sent + 3) / 4

/-- How many chunks of a frame may leave now: those of its next flit, where the port holds their credits. -/
def PortUnit.room (u : PortUnit) (f : TxFrame) : Nat :=
  if f.price ≤ u.credit (laneKey f.vl f.cls) then f.part else 0

/-- The order in which lanes are served: VL0, then the data lanes round robin, class 1 before class 0 (R244). -/
def PortUnit.order (u : PortUnit) : List (Nat × Nat) :=
  (0 :: (List.range 16).map fun k => (u.lastVl + k) % 16 + 1).flatMap fun v => [(v, 1), (v, 0)]

/-- The frame whose next chunks leave next. A frame of a lane and class leaves whole before another starts (R241). -/
def PortUnit.nextTx (u : PortUnit) : Option TxFrame :=
  u.order.findSome? fun k =>
    (u.queue.find? fun f => f.vl = k.1 && f.cls = k.2).bind fun f => if u.room f = 0 then none else some f

/-- Take the next chunks of a frame out of the queue: the first frame of its lane and class (DESIGN CHOICE, log entry
38). -/
def stepTx (vl cls n : Nat) : List TxFrame → List TxFrame
  | [] => []
  | f :: fs =>
    if f.vl = vl ∧ f.cls = cls then
      (if f.chunks.length ≤ f.sent + n then fs else { f with sent := f.sent + n } :: fs)
    else f :: stepTx vl cls n fs

/-- An idle flit: an ACK or NAK, and credits (R241). -/
def sendIdle (p : Nat) (nak : Bool) (vl cls credit : Nat) : Act s₀ Unit := do
  let u ← ask fun s => s.port p
  send (.flit (Fin.ofNat 24 p) (mkFlit { seq := u.nextSeq, ack := u.seen, nak := nak, creditVl := vl, creditCls := cls,
                                          credit := credit } []))

/-- Credits of a frame that a port received go back to its sender (R244). -/
def giveCredits (a : Option Nat) (f : Frame) : Act s₀ Unit := do
  match a with
  | none => pure ()
  | some p => if (← now).live p then sendIdle p false f.vl f.cls (f.payload.length + 1)

/-- The port that a frame's credits go back to: none once the port has failed since, which voids them (R249). -/
def Arrived.credits (a : Arrived) : Option Nat := if a.owed then a.port else none

/-- A port's replica (R216). -/
def State.portCount (s : State) (p : Nat) : Nat := s.replica (81 + p)

/-- A timestamp: bits [47:0] of a replica's count and a fraction in quarters of a tick (R220). -/
def timestamp (count quarters : Nat) : Word := BitVec.ofNat 64 (count % 2 ^ 48 * 2 ^ 16 + quarters % 4 * 2 ^ 14)

/-- A SYNC_RESP takes T3 and T3_HI as its chunk 0 leaves (R277). -/
def TxFrame.stamped (f : TxFrame) (count : Nat) : List (BitVec 128) :=
  match f.stamp with
  | some q =>
    if f.frame.kind = kindSyncResp then
      f.chunks.zipIdx.map fun c =>
        if c.2 = 2 then timestamp count q ++ c.1.extractLsb' 0 64
        else if c.2 = 3 then BitVec.ofNat 64 (count / 2 ^ 48 % 2 ^ 16) ++ c.1.extractLsb' 0 64
        else c.1
    else f.chunks
  | none => f.chunks

/-- A SYNC leaves: its departure is t1 of the request in flight (R220, R277). -/
def noteDeparture (p : Nat) (f : TxFrame) : Act s₀ Unit := do
  let n ← ask fun s => s.portCount p
  match f.stamp with
  | some q =>
    if f.frame.kind = kindSync then
      change fun u => { u with tb := { u.tb with request := match u.tb.request with
        | some (none, port, dom) => if port = p then some (some (timestamp n q), port, dom) else some (none, port, dom)
        | r => r } }
  | none => pure ()

/-- The contributor count of a vote sum's frame goes with its first flit (R268) (DESIGN CHOICE, log entry 93). -/
def noteContrib (p : Nat) (f : TxFrame) : Act s₀ Unit := do
  if f.sent = 0 ∧ f.origin.isNone ∧ (f.frame.kind = kindReduce ∨ f.frame.kind = kindGather)
      ∧ bits f.frame.w3 31 24 = 0x44 then
    send (.contrib (Fin.ofNat 24 p) f.frame.contrib)

/-- A flit that takes a sequence number leaves, and stays in the replay buffer until it is acknowledged (R241, R243). -/
def sendFlit (p : Nat) (h : FlitHdr) (cs : List (BitVec 128)) : Act s₀ Unit := do
  let u ← ask fun s => s.port p
  let flit := mkFlit { h with seq := u.nextSeq, ack := u.seen } cs
  withPort p fun x => { x with nextSeq := (x.nextSeq + 1) % 4096, replay := x.replay ++ [flit] }
  send (.flit (Fin.ofNat 24 p) flit)

/-- Send what credits and the replay buffer of 1,024 flits let leave: control flits, then frames (R241, R243, R244)
(DESIGN CHOICE, log entry 38). -/
def pumpPort (p : Nat) : Nat → Act s₀ Unit
  | 0 => pure ()
  | fuel + 1 => do
    let s ← now
    let u := s.port p
    if (s.live p || s.fld LINK_STATUS_STATE p = 2) && u.replay.length < 1024 then
      match u.controls with
      | c :: cs =>
        withPort p fun x => { x with controls := cs }
        sendFlit p { type := 2 } [c]
        pumpPort p fuel
      | [] =>
        if s.live p then
          match u.nextTx with
          | none => pure ()
          | some f =>
            let n := u.room f
            let k := laneKey f.vl f.cls
            withPort p fun x => { x with
              queue := stepTx f.vl f.cls n x.queue
              lastVl := if f.vl = 0 then x.lastVl else f.vl
              credits := mapSet (fun _ => 0) x.credits k (x.credit k - f.price) }
            noteDeparture p f
            sendFlit p { type := 1, first := f.sent = 0, vl := f.vl, cls := f.cls }
              (((f.stamped (s.portCount p)).drop f.sent).take n)
            noteContrib p f
            if f.chunks.length ≤ f.sent + n then giveCredits f.origin f.frame
            pumpPort p fuel

/-- Send what can leave a port. -/
def pump (p : Nat) : Act s₀ Unit := do
  let u ← ask fun s => s.port p
  pumpPort p (u.queue.foldl (fun n f => n + f.chunks.length) (u.controls.length + 1))

/-- A control flit: the spec gives what it says and not its layout, so that its chunk is a free value (DESIGN CHOICE, log
entry 38). -/
def sendControlFlit (p : Nat) : Act s₀ Unit := do
  let lo ← freeIndex
  let hi ← freeIndex
  withPort p fun u => { u with controls := u.controls ++ [Config.freeWord hi ++ Config.freeWord lo] }
  pump p

/-! ### Routing (R255, R280) -/

/-- A route entry. -/
def State.route (s : State) (m : Nat) : Word := mapGet routeReset s.routes m

/-- The port that the round robin takes from a mask: a live port that holds credits, else a live port (DEDUCED, log
entry 40). -/
def State.pick (s : State) (mask last k : Nat) : Option Nat :=
  let turn := (List.range 24).map fun j => (last + 1 + j) % 24
  let live := turn.filter fun p => bit mask p && s.live p
  match live.find? fun p => 0 < (s.port p).credit k with
  | some p => some p
  | none => live.head?

/-- The port and class that a frame leaves with; none where it has no live port. VL0 has no classes (DEDUCED, log entry
39). -/
def State.exitOf (s : State) (f : Frame) : Option (Nat × Nat) :=
  let e := s.route f.dst
  let last := mapGet (fun _ => 23) s.units.fab.turn f.dst
  let try1 (hi lo dl : Nat) : Option (Nat × Nat) :=
    let cls := if f.vl = 0 then 0 else if bits e dl dl = 1 then 1 else f.cls
    (s.pick (bits e hi lo) last (laneKey f.vl cls)).map fun p => (p, cls)
  if bits e 63 63 = 0 then none
  else match try1 23 0 48 with
    | some x => some x
    | none => try1 47 24 49

/-- Queue a frame on a port: every send onto a link lowers TTL by 1 (R255). `origin` is the port whose credits it holds,
`stamp` the fraction of a sync frame's departure. -/
def enqueue (p : Nat) (f : Frame) (cls : Nat) (origin stamp : Option Nat) : Act s₀ Unit := do
  let g := (f.withCls cls).withTtl (f.ttl - 1)
  withPort p fun u => { u with queue := u.queue ++
    [{ vl := f.vl, cls := cls, chunks := g.chunks, frame := f, origin := origin, stamp := stamp }] }
  pump p

/-- Deliver a frame for this module, or send it on; the cause where it is dropped: 3 TTL, 4 no route (R253, R255). The
credits that it holds at `origin` go back once it has left (R244). -/
def routeFrame (f : Frame) (origin : Option Nat) : Act s₀ (Option Nat) := do
  let s ← now
  if f.dst = s.moduleId then
    changeFab fun u => { u with rx := u.rx ++ [{ port := none, frame := f }] }
    giveCredits origin f
    pure none
  else if f.ttl = 0 then pure (some 3)
  else match s.exitOf f with
    | none => pure (some 4)
    | some (p, cls) =>
      changeFab fun u => { u with turn := mapSet (fun _ => 23) u.turn f.dst p }
      enqueue p f cls origin none
      pure none

/-- A control frame of this module; one that cannot be routed is lost (R252). -/
def sendControl (f : Frame) : Act s₀ Unit := do
  let t ← fld COLL_ROUTE_CTL_TTL
  let _ ← routeFrame (f.withTtl t) none

/-- KIND_WORD of an ACK or a NOTICE (R250). -/
def statusWord (st : Status) (detail : Nat) : Nat := detail % 2 ^ 24 * 256 + st.code

/-- A NOTICE of a drop goes to a frame's source (R252, R255, R260). Only WRITE, REDUCE, GATHER and MEMBERSHIP frames have
one. -/
def sendNotice (f : Frame) (st : Status) (detail : Nat) : Act s₀ Unit := do
  if f.kind ≤ kindMembership then
    let me ← ask State.moduleId
    sendControl ((mkFrame f.src me kindNotice 0 0 0 0 none (statusWord st detail) []).withTag f.tag)

/-- DETAIL of FRAME_TIMEOUT (R253). -/
def timeoutDetail (m cause : Nat) : Nat := m % 2 ^ 16 * 256 + cause

/-- Route a frame, or tell its source (DEDUCED, log entry 40). -/
def sendOrNotice (f : Frame) (origin : Option Nat) : Act s₀ Unit := do
  match ← routeFrame f origin with
  | none => pure ()
  | some cause =>
    giveCredits origin f
    sendNotice f .frameTimeout (timeoutDetail f.dst cause)

/-- An acknowledgement (R253). -/
def sendAck (f : Frame) (st : Status) (detail : Nat) : Act s₀ Unit := do
  let me ← ask State.moduleId
  sendControl ((mkFrame f.src me kindAck 0 0 0 0 none (statusWord st detail) []).withTag f.tag)

/-! ### Frames that descriptors send (R253) -/

/-- A frame leaves with a tag of its own. -/
def launchFrame (x : Sending) : Act s₀ Unit := do
  let s ← now
  let tag := s.units.fab.nextTag
  takeTag x.atelier
  changeFab fun u => { u with nextTag := (tag + 1) % 2 ^ 32, flights := u.flights ++ [⟨tag, x⟩] }
  match s.slot x.slot with
  | some d => if 0x50 ≤ d.target ∧ d.target < 0x52 then uncore 3 (d.target - 0x50) 0x31 1
  | none => pure ()
  sendOrNotice ((x.frame.withTag tag).withTtl (s.fld COLL_ROUTE_CTL_TTL)) none

/-- Send a frame, or hold it for a tag (R202) (DEDUCED, log entry 40). -/
def startFrame (x : Sending) : Act s₀ Unit := do
  if (← now).tagFree x.atelier then launchFrame x
  else
    countTagWait x.atelier
    changeRings fun r => { r with tagWaits := r.tagWaits ++ [{ atelier := x.atelier, what := [], frame := some x }] }

/-- A held request may go: a tag is free for it, and its port has room for its read (R202, R336). -/
def State.mayGo (s : State) (w : TagWait) : Bool :=
  s.tagFree w.atelier && s.mayAsk w.what
    && s.mayAsk ((s.slots.filter fun d => w.fence = some d.id).map s.fenceRead)

/-- TXN_TAG_GRANT: the first held request that a free tag may go to is sent (R202, R353). -/
def actTxnTagGrant : Act s₀ Unit := do
  let s ← now
  match extractFirst s.mayGo s.units.rings.tagWaits with
  | (none, _) => pure ()
  | (some w, rest) =>
    changeRings fun r => { r with tagWaits := rest }
    match w.frame with
    | some x => launchFrame x
    | none =>
      match w.fence with
      | some id =>
        each ((← now).slots.filter fun d => d.id = id && d.fence = .held) readFence
      | none =>
        takeTag w.atelier
        each w.what sendAsk
        match w.access with
        | some b => takeIn b
        | none => pure ()

/-- TXN_TAG_GRANT. -/
def execTxnTagGrant (s : State) : Host.Outcome State Fault Refusal := .next (perform s actTxnTagGrant)

/-- A frame of a descriptor may leave: every frame of its key in a lower batch has been answered. -/
def State.mayLeave (s : State) (x : Sending) : Bool :=
  let earlier (y : Sending) : Bool := y.slot = x.slot && y.key = x.key && y.batch < x.batch
  !(s.units.fab.flights.any fun f => earlier f.sending) && !(s.units.fab.waiting.any earlier)
    && !(s.units.rings.tagWaits.any fun w => w.frame.any earlier)

/-- Let the waiting frames of a descriptor leave, those that may. -/
def advanceFrames (id : Nat) : Act s₀ Unit := do
  let s ← now
  let go := s.units.fab.waiting.filter fun x => x.slot = id && s.mayLeave x
  changeFab fun u => { u with waiting := u.waiting.filter fun x => !(x.slot = id && s.mayLeave x) }
  each go startFrame

/-- Change a fixative job. -/
def withJob (id : Nat) (f : FixJob → FixJob) : Act s₀ Unit :=
  change fun u => { u with fail := { u.fail with jobs := u.fail.jobs.map fun j => if j.id = id then f j else j } }

/-- A descriptor or copy sends frames; each is outstanding until it is answered (R203, R325). -/
def postFrames (id : Nat) (xs : List Sending) : Act s₀ Unit := do
  withSlot id fun d => { d with outstanding := d.outstanding + xs.length }
  withJob id fun j => { j with outstanding := j.outstanding + xs.length }
  changeFab fun u => { u with waiting := u.waiting ++ xs }
  advanceFrames id

/-- Frames that have not left are given up. -/
def dropWaiting (p : Sending → Bool) : Act s₀ Unit := do
  let s ← now
  let out (id : Nat) : Nat := (s.units.fab.waiting.filter fun x => p x && x.slot = id).length
  changeFab fun u => { u with waiting := u.waiting.filter fun x => !p x }
  changeRings fun r => { r with slots := r.slots.map fun d => { d with outstanding := d.outstanding - out d.id } }
  change fun u => { u with fail := { u.fail with jobs := u.fail.jobs.map fun j =>
    { j with outstanding := j.outstanding - out j.id } } }

/-- A frame is answered with a status: its tag is free, and its descriptor takes the status (R253). A dispatch does not
send an entry's tags where a row frame to the entry failed (R273). -/
def answer (fl : Flight) (st : Status) (detail : Nat) : Act s₀ Unit := do
  let x := fl.sending
  changeFab fun u => { u with flights := u.flights.filter fun f => f.tag ≠ fl.tag }
  freeTag x.atelier
  withSlot x.slot fun d => { d with outstanding := d.outstanding - 1, arose := Arose.put d.arose st detail }
  withJob x.slot fun j => { j with outstanding := j.outstanding - 1, arose := Arose.put j.arose st detail }
  if st = .frameTimeout ∧ (detail % 16 = 2 ∨ detail % 16 = 4) then riskBump RISK_BUMP_B_SILENT
  match (← now).slot x.slot with
  | some d =>
    if st ≠ .ok ∧ opcodeOf d.words = 0x45 then
      dropWaiting fun y => y.slot = x.slot && y.key = x.key && x.batch < y.batch
  | none => pure ()
  advanceFrames x.slot

end Sys2Proof.Machine
end

