-- ==== Sys2Proof/Machine/Link.lean ====
section
/-! DEFINITION. Ports: training, retry, lane degrade and failure (R239 to R249, R252, R278). -/

namespace Sys2Proof.Machine

variable {s₀ : State}

/-! ### Failure (R249) -/

/-- Drop a partial frame: counted, its credits returned, its source told unless it is of a control kind (R252). TAG of a
frame of which only chunk 0 has come is a free value (DESIGN CHOICE, log entry 38). -/
def dropPartial (p : Nat) (key : Nat) (cs : List (BitVec 128)) : Act s₀ Unit := do
  withPort p fun u => { u with partials := u.partials.filter fun e => e.1 ≠ key }
  countUp LINK_REASM_DROP_COUNT 1 p
  raise LINK_EVENT_REASM_DROP p
  if (← now).live p then sendIdle p false (key / 2) (key % 2) ((cs.length + 3) / 4)
  let tag ← freeIndex
  let f := match cs with
    | [c] => frameOf [c, (Config.freeWord tag).setWidth 128]
    | _ => frameOf cs
  if cs ≠ [] ∧ f.vl ≠ 0 then sendNotice f .frameTimeout (timeoutDetail f.dst 1)

/-- A frame that holds no credits of a port. -/
def TxFrame.without (f : TxFrame) (p : Nat) : TxFrame := { f with origin := f.origin.filter (· ≠ p) }

/-- A port whose queued frames hold no credits of another. -/
def PortUnit.without (u : PortUnit) (p : Nat) : PortUnit := { u with queue := u.queue.map (·.without p) }

/-- The credits of a failed port are void: those of frames that came by it are not returned (R249). -/
def voidCredits (p : Nat) : Act s₀ Unit :=
  changeFab fun u => { u with
    ports := u.ports.map fun e => (e.1, e.2.without p)
    rx := u.rx.map fun a => if a.port = some p then { a with owed := false } else a }

/-- The port fails (R249). A sync frame that has not left goes no other way: it travels one hop (R277). -/
def failPort (p : Nat) : Act s₀ Unit := do
  let u ← ask fun s => s.port p
  setF LINK_STATUS_STATE 5 p
  setF LINK_STATUS_LANES_UP 0 p
  setF LINK_STATUS_LANE_SET 0 p
  setF LINK_STATUS_WIDTH 0 p
  raise LINK_EVENT_FAILED p
  riskBump RISK_BUMP_B_PORT
  withPort p fun x => { x with replay := [], controls := [], credits := [], queue := [], idle := true, aligned := false,
                               told := false, storm := 0, gap := false }
  voidCredits p
  each ((u.without p).queue.filter fun f => f.stamp.isNone) fun f =>
    if f.sent = 0 then sendOrNotice f.frame f.origin else giveCredits f.origin f.frame
  each u.partials fun e => dropPartial p e.1 e.2

/-! ### Lane sets (R247) -/

/-- The lane sets that a port can use, widest first and lowest lane first. -/
def laneSets : List Nat := [0xff, 0x0f, 0xf0, 0x03, 0x0c, 0x30, 0xc0, 1, 2, 4, 8, 16, 32, 64, 128]

/-- How many lanes a set has. -/
def lanesIn (v : Nat) : Nat := ones v 8

/-- The set to use when the lanes of `good` are good: of at most `width` lanes, since a degraded width is kept until the
port is retrained (R247). -/
def chooseLanes (good width : Nat) : Option Nat := laneSets.find? fun v => v &&& good = v && lanesIn v ≤ width

/-- The lanes that MIN_WIDTH asks for (R278). -/
def State.minLanes (s : State) (p : Nat) : Nat := 2 ^ s.fld LINK_CTL_MIN_WIDTH p

/-- Put a lane set to use. -/
def useLanes (p v : Nat) : Act s₀ Unit := do
  setF LINK_STATUS_LANE_SET v p
  setF LINK_STATUS_WIDTH (lanesIn v) p

/-- Change the lane set in use: the port's delays are those at the new width, which the spec gives no value (R246) (DESIGN
CHOICE, log entry 38). -/
def changeLanes (p v : Nat) : Act s₀ Unit := do
  useLanes p v
  let i ← freeIndex
  let j ← freeIndex
  setF LINK_CAL_TX_DELAY ((Config.freeWord i).toNat % 2 ^ 16) p
  setF LINK_CAL_RX_DELAY ((Config.freeWord j).toNat % 2 ^ 16) p

/-- The port in use for the timebase settles again (R226). -/
def settleTimebase (p : Nat) : Act s₀ Unit := do
  let s ← now
  if s.units.tb.lastPort = some p then
    raise TB_STATUS_SETTLING
    change fun u => { u with tb := { u.tb with settled := 0 } }

/-- Replay every unacknowledged flit, oldest first; the sixteenth in a row is a storm (R243) (DESIGN CHOICE, log entry
38). -/
def replayAll (p : Nat) : Act s₀ Unit := do
  let u ← ask fun s => s.port p
  if !u.replay.isEmpty then
    countUp LINK_RETRY_REPLAYS 1 p
    uncore 2 p 0x23 1
    riskLink 1
    withPort p fun x => { x with storm := x.storm + 1 }
    if 16 ≤ u.storm + 1 then
      raise LINK_EVENT_REPLAY_STORM p
      failPort p
    else each u.replay fun f => send (.flit (Fin.ofNat 24 p) f)

/-- Both directions switch to another set and replay (R247). -/
def degradeTo (p v : Nat) : Act s₀ Unit := do
  changeLanes p v
  setF LINK_STATUS_STATE 4 p
  raise LINK_EVENT_DEGRADE p
  settleTimebase p
  let u ← ask fun s => s.port p
  each u.replay fun f => send (.flit (Fin.ofNat 24 p) f)

/-- Act on bad lanes (R247): fail when every lane has lost lock or the width would be too small; else degrade. -/
def settleLanes (p : Nat) : Act s₀ Unit := do
  let s ← now
  let u := s.port p
  if s.live p then
    if s.fld LINK_STATUS_LANES_UP p = 0 then failPort p
    else if s.on LINK_CTL_AUTO_DEGRADE p ∧ u.bad.toNat &&& s.fld LINK_STATUS_LANE_SET p ≠ 0 then
      match chooseLanes (255 - u.bad.toNat) (s.fld LINK_STATUS_WIDTH p) with
      | none => failPort p
      | some v =>
        if lanesIn v < s.minLanes p then failPort p
        else
          send (.laneSet (Fin.ofNat 24 p) v)
          sendControlFlit p
          degradeTo p v

/-- DEGRADE_WINDOW_END (R247): the corrected symbols and uncorrectable codewords of each lane in the window. -/
def actDegradeWindowEnd (p : Nat) (ce ue : List Nat) : Act s₀ Unit := do
  let s ← now
  if s.live p then
    each ce.zipIdx fun e => countUp LINK_LANE_CE_COUNT e.1 p e.2
    each ue.zipIdx fun e => countUp LINK_LANE_UE_COUNT e.1 p e.2
    riskLink (ue.foldl (· + ·) 0)
    let above (l : List Nat) (th : Nat) : Nat := l.zipIdx.foldl (fun a e => if th < e.1 then a + 2 ^ e.2 else a) 0
    let bad := above ce (s.fld LINK_DEGRADE_CE_THRESH p) ||| above ue (s.fld LINK_DEGRADE_UE_THRESH p)
    withPort p fun u => { u with bad := u.bad ||| BitVec.ofNat 8 bad }
    settleLanes p

/-- DEGRADE_WINDOW_END: counts of eight lanes. -/
def execDegradeWindowEnd (p : PortNo) (ce ue : List (BitVec 32)) (s : State) : Host.Outcome State Fault Refusal :=
  if ce.length = 8 ∧ ue.length = 8 then
    .next (perform s (actDegradeWindowEnd p (ce.map BitVec.toNat) (ue.map BitVec.toNat)))
  else .fault (.illFormed "DEGRADE_WINDOW_END")

/-! ### Training (R245) -/

/-- Training starts at step 1, where PMD names an interface and the port's group has power. -/
def startTraining (p : Nat) : Act s₀ Unit := do
  let s ← now
  if s.fld LINK_CTL_PMD p < 2 ∧ s.dom (portDomain p) = 3 then
    setF LINK_CTL_RETRAIN 0 p
    setF LINK_STATUS_STATE 1 p
    setF LINK_STATUS_LANES_UP 0 p
    setF LINK_STATUS_LANE_SET 0 p
    setF LINK_STATUS_WIDTH 0 p
    setF LINK_STATUS_REVERSED 0 p
    withPort p fun u => { u with tried := 0, aligned := false, told := false, bad := 0, idle := false, partials := [],
                                 nextSeq := 0, replay := [], controls := [], seen := 4095, gap := false }

/-- The port is not enabled: no lane is in use (R245, R278). -/
def portDown (p : Nat) : Act s₀ Unit := do
  setF LINK_STATUS_STATE 0 p
  setF LINK_STATUS_LANES_UP 0 p
  setF LINK_STATUS_LANE_SET 0 p
  setF LINK_STATUS_WIDTH 0 p
  withPort p fun u => { u with replay := [], controls := [] }

/-- A write of LINK.CTL (R245, R248, R249). -/
def hookLinkCtl (w : RegWrite) : Act s₀ Unit := do
  let p := w.inst
  let s ← now
  let st := s.fld LINK_STATUS_STATE p
  emit (.reg w.addr w.new)
  if w.field LINK_CTL_EN = 0 then
    if st = 1 ∨ st = 2 then portDown p
    else if st = 3 ∨ st = 4 then failPort p
  else if w.does LINK_CTL_RETRAIN then
    raise LINK_CTL_RETRAIN p
    withPort p fun u => { u with retraining := true }
    if st = 0 then startTraining p
    else if st ≠ 5 then failPort p
  else if st = 0 then startTraining p

/-- LINK_ENABLE. -/
def execLinkEnable (port : HostNo) (p : PortNo) (v : Word) (s : State) : Host.Outcome State Fault Refusal :=
  .next (perform s (checkedWrite port (LINK_CTL_EN.addr p 0) v hookLinkCtl))

/-- RETRAIN. -/
def execRetrain (port : HostNo) (p : PortNo) (v : Word) (s : State) : Host.Outcome State Fault Refusal :=
  .next (perform s (checkedWrite port (LINK_CTL_RETRAIN.addr p 0) v hookLinkCtl))

/-- PORT_IDLE_END (R249). A port that cannot train is DOWN (DEDUCED, log entry 39). -/
def actPortIdleEnd (p : Nat) : Act s₀ Unit := do
  let s ← now
  if s.fld LINK_STATUS_STATE p = 5 ∧ (s.port p).idle then
    withPort p fun u => { u with idle := false }
    portDown p
    if s.on LINK_CTL_EN p then startTraining p

/-- PORT_IDLE_END. -/
def execPortIdleEnd (p : PortNo) (s : State) : Host.Outcome State Fault Refusal := .next (perform s (actPortIdleEnd p))

/-- LANE_TRAINED (R245): a lane ends steps 1 and 2. -/
def actLaneTrained (p lane : Nat) (ok : Bool) : Act s₀ Unit := do
  let s ← now
  let u := s.port p
  if s.fld LINK_STATUS_STATE p = 1 ∧ !bit u.tried.toNat lane then
    withPort p fun x => { x with tried := x.tried ||| (1 <<< lane) }
    if ok then setF LINK_STATUS_LANES_UP (s.fld LINK_STATUS_LANES_UP p ||| 2 ^ lane) p
    let s' ← now
    if (s'.port p).tried = 0xff then
      if lanesIn (s'.fld LINK_STATUS_LANES_UP p) < s'.minLanes p then failPort p
      else setF LINK_STATUS_STATE 2 p

/-- LANE_TRAINED. -/
def execLaneTrained (p : PortNo) (lane : Fin 8) (ok : Bool) (s : State) : Host.Outcome State Fault Refusal :=
  .next (perform s (actLaneTrained p lane ok))

/-- Step 4 of training: this end's information goes to the peer, once this module has an ID (R245) (DEDUCED, log entry
39). -/
def tellPeer (p : Nat) : Act s₀ Unit := do
  let s ← now
  let u := s.port p
  if s.fld LINK_STATUS_STATE p = 2 ∧ u.aligned ∧ !u.told ∧ s.moduleId ≠ 0xffff then
    withPort p fun x => { x with told := true }
    send (.peerInfo (Fin.ofNat 24 p) s.moduleId (s.fld LINK_STATUS_LANE_SET p) (s.fld LINK_CAL_TX_DELAY p)
      (s.fld LINK_CAL_RX_DELAY p))
    sendControlFlit p

/-- LANE_LOCK_LOSS (R247, R249). In training the lane is left out, and an aligned port names its set anew (DEDUCED, log
entry 39). -/
def actLaneLockLoss (p : Nat) (lane : Nat) : Act s₀ Unit := do
  let s ← now
  let up := s.fld LINK_STATUS_LANES_UP p &&& (255 - 2 ^ lane)
  if s.live p then
    setF LINK_STATUS_LANES_UP up p
    withPort p fun u => { u with bad := u.bad ||| (1 <<< lane) }
    settleLanes p
  else if s.fld LINK_STATUS_STATE p = 1 then setF LINK_STATUS_LANES_UP up p
  else if s.fld LINK_STATUS_STATE p = 2 then
    setF LINK_STATUS_LANES_UP up p
    if lanesIn up < s.minLanes p then failPort p
    else if (s.port p).aligned ∧ bit (s.fld LINK_STATUS_LANE_SET p) lane then
      match chooseLanes up 8 with
      | none => failPort p
      | some v =>
        if lanesIn v < s.minLanes p then failPort p
        else
          changeLanes p v
          withPort p fun u => { u with told := false }
          tellPeer p

/-- LANE_LOCK_LOSS. -/
def execLaneLockLoss (p : PortNo) (lane : Fin 8) (s : State) : Host.Outcome State Fault Refusal :=
  .next (perform s (actLaneLockLoss p lane))

/-- A write of COLL.ID lets the ports that wait for an ID go on (R245, R279). -/
def hookCollId (w : RegWrite) : Act s₀ Unit := do
  plainHook w
  each (List.range 24) tellPeer

/-- PORT_ALIGNED (R245): step 3 ends. -/
def actPortAligned (p : Nat) (reversed : Bool) (tx rx : Nat) : Act s₀ Unit := do
  let s ← now
  if s.fld LINK_STATUS_STATE p = 2 ∧ !(s.port p).aligned then
    setF LINK_STATUS_REVERSED (if reversed then 1 else 0) p
    setF LINK_CAL_TX_DELAY tx p
    setF LINK_CAL_RX_DELAY rx p
    match chooseLanes (s.fld LINK_STATUS_LANES_UP p) 8 with
    | none => failPort p
    | some v =>
      if lanesIn v < s.minLanes p then failPort p
      else
        useLanes p v
        withPort p fun u => { u with aligned := true }
        tellPeer p

/-- PORT_ALIGNED. -/
def execPortAligned (p : PortNo) (reversed : Bool) (tx rx : BitVec 16) (s : State) : Host.Outcome State Fault Refusal :=
  .next (perform s (actPortAligned p reversed tx.toNat rx.toNat))

/-- The valid data lanes. -/
def State.validLanes (s : State) : List Nat := (List.range 17).filter fun v => v ≠ 0 && bit (s.fld COLL_VL_VALID_VALID) (v - 1)

/-- The credits of a port's buffer at training (R244): each class of each valid lane, and the pool (DEDUCED, log entry
39). -/
def State.creditPlan (s : State) (p : Nat) : Nat × Nat × Bool :=
  let v := s.validLanes.length
  let want := s.fld LINK_CREDIT_VL_RESERVE p
  if 128 + 2 * v * want ≤ 6144 then (want, 6016 - 2 * v * want, false)
  else (6016 / (2 * v), 6016 - 2 * v * (6016 / (2 * v)), true)

/-- Grant credits, at most 1,023 to a flit (DEDUCED, log entry 39). -/
def grantCredits (p vl cls : Nat) : Nat → Nat → Act s₀ Unit
  | 0, _ => pure ()
  | fuel + 1, n =>
    if n = 0 then pure ()
    else do
      sendIdle p false vl cls (min n 1023)
      grantCredits p vl cls fuel (n - 1023)

/-- The port becomes ACTIVE: SEQ starts at 0, and credits are granted, the pool in equal shares (R244, R245) (DEDUCED,
log entry 39). -/
def activate (p : Nat) : Act s₀ Unit := do
  let s ← now
  let (n, pool, clamp) := s.creditPlan p
  setF LINK_STATUS_STATE 3 p
  setF LINK_CREDIT_RESERVE_USED n p
  setF LINK_CREDIT_POOL pool p
  if clamp then raise LINK_EVENT_CREDIT_CLAMP p
  if (s.port p).retraining then raise LINK_EVENT_RETRAINED p
  withPort p fun u => { u with nextSeq := 0, replay := [], controls := [], seen := 4095, gap := false, storm := 0, credits := [],
                               partials := [], retraining := false, bad := ~~~ (BitVec.ofNat 8 (s.fld LINK_STATUS_LANES_UP p)) }
  settleTimebase p
  grantCredits p 0 0 1 128
  each s.validLanes fun v => do
    let m := n + pool / (2 * s.validLanes.length)
    grantCredits p v 0 8 m
    grantCredits p v 1 8 m

/-- The set that both ends take when each has named one (R247). -/
def agreeLanes (mine theirs : Nat) (lower : Bool) : Nat :=
  if lanesIn mine < lanesIn theirs then mine
  else if lanesIn theirs < lanesIn mine then theirs
  else if lower then mine else theirs

/-- This end has named a lane set that the peer has not acknowledged: both ends have chosen in the same flit time (R247)
(DESIGN CHOICE, log entry 38). -/
def PortUnit.choosing (u : PortUnit) : Bool := !u.controls.isEmpty || u.replay.any fun f => (hdrOf f).type = 2

/-- The lane set that an active port takes when its peer names one: none where it keeps its own. A degraded width is kept
until the port is retrained (R247). -/
def State.takenLanes (s : State) (p theirs : Nat) : Option Nat :=
  let mine := s.fld LINK_STATUS_LANE_SET p
  let v := if (s.port p).choosing then agreeLanes mine theirs (s.moduleId < s.fld LINK_PEER_MODULE p) else theirs
  if laneSets.contains theirs ∧ v ≠ mine ∧ lanesIn v ≤ s.fld LINK_STATUS_WIDTH p then some v else none

/-- PEER_INFO_RECEIVE (R245, R247): step 4 of training; from an active port, the lane set that a control flit names. -/
def actPeerInfoReceive (p mod peer lanes tx rx : Nat) : Act s₀ Unit := do
  let s ← now
  if s.live p then
    match s.takenLanes p lanes with
    | some v =>
      if lanesIn v < s.minLanes p then failPort p
      else
        degradeTo p v
        settleLanes p
    | none => pure ()
  else if s.fld LINK_STATUS_STATE p = 2 ∧ (s.port p).told then
    let changed := s.on LINK_PEER_VALID p && (s.fld LINK_PEER_MODULE p ≠ mod || s.fld LINK_PEER_PORT p ≠ peer)
    setF LINK_PEER_MODULE mod p
    setF LINK_PEER_PORT peer p
    setF LINK_PEER_VALID 1 p
    setF LINK_PEER_CAL_TX_DELAY tx p
    setF LINK_PEER_CAL_RX_DELAY rx p
    if changed then raise LINK_EVENT_PEER_CHANGE p
    let v := if laneSets.contains lanes then agreeLanes (s.fld LINK_STATUS_LANE_SET p) lanes (s.moduleId < mod)
      else s.fld LINK_STATUS_LANE_SET p
    if mod = s.moduleId ∨ lanesIn v < s.minLanes p then failPort p
    else
      if v ≠ s.fld LINK_STATUS_LANE_SET p then changeLanes p v
      activate p

/-- PEER_INFO_RECEIVE. -/
def execPeerInfoReceive (p : PortNo) (mod : BitVec 16) (peer : BitVec 5) (lanes : BitVec 8) (tx rx : BitVec 16)
    (s : State) : Host.Outcome State Fault Refusal :=
  .next (perform s (actPeerInfoReceive p mod.toNat peer.toNat lanes.toNat tx.toNat rx.toNat))

/-! ### Receiving (R241 to R244) -/

/-- The ACK and NAK of a flit (R243). -/
def takeAck (p : Nat) (h : FlitHdr) : Act s₀ Unit := do
  let u ← ask fun s => s.port p
  let left := u.replay.filter fun f => 0 < sdiff (hdrOf f).seq h.ack 12
  if left.length < u.replay.length then
    withPort p fun x => { x with replay := left, storm := 0 }
  if h.nak then replayAll p

/-- The credits of a flit (R244). -/
def takeCredit (p : Nat) (h : FlitHdr) : Act s₀ Unit := do
  let k := laneKey h.creditVl h.creditCls
  withPort p fun u => { u with credits := mapSet (fun _ => 0) u.credits k (u.credit k + h.credit) }

/-- A whole frame has arrived: it waits to be handled; one of a reserved kind is dropped (R250). -/
def arrive (p : Nat) (f : Frame) : Act s₀ Unit := do
  let n ← ask fun s => s.portCount p
  if 8 ≤ f.kind then giveCredits (some p) f
  else changeFab fun u => { u with rx := u.rx ++ [{ port := some p, frame := f, came := n }] }

/-- Chunks of a lane and class go to their frame; what is left of the flit after it is padding (R241). -/
def takeChunks (p key : Nat) : List (BitVec 128) → Act s₀ Unit
  | [] => pure ()
  | c :: cs => do
    let u ← ask fun s => s.port p
    let have1 := mapGet (fun _ => []) u.partials key ++ [c]
    if 2 ≤ have1.length ∧ chunksNeeded have1 ≤ have1.length then
      withPort p fun x => { x with partials := mapSet (fun _ => []) x.partials key [] }
      arrive p (frameOf have1)
    else
      withPort p fun x => { x with partials := mapSet (fun _ => []) x.partials key have1 }
      takeChunks p key cs

/-- The chunks of a data flit: those of the frame in chunk 0, and those of the further frame from NEXT on (R241) (DESIGN
CHOICE, log entry 38). -/
def takeData (p : Nat) (f : Flit) (h : FlitHdr) : Act s₀ Unit := do
  let part (lo hi : Nat) : List (BitVec 128) := (List.range (hi - lo)).map fun k => chunkOf f (lo + k)
  let cut := if 1 ≤ h.next ∧ h.next ≤ 14 then h.next else 15
  let u ← ask fun s => s.port p
  let key := laneKey h.vl h.cls
  -- a flit that neither begins a frame nor continues one holds padding from chunk 0
  if h.first ∨ mapGet (fun _ => []) u.partials key ≠ [] then takeChunks p key (part 0 cut)
  if cut < 15 then takeChunks p (laneKey h.nextVl h.nextCls) (part cut 15)

/-- FLIT_RECEIVE (R242, R243). A port in ALIGN takes the control flits of step 4 (R245) (DESIGN CHOICE, log entry 38). -/
def actFlitReceive (p : Nat) (f : Flit) (fecBad : Bool) : Act s₀ Unit := do
  let s ← now
  if s.live p || s.fld LINK_STATUS_STATE p = 2 then
    uncore 2 p 0x21 1
    let u := s.port p
    let h := hdrOf f
    let nakOnce : Act s₀ Unit := do
      if !u.gap then
        withPort p fun x => { x with gap := true }
        sendIdle p true 0 0 0
    if fecBad || !crcOk f then nakOnce
    else
      takeAck p h
      if (← now).fld LINK_STATUS_STATE p = s.fld LINK_STATUS_STATE p then
        if h.type = 0 then
          takeCredit p h
          -- an idle flit that shows a later SEQ shows a gap; one that shows the expected SEQ shows none
          if sdiff h.seq ((u.seen + 1) % 4096) 12 > 0 then nakOnce
          else withPort p fun x => { x with gap := false }
        else if h.seq = (u.seen + 1) % 4096 then
          withPort p fun x => { x with seen := h.seq, gap := false }
          takeCredit p h
          if h.type = 1 ∧ s.live p then takeData p f h
          sendIdle p false 0 0 0
        else if sdiff h.seq u.seen 12 ≤ 0 then sendIdle p false 0 0 0
        else nakOnce
        pump p

/-- FLIT_RECEIVE. -/
def execFlitReceive (p : PortNo) (f : Flit) (fecBad : Bool) (s : State) : Host.Outcome State Fault Refusal :=
  .next (perform s (actFlitReceive p f fecBad))

/-- REPLAY_TIMEOUT (R243). -/
def actReplayTimeout (p : Nat) : Act s₀ Unit := do
  let s ← now
  if s.live p || s.fld LINK_STATUS_STATE p = 2 then replayAll p

/-- REPLAY_TIMEOUT. -/
def execReplayTimeout (p : PortNo) (s : State) : Host.Outcome State Fault Refusal :=
  .next (perform s (actReplayTimeout p))

/-- REASM_TIMEOUT (R252): the partial frame of a lane and class is dropped. -/
def actReasmTimeout (p key : Nat) : Act s₀ Unit := do
  let u ← ask fun s => s.port p
  match mapGet (fun _ => []) u.partials key with
  | [] => pure ()
  | cs => dropPartial p key cs

/-- REASM_TIMEOUT. -/
def execReasmTimeout (p : PortNo) (vl : Fin 17) (cls : Bool) (s : State) : Host.Outcome State Fault Refusal :=
  .next (perform s (actReasmTimeout p (laneKey vl (if cls then 1 else 0))))

/-- FRAME_FORWARD (R255): the first frame at a port for another module. Its credits go back once it has left (R244). -/
def actFrameForward (p : Nat) : Act s₀ Unit := do
  let s ← now
  match extractFirst (fun a : Arrived => a.port = some p && a.frame.dst ≠ s.moduleId && a.frame.kind < kindSync)
      s.units.fab.rx with
  | (none, _) => pure ()
  | (some a, rest) =>
    changeFab fun u => { u with rx := rest }
    sendOrNotice a.frame a.credits

/-- FRAME_FORWARD. -/
def execFrameForward (p : PortNo) (s : State) : Host.Outcome State Fault Refusal := .next (perform s (actFrameForward p))

end Sys2Proof.Machine
end

