-- ==== Sys2Proof/Machine/Timebase.lean ====
section
/-! DEFINITION. The timebase: the count, its states, the sync exchange and its servo (R214 to R226, R234 to R237), and
launch comparators reaching their stamps (R227 to R233). -/

namespace Sys2Proof.Machine

variable {s₀ : State}

/-- Change the timebase's own state. -/
def withTb (f : Timebase → Timebase) : Act s₀ Unit := change fun u => { u with tb := f u.tb }

/-- Set STATE; the exchanges are counted afresh (R219, R234). -/
def setTbState (n : Nat) : Act s₀ Unit := do
  let old ← fld TB_STATUS_STATE
  if old ≠ n then
    setF TB_STATUS_STATE n
    setF TB_STATUS_EXCHANGES 0

/-- The count takes a step of `d` ticks, or a load (R224, R237). A step of 0 ticks is none. The size has 48 bits; one
that does not fit them is a free value (DEDUCED, log entry 37). -/
def stepCount (d : Int) : Act s₀ Unit := do
  if d ≠ 0 then
    withTb fun t => { t with count := t.count + BitVec.ofInt 64 d }
    if d < 2 ^ 47 ∧ -(2 ^ 47 : Int) ≤ d then setF TB_LAST_STEP_TICKS (intCode 48 d)
    else
      let i ← freeIndex
      setF TB_LAST_STEP_TICKS (Config.freeWord i).toNat
    raise TB_EVENT_STEPPED
    setF TB_STATUS_EXCHANGES 0
    settleStamps

/-- PLL_LOCK (R214, R219): the count runs on from the value it held. -/
def actPllLock : Act s₀ Unit := do
  let s ← now
  if !s.units.tb.locked then
    withTb fun t => { t with locked := true, good := 0 }
    setTbState 1
    if s.on TB_CTL_ROLE then setF TB_STATUS_HOPS 0

/-- PLL_LOCK. -/
def execPllLock (s : State) : Host.Outcome State Fault Refusal := .next (perform s actPllLock)

/-- PLL_UNLOCK (R215, R219). -/
def actPllUnlock : Act s₀ Unit := do
  let s ← now
  if s.units.tb.locked then
    withTb fun t => { t with locked := false, slew := 0, good := 0, request := none }
    setTbState 0
    setF TB_STATUS_HOPS 0xff
    raise TB_EVENT_PLL_UNLOCK
    riskBump RISK_BUMP_B_SYNC

/-- PLL_UNLOCK. -/
def execPllUnlock (s : State) : Host.Outcome State Fault Refusal := .next (perform s actPllUnlock)

/-- One tick (R215, R223). An inserted strobe is a tick of its own, so the count advances by at most 1 here (DESIGN
CHOICE, log entry 1). -/
def actTick : Act s₀ Unit := do
  let s ← now
  let t := s.units.tb
  let st := s.fld TB_STATUS_STATE
  let one : Int := 2 ^ 40
  if t.locked then
    if one ≤ t.acc then
      withTb fun x => { x with acc := x.acc - one, count := x.count + 1 }
    else
      let freq := intOf 32 (s.fld TB_FREQ_FREQ)
      let acc := t.acc + (if st = 3 then freq + t.slew else if st = 4 then freq else 0)
      if acc ≤ -one then withTb fun x => { x with acc := acc + one }
      else withTb fun x => { x with acc := acc, count := x.count + 1 }
    settleStamps

/-- TB_BROADCAST (R217): the difference of each listed replica from the master at the broadcast. -/
def actTbBroadcast (diffs : List (Nat × Int)) : Act s₀ Unit := do
  each diffs fun e => do
    let off : Bool := 2 < e.2.natAbs
    withTb fun t => { t with skews := mapSet (fun _ => (0 : Int)) t.skews e.1 (if off then 0 else e.2) }
    if off then
      raise TB_EVENT_SKEW_ERR
      riskBump RISK_BUMP_B_SYNC
  settleStamps

/-- TB_BROADCAST. -/
def execTbBroadcast (diffs : List (Fin 105 × Int)) (s : State) : Host.Outcome State Fault Refusal :=
  .next (perform s (actTbBroadcast (diffs.map fun e => (e.1.val, e.2))))

/-- ROLE has changed: a grandmaster uses states 0 and 1 only (R218, R219) (DEDUCED, log entry 37). -/
def takeRole (role : Nat) : Act s₀ Unit := do
  let s ← now
  withTb fun t => { t with slew := 0, good := 0, request := none }
  if s.units.tb.locked then setTbState 1
  setF TB_STATUS_UP_IN_USE 0
  setF TB_STATUS_HOPS (if role = 1 ∧ s.units.tb.locked then 0 else 0xff)

/-- A write of TB.CTL: ROLE and SERVE, then CAPTURE, then LOAD (R218, R236, R237). A write of LOAD to a follower is
discarded whole, and recorded (DEDUCED, log entry 37). -/
def hookTbCtl (w : RegWrite) : Act s₀ Unit := do
  let s ← now
  if w.does TB_CTL_LOAD ∧ !s.on TB_CTL_ROLE then discardRecorded w
  else
    emit (.reg w.addr w.new)
    if w.field TB_CTL_ROLE ≠ s.fld TB_CTL_ROLE then takeRole (w.field TB_CTL_ROLE)
    if w.does TB_CTL_CAPTURE then emit (.reg (TB_CAPTURE_VALUE.addr 0 0) s.units.tb.count)
    if w.does TB_CTL_LOAD then stepCount ((s.held (TB_LOAD_VALUE.addr 0 0)).toNat - s.units.tb.count.toNat)

/-- TB_CAPTURE. -/
def execTbCapture (port : HostNo) (v : Word) (s : State) : Host.Outcome State Fault Refusal :=
  .next (perform s (checkedWrite port (TB_CTL_CAPTURE.addr 0 0) v hookTbCtl))

/-- TB_LOAD. -/
def execTbLoad (port : HostNo) (v : Word) (s : State) : Host.Outcome State Fault Refusal :=
  .next (perform s (checkedWrite port (TB_CTL_LOAD.addr 0 0) v hookTbCtl))

/-! ### The sync exchange -/

/-- A timestamp's 48 bits of ticks. -/
def stampTicks (w : Word) : Nat := bits w 63 16

/-- Upper port and whether it is valid; alternate port likewise (R234). -/
def State.upPort (s : State) : Option Nat :=
  if s.on TB_SYNC_UP_VALID ∧ s.fld TB_SYNC_UP_PORT < 24 then some (s.fld TB_SYNC_UP_PORT) else none
def State.altPort (s : State) : Option Nat :=
  if s.on TB_SYNC_ALT_VALID ∧ s.fld TB_SYNC_ALT_PORT < 24 then some (s.fld TB_SYNC_ALT_PORT) else none

/-- The port that a period uses (R220, R226): the one in use where it is still valid, else the upstream port, else the
alternate. -/
def State.portInUse (s : State) : Nat × Option Nat :=
  match s.fld TB_STATUS_UP_IN_USE, s.upPort, s.altPort with
  | 2, _, some a => (2, some a)
  | _, some u, _ => (1, some u)
  | _, none, some a => (2, some a)
  | _, none, none => (0, none)

/-- Whether this module reports itself as synchronised (R220). -/
def State.synced (s : State) : Bool :=
  let st := s.fld TB_STATUS_STATE
  if s.on TB_CTL_ROLE then st = 1 else st = 3 || st = 4

/-- The payload of a sync frame (R277). -/
def syncPayload (t2 t3 : Word) (domain hops : Nat) (synced : Bool) (hi : Nat) : Granule :=
  BitVec.ofNat 512 (t2.toNat + t3.toNat * 2 ^ 64 + (domain % 2 ^ 16 * 2 ^ 48 + hops % 2 ^ 8 * 2 ^ 40
    + (if synced then 2 ^ 39 else 0)) * 2 ^ 128 + hi % 2 ^ 16 * 2 ^ 192)

/-- A sync frame is queued on a port; it travels one hop. Its departure is stamped as it leaves, with a fraction of so many
quarters of a tick (R277) (DEDUCED, log entry 37). -/
def sendSync (p kind : Nat) (payload : Granule) (quarters : Nat) : Act s₀ Unit := do
  let s ← now
  let f := (mkFrame (s.fld LINK_PEER_MODULE p) s.moduleId kind 0 0 0 0 none 0 [payload]).withTtl (s.fld COLL_ROUTE_CTL_TTL)
  if s.live p then enqueue p f 0 none (some quarters)

/-- The port in use changed (R226, R234). -/
def switchPort : Act s₀ Unit := do
  raise TB_EVENT_PORT_SWITCH
  raise TB_STATUS_SETTLING
  withTb fun t => { t with settled := 0 }

/-- SYNC_REQUEST_SEND (R220): the request leaves when its port's credits let it, and t1 is taken then. Port and domain
fields are taken here, at the period (R226). A request that is still unanswered ends with its period, as
SYNC_RESPONSE_MISSED (DEDUCED, log entry 37). -/
def actSyncRequestSend (f1 : Nat) : Act s₀ Unit := do
  let s ← now
  if s.units.tb.locked ∧ !s.on TB_CTL_ROLE ∧ s.units.tb.request.isNone then
    match s.portInUse with
    | (_, none) =>
      setF TB_STATUS_UP_IN_USE 0
      withTb fun t => { t with lastPort := none }
    | (use, some p) =>
      setF TB_STATUS_UP_IN_USE use
      if s.units.tb.lastPort.any (· ≠ p) then switchPort
      withTb fun t => { t with lastPort := some p, request := some (none, p, s.fld TB_SYNC_DOMAIN) }
      sendSync p kindSync (syncPayload 0 0 (s.fld TB_SYNC_DOMAIN) (s.fld TB_STATUS_HOPS) s.synced 0) f1

/-- SYNC_REQUEST_SEND. -/
def execSyncRequestSend (f1 : BitVec 2) (s : State) : Host.Outcome State Fault Refusal :=
  .next (perform s (actSyncRequestSend f1.toNat))

/-- Take the first frame of a kind, for this module, that came by a port. A sync frame is always its receiver's. -/
def takeArrived (p : Option Nat) (kinds : List Nat) : Act s₀ (Option Arrived) := do
  let s ← now
  match extractFirst (fun a : Arrived => a.port = p && kinds.contains a.frame.kind
      && (kindSync ≤ a.frame.kind || a.frame.dst = s.moduleId)) s.units.fab.rx with
  | (none, _) => pure none
  | (some a, rest) =>
    changeFab fun u => { u with rx := rest }
    giveCredits a.credits a.frame
    pure (some a)

/-- SYNC_REQUEST_RECEIVE (R220): a SYNC frame has arrived on the port. t2 is the port's replica as it came, and t3 is taken
as the response leaves; the fractions of both are in quarters of a tick. -/
def actSyncRequestReceive (p : Nat) (f2 f3 : Nat) : Act s₀ Unit := do
  match ← takeArrived (some p) [kindSync] with
  | none => pure ()
  | some a =>
    let s ← now
    if s.on TB_CTL_SERVE then
      sendSync p kindSyncResp (syncPayload (timestamp a.came f2) 0 (s.fld TB_SYNC_DOMAIN) (s.fld TB_STATUS_HOPS)
        s.synced 0) f3

/-- SYNC_REQUEST_RECEIVE. -/
def execSyncRequestReceive (p : PortNo) (f2 f3 : BitVec 2) (s : State) : Host.Outcome State Fault Refusal :=
  .next (perform s (actSyncRequestReceive p f2.toNat f3.toNat))

/-- The exchange in flight is missed: no run of consecutive valid exchanges goes on past it, and the fourth miss in a row
loses the port in use (R219, R222, R226). -/
def missExchange : Act s₀ Unit := do
  let s ← now
  let t := s.units.tb
  withTb fun x => { x with request := none, missed := t.missed + 1, good := 0, settled := 0 }
  if t.missed + 1 = 4 then
    let use := s.fld TB_STATUS_UP_IN_USE
    let otherLost := if use = 2 then t.upLost else t.altLost
    let other := if use = 2 then s.upPort else s.altPort
    raise TB_EVENT_UP_LOST
    withTb fun x => { x with missed := 0, upLost := x.upLost || use = 1, altLost := x.altLost || use = 2 }
    if other.isSome ∧ !otherLost then
      setF TB_STATUS_UP_IN_USE (3 - use)
      withTb fun x => { x with lastPort := other }
      switchPort
    else if s.fld TB_STATUS_STATE = 3 then
      withTb fun x => { x with slew := 0 }
      setTbState 4
      raise TB_EVENT_HOLDOVER
      riskBump RISK_BUMP_B_SYNC

/-- SYNC_RESPONSE_MISSED (R222). -/
def actSyncResponseMissed : Act s₀ Unit := do
  if (← now).units.tb.request.isSome then missExchange

/-- SYNC_RESPONSE_MISSED. -/
def execSyncResponseMissed (s : State) : Host.Outcome State Fault Refusal := .next (perform s actSyncResponseMissed)

/-- Extend a timestamp with the high bits of a count (R221): in units of 2^−16 tick. -/
def extendStamp (w : Word) (hi : Int) (less : Bool) : Int := (hi - (if less then 1 else 0)) * 2 ^ 64 + w.toNat

/-- d and θ of R221 in units of 2^−16 tick; `a` is PORT_ASYM in units of 2^−8 tick. -/
def offsets (t1 t2 t3 t4 : Int) (a : Int) : Int × Int :=
  (((t4 - t1) - (t3 - t2)) / 2, ((t1 + t4) - (t2 + t3)) / 2 + a * 2 ^ 8)

/-- Clamp to the limits of TB.FREQ (R223, R234) (DEDUCED, log entry 37). -/
def clampFreq (x : Int) : Int := max (-109951163) (min x 109951163)

/-- The servo of R223: θ in units of 2^−16 tick over a period of `p` ticks (DEDUCED, log entry 37). -/
def servo (th : Int) (p : Nat) : Act s₀ Unit := do
  let freq ← ask fun s => intOf 32 (s.fld TB_FREQ_FREQ)
  setF TB_FREQ_FREQ (intCode 32 (clampFreq (freq - (th * 2 ^ 24).tdiv (8 * p))))
  withTb fun t => { t with slew := clampFreq ((-(th * 2 ^ 24)).tdiv p) }

/-- A 48-bit field that saturates (R221). -/
def sat48 (x : Int) : Nat := intCode 48 (max (-(2 ^ 47)) (min x (2 ^ 47 - 1)))

/-- A valid exchange with offset `th`, by state (R219, R223, R224, R226) (DEDUCED, log entry 37). -/
def takeOffset (th : Int) : Act s₀ Unit := do
  let s ← now
  let st := s.fld TB_STATUS_STATE
  let p := 1024 * max 1 (s.fld TB_SYNC_PERIOD)
  let step : Act s₀ Unit := stepCount ((-th).tdiv (2 ^ 16))
  let wide : Bool := s.fld TB_SYNC_STEP_THRESH * 2 ^ 16 < th.natAbs
  let acquire : Act s₀ Unit := do
    withTb fun t => { t with good := 0, slew := 0 }
    setTbState 2
    step
  let lock : Act s₀ Unit := do
    setTbState 3
    withTb fun t => { t with settled := 0 }
    raise TB_STATUS_SETTLING
  if st = 1 then
    if s.upPort.isSome then acquire
  else if st = 2 then
    let near : Bool := th.natAbs ≤ 4 * 2 ^ 16
    let n := if near then s.units.tb.good + 1 else 0
    withTb fun t => { t with good := n }
    step
    if n = 8 then lock
  else if st = 3 then
    if wide then acquire
    else
      servo th p
      withTb fun t => { t with settled := t.settled + 1 }
      if 16 ≤ s.units.tb.settled + 1 then setF TB_STATUS_SETTLING 0
  else if st = 4 then
    if wide then acquire
    else
      lock
      servo th p

/-- SYNC_RESPONSE_RECEIVE (R221, R222): a SYNC_RESP frame has arrived on the port of the request; t4 is the port's replica
as it came, with a fraction in quarters of a tick. `replayed` says that its flit was replayed (R277). -/
def actSyncResponseReceive (p : Nat) (f4 : Nat) (replayed : Bool) : Act s₀ Unit := do
  match ← takeArrived (some p) [kindSyncResp] with
  | none => pure ()
  | some a =>
    let s ← now
    let t4 := timestamp a.came f4
    match s.units.tb.request with
    | none => pure ()
    | some (none, _, _) => pure ()
    | some (some t1, port, domain) =>
      if port = p then
        let w := (a.frame.payload.headD 0).toNat
        let t2 : Word := BitVec.ofNat 64 w
        let t3 : Word := BitVec.ofNat 64 (w >>> 64)
        let k : Word := BitVec.ofNat 64 (w >>> 128)
        let hi : Nat := (w >>> 192) % 2 ^ 16
        let hops := bits k 47 40
        if bits k 63 48 ≠ domain ∨ bits k 39 39 = 0 ∨ 254 ≤ hops ∨ replayed then missExchange
        else
          let c := s.portCount p
          let own (t : Word) : Int := extendStamp t ((c / 2 ^ 48 : Nat) : Int) (decide (c % 2 ^ 48 < stampTicks t))
          let x3 := extendStamp t3 (hi : Nat) false
          let x2 := extendStamp t2 hi (decide (stampTicks t3 < stampTicks t2))
          let (d, th) := offsets (own t1) x2 x3 (own t4) (intOf 16 (s.fld TB_PORT_ASYM_ASYM 0 p))
          setF TB_DELAY_D (sat48 d)
          setF TB_OFFSET_THETA (sat48 th)
          setF TB_STATUS_HOPS (hops + 1)
          let use := s.fld TB_STATUS_UP_IN_USE
          withTb fun t => { t with request := none, missed := 0, upLost := t.upLost && use ≠ 1,
                                   altLost := t.altLost && use ≠ 2 }
          countUp TB_STATUS_EXCHANGES 1
          takeOffset th

/-- SYNC_RESPONSE_RECEIVE. -/
def execSyncResponseReceive (p : PortNo) (f4 : BitVec 2) (replayed : Bool) (s : State) :
    Host.Outcome State Fault Refusal :=
  .next (perform s (actSyncResponseReceive p f4.toNat replayed))

/-- A write of TB.SYNC: a changed port is no longer lost. It takes effect at the next period (R226). -/
def hookTbSync (w : RegWrite) : Act s₀ Unit := do
  let s ← now
  let up := w.field TB_SYNC_UP_PORT ≠ s.fld TB_SYNC_UP_PORT || w.field TB_SYNC_UP_VALID ≠ s.fld TB_SYNC_UP_VALID
  let alt := w.field TB_SYNC_ALT_PORT ≠ s.fld TB_SYNC_ALT_PORT || w.field TB_SYNC_ALT_VALID ≠ s.fld TB_SYNC_ALT_VALID
  plainHook w
  withTb fun t => { t with upLost := t.upLost && !up, altLost := t.altLost && !alt }

/-! ### Comparators (R227) -/

/-- STAMP_REACHED: a comparator of a target whose replica stands at or past its stamp is reached. -/
def actStampReached (target lc : Nat) : Act s₀ Unit := do
  let s ← now
  changeRings fun r => { r with slots := r.slots.map fun d =>
    if d.target = target ∧ d.lc = some lc ∧ d.unlaunched ∧ s.stampPast d then { d with stampMet := true } else d }

/-- STAMP_REACHED. -/
def execStampReached (target : BitVec 8) (lc : Fin 16) (s : State) : Host.Outcome State Fault Refusal :=
  .next (perform s (actStampReached target.toNat lc))

end Sys2Proof.Machine
end

