-- ==== Sys2Proof/Machine/Collective.lean ====
section
/-! DEFINITION. Communication groups as the engines hold them, WRITE, REDUCE and GATHER frames as they are received, and
the collectives (R253, R254, R257, R260, R263 to R268). -/

namespace Sys2Proof.Machine

variable {s₀ : State}

/-! ### Groups (R257) -/

/-- The slot of engine `e` that holds a group. -/
def State.groupSlot (s : State) (e g : Nat) : Option Nat :=
  firstBelow 64 fun k => s.on COLL_GROUP_ID_VALID e k && s.fld COLL_GROUP_ID_GROUP e k = g

/-- The engine and slot that hold a group. -/
def State.groupAt (s : State) (g : Nat) : Option (Nat × Nat) :=
  match s.groupSlot 0 g, s.groupSlot 1 g with
  | some k, _ => some (0, k)
  | none, some k => some (1, k)
  | none, none => none

/-- The members of a slot's group, in ascending order. -/
def State.membersOf (s : State) (e k : Nat) : List Nat := mapGet (fun _ => []) s.units.fab.members (64 * e + k)

/-- The generation of a slot's group. -/
def State.genOf (s : State) (e k : Nat) : Nat := s.fld COLL_GROUP_ID_GEN e k

/-- The atelier that owns a data lane (R244, R279); none where the lane is not in use. -/
def State.laneOwner (s : State) (v : Nat) : Option Nat :=
  if 1 ≤ v ∧ v ≤ 16 ∧ bit (s.fld COLL_VL_VALID_VALID) (v - 1) then
    some ((s.held (COLL_VL_OWNER_OWNER.addr 0 0)).toNat / 16 ^ (v - 1) % 16)
  else none

/-- The engine of a descriptor on a collective engine. -/
def engNo : Engine → Option Nat
  | .coll y => some y.val
  | _ => none

/-- The collective engine of a number. -/
def collEngine (e : Nat) : Engine := .coll (Fin.ofNat 2 e)

/-! ### WRITE frames (R254) -/

/-- The granules of a WRITE frame: address, data and the bits named. -/
def writeParts (f : Frame) : List Req :=
  let n := if f.bitmask then f.payload.length - 1 else f.payload.length
  let last : Granule :=
    if f.bitmask then f.payload.getLastD 0
    else BitVec.ofNat 512 ((List.range 64).foldl (fun a b => if bit f.kw b then a + 255 * 256 ^ b else a) 0)
  (List.range n).map fun k => ⟨f.addr / 64 + k, f.payload.getD k 0, if k + 1 = n then last else fullMask⟩

/-- One granule of a WRITE frame: checked against the atelier that owns its lane, then committed or refused (DEDUCED,
log entry 40). -/
def writePart (f : Frame) (r : Req) : Act s₀ Got := do
  let s ← now
  let hbm : Bool := match place (64 * r.g) with
    | .stack _ _ => true
    | _ => false
  match s.laneOwner f.vl with
  | none => pure .denied
  | some a =>
    if !s.allowed a (64 * r.g) (64 * r.g + 63) || (hbm && f.ac.isSome) then pure .denied
    else writeGranule {} r.g r.data r.mask f.ac

/-- Every granule of a WRITE frame, ascending, and the status of the whole (R205). -/
def writeParts1 (f : Frame) : List Req → Act s₀ Arose
  | [] => pure []
  | r :: rs => do
    let e ← writePart f r
    let rest ← writeParts1 f rs
    pure (if e = .ok then rest else Arose.put rest e.status.1 e.status.2)

/-- A WRITE frame is delivered and acknowledged (R253, R254). -/
def acceptWrite (a : Arrived) : Act s₀ Unit := do
  let arose ← writeParts1 a.frame (writeParts a.frame)
  let (st, detail) := Arose.first arose
  sendAck a.frame st detail

/-! ### Generations (R260) -/

/-- What a frame of a group meets at the slot that holds it. -/
inductive GenCheck where
  | accept (eng slot : Nat)
  | stale (eng gen : Nat)
  | newer (eng : Nat)
  | unknown
  deriving DecidableEq, Repr

/-- The check of R260. -/
def State.genCheck (s : State) (f : Frame) : GenCheck :=
  match s.groupAt f.group with
  | none => .unknown
  | some (e, k) =>
    let g := s.genOf e k
    let d := sdiff f.gen g 16
    if d = 0 then .accept e k else if d < 0 then .stale e g else .newer e

/-- A stale frame: counted, and its source told (R260). -/
def dropStale (e g : Nat) (f : Frame) : Act s₀ Unit := do
  countUp COLL_GEN_STALE_COUNT_COUNT 1 e
  sendNotice f .genStale g

/-- A frame of a newer generation waits in the hold store of 64 frames (R260). -/
def holdFrame (e : Nat) (a : Arrived) : Act s₀ Unit := do
  let s ← now
  if 64 ≤ (s.units.fab.held.filter fun h => h.1 = e).length then
    match s.groupSlot e a.frame.group with
    | some k => dropStale e (s.genOf e k) a.frame
    | none => pure ()
  else changeFab fun u => { u with held := u.held ++ [(e, a)] }

/-! ### Element arithmetic (R265, R268) -/

/-- The fields of SIGNATURE (R264). -/
def sigOp (g : Nat) : Nat := g / 2 ^ 24
def sigKind (g : Nat) : Nat := g / 2 ^ 17 % 4
def sigTree (g : Nat) : Bool := g / 2 ^ 16 % 2 = 1
def sigType (g : Nat) : ElemType := (ElemType.ofCode (g / 2 ^ 19 % 32)).getD .fp32

/-- How many elements one unit of the wire holds: 2,048 elements of an MX tensor, a granule of votes, or one element
(R41, R265). -/
def unitElems (g : Nat) : Nat := if (sigType g).isMx then 2048 else if sigType g = .vote then 256 else 1

/-- The block of canonical element `e` of an MX tensor whose rows have `l` elements (R41). -/
def blockOf (l e : Nat) : Nat := e / max 1 l * ((l + 31) / 32) + e % max 1 l / 32

/-- The block of element `i` of unit `o`, counted from the unit's first. -/
def unitBlock (l o i : Nat) : Nat := blockOf l (2048 * o + i) - blockOf l (2048 * o)

/-- The bits of unit `o`: the elements of an MX tensor with the scale of every block that they lie in; INT32 reductions
carry 64 bits (R265) (DEDUCED, log entry 41). -/
def unitBits (g l o : Nat) : Nat :=
  let t := sigType g
  if t.isMx then 2048 * t.bits + 8 * (unitBlock l o 2047 + 1)
  else if t = .vote then 512
  else if t = .int32 ∧ (sigOp g = 0x41 ∨ sigOp g = 0x42) then 64
  else t.bits

/-- One combine of two terms: the value, the flags, and the saturated vote combines. -/
def combineUnit (g a b : Nat) : Nat × Flags × Nat :=
  let t := sigType g
  if sigOp g = 0x44 then
    let r := satInt t.bits (intOf t.bits a + intOf t.bits b)
    (intCode t.bits r.1, r.2, if r.2 = 0 then 0 else 1)
  else if t = .int32 then
    let x := intOf 64 a
    let y := intOf 64 b
    (intCode 64 (if sigKind g = 0 then x + y else if sigKind g = 1 then max x y else min x y), 0, 0)
  else
    let x := (t.decode 0x7f a).val
    let y := (t.decode 0x7f b).val
    let r := if sigKind g = 0 then x.add y else if sigKind g = 1 then valMax x y else valMin x y
    let c := t.encode .rne false (.num r.1)
    (c.1, r.2 ||| c.2, 0)

/-- Combine two runs of terms. -/
def combineRun (g : Nat) : List Nat → List Nat → List Nat × Flags × Nat
  | a :: as, b :: bs =>
    let r := combineUnit g a b
    let rest := combineRun g as bs
    (r.1 :: rest.1, r.2.1 ||| rest.2.1, r.2.2 + rest.2.2)
  | _, _ => ([], 0, 0)

/-- The payload of unit `o` from its elements: their codes in order, with the scales of an MX tensor's blocks behind
them, or the f bits of a granule of votes (R41, R43). -/
def packUnit (t : ElemType) (l o : Nat) (xs : List (Nat × Nat)) : Nat :=
  if t.isMx then
    xs.zipIdx.foldl (fun a x => a + x.1.1 * 2 ^ (t.bits * x.2)
      + (if x.2 = 0 ∨ unitBlock l o (x.2 - 1) < unitBlock l o x.2 then
          x.1.2 * 2 ^ (2048 * t.bits + 8 * unitBlock l o x.2) else 0)) 0
  else if t = .vote then xs.zipIdx.foldl (fun a x => a + x.1.1 % 2 * 2 ^ x.2 + x.1.1 / 2 * 2 ^ (256 + x.2)) 0
  else (xs.headD (0, 0)).1

/-- Element `i` of unit `o`: its code and scale. -/
def unpackUnit (t : ElemType) (l o v i : Nat) : Nat × Nat :=
  if t.isMx then (v / 2 ^ (t.bits * i) % 2 ^ t.bits, v / 2 ^ (2048 * t.bits + 8 * unitBlock l o i) % 256)
  else if t = .vote then (v / 2 ^ i % 2 + 2 * (v / 2 ^ (256 + i) % 2), 0x7f)
  else (v, 0x7f)

/-! ### A collective's shape -/

/-- P, and b_s in units. -/
def Coll.size (c : Coll) : Nat := c.members.length
def Coll.bound (c : Coll) (k : Nat) : Nat := k * (c.count * unitElems c.sig) / c.size / unitElems c.sig
/-- The slice that holds unit `o`; that of a collective of no elements is slice P − 1 (DEDUCED, log entry 41). -/
def Coll.slice (c : Coll) (o : Nat) : Nat :=
  ((List.range c.size).find? fun k => c.bound k ≤ o && o < c.bound (k + 1)).getD (c.size - 1)
/-- It has no elements, and only its contributor counts travel, in frames without payload (R268) (DESIGN CHOICE, log entry
93). -/
def Coll.bare (c : Coll) : Bool := c.count = 0 && sigOp c.sig = 0x44
/-- How many units a slice has. -/
def Coll.width (c : Coll) (k : Nat) : Nat := c.bound (k + 1) - c.bound k
/-- The next rank of the cycle. -/
def Coll.after (c : Coll) (k : Nat) : Nat := (k + 1) % c.size

/-- The parent of a rank in the tree of R154 and R266, and its children by level: rank r's right subtree at level k begins
at r + 2^k, while bits below and at k of r are 0. -/
def treeParent (r : Nat) : Nat := r - 2 ^ (lowestOne r 13)
def childLevels (p r : Nat) : List Nat :=
  (List.range 13).filter fun k => r % 2 ^ (k + 1) = 0 && r + 2 ^ k < p
/-- The children of this member. -/
def Coll.children (c : Coll) : List Nat := (childLevels c.size c.rank).map fun k => c.rank + 2 ^ k

/-- The units of the result that this member stores. -/
def Coll.wants (c : Coll) : Nat := if sigOp c.sig = 0x42 then c.width c.rank else c.count

/-- A collective has sent, received and stored everything. -/
def Coll.over (c : Coll) : Bool := c.owe = 0 && c.wants ≤ c.held.length && (!c.bare || c.total.isSome)

/-- Change a collective. -/
def withColl (id : Nat) (f : Coll → Coll) : Act s₀ Unit :=
  changeFab fun u => { u with colls := u.colls.map fun c => if c.slot = id then f c else c }

/-- The collective of a descriptor. -/
def State.coll (s : State) (id : Nat) : Option Coll := s.units.fab.colls.find? fun c => c.slot = id

/-! ### Sending (R250, R251, R264) -/

/-- Cut a run of `n` units from unit `o` into pieces of `per` units. -/
def cutUnits (per : Nat) : Nat → Nat → Nat → List (Nat × Nat)
  | 0, _, _ => []
  | fuel + 1, o, n => if n = 0 then [] else (o, min per n) :: cutUnits per fuel (o + per) (n - per)

/-- The pieces of a run, one to a frame: at most 64 granules each, and one unit where units differ in size. -/
def Coll.pieces (c : Coll) (o n : Nat) : List (Nat × Nat) :=
  let per := if (sigType c.sig).isMx ∧ c.rowLen % 32 ≠ 0 then 1 else max 1 (32768 / unitBits c.sig c.rowLen 0)
  if c.bare then [(o, 0)] else cutUnits per n o n

/-- The granules that hold a run of units (DEDUCED, log entry 41). -/
def packRun (bitsEach : Nat) (vs : List Nat) : List Granule :=
  let w := vs.zipIdx.foldl (fun a x => a + x.1 % 2 ^ bitsEach * 2 ^ (bitsEach * x.2)) 0
  (List.range ((vs.length * bitsEach + 511) / 512)).map fun k => BitVec.ofNat 512 (w / 2 ^ (512 * k))

/-- `n` units of granules. -/
def unpackRun (bitsEach n : Nat) (gs : List Granule) : List Nat :=
  let w := gs.zipIdx.foldl (fun a x => a + x.1.toNat * 2 ^ (512 * x.2)) 0
  (List.range n).map fun k => w / 2 ^ (bitsEach * k) % 2 ^ bitsEach

/-- Send units from unit `o` to a rank, in REDUCE or GATHER frames of at most 64 granules, with a contributor count. -/
def sendUnits (c : Coll) (kind rank o : Nat) (vs : List Nat) (contrib : Nat) : Act s₀ Unit := do
  let s ← now
  match s.groupSlot c.eng c.group, s.slot c.slot with
  | some k, some d =>
    let kw := c.seq % 2 ^ 16 * 2 ^ 32 + c.sig
    postFrames c.slot ((c.pieces o vs.length).map fun x =>
      ⟨c.slot, some d.atelier, 0, 0,
        (mkFrame (c.members.getD rank 0) s.moduleId kind (s.fld COLL_GROUP_ID_VL c.eng k) c.gen (x.1 * unitElems c.sig)
          c.group none kw (packRun (unitBits c.sig c.rowLen x.1) ((vs.drop (x.1 - o)).take x.2))).withContrib contrib⟩)
  | _, _ => pure ()

/-! ### Storing -/

/-- AC fields of a collective's body (R263). -/
def collAc (d : Slot) : Option Nat := acOf d.words 2

/-- Stage element `i` of unit `o` of the result, at canonical element `e` of DST: its code, and the scale of its MX
block. INT32 sums saturate at the store (R265). -/
def putResult (dst : Tensor) (e : Nat) (c : Coll) (o v i : Nat) : Work s₀ Unit := do
  if e < dst.count then
    let j := unravel dst.ext e
    let (c0, sc) := unpackUnit dst.type c.rowLen o v i
    if dst.type = .int32 ∧ unitBits c.sig c.rowLen o = 64 then
      let r := satInt 32 (intOf 64 v)
      if dst.inBox j then raiseFlags r.2
      putRaw dst j (intCode 32 r.1)
    else
      putRaw dst j c0
      if dst.inBox j then
        match (dst.spotAt (dst.q j)).scale with
        | some b => writeBits b 8 sc
        | none => pure ()

/-- Change the Varnish dies' own state. -/
def changeVar (f : VarUnit → VarUnit) : Act s₀ Unit := change fun u => { u with var := f u.var }

/-- Change the open exchange of a unit. -/
def withExchange (e : Nat) (f : Exchange → Exchange) : Act s₀ Unit :=
  changeVar fun v => { v with exchanges := v.exchanges.map fun x => if x.eng = e then f x else x }

/-- Store units of the result from unit `o`, each once; the bytes of an exchange go to its unit. -/
def storeUnits (c : Coll) (o : Nat) (vs : List Nat) : Act s₀ Unit := do
  match (← now).slot c.slot with
  | none => pure ()
  | some d =>
    if c.exch then
      withExchange c.eng fun x => { x with
        gathered := vs.zipIdx.foldl (fun g v => mapSet (fun _ => 256) g (o + v.2) v.1) x.gathered }
    let dst := d.tensor 1
    let ue := unitElems c.sig
    let base := if sigOp c.sig = 0x42 then c.bound c.rank else 0
    if !c.exch then
      runFor d (collEngine c.eng) do
        for (v, k) in vs.zipIdx do
          if !c.held.contains (o + k) then
            for i in List.range ue do
              putResult dst ((o + k - base) * ue + i) c (o + k) v i
        commitStaged (collAc d)
    withColl c.slot fun x => { x with
      held := ((List.range vs.length).map (o + ·)).foldl (fun h u => if h.contains u then h else u :: h) x.held }

/-- The contributor record of COLL_VOTE_SUM (R268). -/
def voteRecord (c : Coll) (d : Slot) : Act s₀ Unit := do
  let a := body d.words 3 47 0
  if sigOp c.sig = 0x44 ∧ a ≠ 0 then
    let total ← match c.total with
      | some n => pure n
      | none => do
        let i ← freeIndex
        pure (Config.freeWord i).toNat
    runFor d (collEngine c.eng) do
      writeBits (8 * a) 64 (c.gen * 2 ^ 48 + c.size % 2 ^ 16 * 2 ^ 32 + total % 2 ^ 32)
      commitStaged none

/-- A collective that is over leaves the engine, and its descriptor's status is fixed (DEDUCED, log entry 41). -/
def settleColl (id : Nat) : Act s₀ Unit := do
  let s ← now
  match s.coll id, s.slot id with
  | some c, some d =>
    if c.over then
      changeFab fun u => { u with colls := u.colls.filter fun x => x.slot ≠ id }
      if !c.exch then
        voteRecord c d
        finish id
  | _, _ => pure ()

/-- An update ends with a status: nothing more is written, and K is unchanged (R298, R299). -/
def endVarRun (id : Nat) (st : Status) (detail : Nat) : Act s₀ Unit := do
  changeVar fun v => { v with runs := v.runs.filter fun r => r.slot ≠ id }
  withSlot id fun d => { d with arose := Arose.put d.arose st detail, phase := .done }

/-- An open exchange ends, and the updates that take part in it complete with a status (R296, R298). -/
def endExchange (x : Exchange) (st : Status) (detail : Nat) : Act s₀ Unit := do
  let s ← now
  changeFab fun u => { u with colls := u.colls.filter fun c => !(c.exch && c.eng = x.eng) }
  each x.reports fun r => dropWaiting fun y => y.slot = r.slot
  changeVar fun v => { v with exchanges := v.exchanges.filter fun y => y.eng ≠ x.eng }
  each (s.units.var.runs.filter fun r => r.phase < 3 && bit x.set r.die
      && ((s.slot r.slot).any fun d => body d.words 3 31 16 = x.useq)) fun r => endVarRun r.slot st detail

/-- A collective ends with a status; frames that reach it later are refused with a status of their own where the rule
gives one (R261, R264). The gather of an exchange ends with its exchange (DEDUCED, log entry 41). -/
def endColl (c : Coll) (st : Status) (detail : Nat) (refuse : Option Status) : Act s₀ Unit := do
  let s ← now
  dropWaiting fun y => y.slot = c.slot
  changeFab fun u => { u with
    colls := u.colls.filter fun x => x.slot ≠ c.slot
    refused := match refuse with
      | some r => u.refused ++ [(c.eng, c.group, c.gen, c.seq, r.code)]
      | none => u.refused }
  if c.exch then
    (match s.units.var.exchanges.find? fun x => x.eng = c.eng with
    | some x => endExchange x st detail
    | none => pure ())
  else withSlot c.slot fun d => { d with arose := Arose.put d.arose st detail, phase := .done }

/-! ### Receiving REDUCE and GATHER -/

/-- A finished run of the result at the member that finishes it: stored where this member wants it, and sent on where the
opcode delivers it (R266). -/
def finishRun (c : Coll) (o : Nat) (vs : List Nat) (total : Nat) : Act s₀ Unit := do
  withColl c.slot fun x => { x with total := some total }
  if sigTree c.sig then
    each c.children fun k => sendUnits c kindGather k o vs total
    if sigOp c.sig = 0x42 then
      let lo := max o (c.bound c.rank)
      let hi := min (o + vs.length) (c.bound (c.rank + 1))
      if lo < hi then storeUnits c lo ((vs.drop (lo - o)).take (hi - lo))
    else storeUnits c o vs
  else
    storeUnits c o vs
    if sigOp c.sig ≠ 0x42 ∧ 1 < c.size then sendUnits c kindGather (c.after c.rank) o vs total

/-- The terms of this member from unit `o`. -/
def Coll.own (c : Coll) (o n : Nat) : List Nat := (c.terms.drop o).take n

/-- This member's contributor count. -/
def ownContrib (d : Slot) : Nat := body d.words 2 63 48

/-- Flags and saturations of combines performed here (R266, R268). -/
def noteCombine (d : Slot) (e : Nat) (fl : Flags) (sats : Nat) : Act s₀ Unit := do
  countUp COLL_VOTE_SAT_COUNT_COUNT sats e
  runFor d (collEngine e) (raiseFlags fl)

/-- RING: a partial sum from the rank before (R266). -/
def ringReduce (c : Coll) (d : Slot) (o : Nat) (vs : List Nat) (contrib : Nat) : Act s₀ Unit := do
  let r := combineRun c.sig vs (c.own o vs.length)
  noteCombine d c.eng r.2.1 r.2.2
  withColl c.slot fun x => { x with owe := x.owe - vs.length }
  let total := (contrib + ownContrib d) % 2 ^ 32
  if c.slice o = c.rank then finishRun c o r.1 total
  else sendUnits c kindReduce (c.after c.rank) o r.1 total

/-- TREE: fold the subtrees' partial sums of a run onto this member's terms, in the order of the levels. -/
def foldLevels (g : Nat) (vs : List Nat) : List (List Nat) → List Nat × Flags × Nat
  | [] => (vs, 0, 0)
  | xs :: rest =>
    let r := combineRun g vs xs
    let t := foldLevels g r.1 rest
    (t.1, r.2.1 ||| t.2.1, r.2.2 + t.2.2)

/-- TREE: the runs of this member that are ready go up, or are finished at rank 0. -/
def treeUp (c : Coll) (d : Slot) (o n : Nat) : Act s₀ Unit := do
  let ls := childLevels c.size c.rank
  let entry (k u : Nat) := c.partials.find? fun e => e.1 = k && e.2.1 = u
  if ls.all fun k => (List.range (max n 1)).all fun i => (entry k (o + i)).isSome then
    let runs := ls.map fun k => (List.range n).map fun i => ((entry k (o + i)).map fun e => e.2.2.1).getD 0
    let total := ls.foldl (fun a k => a + ((entry k o).map fun e => e.2.2.2).getD 0) (ownContrib d)
    let r := foldLevels c.sig (c.own o n) runs
    noteCombine d c.eng r.2.1 r.2.2
    if c.rank = 0 then finishRun c o r.1 (total % 2 ^ 32)
    else sendUnits c kindReduce (treeParent c.rank) o r.1 (total % 2 ^ 32)

/-- TREE: a partial sum from a subtree (R266). -/
def treeReduce (c : Coll) (d : Slot) (src o : Nat) (vs : List Nat) (contrib : Nat) : Act s₀ Unit := do
  let k := lowestOne (src - c.rank) 13
  let c' : Coll := { c with
    owe := c.owe - vs.length
    partials := c.partials ++ (if c.bare then [0] else vs).zipIdx.map fun x => (k, o + x.2, x.1, contrib) }
  withColl c.slot fun _ => c'
  treeUp c' d o vs.length

/-- A finished run that reaches this member (R266). -/
def gatherRun (c : Coll) (src o : Nat) (vs : List Nat) (contrib : Nat) : Act s₀ Unit := do
  withColl c.slot fun x => { x with total := some contrib }
  if sigTree c.sig then
    withColl c.slot fun x => { x with owe := x.owe - vs.length }
    let fromParent : Bool := c.rank ≠ 0 && src = treeParent c.rank
    if sigOp c.sig = 0x43 ∧ !fromParent then
      storeUnits c o vs
      if c.rank = 0 then each c.children fun k => sendUnits c kindGather k o vs 0
      else sendUnits c kindGather (treeParent c.rank) o vs 0
    else
      each c.children fun k => sendUnits c kindGather k o vs contrib
      if sigOp c.sig = 0x42 then
        let lo := max o (c.bound c.rank)
        let hi := min (o + vs.length) (c.bound (c.rank + 1))
        if lo < hi then storeUnits c lo ((vs.drop (lo - o)).take (hi - lo))
      else storeUnits c o vs
  else
    storeUnits c o vs
    if c.after c.rank ≠ c.slice o then sendUnits c kindGather (c.after c.rank) o vs contrib

/-- Units of a frame: as many whole units as it holds, within the slice or the collective. -/
def frameUnits (c : Coll) (f : Frame) : Nat × List Nat :=
  let o := f.addr / unitElems c.sig
  let ub := unitBits c.sig c.rowLen o
  let top := if sigTree c.sig ∧ sigOp c.sig ≠ 0x43 then c.count else c.bound (c.slice o + 1)
  let n := min (f.payload.length * 512 / ub) (top - o)
  (o, unpackRun ub n f.payload)

/-- A frame meets its collective (R264, R266). -/
def runFrame (c : Coll) (a : Arrived) : Act s₀ Unit := do
  match (← now).slot c.slot with
  | none => pure ()
  | some d =>
    let (o, vs) := frameUnits c a.frame
    let src := c.members.findIdx fun m => m = a.frame.src
    if a.frame.kind = kindReduce then
      (if sigTree c.sig then treeReduce c d src o vs a.contrib.toNat else ringReduce c d o vs a.contrib.toNat)
    else gatherRun c src o vs a.contrib.toNat
    settleColl c.slot

/-- COLL_SEQ and SIGNATURE of a frame. -/
def Frame.collSeq (f : Frame) : Nat := f.kw / 2 ^ 32 % 2 ^ 16
def Frame.sig (f : Frame) : Nat := f.kw % 2 ^ 32

/-- The bytes that the staging store of an engine holds (R264). -/
def State.stagedBytes (s : State) (e : Nat) : Nat :=
  (s.units.fab.staged.filter fun x => x.1 = e).foldl (fun n x => n + 64 * x.2.frame.payload.length) 0

/-- The collective that a frame belongs to. -/
def State.collFor (s : State) (e : Nat) (f : Frame) : Option Coll :=
  s.units.fab.colls.find? fun c => c.eng = e && c.group = f.group && c.gen = f.gen && c.seq = f.collSeq

/-- The status with which frames of a collective are refused (R264). -/
def State.refusal (s : State) (e : Nat) (f : Frame) : Option Nat :=
  (s.units.fab.refused.find? fun r => r.1 = e && r.2.1 = f.group && r.2.2.1 = f.gen && r.2.2.2.1 = f.collSeq).map
    fun r => r.2.2.2.2

/-- A REDUCE or GATHER frame whose generation is the slot's (R264) (DEDUCED, log entry 41). -/
def acceptColl (e k : Nat) (a : Arrived) : Act s₀ Unit := do
  let s ← now
  let f := a.frame
  match s.refusal e f, s.collFor e f with
  | some st, _ => sendAck f (Status.ofCode st) (if Status.ofCode st = .accessDenied then 3 else 0)
  | none, some c =>
    if f.sig ≠ c.sig then
      sendAck f .accessDenied 3
      endColl c .accessDenied 3 (some .accessDenied)
    else
      sendAck f .ok 0
      runFrame c a
  | none, none =>
    sendAck f .ok 0
    if 0 ≤ sdiff f.collSeq (s.fld COLL_GROUP_ID_SEQ e k) 16 then
      changeFab fun u => { u with staged := u.staged ++ [(e, a)] }

/-- A frame of a group, of any data kind, is handled by its generation (R260). -/
def acceptGroupFrame (a : Arrived) : Act s₀ Unit := do
  let s ← now
  match s.genCheck a.frame with
  | .unknown => sendAck a.frame .accessDenied 3
  | .stale e g => dropStale e g a.frame
  | .newer e => holdFrame e a
  | .accept e k => do
    uncore 3 e 0x30 1
    if a.frame.kind = kindWrite then acceptWrite a else acceptColl e k a

/-- The staging store has room for a REDUCE or GATHER frame that would be staged (R264). -/
def State.storeRoom (s : State) (a : Arrived) : Bool :=
  match s.genCheck a.frame with
  | .accept e k =>
    (s.collFor e a.frame).isSome || (s.refusal e a.frame).isSome
      || sdiff a.frame.collSeq (s.fld COLL_GROUP_ID_SEQ e k) 16 < 0
      || s.stagedBytes e + 64 * a.frame.payload.length ≤ 2 ^ 21
  | _ => true

/-- A frame waits behind one of its lane that a full staging store holds up: the engine takes no more frames from that
lane until space frees (R264) (DEDUCED, log entry 41). -/
def State.heldUp (s : State) (a : Arrived) : Bool :=
  let eng (x : Arrived) : Option Nat := (s.groupAt x.frame.group).map Prod.fst
  (s.units.fab.rx.takeWhile fun x => x ≠ a).any fun x =>
    x.frame.dst = s.moduleId && (x.frame.kind = kindReduce || x.frame.kind = kindGather) && x.frame.vl = a.frame.vl
      && ((eng a).isNone || eng a = eng x) && !s.storeRoom x

/-- A REDUCE or GATHER frame is taken: the staging store has room for it and for those before it (R264). -/
def State.stageRoom (s : State) (a : Arrived) : Bool := s.storeRoom a && !s.heldUp a

/-- WRITE_FRAME_RECEIVE (R254, R260): the first WRITE frame for this module at a port, or that came over the mesh. -/
def actWriteFrameReceive (p : Option Nat) : Act s₀ Unit := do
  let s ← now
  match extractFirst (fun a : Arrived => a.port = p && a.frame.dst = s.moduleId && a.frame.kind = kindWrite
      && !s.heldUp a) s.units.fab.rx with
  | (none, _) => pure ()
  | (some a, rest) =>
    changeFab fun u => { u with rx := rest }
    if a.frame.group = 0 then acceptWrite a else acceptGroupFrame a
    giveCredits a.credits a.frame

/-- WRITE_FRAME_RECEIVE. -/
def execWriteFrameReceive (p : Option PortNo) (s : State) : Host.Outcome State Fault Refusal :=
  .next (perform s (actWriteFrameReceive (p.map Fin.val)))

/-- COLL_FRAME_RECEIVE (R260, R264): the first REDUCE or GATHER frame for this module at a port whose lane is not held up
by a full staging store; `contrib` is the contributor count of the partial sum it carries. -/
def actCollFrameReceive (p : Option Nat) (contrib : BitVec 32) : Act s₀ Unit := do
  let s ← now
  match extractFirst (fun a : Arrived => a.port = p && a.frame.dst = s.moduleId
      && (a.frame.kind = kindReduce || a.frame.kind = kindGather) && s.stageRoom a) s.units.fab.rx with
  | (none, _) => pure ()
  | (some a, rest) =>
    changeFab fun u => { u with rx := rest }
    acceptGroupFrame { a with contrib := contrib }
    giveCredits a.credits a.frame

/-- COLL_FRAME_RECEIVE. -/
def execCollFrameReceive (p : Option PortNo) (contrib : BitVec 32) (s : State) : Host.Outcome State Fault Refusal :=
  .next (perform s (actCollFrameReceive (p.map Fin.val) contrib))

/-! ### The collective descriptors (R263 to R268) -/

/-- Two tensors' intervals overlap (R264). -/
def tensorsOverlap (src dst : Tensor) : Bool := overlaps (src.interval false) (dst.interval true)

/-- The group that a body names is held by this engine for this atelier (R257). -/
def permitGroup (e g : Nat) : Prep s₀ Nat := do
  let io ← OptionT.lift get
  let s ← OptionT.lift (doing now)
  match s.groupSlot e g with
  | some k =>
    permit (s.fld COLL_GROUP_ID_ATELIER e k = io.atelier)
    pure k
  | none => failWith .accessDenied 3

/-- The types that an opcode takes (R265). -/
def collTypes (op kind : Nat) (src dst : ElemType) : Bool :=
  if op = 0x44 then (src = .int8 || src = .int16 || src = .vote) && (dst = .int8 || dst = .int16)
  else if op = 0x43 then src = dst
  else src = dst && (src = .fp32 || src = .bf16 || src = .int32 || (src = .wx && kind = 0))

/-- The body and records of a collective (R263, R264). -/
def prepColl (e : Nat) (w : Descriptor) : Prep s₀ (List Nat) := do
  let op := opcodeOf w
  let kind := body w 2 37 36
  let cnt := body w 3 47 0
  demand (body w 2 47 40 = 0 && body w 2 23 16 = 0 && body w 2 14 10 = 0 && body w 3 63 48 = 0 && zeroFrom w 4)
  demand (body w 2 39 38 < 2 && kind ≠ 3 && (kind = 0 || op = 0x41 || op = 0x42))
  demand (cnt % 8 = 0 && (op = 0x44 || (cnt = 0 && body w 2 63 48 = 0)))
  let group ← attempt (permitGroup e (body w 2 35 24))
  if cnt = 0 then pure () else permitBytes cnt (cnt + 7)
  match ← readTensors [body w 0 63 0, body w 1 63 0] with
  | [(rs, src), (rd, dst)] =>
    demand (collTypes op kind src.type dst.type && !tensorsOverlap src dst)
    demand (body w 2 15 15 = 0 || (match place (dst.home true) with
      | .stack _ _ => false
      | _ => true))
    let s ← OptionT.lift (doing now)
    match group with
    | none => pure ()
    | some k =>
      let p := (s.membersOf e k).length
      let r := s.fld COLL_GROUP_SIZE_RANK e k
      let n := if op = 0x43 then dst.count else src.count
      let b (i : Nat) : Nat := i * n / p
      let mine := b (r + 1) - b r
      demand (src.count = (if op = 0x43 then mine else n) && dst.count = (if op = 0x42 then mine else n))
      demand (op ≠ 0x43 || !(dst.type.isMx || dst.type = .vote) || (List.range (p + 1)).all fun i => b i % 2048 = 0)
    permitTensor src false
    permitTensor dst true
    permitCounter (dst.home true) (collAc { id := 0, target := 0, ring := 0, pos := 0, words := w, ctx := {}, atelier := 0 })
    pure [rs, rd]
  | _ => failure

/-- SIGNATURE of a descriptor (R264). -/
def collSig (d : Slot) (n : Nat) : Nat :=
  opcodeOf d.words * 2 ^ 24 + (d.recs.getD 1 0 / 2 ^ 48 % 32) * 2 ^ 19 + body d.words 2 37 36 * 2 ^ 17
    + body d.words 2 38 38 * 2 ^ 16 + n % 2 ^ 16

/-- One term of COLL_VOTE_SUM on entry: saturated to DST's range (R268). -/
def voteTerm (src dst : ElemType) (code : Nat) : Nat × Flags × Nat :=
  let (i, fl) := (src.decode 0x7f code).toInt .rne
  let r := satInt dst.bits i
  (intCode dst.bits r.1, fl ||| r.2, if r.2 = 0 then 0 else 1)

/-- The local terms as the wire carries them from unit `o` on, with the flags and saturations of their entry. -/
def localTerms (g l o : Nat) (src : ElemType) (xs : List (Nat × Nat)) : List Nat × Flags × Nat :=
  let t := sigType g
  if sigOp g = 0x44 then
    let rs := xs.map fun x => voteTerm src t x.1
    (rs.map Prod.fst, rs.foldl (fun a r => a ||| r.2.1) 0, rs.foldl (fun a r => a + r.2.2) 0)
  else if unitBits g l o = 64 ∧ t = .int32 then (xs.map fun x => intCode 64 (intOf 32 x.1), 0, 0)
  else ((chunks (unitElems g) xs).zipIdx.map fun c => packUnit t l (o + c.2) c.1, 0, 0)

/-- How many units a member has yet to receive in the phases that it takes part in (R266). -/
def Coll.duties (c : Coll) : Nat :=
  let op := sigOp c.sig
  if sigTree c.sig then
    let down := if c.rank = 0 then 0 else c.count
    if op = 0x43 then
      ((childLevels c.size c.rank).foldl (fun n k => n + (c.bound (min c.size (c.rank + 2 ^ (k + 1))) - c.bound (c.rank + 2 ^ k)))
        down)
    else c.count * c.children.length + down
  else if op = 0x43 then 0
  else c.count - c.width ((c.rank + c.size - 1) % c.size)

/-- A collective starts: this member sends what it sends first (R266). -/
def startColl (c : Coll) (d : Slot) : Act s₀ Unit := do
  let op := sigOp c.sig
  if c.size = 1 then finishRun c 0 c.terms (ownContrib d)
  else if op = 0x43 then
    let o := c.bound c.rank
    storeUnits c o c.terms
    if sigTree c.sig then
      (if c.rank = 0 then each c.children fun k => sendUnits c kindGather k o c.terms 0
       else sendUnits c kindGather (treeParent c.rank) o c.terms 0)
    else sendUnits c kindGather (c.after c.rank) o c.terms 0
  else if sigTree c.sig then
    (if c.children.isEmpty then sendUnits c kindReduce (treeParent c.rank) 0 c.terms (ownContrib d) else pure ())
  else
    let k := (c.rank + c.size - 1) % c.size
    if c.bare ∧ c.rank ≠ 0 then pure ()
    else sendUnits c kindReduce (c.after c.rank) (c.bound k) (c.own (c.bound k) (c.width k)) (ownContrib d)

/-- Staged frames of a collective are handled when it starts (R264). -/
def drainStaged (id : Nat) : List (Nat × Arrived) → Act s₀ Unit
  | [] => pure ()
  | (_, a) :: rest => do
    match (← now).coll id with
    | some c =>
      if a.frame.sig ≠ c.sig then
        -- the frame was acknowledged when it was staged: its sender learns from its own side (R264)
        endColl c .accessDenied 3 (some .accessDenied)
      else runFrame c a
    | none => pure ()
    drainStaged id rest

/-- The staged frames of a collective leave the staging store. -/
def takeStaged (c : Coll) : Act s₀ (List (Nat × Arrived)) := do
  let mine : List (Nat × Arrived) := (← now).units.fab.staged.filter fun x => x.1 = c.eng && x.2.frame.group = c.group
    && x.2.frame.gen = c.gen && x.2.frame.collSeq = c.seq
  changeFab fun u => { u with staged := u.staged.filter fun x => !mine.contains x }
  pure mine

/-- A collective whose operand is read, raw, begins with its local terms: it ends at once where a read met poison, with
the frames that came before it discarded, and else takes those frames (R260, R264). -/
def beginColl (c : Coll) (d : Slot) (src : ElemType) (xs : List (Nat × Nat)) (poisoned : Bool) : Act s₀ Unit := do
  let (terms, fl, sats) := localTerms c.sig c.rowLen (if sigOp c.sig = 0x43 then c.bound c.rank else 0) src xs
  let c := { c with terms := terms }
  let owe := if c.size = 1 then 0 else c.duties
  changeFab fun u => { u with colls := u.colls ++ [{ c with owe := owe }] }
  let mine ← takeStaged c
  if poisoned then endColl c .eccUncorr 0 (some .eccUncorr)
  else
    noteCombine d c.eng fl sats
    startColl c d
    drainStaged c.slot mine
    settleColl c.slot

/-- A collective descriptor that has issued runs: it takes the group's sequence number, reads its terms, and starts
(R264 to R267). -/
def actCollective (op id : Nat) : Act s₀ Unit := do
  let s ← now
  match s.slot id with
  | none => pure ()
  | some d =>
    match d.on.bind engNo with
    | none => pure ()
    | some e =>
      let group := body d.words 2 35 24
      match s.groupSlot e group with
      | none => pure ()
      | some k =>
        if d.phase = .issued ∧ opcodeOf d.words = op ∧ (s.coll id).isNone then
          let src := d.tensor 0
          let dst := d.tensor 1
          let n := if op = 0x43 then dst.count else src.count
          let g := collSig d n
          let seq := s.fld COLL_GROUP_ID_SEQ e k
          setF COLL_GROUP_ID_SEQ (seq + 1) e k
          let members := s.membersOf e k
          let (xs, poisoned) ← runFor d (collEngine e) do
            let xs ← readStream src (src.indices.map some)
            let io ← get
            pure (xs, io.stopped)
          beginColl { eng := e, slot := id, group := group, gen := s.genOf e k, seq := seq, sig := g,
                      members := members, rank := s.fld COLL_GROUP_SIZE_RANK e k, count := n / unitElems g,
                      terms := [], rowLen := dst.ext.headD 1 } d src.type xs poisoned

/-- COLL_ALL_REDUCE. -/
def execCollAllReduce (id : Nat) (s : State) : Host.Outcome State Fault Refusal := .next (perform s (actCollective 0x41 id))
/-- COLL_REDUCE_SCATTER. -/
def execCollReduceScatter (id : Nat) (s : State) : Host.Outcome State Fault Refusal := .next (perform s (actCollective 0x42 id))
/-- COLL_ALL_GATHER. -/
def execCollAllGather (id : Nat) (s : State) : Host.Outcome State Fault Refusal := .next (perform s (actCollective 0x43 id))
/-- COLL_VOTE_SUM. -/
def execCollVoteSum (id : Nat) (s : State) : Host.Outcome State Fault Refusal := .next (perform s (actCollective 0x44 id))

end Sys2Proof.Machine
end

