-- ==== Sys2Proof/Machine/Groups.lean ====
section
/-! DEFINITION. Group membership: installing a generation and what a change of one does, GROUP_SET, MEMBERSHIP frames,
acknowledgements and notices (R252, R253, R257 to R262). -/

namespace Sys2Proof.Machine

variable {s₀ : State}

/-! ### A change of generation (R261) -/

/-- A descriptor of an engine sends rows to a group: a dispatch or combine in progress (R276). -/
def Slot.sendsTo (d : Slot) (e g : Nat) : Bool :=
  d.on.bind engNo = some e && (d.phase = .issued || (d.phase = .done && d.outstanding ≠ 0)) &&
  ((opcodeOf d.words = 0x45 && body d.words 5 42 31 = g) || (opcodeOf d.words = 0x46 && body d.words 3 47 36 = g))

/-- A collective of a group that has issued on engine `e` and has not begun. -/
def Slot.joins (d : Slot) (e g : Nat) : Bool :=
  d.on.bind engNo = some e && d.phase = .issued && 0x41 ≤ opcodeOf d.words && opcodeOf d.words ≤ 0x44
    && body d.words 2 35 24 = g

/-- A slot's generation has changed, or the slot has been freed: collectives, sends and exchanges of the group end, and
staged frames of the old generation go. -/
def changeGeneration (e g : Nat) : Act s₀ Unit := do
  let s ← now
  each (s.units.fab.colls.filter fun c => c.eng = e && c.group = g && !c.exch) fun c => endColl c .genStale 0 none
  each (s.slots.filter fun d => d.sendsTo e g || (d.joins e g && (s.coll d.id).isNone)) fun d => do
    dropWaiting fun y => y.slot = d.id
    withSlot d.id fun x => { x with arose := Arose.put x.arose .genStale 0, phase := .done }
  each (s.units.var.exchanges.filter fun x => x.eng = e && x.group = g) fun x => endExchange x .genStale 0
  changeFab fun u => { u with
    staged := u.staged.filter fun x => !(x.1 = e && x.2.frame.group = g)
    refused := u.refused.filter fun r => !(r.1 = e && r.2.1 = g) }

/-- Frames of the group in the hold store are looked at again after a change: one that is still of a newer generation
stays where it is (R260, R261). -/
def releaseHeld (e g : Nat) : Act s₀ Unit := do
  let s ← now
  let goes (h : Nat × Arrived) : Bool := h.1 = e && h.2.frame.group = g && s.genCheck h.2.frame ≠ .newer e
  changeFab fun u => { u with held := u.held.filter fun h => !goes h }
  each (s.units.fab.held.filter goes) fun h => acceptGroupFrame h.2

/-! ### Installing (R259) -/

/-- What comes of a record against the slot of its group. -/
inductive Installed where
  | fresh | same | stale
  deriving DecidableEq, Repr

/-- The table of R259 for a slot that holds the group. -/
def State.compareGen (s : State) (e k gen : Nat) (ids : List Nat) : Installed :=
  let d := sdiff gen (s.genOf e k) 16
  if 0 < d then .fresh else if d = 0 ∧ s.membersOf e k = ids then .same else .stale

/-- Write a group's record into a slot. -/
def writeGroup (e k a g gen vl seq : Nat) (ids : List Nat) : Act s₀ Unit := do
  let me ← ask State.moduleId
  setF COLL_GROUP_ID_VALID 1 e k
  setF COLL_GROUP_ID_ATELIER a e k
  setF COLL_GROUP_ID_VL vl e k
  setF COLL_GROUP_ID_GROUP g e k
  setF COLL_GROUP_ID_GEN gen e k
  setF COLL_GROUP_ID_SEQ seq e k
  setF COLL_GROUP_SIZE_COUNT ids.length e k
  setF COLL_GROUP_SIZE_RANK (ids.findIdx fun m => m = me) e k
  changeFab fun u => { u with members := mapSet (fun _ => []) u.members (64 * e + k) ids }

/-- Install a newer record in the slot that holds the group. -/
def installNewer (e k a g gen vl seq : Nat) (ids : List Nat) : Act s₀ Unit := do
  writeGroup e k a g gen vl seq ids
  changeGeneration e g
  releaseHeld e g

/-- Install a group for an atelier as LOCAL does (R257, R259): the status. -/
def installLocal (e a g gen vl seq : Nat) (ids : List Nat) : Act s₀ (Status × Nat) := do
  let s ← now
  match s.groupSlot e g with
  | some k =>
    match s.compareGen e k gen ids with
    | .fresh => do
      installNewer e k a g gen vl seq ids
      pure (.ok, 0)
    | .same => pure (.ok, 0)
    | .stale => pure (.genStale, 0)
  | none =>
    match firstBelow 64 fun k => !s.on COLL_GROUP_ID_VALID e k with
    | some k => do
      writeGroup e k a g gen vl seq ids
      pure (.ok, 0)
    | none => pure (.accessDenied, 3)

/-- Free the slot of a group (R259, R261). -/
def removeGroup (e g : Nat) : Act s₀ Unit := do
  match (← now).groupSlot e g with
  | none => pure ()
  | some k =>
    emit (.reg (COLL_GROUP_ID_VALID.addr e k) 0)
    emit (.reg (COLL_GROUP_SIZE_COUNT.addr e k) 0)
    changeFab fun u => { u with
      members := mapSet (fun _ => []) u.members (64 * e + k) []
      held := u.held.filter fun h => !(h.1 = e && h.2.frame.group = g) }
    changeGeneration e g

/-! ### GROUP_SET (R258, R259) -/

/-- Bytes `lo` to `lo + n − 1` of memory as a number, read granule by granule. -/
def readSpan (lo n : Nat) : Prep s₀ Nat := do
  if n = 0 then pure 0
  else
    let first := lo / 64
    let count := (lo + n - 1) / 64 - first + 1
    let mut v : Nat := 0
    let mut bad := false
    for k in List.range count do
      let (d, e) ← OptionT.lift (readFrom (first + k))
      if e ≠ .ok then
        OptionT.lift (arises e.status.1 e.status.2)
        bad := true
      v := v + d.toNat * 2 ^ (512 * k)
    if bad then failure else pure (v / 2 ^ (8 * (lo % 64)) % 2 ^ (8 * n))

/-- The check of an access, whose failure leaves nothing to read (R192). -/
def permitRead (ok : Bool) : Prep s₀ Unit := if ok then pure () else failWith .accessDenied 3

/-- Read a span of the descriptor's atelier. -/
def readOwned (lo n : Nat) : Prep s₀ Nat := do
  let io ← OptionT.lift get
  let s ← OptionT.lift (doing now)
  permitRead (s.allowed io.atelier lo (lo + n - 1))
  readSpan lo n

/-- The IDs of a list of 2 B each. -/
def idsOf (v n : Nat) : List Nat := (List.range n).map fun k => v / 2 ^ (16 * k) % 2 ^ 16

/-- Strictly ascending. -/
def ascending : List Nat → Bool
  | a :: b :: rest => a < b && ascending (b :: rest)
  | _ => true

/-- The body of GROUP_SET and its list (R257, R258). -/
def prepGroupSet (e : Nat) (w : Descriptor) : Prep s₀ (List Nat) := do
  let g := body w 1 47 36
  let n := body w 1 35 23
  let mode := body w 1 22 21
  let vl := body w 1 20 16
  demand (body w 0 63 48 = 0 && zeroFrom w 2 && g ≠ 0 && mode ≠ 3 && 1 ≤ n && n ≤ 4096 && 1 ≤ vl && vl ≤ 16)
  let s ← OptionT.lift (doing now)
  let io ← OptionT.lift get
  permit (s.groupSlot (1 - e) g).isNone
  match s.groupSlot e g with
  | some k => permit (s.fld COLL_GROUP_ID_ATELIER e k = io.atelier)
  | none => pure ()
  permit (mode = 2 || s.laneOwner vl = some io.atelier)
  let list ← readOwned (body w 0 47 0) (2 * n)
  let ids := idsOf list n
  demand (ascending ids && !ids.contains 0xffff && (mode = 2 || ids.contains s.moduleId))
  pure [list]

/-- The MEMBERSHIP frames of a record to one member: up to 2,048 IDs in each (R250, R259). -/
def memberFrames (id a me dst g gen seq : Nat) (ids : List Nat) : List Sending :=
  (List.range ((ids.length + 2047) / 2048)).map fun k =>
    let piece := (ids.drop (2048 * k)).take 2048
    ⟨id, some a, dst, 0, mkFrame dst me kindMembership 0 gen k g none (ids.length * 2 ^ 48 + seq * 2 ^ 32) (packRun 16 piece)⟩

/-- GROUP_SET in one of its modes, issued on a collective engine (R259). -/
def actGroupSet (mode id : Nat) : Act s₀ Unit := do
  let s ← now
  match s.slot id with
  | none => pure ()
  | some d =>
    match d.on.bind engNo with
    | none => pure ()
    | some e =>
      let w := d.words
      if d.phase = .issued ∧ opcodeOf w = 0x47 ∧ body w 1 22 21 = mode then
        let g := body w 1 47 36
        let gen := body w 1 63 48
        let seq := body w 1 15 0
        let ids := idsOf (d.recs.getD 0 0) (body w 1 35 23)
        if mode = 2 then removeGroup e g
        else
          let (st, detail) ← installLocal e d.atelier g gen (body w 1 20 16) seq ids
          withSlot id fun x => { x with arose := Arose.put x.arose st detail }
          if mode = 1 ∧ st = .ok then
            postFrames id ((ids.filter fun m => m ≠ s.moduleId).flatMap fun m =>
              memberFrames id d.atelier s.moduleId m g gen seq ids)
        finish id

/-- GROUP_SET LOCAL. -/
def execGroupSetLocal (id : Nat) (s : State) : Host.Outcome State Fault Refusal := .next (perform s (actGroupSet 0 id))
/-- GROUP_SET DISTRIBUTE. -/
def execGroupSetDistribute (id : Nat) (s : State) : Host.Outcome State Fault Refusal := .next (perform s (actGroupSet 1 id))
/-- GROUP_SET REMOVE. -/
def execGroupSetRemove (id : Nat) (s : State) : Host.Outcome State Fault Refusal := .next (perform s (actGroupSet 2 id))

/-! ### MEMBERSHIP, ACK and NOTICE frames -/

/-- The pieces of a record, in order, once all are there. -/
def wholeList (count : Nat) (got : List (Nat × List Nat)) : Option (List Nat) :=
  let n := (count + 2047) / 2048
  let ps := (List.range n).map fun k => (got.find? fun x => x.1 = k).map Prod.snd
  if ps.all Option.isSome then some ((ps.map fun x => x.getD []).flatten.take count) else none

/-- A piece of a membership record (R259). -/
def takePiece (f : Frame) : Act s₀ Unit := do
  let s ← now
  match s.groupAt f.group with
  | none => sendAck f .accessDenied 3
  | some (e, k) =>
    let count := f.kw / 2 ^ 48 % 2 ^ 13
    let ids := idsOf (f.payload.zipIdx.foldl (fun a x => a + x.1.toNat * 2 ^ (512 * x.2)) 0)
      (min 2048 (count - 2048 * f.addr))
    let d := sdiff f.gen (s.genOf e k) 16
    if d < 0 then sendAck f .genStale (s.genOf e k)
    else if d = 0 then
      (if count = (s.membersOf e k).length ∧ ids = ((s.membersOf e k).drop (2048 * f.addr)).take 2048 then sendAck f .ok 0
       else sendAck f .genStale (s.genOf e k))
    else
      let here (p : Pieces) : Bool := p.src = f.src && p.group = f.group && p.gen = f.gen
      let got := (f.addr, ids) :: (((s.units.fab.pieces.find? here).map Pieces.got).getD []).filter fun x => x.1 ≠ f.addr
      sendAck f .ok 0
      match wholeList count got with
      | none => changeFab fun u => { u with pieces := ⟨f.src, f.group, f.gen, got⟩ :: u.pieces.filter fun p => !here p }
      | some list =>
        changeFab fun u => { u with pieces := u.pieces.filter fun p => !here p }
        installNewer e k (s.fld COLL_GROUP_ID_ATELIER e k) f.group f.gen (s.fld COLL_GROUP_ID_VL e k)
          (f.kw / 2 ^ 32 % 2 ^ 16) list

/-- MEMBERSHIP_FRAME_RECEIVE (R259). -/
def actMembershipFrameReceive (p : Option Nat) : Act s₀ Unit := do
  match ← takeArrived p [kindMembership] with
  | some a => takePiece a.frame
  | none => pure ()

/-- MEMBERSHIP_FRAME_RECEIVE. -/
def execMembershipFrameReceive (p : Option PortNo) (s : State) : Host.Outcome State Fault Refusal :=
  .next (perform s (actMembershipFrameReceive (p.map Fin.val)))

/-- A frame that this module sent is answered (R253); ACCESS_DENIED for a collective's frame ends the collective on both
sides (R264) (DEDUCED, log entry 41). -/
def takeAnswer (f : Frame) : Act s₀ Unit := do
  let s ← now
  match s.units.fab.flights.find? fun x => x.tag = f.tag with
  | none => pure ()
  | some fl =>
    let st := Status.ofCode (f.kw % 256)
    answer fl st (f.kw / 256 % 2 ^ 24)
    match s.coll fl.sending.slot with
    | some c => if st = .accessDenied then endColl c .accessDenied 3 (some .accessDenied)
    | none => pure ()

/-- ACK_RECEIVE (R253). -/
def actAckReceive (p : Option Nat) : Act s₀ Unit := do
  match ← takeArrived p [kindAck] with
  | some a => takeAnswer a.frame
  | none => pure ()

/-- ACK_RECEIVE. -/
def execAckReceive (p : Option PortNo) (s : State) : Host.Outcome State Fault Refusal :=
  .next (perform s (actAckReceive (p.map Fin.val)))

/-- NOTICE_RECEIVE (R252, R255, R260). -/
def actNoticeReceive (p : Option Nat) : Act s₀ Unit := do
  match ← takeArrived p [kindNotice] with
  | some a => takeAnswer a.frame
  | none => pure ()

/-- NOTICE_RECEIVE. -/
def execNoticeReceive (p : Option PortNo) (s : State) : Host.Outcome State Fault Refusal :=
  .next (perform s (actNoticeReceive (p.map Fin.val)))

/-- ACK_TIMEOUT (R253): no answer to the frame of a tag. -/
def actAckTimeout (tag : Nat) : Act s₀ Unit := do
  match (← now).units.fab.flights.find? fun x => x.tag = tag with
  | none => pure ()
  | some fl => answer fl .frameTimeout (timeoutDetail fl.sending.frame.dst 2)

/-- ACK_TIMEOUT. -/
def execAckTimeout (tag : BitVec 32) (s : State) : Host.Outcome State Fault Refusal :=
  .next (perform s (actAckTimeout tag.toNat))

/-- GEN_HOLD_EXPIRE (R260): the frame held longest by an engine becomes stale. -/
def actGenHoldExpire (e : Nat) : Act s₀ Unit := do
  let s ← now
  match extractFirst (fun h : Nat × Arrived => h.1 = e) s.units.fab.held with
  | (none, _) => pure ()
  | (some h, rest) =>
    changeFab fun u => { u with held := rest }
    match s.groupSlot e h.2.frame.group with
    | some k => dropStale e (s.genOf e k) h.2.frame
    | none => pure ()

/-- GEN_HOLD_EXPIRE. -/
def execGenHoldExpire (e : EngNo) (s : State) : Host.Outcome State Fault Refusal := .next (perform s (actGenHoldExpire e))

/-- SILENT_THRESHOLD (R262): a collective or an exchange in progress waits on a member. -/
def actSilentThreshold (e id member : Nat) : Act s₀ Unit := do
  let s ← now
  match s.coll id with
  | none => pure ()
  | some c =>
    if c.eng = e ∧ c.members.contains member ∧ member ≠ s.moduleId ∧ s.fld COLL_SILENT_THRESH_TICKS e ≠ 0 then
      logFirst COLL_SILENT_LOG_VALID COLL_SILENT_LOG_OVERRUN e do
        setF COLL_SILENT_LOG_GROUP c.group e
        setF COLL_SILENT_LOG_MODULE member e
      riskBump RISK_BUMP_B_SILENT

/-- SILENT_THRESHOLD. -/
def execSilentThreshold (e : EngNo) (id : Nat) (member : BitVec 16) (s : State) : Host.Outcome State Fault Refusal :=
  .next (perform s (actSilentThreshold e id member.toNat))

end Sys2Proof.Machine
end

