-- ==== Sys2Proof/Machine/Current.lean ====
section
/-! DEFINITION. Throttles, and the currents that the governor predicts and admits: who draws current, the limit that the
load-step notice puts on a rise, and how the start of an engine keeps to it (R375, R376, R379). -/

namespace Sys2Proof.Machine

variable {s₀ : State}

/-- Change the plant interface's own state. -/
def changePlant (f : PlantUnit → PlantUnit) : Act s₀ Unit := change fun u => { u with plant := f u.plant }

/-! ### Throttles (R376) -/

/-- The throttle of tile `t` (DESIGN CHOICE, log entry 6). -/
def State.theta (s : State) (t : Nat) : Nat := mapGet (fun _ => 64) s.units.plant.thetas t

/-- The tick lies in the part of tile `t`'s window in which its array and vector engine stand still. -/
def State.throttled (s : State) (t : Nat) : Bool := s.theta t ≤ (s.replica t + t) % 64

/-- An engine of tile `t` advances, unless its throttle holds it in this tick, or it finds no transaction tag (R202). -/
def advancing (t : Nat) (e : Engine) (a : Act s₀ Unit) : Act s₀ Unit := do
  let s ← now
  if s.throttled t then pure ()
  else match s.working e with
    | some d => tagged d a
    | none => a

/-- Set the throttles of tiles to at most `k`, or to no more than they are. -/
def PlantUnit.lowered (p : PlantUnit) (ts : List Nat) (k : Nat) : PlantUnit :=
  { p with thetas := ts.foldl (fun m t => mapSet (fun _ => 64) m t (min k (mapGet (fun _ => 64) m t))) p.thetas }

/-! ### Currents (R375) -/

/-- The core rail of tile `t`: that of its die (R7). -/
def railOf (t : Nat) : Nat := t % 8 / 4 + 2 * (t / 32)

/-- The tiles of a rail. -/
def railTiles (r : Nat) : List Nat := (List.range 64).filter fun t => railOf t = r

/-- An engine is busy with a descriptor that has launched. -/
def State.runs (s : State) (e : Engine) : Bool :=
  s.slots.any fun d => d.on = some e && (d.phase = .issued || d.phase = .done) && !d.unlaunched

/-- The array of tile `t` computes. -/
def State.mxRuns (s : State) (t : TileNo) : Bool := s.runs (.mx t .whole) || s.runs (.mx t .left) || s.runs (.mx t .right)

/-- A stamped product waits for its launch on tile `t`. -/
def State.awaitsLaunch (s : State) (t : Nat) : Bool :=
  s.slots.any fun d => d.target = t && opcodeOf d.words = 0x20 && d.unlaunched

/-- The predicted current of tile `t`'s engines, in units of 1/8 A. An array whose ballast has made way for a stamped product
counts as in ballast until the launch (R378). -/
def State.tileCurrent (s : State) (t : Nat) : Nat :=
  let n : TileNo := Fin.ofNat 64 t
  let p := s.units.plant
  (if s.mxRuns n then s.fld PLANT_IEST_MX
   else if p.ballast.contains t || (p.standing.contains t && s.awaitsLaunch t) then s.fld PLANT_IEST_BAL else 0)
    + if s.runs (.ve n) then s.fld PLANT_IEST_VE else 0

/-- The increase that a raise of the rail's operating point in progress brings, in units of 1/8 A (R359) (DESIGN CHOICE, log
entry 88). -/
def State.raising (s : State) (r : Nat) : Nat := mapGet (fun _ => 0) s.units.plant.raises r

/-- The predicted current of a rail, in units of 1/8 A. -/
def State.predicted (s : State) (r : Nat) : Nat := (railTiles r).foldl (fun a t => a + s.tileCurrent t) 0 + s.raising r

/-- The admitted current of a rail: each tile's by its throttle, in units of 1/512 A (R379). A raise counts by the least
throttled tile (DESIGN CHOICE, log entry 88). -/
def State.admittedCurrent (s : State) (r : Nat) : Nat :=
  (railTiles r).foldl (fun a t => a + s.tileCurrent t * s.theta t) 0
    + s.raising r * (railTiles r).foldl (fun a t => max a (s.theta t)) 0

/-! ### Rises (R379) -/

/-- STEP_A, in units of 1/512 A; above 150 A it acts as 150. -/
def State.stepCurrent (s : State) : Nat := 512 * min 150 (s.fld PLANT_LSN_STEP_A)

/-- FALLBACK, in units of 1/512 A per µs: above 15 A it acts as 15, and 0 as 1. -/
def State.fallback (s : State) : Nat := 512 * max 1 (min 15 (s.fld PLANT_LSN_FALLBACK))

/-- The lowest admitted current of a rail in the preceding 10 µs, of the governor's updates in them; 0 before the first. -/
def State.lowest (s : State) (r : Nat) : Nat :=
  match s.units.plant.history.map fun h => h.getD r 0 with
  | [] => 0
  | x :: xs => xs.foldl min x

/-- What the rail draws, unthrottled, would be a rise, and no notice covers it. -/
def State.uncovered (s : State) (r : Nat) : Bool :=
  !s.units.plant.covered && decide (s.lowest r + s.stepCurrent < 64 * s.predicted r)

/-- The most that the rail's admitted current may be until the next update: where a rise is uncovered it climbs by FALLBACK. -/
def State.railLimit (s : State) (r : Nat) : Option Nat :=
  if s.uncovered r then some ((s.units.plant.history.headD []).getD r 0 + s.fallback) else none

/-- The admitted current of a rail is within its limit. -/
def State.fits (s : State) (r : Nat) : Bool := (s.railLimit r).all fun l => s.admittedCurrent r ≤ l

/-- Tiles `ts` of rail `r` start throttled where they would make an uncovered rise: their throttle is the highest that keeps
the rail within its limit, and at least 1 (R376, R379). -/
def fitTiles (r : Nat) (ts : List Nat) : Act s₀ Unit := do
  let s ← now
  if s.fits r then pure ()
  else
    let with' (k : Nat) : State := { s with units := { s.units with plant := s.units.plant.lowered ts k } }
    let k := (((List.range 63).map (63 - ·)).find? fun k => (with' k).fits r).getD 1
    changePlant fun p => p.lowered ts k

/-- An engine starts: its tile keeps to its rail's limit. -/
def fitEngine (e : Engine) : Act s₀ Unit :=
  match e with
  | .mx t _ | .ve t => fitTiles (railOf t) [t.val]
  | _ => pure ()

end Sys2Proof.Machine
end

