-- ==== Sys2Proof/Machine/PaletteOps.lean ====
section
/-! DEFINITION. The palette's commands: accepting and committing transfers, request sets, write-backs, the patrol
scrub, counter and injection registers, PAL_FILL and PAL_COPY (R61 to R84). -/

namespace Sys2Proof.Machine

variable {s₀ : State}

/-- The transfer goes to a granule of a palette and carries no bit that it does not name (DESIGN CHOICE, log entry 10).
-/
def transferWf (x : Transfer) : Bool :=
  x.addr.toNat % 64 = 0 && x.data &&& ~~~ x.bits = 0 &&
  match place x.addr.toNat with
  | .palette _ _ => true
  | _ => false

/-- GRANULE_ACCEPT. -/
def execGranuleAccept (x : Transfer) (s : State) : Host.Outcome State Fault Refusal :=
  if transferWf x then .next (perform s (actGranuleAccept x)) else .fault (.illFormed "GRANULE_ACCEPT")

/-- The access is an accepted transfer of a source to tile `t`. -/
def Banked.isFrom (t : Nat) (src : Source) (b : Banked) : Bool := b.tile = t && b.ofSource (some src)

/-- The oldest accepted transfer of a source commits, after the reads of its granule that the palette accepted before it
(R32, R67 to R69) (DEDUCED, log entry 72). -/
def actGranuleCommit (t : Nat) (src : Source) : Act s₀ Unit := do
  match (← now).units.pal.banks.find? (Banked.isFrom t src) with
  | some b => serveInTurn b
  | none => pure ()

/-- GRANULE_COMMIT. -/
def execGranuleCommit (t : TileNo) (src : Source) (s : State) : Host.Outcome State Fault Refusal :=
  .next (perform s (actGranuleCommit t src))

/-- New bit errors appear in stored granules (R77). A read of another row shows as an uncorrectable error of check bits,
with the data as they are stored (DEDUCED, log entry 18). -/
def strike (us : List Upset) : Act s₀ Unit :=
  each us fun u => do
    let g := granuleOf u.addr.toNat
    emit (.upset g (((← now).errors g ^^^ u.mask) ||| if u.wrongRow then 3 <<< 64 else 0))

/-- Every granule that the operands name is one of tile `t`'s palette. -/
def inPalette (t : Nat) (a : Addr) : Bool :=
  a.toNat % 64 = 0 && match place a.toNat with
  | .palette k _ => k == t
  | _ => false

/-- The place of a requester in the fixed priority (R64). -/
def requesterRank : Requester → Nat
  | .matrix => 1
  | .vector => 2
  | .sfu => 3
  | .remote => 4
  | .localDma => 5
  | .host => 6
  | .writeBack => 7
  | .scrub => 8

/-- The banks of its palette that a read request set takes (R59). -/
def PalWait.banks (w : PalWait) : List Nat := (palIndices w.tile w.granules).map palBank

/-- The read set is served before `w`, both wanting a bank: by its rank, or in the order of acceptance (R62, R64). -/
def PalWait.aheadOf (v w : PalWait) : Bool :=
  v.tile = w.tile && ((v.req = w.req && v.sender = w.sender)
    || (requesterRank v.req ≤ requesterRank w.req && v.banks.any fun b => w.banks.contains b))

/-- Read sets in the order of their ranks; those of one rank in the order of acceptance (R64). -/
def byRank (ws : List PalWait) : List PalWait := (List.range 9).flatMap fun k => ws.filter fun w => requesterRank w.req = k

/-- The banks that a read set wants come free: those ahead of it are served, and then it (R64) (DEDUCED, log entry 23). -/
def serveRead (w : PalWait) : Act s₀ Unit := do
  let ws ← ask fun s => s.units.pal.waits
  each (byRank ((ws.takeWhile (· ≠ w)).filter fun v => v.aheadOf w)) fun v => serveInTurn (.read v)
  serveInTurn (.read w)

/-- Every accepted read set is served: with nothing else commanded, every bank is free (R64) (DEDUCED, log entry 23). -/
def serveReads : Act s₀ Unit := do
  let ws ← ask fun s => s.units.pal.waits
  each (byRank ws) fun w => serveInTurn (.read w)

/-- The accepted set that a presented one has become. -/
def State.admitted (s : State) (w : PalWait) : PalWait :=
  { w with granules := w.granules.filter fun g => s.meets ((requesterUnit w.req).map fun _ => w.tile) g = .ok }

/-- A request set reaches the banks (R62): a stream whose granule stride is +1 or −1 is cut at lines. It is served where
`busy` does not say that its banks are taken (DEDUCED, log entry 23). -/
def actPaletteRequestSet (t : TileNo) (req : Requester) (sender : Option Nat) (addrs : List Addr) (upsets : List Upset)
    (busy : Bool) : Act s₀ Unit := do
  strike upsets
  each (readSets (addrs.map fun a => granuleOf a.toNat)) fun gs => do
    let w : PalWait := ⟨t, req, sender, gs⟩
    let v ← ask fun s => s.admitted w
    presentAccess (.read w)
    if !busy then serveRead v

/-- PALETTE_REQUEST_SET: at most 512 granules of one palette (R62). -/
def execPaletteRequestSet (t : TileNo) (req : Requester) (sender : Option Nat) (addrs : List Addr) (upsets : List Upset)
    (busy : Bool) (s : State) : Host.Outcome State Fault Refusal :=
  if addrs.length ≤ 512 ∧ addrs ≠ [] ∧ addrs.all (inPalette t) ∧ upsets.all (fun u => inPalette t u.addr) then
    .next (perform s (actPaletteRequestSet t req sender addrs upsets busy))
  else .fault (.illFormed "PALETTE_REQUEST_SET")

/-- The oldest write-back that a tile owes is done (R79) (DEDUCED, log entry 19). -/
def actEccWriteBack (t : Nat) : Act s₀ Unit :=
  serveFirst fun b => match b with
    | .back k _ => k = t
    | _ => false

/-- ECC_WRITE_BACK. -/
def execEccWriteBack (t : TileNo) (s : State) : Host.Outcome State Fault Refusal := .next (perform s (actEccWriteBack t))

/-- The oldest access that a tile's banks have accepted, a read, a transfer or a write-back, has waited 64 beats: it is
served ahead of all priorities (R64) (DEDUCED, log entry 23). -/
def actRequestAged (t : Nat) : Act s₀ Unit := do
  match (← now).units.pal.banks.find? fun b => b.tile = t with
  | none => pure ()
  | some b =>
    tally t evPalAged [6] b.granules.length
    serveFirst fun b => b.tile = t

/-- REQUEST_AGED. -/
def execRequestAged (t : TileNo) (s : State) : Host.Outcome State Fault Refusal := .next (perform s (actRequestAged t))

/-! ### Patrol scrub (R78) -/

/-- The scrub of a tile. -/
def State.scrub (s : State) (t : Nat) : Scrub := mapGet (fun _ => {}) s.units.pal.scrubs t

/-- Set the scrub of a tile. -/
def setScrub (t : Nat) (x : Scrub) : Act s₀ Unit := do
  changePal fun p => { p with scrubs := mapSet (fun _ => {}) p.scrubs t x }
  setF PAL_STATUS_SCRUB_ACTIVE (if x.pending then 1 else 0) t

/-- A scrub read of one granule (R79): no descriptor is affected. -/
def scrubGranule (t g : Nat) : Act s₀ Unit := do
  let s ← now
  let m := s.errors g
  if s.poisoned g ∨ m = 0 then pure ()
  else if uncorrectable m then palUncorrectable t g
  else
    palCorrected {} t g m
    oweWriteBack t g

/-- The gate before the scrub's next line is OPEN. -/
def State.scrubOpen (s : State) (t : Nat) : Bool := s.gateOpen t ((s.scrub t).line * 0x8000)

/-- The scrub goes on to its next line. -/
def nextScrub (t : Nat) : Act s₀ Unit := do
  let l := (← now).scrub t |>.line
  setScrub t { line := (l + 1) % 1536, pending := false }

/-- The scrub reads its line, behind what the banks have accepted of it, and goes on to the next (R32, R78, R390) (DEDUCED,
log entry 25). -/
def scrubLine (t : Nat) : Act s₀ Unit := do
  let l := (← now).scrub t |>.line
  let gs := (List.range 512).map fun k => palFirst t + 512 * l + k
  settleBanks t fun bs => bs.any fun b => b.tile = t && gs.any b.writes
  each gs (scrubGranule t)
  tally t evPalRead [6] 512
  nextScrub t

/-- The scrub's next line falls due: it is read where its banks are idle, waits where not, and is skipped where its gate is
not OPEN (R78) (DEDUCED, log entry 25). -/
def actPatrolScrub (t : Nat) (upsets : List Upset) (idle : Bool) : Act s₀ Unit := do
  strike upsets
  if ← isOn PAL_CTL_SCRUB_EN t then
    if !(← now).scrubOpen t then nextScrub t
    else if idle then scrubLine t
    else setScrub t { line := ((← now).scrub t).line, pending := true }

/-- PATROL_SCRUB. -/
def execPatrolScrub (t : TileNo) (upsets : List Upset) (idle : Bool) (s : State) : Host.Outcome State Fault Refusal :=
  if upsets.all fun u => inPalette t u.addr then .next (perform s (actPatrolScrub t upsets idle))
  else .fault (.illFormed "PATROL_SCRUB")

/-- A gate has closed before the line that waits: its scrub is skipped (R78) (DEDUCED, log entry 25). -/
def skipScrub (t : Nat) : Act s₀ Unit := do
  let s ← now
  if (s.scrub t).pending && !s.scrubOpen t then nextScrub t

/-- A line that found no idle beat within 1,024 ticks takes its banks, also where SCRUB_EN has been cleared since (R78)
(DEDUCED, log entry 25; DESIGN CHOICE, log entry 80). -/
def actScrubPriorityRaise (t : Nat) (upsets : List Upset) : Act s₀ Unit := do
  strike upsets
  if (← ask fun s => (s.scrub t).pending && s.scrubOpen t) then scrubLine t

/-- SCRUB_PRIORITY_RAISE. -/
def execScrubPriorityRaise (t : TileNo) (upsets : List Upset) (s : State) : Host.Outcome State Fault Refusal :=
  if upsets.all fun u => inPalette t u.addr then .next (perform s (actScrubPriorityRaise t upsets))
  else .fault (.illFormed "SCRUB_PRIORITY_RAISE")

/-! ### Registers with an effect -/

/-- A write of PAL.AC[n] sets the counter and can satisfy waits (R72). -/
def hookAc (w : RegWrite) : Act s₀ Unit := do
  plainHook w
  settleWaits

/-- PAL_AC_WRITE. -/
def execPalAcWrite (port : HostNo) (t : TileNo) (n : CtrNo) (v : Word) (s : State) : Host.Outcome State Fault Refusal :=
  .next (perform s (checkedWrite port (PAL_AC_VALUE.addr t n) v hookAc))

/-- A write of PAL.AC_ADD adds ADDEND to AC[INDEX] (R72). -/
def hookAcAdd (w : RegWrite) : Act s₀ Unit := do
  plainHook w
  if w.may ≠ 0 then acAdd w.inst (w.field PAL_AC_ADD_INDEX) (w.field PAL_AC_ADD_ADDEND)

/-- PAL_AC_ADD. -/
def execPalAcAdd (port : HostNo) (t : TileNo) (v : Word) (s : State) : Host.Outcome State Fault Refusal :=
  .next (perform s (checkedWrite port (PAL_AC_ADD_INDEX.addr t 0) v hookAcAdd))

/-- A register whose W1S bits stay set until hardware clears them. -/
def hookSets (w : RegWrite) : Act s₀ Unit := emit (.reg w.addr (w.new ||| w.sets))

/-- PAL_INJECT_ARM (R84). -/
def execPalInjectArm (port : HostNo) (t : TileNo) (v : Word) (s : State) : Host.Outcome State Fault Refusal :=
  .next (perform s (checkedWrite port (PAL_INJECT_ARM.addr t 0) v hookSets))

/-! ### Copy-unit commands -/

/-- PAL_FILL. -/
def execPalFill (t : TileNo) (s : State) : Host.Outcome State Fault Refusal :=
  .next (perform s (wholeRun (.copy t) [0x10] (palFillWork t)))

/-- PAL_COPY. -/
def execPalCopy (t : TileNo) (s : State) : Host.Outcome State Fault Refusal :=
  .next (perform s (wholeRun (.copy t) [0x11] (palCopyWork t)))

/-- TENSOR_COPY. -/
def execTensorCopy (t : TileNo) (s : State) : Host.Outcome State Fault Refusal :=
  .next (perform s (wholeRun (.copy t) [0x18] (tensorCopyWork t)))

/-- TENSOR_GATHER. -/
def execTensorGather (t : TileNo) (s : State) : Host.Outcome State Fault Refusal :=
  .next (perform s (wholeRun (.copy t) [0x19] (tensorIndexedWork false t)))

/-- TENSOR_SCATTER. -/
def execTensorScatter (t : TileNo) (s : State) : Host.Outcome State Fault Refusal :=
  .next (perform s (wholeRun (.copy t) [0x1A] (tensorIndexedWork true t)))

end Sys2Proof.Machine
end

