-- ==== Sys2Proof/Machine/Matrix.lean ====
section
/-! DEFINITION. The matrix array: MX_PRODUCT, its feeds and passes, parking, releasing and splitting (R57, R105 to
R129). -/

namespace Sys2Proof.Machine

variable {s₀ : State}

/-! ### The body (R106 to R110, R122, R125) -/

/-- The FP8 class of R106. -/
def fp8Class (t : ElemType) : Bool := t = .e4m3 || t = .e5m2 || t = .mxE4m3 || t = .mxE5m2

/-- The packing factor of an operand pair; none for a pair that R106 does not list. -/
def packOf (a w : ElemType) : Option Nat :=
  if (a = .bf16 ∧ w = .bf16) ∨ (a = .fp16 ∧ w = .fp16) then some 1
  else if fp8Class a && fp8Class w then some 2
  else if a = .mxFp4 ∧ w = .mxFp4 then some 4
  else none

/-- Fields of an MX_PRODUCT body. -/
def mxTree (w : Descriptor) : Bool := body w 4 57 57 = 1
def mxTrans (w : Descriptor) : Bool := body w 4 56 56 = 1
def mxLoop (w : Descriptor) : Bool := body w 4 55 55 = 1
def mxPaced (w : Descriptor) : Bool := body w 5 15 15 = 1

/-- The reduction and output extents K and N of W (R109). -/
def mxK (w : Descriptor) (tw : Tensor) : Nat := tw.extent (if mxTrans w then 1 else 0)
def mxN (w : Descriptor) (tw : Tensor) : Nat := tw.extent (if mxTrans w then 0 else 1)

/-- The half of tile `t` is parked (R126). -/
def State.parked (s : State) (t : Nat) (right : Bool) : Bool := s.on (if right then MX_STATUS_PARKED_R else MX_STATUS_PARKED_L) t

/-- The half of a product is the right one. -/
def isRight (h : Half) : Bool := h = .right

/-- An operand of tile `t`'s palette, or in split-array mode of the atelier's part of it (R110); one that touches no byte
is where its BASE is (DESIGN CHOICE, log entry 76). -/
def mxLocal (s : State) (t a : Nat) (x : Tensor) (write : Bool) : Bool :=
  let inTile (b : Nat) : Bool := match place b with
    | .palette k _ => k == t
    | _ => false
  match x.interval write with
  | some (lo, hi) => inTile lo && inTile hi && (!s.on MX_STATUS_SPLIT_ACTIVE t || s.allowed a lo hi)
  | none => inTile (x.home write)

/-- The half that a body names may run now (R122, R125, R346). -/
def mxHalfAllowed (s : State) (t a : Nat) (w : Descriptor) : Bool :=
  let split := s.on MX_STATUS_SPLIT_ACTIVE t
  let h := halfOf w
  (!mxTree w || (s.on MX_CTL_TREE_EN t && h = .whole && !split)) && (split = (h ≠ .whole : Bool)) &&
  (match s.rightOf t with
   | some r => if h = .right then a == r else s.tileOwner t == some a
   | none => true)

/-- The half that a body names, of the array as it is split now, is parked (R126) (DEDUCED, log entry 32). -/
def State.halfParked (s : State) (t : Nat) (h : Half) : Bool :=
  s.on MX_STATUS_SPLIT_ACTIVE t = (h ≠ .whole : Bool) && s.parked t (isRight h)

/-- Body, records and access of MX_PRODUCT: the records of A, W, C and, where it is named, CIN (DEDUCED, log entry 32).
-/
def prepMx (t : Nat) (w : Descriptor) : Prep s₀ (List Nat) := do
  let s ← OptionT.lift (doing now)
  let io ← OptionT.lift get
  if s.halfParked t (halfOf w) then failWith .parked 0
  demand (body w 4 63 60 = 0 && body w 4 59 58 ≠ 3 && body w 4 54 35 = 0 && body w 4 23 16 = 0 && body w 4 14 10 = 0
    && body w 5 14 10 = 0 && body w 4 33 32 ≠ 3)
  demand (!mxPaced w || body w 5 31 16 ≠ 0)
  permit (mxHalfAllowed s t io.atelier w)
  let refs := [body w 0 63 0, body w 1 63 0, body w 2 63 0] ++ (if body w 3 63 0 = 0 then [] else [body w 3 63 0])
  match ← readTensors refs with
  | (ra, a) :: (rw, tw) :: (rc, c) :: ri =>
    let cin := ri.head?.map Prod.snd
    let p := (packOf a.type tw.type).getD 1
    demand (packOf a.type tw.type).isSome
    demand (2 ≤ a.rank && a.rank = c.rank && a.ext.drop 1 = c.ext.drop 1 && tw.rank = 2)
    demand (a.extent 0 = mxK w tw && c.extent 0 = mxN w tw)
    match cin with
    | none => pure ()
    | some x =>
      demand (x.rank = c.rank && x.ext = c.ext && x.lo = c.lo && x.hi = c.hi && x.type = .fp32)
      demand (!overlaps (x.interval false) (c.interval true) || (x.base = c.base && x.stride = c.stride && x.type = c.type))
      demand (mxLocal s t io.atelier x false)
    demand (mxLocal s t io.atelier a false && mxLocal s t io.atelier tw false && mxLocal s t io.atelier c true)
    demand (!overlaps (a.interval false) (c.interval true) && !overlaps (tw.interval false) (c.interval true))
    demand ([ElemType.fp32, .bf16, .fp16, .e4m3, .e5m2].contains c.type)
    demand (c.type = .fp32 || mxK w tw ≤ 256 * p)
    demand (c.type ≠ .fp32 || body w 4 33 32 ≠ 2)
    permitTensor a false
    permitTensor tw false
    (match cin with
     | some x => permitTensor x false
     | none => pure ())
    permitTensor c true
    permitCounter (paletteBase t) (acOf w 4)
    if mxPaced w then permitCounter (paletteBase t) (some (body w 5 9 0))
    pure ([ra, rw, rc] ++ ri.map Prod.fst)
  | _ => malformed

/-! ### What a product is -/

/-- A product's operands and shape, from its slot. -/
structure Product where
  slot : Slot
  tile : Nat
  a : Tensor
  w : Tensor
  c : Tensor
  cin : Option Tensor
  p : Nat
  k : Nat
  n : Nat
  /-- The outer loop indices of A and C in ascending m, each without dimension 0. -/
  outer : List (List Nat)
  width : Nat
  deriving DecidableEq, Repr

/-- The product of an issued MX_PRODUCT on a half. -/
def productOf (t : Nat) (h : Half) (d : Slot) : Product :=
  let a := d.tensor 0
  let w := d.tensor 1
  { slot := d, tile := t, a := a, w := w, c := d.tensor 2
    cin := if body d.words 3 63 0 = 0 then none else some (d.tensor 3)
    p := (packOf a.type w.type).getD 1
    k := mxK d.words w, n := mxN d.words w
    outer := (List.range ((a.ext.drop 1).foldl (· * ·) 1)).map (unravel (a.ext.drop 1))
    width := if h = .whole then 256 else 128 }

/-- Column blocks and passes of a product (R105, R111). -/
def Product.blocks (x : Product) : Nat := (x.n + x.width - 1) / x.width
def Product.depth (x : Product) : Nat := 256 * x.p
def Product.passes (x : Product) : Nat := (x.k + x.depth - 1) / x.depth
def Product.total (x : Product) : Nat := x.blocks * x.passes

/-- The column block and pass of the i-th pass executed (R111). -/
def Product.at (x : Product) (i : Nat) : Nat × Nat :=
  if mxLoop x.slot.words then (i % x.blocks, i / x.blocks) else (i / x.passes, i % x.passes)

/-- The output columns of a block and the reduction positions of a pass. -/
def Product.cols (x : Product) (b : Nat) : List Nat := (List.range (min x.width (x.n - b * x.width))).map (· + b * x.width)
def Product.ks (x : Product) (q : Nat) : List Nat := (List.range (min x.depth (x.k - q * x.depth))).map (· + q * x.depth)

/-- The loader reads the tile of the i-th pass: for each column its (code, scale) pairs in ascending k (R107, R116).
None where a read meets poison. -/
def loadTile (x : Product) (i : Nat) : Work s₀ (Option (List (List (Nat × Nat)))) := do
  let (b, q) := x.at i
  let mut cols : List (List (Nat × Nat)) := []
  for n in x.cols b do
    let mut col : List (Nat × Nat) := []
    for k in x.ks q do
      let v ← getRaw x.w (if mxTrans x.slot.words then [n, k, 0, 0, 0] else [k, n, 0, 0, 0])
      col := col ++ [v]
    cols := cols ++ [col]
  doing (tally x.tile evMxLoadRows [if x.width = 256 then 0 else if halfOf x.slot.words = .right then 1 else 0] 256
    { slot := some x.slot })
  pure (if (← get).stopped then none else some cols)

/-! ### Column sums (R57, R123) -/

/-- The flags that the array raises for its sums (R55). -/
def sumFlags (f : Flags) : Flags := f &&& (flagInvalid ||| flagOverflow)

/-- The exact sum of the products of one cell; none for no product. -/
def cellSum : List (Val × Val) → Option (Val × Flags)
  | [] => none
  | (a, w) :: rest =>
    let (v, f) := a.mul w
    match cellSum rest with
    | none => some (v, f)
    | some (r, g) => let t := v.add r; some (t.1, f ||| g ||| t.2)

/-- Cut a list into pieces of `p`, over at most `n` pieces. -/
def pieces {α : Type} (p : Nat) : Nat → List α → List (List α)
  | 0, _ => []
  | n + 1, xs => if xs.isEmpty then [] else xs.take p :: pieces p n (xs.drop p)

/-- c + s rounded to FP32 RNE (R57): the code and flags. -/
def addRound (c : Nat) (s : Val) : Nat × Flags :=
  let (v, f) := (fp32.decode c).add s
  let (r, g) := fp32.round .rne false v
  (r, f ||| g)

/-- The column sum of R57 over the groups of one pass. -/
def systolicSum (c0 : Nat) (groups : List (List (Val × Val))) : Nat × Flags :=
  groups.foldl (fun acc g =>
    match cellSum g with
    | none => acc
    | some (s, f) => let r := addRound acc.1 s; (r.1, acc.2 ||| f ||| r.2)) (c0, 0)

/-- Add pairs of FP32 values, rounding each. -/
def pairAdds : List Val → List (Val × Flags)
  | a :: b :: rest =>
    let (v, f) := a.add b
    let (r, g) := fp32.round .rne false v
    (fp32.decode r, f ||| g) :: pairAdds rest
  | _ => []

/-- The levels of the adder tree: `n` halvings. -/
def treeLevels : Nat → List Val → Flags → Val × Flags
  | 0, vs, f => (vs.headD (.fin false 0 0), f)
  | n + 1, vs, f =>
    let rs := pairAdds vs
    treeLevels n (rs.map Prod.fst) (rs.foldl (fun a r => a ||| r.2) f)

/-- The tree column of R123: 256 exact cell sums, padding summing to +0. -/
def treeSum (c0 : Nat) (groups : List (List (Val × Val))) : Nat × Flags :=
  let sums := (List.range 256).map fun i => (cellSum (groups.getD i [])).getD (.fin false 0 0, 0)
  let f0 := sums.foldl (fun a r => a ||| r.2) 0
  let (v, f) := treeLevels 8 (sums.map Prod.fst) f0
  let r := addRound c0 v
  (r.1, f ||| r.2)

/-- The FP32 code of c0 for output (n, m) in pass `q` of its block (R111, R120). Where the element is suppressed and lies
where the atelier has no memory, it is a free value (DESIGN CHOICE, log entry 81). -/
def columnStart (x : Product) (q : Nat) (j : List Nat) : Work s₀ Nat := do
  if q = 0 then
    match x.cin with
    | none => pure 0
    | some t => do
      let r ← getRaw t j
      pure r.1
  else do
    let b := x.c.bitAt (x.c.q j)
    let s ← doing now
    if x.c.inBox j ∨ (0 ≤ b ∧ s.allowed (← get).atelier (b / 8).toNat (b / 8 + 3).toNat) then do
      let r ← rawAt x.c (x.c.q j)
      pure r.1
    else do
      let i ← doing freeIndex
      pure ((Config.freeWord i).toNat % 2 ^ 32)

/-- The rounding of the output conversion of an element (R112). -/
def Product.rm (x : Product) (j : List Nat) : Rm :=
  let code := body x.slot.words 4 33 32
  if code = 2 then rmOf 2 (x.slot.draw x.tile (body x.slot.words 4 31 24) (x.c.canon j)) else rmOf code 0

/-- An element of vector `m` in column block `b` names the address of an element of a lower block that comes later in
canonical order, and so stands after it (R94, R111). -/
def Product.overtaken (x : Product) (b m : Nat) (j : List Nat) : Bool :=
  let s0 := x.c.stride.headD 0
  b ≠ 0 && (x.outer.drop (m + 1)).any fun tail =>
    let d := x.c.q j - x.c.q (0 :: tail)
    if s0 = 0 then d = 0 && x.c.lo.headD 0 < b * x.width && x.c.inBox (x.c.lo.headD 0 :: tail)
    else d % s0 = 0 && 0 ≤ d / s0 && (d / s0).toNat < b * x.width && x.c.inBox ((d / s0).toNat :: tail)

/-- Write one output element: FP32 as it is, another type converted in the final pass (R111, R112). One whose address a
later element has taken already leaves that one standing (R94) (DEDUCED, log entry 28). -/
def putSum (x : Product) (b m : Nat) (j : List Nat) (c : Nat) : Work s₀ Unit := do
  let (v, fl) := if x.c.type = .fp32 then (c, 0)
    else x.c.type.encode (x.rm j) (body x.slot.words 4 34 34 = 1) (.num (fp32.decode c))
  if x.c.inBox j then
    raiseFlags fl
    if x.overtaken b m j then
      let p := x.c.spotAt (x.c.q j)
      let s ← doing now
      putRaw x.c j ((s.granule (p.bit / 512)).toNat >>> (p.bit % 512))
    else putRaw x.c j v
  else putRaw x.c j v

/-- The counter of a pass's transfers: only a final pass counts (R112). -/
def Product.counter (x : Product) (q : Nat) : Option Nat := if q + 1 < x.passes then none else acOf x.slot.words 4

/-- The unit code of a product. -/
def Product.unit (x : Product) : Nat := if halfOf x.slot.words = .right then 1 else 0

/-- Vector `m` goes through the i-th pass and its output row is drained (R111 to R113). Nothing is written where its
reads meet poison (R119). -/
def feedVector (x : Product) (i m : Nat) (tile : List (List (Nat × Nat))) : Work s₀ Unit := do
  let (b, q) := x.at i
  let tail := x.outer.getD m []
  let mut av : List Val := []
  for k in x.ks q do
    let r ← getRaw x.a (k :: tail)
    av := av ++ [(x.a.type.decode r.2 r.1).val]
  let mut starts : List Nat := []
  for n in x.cols b do
    let c0 ← columnStart x q (n :: tail)
    starts := starts ++ [c0]
  if (← get).stopped then pure ()
  else
    for ((n, c0), col) in ((x.cols b).zip starts).zip tile do
      let ws := col.map fun r => (x.w.type.decode r.2 r.1).val
      let groups := pieces x.p 256 (av.zip ws)
      let (c, f) := if mxTree x.slot.words then treeSum c0 groups else systolicSum c0 groups
      raiseFlags (sumFlags f)
      putSum x b m (n :: tail) c
    commitStaged (x.counter q)
    if m = 0 then doing (tally x.tile evMxPasses [x.unit] 1 { slot := some x.slot })
    doing (tally x.tile evMxVectors [x.unit] 1 { slot := some x.slot, element := m })
    doing (tally x.tile evMxDepthUnused [x.unit] (256 - ((x.ks q).length + x.p - 1) / x.p)
      { slot := some x.slot, element := m })
    doing (tallyIssue x.tile x.unit (x.cols b).length (x.width - (x.cols b).length) { slot := some x.slot, element := m })

/-- A product with K = 0 writes CIN converted, or +0 (R120) (DEDUCED, log entry 28). -/
def emptyProduct (x : Product) : Work s₀ Unit := do
  arises .emptyReduce
  for b in List.range x.blocks do
    for (tail, m) in x.outer.zipIdx do
      if !(← get).stopped then
        let mut row : List (List Nat × Nat) := []
        for n in x.cols b do
          let c0 ← columnStart x 0 (n :: tail)
          row := row ++ [(n :: tail, c0)]
        if !(← get).stopped then
          for (j, c) in row do
            putSum x b m j c
          commitStaged (acOf x.slot.words 4)

/-! ### Runs -/

/-- Change the arrays' own state. -/
def changeMx (f : MxUnit → MxUnit) : Act s₀ Unit := change fun u => { u with mx := f u.mx }

/-- The run of a half. -/
def State.mxRun (s : State) (t : Nat) (h : Half) : Option MxRun := s.units.mx.runs.find? fun r => r.tile = t && r.half = h

/-- Replace, or start, the run of a half. -/
def setRun (r : MxRun) : Act s₀ Unit :=
  changeMx fun u => { u with runs := r :: u.runs.filter fun x => !(x.tile = r.tile && x.half = r.half) }

/-- End the run of a half. -/
def endRun (t : Nat) (h : Half) : Act s₀ Unit :=
  changeMx fun u => { u with runs := u.runs.filter fun x => !(x.tile = t && x.half = h) }

/-- A park that waits to take effect (R126). A half that is parked already stays as it is. -/
def parkHalf (t : Nat) (right : Bool) (reason : Nat) : Act s₀ Unit := do
  let s ← now
  if s.parked t right then setF (if right then MX_PARK_PARK_R else MX_PARK_PARK_L) 0 t
  else
    raise (if right then MX_STATUS_PARKED_R else MX_STATUS_PARKED_L) t
    changeMx fun u => { u with parks := u.parks ++ [(t, right, reason)] }

/-- The half's engine. -/
def mxEngine (t : TileNo) (right split : Bool) : Engine := .mx t (if split then (if right then .right else .left) else .whole)

/-- The park reason that a completion status gives in split-array mode (R126). -/
def parkReason : Status → Option Nat
  | .eccUncorr => some 2
  | .darkBank => some 3
  | .accessDenied => some 4
  | .stallAbort => some 5
  | _ => none

/-- A half's descriptor ends: where its status parks the half, it does so (R126). -/
def parkAfter (e : Engine) (id : Nat) : Act s₀ Unit := do
  let s ← now
  match e, s.slot id with
  | .mx t h, some d =>
    if s.on MX_STATUS_SPLIT_ACTIVE t ∧ h ≠ .whole then
      match parkReason (Arose.first d.arose).1 with
      | some r => parkHalf t (isRight h) r
      | none => pure ()
  | _, _ => pure ()

/-- The product of a half is over: its run ends and its status is fixed. -/
def endProduct (t : TileNo) (h : Half) (id : Nat) : Act s₀ Unit := do
  endRun t h
  finish id
  parkAfter (.mx t h) id

/-- Vector `m` of a paced first pass has been released (R118). -/
def paceOpen (s : State) (x : Product) (m : Nat) : Bool :=
  let w := x.slot.words
  0 ≤ sdiff (s.fld PAL_AC_VALUE x.tile (body w 5 9 0)) ((body w 5 63 32 + (m + 1) * body w 5 31 16) % 2 ^ 32) 32

/-- The pass that a run is in is paced: the first of its column block (R118). -/
def pacedPass (x : Product) (i : Nat) : Bool := mxPaced x.slot.words && (x.at i).2 = 0

/-- A product may go through the array: its stamp, where it has one, has been reached (R229). -/
def Slot.runnable (d : Slot) : Bool := !d.unlaunched || d.stampMet

/-- The next vector of a half waits on its pace (R118). -/
def State.paceHeld (s : State) (t : TileNo) (h : Half) : Bool :=
  match s.working (.mx t h), s.mxRun t h with
  | some d, some r =>
    let x := productOf t h d
    d.runnable && pacedPass x r.pass && decide (r.next < x.outer.length) && !paceOpen s x r.next
  | _, _ => false

/-- The other half of a split array. -/
def otherHalf : Half → Option Half
  | .left => some .right
  | .right => some .left
  | .whole => none

/-- The other half does not hold the wavefront (R117, R125). -/
def State.otherFlows (s : State) (t : TileNo) (h : Half) : Bool :=
  match otherHalf h with
  | some o => !s.paceHeld t o
  | none => true

/-- The wavefront may take the next vector of a half: neither half's pace holds it (R117, R118, R125). -/
def State.mayFeed (s : State) (t : TileNo) (h : Half) : Bool := !s.paceHeld t h && s.otherFlows t h

/-- Feed one vector, and end the pass or the product where it was the last. -/
def feedOne (t : TileNo) (h : Half) (d : Slot) (x : Product) (r : MxRun) : Act s₀ Bool := do
  let stopped ← runFor d (.mx t h) do
    feedVector x r.pass r.next r.active
    pure (← get).stopped
  if stopped then
    endProduct t h d.id
    pure false
  else if r.next + 1 = x.outer.length ∧ r.pass + 1 = x.total then
    endProduct t h d.id
    pure false
  else
    setRun { r with next := r.next + 1, fed := true }
    pure true

/-- Feed the vectors of the pass in progress until it ends or a pace holds the array; `n` bounds the vectors (DEDUCED, log
entry 31). -/
def feedPass (t : TileNo) (h : Half) (d : Slot) (x : Product) : Nat → Act s₀ Unit
  | 0 => pure ()
  | n + 1 => do
    let s ← now
    match s.mxRun t h with
    | none => pure ()
    | some r =>
      if r.next < x.outer.length ∧ s.mayFeed t h then
        if ← feedOne t h d x r then feedPass t h d x n

/-- The loader fills SHADOW with the tile of the pass after the one that starts (R116) (DEDUCED, log entry 31). -/
def loadNext (t : TileNo) (h : Half) (d : Slot) (x : Product) : Act s₀ Unit := do
  match (← now).mxRun t h with
  | none => pure ()
  | some r =>
    if r.pass + 1 < x.total then
      let tile ← runFor d (.mx t h) (loadTile x (r.pass + 1))
      setRun { r with shadow := tile }

/-- Vector 0 of the first pass may enter: the launch (R116, R229) (DEDUCED, log entry 31). -/
def firstFeed (t : TileNo) (h : Half) (d : Slot) (x : Product) (r : MxRun) : Act s₀ Unit := do
  launch d.id
  fitEngine (.mx t h)
  setRun { r with fed := true }
  loadNext t h d x
  feedPass t h d x x.outer.length

/-- The product of a half goes on: its first vector enters once its stamp is reached, and no vector while a pace holds the
array (R117, R229) (DEDUCED, log entry 31). -/
def advance (t : TileNo) (h : Half) : Act s₀ Unit := do
  let s ← now
  match s.working (.mx t h), s.mxRun t h with
  | some d, some r =>
    let x := productOf t h d
    if r.fed then feedPass t h d x x.outer.length
    else if d.runnable && s.mayFeed t h then firstFeed t h d x r
  | _, _ => pure ()

/-- MX_PRODUCT: the first weight tile is loaded, and without a stamp the first pass is fed as far as its pace allows
(R108 to R118) (DEDUCED, log entry 31). An empty shape, and a product with K = 0, have no feed: they run at once, stamped or
not (R120) (DESIGN CHOICE, log entry 84). -/
def actMxProduct (t : TileNo) (h : Half) : Act s₀ Unit := do
  let s ← now
  match s.working (.mx t h) with
  | none => pure ()
  | some d =>
    let x := productOf t h d
    match s.mxRun t h with
    | some _ => advance t h
    | none =>
      if x.outer.length = 0 ∨ x.n = 0 then
        launch d.id
        finish d.id
      else if x.k = 0 then
        launch d.id
        runFor d (.mx t h) (emptyProduct x)
        finish d.id
        parkAfter (.mx t h) d.id
      else
        match ← runFor d (.mx t h) (loadTile x 0) with
        | none => endProduct t h d.id
        | some tile =>
          let r : MxRun := { tile := t, half := h, slot := d.id, active := tile }
          setRun r
          if !d.unlaunched then advance t h

/-- MX_PRODUCT. -/
def execMxProduct (t : TileNo) (h : Half) (s : State) : Host.Outcome State Fault Refusal :=
  .next (perform s (advancing t (.mx t h) (actMxProduct t h)))

/-- MX_FIRST_FEED: the stamp is reached and the first tile is loaded (R116, R229). -/
def actMxFirstFeed (t : TileNo) (h : Half) : Act s₀ Unit := do
  match (← now).mxRun t h with
  | some r => if r.fed then pure () else advance t h
  | none => pure ()

/-- MX_FIRST_FEED. -/
def execMxFirstFeed (t : TileNo) (h : Half) (s : State) : Host.Outcome State Fault Refusal :=
  .next (perform s (advancing t (.mx t h) (actMxFirstFeed t h)))

/-- MX_PASS_START: the pass in progress has been fed whole, and the next one starts from the SHADOW tile (R111, R115,
R116). A tile whose load met poison ends the product (R119) (DEDUCED, log entry 31). -/
def actMxPassStart (t : TileNo) (h : Half) : Act s₀ Unit := do
  let s ← now
  match s.working (.mx t h), s.mxRun t h with
  | some d, some r =>
    let x := productOf t h d
    if r.fed && r.next = x.outer.length && s.otherFlows t h then
      match r.shadow with
      | none => endProduct t h d.id
      | some tile =>
        setRun { r with pass := r.pass + 1, next := 0, active := tile, shadow := none }
        loadNext t h d x
        feedPass t h d x x.outer.length
  | _, _ => pure ()

/-- MX_PASS_START. -/
def execMxPassStart (t : TileNo) (h : Half) (s : State) : Host.Outcome State Fault Refusal :=
  .next (perform s (advancing t (.mx t h) (actMxPassStart t h)))

/-- The wavefront has taken a vector of half `h`, so it takes one of the other half too, and goes on there where nothing
holds it (R117) (DEDUCED, log entry 31). -/
def followOther (t : TileNo) (h : Half) : Act s₀ Unit := do
  match otherHalf h with
  | none => pure ()
  | some o =>
    let s ← now
    match s.working (.mx t o), s.mxRun t o with
    | some d, some r =>
      let x := productOf t o d
      if s.mayFeed t o then advance t o
      else if r.fed && decide (r.next < x.outer.length) && !s.paceHeld t o then
        let _ ← feedOne t o d x r
    | _, _ => pure ()

/-- MX_PACE_RELEASE: the next vector of a paced pass is fed once its counter value has been seen (R118) (DEDUCED, log
entry 31). -/
def actMxPaceRelease (t : TileNo) (h : Half) : Act s₀ Unit := do
  let s ← now
  match s.working (.mx t h), s.mxRun t h with
  | some d, some r =>
    let x := productOf t h d
    if pacedPass x r.pass && decide (r.next < x.outer.length) && s.mayFeed t h then
      if r.fed then
        let _ ← feedOne t h d x r
        followOther t h
      else
        advance t h
        followOther t h
  | _, _ => pure ()

/-- MX_PACE_RELEASE. -/
def execMxPaceRelease (t : TileNo) (h : Half) (s : State) : Host.Outcome State Fault Refusal :=
  .next (perform s (advancing t (.mx t h) (actMxPaceRelease t h)))

/-! ### Parking, releasing, splitting (R125 to R128) -/

/-- The descriptor of a half completes with a status and what it holds is discarded (R119, R126). -/
def abortHalf (t : TileNo) (h : Half) (st : Status) : Act s₀ Unit := do
  match (← now).working (.mx t h) with
  | none => pure ()
  | some d =>
    endRun t h
    withSlot d.id fun x => { x with arose := Arose.put x.arose st 0, phase := .done }

/-- Park a half, or the whole array: its descriptor completes with PARKED (R126) (DEDUCED, log entry 32). -/
def parkNow (t : TileNo) (right : Bool) (reason : Nat) : Act s₀ Unit := do
  let s ← now
  let split := s.on MX_STATUS_SPLIT_ACTIVE t
  abortHalf t (if split then (if right then .right else .left) else .whole) .parked
  parkHalf t right reason

/-- PARK_THRESHOLD: a half whose stall age has reached the threshold is parked while the other half is busy (R126)
(DEDUCED, log entry 32). -/
def actParkThreshold (t : TileNo) (right : Bool) : Act s₀ Unit := do
  let s ← now
  match s.working (mxEngine t right true) with
  | none => pure ()
  | some d =>
    if s.on MX_STATUS_SPLIT_ACTIVE t && s.fld MX_PARK_THRESH_TICKS t ≠ 0
        && decide (s.fld MX_PARK_THRESH_TICKS t ≤ s.stallAge d) && s.busy (mxEngine t (!right) true) then
      parkNow t right 1

/-- PARK_THRESHOLD. -/
def execParkThreshold (t : TileNo) (right : Bool) (s : State) : Host.Outcome State Fault Refusal :=
  .next (perform s (actParkThreshold t right))

/-- The half's atelier is quiesced, quiescing or orphaned (DEDUCED, log entry 32). -/
def halfStopped (s : State) (t : Nat) (right : Bool) : Bool :=
  match (if right then s.rightHolder t else s.tileOwner t) with
  | some a => 1 < s.fld ATL_STATUS_STATE a || s.on ATL_STATUS_ORPHANED a
  | none => false

/-- Release one half (R127). A park that has not yet taken effect is dropped with it, and never logged (DESIGN CHOICE, log
entry 83). -/
def releaseHalf (t : Nat) (right : Bool) : Act s₀ Unit := do
  let s ← now
  if s.parked t right && !halfStopped s t right then
    setF (if right then MX_STATUS_PARKED_R else MX_STATUS_PARKED_L) 0 t
    setF (if right then MX_PARK_PARK_R else MX_PARK_PARK_L) 0 t
    changeMx fun u => { u with parks := u.parks.filter fun e => !(e.1 = t && e.2.1 = right) }

/-- A write of MX.PARK (R126, R127, R129): the _R bits count only in split-array mode. A release in the same write acts
on what was parked before it (DEDUCED, log entry 32). -/
def hookPark (w : RegWrite) : Act s₀ Unit := do
  let t : TileNo := Fin.ofNat 64 w.inst
  let split ← isOn MX_STATUS_SPLIT_ACTIVE t
  let part (right : Bool) (pk rl : Fld) : Act s₀ Unit := do
    if w.does rl then releaseHalf t right
    if w.does pk then
      raise pk t
      parkNow t right 0
  part false MX_PARK_PARK_L MX_PARK_RELEASE_L
  if split then part true MX_PARK_PARK_R MX_PARK_RELEASE_R

/-- PARK. -/
def execPark (port : HostNo) (t : TileNo) (v : Word) (s : State) : Host.Outcome State Fault Refusal :=
  .next (perform s (checkedWrite port (MX_PARK_PARK_L.addr t 0) v hookPark))

/-- RELEASE_HALF. -/
def execReleaseHalf (port : HostNo) (t : TileNo) (v : Word) (s : State) : Host.Outcome State Fault Refusal :=
  .next (perform s (checkedWrite port (MX_PARK_RELEASE_L.addr t 0) v hookPark))

/-- PARK_TAKE_EFFECT: the oldest park of the half takes effect: its buffers are cleared and MX.PARK_LOG records it
(R126) (DEDUCED, log entry 32). -/
def actParkTakeEffect (t : TileNo) (right : Bool) : Act s₀ Unit := do
  let s ← now
  let (p, rest) := takeFirst (fun e : Nat × Bool × Nat => e.1 = t.val && e.2.1 = right) s.units.mx.parks
  match p with
  | none => pure ()
  | some (_, _, reason) =>
    changeMx fun u => { u with parks := rest }
    setF (if right then MX_PARK_PARK_R else MX_PARK_PARK_L) 0 t
    logFirst MX_PARK_LOG_VALID MX_PARK_LOG_OVERRUN t do
      setF MX_PARK_LOG_HALF (if right then 1 else 0) t
      setF MX_PARK_LOG_REASON reason t
      setF MX_PARK_LOG_START (s.now40 t) t

/-- PARK_TAKE_EFFECT. -/
def execParkTakeEffect (t : TileNo) (right : Bool) (s : State) : Host.Outcome State Fault Refusal :=
  .next (perform s (actParkTakeEffect t right))

/-- No half of the array has a descriptor in progress. -/
def mxIdle (s : State) (t : TileNo) : Bool :=
  !s.busy (.mx t .whole) && !s.busy (.mx t .left) && !s.busy (.mx t .right)

/-- A pending change of SPLIT takes effect (R125). In whole-array mode the _R fields read 0 (R129), so a park of the right
half ends with its half (DEDUCED, log entry 82). -/
def splitNow (t : Nat) : Act s₀ Unit := do
  let v ← fld MX_CTL_SPLIT t
  setF MX_STATUS_SPLIT_ACTIVE v t
  setF MX_STATUS_SPLIT_PENDING 0 t
  if v = 0 then
    setF MX_STATUS_PARKED_R 0 t
    setF MX_PARK_PARK_R 0 t
    changeMx fun u => { u with parks := u.parks.filter fun e => !(e.1 = t && e.2.1) }

/-- A write of MX.CTL (R125, R128): a 1 that the sharing policy does not permit is discarded and recorded. -/
def hookSplit (w : RegWrite) : Act s₀ Unit := do
  let s ← now
  let t : TileNo := Fin.ofNat 64 w.inst
  let v := w.field MX_CTL_SPLIT
  if v = 1 ∧ (s.rightOf t).isNone then discardRecorded w
  else if v = s.fld MX_CTL_SPLIT t then pure ()
  else
    plainHook w
    if v = s.fld MX_STATUS_SPLIT_ACTIVE t then setF MX_STATUS_SPLIT_PENDING 0 t
    else if mxIdle s t then splitNow t
    else raise MX_STATUS_SPLIT_PENDING t

/-- SPLIT_WRITE. -/
def execSplitWrite (port : HostNo) (t : TileNo) (v : Word) (s : State) : Host.Outcome State Fault Refusal :=
  .next (perform s (checkedWrite port (MX_CTL_SPLIT.addr t 0) v hookSplit))

/-- SPLIT_TAKE_EFFECT. -/
def execSplitTakeEffect (t : TileNo) (s : State) : Host.Outcome State Fault Refusal :=
  .next (perform s (do
    let s ← now
    if s.on MX_STATUS_SPLIT_PENDING t && mxIdle s t then splitNow t))

end Sys2Proof.Machine
end

