-- ==== Sys2Proof/Machine/Ateliers.lean ====
section
/-! DEFINITION. Ateliers: their registers, quiescing and releasing, host loss, adoption, dissolving, and tile sharing
(R337, R340 to R356). -/

namespace Sys2Proof.Machine

variable {s₀ : State}

/-! ### Resources (R340) -/

/-- The ring groups of two runs overlap. -/
def runsMeet (a n b m : Nat) : Bool := a < b + m && b < a + n

/-- What an atelier's resource fields name: tiles, dies, first group, groups, and HBM ranges as (first block, blocks). -/
structure Holding where
  tiles : Nat
  dies : Nat
  first : Nat
  count : Nat
  hbm : List (Nat × Nat)
  deriving DecidableEq, Repr

/-- The holding of an atelier's registers. -/
def State.holding (s : State) (a : Nat) : Holding :=
  { tiles := s.fld ATL_TILES_MASK a, dies := s.fld ATL_DIES_MASK a, first := s.fld ATL_RINGS_FIRST a
    count := s.fld ATL_RINGS_COUNT a
    hbm := (List.range 8).filterMap fun i =>
      if s.on ATL_HBM_VALID a i then some (s.fld ATL_HBM_BASE_BLK a i, s.fld ATL_HBM_BLOCKS a i) else none }

/-- Two holdings share a resource. -/
def Holding.meets (x y : Holding) : Bool :=
  x.tiles &&& y.tiles ≠ 0 || x.dies &&& y.dies ≠ 0 || runsMeet x.first x.count y.first y.count
    || x.hbm.any fun r => y.hbm.any fun q => runsMeet r.1 r.2 q.1 q.2

/-- A holding of atelier `a` would take a resource of another atelier. -/
def State.takes (s : State) (a : Nat) (h : Holding) : Bool :=
  (List.range 16).any fun b => b ≠ a && s.exists b && h.meets (s.holding b)

/-- A write of a resource field: kept where no other atelier owns what it names, else discarded and recorded (DEDUCED,
log entry 50). -/
def takeHolding (w : RegWrite) (h : Holding) : Act s₀ Unit := do
  let s ← now
  if s.exists w.inst && s.takes w.inst h then discardRecorded w else plainHook w

/-- A write of ATL.OWNER (R340, R348): an atelier that comes to exist is ACTIVE. -/
def hookAtlOwner (w : RegWrite) : Act s₀ Unit := do
  let s ← now
  let a := w.inst
  if w.field ATL_OWNER_VALID = 1 then
    if s.takes a (s.holding a) then discardRecorded w
    else
      plainHook w
      if !s.exists a then emit (.reg (ATL_STATUS_STATE.addr a 0) 1)
  else
    plainHook w
    if s.exists a then emit (.reg (ATL_STATUS_STATE.addr a 0) 0)

/-- A write of ATL.TILES. -/
def hookAtlTiles (w : RegWrite) : Act s₀ Unit := do
  let s ← now
  takeHolding w { s.holding w.inst with tiles := w.field ATL_TILES_MASK }

/-- A write of ATL.DIES. -/
def hookAtlDies (w : RegWrite) : Act s₀ Unit := do
  let s ← now
  takeHolding w { s.holding w.inst with dies := w.field ATL_DIES_MASK }

/-- A write of ATL.RINGS: a run past group 8,191 is discarded. -/
def hookAtlRings (w : RegWrite) : Act s₀ Unit := do
  let s ← now
  let first := w.field ATL_RINGS_FIRST
  let count := w.field ATL_RINGS_COUNT
  if 8192 < first + count then pure ()
  else takeHolding w { s.holding w.inst with first := first, count := count }

/-- Blocks that lie in one stack's populated part (R355). -/
def rangeOk (base blocks : Nat) : Bool :=
  1 ≤ blocks && blocks ≤ 589824 &&
  match place (base * 0x10000), place ((base + blocks) * 0x10000 - 1) with
  | .stack n _, .stack m _ => n == m
  | _, _ => false

/-- A write of ATL.HBM[i]. -/
def hookAtlHbm (w : RegWrite) : Act s₀ Unit := do
  let s ← now
  let base := w.field ATL_HBM_BASE_BLK
  let blocks := w.field ATL_HBM_BLOCKS
  if w.field ATL_HBM_VALID = 0 then plainHook w
  else if !rangeOk base blocks then pure ()
  else takeHolding w { s.holding w.inst with hbm := [(base, blocks)] }

/-- A write of ATL.TXN (R353): reserves beyond the module's tags are discarded and recorded. -/
def hookAtlTxn (w : RegWrite) : Act s₀ Unit := do
  let s ← now
  let others := ((List.range 16).filter (· ≠ w.inst)).foldl (fun n b => n + s.fld ATL_TXN_RESERVE b) 0
  if 65536 < others + w.field ATL_TXN_RESERVE then discardRecorded w else plainHook w

/-- A write of ATL.MGMT (R341, R350, R356) (DEDUCED, log entry 50). -/
def hookAtlMgmt (w : RegWrite) : Act s₀ Unit := do
  let s ← now
  if w.field ATL_MGMT_VALID = 1 ∧ !s.exists (w.field ATL_MGMT_ATELIER) then pure ()
  else
    plainHook w
    change fun u => { u with host := { u.host with mgmtFallback := false } }

/-! ### Quiescing (R348) -/

/-- The rings of an atelier. -/
def State.ringsOf (s : State) (a : Nat) : List Nat :=
  if s.exists a then
    (List.range (64 * s.fld ATL_RINGS_COUNT a)).map fun k => 64 * s.fld ATL_RINGS_FIRST a + k
  else []

/-- Park the halves of split arrays that an atelier holds (R126, R348) (DEDUCED, log entry 32). -/
def parkHalves (a reason : Nat) : Act s₀ Unit := do
  let s ← now
  each (List.range 64) fun t => do
    if s.on MX_STATUS_SPLIT_ACTIVE t then
      if s.rightHolder t = some a then parkNow (Fin.ofNat 64 t) true reason
      if s.tileOwner t = some a then parkNow (Fin.ofNat 64 t) false reason

/-- Quiescing begins (R348). -/
def startQuiesce (a : Nat) : Act s₀ Unit := do
  let s ← now
  if s.exists a ∧ s.fld ATL_STATUS_STATE a = 1 then
    setF ATL_STATUS_STATE 2 a
    each (s.ringsOf a) fun r => discardFetched r
    parkHalves a 6

/-- QUIESCE_DONE: none of the atelier's descriptors is issued, and none of its tags is held (R348). A level-3 copy's
drain is over once every atelier that it quiesces is quiesced (R325). -/
def actQuiesceDone (a : Nat) : Act s₀ Unit := do
  let s ← now
  if s.fld ATL_STATUS_STATE a = 2 ∧ s.fld ATL_TAGS_IN_USE_COUNT a = 0
      ∧ !(s.slots.any fun d => d.atelier = a && (d.phase = .issued || d.phase = .done)) then
    setF ATL_STATUS_STATE 3 a
    if s.units.host.draining.contains a then
      change fun u => { u with host := { u.host with draining := u.host.draining.filter (· ≠ a) } }
      if s.units.host.draining.all (· = a) then
        setF RISK_STATUS_DRAINED 1
        riskEvent RISK_EVENT_DRAINED

/-- QUIESCE_DONE. -/
def execQuiesceDone (a : AtlNo) (s : State) : Host.Outcome State Fault Refusal := .next (perform s (actQuiesceDone a))

/-- RELEASE from QUIESCED (R348, R350): fetching resumes, and held descriptors become eligible (DEDUCED, log entry 49;
DEDUCED, log entry 52). -/
def releaseAtelier (a : Nat) : Act s₀ Unit := do
  let s ← now
  if s.fld ATL_STATUS_STATE a = 3 ∧ !s.on ATL_STATUS_ORPHANED a then
    setF ATL_STATUS_STATE 1 a
    change fun u => { u with host := { u.host with adopted := u.host.adopted.filter (· ≠ a) } }
    if bit (s.fld RISK_COVER_ATELIERS) a then setF RISK_STATUS_DRAINED 0
    settleFences

/-- The withdrawal of SHARE_OK parks the atelier's halves (R128, R345). -/
def hookShareOk (w : RegWrite) : Act s₀ Unit := do
  let s ← now
  if s.on ATL_CTL_SHARE_OK w.inst ∧ w.field ATL_CTL_SHARE_OK = 0 then parkHalves w.inst 7
  setF ATL_CTL_SHARE_OK (w.field ATL_CTL_SHARE_OK) w.inst

/-- A write of ATL.CTL (R344, R345, R348). -/
def hookAtlCtl (w : RegWrite) : Act s₀ Unit := do
  let s ← now
  hookShareOk w
  if s.exists w.inst then
    if w.does ATL_CTL_LOCK then raise ATL_CTL_LOCK w.inst
    if w.does ATL_CTL_QUIESCE then startQuiesce w.inst
    else if w.does ATL_CTL_RELEASE then releaseAtelier w.inst

/-- LOCK. -/
def execLock (port : HostNo) (a : AtlNo) (v : Word) (s : State) : Host.Outcome State Fault Refusal :=
  .next (perform s (checkedWrite port (ATL_CTL_LOCK.addr a 0) v hookAtlCtl))
/-- QUIESCE. -/
def execQuiesce (port : HostNo) (a : AtlNo) (v : Word) (s : State) : Host.Outcome State Fault Refusal :=
  .next (perform s (checkedWrite port (ATL_CTL_QUIESCE.addr a 0) v hookAtlCtl))
/-- RELEASE. -/
def execRelease (port : HostNo) (a : AtlNo) (v : Word) (s : State) : Host.Outcome State Fault Refusal :=
  .next (perform s (checkedWrite port (ATL_CTL_RELEASE.addr a 0) v hookAtlCtl))
/-- SHARE_OK_WRITE. -/
def execShareOkWrite (port : HostNo) (a : AtlNo) (v : Word) (s : State) : Host.Outcome State Fault Refusal :=
  .next (perform s (checkedWrite port (ATL_CTL_SHARE_OK.addr a 0) v hookAtlCtl))

/-! ### Host loss and adoption (R337, R349, R350) -/

/-- A DWORD of configuration space that no reset of the function clears: the error status registers of AER (PRESUMED, log
entry 9). -/
def cfgSticky (dw : Nat) : Bool := dw = 0x41 || dw = 0x44

/-- A port's configuration space and MSI-X table return to their reset state (PRESUMED, log entry 9; PRESUMED, log entry
51). -/
def resetFunction (p : Nat) : Act s₀ Unit := do
  change fun u => { u with
    host := { u.host with config := u.host.config.filter fun e => e.1 / 1024 ≠ p || cfgSticky (e.1 % 1024) }
    rings := { u.rings with msix := u.rings.msix.filter fun e => e.1 / 2048 ≠ p } }

/-- A fundamental reset of a port, or the loss of its power, leaves nothing of its configuration space (PRESUMED, log entry
9). -/
def clearConfig (p : Nat) : Act s₀ Unit :=
  change fun u => { u with host := { u.host with config := u.host.config.filter fun e => e.1 / 1024 ≠ p } }

/-- The ateliers of a lost port are orphaned; management rights fall back to H0 where the management atelier is among
them (PRESUMED, log entry 51). -/
def orphanPort (p : Nat) : Act s₀ Unit := do
  let s ← now
  match s.mgmtAtelier with
  | some a => if s.portOf a = p then change fun u => { u with host := { u.host with mgmtFallback := true } }
  | none => pure ()
  each ((List.range 16).filter fun a => s.owns p (some a)) fun a => do
    setF ATL_STATUS_ORPHANED 1 a
    startQuiesce a
    changeRings fun u => { u with
      holdoffs := u.holdoffs.map fun x => if s.groupOwner x.1 = some a then (x.1, { x.2 with waiting := false }) else x }

/-- HOST_LOSS (R337) (PRESUMED, log entry 51). -/
def actHostLoss (p : Nat) (cause : LossCause) : Act s₀ Unit := do
  match cause with
  | .linkDown => do
    raise HOST_EVENT_LINK_DOWN p
    emit (.reg (HOST_STATUS_UP.addr p 0) 0)
    resetFunction p
  | .hotReset => do
    raise HOST_EVENT_HOT_RESET p
    emit (.reg (HOST_STATUS_UP.addr p 0) 0)
    resetFunction p
  | .flr => do
    raise HOST_EVENT_FLR p
    resetFunction p
  | .bmeCleared => do
    raise HOST_EVENT_BME_CLEARED p
    change fun u => { u with host := { u.host with
      config := mapSet (fun _ => 0) u.host.config (1024 * p + 1)
        (mapGet (fun _ => 0) u.host.config (1024 * p + 1) &&& ~~~ 4) } }
  orphanPort p

/-- HOST_LOSS. -/
def execHostLoss (port : HostNo) (cause : LossCause) (s : State) : Host.Outcome State Fault Refusal :=
  .next (perform s (actHostLoss port cause))

/-- ATS_INVALIDATE: an invalidation completes (R336, R354) (DESIGN CHOICE, log entry 98). -/
def execAtsInvalidate (port : HostNo) (s : State) : Host.Outcome State Fault Refusal :=
  .next (perform s (countUp HOST_ATS_INVALIDATIONS 1 port))

/-- Bus Master Enable of a port: bit 2 of the Command register, DWORD 1 (PRESUMED, log entry 9). -/
def State.busMaster (s : State) (p : Nat) : Bool := (mapGet (fun _ => 0) s.units.host.config (1024 * p + 1)).getLsbD 2

/-- A write of ATL.ADOPT (R350) (DEDUCED, log entry 52). -/
def hookAdopt (w : RegWrite) : Act s₀ Unit := do
  let s ← now
  let a := w.field ATL_ADOPT_ATELIER
  let p := w.field ATL_ADOPT_PORT
  if !w.does ATL_ADOPT_GO then plainHook w
  else if s.exists a ∧ s.fld ATL_STATUS_STATE a = 3 ∧ s.on HOST_STATUS_UP p ∧ s.busMaster p ∧ s.mgmtAtelier ≠ some a then
    plainHook w
    setF ATL_OWNER_PORT p a
    setF ATL_STATUS_ORPHANED 0 a
    setF ATL_CTL_LOCK 0 a
    change fun u => { u with host := { u.host with adopted := setIns u.host.adopted a } }
  else discardRecorded w

/-- ADOPT. -/
def execAdopt (port : HostNo) (v : Word) (s : State) : Host.Outcome State Fault Refusal :=
  .next (perform s (checkedWrite port (ATL_ADOPT_GO.addr 0 0) v hookAdopt))

/-- A write of RING[r].BASE: while DISABLED, and after an adoption also while ACTIVE or HALTED (R350) (DEDUCED, log
entry 50). -/
def hookRingBase (w : RegWrite) : Act s₀ Unit := do
  let s ← now
  let st := s.fld RING_STATE_STATE w.inst
  if st = 0 ∨ (st ≠ 3 ∧ ((s.ringOwner w.inst).any fun a => s.units.host.adopted.contains a)) then plainHook w

/-! ### Dissolving (R351) -/

/-- The rings of an atelier are DISABLED, and what they hold is gone. -/
def clearRings (a : Nat) : Act s₀ Unit := do
  let s ← now
  let rs := s.ringsOf a
  changeRings fun u => { u with
    slots := u.slots.filter fun d => d.atelier ≠ a
    cqWait := u.cqWait.filter fun c => s.groupOwner c.group ≠ some a
    cqHeld := u.cqHeld.filter fun g => s.groupOwner g ≠ some a
    holdoffs := u.holdoffs.filter fun h => s.groupOwner h.1 ≠ some a
    fetched := u.fetched.filter fun f => !rs.contains f.ring
    fetching := u.fetching.filter fun f => !rs.contains f.1
    fresh := u.fresh.filter fun r => !rs.contains r
    segment := u.segment.filter fun e => !rs.contains e.1
    retDone := u.retDone.filter fun e => !rs.contains e.1
    late := u.late.filter fun e => !rs.contains e.1
    stale := u.stale.filter fun r => !rs.contains r
    rewound := u.rewound.filter fun r => !rs.contains r
    tagWaits := u.tagWaits.filter fun w => w.atelier ≠ some a
    schedReads := u.schedReads.filter fun r => !rs.contains r }
  each rs fun r => do
    setF RING_CTL_ENABLE 0 r
    setF RING_STATE_STATE 0 r
  rearm

/-- The lanes of an atelier are out of use, and their owner fields are cleared: those of its lanes in use, and those that
name it (R340, R351) (DEDUCED, log entry 50). -/
def clearLanes (a : Nat) : Act s₀ Unit := do
  each (List.range 16) fun v => do
    let s ← now
    let w := s.fld COLL_VL_OWNER_OWNER
    if s.laneOwner (v + 1) = some a then
      setF COLL_VL_VALID_VALID (s.fld COLL_VL_VALID_VALID - 2 ^ v)
    if w / 16 ^ v % 16 = a then setF COLL_VL_OWNER_OWNER (w - a * 16 ^ v)

/-- A register takes its reset value. -/
def toReset (a : Nat) : Act s₀ Unit := emit (.reg a (regReset a))

/-- The atelier is gone (DEDUCED, log entry 50). -/
def dissolve (a : Nat) : Act s₀ Unit := do
  let s ← now
  clearRings a
  each [0, 1] fun e => each (List.range 64) fun k => do
    if s.on COLL_GROUP_ID_VALID e k ∧ s.fld COLL_GROUP_ID_ATELIER e k = a then
      removeGroup e (s.fld COLL_GROUP_ID_GROUP e k)
  clearLanes a
  each (List.range 64) fun t => do
    if s.fld ATL_SHARE_RIGHT 0 t = a then toReset (ATL_SHARE_RIGHT.addr 0 t)
  toReset (ATL_TILES_MASK.addr a 0)
  toReset (ATL_DIES_MASK.addr a 0)
  toReset (ATL_RINGS_FIRST.addr a 0)
  toReset (ATL_TXN_MAX.addr a 0)
  each (List.range 8) fun i => toReset (ATL_HBM_VALID.addr a i)
  setF ATL_OWNER_VALID 0 a
  setF ATL_CTL_LOCK 0 a
  toReset (ATL_STATUS_STATE.addr a 0)
  change fun u => { u with host := { u.host with
    adopted := u.host.adopted.filter (· ≠ a), draining := u.host.draining.filter (· ≠ a) } }

/-- A write of ATL.DISSOLVE (R351) (DEDUCED, log entry 50). -/
def hookDissolve (w : RegWrite) : Act s₀ Unit := do
  let s ← now
  let a := w.field ATL_DISSOLVE_ATELIER
  if !w.does ATL_DISSOLVE_GO then plainHook w
  else if s.exists a ∧ s.fld ATL_STATUS_STATE a = 3 ∧ s.mgmtAtelier ≠ some a then
    plainHook w
    dissolve a
  else discardRecorded w

/-- DISSOLVE. -/
def execDissolve (port : HostNo) (v : Word) (s : State) : Host.Outcome State Fault Refusal :=
  .next (perform s (checkedWrite port (ATL_DISSOLVE_GO.addr 0 0) v hookDissolve))

/-! ### Sharing (R345, R346) -/

/-- A write of ATL.SHARE[t]: taken while the array is not split, with quarters and counters that R346 allows (DEDUCED,
log entry 50). -/
def hookShare (w : RegWrite) : Act s₀ Unit := do
  let s ← now
  let t := (w.off - 0x8100) / 8
  let k := w.field ATL_SHARE_AC_SPLIT
  let q := w.field ATL_SHARE_RQ
  let ok : Bool := w.field ATL_SHARE_VALID = 0 || (q ≠ 0 && q ≠ 15 && k % 64 = 0 && 64 ≤ k && k ≤ 960)
  if s.on MX_STATUS_SPLIT_ACTIVE t || !ok then discardRecorded w else plainHook w

/-- SHARE_SET. -/
def execShareSet (port : HostNo) (t : TileNo) (v : Word) (s : State) : Host.Outcome State Fault Refusal :=
  .next (perform s (checkedWrite port (ATL_SHARE_VALID.addr 0 t) v hookShare))

end Sys2Proof.Machine
end

