-- ==== Sys2Proof/Machine/FabSend.lean ====
section
/-! DEFINITION. Sends to other modules: FAB_SEND, COLL_DISPATCH and COLL_COMBINE (R251, R254, R270 to R276). -/

namespace Sys2Proof.Machine

variable {s₀ : State}

/-! ### Cutting writes into frames (R250, R251, R254) -/

/-- A mask names whole bytes only. -/
def byteMask (m : Granule) : Bool :=
  (List.range 64).all fun b => (m.toNat / 256 ^ b % 256 = 0) || (m.toNat / 256 ^ b % 256 = 255)

/-- The bytes that a mask names, as the byte mask of KIND_WORD. -/
def namedBytes (m : Granule) : Nat :=
  (List.range 64).foldl (fun a b => if m.toNat / 256 ^ b % 256 ≠ 0 then a + 2 ^ b else a) 0

/-- Cut transfers, in order, into runs that one frame carries: consecutive granules within 4 KiB, a masked granule last,
and room for the bit mask of one (R250, R251). Runs are built newest first. -/
def cutRuns : List (List Req) → List Req → List (List Req)
  | acc, [] => (acc.map List.reverse).reverse
  | [], r :: rs => cutRuns [[r]] rs
  | cur :: done, r :: rs =>
    match cur with
    | [] => cutRuns ([r] :: done) rs
    | l :: _ =>
      if r.g = l.g + 1 ∧ l.mask = fullMask ∧ r.g % 64 ≠ 0 ∧ (byteMask r.mask ∨ cur.length < 63) then
        cutRuns ((r :: cur) :: done) rs
      else cutRuns ([r] :: cur :: done) rs

/-- The WRITE frame of a run. -/
def writeFrame (dst me vl gen group : Nat) (ac : Option Nat) (run : List Req) : Frame :=
  let last := (run.getLast?.map Req.mask).getD fullMask
  let data := run.map Req.data
  let first := (run.head?.map Req.g).getD 0
  if byteMask last then mkFrame dst me kindWrite vl gen (64 * first) group ac (namedBytes last) data
  else mkFrame dst me kindWrite vl gen (64 * first) group ac (namedBytes last) (data ++ [last]) true

/-- Give each frame the batch after the last earlier frame that holds one of its granules (R94, R270). -/
def batches : List (List Nat × Nat) → List (List Req) → List Nat
  | _, [] => []
  | seen, run :: rest =>
    let gs := run.map Req.g
    let b := seen.foldl (fun n x => if x.1.any fun g => gs.contains g then max n (x.2 + 1) else n) 0
    b :: batches ((gs, b) :: seen) rest

/-- The frames of a stream of transfers to one module, those of a granule in order. -/
def framesFor (id : Nat) (a : Option Nat) (key dst me vl gen group : Nat) (ac : Option Nat) (rs : List Req) : List Sending :=
  let runs := cutRuns [] rs
  (runs.zip (batches [] runs)).map fun x => ⟨id, a, key, x.2, writeFrame dst me vl gen group ac x.1⟩

/-! ### FAB_SEND (R270) -/

/-- The body and records of FAB_SEND (DEDUCED, log entry 42). -/
def prepFabSend (e : Nat) (w : Descriptor) : Prep s₀ (List Nat) := do
  let g := body w 2 47 36
  let vl := body w 2 35 31
  demand (body w 2 30 30 = 0 && body w 2 18 16 = 0 && body w 2 14 10 = 0 && zeroFrom w 3 && body w 2 28 27 ≠ 3
    && 1 ≤ vl && vl ≤ 16)
  let io ← OptionT.lift get
  let s ← OptionT.lift (doing now)
  permit (s.laneOwner vl = some io.atelier)
  if g ≠ 0 then
    match ← attempt (permitGroup e g) with
    | some k => permit (s.fld COLL_GROUP_ID_VL e k = vl && (s.membersOf e k).contains (body w 2 63 48))
    | none => pure ()
  match ← readTensors [body w 0 63 0, body w 1 63 0] with
  | [(rs, src), (rd, dst)] =>
    demand (pairAllowed src.type dst && src.count = dst.count)
    permitTensor src false
    pure [rs, rd]
  | _ => failure

/-- The tile number of an engine's draws (R270). -/
def collTile (e : Nat) : Nat := 0x40 + e

/-- The generation that a group's frames carry (R250). -/
def State.sendGen (s : State) (e g : Nat) : Nat :=
  match s.groupSlot e g with
  | some k => if g = 0 then 0 else s.genOf e k
  | none => 0

/-- A copy into another module (R98, R99, R270): the transfers that it makes. -/
def sendWork (c : Conv) (src dst : Tensor) : Work s₀ (List Req) := do
  let ms := copyMoves src dst
  let xs ← readStream src (ms.map Move.src)
  putMoves c src dst ms (dst.type.isMx && src.type = dst.type && blockAligned src dst ms) xs
  let io ← get
  modify fun i => { i with stage := [] }
  pure (transfers io.stage.reverse)

/-- FAB_SEND, issued on a collective engine. -/
def actFabSend (id : Nat) : Act s₀ Unit := do
  let s ← now
  match s.slot id with
  | none => pure ()
  | some d =>
    match d.on.bind engNo with
    | none => pure ()
    | some e =>
      let w := d.words
      if d.phase = .issued ∧ opcodeOf w = 0x40 then
        let g := body w 2 47 36
        let conv : Conv := ⟨body w 2 28 27, body w 2 29 29 = 1, body w 2 26 19, collTile e, d⟩
        let rs ← runFor d (collEngine e) (sendWork conv (d.tensor 0) (d.tensor 1))
        postFrames id (framesFor id (some d.atelier) 0 (body w 2 63 48) s.moduleId (body w 2 35 31) (s.sendGen e g) g
          (acOf w 2) rs)
        finish id

/-- FAB_SEND. -/
def execFabSend (id : Nat) (s : State) : Host.Outcome State Fault Refusal := .next (perform s (actFabSend id))

/-! ### Expert dispatch (R271 to R274, R276) -/

/-- An entry of the expert table (R271). -/
structure Expert where
  module : Nat
  base : Nat
  tags : Nat
  capacity : Nat
  pitch : Nat
  ac : Option Nat
  deriving DecidableEq, Repr

/-- Entry `e` of a table read whole. -/
def expertOf (table e : Nat) : Expert :=
  let w (k : Nat) : Nat := table / 2 ^ (256 * e + 64 * k) % 2 ^ 64
  { module := w 0 / 2 ^ 48, base := w 0 % 2 ^ 48, tags := w 1 % 2 ^ 48, capacity := w 2 / 2 ^ 40,
    pitch := w 2 / 2 ^ 24 % 2 ^ 16, ac := if w 2 / 2 ^ 15 % 2 = 1 then some (w 2 % 1024) else none }

/-- The reserved bits of entry `e` of a table are 0 (R271, R192). -/
def expertOk (table e : Nat) : Bool :=
  let w (k : Nat) : Nat := table / 2 ^ (256 * e + 64 * k) % 2 ^ 64
  w 1 / 2 ^ 48 = 0 && w 2 / 2 ^ 16 % 2 ^ 8 = 0 && w 2 / 2 ^ 10 % 2 ^ 5 = 0 && w 3 = 0

/-- The granules of `n` elements of a type, packed from a granule's first byte. -/
def rowGranules (t : ElemType) (n : Nat) : Nat := (n * t.bits + 511) / 512

/-- A type that rows are sent in (R272). -/
def rowType (code : Nat) : Option ElemType :=
  (ElemType.ofCode code).bind fun t => if t.isMx || t = .vote || t = .wx then none else some t

/-- The address of return row a (R272). -/
def retRow (ret a pr : Nat) : Nat := ret + a * pr * 64

/-- A tensor of rank 2. -/
def Tensor.isRows (t : Tensor) : Bool := t.rank = 2

/-- The body, records and table of COLL_DISPATCH (R271, R272) (DEDUCED, log entry 42). -/
def prepDispatch (e : Nat) (w : Descriptor) : Prep s₀ (List Nat) := do
  let n := body w 2 63 48
  demand (body w 3 63 48 = 0 && body w 5 30 27 = 0 && body w 5 15 0 = 0 && 1 ≤ n && n ≤ 4096 && body w 5 53 52 ≠ 3
    && body w 5 42 31 ≠ 0 && body w 2 47 0 % 64 = 0 && body w 3 47 0 % 64 = 0)
  let ret := body w 3 47 0
  demand (body w 5 26 26 = 0 || (match place ret with
    | .stack _ _ => false
    | _ => true))
  demand ((rowType (body w 5 63 59)).isSome && (rowType (body w 5 58 54)).isSome)
  let _ ← attempt (permitGroup e (body w 5 42 31))
  permitCounter ret (if body w 5 26 26 = 1 then some (body w 5 25 16) else none)
  let table ← attempt (readBlock (body w 2 47 0) ((n + 1) / 2))
  demand ((table.map fun t => (List.range n).all (expertOk t)).getD true)
  let withPos : Bool := body w 4 63 0 ≠ 0
  match ← readTensors ([body w 0 63 0, body w 1 63 0] ++ if withPos then [body w 4 63 0] else []) with
  | (rx, x) :: (rr, route) :: rest =>
    let d := x.extent 0
    demand (x.isRows && route.isRows && route.type = .int32 && route.extent 1 = x.extent 1)
    permitTensor x false
    permitTensor route false
    for p in rest do
      demand (p.2.isRows && p.2.type = .int32 && p.2.ext = route.ext)
      permitTensor p.2 true
    match rowType (body w 5 63 59), rowType (body w 5 58 54), table with
    | some dt, some rt, some t =>
      demand (x.type ≠ .wx || dt = .fp32)
      demand ((List.range n).all fun k => rowGranules dt d ≤ (expertOf t k).pitch)
      let rows := route.count * rowGranules rt d
      if rows ≠ 0 then permitBytes ret (ret + 64 * rows - 1)
      pure [rx, rr, (rest.map Prod.fst).headD 0, t]
    | _, _, _ => failure
  | _ => failure

/-- What an assignment resolves to (R273): −1, a fault, a slot of an expert, or a drop. -/
inductive Assigned where
  | nothing | fault | sent (expert slot : Nat) | dropped (expert : Nat)
  deriving DecidableEq, Repr

/-- Resolve assignments in order; `used` counts the earlier assignments to each expert (R273). -/
def assignAll (table n : Nat) : List (Nat × Nat) → List Int → List Assigned
  | _, [] => []
  | used, v :: vs =>
    if v = -1 then .nothing :: assignAll table n used vs
    else if v < 0 ∨ (n : Int) ≤ v then .fault :: assignAll table n used vs
    else
      let e := v.toNat
      let k := mapGet (fun _ => 0) used e
      (if k < (expertOf table e).capacity then .sent e k else .dropped e)
        :: assignAll table n (mapSet (fun _ => 0) used e (k + 1)) vs

/-- The transfers of a row of elements at an address: full granules, and the bytes of the last. -/
def rowReqs (a : Nat) (t : ElemType) (codes : List Nat) : List Req :=
  let n := codes.length * t.bits
  let v := codes.zipIdx.foldl (fun x c => x + c.1 * 2 ^ (t.bits * c.2)) 0
  (List.range ((n + 511) / 512)).map fun k =>
    ⟨a / 64 + k, BitVec.ofNat 512 (v / 2 ^ (512 * k)), BitVec.ofNat 512 (2 ^ (min 512 (n - 512 * k)) - 1)⟩

/-- Row `r` of a tensor of rows, converted (R273, R275): none where its reading meets poison. -/
def readRow (x : Tensor) (r : Nat) (t : ElemType) (rmode : Nat) (sat : Bool) (draw : Nat → Nat) :
    Work s₀ (Option (List Nat)) := do
  let es ← readStream x ((List.range (x.extent 0)).map fun j => some [j, r, 0, 0, 0])
  if (← get).stopped then pure none
  else
    let mut out : List Nat := []
    for (e, j) in es.zipIdx do
      if x.type = t then out := out ++ [e.1]
      else
        let (c, fl) := t.encode (if rmode = 2 then rmOf 2 (draw j) else rmOf rmode 0) sat (x.type.decode e.2 e.1)
        raiseFlags fl
        out := out ++ [c]
    pure (some out)

/-- The rows that a dispatch sends, in assignment order: (expert, slot, transfers); it stops where a row meets poison. -/
def dispatchRows (d : Slot) (e : Nat) (x : Tensor) (t : ElemType) (table k : Nat) :
    List (Nat × Assigned) → Work s₀ (List (Nat × Nat × List Req))
  | [] => pure []
  | (a, .sent ex n) :: rest => do
    let w := d.words
    match ← readRow x (a / k) t (body w 5 53 52) (body w 5 51 51 = 1)
        (fun j => d.draw (collTile e) (body w 5 50 43) (a * x.extent 0 + j)) with
    | none => pure []
    | some cs =>
      let ent := expertOf table ex
      let more ← dispatchRows d e x t table k rest
      pure ((ex, n, rowReqs (ent.base + n * ent.pitch * 64) t cs) :: more)
  | _ :: rest => dispatchRows d e x t table k rest

/-- The tag block of an entry (R273): the tags of filled slots, and unfilled ones (DEDUCED, log entry 42). -/
def tagReqs (ent : Expert) (tags : List (Nat × Nat)) (me : Nat) : List Req :=
  (List.range ((ent.capacity + 7) / 8)).map fun k =>
    ⟨ent.tags / 64 + k, BitVec.ofNat 512 ((List.range 8).foldl (fun a i =>
      let v := match tags.find? fun t => t.1 = 8 * k + i with
        | some t => me * 2 ^ 48 + t.2
        | none => 0xffff000000000000
      a + v * 2 ^ (64 * i)) 0), fullMask⟩

/-- Interleave the frames of several destinations: in each turn one frame to each that has some (R274). -/
def turns : Nat → List (List Sending) → List Sending
  | 0, _ => []
  | n + 1, ls => (ls.filterMap List.head?) ++ turns n (ls.map List.tail)

/-- Insert a number into an ascending list. -/
def insertAsc (v : Nat) (l : List Nat) : List Nat := setIns l v

/-- Rows of a destination in slot order. -/
def insertRow (r : Nat × Nat × List Req) : List (Nat × Nat × List Req) → List (Nat × Nat × List Req)
  | [] => [r]
  | x :: xs => if r.2.1 < x.2.1 then r :: x :: xs else x :: insertRow r xs

/-- The frames of a dispatch: rows by turns over the destinations in ascending ID, then the tag blocks of the entries
named, each behind its own rows. -/
def dispatchFrames (d : Slot) (me vl gen g table : Nat) (rows : List (Nat × Nat × List Req)) (named : List Nat)
    (tags : List (Nat × Nat × Nat)) : List Sending :=
  let mods := named.foldl (fun l e => insertAsc (expertOf table e).module l) []
  let mine (m : Nat) : List (Nat × Nat × List Req) :=
    (rows.filter fun r => (expertOf table r.1).module = m).foldl (fun l r => insertRow r l) []
  let perMod := mods.map fun m => (mine m).flatMap fun r =>
    (framesFor d.id (some d.atelier) r.1 m me vl gen g none r.2.2).map fun f => { f with batch := 0 }
  let longest := perMod.foldl (fun n l => max n l.length) 0
  let blocks := named.flatMap fun e =>
    let ent := expertOf table e
    (framesFor d.id (some d.atelier) e ent.module me vl gen g ent.ac
      (tagReqs ent ((tags.filter fun t => t.1 = e).map Prod.snd) me)).map fun f => { f with batch := 1 }
  turns longest perMod ++ blocks

/-- Write +0 into the granules of a return row (R273). -/
def zeroRow (a n : Nat) (ac : Option Nat) : Work s₀ Unit := do
  for k in List.range n do
    noteGot (← sendTo (a / 64 + k) 0 fullMask ac)

/-- COLL_DISPATCH's work on memory: the rows that it sends, in order; none where it sends nothing (DEDUCED, log entry
42). -/
def dispatchWork (d : Slot) (e : Nat) (members : List Nat) :
    Work s₀ (Option (List Assigned × List (Nat × Nat × List Req))) := do
  let w := d.words
  let x := d.tensor 0
  let route := d.tensor 1
  let table := d.recs.getD 3 0
  let n := body w 2 63 48
  match rowType (body w 5 63 59), rowType (body w 5 58 54) with
  | some dt, some rt =>
    let vs ← readStream route (route.indices.map some)
    if (← get).stopped then pure none
    else
      let as := assignAll table n [] (vs.map fun v => intOf 32 v.1)
      let named := as.filterMap fun a => match a with
        | .sent ex _ => some ex
        | .dropped ex => some ex
        | _ => none
      if named.any fun ex => !members.contains (expertOf table ex).module then
        arises .accessDenied 3
        pure none
      else
        let pr := rowGranules rt (x.extent 0)
        let ac := if body w 5 26 26 = 1 then some (body w 5 25 16) else none
        let mut faults : Nat := 0
        for (a, i) in as.zipIdx do
          match a with
          | .sent _ _ => pure ()
          | .fault =>
            if faults = 0 then arises .indexFault (min i 0xffffff)
            faults := faults + 1
            zeroRow (retRow (body w 3 47 0) i pr) pr ac
          | .dropped _ =>
            doing (countUp COLL_DISPATCH_DROP_COUNT 1 e)
            zeroRow (retRow (body w 3 47 0) i pr) pr ac
          | .nothing => zeroRow (retRow (body w 3 47 0) i pr) pr ac
        if d.recs.getD 2 0 ≠ 0 then
          let pos := d.tensor 2
          for (a, i) in as.zipIdx do
            putRaw pos (unravel pos.ext i) (match a with
              | .sent _ k => k
              | _ => 2 ^ 32 - 1)
          commitStaged none
        let rows ← dispatchRows d e x dt table (route.extent 0) (as.zipIdx.map fun p => (p.2, p.1))
        pure (some (as, rows))
  | _, _ => pure none

/-- COLL_DISPATCH, issued on a collective engine (R273, R274, R276). -/
def actCollDispatch (id : Nat) : Act s₀ Unit := do
  let s ← now
  match s.slot id with
  | none => pure ()
  | some d =>
    match d.on.bind engNo with
    | none => pure ()
    | some e =>
      let w := d.words
      let g := body w 5 42 31
      match s.groupSlot e g with
      | none => pure ()
      | some k =>
        if d.phase = .issued ∧ opcodeOf w = 0x45 then
          match ← runFor d (collEngine e) (dispatchWork d e (s.membersOf e k)) with
          | none => pure ()
          | some (as, rows) =>
            let table := d.recs.getD 3 0
            let sent := as.zipIdx.filterMap fun p => match p.1 with
              | .sent ex n => some (ex, n, p.2)
              | _ => none
            let x := d.tensor 0
            let pr := match rowType (body w 5 58 54) with
              | some rt => rowGranules rt (x.extent 0)
              | none => 0
            let named := as.foldl (fun l a => match a with
              | .sent ex _ => insertAsc ex l
              | .dropped ex => insertAsc ex l
              | _ => l) []
            -- where a row could not be read, the tags of no entry are sent
            let whole : Bool := rows.length = sent.length
            let tags := sent.map fun t => (t.1, t.2.1, retRow (body w 3 47 0) t.2.2 pr)
            let fs := dispatchFrames d s.moduleId (s.fld COLL_GROUP_ID_VL e k) (s.genOf e k) g table rows named tags
            postFrames id (if whole then fs else fs.filter fun f => f.batch = 0)
          finish id

/-- COLL_DISPATCH. -/
def execCollDispatch (id : Nat) (s : State) : Host.Outcome State Fault Refusal := .next (perform s (actCollDispatch id))

/-! ### Combine (R275, R276) -/

/-- The body and record of COLL_COMBINE. -/
def prepCombine (e : Nat) (w : Descriptor) : Prep s₀ (List Nat) := do
  demand (body w 1 63 48 = 0 && body w 2 63 24 = 0 && body w 3 35 16 = 0 && body w 3 14 10 = 0 && zeroFrom w 4
    && body w 3 58 57 ≠ 3 && body w 3 47 36 ≠ 0 && body w 1 47 0 % 64 = 0)
  let slots := body w 2 23 0
  demand (rowType (body w 3 63 59)).isSome
  let _ ← attempt (permitGroup e (body w 3 47 36))
  if slots ≠ 0 then permitBytes (body w 1 47 0) (body w 1 47 0 + 64 * ((slots + 7) / 8) - 1)
  match ← readTensors [body w 0 63 0] with
  | [(ry, y)] =>
    demand (y.isRows && slots ≤ y.extent 1 && (y.type ≠ .wx || rowType (body w 3 63 59) = some .fp32))
    permitTensor y false
    pure [ry]
  | _ => failure

/-- The tags of a block, read granule by granule until one is poisoned. -/
def readTags (a n : Nat) : Work s₀ (List Nat) := do
  let mut out : List Nat := []
  for k in List.range ((n + 7) / 8) do
    if !(← get).stopped then
      let v ← fetch (a / 64 + k)
      if !(← get).stopped then
        out := out ++ (List.range 8).map fun i => v.toNat / 2 ^ (64 * i) % 2 ^ 64
  pure (out.take n)

/-- The rows that a combine returns, in slot order: (module, transfers). -/
def combineRows (d : Slot) (e : Nat) (rt : ElemType) (members : List Nat) :
    List (Nat × Nat) → Work s₀ (List (Nat × List Req))
  | [] => pure []
  | (s, tag) :: rest => do
    let w := d.words
    let y := d.tensor 0
    let m := tag / 2 ^ 48
    if m = 0xffff then combineRows d e rt members rest
    else if !members.contains m then
      arises .accessDenied 3
      combineRows d e rt members rest
    else
      match ← readRow y s rt (body w 3 58 57) (body w 3 56 56 = 1)
          (fun j => d.draw (collTile e) (body w 3 55 48) (s * y.extent 0 + j)) with
      | none => pure []
      | some cs =>
        let more ← combineRows d e rt members rest
        pure ((m, rowReqs (tag % 2 ^ 48) rt cs) :: more)

/-- COLL_COMBINE, issued on a collective engine (R275, R276). -/
def actCollCombine (id : Nat) : Act s₀ Unit := do
  let s ← now
  match s.slot id with
  | none => pure ()
  | some d =>
    match d.on.bind engNo with
    | none => pure ()
    | some e =>
      let w := d.words
      let g := body w 3 47 36
      match s.groupSlot e g, rowType (body w 3 63 59) with
      | some k, some rt =>
        if d.phase = .issued ∧ opcodeOf w = 0x46 then
          let rows ← runFor d (collEngine e) do
            let tags ← readTags (body w 1 47 0) (body w 2 23 0)
            combineRows d e rt (s.membersOf e k) (tags.zipIdx.map fun p => (p.2, p.1))
          postFrames id (rows.flatMap fun r =>
            (framesFor d.id (some d.atelier) 0 r.1 s.moduleId (s.fld COLL_GROUP_ID_VL e k) (s.genOf e k) g (acOf w 3) r.2).map
              fun f => { f with batch := 0 })
          finish id
      | _, _ => pure ()

/-- COLL_COMBINE. -/
def execCollCombine (id : Nat) (s : State) : Host.Outcome State Fault Refusal := .next (perform s (actCollCombine id))

end Sys2Proof.Machine
end

