-- ==== Sys2Proof/Machine/Varnish.lean ====
section
/-! DEFINITION. The Varnish dies: segment tables, update programs, the two passes of an update, the norm exchange, step-count
agreement, pushes, and single accesses of a stack (R281 to R306, R313). -/

namespace Sys2Proof.Machine

variable {s₀ : State}

/-! ### Segments (R282 to R284) -/

/-- A segment of a die's shard. -/
structure Segment where
  group : Nat
  isLazy : Bool
  master : Nat
  wide : Bool
  votes : Nat
  momentum : Nat
  rowLen : Nat
  count : Nat
  rowStep : Nat
  touch : Nat
  deriving DecidableEq, Repr

/-- The segment of an entry of 64 bytes. -/
def segmentOf (e : Nat) : Segment :=
  let w := recWord e
  { group := w 0 / 2 ^ 57, isLazy := bit (w 0) 56, master := w 0 % 2 ^ 48, wide := bit (w 1) 48, votes := w 1 % 2 ^ 48,
    momentum := w 2 % 2 ^ 48, rowLen := w 3 / 2 ^ 40, count := w 3 % 2 ^ 40, rowStep := w 4 % 2 ^ 48, touch := w 5 }

/-- The entries of a table of `n`. -/
def tableEntries (table n : Nat) : List Nat := (List.range n).map fun k => table / 2 ^ (512 * k) % 2 ^ 512

/-- The fields of an entry, without its ranges and its touch record (R282, R283). -/
def segmentOk (e : Nat) : Bool :=
  let w := recWord e
  let g := segmentOf e
  w 0 / 2 ^ 48 % 2 ^ 8 = 0 && w 1 / 2 ^ 49 = 0 && w 2 / 2 ^ 48 = 0 && w 4 / 2 ^ 48 = 0 && w 6 = 0 && w 7 = 0
    && g.group ≤ 64 && !(g.isLazy && g.group ≠ 0) && g.count ≠ 0 && !(g.isLazy && g.rowLen = 0)
    && (g.isLazy || (g.rowLen = 0 && w 4 = 0 && w 5 = 0))
    && [g.master, g.votes, g.momentum, g.rowStep].all (· % 64 = 0)

/-- The rows of a lazy segment. -/
def Segment.rows (g : Segment) : Nat := if g.isLazy then (g.count + g.rowLen - 1) / g.rowLen else 0

/-- Its state ranges: first byte and length. -/
def Segment.ranges (g : Segment) : List (Nat × Nat) :=
  [(g.master, 4 * g.count), (g.votes, g.count * (if g.wide then 2 else 1)), (g.momentum, 4 * g.count)]
    ++ (if g.isLazy then [(g.rowStep, 4 * g.rows)] else [])

/-- No two of the ranges overlap. -/
def apart : List (Nat × Nat) → Bool
  | [] => true
  | (a, n) :: rest => rest.all (fun r => r.1 + r.2 ≤ a || a + n ≤ r.1) && apart rest

/-! ### Programs (R287 to R290) -/

/-- The selectors that an instruction of an update program reads. -/
def varSelectors (w : Nat) : List Nat := if iOp w = 0x1F then [iA w] else selectors w

/-- A selector of R287. -/
def varSelectorOk (s : Nat) : Bool := s < 0x13 || (0x18 ≤ s && s ≤ 0x24) || (0x30 ≤ s && s ≤ 0x34)

/-- An instruction's fields, without kinds (R288). -/
def varInstrOk (w : Nat) : Bool :=
  let op := iOp w
  (varSelectors w).all varSelectorOk &&
  (if op = 0x1F then iD w = 0 && w % 2 ^ 16 = 0
   else if op = 0x0E then w % 2 ^ 16 = 0
   else if op = 0x1E then iD w ≤ 1 && w % 2 ^ 16 = 0
   else if (1 ≤ op ∧ op ≤ 0x0C) then
     match formOf op with
     | some (.plain n) => (2 ≤ n || iB w = 0) && (3 ≤ n || iC w = 0) && iM w = 0
     | some .modified => iC w = 0 && iM w ≤ 3
     | _ => false
   else false)

/-- The kind of a selector of R287. -/
def varSelKind (ts : List Kind) (s : Nat) : Kind :=
  if s < 0x10 then ts.getD s .float else if s = 0x12 ∨ s = 0x23 ∨ s = 0x24 then .int else .float

/-- The kinds of an instruction (R140, R288, R289). -/
def varKinds (ts : List Kind) (w : Nat) : Bool × Kind :=
  let ks := (varSelectors w).map (varSelKind ts)
  match iOp w with
  | 0x01 => (true, ks.headD .float)
  | 0x0B => (ks.all (· = .float), .int)
  | 0x0C => (ks.take 1 = [.int] && ks[1]? = ks[2]?, ks.getD 1 .float)
  | 0x0E => (ks = [.int], .float)
  | _ => (ks.all (· = .float), .float)

/-- Every instruction's kinds are right. -/
def varKindsOk : List Kind → List Nat → Bool
  | _, [] => true
  | ts, w :: ws =>
    let r := varKinds ts w
    r.1 && varKindsOk (if iOp w = 0x1E ∨ iOp w = 0x1F then ts else ts.set (iD w) r.2) ws

/-- The instructions up to NORM, and those after it. -/
def beforeNorm (ps : List Nat) : List Nat := ps.takeWhile fun w => iOp w ≠ 0x1F
def afterNorm (ps : List Nat) : List Nat := ps.drop ((beforeNorm ps).length + 1)

/-- Pass 1's instructions and pass 2's (R289). -/
def pass1Of (ps : List Nat) : List Nat := ps.take ((beforeNorm ps).length + 1)
def pass2Of (ps : List Nat) : List Nat := ps.filter fun w => iOp w ≠ 0x1F

/-- A program that R289 allows. -/
def varProgramOk (ps : List Nat) : Bool :=
  let sts := (ps.filter fun w => iOp w = 0x1E).map iD
  ps.all varInstrOk && (ps.filter fun w => iOp w = 0x1F).length = 1
    && (beforeNorm ps).all (fun w => iOp w ≠ 0x1E)
    && (pass1Of ps).all (fun w => !(varSelectors w).contains 0x34)
    && sts.length = sts.eraseDups.length && varKindsOk (List.replicate 16 .float) ps

/-- `n` instruction words (R134's order). -/
def instrWords (v n : Nat) : List Nat := (List.range n).map fun k => v / 2 ^ (32 * k) % 2 ^ 32

/-- Pack instruction words. -/
def packWords (ps : List Nat) : Nat := ps.zipIdx.foldl (fun a x => a + x.1 % 2 ^ 32 * 2 ^ (32 * x.2)) 0

/-- Bytes of the die's own stack, of the atelier (R283, R290, R292) (DEDUCED, log entry 45). -/
def State.ownStack (s : State) (a n lo len : Nat) : Bool :=
  match place lo with
  | .stack k _ => k == n && s.allowed a lo (lo + len - 1)
  | _ => false

/-- They are (DEDUCED, log entry 45). -/
def permitOwn (n lo len : Nat) : Prep s₀ Unit := do
  let io ← OptionT.lift get
  let s ← OptionT.lift (doing now)
  permit (s.ownStack io.atelier n lo len)

/-- Read a span of the die's own stack, of the atelier. -/
def readOwnStack (n lo len : Nat) : Prep s₀ Nat := do
  let io ← OptionT.lift get
  let s ← OptionT.lift (doing now)
  permitRead (s.ownStack io.atelier n lo len)
  readSpan lo len

/-- The body of VAR_PROGRAM and its words (R290). -/
def prepVarProgram (n : Nat) (w : Descriptor) : Prep s₀ (List Nat) := do
  let k := body w 0 55 50
  let src := body w 0 47 0
  demand (body w 0 63 56 = 0 && zeroFrom w 1 && 2 ≤ k && k ≤ 32 && src % 64 = 0)
  let v ← readOwnStack n src (8 * ((k + 1) / 2))
  demand (varProgramOk (instrWords v k))
  pure [v]

/-- The descriptor in progress on an engine with an opcode. -/
def State.workingOp (s : State) (e : Engine) (op : Nat) : Option Slot :=
  s.slots.find? fun d => d.on = some e && d.phase = .issued && opcodeOf d.words = op

/-- The instruction count of a die's program slot. -/
def progCount : Nat → Fld
  | 0 => VAR_PROG_N0
  | 1 => VAR_PROG_N1
  | 2 => VAR_PROG_N2
  | _ => VAR_PROG_N3

/-- VAR_PROGRAM (R290). -/
def actVarProgram (n : DieNo) : Act s₀ Unit := do
  match (← now).workingOp (.die n) 0x53 with
  | none => pure ()
  | some d =>
    let k := body d.words 0 55 50
    let slot := body d.words 0 49 48
    changeVar fun v => { v with
      progs := mapSet (fun _ => []) v.progs (4 * n.val + slot) (instrWords (d.recs.getD 0 0) k) }
    setF (progCount slot) k n
    finish d.id

/-- VAR_PROGRAM. -/
def execVarProgram (n : DieNo) (s : State) : Host.Outcome State Fault Refusal := .next (perform s (actVarProgram n))

/-! ### Groups and scalars (R285, R286) -/

/-- Constant `k` of group `g`. -/
def groupConst (groups g k : Nat) : Val := fp32.decode (groups / 2 ^ (256 * g + 32 * k) % 2 ^ 32)

/-- The group records hold finite constants, and G3 is +0 or positive (R285). -/
def groupsOk (groups : Nat) : Bool :=
  (List.range 65).all fun g => (List.range 8).all (fun k => (groupConst groups g k).isFinite)
    && !(groupConst groups g 3).sign

/-- A whole number as FP32 under RNE. -/
def fp32Of (n : Nat) : Val × Flags := rounded fp32 (.ofInt n, 0)

/-- An SFU function at FP32. -/
def sfu32 (f : SfuFn) (x : Val) : Val × Flags := let r := sfuEval f fp32 x; (fp32.decode r.1, r.2)

/-- RC. -/
def scalarRc (c : Nat) : Val × Flags :=
  let x := fp32Of c
  let r := sfu32 .recip x.1
  (r.1, x.2 ||| r.2)

/-- DW1 of a group. -/
def scalarDw1 (groups g : Nat) : Val × Flags :=
  let p := rounded fp32 ((groupConst groups g 0).mul (groupConst groups g 1))
  let r := rounded fp32 ((Val.fin false 1 0).add p.1.neg)
  (r.1, p.2 ||| r.2)

/-- pow_int, for the bits of `n` below `k`, from the highest. -/
def powBits (x : Val) (n : Nat) : Nat → Val × Flags → Val × Flags
  | 0, r => r
  | k + 1, r =>
    let q := rounded fp32 (r.1.mul r.1)
    let p := if bit n k then rounded fp32 (q.1.mul x) else (q.1, 0)
    powBits x n k (p.1, r.2 ||| q.2 ||| p.2)

/-- pow_int (R286). -/
def powInt (x : Val) (n : Nat) : Val × Flags := powBits x n 32 (.fin false 1 0, 0)

/-- A nonfinite value, by a free choice. -/
def nonfinite (choice : Nat) : Val := [Val.nan, .inf false, .inf true].getD (choice % 3) .nan

/-- SCALE of a group from its global sum and count. That of an infinite sum is nonfinite (R295), where the formula of R286
would give +0: which nonfinite value it is, is a free value (DESIGN CHOICE, log entry 94). -/
def scalarScale (sum : Val) (n : Nat) (g3 : Val) (choice : Nat) : Val × Flags :=
  if n = 0 then (.fin false 0 0, 0)
  else if !sum.isFinite && !sum.isNan then (nonfinite choice, 0)
  else
    let c := fp32Of n
    let q := rounded fp32 (sum.div c.1)
    let x := rounded fp32 (q.1.add g3)
    let r := sfu32 .rsqrt x.1
    (r.1, c.2 ||| q.2 ||| x.2 ||| r.2)

/-! ### The program on one element (R287, R288) -/

/-- What an element's program reads; the master and the momentum with their codes. -/
structure VarElt where
  w : Val
  m : Val
  wCode : Nat
  mCode : Nat
  v : Int
  consts : List Val
  rc : Val
  db : Val
  dw : Val
  dw1 : Val
  scale : Val
  deriving DecidableEq, Repr

/-- The run of a program on one element: its temporaries, with the code of one that was only moved there, its NORM operand
and the codes that it stores. -/
structure VarLane where
  temps : List Elt := List.replicate 16 (.num (.fin false 0 0))
  codes : List (Option Nat) := List.replicate 16 none
  norm : Option Val := none
  stores : List (Nat × Nat) := []
  flags : Flags := 0
  deriving DecidableEq, Repr

/-- The value of a selector of R287. -/
def varSelValue (x : VarElt) (ts : List Elt) (s : Nat) : Elt :=
  if s < 0x10 then ts.getD s (.int 0)
  else match s with
    | 0x10 => .num x.w
    | 0x11 => .num x.m
    | 0x12 => .int x.v
    | 0x20 => .num (.fin false 0 0)
    | 0x21 => .num (.fin false 1 0)
    | 0x22 => .num (.fin true 1 0)
    | 0x23 => .int 0
    | 0x24 => .int 1
    | 0x30 => .num x.rc
    | 0x31 => .num x.db
    | 0x32 => .num x.dw
    | 0x33 => .num x.dw1
    | 0x34 => .num x.scale
    | _ => .num (x.consts.getD (s - 0x18) .nan)

/-- The code of a selector of R287 that holds a stored value unchanged: ST writes it bit for bit, a NaN among them
(R288). -/
def varSelCode (x : VarElt) (codes : List (Option Nat)) (s : Nat) : Option Nat :=
  if s < 0x10 then codes.getD s none
  else if s = 0x10 then some x.wCode
  else if s = 0x11 then some x.mCode
  else none

/-- The selector that MOV or SEL takes its value from unchanged. -/
def movedFrom (w : Nat) (xs : List Elt) : Option Nat :=
  let ss := varSelectors w
  if iOp w = 0x01 then ss[0]?
  else if iOp w = 0x0C then (if (xs.getD 0 (.int 0)).whole ≠ 0 then ss[1]? else ss[2]?)
  else none

/-- One instruction. -/
def varStep (x : VarElt) (l : VarLane) (w : Nat) : VarLane :=
  let xs := (varSelectors w).map (varSelValue x l.temps)
  let a := (xs.getD 0 (.int 0)).float
  match iOp w with
  | 0x1F => { l with norm := some a }
  | 0x1E => { l with stores := l.stores ++ [(iD w, (varSelCode x l.codes (iA w)).getD (code32 a))] }
  | _ =>
    let r := aluOp (parseBlock 0) w 0 xs
    { l with
      temps := l.temps.set (iD w) r.1
      codes := l.codes.set (iD w) ((movedFrom w xs).bind (varSelCode x l.codes))
      flags := l.flags ||| r.2 }

/-- The instructions of a pass on one element. -/
def varLane (x : VarElt) (ps : List Nat) : VarLane := ps.foldl (varStep x) {}

/-! ### VAR_UPDATE at issue (R292, R293) -/

/-- DETAIL of a refusal while the die is held: the module and die of the hold, with cause 3 (R296) (DEDUCED, log entry
44). -/
def heldDetail (detail : Nat) : Nat := detail / 16 * 16 + 3

/-- The checks of a segment table, with the touch records that its entries name; 0 for an entry that names none (R283,
R285). -/
def updateTouches (n t segs : Nat) : Prep s₀ (List Nat) := do
  let gs := (tableEntries t segs).map segmentOf
  demand ((tableEntries t segs).all segmentOk && apart (gs.flatMap Segment.ranges))
  for r in gs.flatMap Segment.ranges do
    permitOwn n r.1 r.2
  let mut touches : List Nat := []
  for x in gs do
    if x.touch = 0 then touches := touches ++ [0]
    else
      permitOwn n x.touch 128
      match ← attempt (readTensors [x.touch]) with
      | some [(r, rec)] =>
        demand (rec.type = .int32 && rec.count = x.rows)
        match rec.interval false with
        | some (lo, hi) => permitOwn n lo (hi - lo + 1)
        | none => pure ()
        touches := touches ++ [r]
      | _ => pure ()
  pure touches

/-- The body, table, groups, record and program of VAR_UPDATE: C, the table, the groups, the program's words and count,
and the touch records by segment (0 for none) (DEDUCED, log entry 44). -/
def prepVarUpdate (n : Nat) (w : Descriptor) : Prep s₀ (List Nat) := do
  let s ← OptionT.lift (doing now)
  let io ← OptionT.lift get
  if s.on VAR_STATUS_HELD n then
    failWith .stepSkew (heldDetail (mapGet (fun _ => 0) s.units.var.holds n))
  let segs := body w 0 63 51
  let table := body w 0 47 0
  let groups := body w 1 47 0
  let cnt := body w 2 47 0
  let set := body w 3 15 0
  let group := body w 4 11 0
  let prog := mapGet (fun _ => []) s.units.var.progs (4 * n + body w 1 49 48)
  demand (body w 0 50 48 = 0 && body w 1 63 50 = 0 && body w 2 63 48 = 0 && body w 4 63 12 = 0 && zeroFrom w 5)
  demand (1 ≤ segs && segs ≤ 4096 && table % 64 = 0 && groups % 64 = 0 && cnt % 8 = 0 && !prog.isEmpty && bit set n)
  permit ((List.range 16).all fun k => !bit set k || s.dieOwner k = some io.atelier)
  permit (group = 0 || (List.range 2).any fun e => match s.groupSlot e group with
    | some k => s.fld COLL_GROUP_ID_ATELIER e k = io.atelier
    | none => false)
  let t ← attempt (readOwnStack n table (64 * segs))
  let touches ← match t with
    | some t => updateTouches n t segs
    | none => pure []
  let g ← attempt (readOwnStack n groups 2080)
  demand ((g.map groupsOk).getD true)
  let c ← if cnt = 0 then pure (body w 3 63 32) else do
    let v ← readOwnStack n cnt 8
    pure (v % 2 ^ 32)
  sound
  match t, g with
  | some t, some g =>
    if c = 0 then failWith .emptyReduce 0
    else pure ([c, t, g, packWords prog, prog.length] ++ touches)
  | _, _ => failure

/-- An update as its descriptor read it at issue. -/
structure Update where
  c : Nat
  segs : List (Segment × Option Tensor)
  groups : Nat
  prog : List Nat
  deriving DecidableEq, Repr

/-- The update of a descriptor. -/
def Slot.update (d : Slot) : Update :=
  let n := body d.words 0 63 51
  let r (k : Nat) : Nat := d.recs.getD k 0
  { c := r 0
    segs := (tableEntries (r 1) n).zipIdx.map fun e =>
      let g := segmentOf e.1
      (g, if g.touch = 0 then none else some (d.tensor (5 + e.2)))
    groups := r 2
    prog := instrWords (r 3) (r 4) }

/-! ### A pass (R284, R286, R289, R293, R294) -/

/-- Lane accumulators by 256·group + lane, and counts by group. -/
structure Sums where
  lanes : List (Nat × Option Val) := []
  counts : List Nat := List.replicate 65 0
  elements : Nat := 0
  deriving DecidableEq, Repr

/-- A NORM operand of group `g` in lane `l`. -/
def Sums.add (a : Sums) (g l : Nat) (x : Val) : Sums × Flags :=
  let old := (mapGet (fun _ => none) a.lanes (256 * g + l)).getD (.fin false 0 0)
  let r := fma32 x x old
  ({ a with lanes := mapSet (fun _ => none) a.lanes (256 * g + l) (some r.1)
            counts := a.counts.set g (a.counts.getD g 0 + 1) }, r.2)

/-- The die sum of a group (R294). -/
def Sums.die (a : Sums) (g : Nat) : Option Val × Flags :=
  halvings (redOp 0) 11 ((List.range 256).map fun l => mapGet (fun _ => none) a.lanes (256 * g + l)) 0

/-- What the rows of a pass have in common: the pass, K, the instructions, whether they read the masters, and the scalars
by group. -/
structure Pass where
  second : Bool
  k : Nat
  groups : Nat
  instrs : List Nat
  masters : Bool
  rc : Val
  dw1 : List Val
  scales : List Val
  deriving DecidableEq, Repr

/-- One processed element: read its state, run the program, and stage what it stores (DEDUCED, log entry 44). -/
def passElement (p : Pass) (g : Segment) (db dw : Val) (i e : Nat) (a : Sums) : Work s₀ Sums := do
  let width := if g.wide then 16 else 8
  let v ← readBits (8 * g.votes + width * i) width
  let m ← readBits (8 * g.momentum + 32 * i) 32
  let w ← if p.masters then readBits (8 * g.master + 32 * i) 32 else pure 0
  if (← get).stopped then pure a
  else
    let x : VarElt := { w := fp32.decode w, m := fp32.decode m, wCode := w, mCode := m, v := intOf width v
                        consts := (List.range 8).map (groupConst p.groups g.group)
                        rc := p.rc, db := db, dw := dw, dw1 := p.dw1.getD g.group .nan, scale := p.scales.getD g.group .nan }
    let l := varLane x p.instrs
    raiseFlags l.flags
    for (d, y) in l.stores do
      writeBits (8 * (if d = 0 then g.master else g.momentum) + 32 * i) 32 y
    let a := { a with elements := a.elements + 1 }
    match l.norm with
    | some y => do
      let r := a.add g.group (e % 256) y
      raiseFlags r.2
      pure r.1
    | none => pure a

/-- The elements of a row, or of a whole segment: `n` elements from element `i`; `base` is the segment's first shard
index. -/
def passElements (p : Pass) (g : Segment) (db dw : Val) (base i n : Nat) (a : Sums) : Work s₀ Sums := do
  let mut acc := a
  for k in List.range n do
    if !(← get).stopped then
      acc ← passElement p g db dw (i + k) (base + i + k) acc
  pure acc

/-- DB or DW of a lazy row, with its flags raised. -/
def rowScalar (x : Val) (n : Nat) : Work s₀ Val := do
  let r := powInt x n
  raiseFlags r.2
  pure r.1

/-- One row of a lazy segment (R284, R286, R293). Pass 1 counts untouched rows and rows ahead of K (DEDUCED, log entry
44). -/
def passRow (n : Nat) (p : Pass) (g : Segment) (touch : Option Tensor) (base j : Nat) (a : Sums) : Work s₀ Sums := do
  let touched ← match touch with
    | none => pure true
    | some t => do
      let x ← getElt t (unravel t.ext j)
      pure (x.whole ≠ 0 : Bool)
  if (← get).stopped then pure a
  else if !touched then
    if !p.second then doing (countUp VAR_LAZY_SKIP_COUNT 1 n)
    pure a
  else
    let step ← readBits (8 * g.rowStep + 32 * j) 32
    if (← get).stopped then pure a
    else
      let delta := sdiff p.k step 32
      if delta < 0 ∧ !p.second then doing (countUp VAR_ROW_AHEAD_COUNT 1 n)
      let db ← rowScalar (groupConst p.groups g.group 2) delta.toNat
      let dw ← rowScalar (p.dw1.getD g.group .nan) delta.toNat
      let first := j * g.rowLen
      let acc ← passElements p g db dw base first (min g.rowLen (g.count - first)) a
      if p.second ∧ !(← get).stopped then writeBits (8 * g.rowStep + 32 * j) 32 (p.k + 1)
      pure acc

/-- The segments of a pass, in table order; `base` is the shard index of the next element. -/
def passSegments (n : Nat) (p : Pass) : Nat → List (Segment × Option Tensor) → Sums → Work s₀ Sums
  | _, [], a => pure a
  | base, (g, touch) :: rest, a => do
    let mut acc := a
    if g.isLazy then
      for j in List.range g.rows do
        if !(← get).stopped then
          acc ← passRow n p g touch base j acc
    else
      acc ← passElements p g (.fin false 1 0) (.fin false 1 0) base 0 g.count acc
    if (← get).stopped then pure acc else passSegments n p (base + g.count) rest acc

/-- A pass of an update on die `n` (R293). The scalars of R286 raise the flags of their roundings. Its lane beats are an
instruction's for every 256 processed elements (R302, R404). -/
def runPass (n : Nat) (u : Update) (k : Nat) (second : Bool) (scales : List Val) : Work s₀ Sums := do
  let instrs := if second then pass2Of u.prog else pass1Of u.prog
  let rc := scalarRc u.c
  raiseFlags rc.2
  let dw1 := (List.range 65).map (scalarDw1 u.groups)
  for x in u.segs do
    raiseFlags (dw1.getD x.1.group (.nan, 0)).2
  let a ← passSegments n { second := second, k := k, groups := u.groups, instrs := instrs
                           masters := second || instrs.any fun w => (varSelectors w).contains 0x10
                           rc := rc.1, dw1 := dw1.map Prod.fst, scales := scales } 0 u.segs {}
  doing (uncore 0 n 0x01 (instrs.length * ((a.elements + 255) / 256)))
  pure a

/-- VAR_UPDATE: pass 1 of the update that has issued on the die. -/
def actVarUpdate (n : DieNo) : Act s₀ Unit := do
  let s ← now
  match s.workingOp (.die n) 0x50 with
  | none => pure ()
  | some d =>
    if s.units.var.runs.all fun r => r.slot ≠ d.id then
      let k := s.fld VAR_STEP_K n
      let (sums, bad) ← runFor d (.die n) do
        let a ← runPass n d.update k false []
        let rs := (List.range 65).map a.die
        for r in rs do raiseFlags r.2
        let io ← get
        pure ((rs.map fun r => (r.1.map code32).getD 0, a.counts), io.stopped)
      changeVar fun v => { v with
        runs := v.runs ++ [{ die := n, slot := d.id, sums := sums.1, counts := sums.2, fault := bad }] }

/-- VAR_UPDATE. -/
def execVarUpdate (n : DieNo) (s : State) : Host.Outcome State Fault Refusal := .next (perform s (actVarUpdate n))

/-! ### The exchange (R293 to R296) -/

/-- The update in progress on a die. -/
def State.varRun (s : State) (n : Nat) : Option VarRun := s.units.var.runs.find? fun r => r.die = n

/-- Change the update of a descriptor. -/
def withVarRun (id : Nat) (f : VarRun → VarRun) : Act s₀ Unit :=
  changeVar fun v => { v with runs := v.runs.map fun r => if r.slot = id then f r else r }

/-- USEQ, SET and GROUP of VAR_UPDATE. -/
def useqOf (w : Descriptor) : Nat := body w 3 31 16
def setOf (w : Descriptor) : Nat := body w 3 15 0
def normGroup (w : Descriptor) : Nat := body w 4 11 0

/-- VAR_PASS1_END: the die reports to the exchange unit of the engine that holds GROUP, or of Y0 (R293, R296) (DEDUCED,
log entry 45). -/
def actVarPass1End (n : DieNo) : Act s₀ Unit := do
  let s ← now
  match s.varRun n with
  | none => pure ()
  | some r =>
    match s.slot r.slot with
    | none => pure ()
    | some d =>
      if r.phase = 1 then
        let w := d.words
        let rep : Report := ⟨n, r.slot, s.fld VAR_STEP_K n, r.fault, r.sums, r.counts⟩
        match if normGroup w = 0 then some 0 else (s.groupAt (normGroup w)).map Prod.fst with
        | none => endVarRun r.slot .genStale 0
        | some e =>
          match s.units.var.exchanges.find? fun x => x.eng = e with
          | none =>
            changeVar fun v => { v with exchanges := v.exchanges ++ [⟨e, useqOf w, setOf w, normGroup w, [rep], none, []⟩] }
            withVarRun r.slot fun x => { x with phase := 2 }
          | some x =>
            if x.useq = useqOf w ∧ x.set = setOf w ∧ x.group = normGroup w ∧ x.record.isNone then
              withExchange e fun y => { y with reports := y.reports ++ [rep] }
              withVarRun r.slot fun y => { y with phase := 2 }
            else endVarRun r.slot .accessDenied 3

/-- VAR_PASS1_END. -/
def execVarPass1End (n : DieNo) (s : State) : Host.Outcome State Fault Refusal := .next (perform s (actVarPass1End n))

/-- FP32 addition of two sums; one without a term is absent (R294). -/
def addSums (a b : Option Val) : Option Val := (combine (redOp 0) a b).1

/-- A sum of a record, absent where its count is 0. -/
def sumOf (code n : Nat) : Option Val := if n = 0 then none else some (fp32.decode code)

/-- A module record of 832 bytes (R294). -/
def moduleRecord (sums counts : List Nat) (die : Nat) (fault skew : Bool) (useq k : Nat) : Nat :=
  let at4 := (sums.take 65).zipIdx.foldl (fun a x => a + x.1 % 2 ^ 32 * 2 ^ (32 * x.2)) 0
  let at8 := (counts.take 65).zipIdx.foldl (fun a x => a + x.1 % 2 ^ 64 * 2 ^ (64 * x.2)) 0
  at4 + at8 * 2 ^ (8 * 0x108)
    + (die % 16 * 2 ^ 54 + (if fault then 2 ^ 49 else 0) + (if skew then 2 ^ 48 else 0) + useq % 2 ^ 16 * 2 ^ 32 + k % 2 ^ 32)
      * 2 ^ (8 * 0x310)

/-- Fields of a module record. -/
def recSum (r g : Nat) : Nat := r / 2 ^ (32 * g) % 2 ^ 32
def recCount (r g : Nat) : Nat := r / 2 ^ (8 * 0x108 + 64 * g) % 2 ^ 64
def recDie (r : Nat) : Nat := r / 2 ^ (8 * 0x310 + 54) % 16
def recFault (r : Nat) : Bool := bit r (8 * 0x310 + 49)
def recSkew (r : Nat) : Bool := bit r (8 * 0x310 + 48)
def recUseq (r : Nat) : Nat := r / 2 ^ (8 * 0x310 + 32) % 2 ^ 16
def recK (r : Nat) : Nat := r / 2 ^ (8 * 0x310) % 2 ^ 32

/-- The dies of a SET, ascending. -/
def diesOf (set : Nat) : List Nat := (List.range 16).filter (bit set)

/-- The report of a die. -/
def Exchange.of (x : Exchange) (n : Nat) : Option Report := x.reports.find? fun r => r.die = n

/-- Every die of SET has reported, or has failed (R293, R315). -/
def State.allReported (s : State) (x : Exchange) : Bool :=
  (diesOf x.set).all fun n => (x.of n).isSome || s.dieFailed n

/-- The module record of an exchange (R294, R315): K of the lowest-numbered die; FAULT's die before SKEW's. -/
def State.recordOf (s : State) (x : Exchange) : Nat :=
  let ds := diesOf x.set
  let kOf (n : Nat) : Nat := match x.of n with
    | some r => r.k
    | none => s.fld VAR_STEP_K n
  let k := kOf (ds.headD 0)
  let faulty := ds.find? fun n => match x.of n with
    | some r => r.fault
    | none => true
  let skewed := ds.find? fun (n : Nat) => (x.of n).isSome && kOf n != k
  let reps := ds.filterMap x.of
  let sum (g : Nat) : Option Val :=
    reps.foldl (fun a r => addSums a (sumOf (r.sums.getD g 0) (r.counts.getD g 0))) none
  moduleRecord ((List.range 65).map fun g => ((sum g).map code32).getD 0)
    ((List.range 65).map fun g => reps.foldl (fun a r => a + r.counts.getD g 0) 0)
    ((match faulty with
      | some n => some n
      | none => skewed).getD 0) faulty.isSome skewed.isSome x.useq k

/-- The 832 bytes of a record (DEDUCED, log entry 43). -/
def recordBytes (r : Nat) : List Nat := (List.range 832).map fun k => r / 256 ^ k % 256

/-- EXCHANGE_MODULE_RECORD: the record is formed, and the gather of the members' records starts: an all-gather of 832
bytes from each (R293) (DEDUCED, log entry 43). -/
def actExchangeModuleRecord (e : Nat) : Act s₀ Unit := do
  let s ← now
  match s.units.var.exchanges.find? fun x => x.eng = e with
  | none => pure ()
  | some x =>
    if x.record.isNone && s.allReported x then
      let r := s.recordOf x
      withExchange e fun y => { y with record := some r }
      if x.group = 0 then pure ()
      else match s.groupSlot e x.group, x.reports.head? with
        | some k, some rep =>
          let members := s.membersOf e k
          let seq := s.fld COLL_GROUP_ID_SEQ e k
          setF COLL_GROUP_ID_SEQ (seq + 1) e k
          let n := 832 * members.length
          let c : Coll := { eng := e, slot := rep.slot, group := x.group, gen := s.genOf e k, seq := seq
                            sig := 0x43 * 2 ^ 24 + 8 * 2 ^ 19 + n % 2 ^ 16, members := members
                            rank := s.fld COLL_GROUP_SIZE_RANK e k, count := n, terms := recordBytes r, exch := true }
          changeFab fun u => { u with colls := u.colls ++ [{ c with owe := if c.size = 1 then 0 else c.duties }] }
          match s.slot rep.slot with
          | some d => startColl c d
          | none => pure ()
          let mine ← takeStaged c
          drainStaged rep.slot mine
          settleColl rep.slot
        | _, _ => pure ()

/-- EXCHANGE_MODULE_RECORD. -/
def execExchangeModuleRecord (e : EngNo) (s : State) : Host.Outcome State Fault Refusal :=
  .next (perform s (actExchangeModuleRecord e))

/-- The records of all members with their module IDs, in rank order, once all are here. -/
def State.gatheredRecords (s : State) (x : Exchange) : Option (List (Nat × Nat)) :=
  match x.record with
  | none => none
  | some own =>
    if x.group = 0 then some [(s.moduleId, own)]
    else match s.groupSlot x.eng x.group with
      | none => none
      | some k =>
        let ms := s.membersOf x.eng k
        if (List.range (832 * ms.length)).all fun b => mapGet (fun _ => 256) x.gathered b < 256 then
          some (ms.zipIdx.map fun m =>
            (m.1, (List.range 832).foldl (fun a b => a + mapGet (fun _ => 256) x.gathered (832 * m.2 + b) * 256 ^ b) 0))
        else none

/-- What holds the update: the DETAIL of R296 and the K of the record that caused it (DEDUCED, log entry 44). -/
def holdCause (rs : List (Nat × Nat)) : Option (Nat × Nat) :=
  let k0 := recK ((rs.head?.map Prod.snd).getD 0)
  (rs.find? fun r => recFault r.2 || recSkew r.2 || recK r.2 ≠ k0).map fun r =>
    (r.1 % 2 ^ 16 * 256 + (if recFault r.2 ∨ recSkew r.2 then recDie r.2 * 16 else 0) + (if recFault r.2 then 2 else 1),
     recK r.2)

/-- A die is held (R296). -/
def holdDie (n detail k : Nat) : Act s₀ Unit := do
  setF VAR_STATUS_HELD 1 n
  setF VAR_STATUS_HELD_CAUSE (detail % 16) n
  logFirst VAR_SKEW_LOG_VALID VAR_SKEW_LOG_OVERRUN n do
    setF VAR_SKEW_LOG_CAUSE (detail % 16) n
    setF VAR_SKEW_LOG_DIE (detail / 16 % 16) n
    setF VAR_SKEW_LOG_MODULE (detail / 256) n
    setF VAR_SKEW_LOG_K_SEEN k n
  changeVar fun v => { v with holds := mapSet (fun _ => 0) v.holds n detail }

/-- A die takes the global sums and counts and forms its scales (R286, R295). -/
def takeGlobal (r : Report) (sums : List (Option Val)) (counts : List Nat) : Act s₀ Unit := do
  match (← now).slot r.slot with
  | none => pure ()
  | some d =>
    let u := d.update
    let i ← freeIndex
    let scales := (List.range 65).map fun g =>
      scalarScale ((sums.getD g none).getD (.fin false 0 0)) (counts.getD g 0) (groupConst u.groups g 3)
        ((Config.freeWord i).toNat / 3 ^ g)
    let bad := sums.any fun x => match x with
      | some v => !v.isFinite
      | none => false
    each (List.range 65) fun g => do
      setF VAR_NORM_SCALE (code32 (scales.getD g (.nan, 0)).1) r.die g
      setF VAR_NORM_S (((sums.getD g none).map code32).getD 0) r.die g
    if bad then raise VAR_STATUS_NORM_NONFINITE r.die
    runFor d (.die (Fin.ofNat 16 r.die))
      (raiseFlags (scales.foldl (fun a x => a ||| x.2) (if bad then flagInvalid else 0)))
    withVarRun r.slot fun x => { x with phase := 3, scales := scales.map fun y => code32 y.1 }

/-- EXCHANGE_GATHER_COMPLETE (R293 steps 4 and 5, R295, R296). -/
def actExchangeGatherComplete (e : Nat) : Act s₀ Unit := do
  let s ← now
  match s.units.var.exchanges.find? fun x => x.eng = e with
  | none => pure ()
  | some x =>
    match s.gatheredRecords x with
    | none => pure ()
    | some rs =>
      if rs.any fun r => recUseq r.2 ≠ x.useq then endExchange x .accessDenied 3
      else
        match holdCause rs with
        | some (detail, k) => do
          each x.reports fun r => holdDie r.die detail k
          endExchange x .stepSkew detail
        | none => do
          let sums := (List.range 65).map fun g =>
            rs.foldl (fun a r => addSums a (sumOf (recSum r.2 g) (recCount r.2 g))) none
          let counts := (List.range 65).map fun g => rs.foldl (fun a r => a + recCount r.2 g) 0
          each x.reports fun r => takeGlobal r sums counts
          changeVar fun v => { v with exchanges := v.exchanges.filter fun y => y.eng ≠ e }

/-- EXCHANGE_GATHER_COMPLETE. -/
def execExchangeGatherComplete (e : EngNo) (s : State) : Host.Outcome State Fault Refusal :=
  .next (perform s (actExchangeGatherComplete e))

/-! ### Pass 2 (R293, R299, R301, R326) -/

/-- The stack that an address lies in. -/
def stackOf (a : Nat) : Option Nat :=
  match place a with
  | .stack n _ => some n
  | _ => none

/-- A fixative copy has latched and not yet read the ranges of its manifest on die `n` (R326). -/
def State.fixativeHolds (s : State) (n : Nat) : Bool :=
  s.units.fail.jobs.any fun j => j.kind ≤ 3 && j.step < 2 && j.manifest.any fun r => stackOf r.1 = some n

/-- Pass 2 of an update has begun: the scales are formed and no copy holds it back (R293, R326). -/
def State.inPass2 (s : State) (r : VarRun) : Bool := r.phase = 3 && !s.fixativeHolds r.die

/-- The change map of a die, where CHG_BASE lies with the whole map in the die's own stack (R301) (DEDUCED, log entry
45). -/
def State.changeMap (s : State) (n : Nat) : Option Nat :=
  let b := s.fld VAR_CHG_BASE_ADDR n
  if b ≠ 0 ∧ b % 64 = 0 ∧ stackOf b = some n ∧ stackOf (b + 73727) = some n then some b else none

/-- The bit of a block in a change map: its granule, and the bit. -/
def mapBit (base b : Nat) : Nat × Granule := (base / 64 + b / 512, BitVec.ofNat 512 (2 ^ (b % 512)))

/-- Commit a pass's writes and set the blocks' bits in the change map (R301). -/
def commitPass (n : Nat) : Work s₀ Unit := do
  let gs := (← get).stage.map Req.g
  commitStaged none
  match (← doing now).changeMap n with
  | none => pure ()
  | some base =>
    for b in (gs.map fun g => (64 * g - stackBase n) / 0x10000).eraseDups do
      let (g, m) := mapBit base b
      noteGot (← sendTo g m m none)

/-- VAR_PASS2_END: pass 2 runs and its writes commit; K advances unless a read or write met an uncorrectable error. -/
def actVarPass2End (n : DieNo) : Act s₀ Unit := do
  let s ← now
  match s.varRun n with
  | none => pure ()
  | some r =>
    match s.slot r.slot with
    | none => pure ()
    | some d =>
      if s.inPass2 r then
        let k := s.fld VAR_STEP_K n
        let bad ← runFor d (.die n) do
          let _ ← runPass n d.update k true (r.scales.map fp32.decode)
          commitPass n
          let io ← get
          pure (io.stopped || io.arose.any fun x => x.1 = .eccUncorr)
        if !bad then setF VAR_STEP_K (k + 1) n
        withVarRun r.slot fun x => { x with phase := 4 }
        finish r.slot

/-- VAR_PASS2_END. -/
def execVarPass2End (n : DieNo) (s : State) : Host.Outcome State Fault Refusal := .next (perform s (actVarPass2End n))

/-! ### VAR_STATE (R296, R297) -/

/-- The body of VAR_STATE. -/
def prepVarState (w : Descriptor) : Prep s₀ (List Nat) := do
  demand (body w 0 63 33 = 0 && zeroFrom w 1 && (body w 0 32 32 = 0 || body w 0 31 0 = 0))
  pure []

/-- A die's hold ends (DEDUCED, log entry 45). -/
def clearHold (n : Nat) : Act s₀ Unit := do
  setF VAR_STATUS_HELD 0 n
  setF VAR_STATUS_HELD_CAUSE 0 n
  changeVar fun v => { v with holds := mapSet (fun _ => 0) v.holds n 0 }

/-- K takes a value and HELD clears (R296). -/
def setStep (n k : Nat) : Act s₀ Unit := do
  setF VAR_STEP_K k n
  clearHold n

/-- VAR_STATE with one of its OPs. -/
def actVarState (op : Nat) (n : DieNo) : Act s₀ Unit := do
  let s ← now
  match s.slots.find? fun d => d.on = some (.die n) && d.phase = .issued && opcodeOf d.words = 0x52
      && body d.words 0 32 32 = op with
  | none => pure ()
  | some d =>
    if op = 0 then setStep n (body d.words 0 31 0) else clearHold n
    finish d.id

/-- VAR_STATE SET_STEP. -/
def execVarStateSetStep (n : DieNo) (s : State) : Host.Outcome State Fault Refusal := .next (perform s (actVarState 0 n))
/-- VAR_STATE RELEASE. -/
def execVarStateRelease (n : DieNo) (s : State) : Host.Outcome State Fault Refusal := .next (perform s (actVarState 1 n))

/-! ### VAR_PUSH (R303, R304) -/

/-- Word `k` of a push entry of 32 bytes. -/
def entryWord (list i k : Nat) : Nat := list / 2 ^ (256 * i + 64 * k) % 2 ^ 64

/-- AC of a push entry. -/
def entryAc (list i : Nat) : Option Nat :=
  let w := entryWord list i 2
  if bit w 15 then some (w % 2 ^ 10) else none

/-- The reserved bits of a push entry. -/
def entryOk (list i : Nat) : Bool := entryWord list i 2 / 2 ^ 16 = 0 && entryWord list i 2 / 2 ^ 10 % 2 ^ 5 = 0
  && entryWord list i 3 = 0

/-- The destination of a push lies in a palette. -/
def pushTarget (t : Tensor) : Bool :=
  let ok (a : Nat) : Bool := match place a with
    | .palette _ _ => true
    | _ => false
  match t.interval true with
  | some (lo, hi) => ok lo && ok hi
  | none => ok t.base

/-- The records of the entries of a push: source and destination of each (R304). -/
def pushRecords (n list : Nat) : Nat → Nat → Prep s₀ (List Nat)
  | 0, _ => pure []
  | k + 1, i => do
    demand (entryOk list i)
    let mine ← attempt (readTensors [entryWord list i 0, entryWord list i 1])
    match mine with
    | some [(_, src), (_, dst)] =>
      demand (src.type = .fp32 && dst.type ≠ .vote && dst.type ≠ .wx && pairAllowed src.type dst && src.count = dst.count)
      demand (pushTarget dst && (match src.interval false with
        | some (lo, hi) => stackOf lo = some n && stackOf hi = some n
        | none => true))
      permitTensor src false
      permitTensor dst true
      permitCounter (dst.home true) (entryAc list i)
    | _ => pure ()
    let rest ← pushRecords n list k (i + 1)
    pure ((mine.getD []).map Prod.fst ++ rest)

/-- The body, list and records of VAR_PUSH (R303, R304) (DEDUCED, log entry 45). -/
def prepVarPush (n : Nat) (w : Descriptor) : Prep s₀ (List Nat) := do
  let entries := body w 0 63 48
  let list := body w 0 47 0
  demand (body w 1 63 35 = 0 && body w 1 23 0 = 0 && zeroFrom w 2 && body w 1 33 32 ≠ 3 && 1 ≤ entries && list % 64 = 0)
  let v ← readOwnStack n list (32 * entries)
  let rs ← pushRecords n v entries 0
  pure (v :: rs)

/-- Commit a push entry's transfers; committed granules are counted (R304). -/
def commitPush (n : Nat) (ac : Option Nat) : Work s₀ Unit := do
  let io ← get
  modify fun io => { io with stage := [] }
  for r in transfers io.stage.reverse do
    let e ← sendTo r.g r.data r.mask ac
    if e = .ok then
      doing (countUp VAR_PUSHED_COUNT 1 n)
      doing (uncore 0 n 0x03 1)
    else arises e.status.1 e.status.2

/-- VAR_PUSH: the entries in list order; one that meets poison stops the push (R79, R304). -/
def pushWork (n : Nat) (d : Slot) : Work s₀ Unit := do
  let list := d.recs.getD 0 0
  for i in List.range (body d.words 0 63 48) do
    if !(← get).stopped then
      let src := d.tensor (1 + 2 * i)
      let dst := d.tensor (2 + 2 * i)
      if dst.count ≠ 0 then
        let c : Conv := ⟨body d.words 1 33 32, body d.words 1 34 34 = 1, body d.words 1 31 24, 0x50 + n, d⟩
        let ms := copyMoves src dst
        let xs ← readStream src (ms.map Move.src)
        putMoves c src dst ms false xs
        commitPush n (entryAc list i)

/-- VAR_PUSH. -/
def execVarPush (n : DieNo) (s : State) : Host.Outcome State Fault Refusal :=
  .next (perform s (wholeRun (.die n) [0x51] (pushWork n)))

/-! ### One access of a stack (R300, R313, R315) -/

/-- An access that waits leaves its status in its descriptor. -/
def noteAccess (sender : Option Nat) (e : Got) : Act s₀ Unit :=
  match sender with
  | some id => if e = .ok then pure () else
      withSlot id fun d => { d with arose := Arose.put d.arose e.status.1 e.status.2 }
  | none => pure ()

/-- Serve an access at its die: 64 bytes, atomic, with its ECC check (DEDUCED, log entry 46). -/
def serveStack (n : Nat) (w : StackWait) : Act s₀ Unit := do
  let s ← now
  let who : Who := { slot := w.sender.bind s.slot }
  let whole : Bool := match w.write with
    | some (_, m) => m = fullMask
    | none => false
  if s.meets none w.granule = .ok ∧ !s.poisoned w.granule ∧ uncorrectable (s.errors w.granule) ∧ !whole then
    stackRetire n w.granule w.spare
    noteAccess w.sender .uncorr
  else
    let e ← match w.write with
      | some (v, m) => writeGranule who w.granule v m none
      | none => do
        let r ← readGranule who w.granule
        pure r.2
    noteAccess w.sender e

/-- An access that a repair keeps waits for its end. -/
def presentStack (n : Nat) (w : StackWait) : Act s₀ Unit := do
  if (← now).units.hbm.repairing.contains n then
    change fun u => { u with hbm := { u.hbm with waits := u.hbm.waits ++ [(n, w)] } }
  else serveStack n w

/-- STACK_ACCESS: an access of stack `n`, with the errors that then stand in its granule and whether its bank has a spare
row. While a repair is in progress it waits. -/
def actStackAccess (n : Nat) (own : Bool) (sender : Option Nat) (addr : Nat) (wr : Option (Granule × Granule))
    (upset : BitVec 576) (spare : Bool) : Act s₀ Unit := do
  if stackOf addr = some n then
    let g := addr / 64
    let s ← now
    if !s.poisoned g then emit (.upset g (s.errors g ^^^ upset))
    presentStack n ⟨own, sender, g, wr, spare⟩

/-- STACK_ACCESS. -/
def execStackAccess (n : DieNo) (own : Bool) (sender : Option Nat) (addr : Addr) (wr : Option (Granule × Granule))
    (upset : BitVec 576) (spare : Bool) (s : State) : Host.Outcome State Fault Refusal :=
  .next (perform s (actStackAccess n own sender addr.toNat wr upset spare))

/-- The order in which the die serves the accesses that waited: VAR.CTL.ARB (R300). Alternation starts with the die's
own traffic (DEDUCED, log entry 46). -/
def arbOrder (arb : Nat) : List StackWait → List StackWait → Nat → List StackWait
  | own, out, 0 => own ++ out
  | [], out, _ => out
  | own, [], _ => own
  | a :: own, b :: out, n + 1 =>
    if arb = 1 then a :: own ++ (b :: out)
    else if arb = 2 then b :: out ++ (a :: own)
    else a :: b :: arbOrder arb own out n

end Sys2Proof.Machine
end

