-- ==== Sys2Proof/Machine/Failure.lean ====
section
/-! DEFINITION. The risk estimator, the failure of a Varnish die, and the fixative: copies of the module's state to its buddy,
and what is restored from them (R313 to R335). -/

namespace Sys2Proof.Machine

variable {s₀ : State}

/-! ### The risk estimator (R319 to R321) -/

/-- One input's share of the score. -/
def riskPart (count weight : Nat) : Nat := min 255 (count * weight / 256)

/-- risk_window of R319. -/
def riskScore (parts : List (Nat × Nat)) (score decay : Nat) : Nat :=
  max (min 255 (parts.foldl (fun a p => a + riskPart p.1 p.2) 0)) (score - min score decay)

/-- RISK_WINDOW: a window ends with the hottest junction reading in quarter degrees (DEDUCED, log entry 47). -/
def actRiskWindow (hottest : Int) : Act s₀ Unit := do
  let s ← now
  let u := s.units.fail
  let temp := match u.hottest with
    | some t => (hottest - t).toNat
    | none => 0
  change fun x => { x with fail := { x.fail with ce := 0, droops := 0, links := 0, hottest := some hottest } }
  setF RISK_INPUTS_CE (min u.ce 0xffff)
  setF RISK_INPUTS_DROOP (min u.droops 0xffff)
  setF RISK_INPUTS_TEMP (min temp 0xffff)
  setF RISK_INPUTS_LINK (min u.links 0xffff)
  if s.on RISK_CTL_EN then
    setScore (riskScore [(u.ce, s.fld RISK_WEIGHT_W_CE), (u.droops, s.fld RISK_WEIGHT_W_DROOP),
      (temp, s.fld RISK_WEIGHT_W_TEMP), (u.links, s.fld RISK_WEIGHT_W_LINK)] (s.fld RISK_SCORE_SCORE)
      (s.fld RISK_WINDOW_DECAY))

/-- RISK_WINDOW. -/
def execRiskWindow (hottest : Int) (s : State) : Host.Outcome State Fault Refusal :=
  .next (perform s (actRiskWindow hottest))

/-- A write of RISK.LEVELS (R321): thresholds out of order are discarded and recorded; the level follows the new ones
(DEDUCED, log entry 47). -/
def hookRiskLevels (w : RegWrite) : Act s₀ Unit := do
  if w.field RISK_LEVELS_L1 < w.field RISK_LEVELS_L2 ∧ w.field RISK_LEVELS_L2 < w.field RISK_LEVELS_L3 then
    plainHook w
    setScore (← fld RISK_SCORE_SCORE)
  else discardRecorded w

/-- RNG_CHECK_DISARM (R331): the written bits are cleared. -/
def execRngCheckDisarm (port : HostNo) (v : Word) (s : State) : Host.Outcome State Fault Refusal :=
  .next (perform s (checkedWrite port (RISK_RNG_CHECK_ARMED.addr 0 0) v plainHook))

/-! ### A Varnish die fails (R315) -/

/-- VAR_DIE_FAIL: the die is fenced with its stack; its descriptors complete with ECC_UNCORR (DEDUCED, log entry 47). -/
def actVarDieFail (n : Nat) : Act s₀ Unit := do
  let s ← now
  if !s.dieFailed n then
    setF RISK_VAR_FAILED_DIES (s.fld RISK_VAR_FAILED_DIES + 2 ^ n)
    riskEvent RISK_EVENT_VAR_FAIL
    if s.on RISK_CTL_EN then setScore 255
    changeVar fun v => { v with exchanges := v.exchanges.map fun x =>
      if x.record.isNone then { x with reports := x.reports.filter fun r => r.die ≠ n } else x }
    changeVar fun v => { v with runs := v.runs.filter fun r => r.die ≠ n }
    each (s.slots.filter fun d => d.target = 0x40 + n) fun d => do
      if d.phase = .delivered then completeWith d.id [(.eccUncorr, 0)]
      else if d.phase = .issued then withSlot d.id fun x => { x with arose := Arose.put x.arose .eccUncorr 0, phase := .done }
      else pure ()

/-- VAR_DIE_FAIL. -/
def execVarDieFail (n : DieNo) (s : State) : Host.Outcome State Fault Refusal := .next (perform s (actVarDieFail n))

/-! ### Words and records of an image (R322, R323) -/

/-- The granules of 64-bit words. -/
def wordGranules (ws : List Nat) : List Granule :=
  (List.range ((ws.length + 7) / 8)).map fun k =>
    BitVec.ofNat 512 (((ws.drop (8 * k)).take 8).zipIdx.foldl (fun a x => a + x.1 % 2 ^ 64 * 2 ^ (64 * x.2)) 0)

/-- A record: its KIND and length word, its content of `len` bytes, and padding to 64 bytes (DESIGN CHOICE, log entry 96).
-/
def metaRecord (kind len : Nat) (ws : List Nat) : List Nat :=
  let r := (kind * 2 ^ 56 + len) :: ws
  r ++ List.replicate ((8 - r.length % 8) % 8) 0

/-- Pack 16-bit numbers into words. -/
def packIds (ids : List Nat) : List Nat :=
  (List.range ((ids.length + 3) / 4)).map fun k =>
    ((ids.drop (4 * k)).take 4).zipIdx.foldl (fun a x => a + x.1 % 2 ^ 16 * 2 ^ (16 * x.2)) 0

/-- Blocks of 64 KiB before the data image, and granules before the meta image. -/
def metaBlocks : Nat := 1024
def metaGranule : Nat := 1024

/-- The content of the GROUP record (layout by the model): engine, group, generation, sequence number and VL in one word,
COUNT in the next, then the list. -/
def State.groupWords (s : State) (cover : Nat) : List Nat :=
  [0, 1].flatMap fun e => (List.range 64).flatMap fun k =>
    if s.on COLL_GROUP_ID_VALID e k && bit cover (s.fld COLL_GROUP_ID_ATELIER e k) then
      let ids := s.membersOf e k
      [e * 2 ^ 60 + s.fld COLL_GROUP_ID_GROUP e k * 2 ^ 48 + s.genOf e k * 2 ^ 32 + s.fld COLL_GROUP_ID_SEQ e k * 2 ^ 16
        + s.fld COLL_GROUP_ID_VL e k, ids.length] ++ packIds ids
    else []

/-- The content of the ROUTE record. -/
def State.routeWords (s : State) : List Nat :=
  ((List.range 65536).map fun m => (s.route m).toNat)
    ++ [(s.held (COLL_ROUTE_CTL_TTL.addr 0 0)).toNat, (s.held (COLL_VL_OWNER_OWNER.addr 0 0)).toNat,
        (s.held (COLL_VL_VALID_VALID.addr 0 0)).toNat, (s.held (TB_SYNC_DOMAIN.addr 0 0)).toNat]

/-- The STEP, MANIFEST, TAG and RING records of a job. -/
def FixJob.ownRecords (j : FixJob) : List Nat :=
  let steps := (List.range 8).map fun k => j.ks.getD (2 * k) 0 + j.ks.getD (2 * k + 1) 0 * 2 ^ 32
  let rings := j.rings.flatMap fun (r : Nat × Nat × Ctx × Nat) =>
    [r.1 * 2 ^ 32 + r.2.1, r.2.2.1.seed.toNat, r.2.2.1.keyHi.toNat,
     r.2.2.2 * 2 ^ 16 + (if r.2.2.1.backward then 2 ^ 12 else 0)]
  metaRecord 1 64 steps
    ++ metaRecord 2 (16 * j.manifest.length) (j.manifest.flatMap fun m => [m.1, m.2])
    ++ metaRecord 3 (16 * j.tags.length) (j.tags.flatMap fun t => [t.1, t.2.toNat])
    ++ metaRecord 4 (32 * j.rings.length) rings

/-- The GROUP, ROUTE and END records. -/
def State.sharedRecords (s : State) : List Nat :=
  let g := s.groupWords (s.fld RISK_COVER_ATELIERS)
  metaRecord 5 (8 * g.length) g ++ metaRecord 6 (8 * 65540) s.routeWords ++ metaRecord 0 0 []

/-- What tells whether a slot's GROUP and ROUTE records need rewriting: their words and where they start (DEDUCED, log
entry 48). -/
def sharedKey (start : Nat) (ws : List Nat) : Nat := ws.foldl (fun a w => a * 2 ^ 64 + w) (2 ^ 64 + start)

/-! ### The latch (R324) -/

/-- Change the fixative's own state. -/
def changeFail (f : FailUnit → FailUnit) : Act s₀ Unit := change fun u => { u with fail := f u.fail }

/-- `n` granules from an address as one number; whether every one could be read. -/
def readRun (a : Nat) : Nat → Act s₀ (Nat × Bool)
  | 0 => pure (0, true)
  | n + 1 => do
    let (v, ok) ← readRun a n
    let (d, e) ← readGranule {} (a / 64 + n)
    pure (v + d.toNat * 2 ^ (512 * n), ok && e = .ok)

/-- The context, and the cursor, of the segment that holds a ring's position RETIRED (R213, R324) (DEDUCED, log entry
48). -/
def State.latchRing (s : State) (r : Nat) : Nat × Nat × Ctx × Nat :=
  let p := s.fld RING_RETIRED_RETIRED r
  let own (w : Descriptor) (c : Ctx) : Ctx := if opcodeOf w = 0x01 then streamCtx w else c
  let ctx := match s.slots.find? fun d => d.ring = r && d.pos = p with
    | some d => own d.words d.ctx
    | none => match s.units.rings.fetched.find? fun f => f.ring = r && f.pos = p with
      | some f => own f.words f.ctx
      | none => s.ringCtx r
  let cursor :=
    if s.on RING_CFG_SCHED r then
      ((List.range (s.schedLength r)).find? fun c => s.schedEntry r c = some (ctx.backward, ctx.keyHi.toNat % 2 ^ 16)).getD
        (s.fld RING_STATE_CURSOR r)
    else s.fld RING_STATE_CURSOR r
  (r, p, ctx, cursor)

/-- The ateliers in RISK.COVER. -/
def State.covered (s : State) : List Nat :=
  (List.range 16).filter fun a => s.exists a && bit (s.fld RISK_COVER_ATELIERS) a

/-- The stream tag of an atelier: KEY_HI of the latched context of its lowest-numbered enabled ring. -/
def State.latchTag (s : State) (a : Nat) : Word :=
  match (s.ringsOf a).find? fun r => s.on RING_CTL_ENABLE r with
  | some r => (s.latchRing r).2.2.1.keyHi
  | none => s.held (RISK_TAG_KEY_HI.addr 0 a)

/-- The ranges of the manifest (R323). -/
def manifestOf (v n : Nat) : List (Nat × Nat) :=
  (List.range n).map fun k => (v / 2 ^ (128 * k) % 2 ^ 48, v / 2 ^ (128 * k + 64) % 2 ^ 32)

/-- Latch the module's state for a copy of a level, for a descriptor or for the hardware. -/
def latchCopy (kind : Nat) (slot : Option Nat) (useq : Nat) : Act s₀ Unit := do
  let s ← now
  let id := slot.getD s.units.rings.nextId
  if slot.isNone then changeRings fun u => { u with nextId := u.nextId + 1 }
  let n := s.fld RISK_MANIFEST_ENTRIES
  let (v, ok) ← readRun (s.fld RISK_MANIFEST_ADDR) ((n + 3) / 4)
  let m := manifestOf v n
  let ks := (List.range 16).map fun d => s.fld VAR_STEP_K d
  let lead := (List.range 16).find? fun d => !s.dieFailed d && m.any fun r => stackOf r.1 = some d
  let tags := s.covered.map fun a => (a, s.latchTag a)
  each tags fun t => emit (.reg (RISK_TAG_KEY_HI.addr 0 t.1) t.2)
  let job : FixJob :=
    { id := id, kind := kind, slot := slot, ks := ks, k := ks.getD (lead.getD 0) 0, useq := useq, manifest := m
      rings := (s.covered.flatMap s.ringsOf).map s.latchRing, tags := tags
      arose := if ok then [] else [(.eccUncorr, 0)], cause := if ok then 0 else 6 }
  changeFail fun f => { f with jobs := f.jobs ++ [job] }

/-! ### Copies (R325, R326) -/

/-- The image region (R322). -/
def State.span (s : State) : Nat := s.fld RISK_REGION_SIZE_BLOCKS / 2
def State.slotBase (s : State) (k : Nat) : Nat := s.fld RISK_REGION_BASE + k * s.span * 0x10000

/-- The blocks of a manifest. -/
def manifestBlocks (m : List (Nat × Nat)) : Nat := m.foldl (fun n r => n + r.2) 0

/-- Every range is aligned and in one stack, and there is one. -/
def manifestOk (m : List (Nat × Nat)) : Bool :=
  !m.isEmpty && m.all fun r => r.1 % 0x10000 = 0 && (stackOf r.1).isSome
    && stackOf (r.1 + max r.2 1 * 0x10000 - 1) = stackOf r.1

/-- Why a copy cannot start (R326): its status, DETAIL and CAUSE. -/
def State.copyFault (s : State) (j : FixJob) : Option (Status × Nat × Nat) :=
  if s.fld RISK_BUDDY_MODULE = 0xffff then some (.accessDenied, 3, 1)
  else if s.fld RISK_REGION_SIZE_BLOCKS < 2 * (metaBlocks + manifestBlocks j.manifest) then some (.accessDenied, 3, 2)
  else if !manifestOk j.manifest then some (.malformed, 5, 3)
  else none

/-- Send granules to the buddy for a job. -/
def sendToBuddy (j : FixJob) (rs : List Req) : Act s₀ Unit := do
  let s ← now
  withJob j.id fun x => { x with bytes := x.bytes + 64 * rs.length }
  uncore 3 0 0x34 rs.length
  postFrames j.id (framesFor j.id none 0 (s.fld RISK_BUDDY_MODULE) s.moduleId (s.fld RISK_BUDDY_VL) 0 0 none rs)

/-- Consecutive granules from granule number `g`, written whole. -/
def wholeReqs (g : Nat) (vs : List Granule) : List Req := vs.zipIdx.map fun v => ⟨g + v.2, v.1, fullMask⟩

/-- LEVEL of an image's header. -/
def FixJob.level (j : FixJob) : Nat := if j.full then 2 else 1

/-- The header that ends a copy (R322) (DEDUCED, log entry 48). -/
def State.imageHeader (s : State) (j : FixJob) : List Nat :=
  [ s.moduleId * 2 ^ 48 + j.useq * 2 ^ 32 + j.k,
    2 ^ 63 + j.level * 2 ^ 61 + j.skipped * 2 ^ 32 + j.serial,
    s.span * 2 ^ 32 + manifestBlocks j.manifest, s.units.tb.count.toNat, 0, 0, 0, 0 ]

/-- A write of RISK.BUDDY, REGION or REGION_SIZE: another region holds no image of this module that the fixative knows of,
so that its next copy is made whole (R322, R325) (DEDUCED, log entry 48). -/
def hookImagePlace (w : RegWrite) (hook : RegWrite → Act s₀ Unit) : Act s₀ Unit := do
  let before ← ask fun s => s.held w.addr
  hook w
  if (← now).held w.addr ≠ before then changeFail fun f => { f with images := [] }

/-- The VALID slot with the greatest serial (R322). -/
def currentImage : List (Nat × Nat × Nat) → Option (Nat × Nat × Nat)
  | [] => none
  | x :: xs => match currentImage xs with
    | some y => some (if 0 < sdiff y.2.1 x.2.1 32 then y else x)
    | none => some x

/-- An image that a job is writing is not VALID. -/
def tornImage (j : FixJob) : Act s₀ Unit :=
  changeFail fun f => { f with images := f.images.filter fun x => x.1 ≠ j.into }

/-- Step 1: VALID = 0 into the slot's header: the byte that holds it (DEDUCED, log entry 48). -/
def copyStart (j : FixJob) : Act s₀ Unit := do
  let s ← now
  let cur := currentImage s.units.fail.images
  let full : Bool := j.kind ≠ 1 || cur.isNone
  let into := match cur with
    | none => 0
    | some c => if j.kind = 1 then c.1 else 1 - c.1
  let last := (s.units.fail.images.find? fun x => x.1 = into).map fun x => x.2.2
  let j' : FixJob := { j with step := 1, full := full, into := into, serial := (s.units.fail.serial + 1) % 2 ^ 32
                              shared := last.getD 0 }
  withJob j.id fun _ => j'
  tornImage j'
  sendToBuddy j' [⟨s.slotBase into / 64, BitVec.ofNat 512 (j'.level * 2 ^ (64 + 61)), BitVec.ofNat 512 (255 * 2 ^ 120)⟩]

/-- A block of stack `n` has changed since its last copy, as far as the change map tells (R301, R325). -/
def State.blockChanged (s : State) (n a : Nat) : Bool :=
  match s.changeMap n with
  | none => true
  | some base =>
    let (g, m) := mapBit base ((a - stackBase n) / 0x10000)
    s.poisoned g || s.granule g &&& m ≠ 0

/-- The blocks that a copy takes: their place in the data image and their address, and the dies skipped. -/
def State.copyBlocks (s : State) (full : Bool) : Nat → List (Nat × Nat) → List (Nat × Nat) × List Nat
  | _, [] => ([], [])
  | i, (a, n) :: rest =>
    let r := s.copyBlocks full (i + n) rest
    match stackOf a with
    | none => r
    | some d =>
      if s.dieFailed d then (r.1, d :: r.2)
      else (((List.range n).filterMap fun k =>
        if full || s.blockChanged d (a + k * 0x10000) then some (i + k, a + k * 0x10000) else none) ++ r.1, r.2)

/-- Read a block of 1,024 granules; none where a granule cannot be read, with its status. -/
def readBlockGranules (a : Nat) : Nat → Act s₀ (List Granule × Got)
  | 0 => pure ([], .ok)
  | n + 1 => do
    let (vs, e) ← readBlockGranules a n
    if e ≠ .ok then pure (vs, e)
    else
      let (v, e') ← readGranule {} (a / 64 + n)
      pure (vs ++ [v], e')

/-- Read the blocks of a copy and form their writes at the buddy; it stops where a granule cannot be read. -/
def readBlocks (base : Nat) : List (Nat × Nat) → Act s₀ (List Req × Got)
  | [] => pure ([], .ok)
  | (i, a) :: rest => do
    let (vs, e) ← readBlockGranules a 1024
    if e ≠ .ok then pure ([], e)
    else
      let (rs, e') ← readBlocks base rest
      pure (wholeReqs (base / 64 + i * 1024) vs ++ rs, e')

/-- Step 2: the data blocks. -/
def copyData (j : FixJob) : Act s₀ Unit := do
  let s ← now
  let (bs, skipped) := s.copyBlocks j.full 0 j.manifest
  let (rs, e) ← readBlocks (s.slotBase j.into + metaBlocks * 0x10000) bs
  if e ≠ .ok then
    withJob j.id fun x => { x with step := 2, arose := Arose.put x.arose e.status.1 e.status.2, cause := 6 }
  else
    withJob j.id fun x => { x with
      step := 2, blocks := bs.map Prod.snd, skipped := (skipped.eraseDups).foldl (fun m d => m + 2 ^ d) 0 }
    sendToBuddy j rs

/-- Step 3: the records. The GROUP and ROUTE records go again only where they have changed or moved since the slot's last
copy. -/
def copyMeta (j : FixJob) (last : Option Nat) : Act s₀ Unit := do
  let s ← now
  let own := j.ownRecords
  let rest := s.sharedRecords
  let key := sharedKey own.length rest
  withJob j.id fun x => { x with step := 3, shared := key }
  let base := s.slotBase j.into / 64 + metaGranule
  sendToBuddy j (wholeReqs base (wordGranules own)
    ++ (if last = some key then [] else wholeReqs (base + own.length / 8) (wordGranules rest)))

/-- Step 4: the header (DEDUCED, log entry 48). -/
def copyHeader (j : FixJob) : Act s₀ Unit := do
  let s ← now
  withJob j.id fun x => { x with step := 4 }
  sendToBuddy j (wholeReqs (s.slotBase j.into / 64) (wordGranules (s.imageHeader j)))

/-- The job leaves the queue. -/
def dropJob (id : Nat) : Act s₀ Unit := changeFail fun f => { f with jobs := f.jobs.filter fun j => j.id ≠ id }

/-- A job's descriptor takes its status. -/
def endJobSlot (j : FixJob) (arose : Arose) : Act s₀ Unit :=
  match j.slot with
  | some id => withSlot id fun d => { d with arose := Arose.join d.arose arose, phase := .done }
  | none => pure ()

/-- RISK.LAST_COPY (DEDUCED, log entry 49). -/
def logCopy (j : FixJob) (st : Status) (cause : Nat) : Act s₀ Unit := do
  setF RISK_LAST_COPY_STATUS st.code
  setF RISK_LAST_COPY_CAUSE cause
  setF RISK_LAST_COPY_BYTES j.bytes

/-- A job fails (R326). A source granule that could not be read for another reason than poison has no CAUSE in the
table: a free value (DEDUCED, log entry 49). -/
def failJob (j : FixJob) : Act s₀ Unit := do
  let (st, detail) := Arose.first j.arose
  let i ← freeIndex
  let cause := if j.cause = 6 ∧ st ≠ .eccUncorr then (Config.freeWord i).toNat
    else if j.cause ≠ 0 then j.cause else if st = .frameTimeout then 4 else 5
  dropJob j.id
  dropWaiting fun x => x.slot = j.id
  if j.kind ≤ 3 then
    logCopy j st cause
    let new ← ask fun s => !s.on RISK_EVENT_SNAP_FAIL
    match j.slot with
    | some _ => riskEvent RISK_EVENT_SNAP_FAIL
    | none => do
      raise RISK_EVENT_SNAP_FAIL
      notifyRecord st (if new then 2 ^ RISK_EVENT_SNAP_FAIL.lo else 0)
  else logCopy j st 0
  endJobSlot j [(st, detail)]

/-- Clear the change-map bit of a block (R325). -/
def clearChange (a : Nat) : Act s₀ Unit := do
  let s ← now
  match stackOf a with
  | none => pure ()
  | some n =>
    match s.changeMap n with
    | none => pure ()
    | some base =>
      let (g, m) := mapBit base ((a - stackBase n) / 0x10000)
      let _ ← writeGranule {} g 0 m none

/-- A level-3 copy quiesces the covered ateliers (R325). -/
def drainCovered : Act s₀ Unit := do
  let s ← now
  let as := s.covered.filter fun a => s.fld ATL_STATUS_STATE a ≠ 3
  if as.isEmpty then
    setF RISK_STATUS_DRAINED 1
    riskEvent RISK_EVENT_DRAINED
  else
    change fun u => { u with host := { u.host with draining := as } }
    each as startQuiesce

/-- A copy's final header is acknowledged (R325, R334). -/
def endCopy (j : FixJob) : Act s₀ Unit := do
  dropJob j.id
  changeFail fun f => { f with
    serial := j.serial, images := (j.into, j.serial, j.shared) :: f.images.filter fun x => x.1 ≠ j.into }
  setF RISK_IMAGE_K j.k
  setF RISK_IMAGE_USEQ j.useq
  setF RISK_IMAGE_SLOT j.into
  raise RISK_IMAGE_VALID
  logCopy j .ok 0
  each j.blocks clearChange
  if j.slot.isNone then notifyRecord .ok 0
  endJobSlot j []
  if j.kind = 3 then drainCovered

/-- A waiting copy at the head of the queue starts; one that cannot start fails, and the next is looked at (DEDUCED, log
entry 49). -/
def startQueue : Nat → Act s₀ Unit
  | 0 => pure ()
  | n + 1 => do
    let s ← now
    match s.units.fail.jobs with
    | [] => pure ()
    | j :: _ =>
      if j.step = 0 ∧ j.kind ≤ 3 then
        if !j.arose.isEmpty then
          failJob j
          startQueue n
        else match s.copyFault j with
          | some (st, detail, cause) => do
            failJob { j with arose := [(st, detail)], cause := cause }
            startQueue n
          | none => copyStart j

/-- Start what can start (DEDUCED, log entry 49). -/
def startJobs : Act s₀ Unit := do
  let n ← ask fun s => s.units.fail.jobs.length
  startQueue n

/-- The header of a SEND goes last (R329). -/
def sendHeader (j : FixJob) : Act s₀ Unit := do
  match j.slot.bind (← now).slot with
  | none => pure ()
  | some d =>
    let s ← now
    withJob j.id fun x => { x with step := 2, bytes := x.bytes + 64 }
    postFrames j.id (framesFor j.id (some d.atelier) 0 (body d.words 0 63 48) s.moduleId (body d.words 2 55 51) 0 0 none
      (wholeReqs (body d.words 1 47 0 / 64) [BitVec.ofNat 512 (d.recs.getD 1 0)]))

/-- COPY_STEP_ADVANCE: every frame of the job's step is answered. -/
def actCopyStepAdvance : Act s₀ Unit := do
  let s ← now
  match s.units.fail.jobs with
  | [] => pure ()
  | j :: _ =>
    if j.outstanding = 0 then
      if !j.arose.isEmpty then failJob j
      else if j.kind ≤ 3 then
        match j.step with
        | 0 => pure ()
        | 1 => copyData j
        | 2 => copyMeta j (if j.full then none else some j.shared)
        | 3 => copyHeader j
        | _ => endCopy j
      else if j.step = 1 then sendHeader j
      else
        dropJob j.id
        logCopy j .ok 0
        endJobSlot j []
      startJobs

/-- COPY_STEP_ADVANCE. -/
def execCopyStepAdvance (s : State) : Host.Outcome State Fault Refusal := .next (perform s actCopyStepAdvance)

/-- An update boundary: the last die of a VAR_UPDATE's SET has completed it (R324, R325) (DEDUCED, log entry 47). -/
def updateBoundary (useq : Nat) : Act s₀ Unit := do
  let s ← now
  changeFail fun f => { f with lastUseq := useq, armed := [] }
  each s.units.fail.armed fun k => latchCopy k none useq
  if s.on RISK_CTL_AUTO ∧ 1 ≤ s.fld RISK_SCORE_LEVEL then latchCopy 1 none useq
  startJobs

/-! ### FIX_SNAPSHOT (R328) -/

/-- The body of FIX_SNAPSHOT. -/
def prepFixSnapshot (w : Descriptor) : Prep s₀ (List Nat) := do
  demand (body w 0 63 2 = 0 && zeroFrom w 1 && body w 0 1 0 ≠ 0)
  pure []

/-- A job of the descriptor is in the queue. -/
def State.hasJob (s : State) (id : Nat) : Bool := s.units.fail.jobs.any fun j => j.id = id

/-- FIX_SNAPSHOT, issued: latched once no update is between its pass 2 and its completion on a die of the manifest
(R324). -/
def actFixSnapshot (id : Nat) : Act s₀ Unit := do
  let s ← now
  match s.slot id with
  | none => pure ()
  | some d =>
    if d.phase = .issued ∧ opcodeOf d.words = 0x60 ∧ !s.hasJob id then
      let n := s.fld RISK_MANIFEST_ENTRIES
      let v := (List.range ((n + 3) / 4)).foldl
        (fun a k => a + (s.granule (s.fld RISK_MANIFEST_ADDR / 64 + k)).toNat * 2 ^ (512 * k)) 0
      if !(s.units.var.runs.any fun r => (r.phase = 4 || s.inPass2 r) && (manifestOf v n).any fun m => stackOf m.1 = some r.die) then
        latchCopy (body d.words 0 1 0) (some id) s.units.fail.lastUseq
        startJobs

/-- FIX_SNAPSHOT. -/
def execFixSnapshot (id : Nat) (s : State) : Host.Outcome State Fault Refusal := .next (perform s (actFixSnapshot id))

/-! ### FIX_RESTORE (R329, R330) -/

/-- Word `k` of an image header. -/
def hdrWord (h k : Nat) : Nat := h / 2 ^ (64 * k) % 2 ^ 64
def hdrValid (h : Nat) : Bool := bit h 127
def hdrSerial (h : Nat) : Nat := hdrWord h 1 % 2 ^ 32
def hdrSkipped (h : Nat) : Nat := hdrWord h 1 / 2 ^ 32 % 2 ^ 16
def hdrSpan (h : Nat) : Nat := hdrWord h 2 / 2 ^ 32
def hdrBlocks (h : Nat) : Nat := hdrWord h 2 % 2 ^ 32

/-- The last byte of a slot. -/
def slotEnd (base h : Nat) : Nat := base + (metaBlocks + hdrBlocks h) * 0x10000 - 1

/-- MODE of FIX_RESTORE. -/
def restoreMode (w : Descriptor) : Nat := body w 2 63 62

/-- The slot of a region that SEND or SERVE takes: its address and header; it must be VALID (DEDUCED, log entry 48). -/
def pickSlot (w : Descriptor) : Prep s₀ (Nat × Nat) := do
  let region := body w 0 47 0
  let h0 ← readBlock region 1
  let base1 := region + hdrSpan h0 * 0x10000
  let second : Bool := hdrSpan h0 ≠ 0
  let h1 ← if second then readBlock base1 1 else pure 0
  let one : Bool := if body w 2 57 57 = 1 then body w 2 56 56 = 1
    else second && hdrValid h1 && (!hdrValid h0 || 0 < sdiff (hdrSerial h1) (hdrSerial h0) 32)
  let (base, h) := if one then (base1, h1) else (region, h0)
  permit (hdrValid h)
  permitBytes base (slotEnd base h)
  pure (base, h)

/-- The records of SERVE's entries (R329): sources in the slot's data image, destinations as FAB_SEND takes them. -/
def serveRecords (lo hi list : Nat) : Nat → Nat → Prep s₀ (List Nat)
  | 0, _ => pure []
  | k + 1, i => do
    demand (entryOk list i)
    let mine ← attempt (readTensors [entryWord list i 0, entryWord list i 1])
    match mine with
    | some [(_, src), (_, dst)] =>
      demand (src.type = .fp32 && pairAllowed src.type dst && src.count = dst.count)
      demand (match src.interval false with
        | some (a, b) => lo ≤ a && b ≤ hi
        | none => true)
      permitTensor src false
    | _ => pure ()
    let rest ← serveRecords lo hi list k (i + 1)
    pure ((mine.getD []).map Prod.fst ++ rest)

/-- The body of FIX_RESTORE, and the slot and records that it names (R329). -/
def prepFixRestore (w : Descriptor) : Prep s₀ (List Nat) := do
  let mode := restoreMode w
  let vl := body w 2 55 51
  demand (body w 2 39 0 = 0 && zeroFrom w 3 && mode ≠ 3 && body w 0 47 0 % 0x10000 = 0)
  if mode = 1 then
    demand (body w 0 63 48 = 0 && body w 1 63 0 = 0)
    let base := body w 0 47 0
    let h ← readBlock base 1
    permit (hdrValid h)
    permitBytes base (slotEnd base h)
    pure [base, h]
  else
    let s ← OptionT.lift (doing now)
    let io ← OptionT.lift get
    demand (1 ≤ vl && vl ≤ 16)
    if mode = 0 then
      demand (body w 1 63 48 = 0 && body w 1 47 0 % 0x10000 = 0)
      permit (s.laneOwner vl = some io.atelier)
      let (base, h) ← pickSlot w
      pure [base, h]
    else
      let n := body w 1 63 48
      let list := body w 1 47 0
      demand (1 ≤ n && list % 64 = 0 && body w 2 49 48 ≠ 3)
      permit (s.laneOwner vl = some io.atelier)
      let (base, h) ← pickSlot w
      let v ← readOwned list (32 * n)
      let rs ← serveRecords (base + metaBlocks * 0x10000) (slotEnd base h) v n 0
      pure ([base, h, v] ++ rs)

/-- A FIX_RESTORE that has issued in a mode, with no copy in progress. -/
def State.restoring (s : State) (id mode : Nat) : Option Slot :=
  (s.slot id).bind fun d =>
    if d.phase = .issued ∧ opcodeOf d.words = 0x61 ∧ restoreMode d.words = mode ∧ s.units.fail.jobs.isEmpty then some d
    else none

/-- FIX_RESTORE SEND: the slot but its header; the header follows once the rest is acknowledged. -/
def actFixRestoreSend (id : Nat) : Act s₀ Unit := do
  let s ← now
  match s.restoring id 0 with
  | none => pure ()
  | some d =>
    let base := d.recs.getD 0 0
    let n := (metaBlocks + hdrBlocks (d.recs.getD 1 0)) * 1024
    let (vs, e) ← readBlockGranules (base + 64) (n - 1)
    if e ≠ .ok then withSlot id fun x => { x with arose := Arose.put x.arose e.status.1 e.status.2, phase := .done }
    else
      let job : FixJob := { id := id, kind := 4, slot := some id, step := 1, bytes := 64 * vs.length }
      changeFail fun f => { f with jobs := f.jobs ++ [job] }
      postFrames id (framesFor id (some d.atelier) 0 (body d.words 0 63 48) s.moduleId (body d.words 2 55 51) 0 0 none
        (wholeReqs (body d.words 1 47 0 / 64 + 1) vs))

/-- FIX_RESTORE SEND. -/
def execFixRestoreSend (id : Nat) (s : State) : Host.Outcome State Fault Refusal :=
  .next (perform s (actFixRestoreSend id))

/-- The frames of SERVE's entries, each entry behind the one before it. -/
def serveFrames (d : Slot) (me list : Nat) : Nat → Nat → Nat → Work s₀ (List Sending)
  | 0, _, _ => pure []
  | k + 1, i, b => do
    let w := d.words
    let conv : Conv := ⟨body w 2 49 48, body w 2 50 50 = 1, body w 2 47 40, 0x60, d⟩
    let rs ← sendWork conv (d.tensor (3 + 2 * i)) (d.tensor (4 + 2 * i))
    let fs := (framesFor d.id (some d.atelier) 0 (body w 0 63 48) me (body w 2 55 51) 0 0 (entryAc list i) rs).map
      fun f => { f with batch := f.batch + b }
    if (← get).stopped then pure fs
    else
      let rest ← serveFrames d me list k (i + 1) (fs.foldl (fun m f => max m (f.batch + 1)) b)
      pure (fs ++ rest)

/-- FIX_RESTORE SERVE (R329). -/
def actFixRestoreServe (id : Nat) : Act s₀ Unit := do
  let s ← now
  match s.restoring id 2 with
  | none => pure ()
  | some d =>
    let fs ← runFor d .fixative (serveFrames d s.moduleId (d.recs.getD 2 0) (body d.words 1 63 48) 0 0)
    postFrames id fs
    finish id

/-- FIX_RESTORE SERVE. -/
def execFixRestoreServe (id : Nat) (s : State) : Host.Outcome State Fault Refusal :=
  .next (perform s (actFixRestoreServe id))

/-- The records of a meta image from granule `g`: (KIND, length, content). It stops at END. -/
def readRecords (g : Nat) : Nat → Work s₀ (List (Nat × Nat × Nat))
  | 0 => pure []
  | n + 1 => do
    let v ← fetch g
    let h := v.toNat % 2 ^ 64
    let kind := h / 2 ^ 56
    let len := h % 2 ^ 32
    if (← get).stopped ∨ kind = 0 then pure []
    else
      let count := (8 + len + 63) / 64
      let mut content : Nat := 0
      for k in List.range count do
        let x ← fetch (g + k)
        content := content + x.toNat * 2 ^ (512 * k)
      let rest ← readRecords (g + count) n
      pure ((kind, len, content / 2 ^ 64 % 2 ^ (8 * len)) :: rest)

/-- Word `k` of a record's content. -/
def contentWord (v k : Nat) : Nat := v / 2 ^ (64 * k) % 2 ^ 64

/-- The content of the record of a KIND, and its length. -/
def recordOfKind (rs : List (Nat × Nat × Nat)) (kind : Nat) : Option (Nat × Nat) :=
  (rs.find? fun r => r.1 = kind).map fun r => (r.2.1, r.2.2)

/-- APPLY skipped something. -/
def skipped : Work s₀ Unit := arises .accessDenied 3

/-- The manifest's ranges are the atelier's, and hold no retired-out block. -/
def State.mayRestore (s : State) (a : Nat) (m : List (Nat × Nat)) : Bool :=
  m.all fun r => r.2 = 0 || (s.allowed a r.1 (r.1 + r.2 * 0x10000 - 1) && match stackOf r.1 with
    | some n => (List.range r.2).all fun k => !s.retiredOut n (r.1 - stackBase n + k * 0x10000)
    | none => false)

/-- Copy a range of the data image to its address; ranges of dies that the image skipped are left (R315, R330). -/
def applyRange (data : Nat) (gone : Nat) (r : Nat × Nat) : Work s₀ Unit := do
  if ((stackOf r.1).map (bit gone)).getD false then skipped
  else
    for k in List.range (1024 * r.2) do
      if !(← get).stopped then
        let (v, e) ← readFrom (data / 64 + k)
        noteGot e
        if e = .ok then noteGot (← sendTo (r.1 / 64 + k) v fullMask none)
        else modify fun io => { io with stopped := true }
    for b in List.range r.2 do
      if !(← get).stopped then doing (clearChange (r.1 + b * 0x10000))

/-- The ranges of the data image, each behind the one before it. -/
def applyData (gone : Nat) : Nat → List (Nat × Nat) → Work s₀ Unit
  | _, [] => pure ()
  | data, r :: rest => do
    applyRange data gone r
    applyData gone (data + r.2 * 0x10000) rest

/-- The STEP record (R297, R330) (DEDUCED, log entry 48). -/
def applySteps (v : Nat) : Work s₀ Unit := do
  let s ← doing now
  for n in List.range 16 do
    if s.dieFailed n then skipped else doing (setStep n (v / 2 ^ (32 * n) % 2 ^ 32))

/-- One group of the GROUP record, installed as LOCAL does. -/
def applyGroup (a e g gen vl seq : Nat) (ids : List Nat) : Work s₀ Unit := do
  let s ← doing now
  let mine : Bool := match s.groupSlot e g with
    | some k => s.fld COLL_GROUP_ID_ATELIER e k = a
    | none => true
  if !ids.contains s.moduleId || (s.groupSlot (1 - e) g).isSome || !mine || s.laneOwner vl ≠ some a then skipped
  else
    let (st, _) ← doing (installLocal e a g gen vl seq ids)
    if st = .genStale then
      arises .genStale
      skipped
    else if st ≠ .ok then skipped

/-- The groups of the GROUP record; `n` bounds the words that are left. -/
def applyGroups (a v : Nat) : Nat → Nat → Nat → Work s₀ Unit
  | 0, _, _ => pure ()
  | n + 1, k, words => do
    if k + 1 < words then
      let w := contentWord v k
      let count := contentWord v (k + 1)
      let ids := (List.range count).map fun i => v / 2 ^ (64 * (k + 2) + 16 * i) % 2 ^ 16
      applyGroup a (w / 2 ^ 60 % 2) (w / 2 ^ 48 % 2 ^ 12) (w / 2 ^ 32 % 2 ^ 16) (w % 32) (w / 2 ^ 16 % 2 ^ 16) ids
      applyGroups a v n (k + 2 + (count + 3) / 4) words

/-- The ROUTE record. -/
def applyRoutes (a v : Nat) : Work s₀ Unit := do
  let s ← doing now
  if s.mgmtAtelier ≠ some a then skipped
  else
    for m in List.range 65536 do
      doing (emit (.route m (BitVec.ofNat 64 (contentWord v m))))
    let put (f : Fld) (k : Nat) : Act s₀ Unit := emit (.reg (f.addr 0 0) (BitVec.ofNat 64 (contentWord v k)))
    doing (put COLL_ROUTE_CTL_TTL 65536)
    doing (put COLL_VL_OWNER_OWNER 65537)
    doing (emit (.reg (COLL_VL_VALID_VALID.addr 0 0) (BitVec.ofNat 64 (contentWord v 65538) ||| 1)))
    let old := s.held (TB_SYNC_DOMAIN.addr 0 0)
    let new := BitVec.ofNat 64 (contentWord v 65539)
    doing (hookTbSync ⟨s.mgmtPort, .tb, 0, TB_SYNC_DOMAIN.off, TB_SYNC_DOMAIN.addr 0 0, old, new, 0, new, 0xffffffffffffffff⟩)

/-- One ring of the RING record (R213). -/
def applyRing (a v k : Nat) : Work s₀ Unit := do
  let s ← doing now
  let w0 := contentWord v (4 * k)
  let w3 := contentWord v (4 * k + 3)
  let r := w0 / 2 ^ 32 % 2 ^ 19
  if s.ringOwner r ≠ some a ∨ s.fld RING_STATE_STATE r ≠ 0 then skipped
  else doing do
    setF RING_RETIRED_RETIRED w0 r
    setF RING_POS_FETCHED w0 r
    setRingCtx r ⟨BitVec.ofNat 64 (contentWord v (4 * k + 1)), BitVec.ofNat 64 (contentWord v (4 * k + 2)), bit w3 12⟩
    setF RING_STATE_CURSOR (w3 / 2 ^ 16) r
    changeRings fun u => { u with retDone := u.retDone.filter fun e => e.1 ≠ r }
    settleWaits

/-- The TAG record: the issuing ring's atelier takes its tag, and its check is armed (R330, R331). -/
def applyTag (a v k : Nat) (accept : Bool) : Work s₀ Unit := do
  if contentWord v (2 * k) % 16 ≠ a then skipped
  else doing do
    emit (.reg (RISK_TAG_KEY_HI.addr 0 a) (BitVec.ofNat 64 (contentWord v (2 * k + 1))))
    if !accept then
      let m ← fld RISK_RNG_CHECK_ARMED
      setF RISK_RNG_CHECK_ARMED (m ||| 2 ^ a)

/-- The data of the manifest's blocks, and the steps of the dies (R330). -/
def applyTensors (d : Slot) (rs : List (Nat × Nat × Nat)) (base h : Nat) : Work s₀ Unit := do
  match recordOfKind rs 2 with
  | some (len, v) =>
    let m := manifestOf v (len / 16)
    if (← doing now).mayRestore d.atelier m then applyData (hdrSkipped h) (base + metaBlocks * 0x10000) m else skipped
  | none => pure ()
  match recordOfKind rs 1 with
  | some (_, v) => applySteps v
  | none => pure ()

/-- The GROUP and ROUTE records (R330). -/
def applyShared (a : Nat) (rs : List (Nat × Nat × Nat)) : Work s₀ Unit := do
  match recordOfKind rs 5 with
  | some (len, v) => applyGroups a v (len / 8) 0 (len / 8)
  | none => pure ()
  match recordOfKind rs 6 with
  | some (_, v) => applyRoutes a v
  | none => pure ()

/-- The RING record (R330). -/
def applyRings (a : Nat) (rs : List (Nat × Nat × Nat)) : Work s₀ Unit := do
  match recordOfKind rs 4 with
  | some (len, v) => for k in List.range (len / 32) do applyRing a v k
  | none => pure ()

/-- The TAG record (R330). -/
def applyTags (a : Nat) (rs : List (Nat × Nat × Nat)) (accept : Bool) : Work s₀ Unit := do
  match recordOfKind rs 3 with
  | some (len, v) => for k in List.range (len / 16) do applyTag a v k accept
  | none => pure ()

/-- FIX_RESTORE APPLY: the records in the order of R330's table, each where its selector asks for it (DEDUCED, log entry
48). -/
def applyWork (d : Slot) : Work s₀ Unit := do
  let w := d.words
  let base := d.recs.getD 0 0
  let h := d.recs.getD 1 0
  let tensors : Bool := body w 2 60 60 = 1
  let rings : Bool := body w 2 59 59 = 1
  let groups : Bool := body w 2 58 58 = 1
  let rs ← readRecords (base / 64 + metaGranule) (metaBlocks * 1024)
  if (← get).stopped then pure ()
  else
    if tensors then applyTensors d rs base h
    if groups then applyShared d.atelier rs
    if rings then applyRings d.atelier rs
    if tensors ∨ rings then applyTags d.atelier rs (body w 2 61 61 = 1)

/-- FIX_RESTORE APPLY. -/
def actFixRestoreApply (id : Nat) : Act s₀ Unit := do
  match (← now).restoring id 1 with
  | none => pure ()
  | some d =>
    runFor d .fixative (applyWork d)
    finish id

/-- FIX_RESTORE APPLY. -/
def execFixRestoreApply (id : Nat) (s : State) : Host.Outcome State Fault Refusal :=
  .next (perform s (actFixRestoreApply id))

end Sys2Proof.Machine
end

