-- ==== Sys2Proof/Machine/Vector.lean ====
section
/-! DEFINITION. The vector engine: VE_STROKE in MAP, REDUCE and SCAN mode, its waves and its pacing (R130 to R157). -/

namespace Sys2Proof.Machine

variable {s₀ : State}

/-! ### The body and the block (R133 to R136, R142, R156) -/

/-- A tensor of tile `t`'s palette. -/
def inTile (t : Nat) (x : Tensor) (write : Bool) : Bool :=
  let at1 (a : Nat) : Bool := match place a with
    | .palette k _ => k == t
    | _ => false
  match x.interval write with
  | some (lo, hi) => at1 lo && at1 hi
  | none => at1 (x.home write)

/-- A tensor that lies in a stack. -/
def inStack (x : Tensor) (write : Bool) : Bool :=
  match place (x.home write) with
  | .stack _ _ => true
  | _ => false

/-- The bounds box of an MX output covers every loop index (R99). -/
def boxCovers (x : Tensor) : Bool := (List.range 5).all fun k => x.lo.getD k 0 = 0 && x.extent k ≤ x.hi.getD k 1

/-- The placement of inputs and outputs of an operation of tile `t`'s vector engine: inputs in its palette, no output
in a stack, and no overlap but an exact in-place one (R136). -/
def placedOk (t : Nat) (ins outs : List Tensor) : Bool :=
  ins.all (fun x => inTile t x false) && outs.all (fun x => !inStack x true)
    && ins.all (fun x => outs.all fun y => !overlaps (x.interval false) (y.interval true)
      || (x.base = y.base && x.stride = y.stride && x.type = y.type))
    && outs.zipIdx.all fun x => outs.zipIdx.all fun y => x.2 = y.2 || !overlaps (x.1.interval true) (y.1.interval true)

/-- R90's check of every tensor of a list. -/
def permitAll (write : Bool) : List Tensor → Prep s₀ Unit
  | [] => pure ()
  | x :: xs => do
    permitTensor x write
    permitAll write xs

/-- The nonzero references of a list. -/
def named (refs : List Nat) : List Nat := refs.filter (· ≠ 0)

/-- Spread the tensors read over the references that named them. -/
def spread : List Nat → List Tensor → List (Option Tensor)
  | [], _ => []
  | r :: rs, ts => if r = 0 then none :: spread rs ts else ts.head? :: spread rs ts.tail

/-- The program of a block with the tensors of its references. -/
def strokeOf (blk : Nat) (ts : List Tensor) : Stroke :=
  let p := parseBlock blk
  let all := spread p.refs ts
  { p with ins := all.take 4, outs := all.drop 4 }

/-- The sequences and chunks of a SCAN (R156). -/
def Stroke.sequences (p : Stroke) : Nat := (p.ext.eraseIdx p.axis).foldl (· * ·) 1
def Stroke.scanChunks (p : Stroke) : Nat := (p.ext.getD p.axis 1 + p.chunk - 1) / p.chunk

/-- The operand shapes match the iteration space (R135), and no operand is WX (R39). -/
def shapesOk (p : Stroke) : Bool :=
  (p.ins.zipIdx.all fun x => match x.1 with
    | none => true
    | some t => t.type ≠ .wx && (List.range 5).all (fun d => t.extent d = p.ext.getD d 1 || t.extent d = 1)
        && (p.h0 ≠ some x.2 || t.extent p.axis = 1)) &&
  (p.outs.zipIdx.all fun x => match x.1 with
    | none => true
    | some t => t.type ≠ .wx && (!t.type.isMx || boxCovers t)
        && (List.range 5).all fun d => t.extent d = if p.mode = 1 ∧ x.2 = 1 ∧ d = p.axis then 1 else p.ext.getD d 1) &&
  (p.mode ≠ 2 || p.sequences * p.scanChunks ≤ 16384)

/-- The tensors of a list of options. -/
def present (xs : List (Option Tensor)) : List Tensor := xs.filterMap id

/-- AC0 and AC1 of a VE_STROKE body (R133). -/
def strokeAc (w : Descriptor) (o : Nat) : Option Nat :=
  if o = 0 then (if body w 2 15 15 = 1 then some (body w 2 9 0) else none)
  else (if body w 2 31 31 = 1 then some (body w 2 25 16) else none)

/-- The body is paced. -/
def vePaced (w : Descriptor) : Bool := body w 1 15 15 = 1

/-- Body, block, records and access of VE_STROKE: the block, then the records of its nonzero references. What rounding the
constants raises is raised as the block is read (DESIGN CHOICE, log entry 75). -/
def prepStroke (t : Nat) (w : Descriptor) : Prep s₀ (List Nat) := do
  demand (body w 0 63 48 = 0 && body w 0 5 0 = 0 && body w 1 14 10 = 0 && body w 2 63 32 = 0 && body w 2 30 26 = 0
    && body w 2 14 10 = 0 && zeroFrom w 3)
  demand (!vePaced w || body w 1 31 16 ≠ 0)
  let blk ← readBlock (body w 0 47 0) 6
  if blockWf blk && programOk (parseBlock blk) then pure () else malformed
  let rs ← readTensors (named (parseBlock blk).refs)
  let p := strokeOf blk (rs.map Prod.snd)
  demand (shapesOk p && kindsOk p (List.replicate 16 .float) p.instrs)
  demand (placedOk t (present p.ins) (present p.outs))
  permitAll false (present p.ins)
  permitAll true (present p.outs)
  (match p.outs.getD 0 none with
   | some x => permitCounter (x.home true) (strokeAc w 0)
   | none => pure ())
  (match p.outs.getD 1 none with
   | some x => permitCounter (x.home true) (strokeAc w 1)
   | none => pure ())
  if vePaced w then permitCounter (paletteBase t) (some (body w 1 9 0))
  sound
  OptionT.lift (raiseFlags p.constFlags)
  pure (blk :: rs.map Prod.fst)

/-- The program of an issued VE_STROKE. -/
def Slot.stroke (d : Slot) : Stroke :=
  strokeOf (d.recs.headD 0) ((d.recs.drop 1).filterMap parseTensor)

/-! ### Waves (R144, R154, R156) -/

/-- The elements of the iteration space, as canonical indices. -/
def Stroke.count (p : Stroke) : Nat := p.ext.foldl (· * ·) 1

/-- The loop index of an element. -/
def Stroke.index (p : Stroke) (e : Nat) : List Nat := unravel p.ext e

/-- The waves of a SCAN: the jobs in groups, step by step (R156). -/
def scanWaves (p : Stroke) : List (List Nat) :=
  let len := p.ext.getD p.axis 1
  let seqs := (List.range p.count).filter fun e => (p.index e).getD p.axis 0 = 0
  let n := seqs.length
  let k := p.scanChunks
  let groups : List (List Nat × List Nat) :=
    if n ≤ 2048 then (chunks (2048 / n) (List.range k)).map fun ks => (ks, seqs)
    else (List.range k).flatMap fun i => (chunks 2048 seqs).map fun ss => ([i], ss)
  (List.range p.chunk).flatMap fun tau => groups.filterMap fun g =>
    let es := g.1.flatMap fun i =>
      let pos := i * p.chunk + tau
      if pos < len then g.2.map fun e => ravel p.ext ((p.index e).set p.axis pos) else []
    if es.isEmpty then none else some es

/-- The waves of a program, each as its elements in lane order. -/
def wavesOf (p : Stroke) : List (List Nat) :=
  if p.count = 0 then []
  else if p.mode = 2 then scanWaves p
  else if p.mode = 1 ∧ p.axis = 0 then
    let n := p.ext.getD 0 1
    let rows := chunks n (List.range p.count)
    if n ≤ 2048 then (chunks (2048 / laneCount n) rows).map List.flatten
    else rows.flatMap (chunks 2048)
  else chunks p.lanes (List.range p.count)

/-! ### One element -/

/-- The loop index at which an input is read: 0 in a dimension that it broadcasts (R135). -/
def broadcast (x : Tensor) (j : List Nat) : List Nat :=
  j.zipIdx.map fun i => if x.extent i.2 = 1 then 0 else i.1

/-- The inputs that the program names. -/
def Stroke.used (p : Stroke) (k : Nat) : Bool := p.instrs.any fun w => (selectors w).contains (0x10 + k)

/-- Read the inputs of an element (DEDUCED, log entry 28). -/
def readInputs (p : Stroke) (j : List Nat) : List (Option Tensor × Nat) → Work s₀ (List Elt)
  | [] => pure []
  | (x, k) :: xs => do
    let v ← match x with
      | some t => if p.used k then getElt t (broadcast t j) else pure (.int 0)
      | none => pure (.int 0)
    let vs ← readInputs p j xs
    pure (v :: vs)

/-- The granules that a wave reads, input by input (R146). -/
def waveGranules (p : Stroke) (es : List Nat) : List Nat :=
  p.ins.zipIdx.flatMap fun x => match x.1 with
    | some t => if p.used x.2 then es.flatMap fun e => t.reads (broadcast t (p.index e)) else []
    | none => []

/-- Run the program on the elements of a wave whose inputs have been read; the results stand with their elements. -/
def runElements (p : Stroke) (d : Slot) (tile : Nat) (h : Nat → Option Val) (first : Bool) :
    List Nat → Work s₀ (List (Nat × Lane))
  | [] => pure []
  | e :: es => do
    let j := p.index e
    let ins ← readInputs p j p.ins.zipIdx
    let l := runLane p ins j (fun site => d.draw tile site e) (h e) first
    raiseFlags l.flags
    doing (countUp VE_NONFINITE_COUNT_COUNT l.nonfinite tile)
    let rest ← runElements p d tile h first es
    pure ((e, l) :: rest)

/-- A wave reads its inputs and runs the program, unless one of its read sets meets poison (R152). -/
def runWave (p : Stroke) (d : Slot) (tile : Nat) (h : Nat → Option Val) (first : Bool) (es : List Nat) :
    Work s₀ (Option (List (Nat × Lane))) := do
  fetchWave (waveGranules p es)
  if (← get).stopped then pure none
  else
    let ls ← runElements p d tile h first es
    pure (some ls)

/-! ### Stores (R143, R151, R427) -/

/-- The tail of the instruction that writes an output: its ST, or RED for O1 in REDUCE. -/
def Stroke.tailOf (p : Stroke) (o : Nat) : Nat :=
  (p.instrs.find? fun w => (iOp w = 0x1E && iD w = o) || (o = 1 && p.mode = 1 && iOp w = 0x1C)).getD 0

/-- The rounding of an output element: a draw under SR is at the element's index (R143). -/
def Stroke.rmAt (p : Stroke) (d : Slot) (tile o e : Nat) : Rm :=
  let w := p.tailOf o
  if iRm w = 2 then rmOf 2 (d.draw tile (iSite w) e) else rmOf (iRm w) 0

/-- A store to an output of the program's own type only moves a value of that type (R36). A BF16 program may hold a value
of another one, which its CVT has made (R139, R143). -/
def onlyMoves (p : Stroke) (t : ElemType) (v : Val) : Bool :=
  decide (t = if p.bf then .bf16 else .fp32) && (v.isNan || (p.fmt.round .rne false v).2 = 0)

/-- The first element and the length of the MX visit that element `e` at `j` belongs to (R427). -/
def visitOf (x : Tensor) (j : List Nat) (e : Nat) : Nat × Nat :=
  let j0 := j.getD 0 0
  (e - j0 % 32, min 32 (x.extent 0 - (j0 - j0 % 32)))

/-- What a wave's stores leave: MX values held for visits not yet complete, and the highest element written so far at
each address, for a scan whose waves do not follow canonical order (R94). -/
structure Stores where
  held : List (Nat × Nat × Val) := []
  order : List (Nat × Nat × Nat) := []
  deriving DecidableEq, Repr

/-- A later element in canonical order has been written at this address already. -/
def Stores.stale (x : Stores) (o a e : Nat) : Bool := x.order.any fun r => r.1 = o && r.2.1 = a && e < r.2.2

/-- Store one element (R143): an MX element waits for its visit (DEDUCED, log entry 27). A NaN that has only been moved is
stored as the canonical one (DESIGN CHOICE, log entry 85). -/
def storeElt (p : Stroke) (d : Slot) (tile o : Nat) (x : Tensor) (st : Stores) (e : Nat) (v : Elt) :
    Work s₀ Stores := do
  let j := unravel x.ext e
  if x.type.isMx then
    let (f, n) := visitOf x j e
    let held := st.held ++ [(o, e, v.float)]
    let mine := (held.filter fun r => r.1 = o && f ≤ r.2.1 && r.2.1 < f + n)
    if mine.length < n then pure { st with held := held }
    else
      let blk := x.q j / 32
      let a := (x.spotAt (32 * blk)).bit
      let rest := held.filter fun r => !(r.1 = o && f ≤ r.2.1 && r.2.1 < f + n)
      if st.stale o a e then pure { st with held := rest }
      else
        putBlock x blk (mine.map fun r => ((x.q (unravel x.ext r.2.1) % 32).toNat, r.2.2, p.rmAt d tile o r.2.1))
        pure { held := rest, order := (o, a, f + n - 1) :: st.order }
  else if !x.inBox j then
    modify fun io => { io with oobWrite := io.oobWrite + 1 }
    pure st
  else
    let a := (x.spotAt (x.q j)).bit
    if st.stale o a e then pure st
    else
      if onlyMoves p x.type v.float then putRaw x j (p.fmt.round .rne false v.float).1
      else putElt x j (p.rmAt d tile o e) (iSat (p.tailOf o)) v
      pure { st with order := if p.mode = 2 then (o, a, e) :: st.order else st.order }

/-- Store the elements of one output. -/
def storeAll (p : Stroke) (d : Slot) (tile o : Nat) (x : Tensor) : Stores → List (Nat × Elt) → Work s₀ Stores
  | st, [] => pure st
  | st, (e, v) :: rest => do
    let st' ← storeElt p d tile o x st e v
    storeAll p d tile o x st' rest

/-- A wave's transfers of one output: one for each granule (R151). They belong to the wave's write set (R146). -/
def commitMerged (ac : Option Nat) : Work s₀ Unit := do
  let io ← get
  let rs := io.stage.reverse.foldl addReq []
  modify fun io => { io with stage := [], sent := io.sent ++ rs.map Req.g }
  for r in rs do
    let e ← sendTo r.g r.data r.mask ac
    if e ≠ .ok then arises e.status.1 e.status.2

/-- Store and commit what a wave writes to an output. -/
def storeOutput (p : Stroke) (d : Slot) (tile o : Nat) (st : Stores) (vs : List (Nat × Elt)) : Work s₀ Stores := do
  match p.outs.getD o none with
  | none => pure st
  | some x =>
    let st' ← storeAll p d tile o x st vs
    commitMerged (strokeAc d.words o)
    pure st'

/-- The values that a wave's lanes store to an output. -/
def storedTo (o : Nat) (ls : List (Nat × Lane)) : List (Nat × Elt) :=
  ls.flatMap fun l => (l.2.stores.filter fun s => s.1 = o).map fun s => (l.1, s.2)

/-! ### Counting (R390, R392, R393) -/

/-- How many ALU slots, and how many FN instructions, a wave issues. -/
def Stroke.aluCount (p : Stroke) (first : Bool) : Nat :=
  ((if first then p.instrs.takeWhile (fun w => iOp w ≠ 0x1D) else p.instrs).filter fun w =>
    iOp w ≠ 0x18 && !(first && iOp w = 0x1E)).length + (if first then 2 else 0)
def Stroke.fnCount (p : Stroke) (first : Bool) : Nat :=
  ((if first then p.instrs.takeWhile (fun w => iOp w ≠ 0x1D) else p.instrs).filter fun w => iOp w = 0x18).length

/-- Count a wave of `n` elements. -/
def tallyWave (tile : Nat) (p : Stroke) (d : Slot) (first : Bool) (es : List Nat) : Act s₀ Unit := do
  let o : Occ := { slot := some d, element := es.headD 0 }
  let n := es.length
  tally tile evVeWaves [2] 1 o
  let lanes := if p.bf then (n + 1) / 2 else n
  each (List.range (p.aluCount first)) fun _ => do
    tally tile evVeInstr [2] 1 o
    tallyIssue tile 2 lanes (2048 - lanes) o
  each (List.range (p.fnCount first)) fun _ => do
    tally tile evVeFn [2] 1 o
    each (List.range (if p.bf then 8 else 4)) fun b =>
      let k := min 512 (n - 512 * b)
      tallyIssue tile 3 k (512 - k) o

/-! ### A wave -/

/-- The element of O1 that an element of the iteration space is reduced into. -/
def Stroke.resultOf (p : Stroke) (e : Nat) : Nat :=
  ravel (p.ext.set p.axis 1) ((p.index e).set p.axis 0)

/-- The terms of RED by result, with a wave's terms added. -/
def addTerms (p : Stroke) (ts : List (Nat × Val)) (ls : List (Nat × Lane)) : List (Nat × Val) :=
  ts ++ ls.filterMap fun l => l.2.red.map fun v => (p.resultOf l.1, v)

/-- The results whose last term a list of terms holds: each with its reduction (R153, R154). -/
def reduceTerms (p : Stroke) (ts : List (Nat × Val)) : List (Nat × Val × Flags) :=
  let n := p.ext.getD p.axis 1
  let rop := iType (p.tailOf 1)
  (ts.map Prod.fst).eraseDups.filterMap fun r =>
    let xs := (ts.filter fun x => x.1 = r).map Prod.snd
    if xs.length < n then none
    else
      let (v, f) := if p.axis = 0 then reduceAxis0 (redOp rop) xs else reduceOuter (redOp rop) xs
      v.map fun y => (r, y, if xs.any Val.isNan then f ||| flagInvalid else f)

/-- A wave of MAP or REDUCE: its inputs are read before anything of it is written; a wave that meets poison writes
nothing (R152) (DEDUCED, log entry 28). -/
def mapWave (p : Stroke) (d : Slot) (tile : Nat) (r : VeRun) (es : List Nat) : Work s₀ VeRun := do
  match ← runWave p d tile (fun _ => none) false es with
  | none => pure r
  | some ls =>
    let st ← storeOutput p d tile 0 { held := r.held } (storedTo 0 ls)
    if p.mode = 1 then
      let ts := addTerms p r.terms ls
      let rs := reduceTerms p ts
      raiseFlags (rs.foldl (fun f x => f ||| x.2.2) 0)
      let st ← storeOutput p d tile 1 st (rs.map fun x => (x.1, Elt.num x.2.1))
      pure { r with wave := r.wave + 1, held := st.held, terms := ts.filter fun t => rs.all fun x => x.1 ≠ t.1 }
    else
      let st ← storeOutput p d tile 1 st (storedTo 1 ls)
      pure { r with wave := r.wave + 1, held := st.held }

/-- A wave of the first sweep of a SCAN (R155). -/
def sweepWave (p : Stroke) (d : Slot) (tile : Nat) (r : VeRun) (es : List Nat) : Work s₀ VeRun := do
  match ← runWave p d tile (fun _ => none) true es with
  | none => pure r
  | some ls => pure { r with wave := r.wave + 1, ab := r.ab ++ ls.filterMap fun l => l.2.ab.map fun x => (l.1, x.1, x.2) }

/-- The waves of the second sweep, each with its own reads and commits; `dark` withholds the outputs (R155). -/
def secondSweep (p : Stroke) (d : Slot) (tile : Nat) (h : Nat → Option Val) (dark : Bool) :
    Stores → List (List Nat) → Work s₀ Unit
  | _, [] => pure ()
  | st, es :: rest => do
    match ← runWave p d tile h false es with
    | none => pure ()
    | some ls =>
      let st ← storeOutput p d tile 0 st (if dark then [] else storedTo 0 ls)
      let st ← storeOutput p d tile 1 st (if dark then [] else storedTo 1 ls)
      doing (tallyWave tile p d false es)
      secondSweep p d tile h dark st rest

/-- The initial states of the sequences (R155 H0_IN), by the element that starts each. -/
def initialStates (p : Stroke) : List Nat → Work s₀ (List (Nat × Val))
  | [] => pure []
  | e :: es => do
    match p.h0.bind fun k => (p.ins.getD k none).map fun x => (k, x) with
    | none => pure []
    | some (k, x) =>
      let v ← getElt x (broadcast x (p.index e))
      let (h, f) := inputValue p k v
      raiseFlags f
      let rest ← initialStates p es
      pure ((e, h.val) :: rest)

/-- The carry and the second sweep of a SCAN (R155). A dark read in the first sweep or the carry withholds every output; the
second sweep runs on (R152) (DEDUCED, log entry 86). -/
def scanRest (p : Stroke) (d : Slot) (tile : Nat) (r : VeRun) : Work s₀ Unit := do
  let seqs := (List.range p.count).filter fun e => (p.index e).getD p.axis 0 = 0
  let h0 ← initialStates p seqs
  let io ← get
  let s ← doing now
  let dark := (io.arose ++ ((s.slot d.id).map Slot.arose).getD []).any fun a => a.1 = .darkBank
  if io.stopped then pure ()
  else
    let line (e : Nat) : List Nat := (List.range (p.ext.getD p.axis 1)).map fun k => ravel p.ext ((p.index e).set p.axis k)
    let outs := seqs.map fun e =>
      let ab := (line e).filterMap fun x => (r.ab.find? fun y => y.1 = x).map Prod.snd
      let o := scanSeq p.chunk ((h0.find? fun y => y.1 = e).map Prod.snd) ab
      ((line e).zip o.1, o.2)
    raiseFlags (outs.foldl (fun f o => f ||| o.2) 0)
    let hs := outs.flatMap Prod.fst
    secondSweep p d tile (fun e => (hs.find? fun y => y.1 = e).map Prod.snd) dark {} (wavesOf p)

/-! ### Runs -/

/-- The run of a tile's vector engine. -/
def State.veRun (s : State) (t : Nat) : Option VeRun := s.units.ve.find? fun r => r.tile = t

/-- Replace, or start, the run of a tile. -/
def setVeRun (r : VeRun) : Act s₀ Unit := change fun u => { u with ve := r :: u.ve.filter fun x => x.tile ≠ r.tile }

/-- End the run of a tile. -/
def endVeRun (t : Nat) : Act s₀ Unit := change fun u => { u with ve := u.ve.filter fun x => x.tile ≠ t }

/-- A VE_STROKE is over: its run ends and its status is fixed. -/
def endStroke (t : TileNo) (id : Nat) : Act s₀ Unit := do
  endVeRun t
  finish id

/-- The pace of a wave has been released (R149). -/
def wavePaceOpen (s : State) (p : Stroke) (d : Slot) (t : Nat) (es : List Nat) : Bool :=
  let w := d.words
  !vePaced w ||
    0 ≤ sdiff (s.fld PAL_AC_VALUE t (body w 1 9 0))
      ((body w 1 63 32 + (es.foldl max 0 / p.ext.getD 0 1 + 1) * body w 1 31 16) % 2 ^ 32) 32

/-- The next wave of a stroke waits on its pace (R149). -/
def State.paceWaits (s : State) (t : TileNo) : Bool :=
  match s.veRun t, s.working (.ve t) with
  | some r, some d => !wavePaceOpen s d.stroke d t ((wavesOf d.stroke).getD r.wave [])
  | _, _ => false

/-- One wave of the run; whether the run goes on. -/
def oneWave (t : TileNo) (d : Slot) (p : Stroke) (ws : List (List Nat)) (r : VeRun) : Act s₀ Bool := do
  let es := ws.getD r.wave []
  let (r', bad) ← runFor d (.ve t) do
    let x ← if p.mode = 2 then sweepWave p d t r es else mapWave p d t r es
    pure (x, (← get).stopped)
  if bad then
    endStroke t d.id
    pure false
  else
    tallyWave t p d (p.mode = 2) es
    if r'.wave < ws.length then
      setVeRun r'
      pure true
    else
      if p.mode = 2 then runFor d (.ve t) (scanRest p d t r')
      endStroke t d.id
      pure false

/-- Issue waves until the run ends or its pace holds the next one; `n` bounds them. -/
def manyWaves (t : TileNo) (d : Slot) (p : Stroke) (ws : List (List Nat)) : Nat → Act s₀ Unit
  | 0 => pure ()
  | n + 1 => do
    let s ← now
    match s.veRun t with
    | none => pure ()
    | some r =>
      if wavePaceOpen s p d t (ws.getD r.wave []) then
        if ← oneWave t d p ws r then manyWaves t d p ws n

/-- An iteration space with no elements (R144, R153): only a reduction along an empty axis says so. -/
def emptyStroke (p : Stroke) : Work s₀ Unit :=
  if p.mode = 1 ∧ p.ext.getD p.axis 1 = 0 ∧ (p.ext.eraseIdx p.axis).all (· ≠ 0) then arises .emptyReduce else pure ()

/-- A VE_STROKE of a mode runs on its tile's engine, from its first wave or from where its pace held it. -/
def actStroke (t : TileNo) (mode : Nat) : Act s₀ Unit := do
  let s ← now
  match s.working (.ve t) with
  | none => pure ()
  | some d =>
    let p := d.stroke
    if opcodeOf d.words = 0x28 ∧ p.mode = mode then
      let ws := wavesOf p
      if ws.isEmpty then
        runFor d (.ve t) (emptyStroke p)
        finish d.id
      else
        if (s.veRun t).isNone then setVeRun { tile := t, slot := d.id }
        manyWaves t d p ws ws.length

/-- VE_STROKE_MAP. -/
def execVeStrokeMap (t : TileNo) (s : State) : Host.Outcome State Fault Refusal :=
  .next (perform s (advancing t (.ve t) (actStroke t 0)))

/-- VE_STROKE_REDUCE. -/
def execVeStrokeReduce (t : TileNo) (s : State) : Host.Outcome State Fault Refusal :=
  .next (perform s (advancing t (.ve t) (actStroke t 1)))

/-- VE_STROKE_SCAN. -/
def execVeStrokeScan (t : TileNo) (s : State) : Host.Outcome State Fault Refusal :=
  .next (perform s (advancing t (.ve t) (actStroke t 2)))

/-- VE_PACE_RELEASE: the next wave issues once its counter value has been seen (R149). -/
def actVePaceRelease (t : TileNo) : Act s₀ Unit := do
  let s ← now
  match s.working (.ve t), s.veRun t with
  | some d, some r =>
    let p := d.stroke
    let ws := wavesOf p
    if opcodeOf d.words = 0x28 ∧ wavePaceOpen s p d t (ws.getD r.wave []) then
      let _ ← oneWave t d p ws r
  | _, _ => pure ()

/-- VE_PACE_RELEASE. -/
def execVePaceRelease (t : TileNo) (s : State) : Host.Outcome State Fault Refusal :=
  .next (perform s (advancing t (.ve t) (actVePaceRelease t)))

end Sys2Proof.Machine
end

