-- ==== Sys2Proof/Machine/NormSoftmax.lean ====
section
/-! DEFINITION. NORM and SOFTMAX descriptors: row statistics, normalised outputs, softmax in WX (R167 to R178). -/

namespace Sys2Proof.Machine

variable {s₀ : State}

/-! ### Bodies (R167, R168, R172, R173) -/

/-- A floating-point type other than WX. -/
def ElemType.isFloat (t : ElemType) : Bool := !t.isInt && t ≠ .vote && t ≠ .wx

/-- Two tensors have the same extents, but for extent `n` of the second in dimension 0. -/
def sameRows (x y : Tensor) (n : Nat) : Bool := y.extent 0 = n && (List.range 4).all fun d => x.extent (d + 1) = y.extent (d + 1)

/-- An output of R168: its extents are X's, its type is a floating-point type, an MX box covers it, and FP32 takes no
SR. -/
def outputOk (rmode : Nat) (x y : Tensor) : Bool :=
  y.type.isFloat && sameRows x y (x.extent 0) && (!y.type.isMx || boxCovers y) && !(rmode = 2 && y.type = .fp32)

/-- An FP32 pattern is +0 or positive finite (R167 EPS). -/
def epsOk (c : Nat) : Bool := c < 0x7f800000

/-- The fields that NORM and SOFTMAX bodies share. -/
def nsMode (w : Descriptor) : Nat := body w 5 31 30
def nsRmode (w : Descriptor) : Nat := body w 5 29 28
def nsSat (w : Descriptor) : Bool := body w 5 27 27 = 1
def nsSite (w : Descriptor) : Nat := body w 5 23 16
/-- The references of a NORM or SOFTMAX body, in order. -/
def nsRefs (w : Descriptor) : List Nat := (List.range 5).map fun k => body w k 63 0

/-- The reserved bits and RMODE of a NORM or SOFTMAX body. -/
def nsWf (w : Descriptor) : Bool :=
  body w 5 26 24 = 0 && body w 5 14 10 = 0 && nsRmode w ≠ 3

/-- Counters of the outputs belong to the descriptor's atelier (R346). -/
def permitOutputs (ac : Option Nat) : List Tensor → Prep s₀ Unit
  | [] => pure ()
  | x :: xs => do
    permitTensor x true
    permitCounter (x.home true) ac
    permitOutputs ac xs

/-- The KIND of a NORM body is RMS. -/
def normRms (w : Descriptor) : Bool := body w 5 31 31 = 1

/-- The tensors of a NORM or SOFTMAX, by reference. -/
def nsTensors (w : Descriptor) (ts : List Tensor) : List (Option Tensor) := spread (nsRefs w) ts

/-- Shapes and types of NORM (R168). -/
def normShapes (w : Descriptor) (ts : List (Option Tensor)) : Bool :=
  match ts with
  | [some x, y, g, b, st] =>
    let side (o : Option Tensor) : Bool := match o with
      | none => true
      | some z => z.type.isFloat && (List.range 5).all fun d => z.extent d = x.extent d || z.extent d = 1
    x.type.isFloat && side g && side b &&
    (match y with
     | none => true
     | some z => outputOk (nsRmode w) x z) &&
    (match st with
     | none => true
     | some z => z.type = .fp32 && sameRows x z 2)
  | _ => false

/-- Body, records and access of NORM. -/
def prepNorm (t : Nat) (w : Descriptor) : Prep s₀ (List Nat) := do
  demand (nsWf w && body w 5 30 30 = 0)
  demand (epsOk (body w 5 63 32) && body w 0 63 0 ≠ 0 && (body w 1 63 0 ≠ 0 || body w 4 63 0 ≠ 0)
    && !(normRms w && body w 3 63 0 ≠ 0))
  let rs ← readTensors (named (nsRefs w))
  let xs := nsTensors w (rs.map Prod.snd)
  demand (normShapes w xs)
  let ins := present [xs.getD 0 none, xs.getD 2 none, xs.getD 3 none]
  let outs := present [xs.getD 1 none, xs.getD 4 none]
  demand (placedOk t ins outs)
  permitAll false ins
  permitOutputs (acOf w 5) outs
  pure (rs.map Prod.fst)

/-- The references that a SOFTMAX mode names (R172, R173): X, Y, SUM, INFC, XC. -/
def softmaxRefs (w : Descriptor) : Bool :=
  let has (k : Nat) : Bool := body w k 63 0 ≠ 0
  has 0 && (has 2 = has 3) &&
  match nsMode w with
  | 0 => has 1 && !has 4
  | 1 => !has 1 && has 2 && !has 4
  | 2 => has 1 && has 2 && !has 4
  | _ => !has 1 && has 2 && has 4

/-- SCALE (R172): +0 reads as 1, and the rest is finite and not −0. -/
def scaleOk (c : Nat) : Bool := c % 0x80000000 < 0x7f800000 && c ≠ 0x80000000

/-- Shapes and types of SOFTMAX (R173). -/
def softmaxShapes (w : Descriptor) (ts : List (Option Tensor)) : Bool :=
  match ts with
  | [some x, y, sm, inf, xc] =>
    let row (ty : ElemType) (o : Option Tensor) : Bool := match o with
      | none => true
      | some z => z.type = ty && sameRows x z 1
    row .wx sm && row .int32 inf &&
    (match y with
     | none => true
     | some z => outputOk (nsRmode w) x z) &&
    (match xc with
     | none => x.type.isFloat
     | some z => x.type = .wx && z.type = .int32 && sameRows x z (x.extent 0))
  | _ => false

/-- Body, records and access of SOFTMAX. -/
def prepSoftmax (t : Nat) (w : Descriptor) : Prep s₀ (List Nat) := do
  demand (nsWf w && scaleOk (body w 5 63 32) && softmaxRefs w)
  let rs ← readTensors (named (nsRefs w))
  let xs := nsTensors w (rs.map Prod.snd)
  demand (softmaxShapes w xs)
  let apply : Bool := nsMode w = 2
  let sums := [xs.getD 2 none, xs.getD 3 none]
  let ins := present ([xs.getD 0 none, xs.getD 4 none] ++ if apply then sums else [])
  let outs := present ([xs.getD 1 none] ++ if apply then [] else sums)
  demand (placedOk t ins outs)
  permitAll false ins
  permitOutputs (acOf w 5) outs
  pure (rs.map Prod.fst)

/-! ### Rows and waves (R177) -/

/-- The tensors of an issued NORM or SOFTMAX. -/
def Slot.ns (d : Slot) : List (Option Tensor) := nsTensors d.words (d.recs.filterMap parseTensor)

/-- The outer loop indices of a tensor's rows, in canonical order. -/
def Tensor.rows (x : Tensor) : List (List Nat) :=
  (List.range ((x.ext.drop 1).foldl (· * ·) 1)).map (unravel (x.ext.drop 1))

/-- Rows of length `n` packed into waves: each a list of rows with the positions that the wave holds (R177). -/
def rowWaves (n : Nat) (rows : List (List Nat)) : List (List (List Nat × List Nat)) :=
  if n ≤ 2048 then chunks (2048 / laneCount n) (rows.map fun r => (r, List.range n))
  else rows.flatMap fun r => (chunks 2048 (List.range n)).map fun js => [(r, js)]

/-- A wave begins its write set. -/
def newWave : Work s₀ Unit := do
  endStream
  modify fun io => { io with wrote := [] }

/-- The engine goes on: a stalled descriptor has a `budget` of waves, and stops where it is spent (R178). -/
def goesOn : Work s₀ Bool := do
  match (← get).budget with
  | none => pure true
  | some 0 =>
    modify fun io => { io with stopped := true }
    pure false
  | some (n + 1) =>
    modify fun io => { io with budget := some n }
    pure true

/-- Read a tensor at loop indices, with broadcast. -/
def readElts (x : Tensor) : List (List Nat) → Work s₀ (List Elt)
  | [] => pure []
  | j :: js => do
    let v ← getElt x (broadcast x j)
    let vs ← readElts x js
    pure (v :: vs)

/-- Read an operand that may be absent. -/
def readOpt (x : Option Tensor) (js : List (List Nat)) : Work s₀ (List (Option Val)) :=
  match x with
  | none => pure (js.map fun _ => none)
  | some t => do
    let vs ← readElts t js
    pure (vs.map fun v => some v.val)

/-- The loop indices of a wave. -/
def waveIndices (w : List (List Nat × List Nat)) : List (List Nat) := w.flatMap fun r => r.2.map fun j => j :: r.1

/-- The granules that reads of tensors at loop indices request, tensor by tensor, with broadcast (R146, R177). -/
def readGranules (ins : List Tensor) (js : List (List Nat)) : List Nat :=
  ins.flatMap fun x => js.flatMap fun j => x.reads (broadcast x j)

/-- Read the inputs `ins` of waves in order, and take them with `f`, up to the first that meets poison. -/
def readWaves {α : Type} (ins : List Tensor) (f : List (List Nat) → Work s₀ (List α)) :
    List (List (List Nat × List Nat)) → Work s₀ (List (List (List Nat × α)))
  | [] => pure []
  | w :: ws => do
    let js := waveIndices w
    if ← goesOn then fetchWave (readGranules ins js)
    if (← get).stopped then pure []
    else
      let xs ← f js
      let rest ← readWaves ins f ws
      pure (js.zip xs :: rest)

/-- The elements of a row among elements read. -/
def ofRow {α : Type} (r : List Nat) (xs : List (List Nat × α)) : List α :=
  (xs.filter fun x => x.1.drop 1 = r).map Prod.snd

/-- Count the waves of a pass. -/
def tallyWaves (tile : Nat) (d : Slot) (n : Nat) : Work s₀ Unit :=
  doing (each (List.range n) fun _ => tally tile evVeWaves [2] 1 { slot := some d })

/-- Write a wave of an output and commit it. -/
def putWave (d : Slot) (tile : Nat) (y : Tensor) (es : List (List Nat × Elt)) : Work s₀ Unit := do
  newWave
  let w := d.words
  let rm (j : List Nat) : Rm :=
    if nsRmode w = 2 then rmOf 2 (d.draw tile (nsSite w) (y.canon j)) else rmOf (nsRmode w) 0
  putAll y (nsSat w) (es.map fun e => (e.1, e.2, rm e.1))
  commitMerged (acOf w 5)

/-- Write raw codes of an output and commit them. -/
def putCodes (d : Slot) (y : Tensor) (es : List (List Nat × Nat)) : Work s₀ Unit := do
  newWave
  for e in es do
    putRaw y e.1 e.2
  commitMerged (acOf d.words 5)

/-- Rows of length 0 (R170, R175). -/
def emptyRows (tile rows : Nat) : Work s₀ Unit := do
  if rows ≠ 0 then arises .emptyReduce
  doing (countUp SFU_EMPTY_REDUCE_COUNT_COUNT rows tile)

/-! ### Statistics (R169, R170) -/

/-- A row's statistics: mean or mean square, with rstd, and whether a negative variance was clamped. A row that holds a
nonfinite element has none. -/
structure RowStats where
  first : Val
  rstd : Val
  flags : Flags
  clamped : Bool
  deriving DecidableEq, Repr

def add32 (a b : Val) : Val × Flags := rounded fp32 (a.add b)
def mul32 (a b : Val) : Val × Flags := rounded fp32 (a.mul b)
def div32 (a b : Val) : Val × Flags := rounded fp32 (a.div b)

/-- cadd of R169. -/
def cadd (a b : Val × Val) : (Val × Val) × Flags :=
  let t := add32 a.1 b.1
  let e : Val := if t.1.isFinite then ((a.1.add b.1).1.add t.1.neg).1 else .fin false 0 0
  let lo := add32 a.2 b.2
  let lo' := add32 lo.1 e
  ((t.1, lo'.1), t.2 ||| lo.2 ||| lo'.2)

/-- row_stats of R169, with rstd (DEDUCED, log entry 29). -/
def rowStats (rms : Bool) (eps : Val) (xs : List Val) : RowStats :=
  let n : Val := .ofInt xs.length
  let zero : Val := .fin false 0 0
  let sft := if rms then zero else xs.headD zero
  let ds := xs.map fun x => add32 x sft.neg
  let qs := ds.map fun d => mul32 d.1 d.1
  let (sq, f1) := reduceAxis0 add32 (qs.map Prod.fst)
  let sq := sq.getD zero
  let f0 := (ds ++ qs).foldl (fun f r => f ||| r.2) f1
  let finish (first var : Val) (f : Flags) (cl : Bool) : RowStats :=
    let v := add32 var eps
    let r := sfuEval .rsqrt fp32 v.1
    ⟨first, fp32.decode r.1, f ||| v.2 ||| r.2, cl⟩
  if rms then
    let ms := div32 sq n
    finish ms.1 ms.1 (f0 ||| ms.2) false
  else
    let (pr, f2) := reduceAxis0 cadd (ds.map fun d => (d.1, zero))
    let (hi, lo) := pr.getD (zero, zero)
    let sd := add32 hi lo
    let md := div32 sd.1 n
    let mean := add32 sft md.1
    let v : Val × Flags := if sq = .inf false then (sq, 0) else fma32 md.1.neg sd.1 sq
    let neg := v.1.lt zero
    let var := div32 (if neg then zero else v.1) n
    finish mean.1 var.1 (f0 ||| f2 ||| sd.2 ||| md.2 ||| mean.2 ||| v.2 ||| var.2 ||| if neg then flagClamped else 0) neg

/-- One output element (R171). -/
def normElt (rms : Bool) (st : Option RowStats) (x : Val) (g b : Option Val) : Elt × Flags :=
  match st with
  | none => (.num .nan, flagInvalid)
  | some s =>
    let xc : Val × Flags := if rms then (x, 0) else add32 x s.first.neg
    let h := mul32 xc.1 s.rstd
    let p : Val × Flags := match g with
      | some y => h.1.mul y
      | none => (h.1, 0)
    let y : Val × Flags := match b with
      | some z => let r := p.1.add z; (r.1, p.2 ||| r.2)
      | none => p
    (.num y.1, xc.2 ||| h.2 ||| y.2)

/-- The statistics of the rows of a group: pass 1 (R169, R170). -/
def groupStats (d : Slot) (tile : Nat) (x : Tensor) (rows : List (List Nat)) :
    Work s₀ (Option (List (List Nat × Option RowStats))) := do
  let w := d.words
  let ws := rowWaves (x.extent 0) rows
  let got ← readWaves [x] (fun js => readElts x js) ws
  tallyWaves tile d got.length
  let _ ← goesOn
  if (← get).stopped then pure none
  else
    let all := got.flatten
    let sts := rows.map fun r =>
      let xs := (ofRow r all).map Elt.val
      (r, if xs.all Val.isFinite then some (rowStats (normRms w) (fp32.decode (body w 5 63 32)) xs) else none)
    for (_, st) in sts do
      match st with
      | some s =>
        raiseFlags s.flags
        if s.clamped then doing (countUp VE_CLAMP_COUNT_COUNT 1 tile)
      | none => raiseFlags flagInvalid
    pure (some sts)

/-- Write STATS of a group's rows (R171). -/
def putStats (d : Slot) (n : Nat) (z : Tensor) (sts : List (List Nat × Option RowStats)) : Work s₀ Unit := do
  for rs in chunks (if n ≤ 2048 then 2048 / laneCount n else 1) sts do
    putCodes d z (rs.flatMap fun r =>
      let v := r.2.map fun s => (s.first, s.rstd)
      let (a, b) := v.getD (.nan, .nan)
      [(0 :: r.1, code32 a), (1 :: r.1, code32 b)])

/-- Pass 2 of a group (R171). -/
def putNorm (d : Slot) (tile : Nat) (x y : Tensor) (g b : Option Tensor) (rows : List (List Nat))
    (sts : List (List Nat × Option RowStats)) : Work s₀ Unit := do
  let ws := rowWaves (x.extent 0) rows
  let got ← readWaves (x :: present [g, b]) (fun js => do
    let xs ← readElts x js
    let gs ← readOpt g js
    let bs ← readOpt b js
    pure (xs.zip (gs.zip bs))) ws
  for es in got do
    let outs := es.map fun e =>
      let st := ((sts.find? fun s => s.1 = e.1.drop 1).map Prod.snd).getD none
      (e.1, normElt (normRms d.words) st e.2.1.val e.2.2.1 e.2.2.2)
    raiseFlags (outs.foldl (fun f o => f ||| o.2.2) 0)
    putWave d tile y (outs.map fun o => (o.1, o.2.1))
  tallyWaves tile d got.length

/-- The groups of a NORM in order (R177), until one meets poison (R178) (DEDUCED, log entry 29). -/
def normGroups (d : Slot) (tile : Nat) (x : Tensor) (y g b st : Option Tensor) : List (List (List Nat)) → Work s₀ Unit
  | [] => pure ()
  | rows :: rest => do
    match ← groupStats d tile x rows with
    | none => pure ()
    | some sts =>
      match st with
      | some z => putStats d (x.extent 0) z sts
      | none => pure ()
      match y with
      | some z => putNorm d tile x z g b rows sts
      | none => pure ()
      if (← get).stopped then pure () else normGroups d tile x y g b st rest

/-- NORM (R167 to R171). -/
def normWork (tile : Nat) (d : Slot) : Work s₀ Unit :=
  match d.ns with
  | [some x, y, g, b, st] =>
    if x.extent 0 = 0 then emptyRows tile x.rows.length
    else normGroups d tile x y g b st (chunks 16384 x.rows)
  | _ => pure ()

/-! ### Softmax (R174 to R176) -/

/-- A term of R174. -/
inductive Term where
  | nan | posInf | negInf
  | weight (w : Val)
  deriving DecidableEq, Repr

/-- SCALE as a value (R172). -/
def scaleOf (w : Descriptor) : Val := if body w 5 63 32 = 0 then .fin false 1 0 else fp32.decode (body w 5 63 32)

/-- The term of a logit, the flags, and whether it was saturated to ±32,768 (R174). -/
def termOf (scale x : Val) : Term × Flags × Bool :=
  let p := x.mul scale
  let r := fp32.round .rne true p.1
  let f := p.2 ||| r.2
  match fp32.decode r.1 with
  | .nan => (.nan, f, false)
  | .inf false => (.posInf, f, false)
  | .inf true => (.negInf, f, false)
  | .fin s m e =>
    let z := Dy.ofVal (.fin s m e)
    let far := Dy.lt (Dy.ofInt 32768) z.abs
    let z' := if far then Dy.ofInt (if s then -32768 else 32768) else z
    let w := rounded wx42 ((eCore z').val, 0)
    (.weight w.1, f ||| w.2 ||| (if far then flagClamped else 0), far)

/-- Addition of WX values, rounded once (R39). -/
def addWx (a b : Val) : Val × Flags := rounded wx42 (a.add b)

/-- What a term adds to the row sum. -/
def Term.value : Term → Option Val
  | .nan => some .nan
  | .posInf => none
  | .negInf => some (.fin false 0 0)
  | .weight w => some w

/-- The sum, the count of +∞, and the flags of a row's terms (R175). -/
def rowSum (ts : List Term) : Val × Nat × Flags :=
  let (s, f) := reduceAxis0 (fun a b => combine addWx a b) (ts.map Term.value)
  ((s.getD none).getD (.fin false 0 0), (ts.filter fun t => t = .posInf).length, f)

/-- What the elements of a row get, from its terms in this descriptor, S and K (R176): each with its flags; and whether
the row has only −∞ logits (DEDUCED, log entry 29). -/
def rowOutputs (ts : List Term) (s : Val) (k : Int) : List (Elt × Flags) × Bool :=
  let nan : Elt × Flags := (.num .nan, flagInvalid)
  let zero : Elt × Flags := (.num (.fin false 0 0), 0)
  if ts.contains .nan || s.isNan then (ts.map fun _ => nan, false)
  else if 0 < k then
    (ts.map fun t => if t = .posInf then (.num (Val.div (.fin false 1 0) (.ofInt k)).1, 0) else zero, false)
  else if k = 0 ∧ s = .fin false 0 (match s with
      | .fin _ _ e => e
      | _ => 0) then (ts.map fun _ => nan, true)
  else (ts.map fun t => match t with
    | .posInf => if k = 0 then nan else zero
    | .negInf => zero
    | .weight w => let r := w.div s; (.num r.1, r.2)
    | .nan => nan, false)

/-- The terms of logits read in waves; `count` says that saturated logits are counted here. -/
def takeTerms (d : Slot) (tile : Nat) (count : Bool) (got : List (List (List Nat × Elt))) :
    Work s₀ (List (List (List Nat × Term))) := do
  let scale := scaleOf d.words
  let ts := got.map fun es => es.map fun e => (e.1, termOf scale e.2.val)
  for es in ts do
    for e in es do
      raiseFlags e.2.2.1
      if count ∧ e.2.2.2 then doing (countUp SFU_LOGIT_SAT_COUNT_COUNT 1 tile)
  tallyWaves tile d got.length
  pure (ts.map fun es => es.map fun e => (e.1, e.2.1))

/-- Read the logits of waves as terms. -/
def readTerms (d : Slot) (tile : Nat) (count : Bool) (x : Tensor) (ws : List (List (List Nat × List Nat))) :
    Work s₀ (List (List (List Nat × Term))) := do
  let got ← readWaves [x] (fun js => readElts x js) ws
  takeTerms d tile count got

/-- The code of a WX value. -/
def codeWx (v : Val) : Nat := (wx42.round .rne false v).1 * 2 ^ 22

/-- Write SUM and INFC of rows (R173), in waves of `per` rows. -/
def putSumsOf (d : Slot) (per : Nat) (sm inf : Tensor) (rs : List (List Nat × Val × Int)) : Work s₀ Unit := do
  for c in chunks per rs do
    putCodes d sm (c.map fun r => (0 :: r.1, codeWx r.2.1))
    putCodes d inf (c.map fun r => (0 :: r.1, intCode 32 r.2.2))

/-- Write Y of the waves whose logits have been read (R176). -/
def putSoftmax (d : Slot) (tile : Nat) (y : Tensor) (sums : List (List Nat × Val × Int)) (rows : List (List Nat))
    (got : List (List (List Nat × Term))) : Work s₀ Unit := do
  let all := got.flatten
  let mut outs : List (List Nat × Elt × Flags) := []
  for r in rows do
    let es := all.filter fun e => e.1.drop 1 = r
    match sums.find? fun x => x.1 = r && !es.isEmpty with
    | none => pure ()
    | some (_, s, k) =>
      let (vs, empty) := rowOutputs (es.map Prod.snd) s k
      if empty then
        arises .emptySoftmax
        doing (countUp SFU_EMPTY_SOFTMAX_COUNT_COUNT 1 tile)
      outs := outs ++ (es.zip vs).map fun p => (p.1.1, p.2)
  for es in got do
    let mine := es.filterMap fun e => outs.find? fun o => o.1 = e.1
    raiseFlags (mine.foldl (fun f o => f ||| o.2.2) 0)
    putWave d tile y (mine.map fun o => (o.1, o.2.1))

/-- FULL and PARTIAL, group by group (R174 to R178) (DEDUCED, log entry 29). -/
def softmaxGroups (d : Slot) (tile : Nat) (x : Tensor) (y sm inf : Option Tensor) : List (List (List Nat)) → Work s₀ Unit
  | [] => pure ()
  | rows :: rest => do
    let n := x.extent 0
    let ws := rowWaves n rows
    let got ← readTerms d tile true x ws
    let _ ← goesOn
    if (← get).stopped then pure ()
    else
      let all := got.flatten
      let rs := rows.map fun r => (r, rowSum (ofRow r all))
      raiseFlags (rs.foldl (fun f r => f ||| r.2.2.2) 0)
      let sums : List (List Nat × Val × Int) := rs.map fun r => (r.1, r.2.1, (r.2.2.1 : Int))
      match sm, inf with
      | some a, some b => putSumsOf d (if n ≤ 2048 then 2048 / laneCount n else 1) a b sums
      | _, _ => pure ()
      match y with
      | some z =>
        let again ← readTerms d tile false x ws
        putSoftmax d tile z sums rows again
      | none => pure ()
      if (← get).stopped then pure () else softmaxGroups d tile x y sm inf rest

/-- A logit of a wave of APPLY, with S and K of its row. -/
def readApply (x sm inf : Tensor) (js : List (List Nat)) : Work s₀ (List (Elt × Val × Int)) := do
  let rows := (js.map fun j => j.drop 1).eraseDups
  let xs ← readElts x js
  let ss ← readElts sm (rows.map fun r => 0 :: r)
  let ks ← readElts inf (rows.map fun r => 0 :: r)
  let sums := rows.zip (ss.zip ks)
  pure ((xs.zip js).map fun e =>
    match sums.find? fun r => r.1 = e.2.drop 1 with
    | some (_, s, k) => (e.1, s.val, k.whole)
    | none => (e.1, .nan, 0))

/-- APPLY (R176, R178): pass 2 alone. -/
def softmaxApplyWork (tile : Nat) (d : Slot) (x y sm inf : Tensor) : Work s₀ Unit := do
  let got ← readWaves [x, sm, inf] (readApply x sm inf) (rowWaves (x.extent 0) x.rows)
  let sums := got.flatten.map fun e => (e.1.drop 1, e.2.2)
  let ts ← takeTerms d tile true (got.map fun es => es.map fun e => (e.1, e.2.1))
  putSoftmax d tile y sums x.rows ts

/-- One row of MERGE (R175). -/
def mergeRow (parts : List Val) (counts : List Int) : Val × Int × Flags :=
  let (s, f) := reduceOuter addWx parts
  let (k, f') := satInt 32 (counts.foldl (· + ·) 0)
  (s.getD (.fin false 0 0), k, f ||| f' ||| if parts.any Val.isNan then flagInvalid else 0)

/-- MERGE in waves of rows, up to one that meets poison (R175). -/
def mergeWaves (d : Slot) (x xc sm inf : Tensor) : List (List (List Nat)) → Work s₀ Unit
  | [] => pure ()
  | rows :: rest => do
    let js := rows.flatMap fun r => (List.range (x.extent 0)).map fun j => j :: r
    if ← goesOn then fetchWave (readGranules [x, xc] js)
    if (← get).stopped then pure ()
    else
      let ps ← readElts x js
      let cs ← readElts xc js
      let es := js.zip (ps.zip cs)
      let rs := rows.map fun r =>
        let mine := ofRow r es
        (r, mergeRow (mine.map fun m => m.1.val) (mine.map fun m => m.2.whole))
      raiseFlags (rs.foldl (fun f r => f ||| r.2.2.2) 0)
      putSumsOf d 2048 sm inf (rs.map fun r => (r.1, r.2.1, r.2.2.1))
      mergeWaves d x xc sm inf rest

/-- SOFTMAX in the mode of its body (R172 to R176). -/
def softmaxWork (tile : Nat) (d : Slot) : Work s₀ Unit :=
  match d.ns with
  | [some x, y, sm, inf, xc] =>
    if x.extent 0 = 0 then emptyRows tile x.rows.length
    else match nsMode d.words, y, sm, inf, xc with
      | 2, some z, some a, some b, _ => softmaxApplyWork tile d x z a b
      | 3, _, some a, some b, some c => mergeWaves d x c a b (chunks 2048 x.rows)
      | _, _, _, _, _ => softmaxGroups d tile x y sm inf (chunks 16384 x.rows)
  | _ => pure ()

/-- NORM. -/
def execNorm (t : TileNo) (s : State) : Host.Outcome State Fault Refusal :=
  .next (perform s (advancing t (.ve t) (wholeRun (.ve t) [0x30] (normWork t))))

/-- A SOFTMAX descriptor of a mode runs (R172). -/
def actSoftmax (t : TileNo) (mode : Nat) : Act s₀ Unit := do
  match (← now).working (.ve t) with
  | some d => if nsMode d.words = mode then wholeRun (.ve t) [0x31] (softmaxWork t)
  | none => pure ()

/-- SOFTMAX_FULL. -/
def execSoftmaxFull (t : TileNo) (s : State) : Host.Outcome State Fault Refusal :=
  .next (perform s (advancing t (.ve t) (actSoftmax t 0)))

/-- SOFTMAX_PARTIAL. -/
def execSoftmaxPartial (t : TileNo) (s : State) : Host.Outcome State Fault Refusal :=
  .next (perform s (advancing t (.ve t) (actSoftmax t 1)))

/-- SOFTMAX_APPLY. -/
def execSoftmaxApply (t : TileNo) (s : State) : Host.Outcome State Fault Refusal :=
  .next (perform s (advancing t (.ve t) (actSoftmax t 2)))

/-- SOFTMAX_MERGE. -/
def execSoftmaxMerge (t : TileNo) (s : State) : Host.Outcome State Fault Refusal :=
  .next (perform s (advancing t (.ve t) (actSoftmax t 3)))

end Sys2Proof.Machine
end

