-- ==== Sys2Proof/Machine/Power.lean ====
section
/-! DEFINITION. Rails and operating points, droops, the power domains and their transitions, wake-on-work, the modes and
the thermal trip (R357 to R373, R386). -/

namespace Sys2Proof.Machine

variable {s₀ : State}

/-- Change power control's own state. -/
def changePwr (f : PowerUnit → PowerUnit) : Act s₀ Unit := change fun u => { u with pwr := f u.pwr }

/-! ### Rails (R358 to R360) -/

/-- The voltage of an operating point in mV (R358). -/
def opMv : Nat → Nat
  | 0 => 850
  | 1 => 750
  | 2 => 680
  | _ => 620

/-- The operating point of a target voltage. -/
def mvOp (mv : Nat) : Nat := ((List.range 4).find? fun o => opMv o = mv).getD 3

/-- A voltage goes to rail `d`'s regulator over AVSBus (R373); whether the regulator took it. It is sent again once
where it failed, and a second failure sets AVS_ERR. That a transaction fails is a free value (DEDUCED, log entry 53). -/
def avsWrite (d mv : Nat) : Act s₀ Bool := do
  send (.avs (Fin.ofNat 4 d) mv)
  let i ← freeIndex
  if !Config.freeBit i then pure true
  else do
    send (.avs (Fin.ofNat 4 d) mv)
    let j ← freeIndex
    if Config.freeBit j then raise PLANT_EVENT_AVS_ERR
    pure !Config.freeBit j

/-- The voltage of rail `d` is to rise: the increase in current that is predicted, which the spec gives no figure for, is a
free value; the rail's tiles keep to its limit (R359, R379) (DESIGN CHOICE, log entry 88). -/
def noteRaise (d : Nat) : Act s₀ Unit := do
  let i ← freeIndex
  changePlant fun p => { p with raises := mapSet (fun _ => 0) p.raises d ((Config.freeWord i).toNat % 13600) }
  fitTiles d (railTiles d)

/-- A change to the point that OP asks for begins, where it differs from the one in effect (R359). A lowering takes the
new bias and assist first. Where the regulator takes no target, the operating point is unchanged (R373) (DEDUCED, log
entry 53). -/
def startRail (d : Nat) : Act s₀ Unit := do
  let s ← now
  let mv := opMv (s.fld PWR_RAIL_OP 0 d)
  if mv ≠ s.fld PWR_RAIL_VTARGET 0 d then
    if ← avsWrite d mv then
      setF PWR_RAIL_BUSY 1 0 d
      let w ← fld PWR_STATUS_OP_BUSY
      setF PWR_STATUS_OP_BUSY (w ||| 2 ^ d)
      if mv < s.fld PWR_RAIL_VTARGET 0 d then setF PWR_RAIL_OP_NOW (mvOp mv) 0 d else noteRaise d
      setF PWR_RAIL_VTARGET mv 0 d

/-- A write of PWR.RAIL[d]: while BUSY, OP is taken when the change in progress ends (R359). -/
def hookRail (w : RegWrite) : Act s₀ Unit := do
  let d := (w.off - 0x10) / 8
  plainHook w
  if !(← isOn PWR_RAIL_BUSY 0 d) then startRail d

/-- RAIL_OP_WRITE. -/
def execRailOpWrite (port : HostNo) (d : RailNo) (v : Word) (s : State) : Host.Outcome State Fault Refusal :=
  .next (perform s (checkedWrite port (PWR_RAIL_OP.addr 0 d) v hookRail))

/-- The change in progress ends; one asked for meanwhile begins (R359) (DEDUCED, log entry 53). -/
def endRail (d mv : Nat) : Act s₀ Unit := do
  let s ← now
  setF PWR_RAIL_VSENSE mv 0 d
  setF PWR_RAIL_OP_NOW (mvOp (s.fld PWR_RAIL_VTARGET 0 d)) 0 d
  setF PWR_RAIL_BUSY 0 0 d
  let w ← fld PWR_STATUS_OP_BUSY
  setF PWR_STATUS_OP_BUSY (w ^^^ (w &&& 2 ^ d))
  changePlant fun p => { p with raises := mapSet (fun _ => 0) p.raises d 0 }
  startRail d

/-- A sensed voltage lies within 10 mV of the rail's target. -/
def State.settled (s : State) (d mv : Nat) : Bool :=
  mv ≤ s.fld PWR_RAIL_VTARGET 0 d + 10 && s.fld PWR_RAIL_VTARGET 0 d ≤ mv + 10

/-- RAIL_OP_SETTLE. -/
def actRailOpSettle (d mv : Nat) : Act s₀ Unit := do
  let s ← now
  if s.on PWR_RAIL_BUSY 0 d && s.settled d mv then endRail d mv

/-- RAIL_OP_SETTLE. -/
def execRailOpSettle (d : RailNo) (mv : BitVec 16) (s : State) : Host.Outcome State Fault Refusal :=
  .next (perform s (actRailOpSettle d mv.toNat))

/-- RAIL_SETTLE_TIMEOUT: 100 µs have passed, and the sense point is not within 10 mV of the target. -/
def actRailSettleTimeout (d mv : Nat) : Act s₀ Unit := do
  let s ← now
  if s.on PWR_RAIL_BUSY 0 d && !s.settled d mv then
    raise PLANT_EVENT_AVS_ERR
    endRail d mv

/-- RAIL_SETTLE_TIMEOUT. -/
def execRailSettleTimeout (d : RailNo) (mv : BitVec 16) (s : State) : Host.Outcome State Fault Refusal :=
  .next (perform s (actRailSettleTimeout d mv.toNat))

/-- DROOP_START: VSENSE has fallen below the target less MV (R360). -/
def actDroopStart (d mv : Nat) : Act s₀ Unit := do
  let s ← now
  if mv + s.fld PWR_DROOP_CFG_MV < s.fld PWR_RAIL_VTARGET 0 d then
    setF PWR_RAIL_VSENSE mv 0 d
    if !s.units.pwr.droops.contains d then
      changePwr fun p => { p with droops := setIns p.droops d }
      countUp PWR_DROOP_COUNT 1 0 d
      change fun u => { u with fail := { u.fail with droops := u.fail.droops + 1 } }

/-- DROOP_START. -/
def execDroopStart (d : RailNo) (mv : BitVec 16) (s : State) : Host.Outcome State Fault Refusal :=
  .next (perform s (actDroopStart d mv.toNat))

/-- DROOP_END. -/
def execDroopEnd (d : RailNo) (s : State) : Host.Outcome State Fault Refusal :=
  .next (perform s (changePwr fun p => { p with droops := p.droops.filter (· ≠ d.val) }))

/-! ### Entering a state (R361 to R364) -/

/-- What a power domain is (R361). -/
inductive DomKind where
  | array (t : Nat)
  | vec (t : Nat)
  | quarter (t q : Nat)
  | die (n : Nat)
  | phy (n : Nat)
  | ports (g : Nat)
  | host (h : Nat)
  deriving DecidableEq, Repr

/-- The numbering of R361. -/
def domKind (d : Nat) : DomKind :=
  if d < 384 then
    (match d % 6 with
     | 0 => .array (d / 6)
     | 1 => .vec (d / 6)
     | q => .quarter (d / 6) (q - 2))
  else if d < 400 then .die (d - 384)
  else if d < 416 then .phy (d - 400)
  else if d < 422 then .ports (d - 416)
  else if d < 424 then .host (d - 422)
  else if d < 430 then .ports (d - 418)
  else .host (d - 428)

/-- Set the state of a domain. -/
def setDom (d v : Nat) : Act s₀ Unit := do
  let w ← fld PWR_DSTATE 0 (d / 16)
  setF PWR_DSTATE (w - w / 16 ^ (d % 16) % 16 * 16 ^ (d % 16) + v % 16 * 16 ^ (d % 16)) 0 (d / 16)

/-- The registers of one block instance return to their reset values (DESIGN CHOICE, log entry 7; DEDUCED, log entry
55). -/
def wipeBlock (b : Blk) (i : Nat) : Act s₀ Unit :=
  emit (.wipeRegs fun a => match place a with
    | .reg c k _ => c == b && k == i
    | _ => false)

/-- Byte `a` lies in quarter `q` of palette `t`. -/
def inQuarter (t q a : Nat) : Bool :=
  match place a with
  | .palette k o => k == t && o / 0xc00000 == q
  | _ => false

/-- Power is removed from a quarter: its contents are lost, and Q0 takes the counters and records of R73 with it (DESIGN
CHOICE, log entry 7; DEDUCED, log entry 20). A wait that the cleared counters satisfy is noted (R70). -/
def darkenQuarter (t q : Nat) : Act s₀ Unit := do
  let s ← now
  let gone := (s.poison.filter fun g => inQuarter t q (64 * g)).length
  emit (.wipeMem (inQuarter t q))
  setF PAL_POISONED_COUNT (s.fld PAL_POISONED_COUNT t - gone) t
  dropBanked fun b => match b with
    | .back _ g => inQuarter t q (64 * g)
    | _ => false
  if q = 0 then
    emit (.wipeRegs fun a => match place a with
      | .reg .pal k off => k == t && (0x2000 ≤ off || (0x10 ≤ off && off < 0x30) || off = 0x38)
      | _ => false)
    settleWaits

/-- The registers of a port return to their reset values, but for LINK.CTL, whose EN outlasts the group's OFF (R368)
(DEDUCED, log entry 55). -/
def wipeLink (p : Nat) : Act s₀ Unit := do
  let c ← ask fun s => s.held (LINK_CTL_EN.addr p 0)
  wipeBlock .link p
  emit (.reg (LINK_CTL_EN.addr p 0) c)

/-- A port fails because its group loses power (R249, R368) (DEDUCED, log entry 55). -/
def darkenPort (p : Nat) : Act s₀ Unit := do
  let st ← fld LINK_STATUS_STATE p
  if st ≠ 0 ∧ st ≠ 5 then failPort p
  withPort p fun u => { u with idle := false, retraining := false }
  wipeLink p

/-- Power leaves a domain, and its contents and its registers' values with it (R362, R363, R364) (DEDUCED, log entry
55). -/
def removePower (d : Nat) : Act s₀ Unit :=
  match domKind d with
  | .array t => do
    wipeBlock .mx t
    changeMx fun u => { u with runs := u.runs.filter fun r => r.tile ≠ t, parks := u.parks.filter fun e => e.1 ≠ t }
    changePlant fun p => { p with ballast := p.ballast.filter (· ≠ t) }
  | .vec t => do
    wipeBlock .ve t
    wipeBlock .sfu t
    change fun u => { u with ve := u.ve.filter fun r => r.tile ≠ t }
  | .quarter t q => darkenQuarter t q
  | .die n => do
    let st ← ask fun s => s.held (HBM_STATUS_STATE.addr n 0)
    wipeBlock .var n
    wipeBlock .hbm n
    emit (.reg (HBM_STATUS_STATE.addr n 0) st)
    changeVar fun v => { v with
      runs := v.runs.filter fun r => r.die ≠ n
      holds := v.holds.filter fun h => h.1 ≠ n
      progs := v.progs.filter fun e => e.1 / 4 ≠ n }
  | .phy n => do
    if (← fld HBM_STATUS_STATE n) = 2 then setF HBM_STATUS_STATE 3 n
  | .ports g => do
    darkenPort (2 * g)
    darkenPort (2 * g + 1)
  | .host h => do
    wipeBlock .host h
    resetFunction h
    clearConfig h

/-- What happens as a domain becomes ON: the ports of a group with EN set train (R368), and while RECOVER is 1 the CMC
holds TREE_EN of an array (R332) (DEDUCED, log entry 55). -/
def enterOn (d : Nat) : Act s₀ Unit := do
  setDom d 3
  match domKind d with
  | .array t => if ← isOn RISK_CTL_RECOVER then raise MX_CTL_TREE_EN t
  | .ports g => each [2 * g, 2 * g + 1] fun p => do
    if ← isOn LINK_CTL_EN p then startTraining p
  | _ => pure ()

/-! ### Transitions (R366, R368) -/

/-- The engines of a domain have no descriptor in progress. -/
def State.domIdle (s : State) (d : Nat) : Bool :=
  match domKind d with
  | .array t => mxIdle s (Fin.ofNat 64 t)
  | .vec t => !s.busy (.ve (Fin.ofNat 64 t))
  | .die n => !s.busy (.die (Fin.ofNat 16 n))
  | _ => true

/-- The domains whose requests that arrived earlier must have ended before a request starts (R368): Q0 before a wake of
another quarter, the other quarters before an OFF of Q0, the die before a wake of its PHY, and the PHY before an OFF of
its die (DEDUCED, log entry 54). -/
def waitsFor (d : Nat) (op : DomOp) : List Nat :=
  match domKind d, op with
  | .quarter t q, .wake _ => if q = 0 then [] else [6 * t + 2]
  | .quarter t q, .off => if q = 0 then [6 * t + 3, 6 * t + 4, 6 * t + 5] else []
  | .phy n, .wake _ => [384 + n]
  | .die n, .off => [400 + n]
  | _, _ => []

/-- The request at position `k` of the queue may start: nothing earlier of its domain or of those it waits for remains,
and no step of its domain is under way. -/
def State.mayStart (s : State) (earlier : List DomReq) (r : DomReq) : Bool :=
  !s.units.pwr.moving.contains r.dom && s.dom r.dom != 1 && s.dom r.dom != 5
    && !earlier.any fun e => e.dom == r.dom || (waitsFor r.dom r.op).contains e.dom

/-- What a request does to its domain as it stands: it ends, it starts a timed step, or it waits. -/
inductive DomStart where
  | ends
  | step
  | waits
  deriving DecidableEq, Repr

/-- The domain may leave ON: its engine has no descriptor in progress, and for the OFF of a PHY that goes with its die, the
die's engine has none (R368). -/
def State.mayVacate (s : State) (r : DomReq) : Bool :=
  s.domIdle r.dom && match domKind r.dom with
    | .phy n => s.domIdle (384 + n) || !(s.units.pwr.reqs.any fun e => e.dom = 384 + n && e.op = .off && e.src = r.src)
    | _ => true

/-- The start of a request in a state of its domain (R368). Nothing but a reset leaves TRIPPED (R372). -/
def State.startOf (s : State) (r : DomReq) : DomStart :=
  let st := s.dom r.dom
  if st = 6 then .waits
  else match r.op with
  | .wake rel => if st = 0 ∨ st = 4 ∨ (st = 2 ∧ rel) then .step else .ends
  | .wakeFor _ => if st = 0 then .step else .ends
  | .idle => if st ≠ 3 then .ends else if s.mayVacate r then .step else .waits
  | .off => if st = 0 then .ends else if s.mayVacate r then .step else .waits
  | .release => if st = 2 then .step else .ends

/-- PWR.LAST_WAKE takes a wake that begins now (R370, R386) (DEDUCED, log entry 54). -/
def noteWake (d : Nat) (src : DomSource) : Act s₀ Unit := do
  let s ← now
  raise PWR_LAST_WAKE_VALID
  setF PWR_LAST_WAKE_SOURCE (match src with | .descriptor _ => 0 | .command => 1 | .work => 2)
  setF PWR_LAST_WAKE_DOMAIN d
  setF PWR_LAST_WAKE_TIME (s.ticks % 2 ^ 40)

/-- A request has ended: its PWR_DOMAIN completes once all of its requests have, and DOM_CMD is done (R368, R386). -/
def endReq (r : DomReq) : Act s₀ Unit := do
  changePwr fun p => { p with reqs := p.reqs.erase r }
  let s ← now
  match r.src with
  | .descriptor id => if !s.units.pwr.reqs.any fun e => e.src = .descriptor id then finish id
  | .command => do
    if !s.units.pwr.reqs.any fun e => e.src = .command then
      setF PWR_DOM_CMD_GO 0
      setF PWR_DOM_CMD_RESULT 1
  | .work => pure ()

/-- A domain is in a timed step of its transition. -/
def setMoving (d : Nat) : Act s₀ Unit := changePwr fun p => { p with moving := setIns p.moving d }

/-- A timed step begins. A quarter's OFF begins with CLOSING, and the patrol scrub skips its lines from then on (R78, R81); a
woken domain shows WAKING (DEDUCED, log entry 54). -/
def startStep (r : DomReq) : Act s₀ Unit := do
  let s ← now
  match r.op, domKind r.dom with
  | .off, .quarter t _ => do
    setDom r.dom 5
    skipScrub t
  | .wake _, _ | .wakeFor _, _ => do
    if s.dom r.dom ≠ 2 then noteWake r.dom r.src
    if s.dom r.dom = 0 then setDom r.dom 1
    setMoving r.dom
  | _, _ => setMoving r.dom

/-- Take the requests of a list in order: each that can start does so (DEDUCED, log entry 54). -/
def settleReqs (earlier : List DomReq) : List DomReq → Act s₀ Unit
  | [] => pure ()
  | r :: rs => do
    let s ← now
    if s.mayStart earlier r then
      match s.startOf r with
      | .ends => do
        endReq r
        settleReqs earlier rs
      | .step => do
        startStep r
        settleReqs (r :: earlier) rs
      | .waits => settleReqs (r :: earlier) rs
    else settleReqs (r :: earlier) rs

/-- The requests that can start now do so (R368). -/
def settlePower : Act s₀ Unit := do
  let s ← now
  settleReqs [] s.units.pwr.reqs

/-- Ask for transitions. -/
def askPower (rs : List DomReq) : Act s₀ Unit := do
  changePwr fun p => { p with reqs := p.reqs ++ rs }
  settlePower

/-- The request under way in a domain: its oldest. -/
def State.headReq (s : State) (d : Nat) : Option DomReq := s.units.pwr.reqs.find? fun r => r.dom = d

/-- The domain is to leave ON once its engine is idle, so its engine issues nothing (R368). -/
def State.leaving (s : State) (d : Nat) : Bool :=
  match s.headReq d with
  | some r => r.op = .idle || r.op = .off
  | none => false

/-- The new state of a domain whose wake ends: a quarter has its own ending (R83). -/
def endWake (r : DomReq) (rel : Bool) (st : Nat) : Act s₀ Unit := do
  if st = 1 then
    setDom r.dom 2
    match domKind r.dom with
    | .phy n => if (← fld HBM_STATUS_STATE n) = 3 then setF HBM_STATUS_STATE 2 n
    | _ => pure ()
    if rel then setMoving r.dom else endReq r
  else
    enterOn r.dom
    endReq r

/-- DOMAIN_TRANSITION_DONE (R366). The ramp of a waking quarter ends here, and its initialisation follows (R83). -/
def actDomainTransitionDone (d : Nat) : Act s₀ Unit := do
  let s ← now
  match s.headReq d with
  | none => pure ()
  | some r =>
    if s.units.pwr.moving.contains d then
      changePwr fun p => { p with moving := p.moving.filter (· ≠ d) }
      match r.op, domKind d with
      | .wake _, .quarter _ _ | .wakeFor _, .quarter _ _ => pure ()
      | .wake rel, _ | .wakeFor rel, _ => endWake r rel (s.dom d)
      | .idle, k => do
        setDom d 4
        match k with
        | .array t => changePlant fun p => { p with ballast := p.ballast.filter (· ≠ t) }
        | _ => pure ()
        endReq r
      | .off, _ => do
        removePower d
        setDom d 0
        endReq r
      | .release, _ => do
        enterOn d
        endReq r
      settlePower

/-- DOMAIN_TRANSITION_DONE. -/
def execDomainTransitionDone (d : DomNo) (s : State) : Host.Outcome State Fault Refusal :=
  .next (perform s (actDomainTransitionDone d))

/-- GATE_DRAIN_END: nothing that the quarter's gate let in is left, no read, no transfer and no write-back. The gate reads
DARK, and power removal begins (R81, R369) (DEDUCED, log entry 54). -/
def actGateDrainEnd (t q : Nat) : Act s₀ Unit := do
  let s ← now
  let d := 6 * t + 2 + q
  if s.dom d = 5 ∧ !(s.units.pal.banks.any fun b => b.granules.any fun g => inQuarter t q (64 * g)) then
    setDom d 0
    setMoving d

/-- GATE_DRAIN_END. -/
def execGateDrainEnd (t : TileNo) (q : Fin 4) (s : State) : Host.Outcome State Fault Refusal :=
  .next (perform s (actGateDrainEnd t q))

/-- QUARTER_INIT_DONE: every row of the quarter has been written +0; its gate becomes OPEN (R83). -/
def actQuarterInitDone (t q : Nat) : Act s₀ Unit := do
  let s ← now
  let d := 6 * t + 2 + q
  if s.dom d = 1 ∧ !s.units.pwr.moving.contains d then
    emit (.wipeMem (inQuarter t q))
    setDom d 3
    match s.headReq d with
    | some r => endReq r
    | none => pure ()
    settlePower

/-- QUARTER_INIT_DONE. -/
def execQuarterInitDone (t : TileNo) (q : Fin 4) (s : State) : Host.Outcome State Fault Refusal :=
  .next (perform s (actQuarterInitDone t q))

/-! ### PWR_DOMAIN (R367, R368, R370) -/

/-- The numbers below `n` whose bit is set in a mask. -/
def maskBits (v n : Nat) : List Nat := (List.range n).filter (bit v)

/-- TILES, DIES, PHYS, DOMS and OP of a PWR_DOMAIN body. -/
def pwrTiles (w : Descriptor) : List Nat := maskBits (body w 0 63 0) 64
def pwrDies (w : Descriptor) : List Nat := maskBits (body w 1 47 32) 16
def pwrPhys (w : Descriptor) : List Nat := maskBits (body w 1 31 16) 16
def pwrDoms (w : Descriptor) : Nat := body w 1 13 8
def pwrOp (w : Descriptor) : Nat := body w 1 3 0

/-- The body checks of PWR_DOMAIN, in the order of R367. -/
def prepPwrDomain (w : Descriptor) : Prep s₀ (List Nat) := do
  let op := pwrOp w
  demand (body w 1 63 48 = 0 && body w 1 15 14 = 0 && body w 1 7 5 = 0 && zeroFrom w 2)
  demand (op < 6 && (body w 1 4 4 = 0 || op = 0))
  let quarters := pwrDoms w / 4
  let named := quarters ≠ 0 && !(pwrTiles w).isEmpty || !(pwrPhys w).isEmpty
  demand !(op = 1 && named)
  demand !(op ≥ 4 && named)
  let s ← OptionT.lift (doing now)
  demand !(op = 2 && bit quarters 0 && (pwrTiles w).any fun t =>
    [1, 2, 3].any fun q => !bit quarters q && s.dom (6 * t + 2 + q) ≠ 0)
  let io ← OptionT.lift get
  permit ((pwrTiles w).all fun t => s.tileOwner t = some io.atelier)
  permit (((pwrDies w) ++ (pwrPhys w)).all fun n => s.dieOwner n = some io.atelier)
  pure []

/-- The domains of the named tiles, Q0 last among the quarters where `q0Last`. -/
def tileDoms (w : Descriptor) (q0Last : Bool) : List Nat :=
  let order := if q0Last then [0, 1, 3, 4, 5, 2] else [0, 1, 2, 3, 4, 5]
  (pwrTiles w).flatMap fun t => (order.filter (bit (pwrDoms w))).map fun k => 6 * t + k

/-- The requests for a wake of one domain, with the wakes that it needs first (R368). -/
def wakeReqs (src : DomSource) (rel : Bool) (d : Nat) : List DomReq :=
  match domKind d with
  | .quarter t q => if q = 0 then [⟨d, .wake rel, src⟩] else [⟨6 * t + 2, .wakeFor rel, src⟩, ⟨d, .wake rel, src⟩]
  | .phy n => [⟨384 + n, .wakeFor true, src⟩, ⟨d, .wake rel, src⟩]
  | _ => [⟨d, .wake rel, src⟩]

/-- The requests for an OFF of one domain: a die's PHY goes first (R368). -/
def offReqs (src : DomSource) (d : Nat) : List DomReq :=
  match domKind d with
  | .die n => [⟨400 + n, .off, src⟩, ⟨d, .off, src⟩]
  | _ => [⟨d, .off, src⟩]

/-- The PWR_DOMAIN in progress with a delivery number and an operation, whose requests have not been made. -/
def State.pwrRun (s : State) (id op : Nat) : Option Slot :=
  match s.slot id with
  | some d =>
    if d.on = some .power ∧ d.phase = .issued ∧ opcodeOf d.words = 0x78 ∧ pwrOp d.words = op
        ∧ !(s.units.pwr.reqs.any fun r => r.src = .descriptor id) then some d else none
  | none => none

/-- A PWR_DOMAIN makes its requests; with none to make it is over at once. -/
def actPwrDomain (id op : Nat) (reqs : Descriptor → DomSource → List DomReq) : Act s₀ Unit := do
  let s ← now
  match s.pwrRun id op with
  | none => pure ()
  | some d =>
    let rs := reqs d.words (.descriptor id)
    if rs.isEmpty then finish id else askPower rs

/-- The dies and PHYs that a body names, as domains. -/
def pwrStacks (w : Descriptor) : List Nat := (pwrDies w).map (384 + ·) ++ (pwrPhys w).map (400 + ·)

/-- PWR_DOMAIN_WAKE. -/
def execPwrDomainWake (id : Nat) (s : State) : Host.Outcome State Fault Refusal :=
  .next (perform s (actPwrDomain id 0 fun w src =>
    (tileDoms w false ++ pwrStacks w).flatMap (wakeReqs src (body w 1 4 4 = 1))))

/-- PWR_DOMAIN_IDLE. -/
def execPwrDomainIdle (id : Nat) (s : State) : Host.Outcome State Fault Refusal :=
  .next (perform s (actPwrDomain id 1 fun w src => (tileDoms w false ++ pwrStacks w).map fun d => ⟨d, .idle, src⟩))

/-- PWR_DOMAIN_OFF. -/
def execPwrDomainOff (id : Nat) (s : State) : Host.Outcome State Fault Refusal :=
  .next (perform s (actPwrDomain id 2 fun w src => (tileDoms w true ++ pwrStacks w).flatMap (offReqs src)))

/-- PWR_DOMAIN_RELEASE. -/
def execPwrDomainRelease (id : Nat) (s : State) : Host.Outcome State Fault Refusal :=
  .next (perform s (actPwrDomain id 3 fun w src => (tileDoms w false ++ pwrStacks w).map fun d => ⟨d, .release, src⟩))

/-- WOW_SET and WOW_CLEAR (R370): the named tiles and dies. -/
def actWow (id : Nat) (set : Bool) : Act s₀ Unit := do
  let s ← now
  match s.pwrRun id (if set then 4 else 5) with
  | none => pure ()
  | some d =>
    let tiles := body d.words 0 63 0
    let dies := body d.words 1 47 32
    let put (old mask : Nat) : Nat := if set then old ||| mask else old ^^^ (old &&& mask)
    setF PWR_WOW_TILES (put (s.fld PWR_WOW_TILES) tiles)
    setF PWR_WOW_DIES_DIES (put (s.fld PWR_WOW_DIES_DIES) dies)
    finish id

/-- WOW_SET. -/
def execWowSet (id : Nat) (s : State) : Host.Outcome State Fault Refusal := .next (perform s (actWow id true))
/-- WOW_CLEAR. -/
def execWowClear (id : Nat) (s : State) : Host.Outcome State Fault Refusal := .next (perform s (actWow id false))

/-- The domain of the engine that a descriptor needs (R365). -/
def engineDomain : Engine → Option Nat
  | .mx t _ => some (6 * t)
  | .ve t => some (6 * t + 1)
  | .die n => some (384 + n)
  | _ => none

/-- A descriptor delivered to an engine whose domain is OFF or IDLE wakes and releases it, where wake-on-work is set
(R370) (DEDUCED, log entry 54). -/
def wakeOnWork (e : Engine) : Act s₀ Unit := do
  let s ← now
  match engineDomain e with
  | none => pure ()
  | some d =>
    let wow : Bool := match e with
      | .die n => bit (s.fld PWR_WOW_DIES_DIES) n
      | .mx t _ | .ve t => bit (s.fld PWR_WOW_TILES) t
      | _ => false
    if wow ∧ (s.dom d = 0 ∨ s.dom d = 4) ∧ !(s.units.pwr.reqs.any fun r => r.dom = d && r.src = .work) then
      askPower [⟨d, .wake true, .work⟩]

/-! ### PWR.DOM_CMD (R368, R386) -/

/-- A command that is refused (R368): a reserved operation or domain, an IDLE that R363 does not allow the domain, an
OFF of a host port that owns an atelier or is the management port, and an OFF of Q0 before the tile's other quarters
(DEDUCED, log entry 56). -/
def State.refusesCmd (s : State) (op d : Nat) : Bool :=
  3 < op || 431 < d ||
  match op, domKind d with
  | 1, .quarter _ _ | 1, .phy _ | 1, .ports _ | 1, .host _ => true
  | 2, .host h => h = s.mgmtPort || (List.range 16).any fun a => s.owns h (some a)
  | 2, .quarter t q => q = 0 && [1, 2, 3].any fun k => s.dom (6 * t + 2 + k) ≠ 0
  | _, _ => false

/-- A write of PWR.DOM_CMD. While a command is in progress a further GO starts nothing (DEDUCED, log entry 56). -/
def hookDomCmd (w : RegWrite) : Act s₀ Unit := do
  let s ← now
  plainHook w
  if w.does PWR_DOM_CMD_GO ∧ !s.on PWR_DOM_CMD_GO then
    let op := w.field PWR_DOM_CMD_OP
    let d := w.field PWR_DOM_CMD_DOMAIN
    if s.refusesCmd op d then setF PWR_DOM_CMD_RESULT 2
    else
      raise PWR_DOM_CMD_GO
      setF PWR_DOM_CMD_RESULT 0
      askPower (match op with
        | 0 => wakeReqs .command false d
        | 1 => [⟨d, .idle, .command⟩]
        | 2 => offReqs .command d
        | _ => [⟨d, .release, .command⟩])

/-- DOM_CMD_WAKE. -/
def execDomCmdWake (port : HostNo) (v : Word) (s : State) : Host.Outcome State Fault Refusal :=
  .next (perform s (checkedWrite port (PWR_DOM_CMD_GO.addr 0 0) v hookDomCmd))
/-- DOM_CMD_IDLE. -/
def execDomCmdIdle (port : HostNo) (v : Word) (s : State) : Host.Outcome State Fault Refusal :=
  .next (perform s (checkedWrite port (PWR_DOM_CMD_OP.addr 0 0) v hookDomCmd))
/-- DOM_CMD_OFF. -/
def execDomCmdOff (port : HostNo) (v : Word) (s : State) : Host.Outcome State Fault Refusal :=
  .next (perform s (checkedWrite port (PWR_DOM_CMD_RESULT.addr 0 0) v hookDomCmd))
/-- DOM_CMD_RELEASE. -/
def execDomCmdRelease (port : HostNo) (v : Word) (s : State) : Host.Outcome State Fault Refusal :=
  .next (perform s (checkedWrite port (PWR_DOM_CMD_DOMAIN.addr 0 0) v hookDomCmd))

/-! ### Modes and the thermal trip (R371, R372) -/

/-- A write of PWR.CTL: QUIET chooses RUN or QUIET, and ballast stops in QUIET. -/
def hookPwrCtl (w : RegWrite) : Act s₀ Unit := do
  plainHook w
  if (← fld PWR_STATUS_MODE) ≠ 2 then setF PWR_STATUS_MODE (w.field PWR_CTL_QUIET)
  if w.field PWR_CTL_QUIET = 1 then changePlant fun p => { p with ballast := [] }

/-- QUIET_WRITE. -/
def execQuietWrite (port : HostNo) (v : Word) (s : State) : Host.Outcome State Fault Refusal :=
  .next (perform s (checkedWrite port (PWR_CTL_QUIET.addr 0 0) v hookPwrCtl))

/-- The tile and Varnish domains. -/
def trippable : List Nat := List.range 400

/-- Every descriptor in progress is lost, with what its engine held for it (R372) (DEDUCED, log entry 56). -/
def loseWork : Act s₀ Unit := do
  dropBanked fun _ => true
  changeRings fun u => { u with slots := u.slots.filter fun d => !(d.phase = .issued || d.phase = .done) }
  change fun u => { u with
    mx := {}
    ve := []
    var := { u.var with runs := [], exchanges := [] }
    fab := { u.fab with colls := [], waiting := [] }
    fail := { u.fail with jobs := u.fail.jobs.filter fun j => j.slot.isNone }
    pmc := { u.pmc with windows := [], lent := [] }
    pwr := { u.pwr with
      reqs := u.pwr.reqs.filter fun r => 400 ≤ r.dom && !(match r.src with | .descriptor _ => true | _ => false)
      moving := u.pwr.moving.filter fun d => 400 ≤ d } }
  rearm

/-- THERMAL_TRIP: the hottest sensor has reached 115 °C (R372) (DEDUCED, log entry 56). -/
def actThermalTrip (quarterDegrees : Int) : Act s₀ Unit := do
  let s ← now
  if 460 ≤ quarterDegrees ∧ s.fld PWR_STATUS_MODE ≠ 2 then
    setF PWR_STATUS_MODE 2
    changePwr fun p => { p with thermTrip := true }
    loseWork
    each trippable removePower
    each trippable fun d => setDom d 6
    if s.on PWR_DOM_CMD_GO ∧ !((← now).units.pwr.reqs.any fun r => r.src = .command) then setF PWR_DOM_CMD_GO 0

/-- THERMAL_TRIP. -/
def execThermalTrip (quarterDegrees : Int) (s : State) : Host.Outcome State Fault Refusal :=
  .next (perform s (actThermalTrip quarterDegrees))

end Sys2Proof.Machine
end

