-- ==== Sys2Proof/Machine/Plant.lean ====
section
/-! DEFINITION. The ramp governor, load-step notice, curtail, the plant link and the regulators' telemetry (R373 to R385,
R387). -/

namespace Sys2Proof.Machine

variable {s₀ : State}

/-! ### Limits (R372, R377, R383, R384) -/

/-- CEILING; above 5,000 it acts as 5,000. -/
def State.ceiling (s : State) : Nat := min 5000 (s.fld PLANT_LIMITS_CEILING)

/-- The thermal ceiling (R372), from the hottest junction in quarters of a degree. -/
def State.thermalCeiling (s : State) (quarterDegrees : Int) : Nat :=
  let limit : Int := 4 * ((min 105 (s.fld PLANT_THERM_T_LIMIT) : Nat) : Int)
  if quarterDegrees ≤ limit then s.ceiling
  else max 1000 (s.ceiling - s.fld PLANT_THERM_STEP_W * (((quarterDegrees - limit).toNat + 1) / 2))

/-- The SoC that counts: SOC_LO while stale, else that of the last valid frame, where one has come (R383). -/
def State.soc (s : State) : Option Nat :=
  if s.on PLANT_STATUS_SOC_STALE then some (s.fld PLANT_SOC_SOC_LO)
  else if s.on PLANT_SOC_NOW_VALID then some (s.fld PLANT_SOC_NOW_SOC)
  else none

/-- The SoC ceiling (R383); none is no limit. -/
def State.socCeiling (s : State) : Option Nat :=
  if !s.on PLANT_CTL_SOC_EN then none
  else match s.soc with
    | none => none
    | some c =>
      let lo := s.fld PLANT_SOC_SOC_LO
      let hi := s.fld PLANT_SOC_SOC_HI
      let low := s.fld PLANT_SOC_SOC_CEIL
      if hi ≤ c then none
      else if c ≤ lo then some low
      else
        let span : Int := ((s.ceiling : Nat) : Int) - (low : Int)
        some ((low : Int) + Int.tdiv (span * ((c - lo : Nat) : Int)) ((hi - lo : Nat) : Int)).toNat

/-- The ceiling of a curtail level (R384). -/
def State.curtEntry (s : State) (l : Nat) : Nat := s.fld PLANT_CURT_TABLE 0 (l / 4) / 65536 ^ (l % 4) % 65536

/-- A curtail is in effect. -/
def State.curtailed (s : State) : Bool := s.on PLANT_STATUS_CURTAILED

/-- ceil_eff (R377). -/
def State.ceilEff (s : State) (quarterDegrees : Int) : Nat :=
  let a := min s.ceiling (s.thermalCeiling quarterDegrees)
  let b := match s.socCeiling with
    | some c => min a c
    | none => a
  if s.curtailed then min b (s.curtEntry (s.fld PLANT_STATUS_CURT_LVL)) else b

/-- floor_eff, from p_est of 1 µs earlier (R377). In TRIPPED there is no work to hold up (DESIGN CHOICE, log entry 57).
-/
def State.floorEff (s : State) (ceil before : Nat) : Nat :=
  let ramp := (100 * before - s.fld PLANT_LIMITS_RAMP_DOWN) / 100
  if s.curtailed then 0
  else match s.fld PWR_STATUS_MODE with
    | 0 => min ceil (max (s.fld PLANT_LIMITS_FLOOR) ramp)
    | 1 => min ceil ramp
    | _ => 0

/-- The most that p_est may be, from p_est of 1 µs earlier (R377) (DESIGN CHOICE, log entry 57). -/
def State.riseLimit (s : State) (ceil before : Nat) : Nat :=
  let up := s.fld PLANT_LIMITS_RAMP_UP
  if up = 0xffff then ceil else min ceil ((100 * before + up) / 100)

/-! ### Throttle and ballast (R376, R378) -/

/-- A stamped MX_PRODUCT is armed on tile `t`, and its stamp less 64 ticks has been reached (R378). -/
def State.ballastDue (s : State) (t : Nat) : Bool :=
  s.slots.any fun d => d.target = t && d.lc.isSome && d.unlaunched && opcodeOf d.words = 0x20
    && decide (-64 ≤ sdiff (s.now40 t) (stampOf d.words) 40)

/-- The array of tile `t` is kept free for a stamp: from 64 ticks before it until it has passed (R378). -/
def State.keptFree (s : State) (t : Nat) : Bool :=
  s.slots.any fun d => d.target = t && d.lc.isSome && d.unlaunched && opcodeOf d.words = 0x20
    && let l := sdiff (s.now40 t) (stampOf d.words) 40
       decide (-64 ≤ l) && decide (l ≤ 0)

/-- Tile `t`'s array can run ballast (R378). -/
def State.mayBallast (s : State) (t : Nat) : Bool :=
  s.dom (6 * t) = 3 && mxIdle s (Fin.ofNat 64 t) && Config.ballastMask.getLsbD t && !s.keptFree t

/-- The power that the predicted currents make, in W (R378). -/
def State.predictedPower (s : State) : Nat :=
  (List.range 4).foldl (fun a r => a + s.fld PWR_RAIL_VSENSE 0 r * s.predicted r) 0 / 8000 + s.fld PLANT_UNCORE_W

/-- Ballast is called for: predicted power has not reached floor_eff (R377, R378). -/
def State.callsBallast (s : State) : Bool :=
  s.fld PWR_STATUS_MODE = 0 && !s.curtailed && decide (s.predictedPower < s.fld PLANT_STATUS_FLOOR_EFF)

/-- The array of tile `t` runs ballast, within its rail's limit (R378, R380). -/
def startBallast (t : Nat) : Act s₀ Unit := do
  changePlant fun p => { p with ballast := setIns p.ballast t }
  fitTiles (railOf t) [t]

/-- A throttle that a free value `k` moves: down, at least by 1 where it can, or up (R377, R379) (DESIGN CHOICE, log
entry 57). -/
def movedTheta (down : Bool) (k th : Nat) : Nat :=
  if down then (if th ≤ 1 then 1 else 1 + k % (th - 1)) else th + k % (65 - th)

/-- The throttles of tiles after a move. -/
def PlantUnit.moved (p : PlantUnit) (down : Bool) (k : Nat) (ts : List Nat) : PlantUnit :=
  { p with thetas := ts.foldl (fun m t => mapSet (fun _ => 64) m t (movedTheta down k (mapGet (fun _ => 64) m t))) p.thetas }

/-- The throttles of a rail rise, where what they then let through is within its limit (R379) (DESIGN CHOICE, log entry 57). -/
def raiseThetas (k r : Nat) : Act s₀ Unit := do
  let s ← now
  let p := s.units.plant.moved false k (railTiles r)
  if State.fits { s with units := { s.units with plant := p } } r then changePlant fun _ => p

/-- The throttle of every tile moves: down where power is above a limit, and up by as much as the notice contract admits
where it is not. How far it moves is a free value (DESIGN CHOICE, log entry 57). -/
def moveThetas (down : Bool) : Act s₀ Unit := do
  let i ← freeIndex
  let k := (Config.freeWord i).toNat
  if down then changePlant fun p => p.moved true k (List.range 64) else each [0, 1, 2, 3] (raiseThetas k)

/-- Arrays are taken for ballast, in the order given, until predicted power reaches floor_eff (R378). -/
def addBallast : List Nat → Act s₀ Unit
  | [] => pure ()
  | t :: ts => do
    let s ← now
    if s.callsBallast then
      if s.mayBallast t && !s.units.plant.ballast.contains t then startBallast t
      addBallast ts

/-- Arrays whose ballast the floor does not need leave it, in the order given (DESIGN CHOICE, log entry 57). -/
def dropBallast : List Nat → Act s₀ Unit
  | [] => pure ()
  | t :: ts => do
    let s ← now
    let p := { s.units.plant with ballast := s.units.plant.ballast.filter (· ≠ t) }
    if State.callsBallast { s with units := { s.units with plant := p } } then pure ()
    else
      changePlant fun _ => p
      dropBallast ts

/-- Ballast is added, in ascending tile number, or taken away, in descending (R378). -/
def moveBallast (more : Bool) : Act s₀ Unit := do
  if more then addBallast (List.range 64) else dropBallast (← now).units.plant.ballast.reverse

/-- The array of tile `t` has completed its descriptor: it goes on with ballast where that is called for (R378). -/
def resumeBallast (t : Nat) : Act s₀ Unit := do
  let s ← now
  if s.callsBallast && s.mayBallast t then startBallast t

/-- The curtail entry is met, or cannot be (R384) (DEDUCED, log entry 58). -/
def settleCurtAck : Act s₀ Unit := do
  let s ← now
  if s.curtailed then
    if s.fld PLANT_STATUS_P_EST ≤ s.curtEntry (s.fld PLANT_STATUS_CURT_LVL) then raise PLANT_STATUS_CURT_ACK
    else if (List.range 64).all fun t => s.theta t = 1 then raise PLANT_EVENT_CURT_UNMET

/-- One update of the governor (R375, R377) (DESIGN CHOICE, log entry 57). -/
def actGovernorUpdate (rails : List RailSense) (quarterDegrees : Int) : Act s₀ Unit := do
  each rails.zipIdx fun r => do
    setF PWR_RAIL_VSENSE r.1.mv.toNat 0 r.2
    setF PWR_RAIL_ISENSE r.1.amps.toNat 0 r.2
  let s ← now
  let before := s.fld PLANT_STATUS_P_EST
  let p := min 0xffff ((rails.foldl (fun a r => a + r.mv.toNat * r.amps.toNat) 0) / 1000 + s.fld PLANT_UNCORE_W)
  let ceil := s.ceilEff quarterDegrees
  let floor := s.floorEff ceil before
  setF PLANT_THERM_TJ_MAX (intCode 16 (max (-32768) (min 32767 quarterDegrees)))
  setF PLANT_STATUS_P_EST p
  setF PLANT_STATUS_CEIL_EFF ceil
  setF PLANT_STATUS_FLOOR_EFF floor
  changePlant fun x => { x with estimates := (p :: x.estimates).take 100 }
  if s.thermalCeiling quarterDegrees < s.ceiling then raise PLANT_EVENT_THERM_LIMIT
  if s.socCeiling.any (· < s.ceiling) then raise PLANT_EVENT_SOC_LOW
  settleCurtAck
  moveThetas (s.riseLimit ceil before < p)
  if s.fld PWR_STATUS_MODE ≠ 0 ∨ s.curtailed then changePlant fun x => { x with ballast := [] }
  else moveBallast (p < floor)
  let after ← now
  changePlant fun x => { x with history := ((List.range 4).map after.admittedCurrent :: x.history).take 10 }

/-- GOVERNOR_UPDATE: the four rails' readings. -/
def execGovernorUpdate (rails : List RailSense) (quarterDegrees : Int) (s : State) : Host.Outcome State Fault Refusal :=
  if rails.length = 4 then .next (perform s (actGovernorUpdate rails quarterDegrees))
  else .fault (.illFormed "GOVERNOR_UPDATE")

/-- The ballast of tile `t` makes way for a stamped product: its current stands until the launch (R378). -/
def standBallast (t : Nat) : Act s₀ Unit :=
  changePlant fun p =>
    if p.ballast.contains t then { p with ballast := p.ballast.filter (· ≠ t), standing := setIns p.standing t } else p

/-- BALLAST_STOP. -/
def actBallastStop (t : Nat) : Act s₀ Unit := do
  if (← now).ballastDue t then standBallast t

/-- BALLAST_STOP. -/
def execBallastStop (t : TileNo) (s : State) : Host.Outcome State Fault Refusal := .next (perform s (actBallastStop t))

/-! ### Load-step notice (R379, R380) -/

/-- The current that a descriptor of tile `t` adds to what the tile draws now, in units of 1/8 A. -/
def State.adds (s : State) (d : Slot) : Nat :=
  match engineOf d.target d.words with
  | .mx t _ => if s.mxRuns t then 0 else s.fld PLANT_IEST_MX - (s.tileCurrent t - if s.runs (.ve t) then s.fld PLANT_IEST_VE else 0)
  | .ve t => if s.runs (.ve t) then 0 else s.fld PLANT_IEST_VE
  | _ => 0

/-- LEAD; below 5,000 it acts as 5,000 (R380). -/
def State.lsnLead (s : State) : Nat := max 5000 (s.fld PLANT_LSN_LEAD)

/-- The armed stamped descriptors of a rail whose stamps, less `lead` ticks, have been reached. -/
def State.armedOn (s : State) (r : Nat) (lead : Nat) : List Slot :=
  s.slots.filter fun d => d.target < 64 && railOf d.target = r && d.lc.isSome && d.unlaunched
    && decide (-(lead : Int) ≤ sdiff (s.now40 d.target) (stampOf d.words) 40)

/-- The most that stamps of a rail within 10 µs of each other add, one of them less `lead` ticks having been reached. -/
def State.stampedRise (s : State) (r lead : Nat) : Nat :=
  (s.armedOn r lead).foldl (fun m d => max m
    (((s.armedOn r (lead + 10000)).filter fun e =>
      let x := sdiff (stampOf e.words) (stampOf d.words) 40
      decide (0 ≤ x) && decide (x ≤ 10000)).foldl (fun a e => a + s.adds e) 0)) 0

/-- What unstamped work that is eligible adds to a rail. -/
def State.eligibleRise (s : State) (r : Nat) : Nat :=
  (s.slots.filter fun d => d.target < 64 && railOf d.target = r && stampOf d.words = 0 && d.phase = .delivered
    && (waitKind d.words = 0 || d.waitMet)).foldl (fun a d => a + s.adds d) 0

/-- The rise of a rail that is predicted for the next `lead` ticks, in units of 1/512 A; 0 where it is no more than STEP_A
(R379, R380) (DEDUCED, log entry 89). -/
def State.riseOf (s : State) (r lead : Nat) : Nat :=
  let x := 64 * (s.predicted r + s.stampedRise r lead + s.eligibleRise r)
  if s.lowest r + s.stepCurrent < x then x - s.lowest r else 0

/-- Some rail is to rise. -/
def State.risePredicted (s : State) (lead : Nat) : Bool := (List.range 4).any fun r => s.riseOf r lead ≠ 0

/-- LSN_OUT has been low for 3 µs. -/
def State.lsnRested (s : State) : Bool := s.units.plant.lsnFell.all fun n => 3000 ≤ sdiff s.ticks n 64

/-- LSN_OUT rises, and a notice begins: a rise is predicted for LEAD ticks from now, or is being made (R380) (DEDUCED, log
entry 89). -/
def actLsnAssert : Act s₀ Unit := do
  let s ← now
  if s.on PLANT_CTL_EN && !s.on PLANT_STATUS_LSN_OUT && s.lsnRested && s.risePredicted s.lsnLead then
    raise PLANT_STATUS_LSN_OUT
    countUp PLANT_LSN_NOTICES_COUNT 1
    changePlant fun p => { p with acked := false, late := false, covered := false, lsnRose := s.ticks }

/-- LSN_ASSERT. -/
def execLsnAssert (s : State) : Host.Outcome State Fault Refusal := .next (perform s actLsnAssert)

/-- A rising edge of LSN_ACK: in time, or late for the notice in progress (DEDUCED, log entry 58). -/
def actLsnAck : Act s₀ Unit := do
  let s ← now
  if s.on PLANT_CTL_EN && !s.on PLANT_STATUS_LSN_ACK then
    raise PLANT_STATUS_LSN_ACK
    if s.on PLANT_STATUS_LSN_OUT then
      if s.units.plant.late then raise PLANT_EVENT_LATE_ACK
      else changePlant fun p => { p with acked := true }

/-- LSN_ACK. -/
def execLsnAck (s : State) : Host.Outcome State Fault Refusal := .next (perform s actLsnAck)

/-- 2 µs have passed since LSN_OUT rose, with no rising edge of LSN_ACK (DEDUCED, log entry 58). -/
def actLsnAckTimeout : Act s₀ Unit := do
  let s ← now
  let p := s.units.plant
  if s.on PLANT_STATUS_LSN_OUT && !p.acked && !p.late then
    raise PLANT_EVENT_NOACK
    countUp PLANT_LSN_NOACK_COUNT 1
    changePlant fun p => { p with late := true }

/-- LSN_ACK_TIMEOUT. -/
def execLsnAckTimeout (s : State) : Host.Outcome State Fault Refusal := .next (perform s actLsnAckTimeout)

/-- 5 µs have passed since an acknowledged assertion that stands. -/
def actRiseCovered : Act s₀ Unit := do
  let s ← now
  if s.on PLANT_STATUS_LSN_OUT && s.units.plant.acked then changePlant fun p => { p with covered := true }

/-- RISE_COVERED. -/
def execRiseCovered (s : State) : Host.Outcome State Fault Refusal := .next (perform s actRiseCovered)

/-- LSN_OUT falls. -/
def endNotice : Act s₀ Unit := do
  let s ← now
  if s.on PLANT_STATUS_LSN_OUT then
    setF PLANT_STATUS_LSN_OUT 0
    changePlant fun p => { p with acked := false, late := false, covered := false, lsnFell := some s.ticks }

/-- Every rise has been admitted: what the tiles draw they draw unthrottled (R380). -/
def State.admittedWhole (s : State) : Bool := (List.range 64).all fun t => s.tileCurrent t = 0 || s.theta t = 64

/-- The notice is over: LSN_OUT has been asserted for LEAD ticks, every rise has been admitted, and none is predicted for the
next 10 µs (R380) (DEDUCED, log entry 89). -/
def actLsnDeassert : Act s₀ Unit := do
  let s ← now
  if decide ((s.lsnLead : Int) ≤ sdiff s.ticks s.units.plant.lsnRose 64) && s.admittedWhole && !s.risePredicted 10000 then
    endNotice

/-- LSN_DEASSERT. -/
def execLsnDeassert (s : State) : Host.Outcome State Fault Refusal := .next (perform s actLsnDeassert)

/-- LSN_OUT has been asserted for HOLD_MAX µs. -/
def actLsnHoldMax : Act s₀ Unit := do
  if ← isOn PLANT_STATUS_LSN_OUT then
    endNotice
    raise PLANT_EVENT_HOLD_MAX

/-- LSN_HOLD_MAX. -/
def execLsnHoldMax (s : State) : Host.Outcome State Fault Refusal := .next (perform s actLsnHoldMax)

/-- LSN_ACK_FALL. -/
def execLsnAckFall (s : State) : Host.Outcome State Fault Refusal :=
  .next (perform s (setF PLANT_STATUS_LSN_ACK 0))

/-! ### Curtail (R384) -/

/-- The curtail inputs are honoured. -/
def State.hearsCurtail (s : State) : Bool := s.on PLANT_CTL_EN && s.on PLANT_CTL_CURT_EN

/-- The curtail follows its pins, and EN and CURT_EN (DEDUCED, log entry 58). -/
def settleCurtail : Act s₀ Unit := do
  let s ← now
  let p := s.units.plant
  let want := s.hearsCurtail && p.curtReq
  if want && !s.curtailed then
    raise PLANT_STATUS_CURTAILED
    setF PLANT_STATUS_CURT_LVL p.curtLvl
    countUp PLANT_CURT_EVENTS_COUNT 1
    changePlant fun p => { p with ballast := [] }
    settleCurtAck
  else if !want && s.curtailed then
    setF PLANT_STATUS_CURTAILED 0
    setF PLANT_STATUS_CURT_LVL 0
    setF PLANT_STATUS_CURT_ACK 0
  else if want && s.fld PLANT_STATUS_CURT_LVL != p.curtLvl then
    if s.curtEntry p.curtLvl < s.curtEntry (s.fld PLANT_STATUS_CURT_LVL) then setF PLANT_STATUS_CURT_ACK 0
    setF PLANT_STATUS_CURT_LVL p.curtLvl

/-- CURTAIL_ASSERT: CURT_REQ_N has been low, and the level stable, for 200 ns. -/
def execCurtailAssert (level : Fin 16) (s : State) : Host.Outcome State Fault Refusal :=
  .next (perform s (do
    changePlant fun p => { p with curtReq := true, curtLvl := level }
    settleCurtail))

/-- CURTAIL_LEVEL_CHANGE. -/
def execCurtailLevelChange (level : Fin 16) (s : State) : Host.Outcome State Fault Refusal :=
  .next (perform s (do
    changePlant fun p => { p with curtLvl := level }
    settleCurtail))

/-- CURTAIL_RELEASE. -/
def execCurtailRelease (s : State) : Host.Outcome State Fault Refusal :=
  .next (perform s (do
    changePlant fun p => { p with curtReq := false }
    settleCurtail))

/-- A write of PLANT.CTL (R380, R384, R385) (DEDUCED, log entry 59). -/
def hookPlantCtl (w : RegWrite) : Act s₀ Unit := do
  let s ← now
  let en := w.field PLANT_CTL_EN
  if en = 1 ∧ !s.on PLANT_CTL_EN ∧ s.on DBG_STATUS_ACTIVE then
    discardRecorded w
    raise PLANT_EVENT_PINS
  else
    plainHook w
    setF PLANT_STATUS_PINS_PLANT en
    if en = 0 then endNotice
    settleCurtail

/-- PLANT_EN_WRITE. -/
def execPlantEnWrite (port : HostNo) (v : Word) (s : State) : Host.Outcome State Fault Refusal :=
  .next (perform s (checkedWrite port (PLANT_CTL_EN.addr 0 0) v hookPlantCtl))

/-! ### The plant link (R381 to R383) -/

/-- One byte of CRC-16/CCITT-FALSE. -/
def crc16Byte (crc b : Nat) : Nat :=
  (List.range 8).foldl (fun c _ => if bit c 15 then (c * 2 % 65536) ^^^ 0x1021 else c * 2 % 65536) (crc ^^^ (b * 256))

/-- Byte `k` of a frame. -/
def frameByte (f k : Nat) : Nat := f / 256 ^ k % 256

/-- The CRC of a frame: over its bytes 1 to 21 (R381). -/
def plantCrc (f : Nat) : Nat := (List.range 21).foldl (fun c k => crc16Byte c (frameByte f (k + 1))) 0xffff

/-- A write of PLANT.SOC: one that leaves SOC_HI ≤ SOC_LO is discarded and recorded (R387). -/
def hookPlantSoc (w : RegWrite) : Act s₀ Unit :=
  if w.field PLANT_SOC_SOC_HI ≤ w.field PLANT_SOC_SOC_LO then discardRecorded w else plainHook w

/-- A frame arrives on PLANT_RX; `gap` is a byte gap longer than 10 bit times (R381, R383). -/
def actSocFrameReceive (f : Nat) (gap : Bool) : Act s₀ Unit := do
  let s ← now
  if gap || frameByte f 0 != 0xa5 || frameByte f 1 != 2 || frameByte f 22 + 256 * frameByte f 23 != plantCrc f then
    countUp PLANT_LINK_ERR_COUNT 1
  else
    let soc := frameByte f 4 + 256 * frameByte f 5
    if frameByte f 3 % 2 = 1 ∧ soc ≤ 10000 then
      raise PLANT_SOC_NOW_VALID
      setF PLANT_SOC_NOW_SEQ (frameByte f 2)
      setF PLANT_SOC_NOW_SOC soc
      setF PLANT_STATUS_SOC_STALE 0
      changePlant fun p => { p with socAt := s.ticks }

/-- SOC_FRAME_RECEIVE. -/
def execSocFrameReceive (frame : BitVec 192) (gap : Bool) (s : State) : Host.Outcome State Fault Refusal :=
  .next (perform s (actSocFrameReceive frame.toNat gap))

/-- SOC_TIMEOUT: no valid frame for SOC.TIMEOUT × 100 µs. -/
def actSocTimeout : Act s₀ Unit := do
  raise PLANT_STATUS_SOC_STALE
  raise PLANT_EVENT_SOC_STALE

/-- SOC_TIMEOUT. -/
def execSocTimeout (s : State) : Host.Outcome State Fault Refusal := .next (perform s actSocTimeout)

/-- A forecast: the planned value, or P_NOW where there is none, between floor_eff and ceil_eff (R382) (DEDUCED, log
entry 58). -/
def forecast (floor ceil pNow plan : Nat) : Nat := max floor (min ceil (if plan = 0 then pNow else plan))

/-- Little-endian bytes put together. -/
def bytesNat : List Nat → Nat
  | [] => 0
  | b :: bs => b % 256 + 256 * bytesNat bs

/-- Two bytes of a 16-bit field. -/
def two (v : Nat) : List Nat := [v, v / 256]

/-- The bytes 0 to 21 of a forecast frame (R382) (DEDUCED, log entry 58). -/
def State.forecastBytes (s : State) (step : Nat) : List Nat :=
  let es := s.units.plant.estimates
  let pNow := if es.isEmpty then s.fld PLANT_STATUS_P_EST else es.foldl (· + ·) 0 / es.length
  let fc := forecast (s.fld PLANT_STATUS_FLOOR_EFF) (s.fld PLANT_STATUS_CEIL_EFF) pNow
  let flags := s.fld PLANT_STATUS_LSN_OUT + 2 * s.fld PLANT_STATUS_CURTAILED + 4 * s.fld PLANT_STATUS_SOC_STALE
    + 8 * s.fld PLANT_EVENT_THERM_LIMIT + 16 * s.fld PWR_CTL_QUIET
  [0xa5, 1, s.units.plant.seq, flags] ++ two (s.fld COLL_ID_MODULE) ++ two s.ticks ++ two (s.ticks / 65536) ++ two pNow
    ++ two (fc (s.fld PLANT_PLAN_P_1MS)) ++ two (fc (s.fld PLANT_PLAN_P_10MS)) ++ two (fc (s.fld PLANT_PLAN_P_100MS))
    ++ two (s.fld PLANT_THERM_TJ_MAX) ++ two step

/-- The sum over the rails of the rise that the notice in progress covers, in A; 0 with no notice (R382). -/
def State.noticeStep (s : State) : Nat :=
  if s.on PLANT_STATUS_LSN_OUT then (List.range 4).foldl (fun a r => a + s.riseOf r s.lsnLead / 512) 0 else 0

/-- FORECAST_SEND: at a tick at which the timebase is a multiple of 100,000. -/
def actForecastSend : Act s₀ Unit := do
  let s ← now
  if s.on PLANT_CTL_FORECAST_EN && s.ticks % 100000 == 0 then
    let step := s.noticeStep
    let body := bytesNat (s.forecastBytes step)
    send (.plantFrame (BitVec.ofNat 192 (body + plantCrc body * 256 ^ 22)))
    changePlant fun p => { p with seq := (p.seq + 1) % 256 }

/-- FORECAST_SEND. -/
def execForecastSend (s : State) : Host.Outcome State Fault Refusal := .next (perform s actForecastSend)

/-! ### PMBus (R374) -/

/-- The PMBus address of rail `d`'s regulator. -/
def pmbAddr : Nat → Fld
  | 0 => PLANT_PMB_ADDR0
  | 1 => PLANT_PMB_ADDR1
  | 2 => PLANT_PMB_ADDR2
  | _ => PLANT_PMB_ADDR3

/-- A poll of the four regulators: a transaction not acknowledged sets PMB_ERR and leaves the telemetry. -/
def actPmbusPoll (readings : List (Option Telemetry)) : Act s₀ Unit :=
  each readings.zipIdx fun r => do
    let a ← fld (pmbAddr r.2)
    send (.pmbusRead a)
    match r.1 with
    | none => raise PLANT_EVENT_PMB_ERR
    | some x => do
      setF PLANT_RAIL_TELEM_STATUS_WORD x.status.toNat 0 r.2
      setF PLANT_RAIL_TELEM_TEMP x.temp.toNat 0 r.2
      setF PLANT_RAIL_TELEM_IOUT x.iout.toNat 0 r.2
      setF PLANT_RAIL_TELEM_VOUT x.vout.toNat 0 r.2

/-- PMBUS_POLL: what the four regulators answer. -/
def execPmbusPoll (readings : List (Option Telemetry)) (s : State) : Host.Outcome State Fault Refusal :=
  if readings.length = 4 then .next (perform s (actPmbusPoll readings)) else .fault (.illFormed "PMBUS_POLL")

end Sys2Proof.Machine
end

