-- ==== Sys2Proof/Machine/Windows.lean ====
section
/-! DEFINITION. Sampling windows, dump records, the sampling buffer, and the performance-counter registers with an effect
(R391, R396 to R405). -/

namespace Sys2Proof.Machine

variable {s₀ : State}

/-- Change the windows' own state. -/
def changePmc (f : PmcUnit → PmcUnit) : Act s₀ Unit := change fun u => { u with pmc := f u.pmc }

/-- The open windows of a tile. -/
def State.windowsOf (s : State) (t : Nat) : List PmcWindow := s.units.pmc.windows.filter fun w => w.tile = t

/-- The counters of a tile that open windows claim. -/
def State.claimed (s : State) (t : Nat) : Nat := (s.windowsOf t).foldl (fun m w => m ||| w.claims) 0

/-! ### Dump records (R399 to R401) -/

/-- A little-endian word as eight bytes. -/
def wordBytes (v : Nat) : List Byte := (List.range 8).map fun k => BitVec.ofNat 8 (v / 256 ^ k)

/-- The words of a dump record from 0x008 on (R400). -/
def State.dumpWords (s : State) (t lost ctrs : Nat) : List Nat :=
  [s.replica t, lost * 2 ^ 32 + s.fld PMC_OVF_OVF t, ctrs * 2 ^ 48, 0, 0, 0, 0]
    ++ ((List.range 16).map fun n => s.fld PMC_CTR_VALUE t n)
    ++ ((List.range 24).map fun k => s.fld PMC_TD_COUNT t k)
    ++ ((List.range 4).map fun u => s.fld PMC_TD_BEATS_COUNT t u)
    ++ List.replicate 12 0

/-- The records that a tile has lost since the last one written. -/
def State.dumpsLost (s : State) (t : Nat) : Nat := mapGet (fun _ => 0) s.units.pmc.lost t

/-- A record is lost (R401). -/
def loseDump (t p : Nat) : Act s₀ Unit := do
  let s ← now
  countUp PMC_DUMP_LOST_COUNT 1 t
  uncore 3 (if p < 2 then 0 else 1) 0x35 1
  changePmc fun u => { u with lost := mapSet (fun _ => 0) u.lost t (s.dumpsLost t + 1) }

/-- The tile writes a dump record to its owner's host memory, or loses it: `room` says whether the egress buffer admits
it (R399, R401). A ring of no valid size takes nothing. -/
def writeDump (t type ctrs : Nat) (room : Bool) : Act s₀ Unit := do
  let s ← now
  let k := s.fld PMC_DUMP_BASE_LOG2_RECORDS t
  match s.tileOwner t with
  | none => pure ()
  | some a =>
    if 4 ≤ k ∧ k ≤ 16 then
      let seq := s.fld PMC_DUMP_CTL_SEQ t
      let p := s.portOf a
      setF PMC_DUMP_CTL_SEQ (seq + 1) t
      if !room || s.on ATL_STATUS_ORPHANED a then loseDump t p
      else
        let base := BitVec.ofNat 64 (s.fld PMC_DUMP_BASE_ADDR t * 4096 + seq % 2 ^ k * 512)
        let words := s.dumpWords t (s.dumpsLost t) ctrs
        send (.hostWrite (Fin.ofNat 4 p) (base + 8) (words.flatMap wordBytes))
        send (.hostWrite (Fin.ofNat 4 p) base (wordBytes (type * 2 ^ 56 + t * 2 ^ 50 + seq)))
        changePmc fun u => { u with lost := mapSet (fun _ => 0) u.lost t 0 }

/-- PERIODIC_DUMP: the replica is a multiple of PERIOD × 1,024 (R399) (DEDUCED, log entry 97; DESIGN CHOICE, log entry 61).
-/
def actPeriodicDump (t : Nat) (room : Bool) : Act s₀ Unit := do
  let s ← now
  let period := s.fld PMC_DUMP_CTL_PERIOD t
  if s.on PMC_DUMP_CTL_EN t && period != 0 && s.replica t % (period * 1024) == 0 then writeDump t 0 0 room

/-- PERIODIC_DUMP. -/
def execPeriodicDump (t : TileNo) (room : Bool) (s : State) : Host.Outcome State Fault Refusal :=
  .next (perform s (actPeriodicDump t room))

/-! ### Windows (R397, R398) -/

/-- The body checks of PMC_WINDOW: a ring of the right atelier may not open one (R346, R398). -/
def prepPmcWindow (t : Nat) (w : Descriptor) : Prep s₀ (List Nat) := do
  demand (body w 0 63 18 = 0 && body w 1 63 32 = 0 && body w 2 63 32 = 0 && zeroFrom w 3)
  demand (body w 0 15 0 ≠ 0 && body w 1 31 0 ≠ 0)
  let s ← OptionT.lift (doing now)
  let io ← OptionT.lift get
  permit (s.tileOwner t = some io.atelier)
  pure []

/-- CLEAR: the claimed counters start from 0, or a PERIOD short of their wrap (R397). -/
def clearClaims (t claims : Nat) : Act s₀ Unit :=
  each ((List.range 16).filter (bit claims)) fun n => do
    let s ← now
    let period := s.fld PMC_EVSEL_PERIOD t n
    setF PMC_CTR_VALUE (if s.on PMC_EVSEL_SAMPLE t n then 2 ^ 48 - (if period = 0 then 2 ^ 24 else period) else 0) t n

/-- An edge of a window writes its record where the window asks for it. Whether the buffer has room is a free value
(DESIGN CHOICE, log entry 61). -/
def edgeDump (w : PmcWindow) (type : Nat) : Act s₀ Unit := do
  if w.dumps then
    let i ← freeIndex
    writeDump w.tile type w.claims (Config.freeBit i)

/-- PMC_WINDOW: the window opens (R398). -/
def actPmcWindow (id : Nat) : Act s₀ Unit := do
  let s ← now
  match s.slot id with
  | none => pure ()
  | some d =>
    let claims := body d.words 0 15 0
    if d.phase = .issued ∧ opcodeOf d.words = 0x70 ∧ d.target < 64 ∧ !(s.units.pmc.windows.any fun w => w.slot = id)
        ∧ s.claimed d.target &&& claims = 0 then
      let w : PmcWindow := { tile := d.target, slot := id, claims := claims, opened := s.replica d.target,
                             duration := body d.words 1 31 0, point := body d.words 2 31 0,
                             dumps := body d.words 0 17 17 = 1, recalled := false }
      changePmc fun u => { u with windows := u.windows ++ [w] }
      if body d.words 0 16 16 = 1 then clearClaims d.target claims
      edgeDump w 1
      lendLc3 d.target

/-- PMC_WINDOW. -/
def execPmcWindow (id : Nat) (s : State) : Host.Outcome State Fault Refusal := .next (perform s (actPmcWindow id))

/-- The index of the first point of a window that lies ahead, from `n` on. -/
def PmcWindow.nextAhead (w : PmcWindow) (elapsed : Int) (n : Nat) : Nat :=
  if w.point = 0 then n else max n (min (elapsed.toNat / w.point + 1) ((w.duration - 1) / w.point + 1))

/-- A point edge that was re-armed late passes over the points already past, which are counted (R398). -/
def skipPoints (s : State) (w : PmcWindow) : Act s₀ Unit := do
  let n := if w.recalled then w.nextAhead (sdiff (s.replica w.tile) w.opened 64) (w.next + 1) else w.next + 1
  countUp PMC_WIN_SKIPPED (n - (w.next + 1)) w.tile
  changePmc fun u => { u with windows := u.windows.map fun x => if x.slot = w.slot then { x with next := n, recalled := false } else x }

/-- The close: the claims are released and the descriptor's work is over; the next window's edges take their turn. -/
def closeWindow (w : PmcWindow) : Act s₀ Unit := do
  changePmc fun u => { u with windows := u.windows.filter (fun x => x.slot ≠ w.slot), lent := u.lent.filter (· ≠ w.tile) }
  finish w.slot
  lendLc3 w.tile

/-- WINDOW_EDGE: the edge that LC3 is lent to fires (R233, R398) (DESIGN CHOICE, log entry 61). -/
def actWindowEdge (t : Nat) : Act s₀ Unit := do
  let s ← now
  match s.units.pmc.windows.find? fun w => w.tile = t with
  | none => pure ()
  | some w =>
    let age := s.edgeAge w
    if s.lentLc3 t && decide (0 ≤ age) then
      if w.recalled then
        countUp SEQ_LC_LOAN_SLIPS 1 t
        setF SEQ_LC_LOAN_LAST_SLIP (min age.toNat 0xffffffff) t
      if w.edge.2 then
        edgeDump w 3
        closeWindow w
      else
        edgeDump w 2
        skipPoints s w

/-- WINDOW_EDGE. -/
def execWindowEdge (t : TileNo) (s : State) : Host.Outcome State Fault Refusal := .next (perform s (actWindowEdge t))

/-! ### Registers with an effect (R391, R396, R402, R404) -/

/-- A write of PMC.SBUF_CTL: RD moves over records that it frees, and not past WR (R396) (DEDUCED, log entry 97). -/
def hookSbufCtl (w : RegWrite) : Act s₀ Unit := do
  let s ← now
  let t := w.inst
  let n := s.fld PMC_SBUF_CTL_COUNT t
  let moved := (w.field PMC_SBUF_CTL_RD + 16 - s.fld PMC_SBUF_CTL_RD t) % 16
  if n < moved then discardRecorded w
  else
    plainHook w
    setF PMC_SBUF_CTL_COUNT (n - moved) t
    setF PMC_SBUF_CTL_FULL (if n - moved = 16 then 1 else 0) t

/-- SBUF_RD_WRITE. -/
def execSbufRdWrite (port : HostNo) (t : TileNo) (v : Word) (s : State) : Host.Outcome State Fault Refusal :=
  .next (perform s (checkedWrite port (PMC_SBUF_CTL_RD.addr t 0) v hookSbufCtl))

/-- FROZEN follows FREEZE_ON_OVF and the OVF bits (R391) (DEDUCED, log entry 97). -/
def settleFrozen (t : Nat) : Act s₀ Unit := do
  let s ← now
  setF PMC_CTL_FROZEN (if s.on PMC_CTL_FREEZE_ON_OVF t && s.fld PMC_OVF_OVF t != 0 then 1 else 0) t

/-- A write of PMC.CTL or PMC.OVF. -/
def hookFreeze (w : RegWrite) : Act s₀ Unit := do
  plainHook w
  settleFrozen w.inst

/-- A write of a selection register: CHAIN written 1 on an even counter is discarded and recorded (R391) (DEDUCED, log entry
97). -/
def hookSelect (chain : Fld) (even : Bool) (w : RegWrite) : Act s₀ Unit :=
  if even ∧ w.field chain = 1 then do
    emit (.reg w.addr (putBits w.new chain.hi chain.lo 0))
    recordLocked w.port w.addr
  else plainHook w

end Sys2Proof.Machine
end

