-- ==== Sys2Proof/Machine/Startup.lean ====
section
/-! DEFINITION. Resets, the start-up sequence, pins, fuses, the sketch port, and the stacks' refresh (R406 to R426). -/

namespace Sys2Proof.Machine

variable {s₀ : State}

/-- Change the start-up's own state. -/
def changeBoot (f : BootUnit → BootUnit) : Act s₀ Unit := change fun u => { u with boot := f u.boot }

/-! ### Resets (R406, R407) -/

/-- A reset while a fuse bit is being programmed: the bit may read either way at the next sensing (R418) (DEDUCED, log
entry 63). -/
def leaveFuse : Act s₀ Unit := do
  let s ← now
  if s.on FUSE_STATUS_BUSY then
    let i ← freeIndex
    if Config.freeBit i then emit (.blow s.units.boot.fuseWord s.units.boot.fuseBit)

/-- A cold reset: all but the fuses and the NV store is lost. The board's pins stay as they are (R406) (DEDUCED, log
entry 64). -/
def actColdReset (powerGood : Bool) : Act s₀ Unit := do
  leaveFuse
  emit (.wipeRegs fun _ => true)
  emit (.wipeMem fun _ => true)
  emit .wipeRoutes
  change fun u => { nv := u.nv, boot := { powerGood := powerGood, resetLow := u.boot.resetLow, perst := u.boot.perst } }

/-- COLD_RESET: PWR_GOOD rises. -/
def execColdReset (s : State) : Host.Outcome State Fault Refusal := .next (performAlways s (actColdReset true))

/-- PWR_GOOD_FALL: the module's state is lost, and stays so until PWR_GOOD rises (R416). -/
def execPwrGoodFall (s : State) : Host.Outcome State Fault Refusal := .next (performAlways s (actColdReset false))

/-- A module reset leaves the register alone: the fuse shadows, and the state of the PCIe links. -/
def outlastsReset (a : Nat) : Bool :=
  match place a with
  | .reg .fuse _ off => 0x100 ≤ off
  | .reg .host _ off => off = 0
  | _ => false

/-- A module reset with a cause (R406, R407): it keeps the fuse shadows, the PCIe links, configuration spaces and BAR0,
and where KEEP_STACKS is set the stacks that are READY (DEDUCED, log entry 64). -/
def actModuleReset (cause : Nat) : Act s₀ Unit := do
  leaveFuse
  let s ← now
  let kept := if s.on CMC_RESET_KEEP_STACKS then (List.range 16).filter fun n => s.fld HBM_STATUS_STATE n = 2 else []
  emit (.wipeRegs fun a => !outlastsReset a)
  emit (.wipeMem fun a => match place a with
    | .stack n _ => !kept.contains n
    | _ => true)
  emit .wipeRoutes
  change fun u => {
    nv := u.nv
    host := { config := u.host.config }
    rings := { msix := u.rings.msix }
    boot := { resetLow := cause = 1, sense := false, perst := u.boot.perst, kept := kept } }
  each kept fun n => setF HBM_STATUS_STATE 3 n
  setF CMC_RESET_CAUSE_CAUSE cause

/-- MODULE_RESET: by RESET_N (1), CMC.RESET.GO (2) or the firmware watchdog (3). -/
def execModuleReset (cause : BitVec 2) (s : State) : Host.Outcome State Fault Refusal :=
  if cause = 0 then .fault (.illFormed "MODULE_RESET")
  else .next (if s.units.boot.powerGood then performAlways s (actModuleReset cause.toNat) else s)

/-- RESET_N_RELEASE: the sequence starts from step 1. -/
def execResetNRelease (s : State) : Host.Outcome State Fault Refusal :=
  .next (performAlways s (changeBoot fun b => { b with resetLow := false }))

/-- A write of CMC.RESET (R407, R423). -/
def hookCmcReset (w : RegWrite) : Act s₀ Unit := do
  plainHook w
  if w.does CMC_RESET_GO then actModuleReset 2

/-- HOST_PERST: HOST_PERST_N[n] falls, which resets the port's link and configuration space and loses the host, or rises
(R406, R409) (PRESUMED, log entry 51). -/
def actHostPerst (p : Nat) (high : Bool) : Act s₀ Unit := do
  if high then changeBoot fun b => { b with perst := setIns b.perst p }
  else
    changeBoot fun b => { b with perst := b.perst.filter (· ≠ p) }
    if ← isOn HOST_STATUS_UP p then actHostLoss p .linkDown
    else
      resetFunction p
      orphanPort p
    clearConfig p

/-- HOST_PERST. -/
def execHostPerst (port : HostNo) (high : Bool) (s : State) : Host.Outcome State Fault Refusal :=
  .next (performAlways s (actHostPerst port high))

/-- HOST_LINK_UP: link training ends, provided step 1 has ended, HOST_PERST_N is high and the port has power (R336,
R368, R409). A partner that does not negotiate Flit Mode leaves the link down (DEDUCED, log entry 62). -/
def actHostLinkUp (p width rate : Nat) (flit : Bool) : Act s₀ Unit := do
  let s ← now
  if s.units.boot.perst.contains p && 1 < s.units.boot.step && s.dom (hostDomain p) == 3 then
    if flit then
      raise HOST_STATUS_UP p
      setF HOST_STATUS_WIDTH width p
      setF HOST_STATUS_RATE rate p
      setF HOST_STATUS_NO_FLIT 0 p
    else setF HOST_STATUS_NO_FLIT 1 p

/-- HOST_LINK_UP. -/
def execHostLinkUp (port : HostNo) (width rate : BitVec 8) (flitMode : Bool) (s : State) :
    Host.Outcome State Fault Refusal :=
  .next (perform s (actHostLinkUp port width.toNat rate.toNat flitMode))

/-! ### The start-up sequence (R409 to R414) -/

/-- The sequence has failed (R414). -/
def bootFail (err arg : Nat) : Act s₀ Unit := do
  setF CMC_STATUS_BOOT_ERR err
  setF CMC_STATUS_ERR_ARG arg
  changeBoot fun b => { b with failed := true }

/-- The next step begins. -/
def bootNext (step stage : Nat) : Act s₀ Unit := do
  changeBoot fun b => { b with step := step }
  setF CMC_STATUS_STAGE stage

/-- A word of the fuse array (DESIGN CHOICE, log entry 3). -/
def State.fuse (s : State) (w : Nat) : Word := mapGet fuseReset s.fuses w

/-- Sense one fuse word (R418) (DEDUCED, log entry 62). -/
def senseFuse (w : Nat) : Act s₀ Unit := do
  let v ← ask fun s => s.fuse w
  emit (.reg (FUSE_WORD_VALUE.addr 0 w) v)

/-- A fuse word as sensed. -/
def State.fuseWord (s : State) (w : Nat) : Nat := s.fld FUSE_WORD_VALUE 0 w

/-- The minimum rollback index: the ones of word 8 (R417). -/
def State.fuseRollback (s : State) : Nat := ones (s.fuseWord 8) 64

/-- SECURE_BOOT is blown (R417). -/
def State.secureBoot (s : State) : Bool := bit (s.fuseWord 9) 0

/-- Why a slot is not valid, as BOOT_ERR gives it; none where it is valid (R411, R414) (DEDUCED, log entry 62). -/
def slotFault (x : ImageSlot) (rollback : Nat) (secure : Bool) : Option Nat :=
  if !x.magicOk || !x.lengthOk then some 1
  else if !x.digestOk then some 2
  else if x.rollback.toNat < rollback then some 3
  else if secure && !(x.keyOk && x.sigOk) then some 2
  else none

/-- Step 1 ends. A cold reset senses the fuses; after a module reset their shadows stand (R406). -/
def bootRom (pllLocked : Bool) : Act s₀ Unit := do
  if pllLocked then
    if (← now).units.boot.sense then each (List.range 64) senseFuse
    let s ← now
    setF CMC_BOOT_FUSE_ROLLBACK s.fuseRollback
    setF CMC_BOOT_SECURE (if s.secureBoot then 1 else 0)
    actPllLock
    bootNext 2 1
  else bootFail 4 0

/-- An image slot boots. -/
def bootSlot (x : ImageSlot) (k : Nat) : Act s₀ Unit := do
  setF CMC_BOOT_FW_VERSION x.version.toNat
  setF CMC_BOOT_IMG_ROLLBACK x.rollback.toNat
  setF CMC_BOOT_SLOT k
  bootNext 3 1

/-- Step 2 ends (R411). -/
def bootImage (norFound : Bool) (a b : ImageSlot) : Act s₀ Unit := do
  let s ← now
  let fault (x : ImageSlot) := slotFault x s.fuseRollback s.secureBoot
  if !norFound then bootFail 7 0
  else match fault a, fault b with
    | none, none => if a.version.toNat < b.version.toNat then bootSlot b 1 else bootSlot a 0
    | none, some _ => bootSlot a 0
    | some _, none => bootSlot b 1
    | some e, some _ => bootFail e 0

/-- Step 3 ends: the board configuration is read, and ignored where its CRC fails (R412). -/
def bootFirmware (cfg : BoardConfig) : Act s₀ Unit := do
  setF CMC_BOOT_CFG_VALID (if cfg.crcOk then 1 else 0)
  changeBoot fun b => { b with cfg := if cfg.crcOk then some cfg else none }
  bootNext 4 2

/-- Step 4 ends: the rails at operating point 1, PMBus addresses, and the die edges; the stacks begin to train (R409, R424)
(DEDUCED, log entry 62). -/
def bootEdges (failed : Option Nat) : Act s₀ Unit := do
  each [0, 1, 2, 3] fun d => do
    send (.avsRate (Fin.ofNat 4 d) 5)
    let _ ← avsWrite d (opMv 1)
  match (← now).units.boot.cfg with
  | some c => each [0, 1, 2, 3] fun d => setF (pmbAddr d) (c.pmbAddr.toNat / 256 ^ d % 128)
  | none => pure ()
  match failed with
  | some e => bootFail 5 e
  | none => do
    let kept ← ask fun s => s.units.boot.kept
    each ((List.range 16).filter fun n => !kept.contains n) fun n => setF HBM_STATUS_STATE 1 n
    bootNext 5 3

/-- Step 5 for one stack: its domains are ON; it is trained, repaired and filled, or kept; or its die fails (R407, R409,
R414). -/
def bootStack (n : Nat) (x : StackBoot) : Act s₀ Unit := do
  let kept := (← now).units.boot.kept.contains n && x.keptOk
  setDom (384 + n) 3
  setDom (400 + n) 3
  if !kept then
    emit (.wipeMem fun a => match place a with
      | .stack k _ => k == n
      | _ => false)
  if x.trained then
    setF HBM_STATUS_STATE 2 n
    setF HBM_STATUS_KEPT (if kept then 1 else 0) n
    setF HBM_REPAIR_HARD x.hard.toNat n
    setF HBM_REPAIR_SPARES_MIN x.sparesMin.toNat n
    change fun u => { u with nv := { u.nv with soft := u.nv.soft.filter fun k => k / 2 ^ 20 ≠ n } }
  else
    actVarDieFail n
    setF HBM_STATUS_STATE 4 n

/-- Step 6: every tile domain is ON and every palette accepts accesses, or a tile has failed its self-test (R409). -/
def bootTiles (bad : Option Nat) : Act s₀ Unit := do
  each (List.range 384) fun d => setDom d 3
  each (List.range 64) fun t => raise PAL_CTL_EN t
  match bad with
  | some t => bootFail 6 t
  | none => bootNext 7 4

/-- Steps 5 and 6 end (DEDUCED, log entry 62). -/
def bootStacksAndTiles (xs : List StackBoot) (bad : Option Nat) : Act s₀ Unit := do
  each xs.zipIdx fun x => bootStack x.2 x.1
  let s ← now
  let kept := s.units.boot.kept
  setF CMC_BOOT_STACKS_KEPT (if !kept.isEmpty && kept.all fun n => s.on HBM_STATUS_KEPT n then 1 else 0)
  bootTiles bad

/-- Step 7 ends: the module's ID, the timebase's role and the ports, from the configuration or its stand-ins (R412). -/
def bootLinks : Act s₀ Unit := do
  let c := (← now).units.boot.cfg
  setF COLL_ID_MODULE ((c.map fun x => x.moduleId.toNat).getD 0xffff)
  let role := ((c.map fun x => x.tbRole).getD false)
  if role then
    raise TB_CTL_ROLE
    takeRole 1
  each (List.range 24) fun p => do
    setF LINK_CTL_PMD (if (c.map fun x => bit x.linkPmd.toNat p).getD false then 1 else 0) p
    if (c.map fun x => bit x.linkEn.toNat p).getD true then
      raise LINK_CTL_EN p
      startTraining p
  bootNext 8 5

/-- Step 8 ends (DEDUCED, log entry 62). -/
def bootReady : Act s₀ Unit := do
  let s ← now
  raise CMC_STATUS_READY
  setF CMC_STATUS_DEGRADED (if s.fld RISK_VAR_FAILED_DIES = 0 then 0 else 1)
  bootNext 9 5

/-- BOOT_STEP_DONE: the step in progress ends; the outcome of another step stands for nothing. -/
def actBootStep (r : BootResult) : Act s₀ Unit := do
  let b ← ask fun s => s.units.boot
  if !b.failed then
    match r, b.step with
    | .rom lk, 1 => bootRom lk
    | .image f x y, 2 => bootImage f x y
    | .firmware c, 3 => bootFirmware c
    | .edges f, 4 => bootEdges (f.map Fin.val)
    | .stacksAndTiles xs t, 5 => bootStacksAndTiles xs (t.map Fin.val)
    | .links, 7 => bootLinks
    | .ready, 8 => bootReady
    | _, _ => pure ()

/-- The outcome speaks of all sixteen stacks (DESIGN CHOICE, log entry 10). -/
def bootWf : BootResult → Bool
  | .stacksAndTiles xs _ => xs.length = 16
  | _ => true

/-- BOOT_STEP_DONE. -/
def execBootStepDone (r : BootResult) (s : State) : Host.Outcome State Fault Refusal :=
  if bootWf r then .next (perform s (actBootStep r)) else .fault (.illFormed "BOOT_STEP_DONE")

/-! ### The sideband outputs (R416) -/

/-- READY is released. -/
def State.readyReleased (s : State) : Bool := s.on CMC_STATUS_READY

/-- FAULT_N is low: the start-up sequence has failed, or the thermal trip has happened. -/
def State.faultLow (s : State) : Bool := s.units.boot.failed || s.units.pwr.thermTrip

/-- THERM_TRIP_N is low, from a trip until a cold or module reset (R372). -/
def State.thermTripLow (s : State) : Bool := s.units.pwr.thermTrip

/-! ### Fuses (R417, R418, R426) -/

/-- The bit may be programmed in the field (R417, R418). -/
def fuseOpen (word b : Nat) (keyLock : Bool) : Bool :=
  (2 ≤ word && word ≤ 7 && !keyLock) || word = 8 || (word = 9 && b < 3) || 32 ≤ word

/-- A write of FUSE.PROG from the management port (R418). Whether VPP_FUSE is within tolerance is a free value (DEDUCED,
log entry 63). -/
def hookFuseProg (w : RegWrite) : Act s₀ Unit := do
  let s ← now
  let word := w.field FUSE_PROG_WORD
  let b := w.field FUSE_PROG_BIT
  if !w.does FUSE_PROG_GO then emit (.reg w.addr (putBits w.new FUSE_PROG_ARM.hi FUSE_PROG_ARM.lo 0))
  else if s.on FUSE_STATUS_BUSY then discardRecorded w
  else
    emit (.reg w.addr (putBits w.new FUSE_PROG_ARM.hi FUSE_PROG_ARM.lo 0))
    let i ← freeIndex
    setF FUSE_STATUS_VPP_OK (if Config.freeBit i then 1 else 0)
    if !Config.freeBit i || w.field FUSE_PROG_ARM ≠ 0xa5 || (List.range 16).any s.exists || !s.on CMC_STATUS_READY
        || !fuseOpen word b (bit (s.fuseWord 9) 2) then
      setF FUSE_STATUS_RESULT 3
    else if bit (s.fuseWord word) b then setF FUSE_STATUS_RESULT 1
    else
      raise FUSE_PROG_GO
      raise FUSE_STATUS_BUSY
      setF FUSE_STATUS_RESULT 0
      changeBoot fun x => { x with fuseWord := word, fuseBit := b, pulses := 0 }

/-- A write of FUSE.PROG from any port: one that is not from the management port is refused access, and a GO in it reads
as refused (R343, R418) (DEDUCED, log entry 63). -/
def writeFuseProg (p : Nat) (v : Word) : Act s₀ Unit := do
  let s ← now
  checkedWrite p (FUSE_PROG_GO.addr 0 0) v hookFuseProg
  if !s.d3hot p ∧ p ≠ s.mgmtPort ∧ bits v FUSE_PROG_GO.hi FUSE_PROG_GO.lo = 1 ∧ !s.on FUSE_STATUS_BUSY then
    setF FUSE_STATUS_RESULT 3

/-- FUSE_PROG. -/
def execFuseProg (port : HostNo) (v : Word) (s : State) : Host.Outcome State Fault Refusal :=
  .next (perform s (writeFuseProg port v))

/-- The sketch port is closed and its pads are high impedance (R419, R422). -/
def closeSketch : Act s₀ Unit := do
  setF DBG_CTL_EN 0
  setF DBG_STATUS_ACTIVE 0

/-- Programming ends with a result. -/
def endFuse (result : Nat) : Act s₀ Unit := do
  setF FUSE_STATUS_RESULT result
  setF FUSE_STATUS_BUSY 0
  setF FUSE_PROG_GO 0

/-- FUSE_PULSE_DONE: a pulse and its margin read end; three pulses are made at most (R418). A bit that failed may read
either way. The seal takes effect at once (R422) (DEDUCED, log entry 63). -/
def actFusePulseDone (marginOk : Bool) : Act s₀ Unit := do
  let s ← now
  let b := s.units.boot
  if s.on FUSE_STATUS_BUSY then
    if marginOk then
      emit (.blow b.fuseWord b.fuseBit)
      senseFuse b.fuseWord
      endFuse 1
      if bit ((← now).fuseWord 9) 1 then closeSketch
    else if b.pulses < 2 then changeBoot fun x => { x with pulses := x.pulses + 1 }
    else
      let i ← freeIndex
      if Config.freeBit i then emit (.blow b.fuseWord b.fuseBit)
      endFuse 2

/-- FUSE_PULSE_DONE. -/
def execFusePulseDone (marginOk : Bool) (s : State) : Host.Outcome State Fault Refusal :=
  .next (perform s (actFusePulseDone marginOk))

/-! ### The sketch port (R419 to R422, R425) -/

/-- SKETCH_SEAL reads 1. -/
def State.sealed (s : State) : Bool := bit (s.fuseWord 9) 1

/-- A write of DBG.CTL: each enabling write has its result (R419). -/
def hookDbgCtl (w : RegWrite) : Act s₀ Unit := do
  let s ← now
  let shut : Act s₀ Unit := emit (.reg w.addr (putBits w.new DBG_CTL_EN.hi DBG_CTL_EN.lo 0))
  if w.field DBG_CTL_EN = 0 then
    plainHook w
    closeSketch
  else if s.sealed then
    setF DBG_STATUS_RESULT Status.accessDenied.code
    recordLocked w.port w.addr
    shut
  else if s.on PLANT_CTL_EN then
    setF DBG_STATUS_RESULT Status.pinOwned.code
    shut
  else
    plainHook w
    setF DBG_STATUS_RESULT Status.ok.code
    raise DBG_STATUS_ACTIVE

/-- SKETCH_ENABLE. -/
def execSketchEnable (port : HostNo) (v : Word) (s : State) : Host.Outcome State Fault Refusal :=
  .next (perform s (checkedWrite port (DBG_CTL_EN.addr 0 0) v hookDbgCtl))
/-- SKETCH_DISABLE. -/
def execSketchDisable (port : HostNo) (v : Word) (s : State) : Host.Outcome State Fault Refusal :=
  .next (perform s (checkedWrite port (DBG_CTL_DIV.addr 0 0) v hookDbgCtl))

/-- The tile with local index `j` on compute die `d` (R7). -/
def dieTile (d j : Nat) : Nat := 8 * (4 * (d / 2) + j / 4) + 4 * (d % 2) + j % 4

/-- The gate state of a quarter (R81, R363). -/
def State.gate (s : State) (t q : Nat) : Nat :=
  match s.dom (6 * t + 2 + q) with
  | 1 => 1
  | 3 => 2
  | 5 => 3
  | _ => 0

/-- What the arrays of a tile are doing: the vector index of a product in progress (DESIGN CHOICE, log entry 65). -/
def State.sketchVector (s : State) (t : Nat) : Nat :=
  ((s.units.mx.runs.find? fun r => r.tile = t).map MxRun.next).getD 0

/-- The stamped descriptor that holds comparator `n` of tile `t`. -/
def State.comparator (s : State) (t n : Nat) : Option Slot := s.slots.find? fun d => d.target = t && d.lc = some n

/-- The window whose edge is armed on comparator `n` of tile `t`: LC3 on loan (R233). -/
def State.lcEdge (s : State) (t n : Nat) : Option PmcWindow :=
  if n = 3 ∧ s.lentLc3 t then (s.windowsOf t).head? else none

/-- Comparator `n` of tile `t` is armed; its stamp or edge is reached (R238). -/
def State.lcArmed (s : State) (t n : Nat) : Bool := (s.comparator t n).isSome || (s.lcEdge t n).isSome
def State.lcMatched (s : State) (t n : Nat) : Bool :=
  match s.comparator t n with
  | some d => d.stampMet && d.unlaunched
  | none => (s.lcEdge t n).any fun x => decide (0 ≤ s.edgeAge x)

/-- VAR.STATUS.PHASE of a die (R306). Pass 2 has not begun while a copy holds it back (R326). -/
def State.varPhase (s : State) (n : Nat) : Nat :=
  let has (o : Nat) : Bool := (s.onEngine (.die (Fin.ofNat 16 n))).any fun x => opcodeOf x.words = o
  if has 0x51 then 4
  else if has 0x50 then (match s.varRun n with
    | some r => if r.phase = 3 ∧ s.fixativeHolds n then 2 else min r.phase 3
    | none => 1)
  else 0

/-- The bits of a sketch group that the state fixes, and those that tell of a beat in progress, which it does not
(R420). The second are taken from a free value (DEDUCED, log entry 59). -/
def State.sketchGroup (s : State) (src node group : Nat) : Nat × Nat :=
  let t := dieTile src node
  let b (x : Bool) (k : Nat) : Nat := if x then 2 ^ k else 0
  if src < 4 ∧ node < 16 then
    match group with
    | 0 => (b (s.busy (.mx (Fin.ofNat 64 t) .right)) 25
            + b (s.busy (.mx (Fin.ofNat 64 t) .whole) || s.busy (.mx (Fin.ofNat 64 t) .left)) 24
            + s.sketchVector t % 2 ^ 16, 0xfc000000)
    | 1 => (((s.units.ve.find? fun r => r.tile = t).map VeRun.wave).getD 0 % 2 ^ 20, 0xfff00000)
    | 2 => (s.gate t 3 * 2 ^ 20 + s.gate t 2 * 2 ^ 18 + s.gate t 1 * 2 ^ 16 + s.gate t 0 * 2 ^ 14
            + min 0x3fff (s.units.pal.waits.filter fun w => w.tile = t).length, 0xffc00000)
    | 3 => (min 0x3ff (s.slots.filter fun d => d.target = t && d.phase = .delivered).length * 2 ^ 22
            + (List.range 4).foldl (fun a n => a + b (s.lcArmed t n) (18 + n) + b (s.lcMatched t n) (14 + n)) 0, 0)
    | 4 => (s.replica t % 2 ^ 32, 0)
    | _ => (0, 0)
  else if 4 ≤ src ∧ src < 20 ∧ node = 0 ∧ group = 0 then (s.varPhase (src - 4) * 2 ^ 29, 0x1fffffff)
  else if 20 ≤ src ∧ src < 22 ∧ node = 0 ∧ group = 0 then
    let low := (List.range 64).foldl (fun m t => min m (s.theta t)) 64
    (s.fld PLANT_STATUS_P_EST * 2 ^ 16 + (low - 1) * 2 ^ 10 + s.fld PLANT_STATUS_CURT_ACK * 8
      + s.fld PLANT_STATUS_CURTAILED * 4 + s.fld PLANT_STATUS_LSN_ACK * 2 + s.fld PLANT_STATUS_LSN_OUT, 0)
  else if 20 ≤ src ∧ src < 22 ∧ node = 0 ∧ group = 1 then (s.ticks % 2 ^ 32, 0)
  else (0, 0)

/-- The group tells of a unit that advances: an array, a vector engine, a tile's banks or sequencer, or a Varnish die
(R420, R421). -/
def sketchAdvances (src node group : Nat) : Bool := (src < 4 && node < 16 && group < 4) || (4 ≤ src && src < 20 && node = 0 && group = 0)

/-- SKETCH_SAMPLE: the selected group is driven with a strobe (R421). In EVENT mode LOST takes the unit's advances that
fell within the spacing, a number that no state fixes (DESIGN CHOICE, log entry 65). -/
def actSketchSample : Act s₀ Unit := do
  let s ← now
  if s.on DBG_STATUS_ACTIVE then
    if s.on DBG_CTL_MODE ∧ sketchAdvances (s.fld DBG_SEL_SOURCE) (s.fld DBG_SEL_NODE) (s.fld DBG_SEL_GROUP) then
      let k ← freeIndex
      countUp DBG_STATUS_LOST ((Config.freeWord k).toNat % 2 ^ 32)
    let (known, free) := s.sketchGroup (s.fld DBG_SEL_SOURCE) (s.fld DBG_SEL_NODE) (s.fld DBG_SEL_GROUP)
    let i ← freeIndex
    send (.sketch (BitVec.ofNat 32 known ||| ((Config.freeWord i).truncate 32 &&& BitVec.ofNat 32 free)))

/-- SKETCH_SAMPLE. -/
def execSketchSample (s : State) : Host.Outcome State Fault Refusal := .next (perform s actSketchSample)

/-! ### Refresh (R413) -/

/-- BANK_REFRESH: a bank of the stack is refreshed; above 85 °C the rate is doubled. The corrections that the stack's
on-die ECC reports with it are a free value (DESIGN CHOICE, log entry 65). -/
def actBankRefresh (n temp : Nat) : Act s₀ Unit := do
  if (← fld HBM_STATUS_STATE n) = 2 then
    let i ← freeIndex
    countUp HBM_ODECC_COUNT ((Config.freeWord i).toNat % 2 ^ 32) n
    setF HBM_STATUS_TEMP temp n
    setF HBM_STATUS_REFRESH_X2 (if 85 < temp then 1 else 0) n

/-- BANK_REFRESH. -/
def execBankRefresh (n : DieNo) (_pc : Fin 32) (temp : BitVec 8) (s : State) : Host.Outcome State Fault Refusal :=
  .next (perform s (actBankRefresh n temp.toNat))

end Sys2Proof.Machine
end

