-- ==== Sys2Proof/Machine/Issue.lean ====
section
/-! DEFINITION. Delivering descriptors and their header checks, eligibility, issue with the body checks of every opcode,
the descriptors that a sequencer executes itself, and completion (R183, R189 to R203, R331). -/

namespace Sys2Proof.Machine

variable {s₀ : State}

/-! ### Delivery (R183, R189, R192) -/

/-- The sequencer slots of a target (R183). -/
def targetSlots (target : Nat) : Nat := if target < 0x40 then 512 else if target < 0x52 then 256 else 64

/-- The opcodes of R193. -/
def knownOpcodes : List Nat :=
  [0, 1, 2, 3, 0x10, 0x11, 0x18, 0x19, 0x1A, 0x20, 0x28, 0x30, 0x31, 0x40, 0x41, 0x42, 0x43, 0x44, 0x45, 0x46, 0x47, 0x50,
   0x51, 0x52, 0x53, 0x60, 0x61, 0x70, 0x78]

/-- An opcode is valid on a target (R193). -/
def opcodeOn (op target : Nat) : Bool :=
  if op < 4 then true
  else if op < 0x40 ∨ op = 0x70 then target < 0x40
  else if op < 0x50 then target = 0x50 || target = 0x51
  else if op < 0x60 then 0x40 ≤ target && target < 0x50
  else if op < 0x70 then target = 0x52
  else target = 0x53

/-- Reserved header bits, and WAIT fields, as R191 has them written. -/
def headerOk (w : Descriptor) : Bool :=
  dBits w 23 14 = 0 && dBits w 8 8 = 0 &&
  match waitKind w with
  | 0 => waitRef w = 0 && waitTarget w = 0
  | 1 => waitRef w / 2 ^ 16 = 0
  | 2 => waitRef w / 2 ^ 19 = 0
  | _ => false

/-- The ring that a token wait names (R191). -/
def tokenRing (w : Descriptor) : Nat := waitRef w % 2 ^ 19

/-- A counter wait or a token wait names what atelier `a` owns. -/
def State.ownsWait (s : State) (a : Nat) (w : Descriptor) : Bool :=
  match waitKind w with
  | 1 => s.ownsCounter a (waitRef w / 1024 % 64) (waitRef w % 1024)
  | 2 => s.ringOwner (tokenRing w) = some a
  | _ => true

/-- What the header checks raise, in the order of the table of R192 (DEDUCED, log entry 34). -/
def State.headerFaults (s : State) (a target r pos : Nat) (w : Descriptor) : Arose :=
  let op := opcodeOf w
  let add (l : Arose) (bad : Bool) (st : Status) (detail : Nat) : Arose := if bad then Arose.put l st detail else l
  let l1 := add [] (!knownOpcodes.contains op) .malformed 1
  let l2 := add l1 (knownOpcodes.contains op && !opcodeOn op target) .malformed 2
  let l3 := add l2 (!headerOk w) .malformed 3
  let l4 := add l3 (waitKind w = 2 && tokenRing w = r && decide (0 < sdiff (waitTarget w) pos 32)) .malformed 4
  let l5 := add l4 (dBits w 73 70 ≠ a) .accessDenied 1
  add l5 (!s.ownsWait a w) .accessDenied 2

/-- Ring `r` has a descriptor to deliver, and its target a slot for it. -/
def State.canDeliver (s : State) (r : Nat) : Bool :=
  let st := s.fld RING_STATE_STATE r
  let target := s.fld RING_CFG_TARGET r
  (st = 1 || st = 2) && ((s.ringOwner r).any fun a => s.fetches a) && (s.nextDelivery r).isSome
    && (s.slots.filter fun d => d.target = target).length < targetSlots target

/-- The ring whose turn it is at a target: the one being served, up to 16 descriptors, then the next by number (R189)
(DEDUCED, log entry 34). -/
def State.turnOf (s : State) (target : Nat) : Option Nat :=
  let rs := (s.units.rings.fetched.map Fetched.ring).eraseDups.filter fun r => s.fld RING_CFG_TARGET r = target && s.canDeliver r
  let least (l : List Nat) : Option Nat := l.foldl (fun m r => some (min r (m.getD r))) none
  match s.units.rings.turn.find? fun e => e.1 = target with
  | none => least rs
  | some (_, last, taken) =>
    if rs.contains last && taken < 16 then some last
    else match least (rs.filter fun r => last < r) with
      | some r => some r
      | none => least rs

/-- The ring takes its turn. -/
def noteTurn (target r : Nat) : Act s₀ Unit :=
  changeRings fun u =>
    let taken := ((u.turn.find? fun e => e.1 = target ∧ e.2.1 = r).map fun e => e.2.2).getD 0
    { u with turn := (target, r, taken % 16 + 1) :: u.turn.filter fun e => e.1 ≠ target }

/-- A SCHED ring's segment moves on with a delivery; the cursor moves where a segment starts after another, to the first
entry of a new walk where the last one's table is through (R208, R209). -/
def noteSegment (r pos : Nat) (starts : Bool) : Act s₀ Unit := do
  let s ← now
  let put (g : Nat × Nat) : Act s₀ Unit :=
    changeRings fun u => { u with segment := (r, g) :: u.segment.filter fun e => e.1 ≠ r }
  match s.segmentOf r with
  | some g =>
    if starts then
      setF RING_STATE_CURSOR (s.nextCursor r) r
      put (pos, (pos + 1) % 2 ^ 32)
      changeRings fun u => { u with rewound := u.rewound.filter (· ≠ r) }
    else put (g.1, (pos + 1) % 2 ^ 32)
  | none => if s.on RING_CFG_SCHED r then put (pos, (pos + 1) % 2 ^ 32)

/-- DESCRIPTOR_DELIVER: the ring's next descriptor takes a slot of its target (R189, R192). -/
def actDescriptorDeliver (r : Nat) : Act s₀ Unit := do
  let s ← now
  let target := s.fld RING_CFG_TARGET r
  match s.nextDelivery r, s.ringOwner r with
  | some (f, starts), some a =>
    if s.canDeliver r && s.turnOf target = some r then
      let id := s.units.rings.nextId
      noteTurn target r
      noteSegment r f.pos starts
      let d : Slot := { id := id, target := target, ring := r, pos := f.pos, words := f.words, ctx := f.ctx, atelier := a,
                        came := s.now40 target, start := s.now40 target }
      changeRings fun u => { u with
        nextId := id + 1
        slots := u.slots ++ [{ d with fence := if s.leads d then .confirmed else .none }]
        fetched := u.fetched.filter fun x => !(x.ring = r && x.pos = f.pos) }
      let bad := s.headerFaults a target r f.pos f.words
      if !bad.isEmpty then
        withSlot id fun x => { x with headerBad := true }
        completeWith id bad
      else if 0x40 ≤ target ∧ target < 0x50 ∧ s.dieFailed (target - 0x40) then completeWith id [(.eccUncorr, 0)]
      else
        armStamps target
        settleWaits
        settleFences
        if 4 ≤ opcodeOf f.words then wakeOnWork (engineOf target f.words)
      settleWalk r
      settleSched r
  | _, _ => pure ()

/-- DESCRIPTOR_DELIVER. -/
def execDescriptorDeliver (r : RingNo) (s : State) : Host.Outcome State Fault Refusal :=
  .next (perform s (actDescriptorDeliver r))

/-! ### Eligibility (R198 to R200, R229) -/

/-- The fences of a descriptor are met. -/
def State.fencesMet (s : State) (d : Slot) : Bool :=
  let before := s.before d
  (dBits d.words 9 9 = 0 || before.all fun x => x.phase ≠ .delivered)
    && (dBits d.words 10 10 = 0 || before.all fun x => x.phase = .recorded)
    && (dBits d.words 11 11 = 0 || d.fence = .confirmed)

/-- Its wait is satisfied, and its stamp has been reached where that is a condition. -/
def Slot.waitsMet (d : Slot) : Bool :=
  (waitKind d.words = 0 || d.waitMet) && (stampOf d.words = 0 || d.stampMet || opcodeOf d.words = 0x20)

/-- A delivered descriptor is eligible. An atelier that is not ACTIVE holds its descriptors (R348). -/
def State.eligible (s : State) (d : Slot) : Bool :=
  d.phase = .delivered && s.fld ATL_STATUS_STATE d.atelier = 1 && s.fencesMet d && d.waitsMet

/-- An engine's domain is ON and is not about to leave it (R365, R368). -/
def State.powered (s : State) (e : Engine) : Bool :=
  match engineDomain e with
  | some d => s.dom d = 3 && !s.leaving d
  | none => true

/-- A collective that takes a sequence number (R267) (DEDUCED, log entry 34). -/
def sequenced (d : Slot) : Bool := 0x41 ≤ opcodeOf d.words && opcodeOf d.words ≤ 0x44

/-- A descriptor on the same engine is ahead of a sequenced collective of its group (R267). -/
def State.groupAhead (s : State) (e : Engine) (d : Slot) : Bool :=
  sequenced d && s.slots.any fun x =>
    x.id < d.id && x.target = d.target && engineOf x.target x.words = e && sequenced x && x.phase ≠ .recorded
      && body x.words 2 35 24 = body d.words 2 35 24

/-- The engine is free for a descriptor (R119, R147, R183, R267, R297, R398). -/
def State.free (s : State) (e : Engine) (d : Slot) : Bool :=
  let op := opcodeOf d.words
  match e with
  | .mx t .whole => mxIdle s t && !s.on MX_STATUS_SPLIT_PENDING t
  | .mx t h => !s.busy (.mx t .whole) && !s.busy (.mx t h) && !s.on MX_STATUS_SPLIT_PENDING t
  | .seq t =>
    let held := (s.onEngine e).foldl (fun m x => m ||| body x.words 0 15 0) (s.claimed t)
    op ≠ 0x70 || held &&& body d.words 0 15 0 = 0
  | .die _ =>
    let has (o : Nat) : Bool := (s.onEngine e).any fun x => opcodeOf x.words = o
    -- a load of a program and a change of K are over as they issue (R290, R297)
    !has 0x52 && !has 0x53 && if op = 0x50 ∨ op = 0x51 then !has 0x50 && !has 0x51 else op ≠ 0x52 || !has 0x50
  | .coll _ => (s.onEngine e).length < 16 && !s.groupAhead e d
  | .power => true
  | _ => !s.busy e

/-- A sequencer executes the descriptor itself, and it waits like any other (R194). -/
def selfRuns (op : Nat) : Bool := op = 0 || op = 2 || op = 3

/-- The descriptor that the sequencer of a target executes next: the earliest in delivery order that is eligible, and for
which its counters are free where it opens a window (R194, R199). -/
def State.nextSelf (s : State) (target : Nat) : Option Slot :=
  s.slots.find? fun d => d.target = target && s.eligible d
    && (selfRuns (opcodeOf d.words) || (opcodeOf d.words = 0x70 && s.free (engineOf target d.words) d))

/-- The descriptor that an engine takes: the earliest in delivery order that is eligible and for which it is free
(R199). -/
def State.nextIssue (s : State) (e : Engine) : Option Slot :=
  match e with
  | .seq t => (s.nextSelf t).bind fun d => if opcodeOf d.words = 0x70 then some d else none
  | _ => s.slots.find? fun d =>
      4 ≤ opcodeOf d.words && engineOf d.target d.words = e && s.eligible d && s.powered e && s.free e d

/-! ### Issue (R192, R331) -/

/-- The body checks and record reads of a descriptor, by its opcode. -/
def prepare (e : Engine) (w : Descriptor) : Prep s₀ (List Nat) :=
  let tile : Nat := (ownTile e).getD 0
  match e, opcodeOf w with
  | .copy _, 0x10 => prepPal true tile w
  | .copy _, 0x11 => prepPal false tile w
  | .copy _, _ => prepTensor w
  | .mx _ _, _ => prepMx tile w
  | .ve _, 0x28 => prepStroke tile w
  | .ve _, 0x30 => prepNorm tile w
  | .ve _, _ => prepSoftmax tile w
  | .seq _, _ => prepPmcWindow tile w
  | .coll y, 0x40 => prepFabSend y w
  | .coll y, 0x45 => prepDispatch y w
  | .coll y, 0x46 => prepCombine y w
  | .coll y, 0x47 => prepGroupSet y w
  | .coll y, _ => prepColl y w
  | .die n, 0x50 => prepVarUpdate n w
  | .die n, 0x51 => prepVarPush n w
  | .die _, 0x52 => prepVarState w
  | .die n, _ => prepVarProgram n w
  | .fixative, 0x60 => prepFixSnapshot w
  | .fixative, _ => prepFixRestore w
  | .power, _ => prepPwrDomain w

/-- The check of R331: a status where the descriptor's context disagrees with its atelier's tag. -/
def rngCheck (d : Slot) : Act s₀ (Option (Status × Nat)) := do
  let s ← now
  let armed := s.fld RISK_RNG_CHECK_ARMED
  if !bit armed d.atelier then pure none
  else
    let x := sdiff d.ctx.keyHi.toNat (s.held (RISK_TAG_KEY_HI.addr 0 d.atelier)).toNat 64
    if x = 0 then
      setF RISK_RNG_CHECK_ARMED (armed - 2 ^ d.atelier)
      pure none
    else
      riskEvent RISK_EVENT_RNG_SKEW
      pure (some (.rngSkew, intCode 24 (max (-(2 ^ 23)) (min x (2 ^ 23 - 1)))))

/-- What every issue does: START, the launch of a stamped descriptor, and SEQ.LAST_ISSUE (R195, R204, R229). -/
def noteIssue (d : Slot) : Act s₀ Unit := do
  let s ← now
  withSlot d.id fun x => { x with start := s.now40 d.target, moved := s.clock d.target }
  if opcodeOf d.words ≠ 0x20 then launch d.id
  if d.target < 64 then
    setF SEQ_LAST_ISSUE_OPCODE (opcodeOf d.words) d.target
    setF SEQ_LAST_ISSUE_RING d.ring d.target
    setF SEQ_LAST_ISSUE_POSITION d.pos d.target

/-- The body of a descriptor has failed, or its check: it completes at issue (R192) (DEDUCED, log entry 34). -/
def failIssue (e : Engine) (id : Nat) : Act s₀ Unit := do
  finish id
  parkAfter e id
  completeSlot id

/-- An array takes a product: its ballast yields, and stands for a stamped one until its launch (R378). -/
def yieldBallast (e : Engine) (d : Slot) : Act s₀ Unit :=
  match e with
  | .mx t _ => if d.unlaunched then standBallast t else changePlant fun p => { p with ballast := p.ballast.filter (· ≠ t.val) }
  | _ => pure ()

/-- Issue one descriptor on its engine (DEDUCED, log entry 34). -/
def issueOn (e : Engine) (d : Slot) : Act s₀ Unit := do
  let unit := engineUnit e
  let t ← ask fun s => s.now40 d.target
  noteIssue d
  yieldBallast e d
  withSlot d.id fun x => { x with on := some e, phase := .issued }
  fitEngine e
  if d.target < 64 ∧ unit < 5 then
    tally d.target evDescIssued [unit] 1 { slot := some { d with start := t }, ticks := some (sdiff t d.came 40).toNat }
  match ← rngCheck d with
  | some (st, detail) =>
    withSlot d.id fun x => { x with arose := Arose.put x.arose st detail }
    failIssue e d.id
  | none =>
    match ← runFor d e (prepare e d.words <* sound).run with
    | some rs => withSlot d.id fun x => { x with recs := rs }
    | none => failIssue e d.id

/-- DESCRIPTOR_ISSUE: an engine takes the earliest eligible descriptor for it (R199). -/
def actDescriptorIssue (e : Engine) : Act s₀ Unit := do
  match (← now).nextIssue e with
  | some d => issueOn e d
  | none => pure ()

/-- DESCRIPTOR_ISSUE. -/
def execDescriptorIssue (e : Engine) (s : State) : Host.Outcome State Fault Refusal :=
  .next (perform s (actDescriptorIssue e))

/-! ### Descriptors that a sequencer executes itself (R193, R194, R196, R197) -/

/-- The delivered descriptor of a number and opcode, where it is its sequencer's next; STREAM_SET waits for nothing (R196,
R199). -/
def State.selfRun (s : State) (id op : Nat) : Option Slot :=
  match s.slot id with
  | some d =>
    if opcodeOf d.words = op ∧ d.phase = .delivered ∧ s.fld ATL_STATUS_STATE d.atelier = 1
        ∧ (op = 1 ∨ (s.nextSelf d.target).map Slot.id = some id) then some d
    else none
  | none => none

/-- Execute one: its check, then its effect (DEDUCED, log entry 34). -/
def selfExec (id op : Nat) (effect : Slot → Prep s₀ Unit) : Act s₀ Unit := do
  match (← now).selfRun id op with
  | none => pure ()
  | some d =>
    noteIssue d
    match ← (if op < 2 then pure none else rngCheck d) with
    | some (st, detail) => completeWith d.id [(st, detail)]
    | none =>
      let e := engineOf d.target d.words
      match ← runFor d e (effect d).run with
      | some _ => finish d.id
      | none => completeWith d.id []

/-- NOP: a body of zeros. -/
def execNop (id : Nat) (s : State) : Host.Outcome State Fault Refusal :=
  .next (perform s (selfExec id 0 fun d => demand (zeroFrom d.words 0) *> sound))

/-- STREAM_SET has no wait and no stamp, and completes as it issues; its context was taken at its fetch (R196) (DEDUCED,
log entry 34). -/
def actStreamSet (id : Nat) : Act s₀ Unit := do
  selfExec id 1 fun d =>
    demand (waitKind d.words = 0 && stampOf d.words = 0 && body d.words 2 63 1 = 0 && zeroFrom d.words 3) *> sound
  match (← now).slot id with
  | some d => if d.phase = .done then completeSlot id
  | none => pure ()

/-- STREAM_SET. -/
def execStreamSet (id : Nat) (s : State) : Host.Outcome State Fault Refusal := .next (perform s (actStreamSet id))

/-- COUNTER_ADD: ADDEND is added to a counter of the atelier. -/
def counterAddWork (d : Slot) : Prep s₀ Unit := do
  let w := d.words
  let t := body w 0 15 10
  let n := body w 0 9 0
  demand (body w 0 31 16 = 0 && zeroFrom w 1)
  let s ← OptionT.lift (doing now)
  permit (s.ownsCounter d.atelier t n)
  sound
  OptionT.lift (doing (acAdd t n (body w 0 63 32)))

/-- COUNTER_ADD. -/
def execCounterAdd (id : Nat) (s : State) : Host.Outcome State Fault Refusal :=
  .next (perform s (selfExec id 2 counterAddWork))

/-- HOST_WRITE: 8 B through the atelier's port. An orphaned atelier has none (R349). -/
def hostWriteWork (d : Slot) : Prep s₀ Unit := do
  let w := d.words
  demand (body w 0 2 0 = 0 && zeroFrom w 2)
  let s ← OptionT.lift (doing now)
  permit (!s.on ATL_STATUS_ORPHANED d.atelier)
  sound
  OptionT.lift (doing (send (.hostWrite (Fin.ofNat 4 (s.portOf d.atelier)) (BitVec.ofNat 64 (body w 0 63 0))
    (wordBytes (body w 1 63 0)))))

/-- HOST_WRITE. -/
def execHostWrite (id : Nat) (s : State) : Host.Outcome State Fault Refusal :=
  .next (perform s (selfExec id 3 hostWriteWork))

/-! ### Completion (R203, R325) -/

/-- The last of an update's dies has completed on this module: an update boundary (R324). -/
def settleUpdate (d : Slot) : Act s₀ Unit := do
  let s ← now
  match s.units.var.runs.find? fun r => r.slot = d.id with
  | none => pure ()
  | some r =>
    changeVar fun v => { v with runs := v.runs.filter fun x => x.slot ≠ d.id }
    let others := (← now).units.var.runs.any fun x => 3 ≤ x.phase
      && (s.slot x.slot).any fun y => useqOf y.words = useqOf d.words && setOf y.words = setOf d.words
    if r.phase = 4 ∧ !others then updateBoundary (useqOf d.words)

/-- DESCRIPTOR_COMPLETE: the work is over and nothing of it is outstanding (R203). -/
def actDescriptorComplete (id : Nat) : Act s₀ Unit := do
  match (← now).slot id with
  | none => pure ()
  | some d =>
    if d.phase = .done ∧ d.outstanding = 0 then
      completeSlot id
      settleUpdate d
      settlePower
      match d.on with
      | some (.mx t _) => resumeBallast t
      | _ => pure ()

/-- DESCRIPTOR_COMPLETE. -/
def execDescriptorComplete (id : Nat) (s : State) : Host.Outcome State Fault Refusal :=
  .next (perform s (actDescriptorComplete id))

/-- The read of a FENCE_HOST has returned: its tag is free (R202). -/
def actFenceHostReadReturn (id : Nat) : Act s₀ Unit := do
  match (← now).slot id with
  | none => pure ()
  | some d =>
    if d.fence = .reading then
      answered (some d.atelier) ((← now).portOf d.atelier)
      withSlot id fun x => { x with fence := .confirmed }

/-- FENCE_HOST_READ_RETURN: the host has performed every earlier write (R198, R201). -/
def execFenceHostReadReturn (id : Nat) (s : State) : Host.Outcome State Fault Refusal :=
  .next (perform s (actFenceHostReadReturn id))

end Sys2Proof.Machine
end

