-- ==== Sys2Proof/Machine/ReadReg.lean ====
section
/-! DEFINITION. Reading a register: the fields that follow the machine as it stands when they are read, the performance
counters' user page, and blocks without power (R11, R13, R81, R129, R158, R179, R195, R211, R212, R218, R238, R279, R280,
R306, R335, R348, R354, R362, R380, R398, R402, R422). -/

namespace Sys2Proof.Machine

variable {s₀ : State}

/-- `w` with a field set. -/
def setIn (w : Word) (f : Fld) (v : Nat) : Word := putBits w f.hi f.lo v
/-- `w` with a one-bit field set. -/
def flagIn (w : Word) (f : Fld) (b : Bool) : Word := putBits w f.hi f.lo (if b then 1 else 0)

/-- Descriptors of a target in some phases. -/
def State.countSlots (s : State) (target : Nat) (p : Slot → Bool) : Nat := (s.slots.filter fun d => d.target = target && p d).length

/-- PAL.STATUS: the gates (R81, R84). -/
def State.palStatus (s : State) (t : Nat) (w : Word) : Word :=
  setIn (setIn (setIn (setIn w PAL_STATUS_Q0_GATE (s.gate t 0)) PAL_STATUS_Q1_GATE (s.gate t 1))
    PAL_STATUS_Q2_GATE (s.gate t 2)) PAL_STATUS_Q3_GATE (s.gate t 3)

/-- An array, or its left half, has a descriptor in progress; its right half has. -/
def State.mxBusyL (s : State) (t : Nat) : Bool := s.busy (.mx (Fin.ofNat 64 t) .whole) || s.busy (.mx (Fin.ofNat 64 t) .left)
def State.mxBusyR (s : State) (t : Nat) : Bool := s.busy (.mx (Fin.ofNat 64 t) .right)

/-- A tree-mode product is in progress on a tile (R129). -/
def State.treeActive (s : State) (t : Nat) : Bool :=
  s.slots.any fun d => d.target = t && opcodeOf d.words = 0x20 && d.on.isSome && (d.phase = .issued || d.phase = .done)
    && mxTree d.words

/-- A product of the array waits on its pace, so the array stands still (R117, R118). -/
def State.mxPaceWaits (s : State) (t : Nat) : Bool :=
  [Half.whole, .left, .right].any fun h => s.paceHeld (Fin.ofNat 64 t) h

/-- MX.STATUS (R129). While a descriptor is in progress FROZEN is 1 where a pace or the throttle holds the array, and else a free bit
`fz` (DEDUCED, log entry 30). -/
def State.mxStatus (s : State) (t : Nat) (fz : Bool) (w : Word) : Word :=
  flagIn (flagIn (flagIn (flagIn w MX_STATUS_FROZEN ((fz || s.mxPaceWaits t || s.throttled t) && (s.mxBusyL t || s.mxBusyR t))) MX_STATUS_TREE_ACTIVE (s.treeActive t))
    MX_STATUS_BUSY_R (s.mxBusyR t)) MX_STATUS_BUSY_L (s.mxBusyL t)

/-- A descriptor on a vector engine, by its opcodes. -/
def State.veSlot (s : State) (t : Nat) (ops : List Nat) : Option Slot :=
  s.slots.find? fun d => d.on = some (.ve (Fin.ofNat 64 t)) && (d.phase = .issued || d.phase = .done)
    && ops.contains (opcodeOf d.words)

/-- A stroke uses the SFU: one of its instructions is an FN (R147). -/
def usesSfu (d : Slot) : Bool :=
  let p := d.stroke
  p.fnCount true + p.fnCount false != 0

/-- VE.STATUS (R158, R159). A scan stands in its first sweep until its waves have ended, and in its second one after that;
a NORM or SOFTMAX has no MODE of R134 (DEDUCED, log entry 30). -/
def State.veStatus (s : State) (t : Nat) (fz : Bool) (w : Word) : Word :=
  let n : TileNo := Fin.ofNat 64 t
  match s.veSlot t [0x28] with
  | none =>
    let busy := s.busy (.ve n)
    flagIn (flagIn (flagIn w VE_STATUS_BUSY busy) VE_STATUS_SFU_HELD busy) VE_STATUS_FROZEN ((fz || s.throttled t) && busy)
  | some d =>
    let m := d.stroke.mode
    flagIn (setIn (setIn (flagIn (flagIn (flagIn w VE_STATUS_BUSY true) VE_STATUS_SFU_HELD (usesSfu d)) VE_STATUS_FROZEN
        (fz || s.paceWaits n || s.throttled t))
      VE_STATUS_MODE m) VE_STATUS_PHASE (if m = 2 then (if d.phase = .done then 3 else 1) else 0))
      VE_STATUS_PACE_WAIT (s.paceWaits n)

/-- MODE in SFU.STATUS: of a SOFTMAX, or LAYER or RMS of a NORM (R179). -/
def sfuMode (d : Slot) : Nat := if opcodeOf d.words = 0x31 then nsMode d.words else if normRms d.words then 1 else 0

/-- PASS in SFU.STATUS: a descriptor stands in its first pass until its work is over, and then in its last: pass 2, or the
finish where it writes no output; APPLY has pass 2 alone (R177, R179) (DEDUCED, log entry 30). -/
def sfuPass (d : Slot) : Nat :=
  if opcodeOf d.words = 0x31 ∧ nsMode d.words = 2 then 3
  else if d.phase ≠ .done then 1
  else if body d.words 1 63 0 = 0 then 2 else 3

/-- SFU.STATUS (R179). -/
def State.sfuStatus (s : State) (t : Nat) (w : Word) : Word :=
  match s.veSlot t [0x30, 0x31] with
  | none => w
  | some d =>
    setIn (setIn (setIn (flagIn w SFU_STATUS_BUSY true) SFU_STATUS_KIND (if opcodeOf d.words = 0x30 then 1 else 2))
      SFU_STATUS_MODE (sfuMode d)) SFU_STATUS_PASS (sfuPass d)

/-- SEQ.STATUS (R195). -/
def State.seqStatus (s : State) (t : Nat) (w : Word) : Word :=
  let waits := s.slots.any fun d => d.target = t && s.eligible d && !s.powered (engineOf t d.words)
  let a := setIn (setIn w SEQ_STATUS_DELIVERED (s.countSlots t fun d => d.phase ≠ .recorded))
    SEQ_STATUS_PENDING (s.countSlots t fun d => d.phase = .delivered)
  flagIn (flagIn (flagIn (flagIn (flagIn a SEQ_STATUS_POWER_WAIT waits) SEQ_STATUS_COPY_BUSY (s.busy (.copy (Fin.ofNat 64 t))))
    SEQ_STATUS_VE_BUSY (s.busy (.ve (Fin.ofNat 64 t)))) SEQ_STATUS_MX_BUSY_R (s.mxBusyR t)) SEQ_STATUS_MX_BUSY_L (s.mxBusyL t)

/-- SEQ.LC[n] (R238): the stamped descriptor armed on it, or the window edge that LC3 is lent to. -/
def State.lcWord (s : State) (t n : Nat) (w : Word) : Word :=
  let w := flagIn (flagIn w SEQ_LC_ARMED (s.lcArmed t n)) SEQ_LC_MATCHED (s.lcMatched t n)
  match s.comparator t n, s.lcEdge t n with
  | some d, _ => setIn w SEQ_LC_STAMP (stampOf d.words)
  | none, some x => setIn (flagIn w SEQ_LC_LOANED true) SEQ_LC_STAMP (x.opened + x.edge.1)
  | none, none => w

/-- COLL.STATUS of an engine (R279). -/
def State.collStatus (s : State) (e : Nat) (w : Word) : Word :=
  setIn (setIn (setIn w COLL_STATUS_HELD (s.units.fab.held.filter fun h => h.1 = e).length)
    COLL_STATUS_RUNNING ((s.onEngine (.coll (Fin.ofNat 2 e))).filter fun d =>
      0x41 ≤ opcodeOf d.words && opcodeOf d.words ≤ 0x44).length)
    COLL_STATUS_GROUPS ((List.range 64).filter fun k => s.on COLL_GROUP_ID_VALID e k).length

/-- VAR.STATUS (R306) (DEDUCED, log entry 30). -/
def State.varStatus (s : State) (n : Nat) (w : Word) : Word :=
  setIn (flagIn w VAR_STATUS_BUSY (s.varPhase n ≠ 0)) VAR_STATUS_PHASE (s.varPhase n)

/-- What a copy or restore in progress is, in the codes of RISK.STATUS.COPY (R335). -/
def copyCode (d : Slot) : Nat :=
  if opcodeOf d.words = 0x60 then body d.words 0 1 0
  else if restoreMode d.words = 0 then 4
  else if restoreMode d.words = 2 then 5
  else 6

/-- RISK.STATUS (R335) (DEDUCED, log entry 49). -/
def State.riskStatus (s : State) (w : Word) : Word :=
  let kind : Nat := match s.units.fail.jobs.head? with
    | some j => j.kind
    | none => ((s.onEngine .fixative).head?.map copyCode).getD 0
  flagIn (setIn w RISK_STATUS_COPY kind) RISK_STATUS_BUSY (!s.units.fail.jobs.isEmpty || s.busy .fixative)

/-- ATS is enabled in a port's configuration space, whose ATS Control word the model places in DWORD 0x51 (PRESUMED, log entry 9). -/
def State.atsEnabled (s : State) (p : Nat) : Bool := (s.config p 0x51).getLsbD 31

/-- HOST.STATUS (R354). -/
def State.hostStatus (s : State) (p : Nat) (w : Word) : Word :=
  flagIn (flagIn (flagIn w HOST_STATUS_ATS_EN (s.atsEnabled p)) HOST_STATUS_MGMT (p = s.mgmtPort))
    HOST_STATUS_BME (s.busMaster p)

/-- PLANT.SOC_NOW.AGE: milliseconds since the last valid frame (R380). -/
def State.socAge (s : State) : Nat :=
  if s.on PLANT_SOC_NOW_VALID then min 0xffff ((s.ticks - s.units.plant.socAt) / 100000) else 0xffff

/-- PMC.WIN (R398, R403). -/
def State.pmcWin (s : State) (t : Nat) (w : Word) : Word :=
  setIn (setIn w PMC_WIN_OPEN (s.windowsOf t).length) PMC_WIN_CLAIMED (s.claimed t)

/-- RING[r].CFG: the owner (R340). -/
def State.ringCfg (s : State) (r : Nat) (w : Word) : Word :=
  match s.ringOwner r with
  | some a => setIn (flagIn w RING_CFG_OWNED true) RING_CFG_ATELIER a
  | none => w

/-- The value of the register at offset `off` of an instance, as it stands now. `fz` is a free bit for what a beat in
progress decides. -/
def State.liveReg (s : State) (b : Blk) (i off : Nat) (fz : Bool) : Word :=
  let w := s.held (regAddr b i off)
  match b, off with
  | .pal, 0x8 => s.palStatus i w
  | .mx, 0x8 => s.mxStatus i fz w
  | .ve, 0x0 => s.veStatus i fz w
  | .sfu, 0x0 => s.sfuStatus i w
  | .seq, 0x0 => s.seqStatus i w
  | .seq, 0x900 => s.lcWord i 0 w
  | .seq, 0x908 => s.lcWord i 1 w
  | .seq, 0x910 => s.lcWord i 2 w
  | .seq, 0x918 => s.lcWord i 3 w
  | .ring, 0x8 => setIn w RING_POLL_STATUS_ACTIVE_GROUPS ((List.range 8192).filter fun g => s.on GRP_DB_ACTIVE g).length
  | .grp, 0x28 => flagIn w GRP_STATUS_CQ_FULL (s.cqFull i)
  | .ringr, 0x8 => s.ringCfg i w
  | .tb, 0x0 => s.units.tb.count
  | .coll, 0x8 => s.collStatus i w
  | .coll, 0x58 => mapGet routeReset s.routes (s.fld COLL_ROUTE_ADDR_MODULE)
  | .var, 0x8 => s.varStatus i w
  | .risk, 0x68 => s.riskStatus w
  | .host, 0x0 => s.hostStatus i w
  | .atl, 0x10 => setIn w ATL_STATUS_HELD (s.slots.filter fun d => d.atelier = i && d.phase = .delivered && s.fld ATL_STATUS_STATE i != 1).length
  | .plant, 0x30 => setIn w PLANT_SOC_NOW_AGE s.socAge
  | .pmc, 0x30 => s.pmcWin i w
  | .dbg, 0x10 => flagIn w DBG_STATUS_SEALED s.sealed
  | .fuse, 0x0 => flagIn w FUSE_STATUS_VPP_OK fz
  | _, _ => w

/-- The value that a read of a block's window returns: 0 where no register lies (R11), the reset value in a block without
power (R362), and on the user page the register it stands for while USER_READ is 1 (R402). -/
def State.readOff (s : State) (b : Blk) (i off : Nat) (fz : Bool) : Word :=
  if b = .pmc ∧ 0x8000 ≤ off ∧ off < 0x8800 then
    (if s.on PMC_CTL_USER_READ i ∧ (findDef (blkRegs .pmc) (off - 0x8000)).isSome then s.liveReg .pmc i (off - 0x8000) fz else 0)
  else if (findDef (blkRegs b) off).isNone then 0
  else if s.blkDark b i then regReset (regAddr b i off)
  else s.liveReg b i off fz

end Sys2Proof.Machine
end

