-- ==== Sys2Proof/Machine/HostAccess.lean ====
section
/-! DEFINITION. Host accesses: register writes and what each register does with one, reads and writes of memory through
BAR2, the MSI-X table in BAR0, and configuration requests (R10 to R17, R336 to R343, R352, R402, R409). -/

namespace Sys2Proof.Machine

variable {s₀ : State}

/-! ### What a register does with a write -/

/-- A write of RISK.CTL: while RECOVER is 1 the CMC holds TREE_EN at 1 on every tile, and else at 0 (R332). -/
def hookRiskCtl (w : RegWrite) : Act s₀ Unit := do
  plainHook w
  let s ← now
  each (List.range 64) fun t => if s.dark (6 * t) then pure () else setF MX_CTL_TREE_EN (w.field RISK_CTL_RECOVER) t

/-- A write of RISK.REGION: bits [15:0] of BASE are 0 (R335). -/
def hookRegion (w : RegWrite) : Act s₀ Unit := emit (.reg w.addr (putBits w.new 15 0 0))

/-- A write of COLL.ROUTE_DATA replaces the entry that ROUTE_ADDR selects, in the bits that R280 gives it. -/
def hookRoute (w : RegWrite) : Act s₀ Unit := do
  let m ← fld COLL_ROUTE_ADDR_MODULE
  emit (.route m w.new)

/-- What the registers of the tiles do with a write. -/
def tileHook (w : RegWrite) : Act s₀ Unit :=
  match w.blk with
  | .mx => if w.off = 0x0 then hookSplit w else if w.off = 0x18 then hookPark w else plainHook w
  | .pal =>
    if w.off = 0x40 then hookSets w
    else if w.off = 0x48 then hookAcAdd w
    else if 0x2000 ≤ w.off then hookAc w
    else plainHook w
  | .pmc =>
    if w.off = 0x0 ∨ w.off = 0x8 then hookFreeze w
    else if w.off = 0x10 then hookSbufCtl w
    else if 0x180 ≤ w.off ∧ w.off < 0x200 then hookSelect PMC_EVSEL_CHAIN ((w.off - 0x180) / 8 % 2 = 0) w
    else plainHook w
  | _ => plainHook w

/-- What the registers of rings and groups do with a write. -/
def ringHook (w : RegWrite) : Act s₀ Unit :=
  match w.blk with
  | .ring => if 0x100 ≤ w.off ∧ w.off < 0x180 then hookSched w else plainHook w
  | .grp => if w.off = 0x0 then hookGrpDb w else plainHook w
  | _ =>
    if w.off = 0x0 then hookRingBase w
    else if w.off = 0x8 then hookRingCfg w
    else if w.off = 0x10 then hookRingCtl w
    else if w.off = 0x28 then hookRetired w
    else if w.off = 0x18 ∨ w.off = 0x30 ∨ w.off = 0x38 then hookWhileDisabled w
    else plainHook w

/-- What the registers of an atelier do with a write. -/
def atlHook (w : RegWrite) : Act s₀ Unit :=
  if w.off = 0x0 then hookAtlOwner w
  else if w.off = 0x8 then hookAtlCtl w
  else if w.off = 0x18 then hookAtlTiles w
  else if w.off = 0x20 then hookAtlDies w
  else if w.off = 0x28 then hookAtlRings w
  else if w.off = 0x30 then hookAtlTxn w
  else if 0x40 ≤ w.off ∧ w.off < 0x80 then hookAtlHbm w
  else if w.off = 0x8000 then hookAtlMgmt w
  else if w.off = 0x8008 then hookAdopt w
  else if w.off = 0x8010 then hookDissolve w
  else if 0x8100 ≤ w.off then hookShare w
  else plainHook w

/-- What the other module-wide registers do with a write. -/
def moduleHook (w : RegWrite) : Act s₀ Unit :=
  match w.blk with
  | .tb => if w.off = 0x8 then hookTbCtl w else if w.off = 0x20 then hookTbSync w else plainHook w
  | .pwr =>
    if w.off = 0x0 then hookPwrCtl w
    else if 0x10 ≤ w.off ∧ w.off < 0x30 then hookRail w
    else if w.off = 0x70 then hookDomCmd w
    else plainHook w
  | .plant => if w.off = 0x0 then hookPlantCtl w else if w.off = 0x28 then hookPlantSoc w else plainHook w
  | .risk =>
    if w.off = 0x0 then hookRiskCtl w
    else if w.off = 0x10 then hookRiskLevels w
    else if w.off = 0x38 ∨ w.off = 0x48 then hookImagePlace w plainHook
    else if w.off = 0x40 then hookImagePlace w hookRegion
    else plainHook w
  | .dbg => if w.off = 0x0 then hookDbgCtl w else plainHook w
  | .fuse => if w.off = 0x8 then hookFuseProg w else plainHook w
  | .cmc =>
    if w.off = 0x10 then hookCmcReset w
    else if 0x8008 ≤ w.off ∧ w.off < 0x8200 ∧ w.off % 16 = 8 then
      hookSelect CMC_UC_SEL_CHAIN ((w.off - 0x8008) / 16 % 2 = 0) w
    else plainHook w
  | .link => if w.off = 0x0 then hookLinkCtl w else plainHook w
  | .coll => if w.off = 0x0 then hookCollId w else if w.off = 0x58 then hookRoute w else plainHook w
  | _ => plainHook w

/-- What a register does with a write that has passed its checks. -/
def regHook (w : RegWrite) : Act s₀ Unit :=
  match w.blk with
  | .mx | .ve | .sfu | .pal | .seq | .pmc => tileHook w
  | .ring | .grp | .ringr => ringHook w
  | .atl => atlHook w
  | _ => moduleHook w

/-- The user page of a PMC block takes no write (R402): one from a port that reaches the block is recorded (DEDUCED, log
entry 17). -/
def State.onUserPage (s : State) (p a : Nat) : Bool :=
  match place a with
  | .reg .pmc i off => 0x8000 ≤ off && off < 0x9000 && !s.early .pmc && s.mayRead p .pmc i off
  | _ => false

/-- One 8-byte register write (DEDUCED, log entry 14). -/
def writeReg (p a : Nat) (v : Word) : Act s₀ Unit := do
  if (← now).onUserPage p a then recordLocked p a
  else if a = FUSE_PROG_GO.addr 0 0 then writeFuseProg p v
  else checkedWrite p a v regHook

/-! ### Bytes -/

/-- The number that enabled bytes spell; a byte that is not enabled counts as 0. -/
def enabledValue (bs : List (Option Byte)) : Nat := ofBytes (bs.map fun b => b.getD 0)
/-- The mask of the enabled bytes. -/
def enabledMask (bs : List (Option Byte)) : Nat := ofBytes (bs.map fun b => if b.isSome then 0xff else 0)

/-- Cut a list into eights. -/
def eights {α : Type} : Nat → List α → List (List α)
  | 0, _ => []
  | n + 1, xs => if xs.isEmpty then [] else xs.take 8 :: eights n (xs.drop 8)

/-- The first window that a register access may not reach, or an address with nothing behind it (R17, R343) (DEDUCED,
log entry 16). -/
def State.refusedReg (s : State) (p : Nat) (a : Nat) : Bool :=
  match place a with
  | .reg b i off => !s.mayRead p b i off
  | _ => true

/-- A register write at the address is refused (R17, R341 to R343). -/
def State.refusedWrite (s : State) (p : Nat) (a : Nat) : Bool :=
  match place a with
  | .reg b i off => !s.mayTry p b i off
  | _ => true

/-- Register writes at ascending addresses, one for each eight bytes; one that is not whole is discarded and counted
(R13, R339) (DEDUCED, log entry 13). -/
def writeRegs (p a : Nat) : List (List (Option Byte)) → Act s₀ Unit
  | [] => pure ()
  | bs :: rest => do
    if (← now).refusedWrite p a then recordDenied p true a
    else if bs.length = 8 ∧ bs.all Option.isSome then writeReg p a (BitVec.ofNat 64 (enabledValue bs))
    else recordNarrow p
    writeRegs p (a + 8) rest

/-- A write to a register window through BAR2 (R13, R339, R409) (DEDUCED, log entry 13). -/
def hostRegWrite (p a : Nat) (bs : List (Option Byte)) : Act s₀ Unit := do
  let s ← now
  match place a with
  | .reg b i off =>
    if s.early b then pure ()
    else if !s.mayTry p b i off then recordDenied p true a
    else if a % 8 = 0 then writeRegs p a (eights bs.length bs)
    else recordNarrow p
  | _ => recordDenied p true a

/-! ### Memory through BAR2 -/

/-- Every byte of an interval belongs to ateliers of a port (R342). -/
def State.portOwns (s : State) (p a n : Nat) : Bool :=
  (List.range n).all fun k => (List.range 16).any fun x => s.owns p (some x) && s.ownsByte x (a + k)

/-- The granule numbers of an interval that is not empty. -/
def spanGranules (a n : Nat) : List Nat := (List.range ((a + n - 1) / 64 - a / 64 + 1)).map fun k => a / 64 + k

/-- The bytes that a write puts into granule `g`. -/
def bytesFor (a : Nat) (bs : List (Option Byte)) (g : Nat) : List (Option Byte) :=
  (List.range 64).map fun k => if 64 * g + k < a then none else (bs[64 * g + k - a]?).getD none

/-- A stack whose repair is in progress holds the granule (R313). -/
def State.repairs (s : State) (g : Nat) : Bool := (stackOf (64 * g)).any fun n => s.units.hbm.repairing.contains n

/-- One granule of a host write. A palette takes it behind the transfers of the same port that it has accepted and not
yet committed (R339), and a stack in repair once it serves again (R313) (DEDUCED, log entry 15; DEDUCED, log entry
17). -/
def hostGranule (p : HostNo) (a : Nat) (bs : List (Option Byte)) (g : Nat) : Act s₀ Unit := do
  let s ← now
  let xs := bytesFor a bs g
  let v : Granule := BitVec.ofNat 512 (enabledValue xs)
  let mask : Granule := BitVec.ofNat 512 (enabledMask xs)
  if mask = 0 then pure ()
  else if s.repairs g then
    let i ← freeIndex
    match stackOf (64 * g) with
    | some n => presentStack n ⟨false, none, g, some (v, mask), Config.freeBit i⟩
    | none => pure ()
  else
    let _ ← writeGranule { src := some (.host p) } g v mask none

/-- A write to a palette or a stack through BAR2 (R339, R342): any size, any byte enables, no counter. Before READY it
is discarded (R409) (DEDUCED, log entry 16; DEDUCED, log entry 17). -/
def hostMemWrite (p : HostNo) (a : Nat) (bs : List (Option Byte)) : Act s₀ Unit := do
  let s ← now
  if !s.on CMC_STATUS_READY then pure ()
  else if !s.portOwns p a bs.length then recordDenied p true a
  else each (spanGranules a bs.length) (hostGranule p a bs)

/-- Whether a host read of a granule finds a gate or a stack that does not serve (R82, R365) or a palette that takes no
access from outside (R84) (DEDUCED, log entry 15). -/
def State.refusesRead (s : State) (g : Nat) : Bool :=
  match s.meets none g with
  | .dark | .denied => true
  | _ => false

/-- Read the granules of an interval: their data, and whether one of them was poisoned. A poisoned granule, or one of a
failed die's stack, gives its data as stored, with the errors that stand in them (R342) (DEDUCED, log entry 15; DEDUCED,
log entry 18). -/
def readHostGranules : List Nat → Act s₀ (List Granule × Bool)
  | [] => pure ([], false)
  | g :: gs => do
    let (v, e) ← readGranule {} g
    let s ← now
    let (vs, bad) ← readHostGranules gs
    pure ((if e = .ok then v else s.granule g ^^^ dataErrors (s.errors g)) :: vs, e = .uncorr || bad)

/-- Byte `x` of consecutive granules that begin at granule `g`. -/
def spanByte (g : Nat) (vs : List Granule) (x : Nat) : Byte :=
  (vs.getD (x / 64 - g) 0).extractLsb' (8 * (x % 64)) 8

/-- A read of a palette or a stack through BAR2 (R339, R342): the data as stored, poisoned where a granule is, or
Unsupported Request. One of a stack in repair waits (R313) (DEDUCED, log entry 17). -/
def hostMemRead (p : HostNo) (a n : Nat) : Act s₀ Unit := do
  let s ← now
  if !s.on CMC_STATUS_READY then send (.hostCompletion p none false)
  else if !s.portOwns p a n then
    recordDenied p false a
    send (.hostCompletion p none false)
  else if (spanGranules a n).any s.refusesRead then send (.hostCompletion p none false)
  else if (spanGranules a n).any s.repairs then
    change fun u => { u with hbm := { u.hbm with reads := u.hbm.reads ++ [(p, a, n)] } }
  else
    let (vs, bad) ← readHostGranules (spanGranules a n)
    let data := (List.range n).map fun k => spanByte (a / 64) vs (a + k)
    if bad then countUp HOST_POISON_COUNT 1 p
    send (.hostCompletion p (some data) bad)

/-- PPR_COMPLETE: the pseudo-channel serves again, and what waited for it is served (R313) (DEDUCED, log entry 46). -/
def actPprComplete (n : Nat) : Act s₀ Unit := do
  let s ← now
  if s.units.hbm.repairing.contains n then
    let mine := (s.units.hbm.waits.filter fun w => w.1 = n).map Prod.snd
    change fun u => { u with hbm := { u.hbm with
      repairing := u.hbm.repairing.filter (· ≠ n), waits := u.hbm.waits.filter fun w => w.1 ≠ n, reads := [] } }
    each (arbOrder (s.fld VAR_CTL_ARB n) (mine.filter StackWait.own) (mine.filter fun w => !w.own) mine.length)
      (presentStack n)
    each s.units.hbm.reads fun r => hostMemRead r.1 r.2.1 r.2.2

/-- PPR_COMPLETE. -/
def execPprComplete (n : DieNo) (s : State) : Host.Outcome State Fault Refusal := .next (perform s (actPprComplete n))

/-- A read of register windows through BAR2 (R13, R339, R343, R409): whole registers from the one that holds the first
byte on (DEDUCED, log entry 13). Where one of several is refused, the whole read is, and counts once with its address (DESIGN
CHOICE, log entry 92). -/
def hostRegRead (p : HostNo) (a n : Nat) : Act s₀ Unit := do
  let s ← now
  let as := (List.range (if n ≤ 8 then 1 else (n + 7) / 8)).map fun k => a / 8 * 8 + 8 * k
  let shut : Bool := match place a with
    | .reg b _ _ => s.early b
    | _ => false
  match as.find? (s.refusedReg p) with
  | some x =>
    if !shut then recordDenied p false x
    send (.hostCompletion p none false)
  | none =>
    if shut then send (.hostCompletion p none false)
    else
      let i ← freeIndex
      let value (x : Nat) : Word := match place x with
        | .reg b k off => s.readOff b k off (Config.freeBit i)
        | _ => 0
      send (.hostCompletion p (some (as.flatMap fun x => bytesOf 8 (value x).toNat)) false)

/-! ### BAR0 (R338, R352) -/

/-- A 16-byte entry of the MSI-X table as PCIe lays it out: address, data, Vector Control with its mask bit. -/
def msixBits (e : MsixEntry) : Nat := e.addr.toNat + e.data.toNat * 2 ^ 64 + (if e.mask then 2 ^ 96 else 0)

/-- The byte at an offset of BAR0: the table, the Pending Bit Array, and 0 elsewhere. -/
def State.bar0Byte (s : State) (p o : Nat) : Byte :=
  if o < 0x8000 then BitVec.ofNat 8 (msixBits (s.msixEntry p (o / 16)) / 256 ^ (o % 16))
  else if o < 0x8100 then
    BitVec.ofNat 8 ((List.range 8).foldl (fun a k => a + if (s.msixEntry p (8 * (o - 0x8000) + k)).pending then 2 ^ k else 0) 0)
  else 0

/-- An entry of the table takes a write; unmasking it sends what is pending (R352). -/
def writeEntry (p v : Nat) (bs : List (Option Byte)) : Act s₀ Unit := do
  let e ← ask fun s => s.msixEntry p v
  let mask := enabledMask bs
  let old : BitVec 128 := BitVec.ofNat 128 (msixBits e)
  let x := ((old &&& ~~~ (BitVec.ofNat 128 mask)) ||| BitVec.ofNat 128 (enabledValue bs)).toNat
  if mask ≠ 0 then
    setMsix p v { e with addr := BitVec.ofNat 64 x, data := BitVec.ofNat 32 (x / 2 ^ 64), mask := x.testBit 96 }
    if e.mask && !x.testBit 96 && e.pending then sendVector p v e.groups

/-- The bytes that a write at offset `o` puts into the 16-byte entry `v` (PRESUMED, log entry 9). -/
def entryBytes (o : Nat) (bs : List (Option Byte)) (v : Nat) : List (Option Byte) :=
  (List.range 16).map fun k => if 16 * v + k < o then none else (bs[16 * v + k - o]?).getD none

/-- A write through BAR0: the table takes it, and everything else ignores it (DEDUCED, log entry 17). -/
def hostBar0Write (p o : Nat) (bs : List (Option Byte)) : Act s₀ Unit :=
  each ((List.range (bs.length / 16 + 2)).map fun k => o / 16 + k) fun v =>
    if v < 2048 then writeEntry p v (entryBytes o bs v) else pure ()

/-! ### The commands -/

/-- An access of `n` bytes lies inside its BAR (R338), and is no longer than a PCIe request (DESIGN CHOICE, log entry
10; PRESUMED, log entry 12). -/
def accessWf (b : Bar) (a n : Nat) : Bool :=
  1 ≤ n && n ≤ 4096 && (match b with
    | .bar0 => a + n ≤ 0x10000
    | .bar2 => a + n ≤ 0x40000000000)

/-- A write that arrives through a BAR (DESIGN CHOICE, log entry 11). -/
def actHostWrite (p : HostNo) (b : Bar) (a : Nat) (bs : List (Option Byte)) : Act s₀ Unit := do
  if (← now).d3hot p then pure ()
  else match b with
    | .bar0 => hostBar0Write p a bs
    | .bar2 => if isMemory a then hostMemWrite p a bs else hostRegWrite p a bs

/-- REGISTER_WRITE. -/
def execRegisterWrite (port : HostNo) (bar : Bar) (addr : Addr) (data : List Byte) (s : State) :
    Host.Outcome State Fault Refusal :=
  if accessWf bar addr.toNat data.length then .next (perform s (actHostWrite port bar addr.toNat (data.map some)))
  else .fault (.illFormed "REGISTER_WRITE")

/-- HOST_MEMORY_WRITE. -/
def execHostMemoryWrite (port : HostNo) (bar : Bar) (addr : Addr) (data : List (Option Byte)) (s : State) :
    Host.Outcome State Fault Refusal :=
  if accessWf bar addr.toNat data.length then .next (perform s (actHostWrite port bar addr.toNat data))
  else .fault (.illFormed "HOST_MEMORY_WRITE")

/-- A read that arrives through a BAR (DESIGN CHOICE, log entry 11). -/
def actHostRead (p : HostNo) (b : Bar) (a n : Nat) : Act s₀ Unit := do
  let s ← now
  if s.d3hot p then send (.hostCompletion p none false)
  else match b with
    | .bar0 => send (.hostCompletion p (some ((List.range n).map fun k => s.bar0Byte p (a + k))) false)
    | .bar2 => if isMemory a then hostMemRead p a n else hostRegRead p a n

/-- HOST_MEMORY_READ. -/
def execHostMemoryRead (port : HostNo) (bar : Bar) (addr : Addr) (len : Nat) (s : State) : Host.Outcome State Fault Refusal :=
  if accessWf bar addr.toNat len then .next (perform s (actHostRead port bar addr.toNat len))
  else .fault (.illFormed "HOST_MEMORY_READ")

/-! ### Configuration space (R336, R337, R352, R409; log entry 9) -/

/-- The bits of a DWORD that software writes: the Command register, both BARs, PowerState, Device Control, Message Control
and ATS Control (PRESUMED, log entry 9). -/
def cfgWritable : Nat → BitVec 32
  | 0x1 => 0x546
  | 0x4 => 0xffff0000
  | 0x5 => 0xffffffff
  | 0x7 => 0xfffffc00
  | 0x11 => 0x3
  | 0x1e => 0x70e0
  | 0x2c => 0xc0000000
  | 0x51 => 0x80000000
  | _ => 0

/-- The bits of a DWORD that a write of 1 clears: error status (PRESUMED, log entry 9). -/
def cfgW1c : Nat → BitVec 32
  | 0x1e => 0x90000
  | 0x41 => 0x100000
  | 0x44 => 0x2000
  | _ => 0

/-- What a write leaves in a DWORD. The Function has no D1 and no D2 (R336) (PRESUMED, log entry 9). -/
def cfgAfter (dw : Nat) (old v : BitVec 32) : BitVec 32 :=
  if dw = 0x11 ∧ (v.toNat % 4 = 1 ∨ v.toNat % 4 = 2) then old
  else (v &&& cfgWritable dw) ||| (old &&& cfgW1c dw &&& ~~~ v)

/-- The bits of a DWORD that read as constants: Device ID, Class Code, BAR kinds, the MSI-X table's size and places
(PRESUMED, log entry 9). -/
def cfgConst : Nat → BitVec 32
  | 0x0 => 0xf0640000
  | 0x2 => 0x12000000
  | 0x4 => 0x4
  | 0x6 => 0xc
  | 0x2c => 0x07ff0011
  | 0x2e => 0x8000
  | _ => 0

/-- The bits of a DWORD that neither the spec nor the model fixes: free values when read (PRESUMED, log entry 9). -/
def cfgFree : Nat → BitVec 32
  | 0x0 => 0x0000ffff
  | 0x1 => 0xffff0000
  | 0x2 => 0x000000ff
  | 0x4 | 0x5 | 0x6 | 0x7 | 0x2d | 0x2e => 0
  | 0x11 => 0xfffffffc
  | 0x1e => 0xfff68f1f
  | 0x41 => 0xffefffff
  | 0x44 => 0xffffdfff
  | 0x2c => 0x0000ff00
  | 0x51 => 0x7fffffff
  | _ => 0xffffffff

/-- A configuration write: clearing Bus Master Enable is a host loss, Initiate FLR a reset of the function (R337), and
clearing the Function Mask sends what is pending (R352) (PRESUMED, log entry 9). -/
def writeConfig (p : HostNo) (dw : Nat) (v : BitVec 32) : Act s₀ Unit := do
  let s ← now
  let old := s.config p dw
  if dw = 0x1e ∧ v.getLsbD 15 then actHostLoss p .flr
  else if dw = 0x1 ∧ old.getLsbD 2 ∧ !v.getLsbD 2 then
    change fun u => { u with host := { u.host with
      config := mapSet (fun _ => 0) u.host.config (1024 * p.val + dw) (cfgAfter dw old v) } }
    actHostLoss p .bmeCleared
  else
    change fun u => { u with host := { u.host with
      config := mapSet (fun _ => 0) u.host.config (1024 * p.val + dw) (cfgAfter dw old v) } }
    if dw = 0x2c ∧ old.getLsbD 30 ∧ !v.getLsbD 30 then sendPending p

/-- HOST_CONFIG_REQUEST: answered with Configuration Request Retry Status before READY, unless the sequence has failed
(R409, R414). -/
def actHostConfig (p : HostNo) (dw : Nat) (acc : CfgAccess) : Act s₀ Unit := do
  let s ← now
  if !s.on CMC_STATUS_READY && !s.units.boot.failed then send (.cfgCompletion p none)
  else match acc with
    | .read => do
      let i ← freeIndex
      send (.cfgCompletion p (some (s.config p dw ||| cfgConst dw ||| ((Config.freeWord i).truncate 32 &&& cfgFree dw))))
    | .write v => do
      writeConfig p dw v
      send (.cfgCompletion p (some 0))

/-- HOST_CONFIG_REQUEST. -/
def execHostConfigRequest (port : HostNo) (dword : Fin 1024) (acc : CfgAccess) (s : State) :
    Host.Outcome State Fault Refusal :=
  .next (perform s (actHostConfig port dword acc))

end Sys2Proof.Machine
end

