-- ==== Sys2Proof/Machine/Stalls.lean ====
section
/-! DEFINITION. The stall watchdogs of the array, the vector engine and the Varnish dies, and the abort of stalled
descriptors while an atelier quiesces (R119, R150, R207, R299, R348). -/

namespace Sys2Proof.Machine

variable {s₀ : State}

/-- The descriptor in progress on a unit (R150, R204). -/
def State.stallSlot (s : State) : StallUnit → Option Slot
  | .mx t true => s.working (.mx t .right)
  | .mx t false => match s.working (.mx t .left) with
    | some d => some d
    | none => s.working (.mx t .whole)
  | .ve t => s.working (.ve t)
  | .die n => match s.workingOp (.die n) 0x50 with
    | some d => some d
    | none => s.workingOp (.die n) 0x51

/-- The code of a unit in a stall record (R204). -/
def stallCode : StallUnit → Nat
  | .mx _ r => if r then 1 else 0
  | .ve _ => 2
  | .die _ => 3

/-- The instance that holds a unit's registers. -/
def stallInst : StallUnit → Nat
  | .mx t _ => t.val
  | .ve t => t.val
  | .die n => n.val

/-- The registers of a unit's watchdog: THRESH_A, THRESH_B, and VALID, OVERRUN, CAUSE and START of its log. -/
def stallRegs : StallUnit → Fld × Fld × Fld × Fld × Fld × Fld
  | .mx _ _ => (MX_WDOG_THRESH_A, MX_WDOG_THRESH_B, MX_STALL_LOG_VALID, MX_STALL_LOG_OVERRUN, MX_STALL_LOG_CAUSE, MX_STALL_LOG_START)
  | .ve _ => (VE_WDOG_THRESH_A, VE_WDOG_THRESH_B, VE_STALL_LOG_VALID, VE_STALL_LOG_OVERRUN, VE_STALL_LOG_CAUSE, VE_STALL_LOG_START)
  | .die _ => (VAR_WDOG_THRESH_A, VAR_WDOG_THRESH_B, VAR_STALL_LOG_VALID, VAR_STALL_LOG_OVERRUN, VAR_STALL_LOG_CAUSE, VAR_STALL_LOG_START)

/-- THRESH_A of a unit. -/
def State.threshA (s : State) (u : StallUnit) : Nat := s.fld (stallRegs u).1 (stallInst u)
/-- THRESH_B of a unit. -/
def State.threshB (s : State) (u : StallUnit) : Nat := s.fld (stallRegs u).2.1 (stallInst u)

/-- The cause of a stall (R129, R158, R306): a pace or an exchange that the unit waits for, and else what the command says,
among the causes of its table (DEDUCED, log entry 33). -/
def State.stallCause (s : State) (u : StallUnit) (cause : Nat) : Nat :=
  match u with
  | .mx t _ =>
    if s.paceHeld t .whole || s.paceHeld t .left then 4 else if s.paceHeld t .right then 5 else cause % 7
  | .ve t => if s.paceWaits t then 0 else cause % 3
  | .die n => if (s.varRun n).any fun r => r.phase = 2 then 0 else cause % 3

/-- The report of a stall: the unit's log, and a KIND 1 record to the descriptor's group (R150, R207). -/
def reportStall (u : StallUnit) (d : Slot) (cause : Nat) : Act s₀ Unit := do
  let s ← now
  let (_, _, valid, overrun, fCause, fStart) := stallRegs u
  let cause := s.stallCause u cause
  let start := d.moved % 2 ^ 40
  logFirst valid overrun (stallInst u) do
    setF fCause cause (stallInst u)
    setF fStart start (stallInst u)
  withSlot d.id fun x => { x with reported := true }
  queueRecord { group := d.ring / 64, slot := none, irq := false, fault := true,
                bits := cqBits 1 d.ring d.pos 0 d.flags (opcodeOf d.words) start 0 (s.now40 d.target) (stallCode u + 16 * cause) }

/-- STALL_REPORT: the age has reached THRESH_A, once for a stall (DEDUCED, log entry 33). -/
def actStallReport (u : StallUnit) (cause : Nat) : Act s₀ Unit := do
  let s ← now
  match s.stallSlot u with
  | none => pure ()
  | some d =>
    if s.threshA u ≠ 0 ∧ !d.reported ∧ s.threshA u ≤ s.stallAge d then reportStall u d cause

/-- STALL_REPORT. -/
def execStallReport (u : StallUnit) (cause : Fin 16) (s : State) : Host.Outcome State Fault Refusal :=
  .next (perform s (actStallReport u cause))

/-- A die leaves the exchange that it waits in: its report goes with it where the module record is not yet formed, and
frames of the gather that it was sending are another die's (R299). -/
def leaveExchange (id : Nat) : Act s₀ Unit := do
  let s ← now
  match s.units.var.exchanges.find? fun x => x.reports.any fun r => r.slot = id with
  | none => pure ()
  | some x =>
    let rest := x.reports.filter fun r => r.slot ≠ id
    match rest.head? with
    | none =>
      changeVar fun v => { v with exchanges := v.exchanges.filter fun y => y.eng ≠ x.eng }
      changeFab fun u => { u with colls := u.colls.filter fun c => !(c.exch && c.eng = x.eng) }
    | some r =>
      changeFab fun u => { u with colls := u.colls.map fun c => if c.exch ∧ c.slot = id then { c with slot := r.slot } else c }
      if x.record.isNone then
        changeVar fun v => { v with exchanges := v.exchanges.map fun y => if y.eng = x.eng then { y with reports := rest } else y }

/-- A stalled update ends: in pass 2 as a die whose part is over, and before it with nothing written (R299) (DEDUCED,
log entry 33). -/
def abortUpdate (n : DieNo) (id : Nat) : Act s₀ Unit := do
  match (← now).varRun n with
  | none => withSlot id fun d => { d with arose := Arose.put d.arose .stallAbort 0, phase := .done }
  | some r =>
    if 3 ≤ r.phase then
      withVarRun id fun x => { x with phase := 4 }
      withSlot id fun d => { d with arose := Arose.put d.arose .stallAbort 0, phase := .done }
    else
      leaveExchange id
      endVarRun id .stallAbort 0

/-- A NORM or SOFTMAX that stalls has issued some of its waves (R178): how many is a free value (DESIGN CHOICE, log entry
87). -/
def stalledWaves (t : TileNo) (d : Slot) : Act s₀ Unit := do
  let i ← freeIndex
  runFor d (.ve t) do
    modify fun io => { io with budget := some (Config.freeWord i).toNat }
    if opcodeOf d.words = 0x30 then normWork t d else softmaxWork t d

/-- A stalled descriptor completes with STALL_ABORT, and what its engine holds for it is discarded (R119, R126, R150,
R299). -/
def abortStalled (d : Slot) : Act s₀ Unit :=
  match d.on with
  | some (.mx t h) => do
    abortHalf t h .stallAbort
    parkAfter (.mx t h) d.id
  | some (.ve t) => do
    endVeRun t
    if opcodeOf d.words = 0x30 ∨ opcodeOf d.words = 0x31 then stalledWaves t d
    withSlot d.id fun x => { x with arose := Arose.put x.arose .stallAbort 0, phase := .done }
  | some (.die n) =>
    if opcodeOf d.words = 0x50 then abortUpdate n d.id
    else withSlot d.id fun x => { x with arose := Arose.put x.arose .stallAbort 0, phase := .done }
  | _ => pure ()

/-- STALL_ABORT: the age has reached THRESH_B. A report not made before, where THRESH_B comes no later than THRESH_A, is
made first; its cause is then a free value (DEDUCED, log entry 33). -/
def actStallAbort (u : StallUnit) : Act s₀ Unit := do
  let s ← now
  match s.stallSlot u with
  | none => pure ()
  | some d =>
    if s.threshB u ≠ 0 ∧ s.threshB u ≤ s.stallAge d then
      if s.threshA u ≠ 0 ∧ !d.reported then
        let i ← freeIndex
        reportStall u d ((Config.freeWord i).toNat % 16)
      abortStalled d

/-- STALL_ABORT. -/
def execStallAbort (u : StallUnit) (s : State) : Host.Outcome State Fault Refusal := .next (perform s (actStallAbort u))

/-- The descriptor's engine has a stall age (R119, R150, R299) (DEDUCED, log entry 33). -/
def Slot.ages (d : Slot) : Bool :=
  match d.on with
  | some (.mx _ _) | some (.ve _) => true
  | some (.die _) => opcodeOf d.words = 0x50 || opcodeOf d.words = 0x51
  | _ => false

/-- QUIESCE_STALL_ABORT: an issued descriptor of a quiescing atelier has stalled for STALL_TICKS (R348) (DEDUCED, log
entry 33). -/
def actQuiesceStallAbort (id : Nat) : Act s₀ Unit := do
  let s ← now
  match s.slot id with
  | none => pure ()
  | some d =>
    let limit := s.fld ATL_QCFG_STALL_TICKS d.atelier
    if d.phase = .issued && d.ages && s.fld ATL_STATUS_STATE d.atelier == 2 && limit != 0
        && decide (limit ≤ s.stallAge d) then abortStalled d

/-- QUIESCE_STALL_ABORT. -/
def execQuiesceStallAbort (id : Nat) (s : State) : Host.Outcome State Fault Refusal :=
  .next (perform s (actQuiesceStallAbort id))

end Sys2Proof.Machine
end

