-- ==== Sys2Proof/Machine/Dispatch.lean ====
section
/-! DEFINITION. Dispatch: each command and its meaning. -/

namespace Sys2Proof.Machine

def exec (i : Instr) (s : State) : Host.Outcome State Fault Refusal :=
  match i with
  | .registerWrite port bar addr data => Sys2Proof.Machine.execRegisterWrite port bar addr data s
  | .hostMemoryRead port bar addr len => Sys2Proof.Machine.execHostMemoryRead port bar addr len s
  | .hostMemoryWrite port bar addr data => Sys2Proof.Machine.execHostMemoryWrite port bar addr data s
  | .hostConfigRequest port dword acc => Sys2Proof.Machine.execHostConfigRequest port dword acc s
  | .granuleAccept x => Sys2Proof.Machine.execGranuleAccept x s
  | .granuleCommit t src => Sys2Proof.Machine.execGranuleCommit t src s
  | .paletteRequestSet t req sender addrs upsets busy => Sys2Proof.Machine.execPaletteRequestSet t req sender addrs upsets busy s
  | .eccWriteBack t => Sys2Proof.Machine.execEccWriteBack t s
  | .requestAged t => Sys2Proof.Machine.execRequestAged t s
  | .patrolScrub t upsets idle => Sys2Proof.Machine.execPatrolScrub t upsets idle s
  | .scrubPriorityRaise t upsets => Sys2Proof.Machine.execScrubPriorityRaise t upsets s
  | .palAcWrite port t n v => Sys2Proof.Machine.execPalAcWrite port t n v s
  | .palAcAdd port t v => Sys2Proof.Machine.execPalAcAdd port t v s
  | .palInjectArm port t v => Sys2Proof.Machine.execPalInjectArm port t v s
  | .gateDrainEnd t q => Sys2Proof.Machine.execGateDrainEnd t q s
  | .quarterInitDone t q => Sys2Proof.Machine.execQuarterInitDone t q s
  | .palFill t => Sys2Proof.Machine.execPalFill t s
  | .palCopy t => Sys2Proof.Machine.execPalCopy t s
  | .tensorCopy t => Sys2Proof.Machine.execTensorCopy t s
  | .tensorGather t => Sys2Proof.Machine.execTensorGather t s
  | .tensorScatter t => Sys2Proof.Machine.execTensorScatter t s
  | .mxProduct t h => Sys2Proof.Machine.execMxProduct t h s
  | .mxFirstFeed t h => Sys2Proof.Machine.execMxFirstFeed t h s
  | .mxPassStart t h => Sys2Proof.Machine.execMxPassStart t h s
  | .mxPaceRelease t h => Sys2Proof.Machine.execMxPaceRelease t h s
  | .stallReport u cause => Sys2Proof.Machine.execStallReport u cause s
  | .stallAbort u => Sys2Proof.Machine.execStallAbort u s
  | .parkThreshold t right => Sys2Proof.Machine.execParkThreshold t right s
  | .park port t v => Sys2Proof.Machine.execPark port t v s
  | .parkTakeEffect t right => Sys2Proof.Machine.execParkTakeEffect t right s
  | .releaseHalf port t v => Sys2Proof.Machine.execReleaseHalf port t v s
  | .splitWrite port t v => Sys2Proof.Machine.execSplitWrite port t v s
  | .splitTakeEffect t => Sys2Proof.Machine.execSplitTakeEffect t s
  | .veStrokeMap t => Sys2Proof.Machine.execVeStrokeMap t s
  | .veStrokeReduce t => Sys2Proof.Machine.execVeStrokeReduce t s
  | .veStrokeScan t => Sys2Proof.Machine.execVeStrokeScan t s
  | .vePaceRelease t => Sys2Proof.Machine.execVePaceRelease t s
  | .norm t => Sys2Proof.Machine.execNorm t s
  | .softmaxFull t => Sys2Proof.Machine.execSoftmaxFull t s
  | .softmaxPartial t => Sys2Proof.Machine.execSoftmaxPartial t s
  | .softmaxApply t => Sys2Proof.Machine.execSoftmaxApply t s
  | .softmaxMerge t => Sys2Proof.Machine.execSoftmaxMerge t s
  | .pollSweep => Sys2Proof.Machine.execPollSweep s
  | .summaryReadReturn g data => Sys2Proof.Machine.execSummaryReadReturn g data s
  | .tailReadReturn g tails => Sys2Proof.Machine.execTailReadReturn g tails s
  | .schedTableRead a entries => Sys2Proof.Machine.execSchedTableRead a entries s
  | .ringFetch r => Sys2Proof.Machine.execRingFetch r s
  | .ringFetchReturn r data => Sys2Proof.Machine.execRingFetchReturn r data s
  | .descriptorDeliver r => Sys2Proof.Machine.execDescriptorDeliver r s
  | .descriptorIssue e => Sys2Proof.Machine.execDescriptorIssue e s
  | .descriptorComplete id => Sys2Proof.Machine.execDescriptorComplete id s
  | .cqRecordWrite g ok => Sys2Proof.Machine.execCqRecordWrite g ok s
  | .msixSend g => Sys2Proof.Machine.execMsixSend g s
  | .msixHoldoffEnd g => Sys2Proof.Machine.execMsixHoldoffEnd g s
  | .msixUnmask port vec => Sys2Proof.Machine.execMsixUnmask port vec s
  | .nop id => Sys2Proof.Machine.execNop id s
  | .streamSet id => Sys2Proof.Machine.execStreamSet id s
  | .counterAdd id => Sys2Proof.Machine.execCounterAdd id s
  | .hostWrite id => Sys2Proof.Machine.execHostWrite id s
  | .ringEnable port r v => Sys2Proof.Machine.execRingEnable port r v s
  | .ringDisable port r v => Sys2Proof.Machine.execRingDisable port r v s
  | .ringResume port r v => Sys2Proof.Machine.execRingResume port r v s
  | .retiredWrite port r v => Sys2Proof.Machine.execRetiredWrite port r v s
  | .groupActivate port g v => Sys2Proof.Machine.execGroupActivate port g v s
  | .txnTagGrant => Sys2Proof.Machine.execTxnTagGrant s
  | .pllLock => Sys2Proof.Machine.execPllLock s
  | .pllUnlock => Sys2Proof.Machine.execPllUnlock s
  | .tbBroadcast diffs => Sys2Proof.Machine.execTbBroadcast diffs s
  | .tbCapture port v => Sys2Proof.Machine.execTbCapture port v s
  | .tbLoad port v => Sys2Proof.Machine.execTbLoad port v s
  | .syncRequestSend frac => Sys2Proof.Machine.execSyncRequestSend frac s
  | .syncRequestReceive p t2 t3 => Sys2Proof.Machine.execSyncRequestReceive p t2 t3 s
  | .syncResponseReceive p t4 replayed => Sys2Proof.Machine.execSyncResponseReceive p t4 replayed s
  | .syncResponseMissed => Sys2Proof.Machine.execSyncResponseMissed s
  | .stampReached target lc => Sys2Proof.Machine.execStampReached target lc s
  | .linkEnable port p v => Sys2Proof.Machine.execLinkEnable port p v s
  | .laneTrained p lane ok => Sys2Proof.Machine.execLaneTrained p lane ok s
  | .portAligned p reversed txDelay rxDelay => Sys2Proof.Machine.execPortAligned p reversed txDelay rxDelay s
  | .peerInfoReceive p mod peer lanes txDelay rxDelay => Sys2Proof.Machine.execPeerInfoReceive p mod peer lanes txDelay rxDelay s
  | .retrain port p v => Sys2Proof.Machine.execRetrain port p v s
  | .flitReceive p flit fecBad => Sys2Proof.Machine.execFlitReceive p flit fecBad s
  | .replayTimeout p => Sys2Proof.Machine.execReplayTimeout p s
  | .laneLockLoss p lane => Sys2Proof.Machine.execLaneLockLoss p lane s
  | .degradeWindowEnd p ce ue => Sys2Proof.Machine.execDegradeWindowEnd p ce ue s
  | .portIdleEnd p => Sys2Proof.Machine.execPortIdleEnd p s
  | .frameForward p => Sys2Proof.Machine.execFrameForward p s
  | .writeFrameReceive p => Sys2Proof.Machine.execWriteFrameReceive p s
  | .collFrameReceive p contrib => Sys2Proof.Machine.execCollFrameReceive p contrib s
  | .membershipFrameReceive p => Sys2Proof.Machine.execMembershipFrameReceive p s
  | .ackReceive p => Sys2Proof.Machine.execAckReceive p s
  | .noticeReceive p => Sys2Proof.Machine.execNoticeReceive p s
  | .reasmTimeout p vl cls => Sys2Proof.Machine.execReasmTimeout p vl cls s
  | .ackTimeout tag => Sys2Proof.Machine.execAckTimeout tag s
  | .genHoldExpire e => Sys2Proof.Machine.execGenHoldExpire e s
  | .silentThreshold e id member => Sys2Proof.Machine.execSilentThreshold e id member s
  | .fabSend id => Sys2Proof.Machine.execFabSend id s
  | .collAllReduce id => Sys2Proof.Machine.execCollAllReduce id s
  | .collReduceScatter id => Sys2Proof.Machine.execCollReduceScatter id s
  | .collAllGather id => Sys2Proof.Machine.execCollAllGather id s
  | .collVoteSum id => Sys2Proof.Machine.execCollVoteSum id s
  | .collDispatch id => Sys2Proof.Machine.execCollDispatch id s
  | .collCombine id => Sys2Proof.Machine.execCollCombine id s
  | .groupSetLocal id => Sys2Proof.Machine.execGroupSetLocal id s
  | .groupSetDistribute id => Sys2Proof.Machine.execGroupSetDistribute id s
  | .groupSetRemove id => Sys2Proof.Machine.execGroupSetRemove id s
  | .varUpdate n => Sys2Proof.Machine.execVarUpdate n s
  | .varPass1End n => Sys2Proof.Machine.execVarPass1End n s
  | .exchangeModuleRecord e => Sys2Proof.Machine.execExchangeModuleRecord e s
  | .exchangeGatherComplete e => Sys2Proof.Machine.execExchangeGatherComplete e s
  | .varPass2End n => Sys2Proof.Machine.execVarPass2End n s
  | .varPush n => Sys2Proof.Machine.execVarPush n s
  | .varProgram n => Sys2Proof.Machine.execVarProgram n s
  | .varStateSetStep n => Sys2Proof.Machine.execVarStateSetStep n s
  | .varStateRelease n => Sys2Proof.Machine.execVarStateRelease n s
  | .stackAccess n own sender addr wr upset spare => Sys2Proof.Machine.execStackAccess n own sender addr wr upset spare s
  | .pprComplete n => Sys2Proof.Machine.execPprComplete n s
  | .varDieFail n => Sys2Proof.Machine.execVarDieFail n s
  | .riskWindow hottest => Sys2Proof.Machine.execRiskWindow hottest s
  | .copyStepAdvance => Sys2Proof.Machine.execCopyStepAdvance s
  | .fixSnapshot id => Sys2Proof.Machine.execFixSnapshot id s
  | .fixRestoreSend id => Sys2Proof.Machine.execFixRestoreSend id s
  | .fixRestoreApply id => Sys2Proof.Machine.execFixRestoreApply id s
  | .fixRestoreServe id => Sys2Proof.Machine.execFixRestoreServe id s
  | .rngCheckDisarm port v => Sys2Proof.Machine.execRngCheckDisarm port v s
  | .hostLoss port cause => Sys2Proof.Machine.execHostLoss port cause s
  | .atsInvalidate port => Sys2Proof.Machine.execAtsInvalidate port s
  | .lock port a v => Sys2Proof.Machine.execLock port a v s
  | .quiesce port a v => Sys2Proof.Machine.execQuiesce port a v s
  | .quiesceDone a => Sys2Proof.Machine.execQuiesceDone a s
  | .quiesceStallAbort id => Sys2Proof.Machine.execQuiesceStallAbort id s
  | .release port a v => Sys2Proof.Machine.execRelease port a v s
  | .adopt port v => Sys2Proof.Machine.execAdopt port v s
  | .dissolve port v => Sys2Proof.Machine.execDissolve port v s
  | .shareSet port t v => Sys2Proof.Machine.execShareSet port t v s
  | .shareOkWrite port a v => Sys2Proof.Machine.execShareOkWrite port a v s
  | .railOpWrite port d v => Sys2Proof.Machine.execRailOpWrite port d v s
  | .railOpSettle d mv => Sys2Proof.Machine.execRailOpSettle d mv s
  | .railSettleTimeout d mv => Sys2Proof.Machine.execRailSettleTimeout d mv s
  | .droopStart d mv => Sys2Proof.Machine.execDroopStart d mv s
  | .droopEnd d => Sys2Proof.Machine.execDroopEnd d s
  | .pwrDomainWake id => Sys2Proof.Machine.execPwrDomainWake id s
  | .pwrDomainIdle id => Sys2Proof.Machine.execPwrDomainIdle id s
  | .pwrDomainOff id => Sys2Proof.Machine.execPwrDomainOff id s
  | .pwrDomainRelease id => Sys2Proof.Machine.execPwrDomainRelease id s
  | .wowSet id => Sys2Proof.Machine.execWowSet id s
  | .wowClear id => Sys2Proof.Machine.execWowClear id s
  | .domCmdWake port v => Sys2Proof.Machine.execDomCmdWake port v s
  | .domCmdIdle port v => Sys2Proof.Machine.execDomCmdIdle port v s
  | .domCmdOff port v => Sys2Proof.Machine.execDomCmdOff port v s
  | .domCmdRelease port v => Sys2Proof.Machine.execDomCmdRelease port v s
  | .domainTransitionDone d => Sys2Proof.Machine.execDomainTransitionDone d s
  | .quietWrite port v => Sys2Proof.Machine.execQuietWrite port v s
  | .thermalTrip quarterDegrees => Sys2Proof.Machine.execThermalTrip quarterDegrees s
  | .governorUpdate rails quarterDegrees => Sys2Proof.Machine.execGovernorUpdate rails quarterDegrees s
  | .ballastStop t => Sys2Proof.Machine.execBallastStop t s
  | .lsnAssert => Sys2Proof.Machine.execLsnAssert s
  | .lsnAck => Sys2Proof.Machine.execLsnAck s
  | .lsnAckTimeout => Sys2Proof.Machine.execLsnAckTimeout s
  | .riseCovered => Sys2Proof.Machine.execRiseCovered s
  | .lsnDeassert => Sys2Proof.Machine.execLsnDeassert s
  | .lsnHoldMax => Sys2Proof.Machine.execLsnHoldMax s
  | .curtailAssert level => Sys2Proof.Machine.execCurtailAssert level s
  | .curtailLevelChange level => Sys2Proof.Machine.execCurtailLevelChange level s
  | .curtailRelease => Sys2Proof.Machine.execCurtailRelease s
  | .socFrameReceive frame gap => Sys2Proof.Machine.execSocFrameReceive frame gap s
  | .socTimeout => Sys2Proof.Machine.execSocTimeout s
  | .forecastSend => Sys2Proof.Machine.execForecastSend s
  | .pmbusPoll readings => Sys2Proof.Machine.execPmbusPoll readings s
  | .plantEnWrite port v => Sys2Proof.Machine.execPlantEnWrite port v s
  | .pmcWindow id => Sys2Proof.Machine.execPmcWindow id s
  | .windowEdge t => Sys2Proof.Machine.execWindowEdge t s
  | .sbufRdWrite port t v => Sys2Proof.Machine.execSbufRdWrite port t v s
  | .periodicDump t room => Sys2Proof.Machine.execPeriodicDump t room s
  | .coldReset => Sys2Proof.Machine.execColdReset s
  | .moduleReset cause => Sys2Proof.Machine.execModuleReset cause s
  | .hostPerst port high => Sys2Proof.Machine.execHostPerst port high s
  | .bootStepDone r => Sys2Proof.Machine.execBootStepDone r s
  | .fuseProg port v => Sys2Proof.Machine.execFuseProg port v s
  | .fusePulseDone marginOk => Sys2Proof.Machine.execFusePulseDone marginOk s
  | .sketchEnable port v => Sys2Proof.Machine.execSketchEnable port v s
  | .sketchDisable port v => Sys2Proof.Machine.execSketchDisable port v s
  | .sketchSample => Sys2Proof.Machine.execSketchSample s
  | .pwrGoodFall => Sys2Proof.Machine.execPwrGoodFall s
  | .resetNRelease => Sys2Proof.Machine.execResetNRelease s
  | .hostLinkUp port width rate flitMode => Sys2Proof.Machine.execHostLinkUp port width rate flitMode s
  | .lsnAckFall => Sys2Proof.Machine.execLsnAckFall s
  | .fenceHostReadReturn id => Sys2Proof.Machine.execFenceHostReadReturn id s
  | .hostReadTimeout r => Sys2Proof.Machine.execHostReadTimeout r s
  | .bankRefresh n pc temp => Sys2Proof.Machine.execBankRefresh n pc temp s

end Sys2Proof.Machine
end

