-- ==== Sys2Proof/Machine/Tick.lean ====
section
/-! DEFINITION. What passes with the time while nothing is commanded: the count, the counters of beats and ticks, slot
accounting, and the accesses that palettes have accepted (R64, R215, R223, R388 to R393, R404). -/

namespace Sys2Proof.Machine

variable {s₀ : State}

/-! ### Slot accounting (R392, R393) -/

/-- One of a tile's domains is ON, so its reference runs (R388). -/
def State.beating (s : State) (t : Nat) : Bool := (List.range 6).any fun k => s.dom (6 * t + k) = 3

/-- The domain of a unit of slot accounting is ON: ARRAY for the array and its right half, VEC for the vector engine and
the SFU (R361, R392). -/
def State.unitOn (s : State) (t u : Nat) : Bool := s.dom (6 * t + u / 2) = 3

/-- The slots of a unit in a beat (R392). -/
def State.unitWidth (s : State) (t u : Nat) : Nat :=
  match u with
  | 0 => if s.on MX_STATUS_SPLIT_ACTIVE t then 128 else 256
  | 1 => if s.on MX_STATUS_SPLIT_ACTIVE t then 128 else 0
  | 2 => 2048
  | _ => 512

/-- The descriptor in progress that keeps a unit from IDLE (R393). -/
def State.unitSlot (s : State) (t u : Nat) : Option Slot :=
  let n : TileNo := Fin.ofNat 64 t
  match u with
  | 0 => s.slots.find? fun d => (d.on = some (.mx n .whole) || d.on = some (.mx n .left)) && (d.phase = .issued || d.phase = .done)
  | 1 => s.slots.find? fun d => d.on = some (.mx n .right) && (d.phase = .issued || d.phase = .done)
  | 2 => s.veSlot t [0x28, 0x30, 0x31]
  | _ => (s.veSlot t [0x28, 0x30, 0x31]).filter fun d => opcodeOf d.words ≠ 0x28 || usesSfu d

/-- The codes of CAUSE for a starved beat of a unit (R395). -/
def causesOf (u : Nat) (back : Bool) : List Nat :=
  if back then [7, 8] else if u < 2 then [1, 2, 3, 4, 5, 6, 9] else [1, 2, 3, 4, 5, 6]

/-- What a sample says of a starved beat: which instruction, element and address it waits for, and why, is timing, so these
are free values (R395) (DESIGN CHOICE, log entry 60). -/
def starvedOcc (d : Slot) (u : Nat) (back : Bool) : Act s₀ Occ := do
  let i ← freeIndex
  let j ← freeIndex
  let k ← freeIndex
  let m ← freeIndex
  let cs := causesOf u back
  pure { slot := some d, cause := cs.getD ((Config.freeWord i).toNat % cs.length) 0
         instr := if opcodeOf d.words = 0x28 then some ((Config.freeWord j).toNat % 64) else none
         addr := (Config.freeWord k).toNat, element := (Config.freeWord m).toNat }

/-- A beat of a unit goes whole to one category. -/
def standBeat (t u c n : Nat) (o : Occ) : Act s₀ Unit := do
  countWrap PMC_TD_BEATS_COUNT 1 t u
  tallySlots t u c n o

/-- A beat of a unit (R393): IDLE without a descriptor, THROTTLED where the throttle holds it. Whether a unit that may work
issues in it, which the command that issues counts, or is starved is timing, so a free value (DESIGN CHOICE, log entry
60). -/
def unitBeat (t u : Nat) : Act s₀ Unit := do
  let s ← now
  let n := s.unitWidth t u
  if n ≠ 0 ∧ s.unitOn t u then
    match s.unitSlot t u with
    | none => standBeat t u 5 n {}
    | some d =>
      if s.throttled t then standBeat t u 4 n { slot := some d }
      else
        let i ← freeIndex
        if Config.freeBit i then
          let j ← freeIndex
          let o ← starvedOcc d u (Config.freeBit j)
          standBeat t u (if Config.freeBit j then 3 else 2) n o

/-! ### Tile events of beats and ticks (R388 to R390) -/

/-- The tile that a request without a transaction tag is of, where it is of one (R202, R390). -/
def State.tileOfWait (s : State) (w : TagWait) : Option Nat :=
  match w.access with
  | some (.write t _) => some t
  | some (.read r) => some r.tile
  | some (.back t _) => some t
  | none => (w.fence.bind s.slot).map Slot.target

/-- A request of tile `t` waits for a transaction tag. -/
def State.tagWaitAt (s : State) (t : Nat) : Bool :=
  (s.slots.any fun d => d.target = t && d.tagless) || s.units.rings.tagWaits.any fun w => s.tileOfWait w = some t

/-- Counter `x` counts ticks: one that selects TICKS (R390). -/
def State.ofTicks (s : State) (x : Nat × Nat) : Bool := s.fld PMC_EVSEL_EVENT x.1 x.2 = evTicks

/-- One reference beat of tile `t`. -/
def tileBeat (t : Nat) : Act s₀ Unit := do
  let s ← now
  tally t evRefBeats [] 1
  if s.units.plant.ballast.contains t then tally t evMxBallast [0] 1
  tally t evDescPending [] (s.countSlots t fun d => d.phase = .delivered)
  if s.tagWaitAt t then tally t evTxnWait [] 1
  each (List.range 4) (unitBeat t)
  endInterval fun x => x.1 = t && !s.ofTicks x

/-- The reference beats that a tick brings to a tile: a free number of them, at most 2 at the beat rates of R5 (R388)
(DESIGN CHOICE, log entry 60). -/
def tileBeats (t : Nat) : Act s₀ Unit := do
  if (← now).beating t then
    let i ← freeIndex
    each (List.range ((Config.freeWord i).toNat % 3)) fun _ => tileBeat t

/-! ### Uncore events of ticks (R404) -/

/-- A port holds a frame back for want of credits: some frame is at the front of its lane and class, and none may leave. -/
def State.creditHeld (s : State) (p : Nat) : Bool :=
  s.live p && !(s.port p).queue.isEmpty && (s.port p).nextTx.isNone

/-- The staging store of an engine has no room for a frame that waits for it (R264). -/
def State.storeFull (s : State) (e : Nat) : Bool :=
  s.units.fab.rx.any fun a => (s.groupAt a.frame.group).any (fun g => g.1 = e) && a.frame.dst = s.moduleId
    && (a.frame.kind = kindReduce || a.frame.kind = kindGather) && !s.storeRoom a

/-- What happens in a tick for the uncore counters (R404). How long refresh blocks a pseudo-channel, and combining takes, is
timing, so free values (DESIGN CHOICE, log entry 60). -/
def uncoreTick : Act s₀ Unit := do
  let s ← now
  let count (b : Bool) : Nat := if b then 1 else 0
  each (List.range 16) fun n => do
    uncore 0 n 0x02 (count ((s.varRun n).any fun r => r.phase = 2))
    if s.dom (400 + n) = 3 then
      let i ← freeIndex
      uncore 1 n 0x10 (count (s.units.hbm.repairing.contains n || Config.freeBit i))
  each (List.range 24) fun p => uncore 2 p 0x22 (count (s.creditHeld p))
  each [0, 1] fun e => do
    if s.units.fab.colls.any fun c => c.eng = e then
      let i ← freeIndex
      uncore 3 e 0x32 (count (Config.freeBit i))
    uncore 3 e 0x33 (count (s.storeFull e))
  each (List.range 4) fun p => uncore 4 p 0x42 (count (!s.portRoom p))
  endInterval fun x => x.1 = 64

/-! ### A tick -/

/-- A tick in which nothing is commanded: the count, what every tile's beats and ticks count, and whatever the palettes have
accepted is served (DESIGN CHOICE, log entry 1) (DEDUCED, log entry 23). -/
def actIdle : Act s₀ Unit := do
  let s ← now
  actTick
  each (List.range 64) tileBeats
  if s.units.tb.locked then
    each (List.range 64) fun t => tally t evTicks [] 1
    uncoreTick
    let s ← now
    endInterval fun x => x.1 < 64 && s.ofTicks x
  serveReads
  settleLoans

end Sys2Proof.Machine
end

