-- ==== Sys2Proof/Machine/Step.lean ====
section
/-! DEFINITION. One step of the block: the command at the front of the queue, or a tick of the timebase. -/

namespace Sys2Proof.Machine

/-- One step: the first waiting command runs on the module with the rest of the queue; with none waiting, a tick passes
(DESIGN CHOICE, log entry 1; DEDUCED, log entry 67; DESIGN CHOICE, log entry 71). -/
def step (s : State) : Host.Outcome State Fault Refusal :=
  match s.pending with
  | [] => .next (perform s actIdle)
  | c :: rest => exec c { s with pending := rest }

/-- The command that a word spells, put at the front of the queue. The opcode table gives its rows no bits, so no word
spells one (DESIGN CHOICE, log entry 2). -/
def State.withFetchWord (s : State) (nbits w : Nat) : State :=
  match Sys2Proof.decodeTableWord nbits w with
  | some c => { s with pending := c :: s.pending }
  | none => s

end Sys2Proof.Machine
end

