-- ==== Sys2Proof/WellFormed.lean ====
section
/-! DEFINITION. Which commands are well formed: their operands have the shape that an event of the hardware brings. A
command that is not well formed stands for nothing, and its meaning stops with the fault illFormed. -/

namespace Sys2Proof

open Sys2Proof.Machine

/-- The operands of a command have the shape of its event. -/
def Instr.wellFormed : Instr → Bool
  | .registerWrite _ bar addr data => accessWf bar addr.toNat data.length
  | .hostMemoryRead _ bar addr len => accessWf bar addr.toNat len
  | .hostMemoryWrite _ bar addr data => accessWf bar addr.toNat data.length
  | .granuleAccept x => transferWf x
  | .paletteRequestSet t _ _ addrs upsets _ =>
    decide (addrs.length ≤ 512) && decide (addrs ≠ []) && addrs.all (inPalette t) && upsets.all fun u => inPalette t u.addr
  | .patrolScrub t upsets _ => upsets.all fun u => inPalette t u.addr
  | .scrubPriorityRaise t upsets => upsets.all fun u => inPalette t u.addr
  | .schedTableRead _ entries => entries.length ≤ 1024
  | .tailReadReturn _ tails => tails.all fun ts => ts.length = 64
  | .degradeWindowEnd _ ce ue => ce.length = 8 && ue.length = 8
  | .governorUpdate rails _ => rails.length = 4
  | .pmbusPoll readings => readings.length = 4
  | .moduleReset cause => cause ≠ 0
  | .bootStepDone r => bootWf r
  | .hostConfigRequest .. | .granuleCommit .. | .eccWriteBack .. | .requestAged .. | .palAcWrite ..
  | .palAcAdd .. | .palInjectArm .. | .gateDrainEnd .. | .quarterInitDone .. | .palFill .. | .palCopy ..
  | .tensorCopy .. | .tensorGather .. | .tensorScatter .. | .mxProduct .. | .mxFirstFeed .. | .mxPassStart ..
  | .mxPaceRelease .. | .stallReport .. | .stallAbort .. | .parkThreshold .. | .park .. | .parkTakeEffect ..
  | .releaseHalf .. | .splitWrite .. | .splitTakeEffect .. | .veStrokeMap .. | .veStrokeReduce ..
  | .veStrokeScan .. | .vePaceRelease .. | .norm .. | .softmaxFull .. | .softmaxPartial .. | .softmaxApply ..
  | .softmaxMerge .. | .pollSweep .. | .summaryReadReturn .. | .ringFetch .. | .ringFetchReturn ..
  | .descriptorDeliver .. | .descriptorIssue .. | .descriptorComplete .. | .cqRecordWrite .. | .msixSend ..
  | .msixHoldoffEnd .. | .msixUnmask .. | .nop .. | .streamSet .. | .counterAdd .. | .hostWrite ..
  | .ringEnable .. | .ringDisable .. | .ringResume .. | .retiredWrite .. | .groupActivate .. | .txnTagGrant ..
  | .pllLock .. | .pllUnlock .. | .tbBroadcast .. | .tbCapture .. | .tbLoad .. | .syncRequestSend ..
  | .syncRequestReceive .. | .syncResponseReceive .. | .syncResponseMissed .. | .stampReached ..
  | .linkEnable .. | .laneTrained .. | .portAligned .. | .peerInfoReceive .. | .retrain .. | .flitReceive ..
  | .replayTimeout .. | .laneLockLoss .. | .portIdleEnd .. | .frameForward .. | .writeFrameReceive ..
  | .collFrameReceive .. | .membershipFrameReceive .. | .ackReceive .. | .noticeReceive .. | .reasmTimeout ..
  | .ackTimeout .. | .genHoldExpire .. | .silentThreshold .. | .fabSend .. | .collAllReduce ..
  | .collReduceScatter .. | .collAllGather .. | .collVoteSum .. | .collDispatch .. | .collCombine ..
  | .groupSetLocal .. | .groupSetDistribute .. | .groupSetRemove .. | .varUpdate .. | .varPass1End ..
  | .exchangeModuleRecord .. | .exchangeGatherComplete .. | .varPass2End .. | .varPush .. | .varProgram ..
  | .varStateSetStep .. | .varStateRelease .. | .stackAccess .. | .pprComplete .. | .varDieFail ..
  | .riskWindow .. | .copyStepAdvance .. | .fixSnapshot .. | .fixRestoreSend .. | .fixRestoreApply ..
  | .fixRestoreServe .. | .rngCheckDisarm .. | .hostLoss .. | .atsInvalidate .. | .lock .. | .quiesce ..
  | .quiesceDone .. | .quiesceStallAbort .. | .release .. | .adopt .. | .dissolve .. | .shareSet ..
  | .shareOkWrite .. | .railOpWrite .. | .railOpSettle .. | .railSettleTimeout .. | .droopStart ..
  | .droopEnd .. | .pwrDomainWake .. | .pwrDomainIdle .. | .pwrDomainOff .. | .pwrDomainRelease .. | .wowSet ..
  | .wowClear .. | .domCmdWake .. | .domCmdIdle .. | .domCmdOff .. | .domCmdRelease ..
  | .domainTransitionDone .. | .quietWrite .. | .thermalTrip .. | .ballastStop .. | .lsnAssert .. | .lsnAck ..
  | .lsnAckTimeout .. | .riseCovered .. | .lsnDeassert .. | .lsnHoldMax .. | .curtailAssert ..
  | .curtailLevelChange .. | .curtailRelease .. | .socFrameReceive .. | .socTimeout .. | .forecastSend ..
  | .plantEnWrite .. | .pmcWindow .. | .windowEdge .. | .sbufRdWrite .. | .periodicDump .. | .coldReset ..
  | .hostPerst .. | .fuseProg .. | .fusePulseDone .. | .sketchEnable .. | .sketchDisable .. | .sketchSample ..
  | .pwrGoodFall .. | .resetNRelease .. | .hostLinkUp .. | .lsnAckFall .. | .fenceHostReadReturn ..
  | .hostReadTimeout .. | .bankRefresh .. => true

end Sys2Proof
end

