-- ==== Sys2Proof/Safety.lean ====
section
/-! DEFINITION. What counts as a sound state and a safe run of the block, in the terms that claims use. -/

namespace Sys2Proof.Machine

/-- Every register holds its reset value in the bits that it does not implement (R11, R12, R20). -/
def regsWf (m : List (Nat × Word)) : Bool :=
  mapWf regReset m && m.all fun e => e.2 &&& ~~~ regBits e.1 == regReset e.1 &&& ~~~ regBits e.1

/-- Every table of the state is in its canonical form, and registers and memory hold nothing but what the spec gives them. -/
def State.sound (s : State) : Bool :=
  regsWf s.regs && Memory.wf s.mem && setWf s.poison && mapWf upsetReset s.upsets && mapWf routeReset s.routes
    && mapWf fuseReset s.fuses

/-- Every fuse bit that is blown in `s` is blown in `t`. -/
def fusesKept (s t : State) : Prop := ∀ w, mapGet fuseReset s.fuses w &&& ~~~ mapGet fuseReset t.fuses w = 0

/-- What `s` has sent outside has been sent in `t`, in the same order. -/
def sentKept (s t : State) : Prop := s.out <+: t.out

/-- The registers of a field implement all of its bits, and lie within its block's window. -/
def Fld.implemented (f : Fld) : Bool :=
  f.lo ≤ f.hi && f.hi < 64 && f.blk != .cap && f.off + f.stride * (f.count - 1) < blkSize f.blk && decide (0 < f.count)
    && (List.range f.count).all fun k => match findDef (blkRegs f.blk) (f.off + f.stride * k) with
      | some d => (List.range (f.hi + 1)).all fun i => i < f.lo || d.impl.getLsbD i
      | none => false

/-- Two fields share no bit of any register: they lie in other blocks, at other offsets, or in other bits. -/
def Fld.apart (f g : Fld) : Bool :=
  f.blk != g.blk || f.hi < g.lo || g.hi < f.lo
    || (f.off + f.stride * (f.count - 1) < blkSize f.blk && g.off + g.stride * (g.count - 1) < blkSize g.blk
        && (f.off + f.stride * (f.count - 1) < g.off || g.off + g.stride * (g.count - 1) < f.off
            || (f.stride == g.stride && f.off % f.stride != g.off % g.stride)))

/-- The module is sound and out of reset. -/
def State.running (s : State) : Bool := s.sound && !s.inReset

/-- A port, its Function in D0, reaches every bit of a field's register, which is open to it and has power. -/
def State.opened (s : State) (p : Nat) (f : Fld) (i : Nat := 0) (k : Nat := 0) : Bool :=
  match place (f.addr i k) with
  | .reg b j off => !s.early b && s.mayTry p b j off && !s.blkDark b j && s.writeMask p b j off == 0xffffffffffffffff
      && !s.d3hot p
  | _ => false

/-- A port may write every bit of a field's register: it is opened to the port, and holds no locked field. -/
def State.writable (s : State) (p : Nat) (f : Fld) (i : Nat := 0) (k : Nat := 0) : Bool :=
  s.opened p f i k && match place (f.addr i k) with
  | .reg b j off => !s.locked b j off
  | _ => false

/-- Every field that shares no bit with the listed ones reads in `t` as it reads in `s`. -/
def fieldsKeptBut (fs : List Fld) (s t : State) : Prop :=
  ∀ g i k, g.implemented = true → (∀ f ∈ fs, g.apart f = true) → t.fld g i k = s.fld g i k

/-- Memory, byte by byte. -/
def State.byte (s : State) (a : Nat) : Byte := mapGet memReset s.mem a

/-- A byte that takes the bits of byte `n` of a granule that a mask names (R67). -/
def mergeByte (old : Byte) (v mask : Granule) (n : Nat) : Byte :=
  (old &&& ~~~ mask.extractLsb' (8 * n) 8) ||| (v.extractLsb' (8 * n) 8 &&& mask.extractLsb' (8 * n) 8)

/-- Every byte of memory after a granule transfer, by its address: those of granule `g` merge the bits that the transfer
names, and every other byte is as it was (R67). -/
def State.afterGranule (s : State) (g : Nat) (v mask : Granule) (a : Nat) : Byte :=
  if a / 64 = g then mergeByte (s.byte a) v mask (a % 64) else s.byte a

/-- A transfer into granule `g` meets neither poison nor an uncorrectable error: it replaces the granule, or the granule
holds neither (R79). -/
def State.writesInto (s : State) (g : Nat) (mask : Granule) : Bool :=
  mask == fullMask || (!s.poisoned g && !uncorrectable (s.errors g))

/-- Everything but the units' own state is as it was. -/
def sameBeyondUnits (s t : State) : Prop := t = { s with units := t.units }

/-- The palettes have accepted nothing that they have not served (R62, R67). -/
def State.settledBanks (s : State) : Bool := s.units.pal.banks.isEmpty

/-- An engine may advance with descriptor `d`: a transaction tag is free for it (R202), no stack is in repair (R313), and
its tile's throttle does not hold an array or vector engine in this tick (R376). -/
def State.advances (s : State) (e : Engine) (d : Slot) : Bool :=
  s.tagFree (some d.atelier) && s.units.hbm.repairing.isEmpty &&
  match e with
  | .mx t _ | .ve t => !s.throttled t
  | _ => true

/-- The descriptor in progress on an engine that may advance, in a running module, is one of those that a command serves. -/
def State.engaged (s : State) (e : Engine) (ops : List Nat) (d : Slot) : Bool :=
  s.running && s.working e == some d && ops.contains (opcodeOf d.words) && s.advances e d

/-- The product of the other half of a split array, where it has one, is not paced, so it never holds the wavefront (R117). -/
def State.otherUnpaced (s : State) (t : TileNo) (h : Half) : Bool :=
  match (otherHalf h).bind fun o => s.working (.mx t o) with
  | some d => !mxPaced d.words
  | none => true

/-- The work of the descriptor with a delivery number is over: its slot stands, and its status is fixed (R203). -/
def State.over (s : State) (id : Nat) : Prop := (∃ x ∈ s.slots, x.id = id) ∧ ∀ x ∈ s.slots, x.id = id → x.phase = .done

/-- A status has arisen in a slot. -/
def Slot.has (d : Slot) (st : Status) : Bool := d.arose.any fun x => x.1 == st

/-- Every wait that is satisfied is noted (R70, R200). -/
def State.waitsNoted (s : State) : Prop := ∀ d ∈ s.slots, d.phase = .delivered → s.waitSatisfied d.words = true → d.waitMet = true

/-- The arrival counters, the ECC records and the refusal count of a tile stand at their reset values, which are 0 (R73, R84). -/
def State.palCleared (s : State) (tl : TileNo) : Prop :=
  (∀ n : CtrNo, s.held (PAL_AC_VALUE.addr tl n) = 0)
    ∧ ∀ f ∈ [PAL_ECC_CE_COUNT_CE_COUNT, PAL_ECC_CE_LOG_VALID, PAL_ECC_UE_COUNT_UE_COUNT, PAL_ECC_UE_LOG_VALID,
        PAL_DARK_REFUSED_COUNT], s.held (f.addr tl 0) = 0

/-- Memory, its poison and its standing errors are as they were. -/
def memoryKept (s t : State) : Prop := t.mem = s.mem ∧ t.poison = s.poison ∧ t.upsets = s.upsets

/-- No granule of a list holds poison or an error. -/
def State.whole (s : State) (gs : List Nat) : Prop := ∀ g ∈ gs, s.poisoned g = false ∧ s.errors g = 0

/-- Granules of a list serve an engine of tile `own` (none: an outside requester), and hold neither poison nor an error. -/
def State.clean (s : State) (own : Option Nat) (gs : List Nat) : Prop :=
  ∀ g ∈ gs, s.meets own g = .ok ∧ s.poisoned g = false ∧ s.errors g = 0

/-- Memory that no read can fail on: nothing is poisoned, no error stands and none is armed, every stack serves in full, and
the palettes have served what they accepted (R79, R84, R313, R315). -/
def State.healthy (s : State) : Bool :=
  s.settledBanks && s.poison.isEmpty && s.upsets.isEmpty && s.units.nv.retiredOut.isEmpty && s.fld RISK_VAR_FAILED_DIES == 0
    && (List.range 64).all fun t => !s.on PAL_INJECT_ARM t

/-- How many entries, read from position `p` on of a ring of 2^`log` entries, come before the first whose SEQ is stale
(R190). -/
def entriesInOrder (p log : Nat) : List Descriptor → Nat
  | [] => 0
  | w :: ws => if dBits w 69 64 = p / 2 ^ log % 64 then entriesInOrder ((p + 1) % 2 ^ 32) log ws + 1 else 0

/-- A request to the outside has left, or waits for a transaction tag (R202). -/
def State.sentOrWaits (s : State) (o : Out) : Prop := o ∈ s.out ∨ s.waitsTag o = true

/-- An event record of a group waits for its CQ, with its KIND (R204). -/
def State.reports (s : State) (g kind : Nat) : Prop :=
  ∃ r ∈ s.units.rings.cqWait, r.group = g ∧ r.slot = none ∧ bits (r.bits.extractLsb' 0 64) 62 60 = kind

/-- A frame can leave a port whole, in one flit, now: the port carries traffic, nothing is before it, its chunks fit a flit
and the port holds the credits of all of them (R241, R243, R244). -/
def State.portReady (s : State) (q : Nat) (f : Frame) (cls : Nat) : Prop :=
  s.live q = true ∧ (s.port q).queue = [] ∧ (s.port q).controls = [] ∧ (s.port q).replay.length < 1024 ∧ f.vl ≤ 16 ∧ cls ≤ 1
    ∧ f.chunks.length ≤ 15 ∧ (f.chunks.length + 3) / 4 ≤ (s.port q).credit (laneKey f.vl cls)

/-- The flit that carries the whole of a frame, with TTL lowered by 1 (R241, R255). -/
def State.flitOf (s : State) (q : PortNo) (f : Frame) (cls : Nat) : Out :=
  .flit q (mkFlit { seq := (s.port q).nextSeq, ack := (s.port q).seen, type := 1, first := true, vl := f.vl, cls := cls }
    ((f.withCls cls).withTtl (f.ttl - 1)).chunks)

/-- Routing sends a frame out of a port that is ready for it (R255, R280). -/
def State.leavesBy (s : State) (f : Frame) (q : PortNo) (cls : Nat) : Prop :=
  f.dst ≠ s.moduleId ∧ f.ttl ≠ 0 ∧ s.exitOf f = some (q.val, cls) ∧ s.portReady q f cls

/-- The acknowledgement of a frame (R253). -/
def State.ackOf (s : State) (f : Frame) (st : Status) (detail : Nat) : Frame :=
  ((mkFrame f.src s.moduleId kindAck 0 0 0 0 none (statusWord st detail) []).withTag f.tag).withTtl (s.fld COLL_ROUTE_CTL_TTL)

/-- The first frame of some kinds that has arrived for this module by a port, and the others (R253, R277). -/
def State.arrived (s : State) (p : Option Nat) (kinds : List Nat) : Option Arrived × List Arrived :=
  extractFirst (fun a : Arrived => a.port = p && kinds.contains a.frame.kind
    && (kindSync ≤ a.frame.kind || a.frame.dst = s.moduleId)) s.units.fab.rx

/-- The frames that descriptors and copies have yet to send, or to have answered (R253). -/
def State.sendings (s : State) : List Sending :=
  s.units.fab.waiting ++ s.units.fab.flights.map (·.sending) ++ s.units.rings.tagWaits.filterMap (·.frame)

/-- A descriptor is in progress on a collective engine. -/
def State.collRuns (s : State) (y : EngNo) (op : Nat) (d : Slot) : Bool :=
  s.running && s.slot d.id == some d && d.on == some (.coll y) && d.phase == .issued && opcodeOf d.words == op

/-- Byte `a` shares a bit with the `n` bits from bit address `b`. -/
def hitsBits (a b n : Nat) : Prop := 8 * a < b + n ∧ b < 8 * a + 8

/-- Byte `a` is one of the rest of a dense MX tensor's last group, which a store to the block of offset `q` brings where it
is the last one: its unused elements and scales (R41). -/
def Tensor.padsTo (x : Tensor) (q : Int) (a : Nat) : Prop :=
  ∃ n : Nat, x.blocks = some n ∧ q / 32 + 1 = n ∧ n % 64 ≠ 0 ∧
    (hitsBits a (x.spotAt (32 * n)).bit ((64 - n % 64) * 32 * (x.spotAt (32 * n)).width)
      ∨ ∃ b, (x.spotAt (32 * n)).scale = some b ∧ hitsBits a b (8 * (64 - n % 64)))

/-- Byte `a` is one that a store to loop index `j` of a tensor can touch: its element, with its flag for a vote; the whole
block with its scale for an MX type, and with the last block the rest of its group; nothing outside the box (R41, R67, R89,
R93, R427). -/
def Tensor.storesTo (x : Tensor) (j : List Nat) (a : Nat) : Prop :=
  let p := if x.type.isMx then x.spotAt (32 * (x.q j / 32)) else x.spotAt (x.q j)
  (x.type.isMx = true ∨ x.inBox j = true) ∧
    (hitsBits a p.bit (if x.type.isMx then 32 * p.width else p.width) ∨ (∃ b, p.scale = some b ∧ hitsBits a b 8)
      ∨ (∃ b, p.flag = some b ∧ hitsBits a b 1) ∨ x.padsTo (x.q j) a)

/-- Byte `a` is one that the elements of the outputs of a descriptor on a tile's engine can touch, from the records that it
was issued with (R98, R100, R103, R112, R143, R171, R173, R176). -/
def Slot.outputs (d : Slot) (e : Engine) (a : Nat) : Prop :=
  match e with
  | .copy t =>
    if opcodeOf d.words = 0x10 ∨ opcodeOf d.words = 0x11 then
      ∃ k, k < body d.words 0 51 32 ∧ body d.words 0 19 0 + k < palGranules ∧ a / 64 = palFirst t + body d.words 0 19 0 + k
    else if opcodeOf d.words = 0x1A then
      ∃ j ∈ (d.tensor 0).indices, ∃ i, i < (d.tensor 1).extent (body d.words 3 39 37) ∧
        (d.tensor 1).storesTo (j.set (body d.words 3 39 37) i) a
    else ∃ j ∈ (d.tensor 1).indices, (d.tensor 1).storesTo j a
  | .mx t h => ∃ n, n < (productOf t h d).n ∧ ∃ m ∈ (productOf t h d).outer, (d.tensor 2).storesTo (n :: m) a
  | .ve _ =>
    if opcodeOf d.words = 0x28 then ∃ o x e, d.stroke.outs.getD o none = some x ∧ x.storesTo (unravel x.ext e) a
    else ∃ o y x i, d.ns.getD 0 none = some x ∧ d.ns.getD (o + 1) none = some y ∧ ∃ r ∈ x.rows, y.storesTo (i :: r) a
  | _ => False

/-- The array of the other half of a split array, which a command for one half can carry along (R117). -/
def otherEngine : Engine → Option Engine
  | .mx t h => (otherHalf h).map (Engine.mx t)
  | _ => none

/-- Byte `a` is one that the outputs of a command's engine, or of the other half of its array, can touch. -/
def State.stores (s : State) (e : Engine) (a : Nat) : Prop :=
  (∃ d, s.working e = some d ∧ d.outputs e a) ∨ ∃ o d, otherEngine e = some o ∧ s.working o = some d ∧ d.outputs o a

/-- In whole-array mode the fields of the right half of a tile's array read 0, and no park of it waits (R129). -/
def State.rightCleared (s : State) (t : TileNo) : Prop :=
  s.fld MX_STATUS_PARKED_R t = 0 ∧ s.fld MX_PARK_PARK_R t = 0 ∧ ∀ e ∈ s.units.mx.parks, e.1 ≠ t.val ∨ e.2.1 = false

/-- A request for a domain needs no other domain to move first, and the domain is in no step of its own: a quarter's Q0 is
ON and a PHY's die is not OFF at a wake, and a die's PHY is OFF at an OFF (R368). -/
def State.alone (s : State) (k op : Nat) : Bool :=
  s.dom k != 1 && s.dom k != 5 && s.dom k != 6 &&
  match op, domKind k with
  | 0, .quarter t q => q == 0 || s.dom (6 * t + 2) == 3
  | 0, .phy n => s.dom (384 + n) == 3
  | 2, .die n => s.dom (400 + n) == 0
  | _, _ => true

/-- A wake of a domain has begun, from a source (R370, R386). -/
def State.wakes (s t : State) (k src : Nat) : Prop :=
  k ∈ t.units.pwr.moving ∧ t.on PWR_LAST_WAKE_VALID = true ∧ t.fld PWR_LAST_WAKE_DOMAIN = k ∧ t.fld PWR_LAST_WAKE_SOURCE = src
    ∧ t.fld PWR_LAST_WAKE_TIME = s.ticks % 2 ^ 40

/-- What a request of operation `op` (0 WAKE, 1 IDLE, 2 OFF, 3 RELEASE) for one domain has done to it, with what it means that
the request has ended: the states of R363 by number, a timed step under way, or a wait for the engine (R368). -/
def State.domAnswer (s t : State) (k op : Nat) (rel : Bool) (src : Nat) (ended : Prop) : Prop :=
  match op with
  | 0 => (s.dom k = 0 → t.dom k = 1 ∧ s.wakes t k src) ∧ (s.dom k = 4 → t.dom k = 4 ∧ s.wakes t k src)
      ∧ (s.dom k = 2 → rel = true → t.dom k = 2 ∧ k ∈ t.units.pwr.moving)
      ∧ ((s.dom k = 3 ∨ (s.dom k = 2 ∧ rel = false)) → t.dom k = s.dom k ∧ ended)
  | 1 => (s.dom k ≠ 3 → t.dom k = s.dom k ∧ ended)
      ∧ (s.dom k = 3 → t.dom k = 3 ∧ t.leaving k = true ∧ t.units.pwr.moving = if s.domIdle k = true then [k] else [])
  | 2 => (s.dom k = 0 → t.dom k = 0 ∧ ended)
      ∧ (s.dom k ≠ 0 → t.leaving k = true
        ∧ (s.domIdle k = false → t.dom k = s.dom k ∧ t.units.pwr.moving = [])
        ∧ (s.domIdle k = true → if 2 ≤ k % 6 ∧ k < 384 then t.dom k = 5
            else t.dom k = s.dom k ∧ t.units.pwr.moving = [k]))
  | _ => (s.dom k ≠ 2 → t.dom k = s.dom k ∧ ended) ∧ (s.dom k = 2 → t.dom k = 2 ∧ k ∈ t.units.pwr.moving)

/-- A run is safe while its steps answer next states. -/
def safeRun (n : Nat) (s : State) : Bool :=
  match Sys2Proof.core.run n s with
  | .next _ => true
  | _ => false

end Sys2Proof.Machine

namespace Sys2Proof.Machine

/-! ### What a command may write in registers -/

/-- The whole register of a field. -/
def Fld.whole (f : Fld) : Fld := { f with lo := 0, hi := 63 }

/-- What every error path reports to (R319 to R321). -/
def riskFields : List Fld :=
  [RISK_SCORE_SCORE, RISK_SCORE_LEVEL, RISK_EVENT_LEVEL1, RISK_EVENT_LEVEL2, RISK_EVENT_LEVEL3]
/-- The uncore counters (R404). -/
def uncoreFields : List Fld :=
  [CMC_UC_VALUE, CMC_UC_OVF_OVF]
/-- A tile's performance counters and samples (R389 to R396). -/
def counterFields : List Fld :=
  [PMC_CTR_VALUE, PMC_OVF_OVF, PMC_CTL_FROZEN, PMC_SBUF_WORD, PMC_SBUF_CTL_WR, PMC_SBUF_CTL_COUNT,
   PMC_SBUF_CTL_FULL, PMC_SBUF_CTL_LOST]
/-- ECC and poison of palettes (R79, R84). -/
def paletteEcc : List Fld :=
  [PAL_POISONED_COUNT, PAL_ECC_CE_COUNT_CE_COUNT, PAL_ECC_CE_LOG_VALID, PAL_ECC_CE_LOG_WORD,
   PAL_ECC_CE_LOG_SYNDROME, PAL_ECC_CE_LOG_GRANULE, PAL_ECC_UE_COUNT_UE_COUNT, PAL_ECC_UE_LOG_VALID,
   PAL_ECC_UE_LOG_OVERRUN, PAL_ECC_UE_LOG_GRANULE]
/-- ECC, repair and retirement of stacks (R313). -/
def stackEcc : List Fld :=
  [HBM_ERR_CE, HBM_ERR_UE, HBM_REPAIR_SOFT, RISK_EVENT_BLOCK_RETIRED, RISK_EVENT_RETIRE_EXHAUSTED,
   RISK_RETIRED_COUNT, RISK_RETIRE_LOG_VALID, RISK_RETIRE_LOG_OVERRUN, RISK_RETIRE_LOG_METHOD,
   RISK_RETIRE_LOG_STACK, RISK_RETIRE_LOG_BLOCK]
/-- What a write into a palette can count, and the injected error that it takes (R68, R82, R84). -/
def arrivalFields : List Fld :=
  [PAL_AC_VALUE, PAL_DARK_REFUSED_COUNT, PAL_INJECT_ARM]
/-- The sticky flags and the suppressed accesses of the engines (R54, R104, R279, R306). -/
def engineFields : List Fld :=
  [MX_FLAGS_FLAGS, VE_FLAGS_FLAGS, SFU_FLAGS_FLAGS, VAR_FLAGS_FLAGS, SEQ_OOB_READ_COUNT_COUNT,
   SEQ_OOB_WRITE_COUNT_COUNT, COLL_OOB_READ_COUNT_COUNT, COLL_OOB_WRITE_COUNT_COUNT, VAR_OOB_READ_COUNT_COUNT,
   VAR_OOB_WRITE_COUNT_COUNT]
/-- Transaction tags in use (R202). -/
def tagFields : List Fld :=
  [RING_TXN_IN_USE, RING_TXN_PEAK, RING_TXN_WAIT_COUNT, ATL_TAGS_IN_USE_COUNT, ATL_TAGS_WAIT_COUNT]
/-- A host port's refused and locked writes (R11, R342). -/
def portRecords : List Fld :=
  [HOST_DENIED_COUNT, HOST_DENIED_LOG_VALID, HOST_DENIED_LOG_OVERRUN, HOST_DENIED_LOG_WRITE, HOST_DENIED_LOG_ADDR,
   HOST_LOCKED_COUNT, HOST_LOCKED_LOG_VALID, HOST_LOCKED_LOG_OVERRUN, HOST_LOCKED_LOG_ADDR]
/-- PARK bits and parked halves (R126). -/
def parkFields : List Fld :=
  [MX_PARK_PARK_L, MX_PARK_PARK_R, MX_STATUS_PARKED_L, MX_STATUS_PARKED_R]
/-- Power domains, their last wake and DOM_CMD (R363, R370, R386). -/
def wakeFields : List Fld :=
  [PWR_DSTATE, PWR_LAST_WAKE_VALID, PWR_LAST_WAKE_SOURCE, PWR_LAST_WAKE_DOMAIN, PWR_LAST_WAKE_TIME, PWR_DOM_CMD_GO,
   PWR_DOM_CMD_RESULT]
/-- A ring's start over (R186, R190). -/
def restartFields : List Fld :=
  [RING_SEED_SEED.whole, RING_KEY_HI_STEP.whole, RING_POS_FETCHED, RING_STATE_PHASE]
/-- The failure of a fabric port (R249). -/
def portFail : List Fld :=
  [LINK_STATUS_STATE, LINK_STATUS_LANES_UP, LINK_STATUS_LANE_SET, LINK_STATUS_WIDTH, LINK_EVENT_FAILED,
   LINK_EVENT_REASM_DROP, LINK_REASM_DROP_COUNT]
/-- Group records (R256 to R259). -/
def groupFields : List Fld :=
  [COLL_GROUP_ID_VALID, COLL_GROUP_ID_GROUP, COLL_GROUP_ID_GEN, COLL_GROUP_ID_ATELIER, COLL_GROUP_ID_VL,
   COLL_GROUP_ID_SEQ, COLL_GROUP_SIZE_RANK, COLL_GROUP_SIZE_COUNT, COLL_GEN_STALE_COUNT_COUNT,
   COLL_VOTE_SAT_COUNT_COUNT]
/-- What an issue notes (R104, R197, R230, R333). -/
def issueFields : List Fld :=
  [SEQ_LAST_ISSUE_RING, SEQ_LAST_ISSUE_POSITION, SEQ_LAST_ISSUE_OPCODE, SEQ_LATE_COUNT_COUNT, RISK_RNG_CHECK_ARMED,
   RISK_EVENT_RNG_SKEW]
/-- The retirement of a descriptor (R190, R203). -/
def retireFields : List Fld :=
  [RING_RETIRED_RETIRED, RING_STATE_STATE]

/-- What an engine's reads of memory can touch. -/
def readFields : List Fld := riskFields ++ uncoreFields ++ counterFields ++ paletteEcc ++ stackEcc
/-- What an engine's reads and writes of memory can touch. -/
def accessFields : List Fld := readFields ++ arrivalFields
/-- What a tile's typed operation can touch. -/
def tileFields : List Fld := accessFields ++ engineFields
/-- What an atelier's control register can set going. -/
def atelierFields : List Fld :=
  uncoreFields ++ portRecords ++ parkFields ++ restartFields ++ [ATL_CTL_LOCK.whole, ATL_STATUS_STATE, RISK_STATUS_DRAINED]

end Sys2Proof.Machine

namespace Sys2Proof

open Machine

/-- The fields that a command may write; none where it can reach every register: a host's own write, a reset, and the
loss of power. -/
def Instr.writes : Instr → Option (List Fld)
  | .registerWrite .. | .hostMemoryWrite .. | .domainTransitionDone .. | .thermalTrip .. | .coldReset .. |
      .moduleReset .. | .pwrGoodFall .. => none
  | .hostMemoryRead .. => some (readFields ++ tagFields ++ [HOST_DENIED_COUNT, HOST_DENIED_LOG_ADDR,
      HOST_DENIED_LOG_OVERRUN, HOST_DENIED_LOG_VALID, HOST_DENIED_LOG_WRITE, HOST_POISON_COUNT, PAL_AC_VALUE,
      PAL_INJECT_ARM])
  | .hostConfigRequest .. => some (uncoreFields ++ tagFields ++ parkFields ++ restartFields ++ [ATL_STATUS_ORPHANED,
      ATL_STATUS_STATE, HOST_EVENT_BME_CLEARED, HOST_EVENT_FLR, HOST_EVENT_HOT_RESET, HOST_EVENT_LINK_DOWN,
      HOST_STATUS_UP.whole])
  | .granuleAccept .. => some (tagFields ++ [PAL_DARK_REFUSED_COUNT])
  | .granuleCommit .. | .eccWriteBack .. | .requestAged .. => some (riskFields ++ uncoreFields ++ counterFields ++
      paletteEcc ++ tagFields ++ [PAL_AC_VALUE, PAL_INJECT_ARM])
  | .paletteRequestSet .. => some (riskFields ++ uncoreFields ++ counterFields ++ paletteEcc ++ arrivalFields ++
      tagFields)
  | .patrolScrub .. | .scrubPriorityRaise .. => some (riskFields ++ uncoreFields ++ counterFields ++ paletteEcc ++
      tagFields ++ [PAL_AC_VALUE, PAL_INJECT_ARM, PAL_STATUS_SCRUB_ACTIVE])
  | .palAcWrite .. => some (portRecords ++ [PAL_AC_VALUE.whole])
  | .palAcAdd .. => some (portRecords ++ [PAL_AC_ADD_INDEX.whole, PAL_AC_VALUE])
  | .palInjectArm .. => some (portRecords ++ [PAL_INJECT_ARM.whole])
  | .gateDrainEnd .. => some [PWR_DSTATE]
  | .quarterInitDone .. | .pwrDomainWake .. | .pwrDomainIdle .. | .pwrDomainOff .. | .pwrDomainRelease .. => some
      (wakeFields ++ [PAL_STATUS_SCRUB_ACTIVE])
  | .palFill .. | .palCopy .. | .tensorCopy .. => some (tileFields ++ tagFields)
  | .tensorGather .. | .tensorScatter .. => some (tileFields ++ tagFields ++ [SEQ_INDEX_CLAMP_COUNT_COUNT,
      SEQ_INDEX_FAULT_LOG_OVERRUN, SEQ_INDEX_FAULT_LOG_POSITION, SEQ_INDEX_FAULT_LOG_VALID,
      SEQ_INDEX_FAULT_VALUE_VALUE])
  | .mxProduct .. | .mxFirstFeed .. | .mxPaceRelease .. => some (tileFields ++ tagFields ++ parkFields ++
      [PMC_TD_BEATS_COUNT, PMC_TD_COUNT, SEQ_LATE_COUNT_COUNT])
  | .mxPassStart .. => some (tileFields ++ tagFields ++ parkFields ++ [PMC_TD_BEATS_COUNT, PMC_TD_COUNT])
  | .stallReport .. => some [MX_STALL_LOG_CAUSE, MX_STALL_LOG_OVERRUN, MX_STALL_LOG_START, MX_STALL_LOG_VALID,
      VAR_STALL_LOG_CAUSE, VAR_STALL_LOG_OVERRUN, VAR_STALL_LOG_START, VAR_STALL_LOG_VALID, VE_STALL_LOG_CAUSE,
      VE_STALL_LOG_OVERRUN, VE_STALL_LOG_START, VE_STALL_LOG_VALID]
  | .stallAbort .. => some (tileFields ++ tagFields ++ parkFields ++ [MX_STALL_LOG_CAUSE, MX_STALL_LOG_OVERRUN,
      MX_STALL_LOG_START, MX_STALL_LOG_VALID, SFU_EMPTY_REDUCE_COUNT_COUNT, SFU_EMPTY_SOFTMAX_COUNT_COUNT,
      SFU_LOGIT_SAT_COUNT_COUNT, VAR_STALL_LOG_CAUSE, VAR_STALL_LOG_OVERRUN, VAR_STALL_LOG_START, VAR_STALL_LOG_VALID,
      VE_CLAMP_COUNT_COUNT, VE_STALL_LOG_CAUSE, VE_STALL_LOG_OVERRUN, VE_STALL_LOG_START, VE_STALL_LOG_VALID])
  | .parkThreshold .. => some parkFields
  | .park .. => some (portRecords ++ parkFields ++ [MX_PARK_PARK_L.whole])
  | .parkTakeEffect .. => some [MX_PARK_LOG_HALF, MX_PARK_LOG_OVERRUN, MX_PARK_LOG_REASON, MX_PARK_LOG_START,
      MX_PARK_LOG_VALID, MX_PARK_PARK_L, MX_PARK_PARK_R]
  | .releaseHalf .. => some (portRecords ++ parkFields ++ [MX_PARK_RELEASE_L.whole])
  | .splitWrite .. => some (portRecords ++ [MX_CTL_SPLIT.whole, MX_PARK_PARK_R, MX_STATUS_PARKED_R,
      MX_STATUS_SPLIT_ACTIVE, MX_STATUS_SPLIT_PENDING])
  | .splitTakeEffect .. => some [MX_PARK_PARK_R, MX_STATUS_PARKED_R, MX_STATUS_SPLIT_ACTIVE, MX_STATUS_SPLIT_PENDING]
  | .veStrokeMap .. | .veStrokeReduce .. | .veStrokeScan .. | .vePaceRelease .. => some (tileFields ++ tagFields ++
      [PMC_TD_BEATS_COUNT, PMC_TD_COUNT, VE_NONFINITE_COUNT_COUNT])
  | .norm .. => some (tileFields ++ tagFields ++ [SFU_EMPTY_REDUCE_COUNT_COUNT, VE_CLAMP_COUNT_COUNT])
  | .softmaxFull .. | .softmaxPartial .. | .softmaxApply .. | .softmaxMerge .. => some (tileFields ++ tagFields ++
      [SFU_EMPTY_REDUCE_COUNT_COUNT, SFU_EMPTY_SOFTMAX_COUNT_COUNT, SFU_LOGIT_SAT_COUNT_COUNT])
  | .pollSweep .. => some (uncoreFields ++ tagFields ++ [RING_POLL_STATUS_OVERRUN])
  | .summaryReadReturn .. => some (uncoreFields ++ tagFields ++ [GRP_CQ_POS_HEAD_SEEN, GRP_DB_ACTIVE,
      GRP_STATUS_DB_READ_ERR])
  | .tailReadReturn .. => some (uncoreFields ++ tagFields ++ [GRP_DB_ACTIVE, GRP_STATUS_DB_BACKWARD,
      GRP_STATUS_DB_READ_ERR, GRP_SUMMARY_SEEN_VALUE.whole, RING_POS_TAIL, RING_STATE_HALT_CAUSE, RING_STATE_STATE])
  | .schedTableRead .. => some (tagFields ++ [RING_STATE_HALT_CAUSE, RING_STATE_STATE])
  | .ringFetch .. | .msixSend .. | .msixHoldoffEnd .. | .msixUnmask .. => some (uncoreFields ++ tagFields)
  | .ringFetchReturn .. => some (uncoreFields ++ tagFields ++ restartFields ++ [RING_STATE_HALT_CAUSE,
      RING_STATE_STATE])
  | .descriptorDeliver .. => some (uncoreFields ++ counterFields ++ tagFields ++ wakeFields ++ retireFields ++
      [PAL_STATUS_SCRUB_ACTIVE, RING_STATE_CURSOR, RING_STATE_HALT_CAUSE])
  | .descriptorIssue .. => some (readFields ++ engineFields ++ tagFields ++ parkFields ++ issueFields ++ retireFields
      ++ [PAL_AC_VALUE, PAL_INJECT_ARM])
  | .descriptorComplete .. => some (readFields ++ tagFields ++ wakeFields ++ retireFields ++ [PAL_AC_VALUE,
      PAL_INJECT_ARM, PAL_STATUS_SCRUB_ACTIVE, RISK_EVENT_SNAP_FAIL, RISK_LAST_COPY_BYTES, RISK_LAST_COPY_CAUSE,
      RISK_LAST_COPY_STATUS, RISK_TAG_KEY_HI.whole])
  | .cqRecordWrite .. => some (uncoreFields ++ tagFields ++ retireFields ++ [GRP_CQ_POS_TAIL,
      GRP_STATUS_CQ_WRITE_ERR])
  | .nop .. | .streamSet .. | .hostWrite .. => some (uncoreFields ++ counterFields ++ engineFields ++ tagFields ++
      issueFields ++ retireFields)
  | .counterAdd .. => some (uncoreFields ++ counterFields ++ engineFields ++ tagFields ++ issueFields ++ retireFields
      ++ [PAL_AC_VALUE])
  | .ringEnable .. | .ringDisable .. => some (uncoreFields ++ tagFields ++ portRecords ++ restartFields ++
      [RING_CTL_ENABLE.whole, RING_POS_TAIL, RING_STATE_HALT_CAUSE, RING_STATE_STATE])
  | .ringResume .. => some (uncoreFields ++ tagFields ++ portRecords ++ restartFields ++ [RING_CTL_ENABLE,
      RING_CTL_RESUME.whole, RING_POS_TAIL, RING_STATE_HALT_CAUSE, RING_STATE_STATE])
  | .retiredWrite .. => some (portRecords ++ [RING_POS_FETCHED, RING_RETIRED_RETIRED.whole])
  | .groupActivate .. => some (portRecords ++ [GRP_DB_ADDR.whole])
  | .txnTagGrant .. => some (uncoreFields ++ tagFields ++ [PAL_DARK_REFUSED_COUNT])
  | .pllLock .. => some [TB_STATUS_EXCHANGES, TB_STATUS_HOPS, TB_STATUS_STATE]
  | .pllUnlock .. => some (riskFields ++ [TB_EVENT_PLL_UNLOCK, TB_STATUS_EXCHANGES, TB_STATUS_HOPS, TB_STATUS_STATE])
  | .tbBroadcast .. => some (riskFields ++ [TB_EVENT_SKEW_ERR])
  | .tbCapture .. => some (portRecords ++ [TB_CAPTURE_VALUE.whole, TB_CTL_CAPTURE.whole, TB_EVENT_STEPPED,
      TB_LAST_STEP_TICKS, TB_STATUS_EXCHANGES, TB_STATUS_HOPS, TB_STATUS_STATE, TB_STATUS_UP_IN_USE])
  | .tbLoad .. => some (portRecords ++ [TB_CAPTURE_VALUE.whole, TB_CTL_LOAD.whole, TB_EVENT_STEPPED,
      TB_LAST_STEP_TICKS, TB_STATUS_EXCHANGES, TB_STATUS_HOPS, TB_STATUS_STATE, TB_STATUS_UP_IN_USE])
  | .syncRequestSend .. => some (uncoreFields ++ [TB_EVENT_PORT_SWITCH, TB_STATUS_SETTLING, TB_STATUS_UP_IN_USE])
  | .syncRequestReceive .. | .frameForward .. | .forecastSend .. => some uncoreFields
  | .syncResponseReceive .. => some (riskFields ++ uncoreFields ++ [TB_DELAY_D, TB_EVENT_HOLDOVER,
      TB_EVENT_PORT_SWITCH, TB_EVENT_STEPPED, TB_EVENT_UP_LOST, TB_FREQ_FREQ, TB_LAST_STEP_TICKS, TB_OFFSET_THETA,
      TB_STATUS_EXCHANGES, TB_STATUS_HOPS, TB_STATUS_SETTLING, TB_STATUS_STATE, TB_STATUS_UP_IN_USE])
  | .syncResponseMissed .. => some (riskFields ++ [TB_EVENT_HOLDOVER, TB_EVENT_PORT_SWITCH, TB_EVENT_UP_LOST,
      TB_STATUS_EXCHANGES, TB_STATUS_SETTLING, TB_STATUS_STATE, TB_STATUS_UP_IN_USE])
  | .stampReached .. | .varPass1End .. | .droopEnd .. | .ballastStop .. | .riseCovered .. | .resetNRelease .. => some
      []
  | .linkEnable .. => some (riskFields ++ uncoreFields ++ portRecords ++ portFail ++ [LINK_CTL_EN.whole,
      LINK_CTL_RETRAIN, LINK_STATUS_REVERSED])
  | .laneTrained .. => some (riskFields ++ uncoreFields ++ portFail)
  | .portAligned .. => some (riskFields ++ uncoreFields ++ portFail ++ [LINK_CAL_RX_DELAY, LINK_CAL_TX_DELAY,
      LINK_STATUS_REVERSED])
  | .peerInfoReceive .. => some (riskFields ++ uncoreFields ++ portFail ++ [LINK_CAL_RX_DELAY, LINK_CAL_TX_DELAY,
      LINK_CREDIT_POOL, LINK_CREDIT_RESERVE_USED, LINK_EVENT_CREDIT_CLAMP, LINK_EVENT_DEGRADE, LINK_EVENT_PEER_CHANGE,
      LINK_EVENT_RETRAINED, LINK_PEER_CAL_RX_DELAY, LINK_PEER_CAL_TX_DELAY, LINK_PEER_MODULE, LINK_PEER_PORT,
      LINK_PEER_VALID, TB_STATUS_SETTLING])
  | .retrain .. => some (riskFields ++ uncoreFields ++ portRecords ++ portFail ++ [LINK_CTL_RETRAIN.whole,
      LINK_STATUS_REVERSED])
  | .flitReceive .. | .replayTimeout .. => some (riskFields ++ uncoreFields ++ portFail ++ [LINK_EVENT_REPLAY_STORM,
      LINK_RETRY_REPLAYS])
  | .laneLockLoss .. => some (riskFields ++ uncoreFields ++ portFail ++ [LINK_CAL_RX_DELAY, LINK_CAL_TX_DELAY,
      LINK_EVENT_DEGRADE, TB_STATUS_SETTLING])
  | .degradeWindowEnd .. => some (riskFields ++ uncoreFields ++ portFail ++ [LINK_CAL_RX_DELAY, LINK_CAL_TX_DELAY,
      LINK_EVENT_DEGRADE, LINK_LANE_CE_COUNT, LINK_LANE_UE_COUNT, TB_STATUS_SETTLING])
  | .portIdleEnd .. => some [LINK_CTL_RETRAIN, LINK_STATUS_LANES_UP, LINK_STATUS_LANE_SET, LINK_STATUS_REVERSED,
      LINK_STATUS_STATE, LINK_STATUS_WIDTH]
  | .writeFrameReceive .. | .collFrameReceive .. => some (tileFields ++ tagFields ++ [COLL_GEN_STALE_COUNT_COUNT,
      COLL_VOTE_SAT_COUNT_COUNT])
  | .membershipFrameReceive .. => some (tileFields ++ tagFields ++ groupFields)
  | .ackReceive .. | .noticeReceive .. | .ackTimeout .. => some (riskFields ++ uncoreFields ++ tagFields)
  | .reasmTimeout .. => some (uncoreFields ++ [LINK_EVENT_REASM_DROP, LINK_REASM_DROP_COUNT])
  | .genHoldExpire .. => some (uncoreFields ++ [COLL_GEN_STALE_COUNT_COUNT])
  | .silentThreshold .. => some (riskFields ++ [COLL_SILENT_LOG_GROUP, COLL_SILENT_LOG_MODULE,
      COLL_SILENT_LOG_OVERRUN, COLL_SILENT_LOG_VALID])
  | .fabSend .. | .collCombine .. | .fixRestoreServe .. => some (readFields ++ engineFields ++ tagFields ++
      [PAL_AC_VALUE, PAL_INJECT_ARM])
  | .collAllReduce .. | .collReduceScatter .. | .collAllGather .. | .collVoteSum .. | .exchangeModuleRecord .. => some
      (tileFields ++ tagFields ++ [COLL_GROUP_ID_SEQ, COLL_VOTE_SAT_COUNT_COUNT])
  | .collDispatch .. => some (tileFields ++ tagFields ++ [COLL_DISPATCH_DROP_COUNT])
  | .groupSetLocal .. | .groupSetDistribute .. | .groupSetRemove .. => some (tileFields ++ tagFields ++ groupFields ++
      [COLL_GROUP_ID_VALID.whole, COLL_GROUP_SIZE_COUNT.whole])
  | .varUpdate .. => some (readFields ++ engineFields ++ tagFields ++ [PAL_AC_VALUE, PAL_INJECT_ARM,
      VAR_LAZY_SKIP_COUNT, VAR_ROW_AHEAD_COUNT])
  | .exchangeGatherComplete .. => some (counterFields ++ engineFields ++ tagFields ++ [VAR_NORM_S, VAR_NORM_SCALE,
      VAR_SKEW_LOG_CAUSE, VAR_SKEW_LOG_DIE, VAR_SKEW_LOG_K_SEEN, VAR_SKEW_LOG_MODULE, VAR_SKEW_LOG_OVERRUN,
      VAR_SKEW_LOG_VALID, VAR_STATUS_HELD, VAR_STATUS_HELD_CAUSE, VAR_STATUS_NORM_NONFINITE])
  | .varPass2End .. => some (tileFields ++ tagFields ++ [VAR_LAZY_SKIP_COUNT, VAR_ROW_AHEAD_COUNT, VAR_STEP_K])
  | .varPush .. => some (tileFields ++ tagFields ++ [VAR_PUSHED_COUNT])
  | .varProgram .. => some [VAR_PROG_N0, VAR_PROG_N1, VAR_PROG_N2, VAR_PROG_N3]
  | .varStateSetStep .. | .varStateRelease .. => some [VAR_STATUS_HELD, VAR_STATUS_HELD_CAUSE, VAR_STEP_K]
  | .stackAccess .. => some (accessFields ++ tagFields)
  | .pprComplete .. => some (accessFields ++ tagFields ++ [HOST_DENIED_COUNT, HOST_DENIED_LOG_ADDR,
      HOST_DENIED_LOG_OVERRUN, HOST_DENIED_LOG_VALID, HOST_DENIED_LOG_WRITE, HOST_POISON_COUNT])
  | .varDieFail .. => some (riskFields ++ uncoreFields ++ counterFields ++ tagFields ++ retireFields ++
      [RISK_EVENT_VAR_FAIL, RISK_VAR_FAILED_DIES])
  | .riskWindow .. => some (riskFields ++ [RISK_INPUTS_CE, RISK_INPUTS_DROOP, RISK_INPUTS_LINK, RISK_INPUTS_TEMP])
  | .copyStepAdvance .. => some (accessFields ++ tagFields ++ parkFields ++ restartFields ++ [ATL_STATUS_STATE,
      RISK_EVENT_DRAINED, RISK_EVENT_SNAP_FAIL, RISK_IMAGE_K, RISK_IMAGE_SLOT, RISK_IMAGE_USEQ, RISK_IMAGE_VALID,
      RISK_LAST_COPY_BYTES, RISK_LAST_COPY_CAUSE, RISK_LAST_COPY_STATUS, RISK_STATUS_DRAINED])
  | .fixSnapshot .. => some (readFields ++ tagFields ++ [PAL_AC_VALUE, PAL_INJECT_ARM, RISK_EVENT_SNAP_FAIL,
      RISK_LAST_COPY_BYTES, RISK_LAST_COPY_CAUSE, RISK_LAST_COPY_STATUS, RISK_TAG_KEY_HI.whole])
  | .fixRestoreSend .. => some (readFields ++ tagFields ++ [PAL_AC_VALUE, PAL_INJECT_ARM])
  | .fixRestoreApply .. => some (tileFields ++ tagFields ++ restartFields ++ groupFields ++ [COLL_ROUTE_CTL_TTL.whole,
      COLL_VL_OWNER_OWNER.whole, COLL_VL_VALID_VALID.whole, RING_RETIRED_RETIRED, RING_STATE_CURSOR,
      RISK_RNG_CHECK_ARMED, RISK_TAG_KEY_HI.whole, TB_SYNC_DOMAIN.whole, VAR_STATUS_HELD, VAR_STATUS_HELD_CAUSE,
      VAR_STEP_K])
  | .rngCheckDisarm .. => some (portRecords ++ [RISK_RNG_CHECK_ARMED.whole])
  | .hostLoss .. | .hostPerst .. => some (parkFields ++ restartFields ++ [ATL_STATUS_ORPHANED, ATL_STATUS_STATE,
      HOST_EVENT_BME_CLEARED, HOST_EVENT_FLR, HOST_EVENT_HOT_RESET, HOST_EVENT_LINK_DOWN, HOST_STATUS_UP.whole])
  | .atsInvalidate .. => some [HOST_ATS_INVALIDATIONS]
  | .lock .. | .quiesce .. | .release .. | .shareOkWrite .. => some atelierFields
  | .quiesceDone .. => some [ATL_STATUS_STATE, RISK_EVENT_DRAINED, RISK_STATUS_DRAINED]
  | .quiesceStallAbort .. => some (tileFields ++ tagFields ++ parkFields ++ [SFU_EMPTY_REDUCE_COUNT_COUNT,
      SFU_EMPTY_SOFTMAX_COUNT_COUNT, SFU_LOGIT_SAT_COUNT_COUNT, VE_CLAMP_COUNT_COUNT])
  | .adopt .. => some (portRecords ++ [ATL_ADOPT_GO.whole, ATL_CTL_LOCK, ATL_OWNER_PORT, ATL_STATUS_ORPHANED])
  | .dissolve .. => some (portRecords ++ [ATL_CTL_LOCK, ATL_DIES_MASK.whole, ATL_DISSOLVE_GO.whole,
      ATL_HBM_VALID.whole, ATL_OWNER_VALID, ATL_RINGS_FIRST.whole, ATL_SHARE_RIGHT.whole, ATL_STATUS_STATE.whole,
      ATL_TILES_MASK.whole, ATL_TXN_MAX.whole, COLL_GROUP_ID_VALID.whole, COLL_GROUP_SIZE_COUNT.whole,
      COLL_VL_OWNER_OWNER, COLL_VL_VALID_VALID, RING_CTL_ENABLE, RING_STATE_STATE])
  | .shareSet .. => some (portRecords ++ [ATL_SHARE_VALID.whole])
  | .railOpWrite .. => some (uncoreFields ++ portRecords ++ [PLANT_EVENT_AVS_ERR, PWR_RAIL_BUSY, PWR_RAIL_OP.whole,
      PWR_RAIL_OP_NOW, PWR_RAIL_VTARGET, PWR_STATUS_OP_BUSY])
  | .railOpSettle .. | .railSettleTimeout .. => some (uncoreFields ++ [PLANT_EVENT_AVS_ERR, PWR_RAIL_BUSY,
      PWR_RAIL_OP_NOW, PWR_RAIL_VSENSE, PWR_RAIL_VTARGET, PWR_STATUS_OP_BUSY])
  | .droopStart .. => some [PWR_DROOP_COUNT, PWR_RAIL_VSENSE]
  | .wowSet .. | .wowClear .. => some [PWR_WOW_DIES_DIES, PWR_WOW_TILES]
  | .domCmdWake .. => some (portRecords ++ wakeFields ++ [PAL_STATUS_SCRUB_ACTIVE, PWR_DOM_CMD_GO.whole])
  | .domCmdIdle .. => some (portRecords ++ wakeFields ++ [PAL_STATUS_SCRUB_ACTIVE, PWR_DOM_CMD_OP.whole])
  | .domCmdOff .. => some (portRecords ++ wakeFields ++ [PAL_STATUS_SCRUB_ACTIVE, PWR_DOM_CMD_RESULT.whole])
  | .domCmdRelease .. => some (portRecords ++ wakeFields ++ [PAL_STATUS_SCRUB_ACTIVE, PWR_DOM_CMD_DOMAIN.whole])
  | .quietWrite .. => some (portRecords ++ [PWR_CTL_QUIET.whole, PWR_STATUS_MODE])
  | .governorUpdate .. => some [PLANT_EVENT_CURT_UNMET, PLANT_EVENT_SOC_LOW, PLANT_EVENT_THERM_LIMIT,
      PLANT_STATUS_CEIL_EFF, PLANT_STATUS_CURT_ACK, PLANT_STATUS_FLOOR_EFF, PLANT_STATUS_P_EST, PLANT_THERM_TJ_MAX,
      PWR_RAIL_ISENSE, PWR_RAIL_VSENSE]
  | .lsnAssert .. => some [PLANT_LSN_NOTICES_COUNT, PLANT_STATUS_LSN_OUT]
  | .lsnAck .. => some [PLANT_EVENT_LATE_ACK, PLANT_STATUS_LSN_ACK]
  | .lsnAckTimeout .. => some [PLANT_EVENT_NOACK, PLANT_LSN_NOACK_COUNT]
  | .lsnDeassert .. => some [PLANT_STATUS_LSN_OUT]
  | .lsnHoldMax .. => some [PLANT_EVENT_HOLD_MAX, PLANT_STATUS_LSN_OUT]
  | .curtailAssert .. | .curtailLevelChange .. | .curtailRelease .. => some [PLANT_CURT_EVENTS_COUNT,
      PLANT_EVENT_CURT_UNMET, PLANT_STATUS_CURTAILED, PLANT_STATUS_CURT_ACK, PLANT_STATUS_CURT_LVL]
  | .socFrameReceive .. => some [PLANT_LINK_ERR_COUNT, PLANT_SOC_NOW_SEQ, PLANT_SOC_NOW_SOC, PLANT_SOC_NOW_VALID,
      PLANT_STATUS_SOC_STALE]
  | .socTimeout .. => some [PLANT_EVENT_SOC_STALE, PLANT_STATUS_SOC_STALE]
  | .pmbusPoll .. => some (uncoreFields ++ [PLANT_EVENT_PMB_ERR, PLANT_RAIL_TELEM_IOUT, PLANT_RAIL_TELEM_STATUS_WORD,
      PLANT_RAIL_TELEM_TEMP, PLANT_RAIL_TELEM_VOUT])
  | .plantEnWrite .. => some (portRecords ++ [PLANT_CTL_EN.whole, PLANT_CURT_EVENTS_COUNT, PLANT_EVENT_CURT_UNMET,
      PLANT_EVENT_PINS, PLANT_STATUS_CURTAILED, PLANT_STATUS_CURT_ACK, PLANT_STATUS_CURT_LVL, PLANT_STATUS_LSN_OUT,
      PLANT_STATUS_PINS_PLANT])
  | .pmcWindow .. => some (uncoreFields ++ [PMC_CTR_VALUE, PMC_DUMP_CTL_SEQ, PMC_DUMP_LOST_COUNT])
  | .windowEdge .. => some (uncoreFields ++ [PMC_DUMP_CTL_SEQ, PMC_DUMP_LOST_COUNT, PMC_WIN_SKIPPED,
      SEQ_LC_LOAN_LAST_SLIP, SEQ_LC_LOAN_SLIPS])
  | .sbufRdWrite .. => some (portRecords ++ [PMC_SBUF_CTL_COUNT, PMC_SBUF_CTL_FULL, PMC_SBUF_CTL_RD.whole])
  | .periodicDump .. => some (uncoreFields ++ [PMC_DUMP_CTL_SEQ, PMC_DUMP_LOST_COUNT])
  | .bootStepDone .. => some (riskFields ++ uncoreFields ++ counterFields ++ tagFields ++ retireFields ++
      [CMC_BOOT_CFG_VALID, CMC_BOOT_FUSE_ROLLBACK, CMC_BOOT_FW_VERSION, CMC_BOOT_IMG_ROLLBACK, CMC_BOOT_SECURE,
      CMC_BOOT_SLOT, CMC_BOOT_STACKS_KEPT, CMC_STATUS_BOOT_ERR, CMC_STATUS_DEGRADED, CMC_STATUS_ERR_ARG,
      CMC_STATUS_READY, CMC_STATUS_STAGE, COLL_ID_MODULE, FUSE_WORD_VALUE.whole, HBM_REPAIR_HARD,
      HBM_REPAIR_SPARES_MIN, HBM_STATUS_KEPT, HBM_STATUS_STATE, LINK_CTL_EN, LINK_CTL_PMD, LINK_CTL_RETRAIN,
      LINK_STATUS_LANES_UP, LINK_STATUS_LANE_SET, LINK_STATUS_REVERSED, LINK_STATUS_STATE, LINK_STATUS_WIDTH,
      PAL_CTL_EN, PLANT_EVENT_AVS_ERR, PLANT_PMB_ADDR0, PLANT_PMB_ADDR1, PLANT_PMB_ADDR2, PLANT_PMB_ADDR3, PWR_DSTATE,
      RISK_EVENT_VAR_FAIL, RISK_VAR_FAILED_DIES, TB_CTL_ROLE, TB_STATUS_EXCHANGES, TB_STATUS_HOPS, TB_STATUS_STATE,
      TB_STATUS_UP_IN_USE])
  | .fuseProg .. => some (portRecords ++ [FUSE_PROG_GO.whole, FUSE_STATUS_BUSY, FUSE_STATUS_RESULT,
      FUSE_STATUS_VPP_OK])
  | .fusePulseDone .. => some [DBG_CTL_EN, DBG_STATUS_ACTIVE, FUSE_PROG_GO, FUSE_STATUS_BUSY, FUSE_STATUS_RESULT,
      FUSE_WORD_VALUE.whole]
  | .sketchEnable .. => some (portRecords ++ [DBG_CTL_EN.whole, DBG_STATUS_ACTIVE, DBG_STATUS_RESULT])
  | .sketchDisable .. => some (portRecords ++ [DBG_CTL_DIV.whole, DBG_CTL_EN, DBG_STATUS_ACTIVE, DBG_STATUS_RESULT])
  | .sketchSample .. => some (uncoreFields ++ [DBG_STATUS_LOST])
  | .hostLinkUp .. => some [HOST_STATUS_NO_FLIT, HOST_STATUS_RATE, HOST_STATUS_UP, HOST_STATUS_WIDTH]
  | .lsnAckFall .. => some [PLANT_STATUS_LSN_ACK]
  | .fenceHostReadReturn .. => some tagFields
  | .hostReadTimeout .. => some (uncoreFields ++ tagFields ++ restartFields ++ [GRP_CQ_POS_HEAD_SEEN, GRP_DB_ACTIVE,
      GRP_STATUS_DB_BACKWARD, GRP_STATUS_DB_READ_ERR, GRP_SUMMARY_SEEN_VALUE.whole, RING_POS_TAIL,
      RING_STATE_HALT_CAUSE, RING_STATE_STATE])
  | .bankRefresh .. => some [HBM_ODECC_COUNT, HBM_STATUS_REFRESH_X2, HBM_STATUS_TEMP]

/-- Commands that can change memory, its poison or its standing errors. -/
def Instr.storesMemory : Instr → Bool
  | .registerWrite .. | .hostMemoryRead .. | .hostMemoryWrite .. | .granuleCommit .. | .paletteRequestSet .. |
      .eccWriteBack .. | .requestAged .. | .patrolScrub .. | .scrubPriorityRaise .. | .quarterInitDone .. | .palFill
      .. | .palCopy .. | .tensorCopy .. | .tensorGather .. | .tensorScatter .. | .mxProduct .. | .mxFirstFeed .. |
      .mxPassStart .. | .mxPaceRelease .. | .stallAbort .. | .veStrokeMap .. | .veStrokeReduce .. | .veStrokeScan .. |
      .vePaceRelease .. | .norm .. | .softmaxFull .. | .softmaxPartial .. | .softmaxApply .. | .softmaxMerge .. |
      .descriptorIssue .. | .descriptorComplete .. | .writeFrameReceive .. | .collFrameReceive .. |
      .membershipFrameReceive .. | .fabSend .. | .collAllReduce .. | .collReduceScatter .. | .collAllGather .. |
      .collVoteSum .. | .collDispatch .. | .collCombine .. | .groupSetLocal .. | .groupSetDistribute .. |
      .groupSetRemove .. | .varUpdate .. | .exchangeModuleRecord .. | .varPass2End .. | .varPush .. | .stackAccess ..
      | .pprComplete .. | .copyStepAdvance .. | .fixSnapshot .. | .fixRestoreSend .. | .fixRestoreApply .. |
      .fixRestoreServe .. | .quiesceStallAbort .. | .domainTransitionDone .. | .thermalTrip .. | .coldReset .. |
      .moduleReset .. | .bootStepDone .. | .pwrGoodFall .. => true
  | _ => false

/-- Commands that can change the route table. -/
def Instr.setsRoutes : Instr → Bool
  | .registerWrite .. | .hostMemoryWrite .. | .fixRestoreApply .. | .coldReset .. | .moduleReset .. | .pwrGoodFall ..
      => true
  | _ => false

/-- Commands that can blow a fuse bit: a register write among them, and a reset that interrupts a pulse (R418). -/
def Instr.blowsFuses : Instr → Bool
  | .registerWrite .. | .hostMemoryWrite .. | .coldReset .. | .moduleReset .. | .fusePulseDone .. | .pwrGoodFall .. =>
      true
  | _ => false

/-- Commands that can send something outside. -/
def Instr.sends : Instr → Bool
  | .registerWrite .. | .hostMemoryRead .. | .hostMemoryWrite .. | .hostConfigRequest .. | .pollSweep .. |
      .summaryReadReturn .. | .tailReadReturn .. | .ringFetch .. | .ringFetchReturn .. | .descriptorDeliver .. |
      .descriptorIssue .. | .descriptorComplete .. | .cqRecordWrite .. | .msixSend .. | .msixHoldoffEnd .. |
      .msixUnmask .. | .nop .. | .streamSet .. | .counterAdd .. | .hostWrite .. | .ringEnable .. | .ringDisable .. |
      .ringResume .. | .txnTagGrant .. | .syncRequestSend .. | .syncRequestReceive .. | .syncResponseReceive .. |
      .linkEnable .. | .laneTrained .. | .portAligned .. | .peerInfoReceive .. | .retrain .. | .flitReceive .. |
      .replayTimeout .. | .laneLockLoss .. | .degradeWindowEnd .. | .frameForward .. | .writeFrameReceive .. |
      .collFrameReceive .. | .membershipFrameReceive .. | .ackReceive .. | .noticeReceive .. | .reasmTimeout .. |
      .ackTimeout .. | .genHoldExpire .. | .fabSend .. | .collAllReduce .. | .collReduceScatter .. | .collAllGather ..
      | .collVoteSum .. | .collDispatch .. | .collCombine .. | .groupSetLocal .. | .groupSetDistribute .. |
      .groupSetRemove .. | .exchangeModuleRecord .. | .pprComplete .. | .varDieFail .. | .copyStepAdvance .. |
      .fixSnapshot .. | .fixRestoreSend .. | .fixRestoreApply .. | .fixRestoreServe .. | .lock .. | .quiesce .. |
      .release .. | .shareOkWrite .. | .railOpWrite .. | .railOpSettle .. | .railSettleTimeout .. |
      .domainTransitionDone .. | .thermalTrip .. | .forecastSend .. | .pmbusPoll .. | .pmcWindow .. | .windowEdge .. |
      .periodicDump .. | .bootStepDone .. | .sketchSample .. | .hostReadTimeout .. => true
  | _ => false

end Sys2Proof
end

