-- ==== Sys2Proof/Certificates/Slice0/Obligations.lean ====
section
/-! DEFINITION. The statements for the provers, family by family. -/

open Sys2Proof Sys2Proof.Machine

/-! ### The step, the queue and the whole machine -/

/-- A step runs the command at the front of the queue, on the module with the rest of the queue. -/
def Obligations.StepRunsFront : Prop :=
  ∀ (c : Instr) (rest : List Instr) (s : State),
    step { s with pending := c :: rest } = exec c { s with pending := rest }

/-- On an empty queue a step is one tick of the timebase (the model's choice, log entry 1): the count advances by 1 while
the PLL is locked (R215), but for a tick that the frequency correction inserts or drops (R223), and stands while it is not.
Nothing leaves the module, and while the palettes have accepted nothing that waits, memory stands and no register changes
but the counters of beats and ticks. -/
def Obligations.EmptyQueueTicks : Prop :=
  ∀ s : State, s.pending = [] → s.running = true →
    ∃ t, step s = .next t ∧ t.pending = [] ∧ t.routes = s.routes ∧ t.fuses = s.fuses ∧ t.out = s.out
      ∧ (s.settledBanks = true → memoryKept s t
          ∧ fieldsKeptBut (uncoreFields ++ counterFields ++ [PMC_TD_COUNT, PMC_TD_BEATS_COUNT]) s t)
      ∧ (s.units.tb.locked = false → t.units.tb = s.units.tb)
      ∧ (s.units.tb.locked = true → s.units.tb.count ≠ t.units.tb.count → t.units.tb.count = s.units.tb.count + 1)
      ∧ (s.units.tb.locked = true → s.fld TB_STATUS_STATE ≠ 3 → s.fld TB_STATUS_STATE ≠ 4 →
          -(2 ^ 40 : Int) < s.units.tb.acc → t.units.tb.count = s.units.tb.count + 1)

/-- What reset leaves: a sound state (the invariant of StepKeepsSound), no atelier, READY 0 and STAGE 0 (R406, R409, R426),
and of the reset values that the register tables give (R12) these. Where the spec leaves a point open or to be inferred,
this is the model's choice of log entry 5. -/
def Obligations.ResetState : Prop :=
  State.reset.sound = true ∧ State.reset.pending = [] ∧ State.reset.out = [] ∧ State.reset.inReset = false
    ∧ State.reset.units.tb.count = 0 ∧ State.reset.units.tb.locked = false
    ∧ (List.range 16).all (fun a => !State.reset.exists a) = true
    ∧ State.reset.on CMC_STATUS_READY = false ∧ State.reset.fld CMC_STATUS_STAGE = 0
    ∧ State.reset.fld PAL_CTL_SCRUB_INTERVAL 29 = 0x100 ∧ State.reset.on PAL_CTL_SCRUB_EN 29 = true
    ∧ State.reset.on PAL_CTL_EN 29 = false

/-- A command answers a next state exactly when its operands have the shape of its event; else it stops with the fault
illFormed. It leaves the queue of waiting commands alone. Where the spec leaves a point open or to be inferred, this is the
model's choice of log entries 8 and 10. -/
def Obligations.ExecAnswers : Prop :=
  ∀ (i : Instr) (s : State), (i.wellFormed = true → ∃ t, exec i s = .next t ∧ t.pending = s.pending)
    ∧ (i.wellFormed = false → ∃ m, exec i s = .fault (.illFormed m))

/-- Every table of the state stays in its canonical form, over every command and every tick: memory lists rising addresses
of palettes and stacks and no byte that reads as unwritten, and no register holds a bit that it does not implement (R11). -/
def Obligations.StepKeepsSound : Prop :=
  ∀ s t : State, s.sound = true → step s = .next t → t.sound = true

/-- Every CAP register holds the Fenzeam's value in every sound state, reserved offsets hold 0, and no command and no tick
changes it (R20, R22). -/
def Obligations.CapFixed : Prop :=
  ∀ s : State, s.sound = true →
    (s.held 0x21000000000 = 0x3A9EF064B1010000#64 ∧ s.held 0x21000000008 = 0x0000004008080410#64
      ∧ s.held 0x21000000010 = 0x0100010001020401#64 ∧ s.held 0x21000000018 = 0x0800020000000000#64
      ∧ s.held 0x21000000020 = 0x00C0000200400060#64 ∧ s.held 0x21000000028 = 0x0400200410302800#64
      ∧ s.held 0x21000000030 = 0x1010010000009000#64 ∧ s.held 0x21000000038 = 0x180804101000084D#64
      ∧ s.held 0x21000000040 = 0x0800001000010000#64 ∧ s.held 0x21000000048 = 0x01B0041388000000#64
      ∧ s.held 0x21000000050 = 0x00020018012C0000#64 ∧ s.held 0x21000000058 = 0x000F424000640200#64
      ∧ ∀ off, 0x60 ≤ off → off < 0x10000 → s.held (0x21000000000 + off) = 0)
    ∧ ∀ t, step s = .next t → ∀ off, off < 0x10000 → t.held (0x21000000000 + off) = s.held (0x21000000000 + off)

/-- A fuse bit once blown stays blown, over every command and every tick, resets among them (R406, R418); and what the
module has sent outside stays sent, in its order. Where the spec leaves a point open or to be inferred, this is the model's
choice of log entry 68. -/
def Obligations.FusesAndSentStay : Prop := ∀ s t : State, step s = .next t → fusesKept s t ∧ sentKept s t

/-! ### Host and register access -/

/-- What the access codes make of a write to any register of the module, bit by bit (R10): RW takes the bit written, RWL
takes it while the lock is not set, W1C is cleared by a 1, W1S is set by a 1 (the register's own effect), and every other
bit stays. -/
def Obligations.AccessCodes : Prop :=
  ∀ (b : Blk) (d : RegDef), d ∈ blkRegs b → ∀ (old v : Word) (locked : Bool) (j : Nat), j < 64 →
    let r := applyCodes d old v 0xffffffffffffffff locked
    (d.rw.getLsbD j = true → r.1.getLsbD j = v.getLsbD j)
      ∧ (d.rwl.getLsbD j = true → r.1.getLsbD j = if locked then old.getLsbD j else v.getLsbD j)
      ∧ (d.w1c.getLsbD j = true → r.1.getLsbD j = (old.getLsbD j && !v.getLsbD j))
      ∧ (d.w1s.getLsbD j = true → r.1.getLsbD j = old.getLsbD j ∧ r.2.1.getLsbD j = v.getLsbD j)
      ∧ ((d.rw ||| d.rwl ||| d.w1c).getLsbD j = false → r.1.getLsbD j = old.getLsbD j)

/-- An 8-byte write through BAR2, by a port that may write the register, to a register of VE, SFU, SEQ, VAR, HBM or HOST
(whose registers do nothing but what their access codes say): each bit takes what R10 gives it, and nothing else in the
module changes. Where the spec leaves a point open or to be inferred, this is the model's choice of log entry 11. -/
def Obligations.RegisterWrite : Prop :=
  ∀ (s : State) (p : HostNo) (f : Fld) (i k : Nat) (data : List Byte) (d : RegDef),
    s.running = true → f.implemented = true → f.blk ∈ [Blk.ve, .sfu, .seq, .var, .hbm, .host] →
    findDef (blkRegs f.blk) (f.off + f.stride * (k % f.count)) = some d → s.writable p f i k = true → data.length = 8 →
    ∃ t, exec (.registerWrite p .bar2 (BitVec.ofNat 48 (f.addr i k)) data) s = .next t
      ∧ t = { s with regs := t.regs } ∧ (∀ a, a ≠ f.addr i k → t.held a = s.held a)
      ∧ ∀ j, j < 64 → (t.held (f.addr i k)).getLsbD j =
          if (d.rw ||| d.rwl).getLsbD j then (BitVec.ofNat 64 (ofBytes data)).getLsbD j
          else if d.w1c.getLsbD j then (s.held (f.addr i k)).getLsbD j && !(BitVec.ofNat 64 (ofBytes data)).getLsbD j
          else (s.held (f.addr i k)).getLsbD j

/-- A narrow or misaligned register write from a port that may try it (DEDUCED, log entry 13) is discarded and counted in
the port's HOST.NARROW; a narrow or misaligned read returns the whole register that holds its first byte (R13). An access
through BAR2 to an address with nothing behind it is refused: a write is discarded, a read receives an Unsupported Request
completion, and HOST.DENIED counts it (R17, R342). A Function in D3hot answers every request so, uncounted (R336). Where the
spec leaves a point open or to be inferred, this is the model's choice of log entries 9, 11 and 13. -/
def Obligations.RefusedAccesses : Prop :=
  (∀ (s : State) (p : HostNo) (addr : Addr) (b : Blk) (i off : Nat),
      s.running = true → s.d3hot p = false → i < blkCount b → off < blkSize b → addr.toNat = blkBase b i + off →
      s.early b = false →
      (∀ data : List Byte, 1 ≤ data.length → data.length ≤ 4096 → (data.length < 8 ∨ addr.toNat % 8 ≠ 0) →
        s.mayTry p b i off = true →
        ∃ t, exec (.registerWrite p .bar2 addr data) s = .next t ∧ t = { s with regs := t.regs }
          ∧ t.fld HOST_NARROW_COUNT p = min (s.fld HOST_NARROW_COUNT p + 1) 0xffffffff
          ∧ fieldsKeptBut [HOST_NARROW_COUNT] s t ∧ ∀ q : HostNo, q ≠ p → t.fld HOST_NARROW_COUNT q = s.fld HOST_NARROW_COUNT q)
      ∧ ∀ len, 1 ≤ len → len ≤ 8 → s.mayRead p b i (off / 8 * 8) = true →
        ∃ t, exec (.hostMemoryRead p .bar2 addr len) s = .next t
          ∧ t.out = s.out ++ [.hostCompletion p
              (some (bytesOf 8 (s.readOff b i (off / 8 * 8) (Config.freeBit s.freeNext)).toNat)) false]
          ∧ t = { s with out := t.out, freeNext := t.freeNext })
  ∧ ∀ (s : State) (p : HostNo) (addr : Addr) (n : Nat), s.running = true → place addr.toNat = .absent → 1 ≤ n → n ≤ 4096 →
      addr.toNat + n ≤ 0x40000000000 →
      (s.d3hot p = false →
        (∀ data : List Byte, data.length = n →
          ∃ t, exec (.registerWrite p .bar2 addr data) s = .next t ∧ memoryKept s t ∧ t.out = s.out
            ∧ fieldsKeptBut portRecords s t ∧ t.fld HOST_DENIED_COUNT p = min (s.fld HOST_DENIED_COUNT p + 1) 0xffffffff
            ∧ t.on HOST_DENIED_LOG_VALID p = true)
        ∧ ∃ t, exec (.hostMemoryRead p .bar2 addr n) s = .next t ∧ memoryKept s t ∧ fieldsKeptBut portRecords s t
            ∧ t.out = s.out ++ [.hostCompletion p none false]
            ∧ t.fld HOST_DENIED_COUNT p = min (s.fld HOST_DENIED_COUNT p + 1) 0xffffffff
            ∧ t.on HOST_DENIED_LOG_VALID p = true)
      ∧ (s.d3hot p = true →
        (∀ data : List Byte, data.length = n → exec (.registerWrite p .bar2 addr data) s = .next s)
        ∧ exec (.hostMemoryRead p .bar2 addr n) s = .next { s with out := s.out ++ [.hostCompletion p none false] })

/-- A host write to palettes and stacks that the port owns, where gates and stacks serve, nothing accepted waits and no
granule holds poison or an uncorrectable error: the enabled bytes are written and every other byte of memory is as it was;
no arrival counter moves (R67, R339, R342). A host read of such bytes, where no error stands, completes with the bytes of
memory, and changes none (R339, R342). Where the spec leaves a point open or to be inferred, this is the model's choice of
log entries 12 and 17. -/
def Obligations.HostMemory : Prop :=
  (∀ (s : State) (p : HostNo) (addr : Addr) (data : List (Option Byte)), s.running = true → s.d3hot p = false →
     accessWf .bar2 addr.toNat data.length = true → isMemory addr.toNat = true → s.on CMC_STATUS_READY = true →
     s.portOwns p addr.toNat data.length = true → s.settledBanks = true → s.units.hbm.repairing = [] →
     (∀ g ∈ spanGranules addr.toNat data.length,
       s.meets none g = .ok ∧ s.poisoned g = false ∧ uncorrectable (s.errors g) = false) →
     ∃ t, exec (.hostMemoryWrite p .bar2 addr data) s = .next t
       ∧ (∀ a, t.byte a = if addr.toNat ≤ a then ((data[a - addr.toNat]?).getD none).getD (s.byte a) else s.byte a)
       ∧ (∀ i k, t.fld PAL_AC_VALUE i k = s.fld PAL_AC_VALUE i k) ∧ t.routes = s.routes ∧ t.fuses = s.fuses ∧ t.out = s.out)
  ∧ ∀ (s : State) (p : HostNo) (addr : Addr) (n : Nat), s.running = true → s.d3hot p = false →
      accessWf .bar2 addr.toNat n = true → s.settledBanks = true → s.units.hbm.repairing = [] →
      isMemory addr.toNat = true → s.on CMC_STATUS_READY = true → s.portOwns p addr.toNat n = true →
      (∀ g ∈ spanGranules addr.toNat n, s.meets none g = .ok ∧ s.poisoned g = false ∧ s.errors g = 0) →
      ∃ t, exec (.hostMemoryRead p .bar2 addr n) s = .next t ∧ (∀ a, t.byte a = s.byte a)
        ∧ t.out = s.out ++ [.hostCompletion p (some ((List.range n).map fun k => s.byte (addr.toNat + k))) false]

/-- A configuration request before READY, the sequence not having failed, receives Configuration Request Retry Status and
changes nothing (R409); after READY a read completes with the DWORD, whose bits that the model fixes are the written and the
constant ones, and a write of a DWORD without an effect of its own stores its writable bits and clears the error bits that
it writes 1 to; PowerState takes D0 and D3hot alone (R336) (PRESUMED, log entry 9). -/
def Obligations.ConfigRequest : Prop :=
  ∀ (s : State) (p : HostNo) (dw : Fin 1024), s.running = true →
    (s.on CMC_STATUS_READY = false → s.units.boot.failed = false → ∀ acc,
      exec (.hostConfigRequest p dw acc) s = .next { s with out := s.out ++ [.cfgCompletion p none] })
    ∧ (s.on CMC_STATUS_READY = true →
      (∃ (t : State) (v : BitVec 32), exec (.hostConfigRequest p dw .read) s = .next t
        ∧ t = { s with out := s.out ++ [.cfgCompletion p (some v)], freeNext := t.freeNext }
        ∧ v &&& ~~~ cfgFree dw.val = (s.config p dw.val ||| cfgConst dw.val) &&& ~~~ cfgFree dw.val)
      ∧ ∀ v : BitVec 32, dw.val ≠ 0x1 → dw.val ≠ 0x1e → dw.val ≠ 0x2c →
        ∃ t, exec (.hostConfigRequest p dw (.write v)) s = .next t ∧ t.config p dw.val = cfgAfter dw.val (s.config p dw.val) v
          ∧ t.out = s.out ++ [.cfgCompletion p (some 0)]
          ∧ fieldsKeptBut [] s t ∧ t.mem = s.mem)

/-! ### What commands leave alone -/

/-- A command changes memory, the route table, the fuses and what has been sent only where it is one of those that can. -/
def Obligations.MemoryFrame : Prop :=
  ∀ (i : Instr) (s t : State), exec i s = .next t →
    (i.storesMemory = false → memoryKept s t ∧ ∀ a, t.byte a = s.byte a) ∧ (i.setsRoutes = false → t.routes = s.routes)
      ∧ (i.blowsFuses = false → t.fuses = s.fuses) ∧ (i.sends = false → t.out = s.out)

/-- Every register field that shares no bit with those that a command may write reads after it as it read before. -/
def Obligations.RegisterFrame : Prop :=
  ∀ (i : Instr) (s t : State) (fs : List Fld), i.writes = some fs → exec i s = .next t → fieldsKeptBut fs s t

/-! ### Palette -/

/-- A granule transfer whose last flit reaches the bank queue takes a transaction tag, where one is free, and is accepted
behind the accesses accepted before it, while the gate of its quarter is OPEN (R67, R202); a gate that is not OPEN refuses
it with DARK_BANK, no counter moves, and DARK_REFUSED adds 1 (R82); a palette that takes no access from outside its tile
refuses it with ACCESS_DENIED (R84). One that finds no tag is counted and held (R202). Where the spec leaves a point open or
to be inferred, this is the model's choice of log entry 90. -/
def Obligations.GranuleAccept : Prop :=
  ∀ (s : State) (x : Transfer) (tl o : Nat), s.running = true → transferWf x = true → place x.addr.toNat = .palette tl o →
    ∃ t, exec (.granuleAccept x) s = .next t ∧ memoryKept s t
      ∧ (s.tagFree (s.sharer x.sender) = true → s.heldBefore (.write tl x) = false →
        (s.meets (sourceOwn x.src) (granuleOf x.addr.toNat) = .ok →
          t.units.pal.banks = s.units.pal.banks ++ [.write tl x] ∧ fieldsKeptBut tagFields s t
          ∧ t.fld RING_TXN_IN_USE = s.fld RING_TXN_IN_USE + 1)
        ∧ (s.meets (sourceOwn x.src) (granuleOf x.addr.toNat) = .dark →
          t.units.pal.banks = s.units.pal.banks ∧ fieldsKeptBut (PAL_DARK_REFUSED_COUNT :: tagFields) s t
          ∧ t.fld RING_TXN_IN_USE = s.fld RING_TXN_IN_USE
          ∧ t.fld PAL_DARK_REFUSED_COUNT tl = min (s.fld PAL_DARK_REFUSED_COUNT tl + 1) 0xffffffff
          ∧ ∀ d ∈ t.slots, x.sender = some d.id → d.has .darkBank = true)
        ∧ (s.meets (sourceOwn x.src) (granuleOf x.addr.toNat) = .denied →
          t.units.pal.banks = s.units.pal.banks ∧ fieldsKeptBut tagFields s t
          ∧ ∀ d ∈ t.slots, x.sender = some d.id → d.has .accessDenied = true))
      ∧ (s.tagFree (s.sharer x.sender) = false →
        t.units.pal.banks = s.units.pal.banks ∧ fieldsKeptBut tagFields s t
        ∧ t.fld RING_TXN_WAIT_COUNT = min (s.fld RING_TXN_WAIT_COUNT + 1) 0xffffffff
        ∧ ∃ w, t.units.rings.tagWaits = s.units.rings.tagWaits ++ [w] ∧ w.access = some (.write tl x))

/-- The oldest accepted transfer of a source to a tile, no read of its granule being accepted before it, commits,
whatever else waits (R32, R69): its granule takes the bits that it names and keeps the others (R67), every other byte
of memory is as it was, its counter, where its enable bit is set, adds 1 modulo 2^32 and no other counter moves (R68),
and its tag is free again (R202). Where the spec leaves a point open or to be inferred, this is the model's choice of
log entries 24, 72 and 90. -/
def Obligations.GranuleCommit : Prop :=
  ∀ (s : State) (tl : TileNo) (o : Nat) (x : Transfer) (pre post : List Banked), s.running = true →
    s.units.pal.banks = pre ++ .write tl.val x :: post → (∀ b ∈ pre, Banked.follows (.write tl.val x) b = false) →
    x.addr.toNat % 64 = 0 → place x.addr.toNat = .palette tl.val o → s.writesInto (granuleOf x.addr.toNat) x.bits = true →
    ∃ t, exec (.granuleCommit tl x.src) s = .next t
      ∧ t.units.pal.banks = (pre ++ post).filter (fun b => !b.isBack (granuleOf x.addr.toNat))
      ∧ (∀ a, t.byte a = s.afterGranule (granuleOf x.addr.toNat) x.data x.bits a)
      ∧ t.fld RING_TXN_IN_USE = s.fld RING_TXN_IN_USE - 1
      ∧ (∀ n, x.ac = some n → t.fld PAL_AC_VALUE tl n = (s.fld PAL_AC_VALUE tl n + 1) % 2 ^ 32)
      ∧ ∀ (u : TileNo) (n : CtrNo), (u ≠ tl ∨ x.ac ≠ some n) → t.fld PAL_AC_VALUE u n = s.fld PAL_AC_VALUE u n

/-- A read request set, which a remote tile presents with a tag, waits for its banks with those of its granules whose gates
are OPEN, and the others are refused (R62, R67, R82); one whose banks are free is served, and leaves memory as it is where
its granules hold neither poison nor an error (R62, R63). An aged tile's oldest access is served whatever waits, a read set
or a transfer (R64). Where the spec leaves a point open or to be inferred, this is the model's choice of log entries 23 and
90. -/
def Obligations.RequestSets : Prop :=
  ∀ (s : State) (tl : TileNo), s.running = true →
    (∀ (req : Requester) (snd : Option Nat) (addrs : List Addr) (w : PalWait),
      w = ⟨tl, req, snd, addrs.map fun a => granuleOf a.toNat⟩ → addrs ≠ [] → addrs.length ≤ 512 →
      addrs.all (inPalette tl) = true → readSets w.granules = [w.granules] →
      (req = .remote → s.tagFree (s.sharer snd) = true ∧ s.heldBefore (.read w) = false) →
      (∃ t, exec (.paletteRequestSet tl req snd addrs [] true) s = .next t ∧ memoryKept s t
        ∧ t.units.pal.banks = s.units.pal.banks ++ (if (s.admitted w).granules = [] then [] else [.read (s.admitted w)])
        ∧ ∀ d ∈ t.slots, snd = some d.id →
          (∃ g ∈ w.granules, s.meets ((requesterUnit req).map fun _ => tl.val) g = .dark) → d.has .darkBank = true)
      ∧ (s.settledBanks = true → s.whole w.granules →
        ∃ t, exec (.paletteRequestSet tl req snd addrs [] false) s = .next t ∧ memoryKept s t ∧ t.units.pal = s.units.pal
          ∧ fieldsKeptBut (uncoreFields ++ counterFields ++ tagFields) s t))
    ∧ ∀ (b : Banked) (pre post : List Banked), s.units.pal.banks = pre ++ b :: post → b.tile = tl.val →
      (∀ x ∈ pre, x.tile ≠ tl.val) →
      (∀ w, b = .read w → s.whole w.granules →
        ∃ t, exec (.requestAged tl) s = .next t ∧ memoryKept s t ∧ t.units.pal = { s.units.pal with banks := pre ++ post }
          ∧ fieldsKeptBut (uncoreFields ++ counterFields ++ tagFields) s t)
      ∧ ∀ x o, b = .write tl.val x → x.addr.toNat % 64 = 0 → place x.addr.toNat = .palette tl.val o →
        s.writesInto (granuleOf x.addr.toNat) x.bits = true →
        ∃ t, exec (.requestAged tl) s = .next t
          ∧ ∀ a, t.byte a = s.afterGranule (granuleOf x.addr.toNat) x.data x.bits a

/-- A patrol scrub goes on to its next line, line 0 after line 1,535, where it finds an idle beat or is given priority,
waits with SCRUB_ACTIVE set where it finds none, and skips a line whose gate is not OPEN (R78); a word with one error is
corrected, counted and logged, and its granule is owed a write-back with fresh check bits, which ends the error (R79). Where
the spec leaves a point open or to be inferred, this is the model's choice of log entries 18, 19, 25 and 80. -/
def Obligations.ScrubAndWriteBack : Prop :=
  ∀ (s : State) (tl : TileNo), s.running = true →
    (s.on PAL_CTL_SCRUB_EN tl = true →
      (s.scrubOpen tl = true →
        (∃ t, exec (.patrolScrub tl [] true) s = .next t ∧ t.scrub tl = ⟨((s.scrub tl).line + 1) % 1536, false⟩
          ∧ t.fld PAL_STATUS_SCRUB_ACTIVE tl = 0)
        ∧ ∃ t, exec (.patrolScrub tl [] false) s = .next t ∧ t.scrub tl = ⟨(s.scrub tl).line, true⟩
          ∧ t.fld PAL_STATUS_SCRUB_ACTIVE tl = 1 ∧ memoryKept s t)
      ∧ (s.scrubOpen tl = false → ∀ idle,
        ∃ t, exec (.patrolScrub tl [] idle) s = .next t ∧ t.scrub tl = ⟨((s.scrub tl).line + 1) % 1536, false⟩
          ∧ t.fld PAL_STATUS_SCRUB_ACTIVE tl = 0 ∧ memoryKept s t))
    ∧ ((s.scrub tl).pending = true → s.scrubOpen tl = true →
      ∃ t, exec (.scrubPriorityRaise tl []) s = .next t ∧ t.scrub tl = ⟨((s.scrub tl).line + 1) % 1536, false⟩
        ∧ t.fld PAL_STATUS_SCRUB_ACTIVE tl = 0)
    ∧ (∀ (g : Nat) (pre post : List Banked), s.units.pal.banks = pre ++ .back tl.val g :: post →
      (∀ b ∈ pre, ∀ h, b ≠ .back tl.val h) →
      ∃ t, exec (.eccWriteBack tl) s = .next t ∧ t.units.pal.banks = pre ++ post ∧ t.errors g = 0
        ∧ (∀ h, h ≠ g → t.errors h = s.errors h) ∧ t.mem = s.mem ∧ t.poison = s.poison ∧ fieldsKeptBut counterFields s t)
    ∧ ∀ (g w k : Nat), palFirst tl ≤ g → g < palFirst tl + palGranules → w < 8 → k < 72 → s.poisoned g = false →
      s.errors g = BitVec.ofNat 576 (2 ^ (72 * w + k)) → s.settledBanks = true → s.on PAL_CTL_SCRUB_EN tl = true →
      (s.scrub tl).line < 1536 → s.scrubOpen tl = true →
      (∀ h, palFirst tl + 512 * (s.scrub tl).line ≤ h → h < palFirst tl + 512 * (s.scrub tl).line + 512 → h ≠ g →
        s.errors h = 0) →
      palFirst tl + 512 * (s.scrub tl).line ≤ g → g < palFirst tl + 512 * (s.scrub tl).line + 512 →
      ∃ t, exec (.patrolScrub tl [] true) s = .next t ∧ t.units.pal.banks = [.back tl.val g]
        ∧ t.fld PAL_ECC_CE_COUNT_CE_COUNT tl = min (s.fld PAL_ECC_CE_COUNT_CE_COUNT tl + 1) 0xffffffff
        ∧ t.on PAL_ECC_CE_LOG_VALID tl = true ∧ t.fld PAL_ECC_CE_LOG_WORD tl = w ∧ t.fld PAL_ECC_CE_LOG_SYNDROME tl = k
        ∧ t.fld PAL_ECC_CE_LOG_GRANULE tl = g - palFirst tl ∧ t.mem = s.mem

/-- A write of PAL.AC[n] sets the counter; one of PAL.AC_ADD adds its addend to AC[INDEX] modulo 2^32; every wait that the
write moves past its target is satisfied, and no other counter moves (R72). A write of PAL.INJECT takes its fields and arms
the injection where ARM is written 1 (R84). -/
def Obligations.PaletteRegisters : Prop :=
  ∀ (s : State) (p : HostNo) (tl : TileNo) (v : Word), s.running = true →
    (∀ n : CtrNo, s.writable p PAL_AC_VALUE tl n = true →
      ∃ t, exec (.palAcWrite p tl n v) s = .next t ∧ t.fld PAL_AC_VALUE tl n = v.toNat % 2 ^ 32 ∧ t.waitsNoted
        ∧ fieldsKeptBut [PAL_AC_VALUE] s t
        ∧ ∀ (u : TileNo) (m : CtrNo), (u ≠ tl ∨ m ≠ n) → t.fld PAL_AC_VALUE u m = s.fld PAL_AC_VALUE u m)
    ∧ (∀ n : CtrNo, n.val = bits v 41 32 → s.writable p PAL_AC_ADD_INDEX tl = true →
      ∃ t, exec (.palAcAdd p tl v) s = .next t
        ∧ t.fld PAL_AC_VALUE tl n = (s.fld PAL_AC_VALUE tl n + bits v 31 0) % 2 ^ 32 ∧ t.waitsNoted
        ∧ t.fld PAL_AC_ADD_INDEX tl = bits v 41 32 ∧ t.fld PAL_AC_ADD_ADDEND tl = bits v 31 0
        ∧ fieldsKeptBut [PAL_AC_VALUE, PAL_AC_ADD_INDEX, PAL_AC_ADD_ADDEND] s t
        ∧ ∀ (u : TileNo) (m : CtrNo), (u ≠ tl ∨ m ≠ n) → t.fld PAL_AC_VALUE u m = s.fld PAL_AC_VALUE u m)
    ∧ (s.writable p PAL_INJECT_ARM tl = true →
      ∃ t, exec (.palInjectArm p tl v) s = .next t ∧ t.on PAL_INJECT_ARM tl = (s.on PAL_INJECT_ARM tl || bits v 63 63 != 0)
        ∧ t.fld PAL_INJECT_DOUBLE tl = bits v 62 62 ∧ t.fld PAL_INJECT_WORD tl = bits v 56 54
        ∧ t.fld PAL_INJECT_BIT tl = bits v 53 48 ∧ t.fld PAL_INJECT_GRANULE tl = bits v 19 0 ∧ t = { s with regs := t.regs })

/-- A quarter's drain ends, CLOSING, once no accepted access to it is left, neither a transfer nor a read set nor a
write-back, and its gate reads DARK; until then the command has no effect (R67, R81, R369). A waking quarter, its ramp over,
becomes OPEN once its rows are written, which ends its wake; it holds +0 throughout with no granule poisoned, and every byte
outside it is as it was (R83). Where the spec leaves a point open or to be inferred, this is the model's choice of log
entries 7 and 54. -/
def Obligations.QuarterGates : Prop :=
  ∀ (s : State) (tl : TileNo) (q : Fin 4) (k : Nat), s.running = true → k = 6 * tl.val + 2 + q.val →
    (s.dom k = 5 → (∀ b ∈ s.units.pal.banks, ∀ g ∈ b.granules, inQuarter tl q (64 * g) = false) →
      ∃ t, exec (.gateDrainEnd tl q) s = .next t ∧ t.dom k = 0 ∧ k ∈ t.units.pwr.moving ∧ memoryKept s t
        ∧ fieldsKeptBut [PWR_DSTATE] s t ∧ ∀ d, d < 432 → d ≠ k → t.dom d = s.dom d)
    ∧ (s.dom k = 5 → (∃ b ∈ s.units.pal.banks, ∃ g ∈ b.granules, inQuarter tl q (64 * g) = true) →
      exec (.gateDrainEnd tl q) s = .next s)
    ∧ (s.dom k = 1 → s.units.pwr.moving.contains k = false →
      ∃ t, exec (.quarterInitDone tl q) s = .next t
        ∧ (∀ a, inQuarter tl q a = true → t.byte a = 0 ∧ (a % 64 = 0 → t.poisoned (a / 64) = false ∧ t.errors (a / 64) = 0))
        ∧ (∀ a, inQuarter tl q a = false → t.byte a = s.byte a)
        ∧ ((s.units.pwr.reqs = [] ∨ ∃ r, s.units.pwr.reqs = [r] ∧ r.dom = k) →
          t.dom k = 3 ∧ t.units.pwr.reqs = [] ∧ (∀ d, d < 432 → d ≠ k → t.dom d = s.dom d)
          ∧ fieldsKeptBut [PWR_DSTATE, PWR_DOM_CMD_GO, PWR_DOM_CMD_RESULT] s t))

/-- Removing power from quarter Q0, by the end of its OFF or by the thermal trip, clears all 1,024 arrival counters, the ECC
records and the refusal count to their reset values; removing power from another quarter leaves the counters unchanged
(R73). -/
def Obligations.QuarterPowerLoss : Prop :=
  ∀ (s : State) (tl : TileNo), s.running = true →
    (∀ (q : Fin 4) (k : DomNo) (r : DomReq), k.val = 6 * tl.val + 2 + q.val → s.headReq k = some r → r.op = .off →
      s.units.pwr.moving.contains k.val = true →
      ∃ t, exec (.domainTransitionDone k) s = .next t
        ∧ (q = 0 → t.palCleared tl)
        ∧ (q ≠ 0 → ∀ n : CtrNo, t.fld PAL_AC_VALUE tl n = s.fld PAL_AC_VALUE tl n))
    ∧ ∀ h : Int, 460 ≤ h → s.fld PWR_STATUS_MODE ≠ 2 → ∃ t, exec (.thermalTrip h) s = .next t ∧ t.palCleared tl

/-! ### Tensor moves, the matrix array, the vector engine and special functions -/

/-- PAL_FILL writes its pattern, repeated eight times, into every granule of its range that lies in the palette, where their
quarters are OPEN; those beyond are suppressed and counted, with OOB_WRITE; with AC_EN its counter adds 1 for each granule
written (R68, R74, R76). PAL_COPY writes its destination range as if every source granule had been read before any
destination granule was written, the ranges overlapping or not; a source granule beyond the palette reads as its last one
(R75, R76). Every other byte of memory is as it was, and the descriptor's work is over. Where the spec leaves a point open
or to be inferred, this is the model's choice of log entry 24. -/
def Obligations.PalFillAndCopy : Prop :=
  (∀ (s : State) (tl : TileNo) (d : Slot) (dst len : Nat), s.engaged (.copy tl) [0x10] d = true →
     s.settledBanks = true → dst = body d.words 0 19 0 → len = body d.words 0 51 32 →
     (∀ k, k < len → dst + k < palGranules → s.meets (some tl) (palFirst tl + dst + k) = .ok) →
     ∃ t, exec (.palFill tl) s = .next t ∧ t.over d.id
       ∧ (∀ a, t.byte a = if palFirst tl + dst ≤ a / 64 ∧ a / 64 < palFirst tl + min (dst + len) palGranules then
           BitVec.ofNat 8 (body d.words 1 63 0 / 256 ^ (a % 8)) else s.byte a)
       ∧ (∀ n, acOf d.words 2 = some n →
           t.fld PAL_AC_VALUE tl n = (s.fld PAL_AC_VALUE tl n + (min (dst + len) palGranules - min dst palGranules)) % 2 ^ 32)
       ∧ (palGranules < dst + len → ∀ x ∈ t.slots, x.id = d.id → x.has .oobWrite = true)
       ∧ t.fld SEQ_OOB_WRITE_COUNT_COUNT tl =
           min (s.fld SEQ_OOB_WRITE_COUNT_COUNT tl + (dst + len - max dst (min (dst + len) palGranules))) 0xffffffff)
  ∧ ∀ (s : State) (tl : TileNo) (d : Slot) (src dst len : Nat), s.engaged (.copy tl) [0x11] d = true →
      s.settledBanks = true → src = body d.words 1 19 0 → dst = body d.words 0 19 0 → len = body d.words 0 51 32 →
      s.clean (some tl.val) ((List.range len).map fun k => palFirst tl + min (src + k) (palGranules - 1)) →
      (∀ k, k < len → dst + k < palGranules → s.meets (some tl) (palFirst tl + dst + k) = .ok) →
      ∃ t, exec (.palCopy tl) s = .next t ∧ t.over d.id
        ∧ ∀ a, t.byte a = if palFirst tl + dst ≤ a / 64 ∧ a / 64 < palFirst tl + min (dst + len) palGranules then
            s.byte (64 * (palFirst tl + min (src + (a / 64 - palFirst tl - dst)) (palGranules - 1)) + a % 64) else s.byte a

/-- A TENSOR_COPY of one element between tensors of one type writes the bits that the source element's read delivers,
through the source's bounds box, into the destination element (R92, R98). Where the spec leaves a point open or to be
inferred, this is the model's choice of log entries 24 and 27. -/
def Obligations.TensorCopyElement : Prop :=
  ∀ (s : State) (tl : TileNo) (d : Slot) (k : List Nat) (w b c : Nat), s.engaged (.copy tl) [0x18] d = true →
    body d.words 3 35 35 = 0 → (d.tensor 0).type = (d.tensor 1).type → (d.tensor 1).type.isMx = false →
    (d.tensor 1).type ≠ .vote → (d.tensor 0).count = 1 → (d.tensor 1).count = 1 →
    (d.tensor 0).clamp (unravel (d.tensor 0).ext 0) = some k → (d.tensor 1).inBox (unravel (d.tensor 1).ext 0) = true →
    w = (d.tensor 1).type.bits → b = ((d.tensor 0).spotAt ((d.tensor 0).q k)).bit →
    c = ((d.tensor 1).spotAt ((d.tensor 1).q (unravel (d.tensor 1).ext 0))).bit → b % 512 + w ≤ 512 → c % 512 + w ≤ 512 →
    s.settledBanks = true → s.clean (some tl.val) [b / 512, c / 512] →
    ∃ t, exec (.tensorCopy tl) s = .next t ∧ t.over d.id
      ∧ (∀ n, n < w / 8 → t.byte (c / 8 + n) = s.byte (b / 8 + n))
      ∧ ∀ a, a < c / 8 ∨ c / 8 + w / 8 ≤ a → t.byte a = s.byte a

/-- Every typed operation of a tile ends its descriptor's work: the tensor moves, NORM and SOFTMAX in their four modes, and
an unpaced VE_STROKE in its three (R97, R144, R167, R172, R203). Where the spec leaves a point open or to be inferred, this
is the model's choice of log entry 24. -/
def Obligations.TileOperationsEnd : Prop :=
  ∀ (s : State) (tl : TileNo) (d : Slot),
    (s.engaged (.copy tl) [0x18] d = true → ∃ t, exec (.tensorCopy tl) s = .next t ∧ t.over d.id)
    ∧ (s.engaged (.copy tl) [0x19] d = true → ∃ t, exec (.tensorGather tl) s = .next t ∧ t.over d.id)
    ∧ (s.engaged (.copy tl) [0x1A] d = true → ∃ t, exec (.tensorScatter tl) s = .next t ∧ t.over d.id)
    ∧ (s.engaged (.ve tl) [0x30] d = true → ∃ t, exec (.norm tl) s = .next t ∧ t.over d.id)
    ∧ (s.engaged (.ve tl) [0x31] d = true →
        (nsMode d.words = 0 → ∃ t, exec (.softmaxFull tl) s = .next t ∧ t.over d.id)
        ∧ (nsMode d.words = 1 → ∃ t, exec (.softmaxPartial tl) s = .next t ∧ t.over d.id)
        ∧ (nsMode d.words = 2 → ∃ t, exec (.softmaxApply tl) s = .next t ∧ t.over d.id)
        ∧ (nsMode d.words = 3 → ∃ t, exec (.softmaxMerge tl) s = .next t ∧ t.over d.id))
    ∧ (s.engaged (.ve tl) [0x28] d = true → vePaced d.words = false →
        (d.stroke.mode = 0 → ∃ t, exec (.veStrokeMap tl) s = .next t ∧ t.over d.id)
        ∧ (d.stroke.mode = 1 → ∃ t, exec (.veStrokeReduce tl) s = .next t ∧ t.over d.id)
        ∧ (d.stroke.mode = 2 → ∃ t, exec (.veStrokeScan tl) s = .next t ∧ t.over d.id))

/-- While no error stands in memory, none is armed and nothing accepted waits, an operation of a tile's engine writes
no byte but those of the elements of its outputs, and of those of the array's other half, which a pace release can
carry along: fills and copies, tensor moves, products, strokes, NORM and SOFTMAX (R41, R67, R74, R75, R98 to R103,
R112, R117, R143, R171, R176). Where the spec leaves a point open or to be inferred, this is the model's choice of log
entries 24, 31 and 77. -/
def Obligations.TileOperationsStore : Prop :=
  ∀ (i : Instr) (e : Engine) (s t : State), s.upsets = [] → s.settledBanks = true →
    (∀ u : TileNo, s.on PAL_INJECT_ARM u = false) →
    ((∃ tl, e = .copy tl ∧ i ∈ [.palFill tl, .palCopy tl, .tensorCopy tl, .tensorGather tl, .tensorScatter tl])
      ∨ (∃ tl h, e = .mx tl h ∧ i ∈ [.mxProduct tl h, .mxFirstFeed tl h, .mxPassStart tl h, .mxPaceRelease tl h])
      ∨ ∃ tl, e = .ve tl ∧ i ∈ [.veStrokeMap tl, .veStrokeReduce tl, .veStrokeScan tl, .vePaceRelease tl, .norm tl,
          .softmaxFull tl, .softmaxPartial tl, .softmaxApply tl, .softmaxMerge tl]) →
    exec i s = .next t → ∀ a, ¬ s.stores e a → t.byte a = s.byte a

/-- A product goes through the array, its reads all served and no pace of the other half holding the wavefront: MX_PRODUCT
loads its first weight tile and, not stamped, feeds it; its first feed launches it and feeds the first pass, a pass start
the next one, every vector in turn; a pace release feeds one vector; the last vector of the last pass ends the descriptor's
work; an empty product ends at once, and one with K = 0 ends with EMPTY_REDUCE (R111, R115, R116, R117, R118, R120, R229).
Where the spec leaves a point open or to be inferred, this is the model's choice of log entries 31 and 84. -/
def Obligations.MxProgress : Prop :=
  ∀ (s : State) (tl : TileNo) (h : Half) (d : Slot) (x : Product), s.engaged (.mx tl h) [0x20] d = true →
    s.healthy = true → s.otherUnpaced tl h = true → x = productOf tl h d →
    (s.mxRun tl h = none →
      ((x.outer = [] ∨ x.n = 0) → ∃ t, exec (.mxProduct tl h) s = .next t ∧ t.over d.id ∧ memoryKept s t)
      ∧ (x.outer ≠ [] → x.n ≠ 0 → x.k = 0 →
        ∃ t, exec (.mxProduct tl h) s = .next t ∧ t.over d.id ∧ ∀ y ∈ t.slots, y.id = d.id → y.has .emptyReduce = true)
      ∧ (x.outer ≠ [] → x.n ≠ 0 → x.k ≠ 0 → d.unlaunched = true →
        ∃ t r, exec (.mxProduct tl h) s = .next t ∧ t.mxRun tl h = some r ∧ r.slot = d.id ∧ r.pass = 0 ∧ r.next = 0
          ∧ r.fed = false ∧ memoryKept s t)
      ∧ (x.outer ≠ [] → x.n ≠ 0 → x.k ≠ 0 → d.unlaunched = false → mxPaced d.words = false →
        ∃ t, exec (.mxProduct tl h) s = .next t ∧ (x.total = 1 → t.over d.id ∧ t.mxRun tl h = none)
          ∧ (1 < x.total → ∃ r, t.mxRun tl h = some r ∧ r.slot = d.id ∧ r.pass = 0 ∧ r.next = x.outer.length
            ∧ r.shadow.isSome = true)))
    ∧ ∀ r, s.mxRun tl h = some r → r.slot = d.id →
      (r.pass = 0 → r.next = 0 → r.fed = false → d.stampMet = true → x.outer ≠ [] → 1 ≤ x.total → mxPaced d.words = false →
        ∃ t, exec (.mxFirstFeed tl h) s = .next t ∧ (x.total = 1 → t.over d.id ∧ t.mxRun tl h = none)
          ∧ (1 < x.total → ∃ r', t.mxRun tl h = some r' ∧ r'.pass = 0 ∧ r'.next = x.outer.length ∧ r'.shadow.isSome = true))
      ∧ (r.fed = true → r.next = x.outer.length → x.outer ≠ [] → r.shadow.isSome = true → mxPaced d.words = false →
        r.pass + 1 < x.total →
        ∃ t, exec (.mxPassStart tl h) s = .next t ∧ (r.pass + 2 = x.total → t.over d.id ∧ t.mxRun tl h = none)
          ∧ (r.pass + 2 < x.total → ∃ r', t.mxRun tl h = some r' ∧ r'.pass = r.pass + 1 ∧ r'.next = x.outer.length))
      ∧ (r.fed = true → mxPaced d.words = true → (x.at r.pass).2 = 0 → r.next < x.outer.length →
        paceOpen s x r.next = true →
        ∃ t, exec (.mxPaceRelease tl h) s = .next t
          ∧ (r.next + 1 = x.outer.length → r.pass + 1 = x.total → t.over d.id ∧ t.mxRun tl h = none)
          ∧ ((r.next + 1 < x.outer.length ∨ r.pass + 1 < x.total) →
            ∃ r', t.mxRun tl h = some r' ∧ r'.pass = r.pass ∧ r'.next = r.next + 1))

/-- A pace release of a VE_STROKE issues its next wave: the run goes on to the wave after it, or, that wave being the last
or its reads having failed, the descriptor's work is over (R149, R152). Where the spec leaves a point open or to be
inferred, this is the model's choice of log entry 28. -/
def Obligations.VePace : Prop :=
  ∀ (s : State) (tl : TileNo) (d : Slot) (r : VeRun), s.engaged (.ve tl) [0x28] d = true → s.veRun tl = some r →
    wavePaceOpen s d.stroke d tl ((wavesOf d.stroke).getD r.wave []) = true →
    ∃ t, exec (.vePaceRelease tl) s = .next t
      ∧ ((t.over d.id ∧ t.veRun tl = none) ∨ ∃ r', t.veRun tl = some r' ∧ r'.wave = r.wave + 1 ∧ r'.slot = r.slot)
      ∧ ((wavesOf d.stroke).length ≤ r.wave + 1 → t.over d.id)
      ∧ (s.healthy = true → r.wave + 1 < (wavesOf d.stroke).length → d.stroke.mode ≠ 2 →
          ∃ r', t.veRun tl = some r' ∧ r'.wave = r.wave + 1)

/-- A write of MX.PARK parks the array: its descriptor completes with PARKED and what it holds is discarded; a half stalled
past PARK_THRESH beside a busy one is parked likewise; the park takes effect with its record in MX.PARK_LOG; RELEASE lets a
parked half go on (R126, R127). A change of SPLIT takes effect at once where no half has a descriptor in progress, and waits
as SPLIT_PENDING where one has, until both are idle (R125); a 1 that the sharing policy does not permit is discarded and
recorded (R128); in whole-array mode the right half's fields read 0 (R129). Where the spec leaves a point open or to be
inferred, this is the model's choice of log entries 32, 82 and 83. -/
def Obligations.ParksAndSplit : Prop :=
  (∀ (s : State) (p : HostNo) (tl : TileNo) (right : Bool) (v : Word) (d : Slot), s.running = true →
      (s.writable p MX_PARK_PARK_L tl = true → s.on MX_STATUS_SPLIT_ACTIVE tl = false → s.parked tl false = false →
        bits v 0 0 = 1 → bits v 8 8 = 0 → s.working (.mx tl .whole) = some d →
        ∃ t, exec (.park p tl v) s = .next t ∧ t.parked tl false = true ∧ t.on MX_PARK_PARK_L tl = true
          ∧ t.units.mx.parks = s.units.mx.parks ++ [(tl.val, false, 0)] ∧ t.over d.id ∧ t.mxRun tl .whole = none
          ∧ (∀ y ∈ t.slots, y.id = d.id → y.has .parked = true) ∧ fieldsKeptBut [MX_STATUS_PARKED_L, MX_PARK_PARK_L] s t)
      ∧ (s.on MX_STATUS_SPLIT_ACTIVE tl = true → s.fld MX_PARK_THRESH_TICKS tl ≠ 0 →
        s.fld MX_PARK_THRESH_TICKS tl ≤ s.stallAge d →
        s.working (mxEngine tl right true) = some d → s.busy (mxEngine tl (!right) true) = true →
        ∃ t, exec (.parkThreshold tl right) s = .next t ∧ t.parked tl right = true ∧ t.over d.id
          ∧ (∀ y ∈ t.slots, y.id = d.id → y.has .parked = true)
          ∧ (s.parked tl right = false → t.units.mx.parks = s.units.mx.parks ++ [(tl.val, right, 1)]))
      ∧ (∀ (reason : Nat) (pre post : List (Nat × Bool × Nat)), s.units.mx.parks = pre ++ (tl.val, right, reason) :: post →
        (∀ e ∈ pre, e.1 ≠ tl.val ∨ e.2.1 ≠ right) → s.on MX_PARK_LOG_VALID tl = false → reason < 16 →
        ∃ t, exec (.parkTakeEffect tl right) s = .next t ∧ t.units.mx.parks = pre ++ post
          ∧ t.fld (if right then MX_PARK_PARK_R else MX_PARK_PARK_L) tl = 0 ∧ t.on MX_PARK_LOG_VALID tl = true
          ∧ t.fld MX_PARK_LOG_HALF tl = (if right then 1 else 0) ∧ t.fld MX_PARK_LOG_REASON tl = reason
          ∧ t.fld MX_PARK_LOG_START tl = s.now40 tl)
      ∧ (s.writable p MX_PARK_RELEASE_L tl = true → s.parked tl false = true → halfStopped s tl false = false →
        bits v 9 8 = 1 → bits v 1 0 = 0 →
        ∃ t, exec (.releaseHalf p tl v) s = .next t ∧ t.parked tl false = false ∧ t.fld MX_PARK_PARK_L tl = 0
          ∧ fieldsKeptBut [MX_STATUS_PARKED_L, MX_PARK_PARK_L] s t ∧ ∀ e ∈ t.units.mx.parks, e.1 ≠ tl.val ∨ e.2.1 = true))
  ∧ ∀ (s : State) (p : HostNo) (tl : TileNo) (v : Word), s.running = true →
      (s.writable p MX_CTL_SPLIT tl = true → bits v 0 0 ≠ s.fld MX_CTL_SPLIT tl →
        ((bits v 0 0 = 0 ∨ (s.rightOf tl).isSome = true) →
          ∃ t, exec (.splitWrite p tl v) s = .next t ∧ t.fld MX_CTL_SPLIT tl = bits v 0 0
            ∧ (mxIdle s tl = true → t.fld MX_STATUS_SPLIT_ACTIVE tl = bits v 0 0 ∧ t.on MX_STATUS_SPLIT_PENDING tl = false
                ∧ (bits v 0 0 ≠ s.fld MX_STATUS_SPLIT_ACTIVE tl → bits v 0 0 = 0 → t.rightCleared tl))
            ∧ (mxIdle s tl = false → bits v 0 0 ≠ s.fld MX_STATUS_SPLIT_ACTIVE tl →
                t.fld MX_STATUS_SPLIT_ACTIVE tl = s.fld MX_STATUS_SPLIT_ACTIVE tl ∧ t.on MX_STATUS_SPLIT_PENDING tl = true)
            ∧ memoryKept s t ∧ fieldsKeptBut [MX_CTL_SPLIT, MX_STATUS_SPLIT_ACTIVE, MX_STATUS_SPLIT_PENDING,
                MX_STATUS_PARKED_R, MX_PARK_PARK_R] s t)
        ∧ (bits v 0 0 = 1 → (s.rightOf tl).isNone = true →
          ∃ t, exec (.splitWrite p tl v) s = .next t ∧ t.fld MX_CTL_SPLIT tl = s.fld MX_CTL_SPLIT tl
            ∧ t.fld HOST_LOCKED_COUNT p = min (s.fld HOST_LOCKED_COUNT p + 1) 0xffffffff ∧ fieldsKeptBut portRecords s t))
      ∧ (s.on MX_STATUS_SPLIT_PENDING tl = true → mxIdle s tl = true →
        ∃ t, exec (.splitTakeEffect tl) s = .next t ∧ t.fld MX_STATUS_SPLIT_ACTIVE tl = s.fld MX_CTL_SPLIT tl
          ∧ t.on MX_STATUS_SPLIT_PENDING tl = false ∧ (s.fld MX_CTL_SPLIT tl = 0 → t.rightCleared tl) ∧ memoryKept s t
          ∧ fieldsKeptBut [MX_STATUS_SPLIT_ACTIVE, MX_STATUS_SPLIT_PENDING, MX_STATUS_PARKED_R, MX_PARK_PARK_R] s t)

/-- A stall age that has reached THRESH_A is logged, with its cause and start, and reported to the descriptor's group, once
(R119, R150, R207); one that has reached THRESH_B, or QCFG.STALL_TICKS while its atelier quiesces, ends the descriptor with
STALL_ABORT (R119, R150, R299, R348). Where the spec leaves a point open or to be inferred, this is the model's choice of
log entries 33, 35 and 87. -/
def Obligations.Stalls : Prop :=
  ∀ (s : State) (u : StallUnit) (d : Slot), s.running = true →
    (∀ cause : Fin 16, s.stallSlot u = some d → s.threshA u ≠ 0 → d.reported = false → s.threshA u ≤ s.stallAge d →
      ∃ t r, exec (.stallReport u cause) s = .next t ∧ t.units.rings.cqWait = s.units.rings.cqWait ++ [r]
        ∧ r.group = d.ring / 64 ∧ r.slot = none ∧ bits (r.bits.extractLsb' 0 64) 62 60 = 1
        ∧ (∀ y ∈ t.slots, y.id = d.id → y.reported = true)
        ∧ (s.on (stallRegs u).2.2.1 (stallInst u) = false → t.on (stallRegs u).2.2.1 (stallInst u) = true
          ∧ t.fld (stallRegs u).2.2.2.2.1 (stallInst u) = s.stallCause u cause.val
          ∧ t.fld (stallRegs u).2.2.2.2.2 (stallInst u) = d.moved % 2 ^ 40))
    ∧ (s.stallSlot u = some d → s.threshB u ≠ 0 → s.threshB u ≤ s.stallAge d → s.units.hbm.repairing = [] →
      ∃ t, exec (.stallAbort u) s = .next t ∧ t.over d.id ∧ ∀ y ∈ t.slots, y.id = d.id → y.has .stallAbort = true)
    ∧ (s.slot d.id = some d → d.phase = .issued → d.ages = true → (∀ e, d.on = some e → s.working e = some d) →
      s.fld ATL_STATUS_STATE d.atelier = 2 → s.fld ATL_QCFG_STALL_TICKS d.atelier ≠ 0 →
      s.fld ATL_QCFG_STALL_TICKS d.atelier ≤ s.stallAge d → s.units.hbm.repairing = [] →
      ∃ t, exec (.quiesceStallAbort d.id) s = .next t ∧ t.over d.id ∧ ∀ y ∈ t.slots, y.id = d.id → y.has .stallAbort = true)

/-! ### Rings -/

/-- A sweep reads the summary of every polled group; one that falls due while another runs is counted in OVERRUN and delayed
(R186). A summary read takes CQ_HEAD, and reads the TAILs where the summary has changed or a ring waits for them; a failed
one sets DB_READ_ERR, clears ACTIVE and reports to the group (R186, R187). A TAIL read gives each ring of the group that
runs or has halted its new TAIL, and one enabled since the sweep began takes none yet (R187); one that lies behind is
discarded, with DB_BACKWARD; one that overfills a running ring halts it with cause 3; SUMMARY_SEEN takes the sweep's summary
(R186, R187, R190). Where the spec leaves a point open or to be inferred, this is the model's choice of log entries 22 and
36. -/
def Obligations.PollerReads : Prop :=
  (∀ (s : State) (g : GrpNo), s.running = true →
     (s.units.rings.sweeping = false →
       ∃ t, exec .pollSweep s = .next t ∧ t.units.rings.sumReads = s.polled
         ∧ (s.polled ≠ [] → t.units.rings.sweeping = true) ∧ ∀ h ∈ s.polled, t.sentOrWaits (s.summaryRead h))
     ∧ (s.units.rings.sweeping = true → s.units.rings.sweepOwed = false →
       ∃ t, exec .pollSweep s = .next t ∧ t = { s with regs := t.regs, units := t.units }
         ∧ t.units = { s.units with rings := { s.units.rings with sweepOwed := true } }
         ∧ t.fld RING_POLL_STATUS_OVERRUN = min (s.fld RING_POLL_STATUS_OVERRUN + 1) 0xffffffff
         ∧ fieldsKeptBut [RING_POLL_STATUS_OVERRUN] s t)
     ∧ (s.units.rings.sumReads.contains g.val = true → s.waitsTag (s.summaryRead g) = false →
       (∀ d : Summary, ∃ t, exec (.summaryReadReturn g (some d)) s = .next t
         ∧ t.fld GRP_CQ_POS_HEAD_SEEN g = d.cqHead.toNat
         ∧ (d.cqHead.toNat ≠ s.fld GRP_CQ_POS_HEAD_SEEN g → g.val ∉ t.units.rings.cqHeld)
         ∧ (s.units.rings.sweepOwed = false → t.units.rings.sumReads = s.units.rings.sumReads.filter (· ≠ g.val))
         ∧ ((d.summary.toNat ≠ s.fld GRP_SUMMARY_SEEN_VALUE g ∨ s.wantsTails g = true) →
             ((s.groupOwner g).any fun a => s.fetches a) = true →
             (g.val, d.summary) ∈ t.units.rings.tailReads ∧ t.sentOrWaits (s.tailRead g)))
       ∧ ∀ c ∈ [Instr.summaryReadReturn g none, .hostReadTimeout (.doorbell g)],
         ∃ t, exec c s = .next t ∧ t.on GRP_STATUS_DB_READ_ERR g = true ∧ t.on GRP_DB_ACTIVE g = false ∧ t.reports g 3))
  ∧ ∀ (s : State) (g : GrpNo) (sum : Word), s.running = true →
      (s.units.rings.tailReads.find? fun x => x.1 = g.val) = some (g.val, sum) → s.waitsTag (s.tailRead g) = false →
      (∀ ts : List (BitVec 32), ts.length = 64 →
        ∃ t, exec (.tailReadReturn g (some ts)) s = .next t ∧ t.fld GRP_SUMMARY_SEEN_VALUE g = sum.toNat
          ∧ ∀ (i : Fin 64) (r : Nat) (x : BitVec 32), ts[i.val]? = some x → r = 64 * g.val + i.val →
            (s.units.rings.late.contains (r, true) = true → t.fld RING_POS_TAIL r = s.fld RING_POS_TAIL r)
            ∧ (s.units.rings.late.contains (r, true) = false →
              (s.fld RING_STATE_STATE r = 1 ∨ s.fld RING_STATE_STATE r = 2) →
            (0 ≤ sdiff x.toNat (s.fld RING_POS_TAIL r) 32 → t.fld RING_POS_TAIL r = x.toNat
              ∧ (s.fld RING_STATE_STATE r = 1 →
                ((2 ^ s.fld RING_BASE_LOG2_ENTRIES r : Nat) : Int) < sdiff x.toNat (s.fld RING_RETIRED_RETIRED r) 32 →
                t.fld RING_STATE_STATE r = 2 ∧ t.fld RING_STATE_HALT_CAUSE r = 3 ∧ t.reports g 2))
            ∧ (sdiff x.toNat (s.fld RING_POS_TAIL r) 32 < 0 →
              t.fld RING_POS_TAIL r = s.fld RING_POS_TAIL r ∧ t.on GRP_STATUS_DB_BACKWARD g = true)))
      ∧ ∃ t, exec (.tailReadReturn g none) s = .next t ∧ t.on GRP_STATUS_DB_READ_ERR g = true ∧ t.on GRP_DB_ACTIVE g = false
          ∧ t.reports g 3

/-- A ring's next read covers what R189 allows, and its return takes the entries in order up to the first whose SEQ is
stale, which halts the ring with cause 1; a failed read halts it with cause 2; each entry takes the ring's context (R189,
R190, R196). A schedule table that has been read becomes its ring's (R208). Where the spec leaves a point open or to be
inferred, this is the model's choice of log entries 22 and 36. -/
def Obligations.RingFetches : Prop :=
  ∀ (s : State) (r : RingNo), s.running = true →
    (s.fetchable r ≠ 0 →
      ∃ t, exec (.ringFetch r) s = .next t ∧ t.sentOrWaits (s.ringRead r (s.fld RING_POS_FETCHED r) (s.fetchable r))
        ∧ t.units.rings.fetching = s.units.rings.fetching ++ [(r.val, s.fld RING_POS_FETCHED r, s.fetchable r)])
    ∧ (∀ p n k : Nat, (s.units.rings.fetching.find? fun x => x.1 = r.val) = some (r.val, p, n) →
      s.waitsTag (s.ringRead r p n) = false → s.fld RING_STATE_STATE r = 1 → s.units.rings.fresh.contains r.val = false →
      s.units.rings.stale.contains r.val = false →
      s.fld RING_POS_FETCHED r = p → ((s.ringOwner r).any fun a => s.fetches a) = true →
      (∀ ws : List Descriptor, ws.length = n → k = entriesInOrder p (s.fld RING_BASE_LOG2_ENTRIES r) ws →
        ∃ t, exec (.ringFetchReturn r (some ws)) s = .next t ∧ t.fld RING_POS_FETCHED r = (p + k) % 2 ^ 32
          ∧ (k < n → t.fld RING_STATE_STATE r = 2 ∧ t.fld RING_STATE_HALT_CAUSE r = 1 ∧ t.reports (r.val / 64) 2)
          ∧ ∀ j w, j < k → ws[j]? = some w → s.delivered r ((p + j) % 2 ^ 32) = false →
            ∃ f ∈ t.units.rings.fetched, f.ring = r.val ∧ f.pos = (p + j) % 2 ^ 32 ∧ f.words = w
              ∧ ((∀ x ∈ ws.take j, opcodeOf x ≠ 1) → f.ctx = s.ringCtx r))
      ∧ ∀ c ∈ [Instr.ringFetchReturn r none, .hostReadTimeout (.ring r)],
        ∃ t, exec c s = .next t ∧ t.fld RING_STATE_STATE r = 2 ∧ t.fld RING_STATE_HALT_CAUSE r = 2
          ∧ t.reports (r.val / 64) 2)
    ∧ ∀ (a : AtlNo) (q : Nat) (rest : List Nat),
      extractFirst (fun x => s.ringOwner x = some a.val) s.units.rings.schedReads = (some q, rest) →
      s.schedOut a = true → q ∉ rest →
      (∀ es : List (BitVec 32), es.length ≤ 1024 →
        ∃ t, exec (.schedTableRead a es) s = .next t ∧ t.units.rings.schedReads = rest
          ∧ (t.units.rings.schedules.find? fun e => e.1 = q) = some (q, es))
      ∧ (s.fld RING_STATE_STATE q = 1 →
        ∃ t, exec (.hostReadTimeout (.schedule a)) s = .next t ∧ t.fld RING_STATE_STATE q = 2
          ∧ t.fld RING_STATE_HALT_CAUSE q = 2 ∧ t.units.rings.schedReads = rest)

/-- A ring whose turn it is delivers its next descriptor into a slot of its target (R183, R189), with what it was fetched
with; one that the header checks fail completes at once with their statuses, and its record waits for the CQ (R192). Where
the spec leaves a point open or to be inferred, this is the model's choice of log entry 34. -/
def Obligations.Delivery : Prop :=
  ∀ (s : State) (r : RingNo) (f : Fetched) (starts : Bool) (a target : Nat), s.running = true →
    s.nextDelivery r = some (f, starts) → s.ringOwner r = some a → target = s.fld RING_CFG_TARGET r →
    s.canDeliver r = true → s.turnOf target = some r.val → (∀ x ∈ s.slots, x.id < s.units.rings.nextId) →
    (∀ q ∈ s.units.pwr.reqs, q.src ≠ .descriptor s.units.rings.nextId) →
    ∃ t, exec (.descriptorDeliver r) s = .next t ∧ t.units.rings.nextId = s.units.rings.nextId + 1
      ∧ (∀ x ∈ t.units.rings.fetched, x.ring = r.val → x.pos ≠ f.pos)
      ∧ (s.headerFaults a target r f.pos f.words = [] → ¬ (0x40 ≤ target ∧ target < 0x50 ∧ s.dieFailed (target - 0x40) = true) →
        ∃ y ∈ t.slots, y.id = s.units.rings.nextId ∧ y.phase = .delivered ∧ y.target = target ∧ y.ring = r.val
          ∧ y.pos = f.pos ∧ y.words = f.words ∧ y.ctx = f.ctx ∧ y.atelier = a)
      ∧ (s.headerFaults a target r f.pos f.words ≠ [] →
        ∃ y ∈ t.slots, y.id = s.units.rings.nextId ∧ y.phase = .recorded ∧ y.words = f.words
          ∧ (∀ x ∈ s.headerFaults a target r f.pos f.words, y.has x.1 = true)
          ∧ ∃ q ∈ t.units.rings.cqWait, q.slot = some s.units.rings.nextId ∧ q.group = r.val / 64)

/-- An engine takes the earliest eligible descriptor for it: START is the count of its target, and SEQ.LAST_ISSUE says so on
a tile; a PAL_FILL whose body is well formed and whose granules are its atelier's is in progress then (R192, R197, R199,
R204). A descriptor whose work is over completes: it is recorded where a record is asked for, else it retires, and RETIRED
moves past it (R203, R204). The return of a FENCE_HOST read confirms it and frees its tag (R201, R202). Where the spec
leaves a point open or to be inferred, this is the model's choice of log entry 34. -/
def Obligations.IssueAndComplete : Prop :=
  ∀ (s : State) (d : Slot), s.running = true →
    (∀ e : Engine, s.nextIssue e = some d → s.units.hbm.repairing = [] →
      ∃ t, exec (.descriptorIssue e) s = .next t
        ∧ ((∃ y ∈ t.slots, y.id = d.id ∧ y.on = some e ∧ (y.phase = .issued ∨ y.phase = .done) ∧ y.start = s.now40 d.target
            ∧ y.words = d.words)
          ∨ ∀ y ∈ t.slots, y.id = d.id → y.phase = .recorded)
        ∧ (d.target < 64 → t.fld SEQ_LAST_ISSUE_OPCODE d.target = opcodeOf d.words
          ∧ t.fld SEQ_LAST_ISSUE_POSITION d.target = d.pos % 2 ^ 32)
        ∧ (∀ tl : TileNo, e = .copy tl → opcodeOf d.words = 0x10 → bit (s.fld RISK_RNG_CHECK_ARMED) d.atelier = false →
          body d.words 0 63 52 = 0 → body d.words 0 31 20 = 0 → body d.words 2 63 10 = 0 → zeroFrom d.words 3 = true →
          body d.words 0 51 32 ≠ 0 → body d.words 0 19 0 + body d.words 0 51 32 ≤ palGranules →
          s.allowed d.atelier (64 * (palFirst tl + body d.words 0 19 0))
            (64 * (palFirst tl + body d.words 0 19 0 + body d.words 0 51 32) - 1) = true →
          ∃ y ∈ t.slots, y.id = d.id ∧ y.on = some e ∧ y.phase = .issued))
    ∧ (s.slot d.id = some d → d.phase = .done → d.outstanding = 0 → (∀ r ∈ s.units.var.runs, r.slot ≠ d.id) →
      (∀ q ∈ s.units.pwr.reqs, q.src ≠ .descriptor d.id) →
      ∃ t, exec (.descriptorComplete d.id) s = .next t
        ∧ (d.records = true → (∀ y ∈ t.slots, y.id = d.id → y.phase = .recorded ∧ y.on = none)
          ∧ s.completion d ∈ t.units.rings.cqWait)
        ∧ (d.records = false → (∀ y ∈ t.slots, y.id ≠ d.id)
          ∧ (d.pos = s.fld RING_RETIRED_RETIRED d.ring → s.units.rings.retDone.contains (d.ring, (d.pos + 1) % 2 ^ 32) = false →
            t.fld RING_RETIRED_RETIRED d.ring = (d.pos + 1) % 2 ^ 32)))
    ∧ (s.slot d.id = some d → d.fence = .reading →
      ∃ t, exec (.fenceHostReadReturn d.id) s = .next t ∧ t.slot d.id = some { d with fence := .confirmed }
        ∧ t.fld RING_TXN_IN_USE = s.fld RING_TXN_IN_USE - 1 ∧ memoryKept s t ∧ fieldsKeptBut tagFields s t)

/-- NOP, STREAM_SET, COUNTER_ADD and HOST_WRITE, eligible and well formed, run in their sequencer: COUNTER_ADD adds its
addend to its atelier's counter, modulo 2^32, HOST_WRITE writes its 8 bytes through its atelier's port, STREAM_SET completes
as it issues (R72, R193, R196, R203). Where the spec leaves a point open or to be inferred, this is the model's choice of
log entry 34. -/
def Obligations.SelfExecuted : Prop :=
  ∀ (s : State) (id : Nat) (d : Slot), s.running = true →
    (s.selfRun id 0 = some d → zeroFrom d.words 0 = true → ∃ t, exec (.nop id) s = .next t ∧ t.over d.id)
    ∧ (s.selfRun id 1 = some d → waitKind d.words = 0 → stampOf d.words = 0 → body d.words 2 63 1 = 0 →
      zeroFrom d.words 3 = true →
      ∃ t, exec (.streamSet id) s = .next t ∧ (∀ y ∈ t.slots, y.id = d.id → y.phase = .recorded)
        ∧ (d.records = true → ∃ q ∈ t.units.rings.cqWait, q.slot = some d.id))
    ∧ (bit (s.fld RISK_RNG_CHECK_ARMED) d.atelier = false →
      (s.selfRun id 2 = some d → body d.words 0 31 16 = 0 → zeroFrom d.words 1 = true →
        s.ownsCounter d.atelier (body d.words 0 15 10) (body d.words 0 9 0) = true →
        ∃ t, exec (.counterAdd id) s = .next t ∧ t.over d.id
          ∧ t.fld PAL_AC_VALUE (body d.words 0 15 10) (body d.words 0 9 0)
            = (s.fld PAL_AC_VALUE (body d.words 0 15 10) (body d.words 0 9 0) + body d.words 0 63 32) % 2 ^ 32
          ∧ ∀ (tl : TileNo) (n : CtrNo), (tl.val, n.val) ≠ (body d.words 0 15 10, body d.words 0 9 0) →
            t.fld PAL_AC_VALUE tl n = s.fld PAL_AC_VALUE tl n)
      ∧ (s.selfRun id 3 = some d → body d.words 0 2 0 = 0 → zeroFrom d.words 2 = true →
        s.on ATL_STATUS_ORPHANED d.atelier = false →
        ∃ t, exec (.hostWrite id) s = .next t ∧ t.over d.id
          ∧ .hostWrite (s.atelierPort d.atelier) (BitVec.ofNat 64 (body d.words 0 63 0)) (wordBytes (body d.words 1 63 0))
            ∈ t.out))

/-- A record that waits is written at CQ_TAIL through its atelier's port, in a CQ that is not full, and CQ_TAIL advances; a
write that fails sets CQ_WRITE_ERR and holds the group's records (R204); one that finds no transaction tag waits, and is
counted once (R202). A message whose cause waits is sent from its MSI-X entry after the mirror, or is left pending where it
is masked; a vector that is unmasked sends what is pending (R188, R206, R352). Where the spec leaves a point open or to be
inferred, this is the model's choice of log entry 36. -/
def Obligations.CompletionQueues : Prop :=
  ∀ (s : State) (g : GrpNo) (a : Nat), s.running = true → s.groupOwner g = some a → s.holdsRecords a = false →
    (∀ (r : CqRecord) (rest : List CqRecord) (k n : Nat),
      extractFirst (fun x : CqRecord => x.group = g.val) s.units.rings.cqWait = (some r, rest) →
      s.cqFull g = false → s.units.rings.cqHeld.contains g.val = false →
      k = s.fld GRP_CQ_LOG2_ENTRIES g → n = s.fld GRP_CQ_POS_TAIL g → ∀ ok : Bool,
      (s.tagFree (some a) = false → ∃ t, exec (.cqRecordWrite g ok) s = .next t ∧ t.out = s.out ∧ fieldsKeptBut tagFields s t
        ∧ t.fld RING_TXN_WAIT_COUNT =
            if r.waited then s.fld RING_TXN_WAIT_COUNT else min (s.fld RING_TXN_WAIT_COUNT + 1) 0xffffffff)
      ∧ (s.tagFree (some a) = true → ∃ t more, exec (.cqRecordWrite g ok) s = .next t
        ∧ t.out = s.out ++ .hostWrite (s.atelierPort a) (s.cqBase g + BitVec.ofNat 64 (32 * (n % 2 ^ k)))
            (bytesOf 32 (r.bits ||| if n / 2 ^ k % 2 = 0 then 0x8000000000000000 else 0).toNat) :: more
        ∧ (ok = true → t.units.rings.cqWait = rest ∧ t.fld GRP_CQ_POS_TAIL g = (n + 1) % 2 ^ 32
          ∧ (r.irq = true → (t.holdoff g).waiting = true) ∧ ∀ id, r.slot = some id → ∀ y ∈ t.slots, y.id ≠ id)
        ∧ (ok = false → more = [] ∧ t.units.rings.cqWait = s.units.rings.cqWait ∧ t.fld GRP_CQ_POS_TAIL g = n
          ∧ t.on GRP_STATUS_CQ_WRITE_ERR g = true ∧ g.val ∈ t.units.rings.cqHeld)))
    ∧ (∀ c, (c = .msixSend g ∧ (s.holdoff g).running = false) ∨ (c = .msixHoldoffEnd g ∧ (s.holdoff g).running = true) →
      (s.holdoff g).waiting = true → ∀ v e, v = s.fld GRP_IRQ_VECTOR g → e = s.msixEntry (s.portOf a) v →
      ∃ t, exec c s = .next t ∧ t.holdoff g = ⟨s.fld GRP_IRQ_HOLDOFF g ≠ 0, false⟩
        ∧ (s.msixEnabled (s.portOf a) = true → s.msixMasked (s.portOf a) = false → e.mask = false →
          t.out.getLast? = some (.msix (s.atelierPort a) v e.addr e.data) ∧ (t.msixEntry (s.portOf a) v).pending = false
            ∧ g.val ∉ t.units.rings.dirty)
        ∧ ((s.msixEnabled (s.portOf a) = false ∨ s.msixMasked (s.portOf a) = true ∨ e.mask = true) →
          (t.msixEntry (s.portOf a) v).pending = true))
    ∧ ((s.holdoff g).running = true → (s.holdoff g).waiting = false →
      ∃ t, exec (.msixHoldoffEnd g) s = .next t ∧ t.holdoff g = {} ∧ t.out = s.out)
    ∧ ∀ (p : HostNo) (v : Fin 2048) (e : MsixEntry), s.msixEntry p v = e →
      (∃ t, exec (.msixUnmask p (some v)) s = .next t ∧ (t.msixEntry p v).mask = false
        ∧ (if e.pending && s.msixEnabled p && !s.msixMasked p then t.out.getLast? = some (.msix p v e.addr e.data)
            ∧ (t.msixEntry p v).pending = false else t.out = s.out))
      ∧ ∃ t, exec (.msixUnmask p none) s = .next t ∧ t.msixMasked p = false
        ∧ (e.pending = true → s.msixEnabled p = true → e.mask = false → .msix p v e.addr e.data ∈ t.out)

/-- A ring that can be enabled starts at RETIRED and waits for its TAIL; disabled, it discards what it has fetched and stops
once nothing of it is in progress; resumed, it runs on with no HALT_CAUSE (R190, R212). RETIRED is written while DISABLED
(R212). A group becomes ACTIVE only with its doorbell and its CQ set (R212). A free tag goes to the first request that may
take it, which is then sent: host reads, a frame, or a transfer that a palette accepts (R67, R202, R353). Where the spec
leaves a point open or to be inferred, this is the model's choice of log entries 22 and 36. -/
def Obligations.RingRegisters : Prop :=
  ∀ (s : State) (p : HostNo) (r : RingNo) (v : Word), s.running = true →
    (s.writable p RING_CTL_ENABLE r = true →
      (bits v 0 0 = 1 → s.fld RING_STATE_STATE r = 0 → s.canEnable r = true →
        ∃ t, exec (.ringEnable p r v) s = .next t ∧ t.fld RING_STATE_STATE r = 1 ∧ t.on RING_CTL_ENABLE r = true
          ∧ t.fld RING_STATE_HALT_CAUSE r = 0 ∧ t.fld RING_POS_FETCHED r = s.fld RING_RETIRED_RETIRED r
          ∧ t.fld RING_POS_TAIL r = s.fld RING_RETIRED_RETIRED r ∧ r.val ∈ t.units.rings.fresh)
      ∧ (bits v 0 0 = 0 → (s.fld RING_STATE_STATE r = 1 ∨ s.fld RING_STATE_STATE r = 2) →
        ∃ t, exec (.ringDisable p r v) s = .next t ∧ t.on RING_CTL_ENABLE r = false ∧ t.waiting r = []
          ∧ t.fld RING_POS_FETCHED r = s.firstUndelivered r % 2 ^ 32
          ∧ t.fld RING_STATE_STATE r = if s.slots.any (fun d => d.ring = r.val && d.phase ≠ .recorded) then 3 else 0)
      ∧ (bits v 1 0 = 3 → s.fld RING_STATE_STATE r = 2 →
        ∃ t, exec (.ringResume p r v) s = .next t ∧ t.fld RING_STATE_STATE r = 1 ∧ t.fld RING_STATE_HALT_CAUSE r = 0
          ∧ r.val ∈ t.units.rings.fresh))
    ∧ (s.writable p RING_RETIRED_RETIRED r = true →
      (s.fld RING_STATE_STATE r = 0 →
        ∃ t, exec (.retiredWrite p r v) s = .next t ∧ t.fld RING_RETIRED_RETIRED r = bits v 31 0
          ∧ t.fld RING_POS_FETCHED r = bits v 31 0)
      ∧ (s.fld RING_STATE_STATE r ≠ 0 → exec (.retiredWrite p r v) s = .next s))
    ∧ (∀ (g : GrpNo) (ok : Bool), s.writable p GRP_DB_ADDR g = true → bits v 0 0 = 1 →
      ok = (bits v 63 12 ≠ 0 && s.fld GRP_CQ_ADDR g ≠ 0 && 6 ≤ s.fld GRP_CQ_LOG2_ENTRIES g
        && s.fld GRP_CQ_LOG2_ENTRIES g ≤ 16) →
      ∃ t, exec (.groupActivate p g v) s = .next t ∧ t.fld GRP_DB_ADDR g = bits v 63 12
        ∧ t.fld GRP_DB_ACTIVE g = (if ok then 1 else s.fld GRP_DB_ACTIVE g) ∧ t = { s with regs := t.regs }
        ∧ fieldsKeptBut [GRP_DB_ADDR, GRP_DB_ACTIVE] s t)
    ∧ ∀ (w : TagWait) (rest : List TagWait),
      extractFirst s.mayGo s.units.rings.tagWaits = (some w, rest) → w.fence = none →
      ∃ t, exec .txnTagGrant s = .next t
        ∧ (w.frame = none → w.access = none → t.units.rings.tagWaits = rest ∧ t.out = s.out ++ w.what
          ∧ t.fld RING_TXN_IN_USE = s.fld RING_TXN_IN_USE + 1)
        ∧ (∀ x, w.frame = some x → ⟨s.units.fab.nextTag, x⟩ ∈ t.units.fab.flights)
        ∧ ∀ tl x, w.frame = none → w.what = [] → w.access = some (.write tl x) →
          s.meets (sourceOwn x.src) (granuleOf x.addr.toNat) = .ok →
          t.units.rings.tagWaits = rest ∧ t.units.pal.banks = s.units.pal.banks ++ [.write tl x]

/-! ### Timebase -/

/-- The count stands while the PLL is not locked and runs on from the value it held (R214, R215, R219); a broadcast brings
each replica to its difference from the master, and one that is off by more than 2 ticks to the master's count, with
SKEW_ERR (R217); CAPTURE takes the count and LOAD, by a grandmaster, replaces it, while a follower's write of LOAD is
discarded and recorded (R236, R237); a comparator is reached where its target's replica stands at or past the stamp (R227).
Where the spec leaves a point open or to be inferred, this is the model's choice of log entries 37 and 66. -/
def Obligations.TimebaseCount : Prop :=
  ∀ (s : State) (p : HostNo) (v : Word), s.running = true →
    (s.units.tb.locked = false →
      ∃ t, exec .pllLock s = .next t ∧ t.units.tb.locked = true ∧ t.units.tb.count = s.units.tb.count
        ∧ t.fld TB_STATUS_STATE = 1 ∧ (s.on TB_CTL_ROLE = true → t.fld TB_STATUS_HOPS = 0)
        ∧ fieldsKeptBut [TB_STATUS_STATE, TB_STATUS_EXCHANGES, TB_STATUS_HOPS] s t)
    ∧ (s.units.tb.locked = true →
      ∃ t, exec .pllUnlock s = .next t ∧ t.units.tb.locked = false ∧ t.units.tb.count = s.units.tb.count
        ∧ t.fld TB_STATUS_STATE = 0 ∧ t.fld TB_STATUS_HOPS = 0xff ∧ t.on TB_EVENT_PLL_UNLOCK = true)
    ∧ (∀ (pre post : List (Fin 105 × Int)) (r : Fin 105) (x : Int), (∀ e ∈ post, e.1 ≠ r) →
      ∃ t, exec (.tbBroadcast (pre ++ (r, x) :: post)) s = .next t
        ∧ t.replica r = (((s.ticks : Int) + if 2 < x.natAbs then 0 else x) % (2 ^ 64 : Nat)).toNat
        ∧ (2 < x.natAbs → t.on TB_EVENT_SKEW_ERR = true) ∧ t.units.tb.count = s.units.tb.count)
    ∧ (s.writable p TB_CTL_CAPTURE = true → bits v 3 3 = 1 → (bits v 2 2 = 0 ∨ s.on TB_CTL_ROLE = true) →
      ∃ t, exec (.tbCapture p v) s = .next t ∧ t.held (TB_CAPTURE_VALUE.addr 0 0) = s.units.tb.count
        ∧ (bits v 2 2 = 0 → t.units.tb.count = s.units.tb.count))
    ∧ (s.writable p TB_CTL_LOAD = true → bits v 2 2 = 1 →
      (s.on TB_CTL_ROLE = true →
        ∃ t, exec (.tbLoad p v) s = .next t ∧ t.units.tb.count = s.held (TB_LOAD_VALUE.addr 0 0)
          ∧ (bits v 3 3 = 1 → t.held (TB_CAPTURE_VALUE.addr 0 0) = s.units.tb.count)
          ∧ (s.units.tb.count ≠ s.held (TB_LOAD_VALUE.addr 0 0) → t.on TB_EVENT_STEPPED = true))
      ∧ (s.on TB_CTL_ROLE = false →
        ∀ c ∈ [Instr.tbLoad p v, .tbCapture p v],
          ∃ t, exec c s = .next t ∧ t.units.tb = s.units.tb ∧ fieldsKeptBut portRecords s t
          ∧ t.fld HOST_LOCKED_COUNT p = min (s.fld HOST_LOCKED_COUNT p + 1) 0xffffffff))
    ∧ ∀ (target : BitVec 8) (lc : Fin 16) (d : Slot), d ∈ s.slots →
      ∃ t, exec (.stampReached target lc) s = .next t ∧ sameBeyondUnits s t
        ∧ (d.target = target.toNat → d.lc = some lc.val → d.unlaunched = true → s.stampPast d = true →
            { d with stampMet := true } ∈ t.slots)
        ∧ ((d.target ≠ target.toNat ∨ d.lc ≠ some lc.val ∨ d.unlaunched = false ∨ s.stampPast d = false) → d ∈ t.slots)

/-- A CAPTURE and a LOAD written in the same access are applied in that order on a grandmaster, where alone a LOAD takes
effect: the capture holds the count from before the load, and the count is the loaded one afterwards (R236). -/
def Obligations.CaptureAndLoad : Prop :=
  ∀ (s : State) (p : HostNo) (v : Word), s.running = true → s.writable p TB_CTL_CAPTURE = true →
    bits v 3 3 = 1 → bits v 2 2 = 1 → s.on TB_CTL_ROLE = true → ∀ c ∈ [Instr.tbCapture p v, .tbLoad p v],
    ∃ t, exec c s = .next t ∧ t.held (TB_CAPTURE_VALUE.addr 0 0) = s.units.tb.count
      ∧ t.units.tb.count = s.held (TB_LOAD_VALUE.addr 0 0)

/-- A sync period sends a request out of the port in use, and t1 is that port's count as it leaves, in quarters of a tick; a
request that arrives is answered where SERVE is 1, with t2 and t3 from its port's count as it came and as the answer leaves
(R220, R277). A valid response gives DELAY, OFFSET and HOPS from t4, the count as it came, and moves the count or the
frequency as the state asks (R219, R221, R223, R224); one that is not valid, or that does not come, is missed, ends the run
of near exchanges, and the fourth in a row loses the port (R222, R226). A changed port raises PORT_SWITCH (R234). Where the
spec leaves a point open or to be inferred, this is the model's choice of log entry 37. -/
def Obligations.SyncExchange : Prop :=
  ∀ (s : State) (p : PortNo), s.running = true →
    (∀ (f1 : BitVec 2) (use : Nat) (f : Frame), s.units.tb.locked = true → s.on TB_CTL_ROLE = false →
      s.units.tb.request = none → s.portInUse = (use, some p.val) →
      f = (mkFrame (s.fld LINK_PEER_MODULE p) s.moduleId kindSync 0 0 0 0 none 0
        [syncPayload 0 0 (s.fld TB_SYNC_DOMAIN) (s.fld TB_STATUS_HOPS) s.synced 0]).withTtl (s.fld COLL_ROUTE_CTL_TTL) →
      ∃ t x, exec (.syncRequestSend f1) s = .next t ∧ t.fld TB_STATUS_UP_IN_USE = use
        ∧ t.units.tb.request = some (x, p.val, s.fld TB_SYNC_DOMAIN)
        ∧ ((s.units.tb.lastPort.any (· ≠ p.val)) = true → t.on TB_EVENT_PORT_SWITCH = true)
        ∧ (s.portReady p f 0 → x = some (timestamp (s.portCount p) f1.toNat) ∧ t.out = s.out ++ [s.flitOf p f 0]))
    ∧ (∀ (a : Arrived) (rest : List Arrived) (f2 f3 : BitVec 2) (f : Frame), s.arrived (some p) [kindSync] = (some a, rest) →
      f = (mkFrame (s.fld LINK_PEER_MODULE p) s.moduleId kindSyncResp 0 0 0 0 none 0
        [syncPayload (timestamp a.came f2.toNat) (timestamp (s.portCount p) f3.toNat) (s.fld TB_SYNC_DOMAIN)
          (s.fld TB_STATUS_HOPS) s.synced (s.portCount p / 2 ^ 48)]).withTtl (s.fld COLL_ROUTE_CTL_TTL) →
      ∃ t x, exec (.syncRequestReceive p f2 f3) s = .next t ∧ t.units.fab.rx = rest
        ∧ (s.on TB_CTL_SERVE = false → t.units.fab.ports = s.units.fab.ports)
        ∧ (s.on TB_CTL_SERVE = true → s.portReady p f 0 → t.out = s.out ++ x ++ [s.flitOf p f 0]))
    ∧ (∀ (a : Arrived) (rest : List Arrived) (t1 t2 t3 t4 k : Word) (domain hi c : Nat) (f4 : BitVec 2) (replayed : Bool)
        (w : Granule) (d th : Int), s.arrived (some p) [kindSyncResp] = (some a, rest) →
      s.units.tb.request = some (some t1, p.val, domain) → w = a.frame.payload.headD 0 → t2 = w.extractLsb' 0 64 →
      t3 = w.extractLsb' 64 64 → k = w.extractLsb' 128 64 → hi = (w.extractLsb' 192 16).toNat → c = s.portCount p →
      t4 = timestamp a.came f4.toNat →
      (d, th) = offsets (extendStamp t1 ((c / 2 ^ 48 : Nat) : Int) (decide (c % 2 ^ 48 < stampTicks t1)))
        (extendStamp t2 hi (decide (stampTicks t3 < stampTicks t2))) (extendStamp t3 hi false)
        (extendStamp t4 ((c / 2 ^ 48 : Nat) : Int) (decide (c % 2 ^ 48 < stampTicks t4)))
        (intOf 16 (s.fld TB_PORT_ASYM_ASYM 0 p)) →
      (bits k 63 48 = domain → bits k 39 39 = 1 → bits k 47 40 < 254 → replayed = false →
        ∃ t, exec (.syncResponseReceive p f4 replayed) s = .next t ∧ t.units.tb.request = none ∧ t.units.tb.missed = 0
          ∧ t.fld TB_DELAY_D = sat48 d ∧ t.fld TB_OFFSET_THETA = sat48 th ∧ t.fld TB_STATUS_HOPS = bits k 47 40 + 1
          ∧ (((s.fld TB_STATUS_STATE = 1 ∧ s.upPort.isSome = true) ∨ s.fld TB_STATUS_STATE = 2
              ∨ ((s.fld TB_STATUS_STATE = 3 ∨ s.fld TB_STATUS_STATE = 4)
                ∧ s.fld TB_SYNC_STEP_THRESH * 2 ^ 16 < th.natAbs)) →
            t.units.tb.count = s.units.tb.count + BitVec.ofInt 64 ((-th).tdiv (2 ^ 16))
              ∧ (s.fld TB_STATUS_STATE ≠ 2 → t.fld TB_STATUS_STATE = 2)
              ∧ (s.fld TB_STATUS_STATE = 2 → t.fld TB_STATUS_STATE =
                  if th.natAbs ≤ 4 * 2 ^ 16 ∧ s.units.tb.good + 1 = 8 then 3 else 2))
          ∧ (s.fld TB_STATUS_STATE = 3 → th.natAbs ≤ s.fld TB_SYNC_STEP_THRESH * 2 ^ 16 →
            t.units.tb.count = s.units.tb.count ∧ t.fld TB_STATUS_STATE = 3
              ∧ (15 ≤ s.units.tb.settled → t.on TB_STATUS_SETTLING = false)
              ∧ t.fld TB_FREQ_FREQ = intCode 32 (clampFreq (intOf 32 (s.fld TB_FREQ_FREQ)
                - (th * 2 ^ 24).tdiv (8 * (1024 * max 1 (s.fld TB_SYNC_PERIOD) : Nat))))))
      ∧ ((bits k 63 48 ≠ domain ∨ bits k 39 39 = 0 ∨ 254 ≤ bits k 47 40 ∨ replayed = true) →
        ∃ t, exec (.syncResponseReceive p f4 replayed) s = .next t ∧ t.units.tb.request = none
          ∧ t.units.tb.count = s.units.tb.count ∧ t.fld TB_OFFSET_THETA = s.fld TB_OFFSET_THETA ∧ t.units.tb.good = 0))
    ∧ (s.units.tb.request.isSome = true → ∀ use other lost, use = s.fld TB_STATUS_UP_IN_USE → (use = 1 ∨ use = 2) →
      other = (if use = 2 then s.upPort else s.altPort) →
      lost = (if use = 2 then s.units.tb.upLost else s.units.tb.altLost) →
      ∃ t, exec .syncResponseMissed s = .next t ∧ t.units.tb.request = none ∧ t.units.tb.good = 0
        ∧ t.units.tb.count = s.units.tb.count
        ∧ (s.units.tb.missed ≠ 3 → t.units.tb.missed = s.units.tb.missed + 1 ∧ t.units.tb.settled = 0 ∧ fieldsKeptBut [] s t)
        ∧ (s.units.tb.missed = 3 → t.units.tb.missed = 0 ∧ t.on TB_EVENT_UP_LOST = true
          ∧ (other.isSome = true → lost = false →
              t.fld TB_STATUS_UP_IN_USE = 3 - use ∧ t.on TB_EVENT_PORT_SWITCH = true ∧ t.on TB_STATUS_SETTLING = true)
          ∧ ((other.isSome = false ∨ lost = true) → s.fld TB_STATUS_STATE = 3 →
              t.fld TB_STATUS_STATE = 4 ∧ t.on TB_EVENT_HOLDOVER = true)))

/-! ### The link layer -/

/-- Training: an enabled port that has power begins step 1; its lanes train, its set is chosen and named to the peer, and
the peer's answer makes it ACTIVE with its credits granted; a retrain, or EN cleared, takes a live port down; a failed port
trains again after electrical idle (R244, R245, R247 to R249). Where the spec leaves a point open or to be inferred, this is
the model's choice of log entries 38 and 39. -/
def Obligations.LinkTraining : Prop :=
  ∀ (s : State) (h : HostNo) (p : PortNo) (v : Word) (st : Nat), s.running = true → st = s.fld LINK_STATUS_STATE p →
    (s.writable h LINK_CTL_EN p = true →
      (st = 0 → bits v 11 8 < 2 → s.dom (portDomain p) = 3 →
        (bits v 1 0 = 1 → ∃ t, exec (.linkEnable h p v) s = .next t ∧ t.fld LINK_STATUS_STATE p = 1
          ∧ t.fld LINK_STATUS_LANES_UP p = 0 ∧ (t.port p).tried = 0)
        ∧ (bits v 1 0 = 3 → ∃ t, exec (.retrain h p v) s = .next t ∧ t.fld LINK_STATUS_STATE p = 1
          ∧ (t.port p).retraining = true))
      ∧ (bits v 0 0 = 0 → ∃ t, exec (.linkEnable h p v) s = .next t
          ∧ t.fld LINK_STATUS_STATE p = (if st = 1 ∨ st = 2 then 0 else if st = 3 ∨ st = 4 then 5 else st)
          ∧ ((st = 1 ∨ st = 2) → t.fld LINK_STATUS_LANES_UP p = 0 ∧ t.fld LINK_STATUS_LANE_SET p = 0 ∧ t.fld LINK_STATUS_WIDTH p = 0)
          ∧ ((st = 3 ∨ st = 4) → t.on LINK_EVENT_FAILED p = true))
      ∧ (bits v 1 0 = 3 → st ≠ 0 → st ≠ 5 → ∃ t, exec (.retrain h p v) s = .next t ∧ t.fld LINK_STATUS_STATE p = 5
          ∧ t.on LINK_CTL_RETRAIN p = true ∧ t.on LINK_EVENT_FAILED p = true))
    ∧ (∀ (lane : Fin 8) (ok : Bool) (up : Nat) (tried : BitVec 8), st = 1 → bit (s.port p).tried.toNat lane = false →
      up = (if ok then s.fld LINK_STATUS_LANES_UP p ||| 2 ^ lane.val else s.fld LINK_STATUS_LANES_UP p) →
      tried = (s.port p).tried ||| (1 <<< lane.val) →
      ∃ t, exec (.laneTrained p lane ok) s = .next t
        ∧ t.fld LINK_STATUS_STATE p = (if tried ≠ 0xff then 1 else if lanesIn up < s.minLanes p then 5 else 2)
        ∧ (t.fld LINK_STATUS_STATE p ≠ 5 → t.fld LINK_STATUS_LANES_UP p = up ∧ (t.port p).tried = tried))
    ∧ (∀ (rev : Bool) (tx rx : BitVec 16) (lanes : Nat), st = 2 → (s.port p).aligned = false →
      chooseLanes (s.fld LINK_STATUS_LANES_UP p) 8 = some lanes →
      (s.minLanes p ≤ lanesIn lanes →
        ∃ t, exec (.portAligned p rev tx rx) s = .next t ∧ t.fld LINK_STATUS_STATE p = 2
          ∧ t.fld LINK_STATUS_LANE_SET p = lanes ∧ t.fld LINK_STATUS_WIDTH p = lanesIn lanes
          ∧ t.on LINK_STATUS_REVERSED p = rev ∧ t.fld LINK_CAL_TX_DELAY p = tx.toNat ∧ t.fld LINK_CAL_RX_DELAY p = rx.toNat
          ∧ (t.port p).aligned = true
          ∧ ((s.port p).told = false → s.moduleId ≠ 0xffff →
              (t.port p).told = true ∧ ∃ more, t.out = s.out ++ .peerInfo p s.moduleId lanes tx.toNat rx.toNat :: more))
      ∧ (lanesIn lanes < s.minLanes p → ∃ t, exec (.portAligned p rev tx rx) s = .next t ∧ t.fld LINK_STATUS_STATE p = 5))
    ∧ (∀ (mod : BitVec 16) (peer : BitVec 5) (lanes : BitVec 8) (tx rx : BitVec 16) (set : Nat), st = 2 →
      (s.port p).told = true →
      set = (if laneSets.contains lanes.toNat then agreeLanes (s.fld LINK_STATUS_LANE_SET p) lanes.toNat (s.moduleId < mod.toNat)
        else s.fld LINK_STATUS_LANE_SET p) →
      ∃ t, exec (.peerInfoReceive p mod peer lanes tx rx) s = .next t ∧ t.fld LINK_PEER_MODULE p = mod.toNat
        ∧ t.fld LINK_PEER_PORT p = peer.toNat ∧ t.on LINK_PEER_VALID p = true
        ∧ ((mod.toNat = s.moduleId ∨ lanesIn set < s.minLanes p) → t.fld LINK_STATUS_STATE p = 5)
        ∧ (mod.toNat ≠ s.moduleId → s.minLanes p ≤ lanesIn set →
          t.fld LINK_STATUS_STATE p = 3 ∧ t.fld LINK_STATUS_LANE_SET p = set ∧ (t.port p).nextSeq = 0
            ∧ t.fld LINK_CREDIT_RESERVE_USED p = (s.creditPlan p).1 ∧ t.fld LINK_CREDIT_POOL p = (s.creditPlan p).2.1
            ∧ ((s.port p).retraining = true → t.on LINK_EVENT_RETRAINED p = true)))
    ∧ (st = 5 → (s.port p).idle = true →
      ∃ t, exec (.portIdleEnd p) s = .next t ∧ (t.port p).idle = false
        ∧ t.fld LINK_STATUS_STATE p =
            if s.on LINK_CTL_EN p = true ∧ s.fld LINK_CTL_PMD p < 2 ∧ s.dom (portDomain p) = 3 then 1 else 0)

/-- A live port asks once for the replay of a flit that it cannot correct, and takes a good one in its order: a frame that
the flit holds whole has then arrived (R241 to R243); a replay sends every unacknowledged flit again, and the sixteenth in a
row fails the port (R243); bad lanes narrow the port, name the set to the peer and replay, or fail it where it would be too
narrow (R247, R278); a partial frame that waits too long is dropped and counted (R252). Where the spec leaves a point open
or to be inferred, this is the model's choice of log entries 38 and 39. -/
def Obligations.LinkTraffic : Prop :=
  ∀ (s : State) (p : PortNo), s.running = true →
    (s.live p = true →
      (∀ (f : Flit) (fecBad : Bool), (fecBad = true ∨ crcOk f = false) →
        ∃ t, exec (.flitReceive p f fecBad) s = .next t ∧ (t.port p).gap = true ∧ (t.port p).seen = (s.port p).seen
          ∧ t.out = s.out ++ (if (s.port p).gap then [] else
              [.flit p (mkFlit { seq := (s.port p).nextSeq, ack := (s.port p).seen, nak := true } [])]))
      ∧ (∀ (f : Flit) (cs : List (BitVec 128)), crcOk f = true → (hdrOf f).nak = false → (hdrOf f).type = 1 →
        (hdrOf f).first = true → (hdrOf f).next = 0 → (hdrOf f).seq = ((s.port p).seen + 1) % 4096 →
        mapGet (fun _ => []) (s.port p).partials (laneKey (hdrOf f).vl (hdrOf f).cls) = [] →
        cs = (List.range 15).map (chunkOf f) → chunksNeeded cs ≤ 15 → (frameOf (cs.take (chunksNeeded cs))).kind < 8 →
        ∃ t, exec (.flitReceive p f false) s = .next t ∧ (t.port p).seen = (hdrOf f).seq ∧ (t.port p).gap = false
          ∧ ∃ a ∈ t.units.fab.rx, a.port = some p.val ∧ a.frame = frameOf (cs.take (chunksNeeded cs)))
      ∧ ((s.port p).replay ≠ [] →
        ∃ t, exec (.replayTimeout p) s = .next t
          ∧ t.fld LINK_RETRY_REPLAYS p = min (s.fld LINK_RETRY_REPLAYS p + 1) 0xffffffff
          ∧ ((s.port p).storm < 15 → t.out = s.out ++ (s.port p).replay.map (.flit p) ∧ (t.port p).storm = (s.port p).storm + 1)
          ∧ (15 ≤ (s.port p).storm → t.fld LINK_STATUS_STATE p = 5 ∧ t.on LINK_EVENT_REPLAY_STORM p = true))
      ∧ (∀ (lane : Fin 8) (up : Nat) (bad : BitVec 8), up = s.fld LINK_STATUS_LANES_UP p &&& (255 - 2 ^ lane.val) →
        bad = (s.port p).bad ||| (1 <<< lane.val) →
        (up = 0 → ∃ t, exec (.laneLockLoss p lane) s = .next t ∧ t.fld LINK_STATUS_STATE p = 5)
        ∧ (up ≠ 0 → s.on LINK_CTL_AUTO_DEGRADE p = true → bit (s.fld LINK_STATUS_LANE_SET p) lane = true →
          ∀ v, chooseLanes (255 - bad.toNat) (s.fld LINK_STATUS_WIDTH p) = some v →
          (s.minLanes p ≤ lanesIn v →
            ∃ t, exec (.laneLockLoss p lane) s = .next t ∧ t.fld LINK_STATUS_STATE p = 4 ∧ t.fld LINK_STATUS_LANE_SET p = v
              ∧ t.on LINK_EVENT_DEGRADE p = true
              ∧ ∃ more, t.out = s.out ++ .laneSet p v :: (more ++ (t.port p).replay.map (.flit p)))
          ∧ (lanesIn v < s.minLanes p →
            ∃ t, exec (.laneLockLoss p lane) s = .next t ∧ t.fld LINK_STATUS_STATE p = 5)))
      ∧ (∀ ce ue : List (BitVec 32), ce.length = 8 → ue.length = 8 →
        ∃ t, exec (.degradeWindowEnd p ce ue) s = .next t
          ∧ (∀ (k : Fin 8) (x : BitVec 32), (ce[k.val]? = some x →
              t.fld LINK_LANE_CE_COUNT p k = min (s.fld LINK_LANE_CE_COUNT p k + x.toNat) 0xffffffff
                ∧ (s.fld LINK_DEGRADE_CE_THRESH p < x.toNat → (t.port p).bad.getLsbD k = true))
            ∧ (ue[k.val]? = some x →
              t.fld LINK_LANE_UE_COUNT p k = min (s.fld LINK_LANE_UE_COUNT p k + x.toNat) 0xffffffff
                ∧ (s.fld LINK_DEGRADE_UE_THRESH p < x.toNat → (t.port p).bad.getLsbD k = true)))
          ∧ ((∀ x ∈ ce, x.toNat ≤ s.fld LINK_DEGRADE_CE_THRESH p) → (∀ x ∈ ue, x.toNat ≤ s.fld LINK_DEGRADE_UE_THRESH p) →
              s.fld LINK_STATUS_LANES_UP p ≠ 0 → (s.port p).bad.toNat &&& s.fld LINK_STATUS_LANE_SET p = 0 →
              t.fld LINK_STATUS_STATE p = s.fld LINK_STATUS_STATE p ∧ t.out = s.out)))
    ∧ ∀ (vl : Fin 17) (cls : Bool) (key : Nat), key = laneKey vl (if cls then 1 else 0) →
      mapGet (fun _ => []) (s.port p).partials key ≠ [] →
      ∃ t, exec (.reasmTimeout p vl cls) s = .next t ∧ mapGet (fun _ => []) (t.port p).partials key = []
        ∧ t.fld LINK_REASM_DROP_COUNT p = min (s.fld LINK_REASM_DROP_COUNT p + 1) 0xffffffff
        ∧ t.on LINK_EVENT_REASM_DROP p = true

/-! ### Frames, groups and collectives -/

/-- A frame for another module is sent on with its TTL lowered (R255). A WRITE frame for this module writes the bits it
names, where its lane's atelier owns the granules, and is acknowledged; one on a lane that no atelier owns writes nothing
(R253, R254). Where the spec leaves a point open or to be inferred, this is the model's choice of log entry 40. -/
def Obligations.FramesPass : Prop :=
  ∀ (s : State) (p : PortNo) (a : Arrived) (rest : List Arrived), s.running = true →
    (extractFirst (fun x : Arrived => x.port = some p.val && x.frame.dst ≠ s.moduleId && x.frame.kind < kindSync) s.units.fab.rx
        = (some a, rest) →
      ∃ t, exec (.frameForward p) s = .next t
        ∧ ∀ (q : PortNo) (cls : Nat), s.leavesBy a.frame q cls →
          t.units.fab.rx = rest ∧ ∃ more, t.out = s.out ++ s.flitOf q a.frame cls :: more)
    ∧ ∀ from' : Option PortNo, extractFirst (fun x : Arrived => x.port = from'.map Fin.val && x.frame.dst = s.moduleId
        && x.frame.kind = kindWrite && !s.heldUp x) s.units.fab.rx = (some a, rest) → a.frame.group = 0 →
      (∀ at' : Nat, s.laneOwner a.frame.vl = some at' → s.settledBanks = true → s.units.hbm.repairing = [] →
        (∀ r ∈ writeParts a.frame, s.allowed at' (64 * r.g) (64 * r.g + 63) = true ∧ s.meets none r.g = .ok
          ∧ s.writesInto r.g r.mask = true ∧ (a.frame.ac = none ∨ stackOf (64 * r.g) = none)) →
        ∃ t, exec (.writeFrameReceive from') s = .next t
          ∧ (∀ x, t.byte x = match (writeParts a.frame).find? fun r => r.g = x / 64 with
            | some r => mergeByte (s.byte x) r.data r.mask (x % 64)
            | none => s.byte x)
          ∧ ∀ (q : PortNo) (cls : Nat), s.leavesBy (s.ackOf a.frame .ok 0) q cls →
            t.units.fab.rx = rest ∧ ∃ more, t.out = s.out ++ s.flitOf q (s.ackOf a.frame .ok 0) cls :: more)
      ∧ (s.laneOwner a.frame.vl = none →
        ∃ t, exec (.writeFrameReceive from') s = .next t ∧ memoryKept s t
          ∧ ∀ (q : PortNo) (cls : Nat), writeParts a.frame ≠ [] → s.leavesBy (s.ackOf a.frame .accessDenied 3) q cls →
            ∃ more, t.out = s.out ++ s.flitOf q (s.ackOf a.frame .accessDenied 3) cls :: more)

/-- The answer to a frame frees its tag and counts it off its descriptor, which takes its status; no answer in time is
FRAME_TIMEOUT (R202, R253). A frame of a collective that has not started is staged (R264), and a finished run that reaches a
member of a ring is stored (R266). A newer record of a group is installed from MEMBERSHIP frames and an older one is not
(R259). A frame held too long for its generation is dropped and counted (R260). A silent member is logged (R262). Where the
spec leaves a point open or to be inferred, this is the model's choice of log entries 40, 41 and 93. -/
def Obligations.FramesArrive : Prop :=
  ∀ (s : State) (a : Arrived) (rest : List Arrived) (from' : Option PortNo), s.running = true →
    (∀ (fl : Flight) (d : Slot) (st : Status) (c : Instr), s.slot fl.sending.slot = some d → s.units.fab.waiting = [] →
      ((∃ kind, (kind, c) ∈ [(kindAck, Instr.ackReceive from'), (kindNotice, .noticeReceive from')] ∧
          s.arrived (from'.map Fin.val) [kind] = (some a, rest) ∧ fl.tag = a.frame.tag ∧ st = Status.ofCode (a.frame.kw % 256))
        ∨ ∃ tag : BitVec 32, c = .ackTimeout tag ∧ fl.tag = tag.toNat ∧ st = .frameTimeout) →
      (s.units.fab.flights.find? fun x => x.tag = fl.tag) = some fl →
      ∃ t, exec c s = .next t ∧ t.units.fab.flights = s.units.fab.flights.filter (fun x => x.tag ≠ fl.tag)
        ∧ t.fld RING_TXN_IN_USE = s.fld RING_TXN_IN_USE - 1
        ∧ ∃ y ∈ t.slots, y.id = d.id ∧ y.outstanding = d.outstanding - 1 ∧ (st ≠ .ok → y.has st = true))
    ∧ (∀ (e k : Nat) (contrib : BitVec 32), extractFirst (fun x : Arrived => x.port = from'.map Fin.val && x.frame.dst = s.moduleId
        && (x.frame.kind = kindReduce || x.frame.kind = kindGather) && s.stageRoom x) s.units.fab.rx = (some a, rest) →
      s.genCheck a.frame = .accept e k → s.refusal e a.frame = none →
      (s.collFor e a.frame = none → 0 ≤ sdiff a.frame.collSeq (s.fld COLL_GROUP_ID_SEQ e k) 16 →
        ∃ t, exec (.collFrameReceive from' contrib) s = .next t ∧ (e, { a with contrib := contrib }) ∈ t.units.fab.staged
          ∧ ∀ x, t.byte x = s.byte x)
      ∧ ∀ (c : Coll) (d : Slot), s.collFor e a.frame = some c → s.coll c.slot = some c → s.slot c.slot = some d →
        c.exch = false → s.units.hbm.repairing = [] → a.frame.sig = c.sig → a.frame.kind = kindGather → sigTree c.sig = false →
        ∃ t, exec (.collFrameReceive from' contrib) s = .next t
          ∧ (t.over c.slot ∨ ∃ c' ∈ t.units.fab.colls, c'.slot = c.slot ∧ c'.total = some contrib.toNat
            ∧ ∀ n, n < (frameUnits c a.frame).2.length → (frameUnits c a.frame).1 + n ∈ c'.held))
    ∧ (∀ (e k : Nat) (ids : List Nat), s.arrived (from'.map Fin.val) [kindMembership] = (some a, rest) →
      s.groupAt a.frame.group = some (e, k) → s.units.hbm.repairing = [] → a.frame.kw / 2 ^ 48 % 2 ^ 13 ≤ 2048 →
      a.frame.addr = 0 →
      ids = idsOf (a.frame.payload.zipIdx.foldl (fun n x => n + x.1.toNat * 2 ^ (512 * x.2)) 0) (a.frame.kw / 2 ^ 48 % 2 ^ 13) →
      ∃ t, exec (.membershipFrameReceive from') s = .next t
        ∧ (0 < sdiff a.frame.gen (s.genOf e k) 16 → t.genOf e k = a.frame.gen ∧ t.membersOf e k = ids
          ∧ t.fld COLL_GROUP_ID_SEQ e k = a.frame.kw / 2 ^ 32 % 2 ^ 16 ∧ t.fld COLL_GROUP_SIZE_COUNT e k = ids.length)
        ∧ (sdiff a.frame.gen (s.genOf e k) 16 ≤ 0 → t.genOf e k = s.genOf e k ∧ t.membersOf e k = s.membersOf e k
          ∧ t.fld COLL_GROUP_ID_SEQ e k = s.fld COLL_GROUP_ID_SEQ e k))
    ∧ (∀ (e : EngNo) (h : Nat × Arrived) (left : List (Nat × Arrived)) (k : Nat),
      extractFirst (fun x : Nat × Arrived => x.1 = e.val) s.units.fab.held = (some h, left) →
      s.groupSlot e h.2.frame.group = some k →
      ∃ t, exec (.genHoldExpire e) s = .next t ∧ t.units.fab.held = left
        ∧ t.fld COLL_GEN_STALE_COUNT_COUNT e = min (s.fld COLL_GEN_STALE_COUNT_COUNT e + 1) 0xffffffff)
    ∧ ∀ (e : EngNo) (id : Nat) (member : BitVec 16) (c : Coll), s.coll id = some c → c.eng = e.val →
      c.members.contains member.toNat = true → member.toNat ≠ s.moduleId → s.fld COLL_SILENT_THRESH_TICKS e ≠ 0 →
      ∃ t, exec (.silentThreshold e id member) s = .next t ∧ t.on COLL_SILENT_LOG_VALID e = true
        ∧ (s.on COLL_SILENT_LOG_VALID e = false → t.fld COLL_SILENT_LOG_MODULE e = member.toNat
          ∧ t.fld COLL_SILENT_LOG_GROUP e = c.group % 2 ^ 12)
        ∧ (s.on COLL_SILENT_LOG_VALID e = true → t.on COLL_SILENT_LOG_OVERRUN e = true)

/-- FAB_SEND, COLL_DISPATCH and COLL_COMBINE end their descriptors' work, and send WRITE frames of their lane to the module
that the body names, or to the members of their group, and nothing else (R250, R270, R273, R275). A collective takes the
group's sequence number and runs, or has ended (R264, R267). Where the spec leaves a point open or to be inferred, this is
the model's choice of log entries 41 and 42. -/
def Obligations.Collectives : Prop :=
  ∀ (s : State) (y : EngNo) (d : Slot), s.units.hbm.repairing = [] →
    (s.collRuns y 0x40 d = true →
      ∃ t, exec (.fabSend d.id) s = .next t ∧ t.over d.id ∧ (s.healthy = true → memoryKept s t)
        ∧ ∀ x ∈ t.sendings, x ∈ s.sendings ∨ (x.slot = d.id ∧ x.frame.kind = kindWrite
          ∧ x.frame.dst = body d.words 2 63 48 ∧ x.frame.src = s.moduleId ∧ x.frame.vl = body d.words 2 35 31
          ∧ x.frame.ac = acOf d.words 2))
    ∧ (∀ k, s.collRuns y 0x45 d = true → s.groupSlot y (body d.words 5 42 31) = some k →
      ∃ t, exec (.collDispatch d.id) s = .next t ∧ t.over d.id
        ∧ ∀ x ∈ t.sendings, x ∈ s.sendings ∨ (x.slot = d.id ∧ x.frame.kind = kindWrite ∧ x.frame.src = s.moduleId
          ∧ x.frame.group = body d.words 5 42 31 ∧ ∃ m ∈ s.membersOf y k, x.frame.dst = m % 2 ^ 16))
    ∧ (∀ k rt, s.collRuns y 0x46 d = true → s.groupSlot y (body d.words 3 47 36) = some k →
      rowType (body d.words 3 63 59) = some rt →
      ∃ t, exec (.collCombine d.id) s = .next t ∧ t.over d.id ∧ (s.healthy = true → memoryKept s t)
        ∧ ∀ x ∈ t.sendings, x ∈ s.sendings ∨ (x.slot = d.id ∧ x.frame.kind = kindWrite ∧ x.frame.src = s.moduleId
          ∧ x.frame.group = body d.words 3 47 36 ∧ ∃ m ∈ s.membersOf y k, x.frame.dst = m % 2 ^ 16))
    ∧ ∀ op c k, (op, c) ∈ [(0x41, Instr.collAllReduce d.id), (0x42, .collReduceScatter d.id), (0x43, .collAllGather d.id),
        (0x44, .collVoteSum d.id)] →
      s.collRuns y op d = true → s.groupSlot y (body d.words 2 35 24) = some k → s.coll d.id = none →
      ∃ t, exec c s = .next t ∧ t.fld COLL_GROUP_ID_SEQ y k = (s.fld COLL_GROUP_ID_SEQ y k + 1) % 2 ^ 16
        ∧ (t.over d.id ∨ ∃ x ∈ t.units.fab.colls, x.slot = d.id ∧ x.seq = s.fld COLL_GROUP_ID_SEQ y k
          ∧ x.group = body d.words 2 35 24 ∧ x.members = s.membersOf y k)

/-- GROUP_SET LOCAL and DISTRIBUTE install a record of a group that this engine does not hold in its first free slot, and a
newer one in the slot that holds it; a record that is neither newer nor the same is GEN_STALE and changes nothing;
DISTRIBUTE sends MEMBERSHIP frames to the other members and to nobody else; REMOVE frees the slot (R257 to R259). -/
def Obligations.GroupSet : Prop :=
  ∀ (s : State) (y : EngNo) (d : Slot) (g gen : Nat) (ids : List Nat), s.collRuns y 0x47 d = true →
    s.coll d.id = none → s.units.hbm.repairing = [] → g = body d.words 1 47 36 → gen = body d.words 1 63 48 →
    ids = idsOf (d.recs.getD 0 0) (body d.words 1 35 23) →
    (∀ mode c, (mode, c) ∈ [(0, Instr.groupSetLocal d.id), (1, .groupSetDistribute d.id)] → body d.words 1 22 21 = mode →
      ∃ t, exec c s = .next t ∧ t.over d.id
        ∧ (∀ k, (s.groupSlot y g = none ∧ (firstBelow 64 fun n => !s.on COLL_GROUP_ID_VALID y n) = some k)
            ∨ (s.groupSlot y g = some k ∧ s.compareGen y k gen ids = .fresh) →
          t.on COLL_GROUP_ID_VALID y k = true ∧ t.fld COLL_GROUP_ID_GROUP y k = g ∧ t.genOf y k = gen
            ∧ t.fld COLL_GROUP_ID_VL y k = body d.words 1 20 16 ∧ t.fld COLL_GROUP_ID_SEQ y k = body d.words 1 15 0
            ∧ t.fld COLL_GROUP_SIZE_COUNT y k = ids.length ∧ t.membersOf y k = ids)
        ∧ (∀ k, s.groupSlot y g = some k → s.compareGen y k gen ids = .stale → t.genOf y k = s.genOf y k
            ∧ t.membersOf y k = s.membersOf y k ∧ ∀ x ∈ t.slots, x.id = d.id → x.has .genStale = true)
        ∧ ∀ x ∈ t.sendings, x ∈ s.sendings ∨ x.slot ≠ d.id ∨ (mode = 1 ∧ x.frame.kind = kindMembership
            ∧ x.frame.src = s.moduleId ∧ x.frame.gen = gen ∧ ∃ m ∈ ids, m ≠ s.moduleId ∧ x.frame.dst = m % 2 ^ 16))
    ∧ ∀ k, body d.words 1 22 21 = 2 → s.groupSlot y g = some k →
      ∃ t, exec (.groupSetRemove d.id) s = .next t ∧ t.over d.id ∧ t.on COLL_GROUP_ID_VALID y k = false
        ∧ t.fld COLL_GROUP_SIZE_COUNT y k = 0 ∧ t.membersOf y k = []

/-! ### Varnish dies and stacks -/

/-- A VAR_UPDATE in progress goes through its steps: pass 1 on its die, its report to the exchange unit, the module record,
the global sums, pass 2 and K + 1; a fault or a skew holds the dies of SET with STEP_SKEW in place of a write, and K stays
(R293 to R296, R299). Where the spec leaves a point open or to be inferred, this is the model's choice of log entries 43 and
44. -/
def Obligations.VarUpdateSteps : Prop :=
  ∀ (s : State) (n : DieNo) (d : Slot) (r : VarRun), s.running = true → s.slot d.id = some d → s.units.hbm.repairing = [] →
    (s.workingOp (.die n) 0x50 = some d → (∀ x ∈ s.units.var.runs, x.slot ≠ d.id) →
      ∃ t x, exec (.varUpdate n) s = .next t ∧ t.units.var.runs = s.units.var.runs ++ [x] ∧ x.die = n.val ∧ x.slot = d.id
        ∧ x.phase = 1 ∧ t.fld VAR_STEP_K n = s.fld VAR_STEP_K n ∧ (s.healthy = true → memoryKept s t))
    ∧ (s.varRun n = some r → r.slot = d.id → r.phase = 1 →
      (normGroup d.words = 0 → (∀ x ∈ s.units.var.exchanges, x.eng ≠ 0) →
        ∃ t, exec (.varPass1End n) s = .next t ∧ t.varRun n = some { r with phase := 2 }
          ∧ t.units.var.exchanges = s.units.var.exchanges ++ [⟨0, useqOf d.words, setOf d.words, 0,
              [⟨n, d.id, s.fld VAR_STEP_K n, r.fault, r.sums, r.counts⟩], none, []⟩])
      ∧ (normGroup d.words ≠ 0 → s.groupAt (normGroup d.words) = none →
        ∃ t, exec (.varPass1End n) s = .next t ∧ t.over d.id ∧ ∀ y ∈ t.slots, y.id = d.id → y.has .genStale = true))
    ∧ (∀ (e : EngNo) (x : Exchange), (s.units.var.exchanges.find? fun y => y.eng = e.val) = some x →
      (x.record = none → s.allReported x = true → (x.group = 0 ∨ s.units.fab.staged = []) →
        ∃ t, exec (.exchangeModuleRecord e) s = .next t
          ∧ ∃ y ∈ t.units.var.exchanges, y.eng = e.val ∧ y.record = some (s.recordOf x))
      ∧ ∀ rs : List (Nat × Nat), s.gatheredRecords x = some rs → (∀ q ∈ rs, recUseq q.2 = x.useq) →
        (∀ detail k, holdCause rs = some (detail, k) →
          ∃ t, exec (.exchangeGatherComplete e) s = .next t ∧ (∀ y ∈ t.units.var.exchanges, y.eng ≠ e.val)
            ∧ (∀ rep ∈ x.reports, t.on VAR_STATUS_HELD rep.die = true)
            ∧ ∀ v ∈ s.units.var.runs, v.phase < 3 → bit x.set v.die = true →
              (∃ q, s.slot v.slot = some q ∧ useqOf q.words = x.useq) →
              t.over v.slot ∧ (∀ y ∈ t.slots, y.id = v.slot → y.has .stepSkew = true))
        ∧ (holdCause rs = none →
          ∃ t, exec (.exchangeGatherComplete e) s = .next t ∧ (∀ y ∈ t.units.var.exchanges, y.eng ≠ e.val)
            ∧ ∀ rep ∈ x.reports, (s.slot rep.slot).isSome = true → ∀ v ∈ t.units.var.runs, v.slot = rep.slot → v.phase = 3))
    ∧ (s.varRun n = some r → r.slot = d.id → r.phase = 3 → s.fixativeHolds n = false →
      ∃ t, exec (.varPass2End n) s = .next t ∧ t.over d.id
        ∧ (t.fld VAR_STEP_K n = s.fld VAR_STEP_K n ∨ t.fld VAR_STEP_K n = (s.fld VAR_STEP_K n + 1) % 2 ^ 32)
        ∧ ((∀ y ∈ t.slots, y.id = d.id → y.has .eccUncorr = false) →
            t.fld VAR_STEP_K n = (s.fld VAR_STEP_K n + 1) % 2 ^ 32))

/-- VAR_PROGRAM fills a program slot; VAR_STATE sets K and releases a hold, or releases it alone; VAR_PUSH ends its
descriptor's work, and writes nothing but the elements of its destinations (R290, R296, R297, R303, R304). Where the spec
leaves a point open or to be inferred, this is the model's choice of log entry 45. -/
def Obligations.VarCommands : Prop :=
  ∀ (s : State) (n : DieNo) (d : Slot), s.running = true →
    (s.workingOp (.die n) 0x53 = some d →
      ∃ t, exec (.varProgram n) s = .next t ∧ t.over d.id
        ∧ mapGet (fun _ => []) t.units.var.progs (4 * n.val + body d.words 0 49 48)
          = instrWords (d.recs.getD 0 0) (body d.words 0 55 50)
        ∧ t.fld (progCount (body d.words 0 49 48)) n = body d.words 0 55 50
        ∧ fieldsKeptBut [progCount (body d.words 0 49 48)] s t)
    ∧ (∀ op, (s.slots.find? fun x => x.on = some (.die n) && x.phase = .issued && opcodeOf x.words = 0x52
          && body x.words 0 32 32 = op) = some d →
      (op = 0 → ∃ t, exec (.varStateSetStep n) s = .next t ∧ t.over d.id ∧ t.fld VAR_STEP_K n = body d.words 0 31 0
        ∧ t.on VAR_STATUS_HELD n = false ∧ fieldsKeptBut [VAR_STEP_K, VAR_STATUS_HELD, VAR_STATUS_HELD_CAUSE] s t)
      ∧ (op = 1 → ∃ t, exec (.varStateRelease n) s = .next t ∧ t.over d.id ∧ t.on VAR_STATUS_HELD n = false
        ∧ fieldsKeptBut [VAR_STATUS_HELD, VAR_STATUS_HELD_CAUSE] s t))
    ∧ (s.engaged (.die n) [0x51] d = true →
      ∃ t, exec (.varPush n) s = .next t ∧ t.over d.id
        ∧ (s.healthy = true → ∀ a, (∀ i, i < body d.words 0 63 48 → ∀ j ∈ (d.tensor (2 + 2 * i)).indices,
            ¬ (d.tensor (2 + 2 * i)).storesTo j a) → t.byte a = s.byte a))

/-- An access of a stack that serves and meets no error writes or leaves its granule's bytes; one that meets an
uncorrectable error, and is no whole write, retires its 64 KiB block: every byte of it is +0 and poisoned, and the block is
repaired or counted (R313); while a repair runs an access waits, and the repair's end serves it (R300, R313). A die that
fails is fenced: its descriptors end (R315). Where the spec leaves a point open or to be inferred, this is the model's
choice of log entries 46 and 69. -/
def Obligations.StacksServe : Prop :=
  ∀ (s : State) (n : DieNo), s.running = true →
    (∀ (own : Bool) (sender : Option Nat) (addr : Addr) (wr : Option (Granule × Granule)) (upset : BitVec 576) (spare : Bool)
        (g lo : Nat), stackOf addr.toNat = some n.val → g = addr.toNat / 64 →
      lo = stackBase n + (64 * g - stackBase n) / 0x10000 * 0x10000 →
      (s.units.hbm.repairing.contains n.val = true →
        ∃ t, exec (.stackAccess n own sender addr wr upset spare) s = .next t ∧ (∀ a, t.byte a = s.byte a)
          ∧ t.units.hbm.waits = s.units.hbm.waits ++ [(n.val, ⟨own, sender, g, wr, spare⟩)])
      ∧ (s.units.hbm.repairing.contains n.val = false → s.meets none g = .ok → s.poisoned g = false →
        (s.errors g ^^^ upset = 0 →
          ∃ t, exec (.stackAccess n own sender addr wr upset spare) s = .next t
            ∧ ∀ a, t.byte a = match wr with
              | some (v, m) => s.afterGranule g v m a
              | none => s.byte a)
        ∧ (uncorrectable (s.errors g ^^^ upset) = true → (wr.any fun w => w.2 = fullMask) = false →
          ∃ t, exec (.stackAccess n own sender addr wr upset spare) s = .next t
            ∧ (∀ a, t.byte a = if lo ≤ a ∧ a < lo + 0x10000 then 0 else s.byte a)
            ∧ (∀ k, k < 1024 → t.poisoned (lo / 64 + k) = true)
            ∧ t.fld HBM_ERR_UE n = min (s.fld HBM_ERR_UE n + 1) 0xffffffff ∧ t.on RISK_EVENT_BLOCK_RETIRED = true
            ∧ (spare = true → t.fld HBM_REPAIR_SOFT n = min (s.fld HBM_REPAIR_SOFT n + 1) 0xffff
              ∧ n.val ∈ t.units.hbm.repairing)
            ∧ (spare = false → t.fld RISK_RETIRED_COUNT = min (s.fld RISK_RETIRED_COUNT + 1) 0xffffffff
              ∧ n.val * 2 ^ 20 + (64 * g - stackBase n) / 0x10000 ∈ t.units.nv.retiredOut))))
    ∧ (s.units.hbm.repairing.contains n.val = true → (∀ w ∈ s.units.hbm.waits, w.1 ≠ n.val) → s.units.hbm.reads = [] →
      ∃ t, exec (.pprComplete n) s = .next t ∧ n.val ∉ t.units.hbm.repairing ∧ sameBeyondUnits s t)
    ∧ (∀ (own : Bool) (sender : Option Nat) (g : Nat) (v m : Granule) (spare : Bool),
      s.units.hbm.repairing.contains n.val = true → s.units.hbm.waits = [(n.val, ⟨own, sender, g, some (v, m), spare⟩)] →
      s.units.hbm.reads = [] → stackOf (64 * g) = some n.val → s.meets none g = .ok → s.poisoned g = false → s.errors g = 0 →
      ∃ t, exec (.pprComplete n) s = .next t ∧ t.units.hbm.waits = [] ∧ ∀ a, t.byte a = s.afterGranule g v m a)
    ∧ (s.dieFailed n = false →
      ∃ t, exec (.varDieFail n) s = .next t ∧ t.fld RISK_VAR_FAILED_DIES = s.fld RISK_VAR_FAILED_DIES + 2 ^ n.val
        ∧ t.on RISK_EVENT_VAR_FAIL = true ∧ (s.on RISK_CTL_EN = true → t.fld RISK_SCORE_SCORE = 255)
        ∧ (∀ y ∈ t.slots, y.target = 0x40 + n.val → y.phase ≠ .delivered ∧ y.phase ≠ .issued)
        ∧ (∀ x ∈ t.units.var.runs, x.die ≠ n.val) ∧ ∀ a, t.byte a = s.byte a)

/-! ### Surviving failure -/

/-- The end of an estimator's window shows its inputs, clears their counts, and sets the score and the level that follow
from them (R319 to R321). A check of R331 is disarmed by the bits written (R331). Where the spec leaves a point open or to
be inferred, this is the model's choice of log entry 47. -/
def Obligations.RiskWindow : Prop :=
  ∀ (s : State) (hottest : Int) (temp score : Nat), s.running = true →
    temp = (match s.units.fail.hottest with
      | some x => (hottest - x).toNat
      | none => 0) →
    score = riskScore [(s.units.fail.ce, s.fld RISK_WEIGHT_W_CE), (s.units.fail.droops, s.fld RISK_WEIGHT_W_DROOP),
      (temp, s.fld RISK_WEIGHT_W_TEMP), (s.units.fail.links, s.fld RISK_WEIGHT_W_LINK)] (s.fld RISK_SCORE_SCORE)
      (s.fld RISK_WINDOW_DECAY) →
    (∃ t, exec (.riskWindow hottest) s = .next t
      ∧ t.fld RISK_INPUTS_CE = min s.units.fail.ce 0xffff ∧ t.fld RISK_INPUTS_DROOP = min s.units.fail.droops 0xffff
      ∧ t.fld RISK_INPUTS_TEMP = min temp 0xffff ∧ t.fld RISK_INPUTS_LINK = min s.units.fail.links 0xffff
      ∧ t.units.fail.ce = 0 ∧ t.units.fail.droops = 0 ∧ t.units.fail.links = 0 ∧ t.units.fail.hottest = some hottest
      ∧ (s.on RISK_CTL_EN = false → t.fld RISK_SCORE_SCORE = s.fld RISK_SCORE_SCORE
        ∧ t.fld RISK_SCORE_LEVEL = s.fld RISK_SCORE_LEVEL)
      ∧ (s.on RISK_CTL_EN = true → t.fld RISK_SCORE_SCORE = score
        ∧ t.fld RISK_SCORE_LEVEL = riskLevel (s.fld RISK_LEVELS_L1) (s.fld RISK_LEVELS_L2) (s.fld RISK_LEVELS_L3)
            (s.fld RISK_LEVELS_HYST) score (s.fld RISK_SCORE_LEVEL)))
    ∧ ∀ (p : HostNo) (v : Word), s.writable p RISK_RNG_CHECK_ARMED = true →
      ∃ t, exec (.rngCheckDisarm p v) s = .next t ∧ t = { s with regs := t.regs }
        ∧ (∀ k, k < 16 → bit (t.fld RISK_RNG_CHECK_ARMED) k = (bit (s.fld RISK_RNG_CHECK_ARMED) k && !v.getLsbD k))
        ∧ fieldsKeptBut [RISK_RNG_CHECK_ARMED] s t

/-- A copy goes from step to step, each once the frames of the last are answered; the last one makes its image the current
one (R322, R325); a copy with no buddy fails with CAUSE 1 (R326). FIX_SNAPSHOT starts its copy or fails (R328). FIX_RESTORE
sends to its target, serves from its image, or applies, which leaves rings that are not DISABLED alone (R329, R330). Where
the spec leaves a point open or to be inferred, this is the model's choice of log entries 48 and 49. -/
def Obligations.Fixative : Prop :=
  ∀ (s : State) (j : FixJob) (d : Slot), s.running = true → s.units.hbm.repairing = [] →
    (s.units.fail.jobs = [j] → j.outstanding = 0 → j.arose = [] → j.kind ≤ 3 →
      (∀ k, k ∈ [1, 2, 3] → j.step = k →
        ∃ t, exec .copyStepAdvance s = .next t ∧ ∃ x ∈ t.units.fail.jobs, x.id = j.id ∧ x.step = k + 1)
      ∧ (j.step = 4 → ∃ t, exec .copyStepAdvance s = .next t ∧ t.units.fail.jobs = [] ∧ t.units.fail.serial = j.serial
          ∧ t.on RISK_IMAGE_VALID = true ∧ t.fld RISK_IMAGE_K = j.k % 2 ^ 32 ∧ t.fld RISK_IMAGE_USEQ = j.useq % 2 ^ 16
          ∧ t.fld RISK_LAST_COPY_STATUS = 0 ∧ t.fld RISK_LAST_COPY_BYTES = j.bytes % 2 ^ 48
          ∧ ∀ id, j.slot = some id → ∀ y ∈ t.slots, y.id = id → y.phase = .done))
    ∧ (s.units.fail.jobs = [j] → j.outstanding = 0 → j.arose ≠ [] → j.kind ≤ 3 →
      ∃ t, exec .copyStepAdvance s = .next t ∧ t.units.fail.jobs = []
        ∧ t.fld RISK_LAST_COPY_STATUS = (Arose.first j.arose).1.code ∧ t.on RISK_EVENT_SNAP_FAIL = true)
    ∧ (s.slot d.id = some d → d.phase = .issued → opcodeOf d.words = 0x60 → s.units.fail.jobs = [] → s.units.var.runs = [] →
      (∃ t, exec (.fixSnapshot d.id) s = .next t ∧ (t.over d.id ∨ ∃ x ∈ t.units.fail.jobs, x.slot = some d.id ∧ x.step = 1))
      ∧ (s.fld RISK_MANIFEST_ENTRIES = 0 → s.fld RISK_BUDDY_MODULE = 0xffff →
        ∃ t, exec (.fixSnapshot d.id) s = .next t ∧ t.over d.id ∧ t.fld RISK_LAST_COPY_CAUSE = 1
          ∧ ∀ y ∈ t.slots, y.id = d.id → y.has .accessDenied = true))
    ∧ (s.restoring d.id 0 = some d →
      ∃ t, exec (.fixRestoreSend d.id) s = .next t ∧ (t.over d.id ∨ ∃ x ∈ t.units.fail.jobs, x.id = d.id ∧ x.kind = 4 ∧ x.step = 1)
        ∧ ∀ x ∈ t.sendings, x ∈ s.sendings ∨ (x.frame.kind = kindWrite ∧ x.frame.src = s.moduleId
          ∧ x.frame.dst = body d.words 0 63 48 ∧ x.frame.vl = body d.words 2 55 51))
    ∧ (s.restoring d.id 2 = some d →
      ∃ t, exec (.fixRestoreServe d.id) s = .next t ∧ t.over d.id
        ∧ ∀ x ∈ t.sendings, x ∈ s.sendings ∨ (x.frame.kind = kindWrite ∧ x.frame.src = s.moduleId
          ∧ x.frame.dst = body d.words 0 63 48 ∧ x.frame.vl = body d.words 2 55 51))
    ∧ (s.restoring d.id 1 = some d →
      ∃ t, exec (.fixRestoreApply d.id) s = .next t ∧ t.over d.id
        ∧ (∀ r : RingNo, s.fld RING_STATE_STATE r ≠ 0 → t.fld RING_RETIRED_RETIRED r = s.fld RING_RETIRED_RETIRED r)
        ∧ (body d.words 2 60 60 = 0 → ∀ n : DieNo, t.fld VAR_STEP_K n = s.fld VAR_STEP_K n))

/-! ### Host ports and ateliers -/

/-- A write of ATL.CTL from the atelier's port or the management port: LOCK locks it (R344), SHARE_OK follows its owner's
write, and its withdrawal parks the atelier's halves (R128, R345); QUIESCE begins quiescing an ACTIVE atelier, before
RELEASE, which returns a QUIESCED one that is not orphaned to ACTIVE (R348). Quiescing ends once none of the atelier's
descriptors is issued and none of its tags is held; a level-3 copy's drain is over with the last of its ateliers (R325,
R348). Where the spec leaves a point open or to be inferred, this is the model's choice of log entry 50. -/
def Obligations.AtelierControl : Prop :=
  ∀ (s : State) (p : HostNo) (a : AtlNo) (v : Word), s.running = true → s.on CMC_STATUS_READY = true → s.d3hot p = false →
    (s.exists a = true → (s.owns p (some a) = true ∨ p.val = s.mgmtPort) →
      ∀ c ∈ [Instr.lock p a v, .quiesce p a v, .release p a v, .shareOkWrite p a v],
        ∃ t, exec c s = .next t ∧ t.on ATL_CTL_LOCK a = (s.on ATL_CTL_LOCK a || v.getLsbD 2)
          ∧ (s.owns p (some a) = true → t.on ATL_CTL_SHARE_OK a = v.getLsbD 7)
          ∧ (s.owns p (some a) = false → t.on ATL_CTL_SHARE_OK a = s.on ATL_CTL_SHARE_OK a)
          ∧ t.fld ATL_STATUS_STATE a = (if v.getLsbD 3 = true then (if s.fld ATL_STATUS_STATE a = 1 then 2 else s.fld ATL_STATUS_STATE a)
              else if v.getLsbD 4 = true ∧ s.fld ATL_STATUS_STATE a = 3 ∧ s.on ATL_STATUS_ORPHANED a = false then 1
              else s.fld ATL_STATUS_STATE a)
          ∧ (v.getLsbD 3 = true → s.fld ATL_STATUS_STATE a = 1 → ∀ f ∈ t.units.rings.fetched, f.ring ∉ s.ringsOf a)
          ∧ ((v.getLsbD 3 = true ∧ s.fld ATL_STATUS_STATE a = 1)
                ∨ (s.owns p (some a) = true ∧ s.on ATL_CTL_SHARE_OK a = true ∧ v.getLsbD 7 = false) →
              ∀ tl : TileNo, s.on MX_STATUS_SPLIT_ACTIVE tl = true →
                (s.rightHolder tl = some a.val → t.parked tl true = true) ∧ (s.tileOwner tl = some a.val → t.parked tl false = true)))
    ∧ (s.fld ATL_STATUS_STATE a = 2 → s.fld ATL_TAGS_IN_USE_COUNT a = 0 →
        (∀ d ∈ s.slots, d.atelier = a.val → d.phase ≠ .issued ∧ d.phase ≠ .done) →
      ∃ t, exec (.quiesceDone a) s = .next t ∧ t.fld ATL_STATUS_STATE a = 3 ∧ t.slots = s.slots
        ∧ (a.val ∉ s.units.host.draining → fieldsKeptBut [ATL_STATUS_STATE] s t)
        ∧ (s.units.host.draining = [a.val] → t.units.host.draining = [] ∧ t.on RISK_STATUS_DRAINED = true
          ∧ t.on RISK_EVENT_DRAINED = true))

/-- A host loss records its event, and orphans every atelier of the port, which quiesces; management rights fall back to H0
where the management atelier is among them (R337, R341, R349). An adoption gives a QUIESCED atelier to a port that is up
with Bus Master Enable, and clears ORPHANED and LOCK; else its write is recorded (R350). A dissolve leaves nothing of a
QUIESCED atelier, and memory as it was (R351). SHARE[t] is written while the array is not split (R345, R346). Where the spec
leaves a point open or to be inferred, this is the model's choice of log entries 50, 51 and 52. -/
def Obligations.HostsAndAteliers : Prop :=
  ∀ (s : State) (p : HostNo) (v : Word), s.running = true →
    (∀ cause : LossCause, ∃ t, exec (.hostLoss p cause) s = .next t
      ∧ t.on (match cause with
          | .linkDown => HOST_EVENT_LINK_DOWN
          | .hotReset => HOST_EVENT_HOT_RESET
          | .flr => HOST_EVENT_FLR
          | .bmeCleared => HOST_EVENT_BME_CLEARED) p = true
      ∧ ((cause = .linkDown ∨ cause = .hotReset) → t.on HOST_STATUS_UP p = false)
      ∧ (cause = .bmeCleared → t.busMaster p = false)
      ∧ (∀ a : AtlNo, s.owns p (some a) = true → t.on ATL_STATUS_ORPHANED a = true
          ∧ (s.fld ATL_STATUS_STATE a = 1 → t.fld ATL_STATUS_STATE a = 2))
      ∧ (∀ a : AtlNo, s.owns p (some a) = false → t.on ATL_STATUS_ORPHANED a = s.on ATL_STATUS_ORPHANED a
          ∧ t.fld ATL_STATUS_STATE a = s.fld ATL_STATUS_STATE a)
      ∧ (∀ a, s.mgmtAtelier = some a → s.portOf a = p.val → t.mgmtPort = 0)
      ∧ memoryKept s t ∧ t.slots.map (·.id) = s.slots.map (·.id))
    ∧ (∃ t, exec (.atsInvalidate p) s = .next t ∧ t = { s with regs := t.regs }
        ∧ t.fld HOST_ATS_INVALIDATIONS p = min (s.fld HOST_ATS_INVALIDATIONS p + 1) 0xffffffff
        ∧ fieldsKeptBut [HOST_ATS_INVALIDATIONS] s t)
    ∧ (∀ a q : Nat, s.opened p ATL_ADOPT_GO = true → v.getLsbD 63 = true → a = bits v 3 0 → q = bits v 5 4 →
      let ok := s.exists a = true ∧ s.fld ATL_STATUS_STATE a = 3 ∧ s.on HOST_STATUS_UP q = true ∧ s.busMaster q = true
        ∧ s.mgmtAtelier ≠ some a
      (ok → ∃ t, exec (.adopt p v) s = .next t ∧ t.portOf a = q ∧ t.on ATL_STATUS_ORPHANED a = false ∧ t.on ATL_CTL_LOCK a = false
        ∧ t.fld ATL_STATUS_STATE a = 3 ∧ a ∈ t.units.host.adopted ∧ memoryKept s t)
      ∧ (¬ ok → ∃ t, exec (.adopt p v) s = .next t ∧ t = { s with regs := t.regs }
        ∧ t.fld HOST_LOCKED_COUNT p = min (s.fld HOST_LOCKED_COUNT p + 1) 0xffffffff
        ∧ fieldsKeptBut [HOST_LOCKED_COUNT, HOST_LOCKED_LOG_VALID, HOST_LOCKED_LOG_OVERRUN, HOST_LOCKED_LOG_ADDR] s t))
    ∧ (∀ a : Nat, s.opened p ATL_DISSOLVE_GO = true → v.getLsbD 63 = true → a = bits v 3 0 →
      let ok := s.exists a = true ∧ s.fld ATL_STATUS_STATE a = 3 ∧ s.mgmtAtelier ≠ some a
      (ok → ∃ t, exec (.dissolve p v) s = .next t ∧ t.exists a = false ∧ t.on ATL_CTL_LOCK a = false
        ∧ t.fld ATL_STATUS_STATE a = 0 ∧ t.fld ATL_TILES_MASK a = 0 ∧ t.fld ATL_DIES_MASK a = 0 ∧ t.fld ATL_RINGS_COUNT a = 0
        ∧ (∀ i : Fin 8, t.on ATL_HBM_VALID a i = false)
        ∧ (∀ r ∈ s.ringsOf a, t.fld RING_STATE_STATE r = 0 ∧ t.on RING_CTL_ENABLE r = false)
        ∧ (∀ tl : TileNo, s.fld ATL_SHARE_RIGHT 0 tl = a → t.on ATL_SHARE_VALID 0 tl = false)
        ∧ (∀ k, k < 16 → t.fld COLL_VL_OWNER_OWNER / 16 ^ k % 16 =
              (if s.fld COLL_VL_OWNER_OWNER / 16 ^ k % 16 = a then 0 else s.fld COLL_VL_OWNER_OWNER / 16 ^ k % 16)
            ∧ (s.laneOwner (k + 1) = some a → t.laneOwner (k + 1) = none))
        ∧ (∀ d ∈ t.slots, d.atelier ≠ a) ∧ memoryKept s t
        ∧ ∀ i k, t.fld PAL_AC_VALUE i k = s.fld PAL_AC_VALUE i k)
      ∧ (¬ ok → ∃ t, exec (.dissolve p v) s = .next t ∧ t = { s with regs := t.regs }
        ∧ t.fld HOST_LOCKED_COUNT p = min (s.fld HOST_LOCKED_COUNT p + 1) 0xffffffff
        ∧ fieldsKeptBut [HOST_LOCKED_COUNT, HOST_LOCKED_LOG_VALID, HOST_LOCKED_LOG_OVERRUN, HOST_LOCKED_LOG_ADDR] s t))
    ∧ ∀ tl : TileNo, s.opened p ATL_SHARE_VALID 0 tl = true →
      let ok := s.on MX_STATUS_SPLIT_ACTIVE tl = false
        ∧ (bits v 63 63 = 0 ∨ (bits v 51 48 ≠ 0 ∧ bits v 51 48 ≠ 15 ∧ bits v 41 32 % 64 = 0 ∧ 64 ≤ bits v 41 32 ∧ bits v 41 32 ≤ 960))
      (ok → ∃ t, exec (.shareSet p tl v) s = .next t ∧ t = { s with regs := t.regs }
        ∧ t.fld ATL_SHARE_VALID 0 tl = bits v 63 63 ∧ t.fld ATL_SHARE_RIGHT 0 tl = bits v 55 52
        ∧ t.fld ATL_SHARE_RQ 0 tl = bits v 51 48 ∧ t.fld ATL_SHARE_AC_SPLIT 0 tl = bits v 41 32)
      ∧ (¬ ok → ∃ t, exec (.shareSet p tl v) s = .next t ∧ t = { s with regs := t.regs }
        ∧ t.fld HOST_LOCKED_COUNT p = min (s.fld HOST_LOCKED_COUNT p + 1) 0xffffffff
        ∧ fieldsKeptBut [HOST_LOCKED_COUNT, HOST_LOCKED_LOG_VALID, HOST_LOCKED_LOG_OVERRUN, HOST_LOCKED_LOG_ADDR] s t)

/-! ### Power and plant -/

/-- A write of OP begins a change where it asks for another point, unless one is in progress, when it is taken later, or the
regulator takes no target, when AVS_ERR is set and the operating point stays (R359, R373). A change ends within 10 mV of its
target, or after 100 µs with AVS_ERR (R359). A droop counts once, and ends (R360). QUIET sets the mode, and stops ballast
(R371). At 115 °C every tile and Varnish domain trips and every descriptor in progress is lost (R372). Where the spec leaves
a point open or to be inferred, this is the model's choice of log entry 53. -/
def Obligations.RailsAndModes : Prop :=
  ∀ (s : State) (d : RailNo), s.running = true →
    (∀ (p : HostNo) (v : Word), s.writable p PWR_RAIL_OP 0 d = true →
      ∃ t, exec (.railOpWrite p d v) s = .next t ∧ t.fld PWR_RAIL_OP 0 d = bits v 1 0
        ∧ ((s.on PWR_RAIL_BUSY 0 d = true ∨ opMv (bits v 1 0) = s.fld PWR_RAIL_VTARGET 0 d) → fieldsKeptBut [PWR_RAIL_OP] s t)
        ∧ (s.on PWR_RAIL_BUSY 0 d = false → opMv (bits v 1 0) ≠ s.fld PWR_RAIL_VTARGET 0 d →
          .avs d (opMv (bits v 1 0)) ∈ t.out
          ∧ ((t.on PWR_RAIL_BUSY 0 d = true ∧ bit (t.fld PWR_STATUS_OP_BUSY) d = true
                ∧ t.fld PWR_RAIL_VTARGET 0 d = opMv (bits v 1 0)
                ∧ t.fld PWR_RAIL_OP_NOW 0 d = (if opMv (bits v 1 0) < s.fld PWR_RAIL_VTARGET 0 d then bits v 1 0
                    else s.fld PWR_RAIL_OP_NOW 0 d))
            ∨ (t.on PLANT_EVENT_AVS_ERR = true ∧ t.on PWR_RAIL_BUSY 0 d = false
                ∧ t.fld PWR_RAIL_VTARGET 0 d = s.fld PWR_RAIL_VTARGET 0 d
                ∧ t.fld PWR_RAIL_OP_NOW 0 d = s.fld PWR_RAIL_OP_NOW 0 d))))
    ∧ (∀ mv : BitVec 16, s.on PWR_RAIL_BUSY 0 d = true → opMv (s.fld PWR_RAIL_OP 0 d) = s.fld PWR_RAIL_VTARGET 0 d →
      let near := mv.toNat ≤ s.fld PWR_RAIL_VTARGET 0 d + 10 ∧ s.fld PWR_RAIL_VTARGET 0 d ≤ mv.toNat + 10
      ∀ c, (c = .railOpSettle d mv ∧ near) ∨ (c = .railSettleTimeout d mv ∧ ¬ near) →
        ∃ t, exec c s = .next t ∧ t.on PWR_RAIL_BUSY 0 d = false ∧ bit (t.fld PWR_STATUS_OP_BUSY) d = false
          ∧ t.fld PWR_RAIL_OP_NOW 0 d = s.fld PWR_RAIL_OP 0 d ∧ t.fld PWR_RAIL_VSENSE 0 d = mv.toNat
          ∧ t.on PLANT_EVENT_AVS_ERR = (s.on PLANT_EVENT_AVS_ERR || c == .railSettleTimeout d mv))
    ∧ (∀ mv : BitVec 16, mv.toNat + s.fld PWR_DROOP_CFG_MV < s.fld PWR_RAIL_VTARGET 0 d → d.val ∉ s.units.pwr.droops →
      ∃ t, exec (.droopStart d mv) s = .next t ∧ t.fld PWR_DROOP_COUNT 0 d = min (s.fld PWR_DROOP_COUNT 0 d + 1) 0xffffffff
        ∧ d.val ∈ t.units.pwr.droops ∧ t.units.fail.droops = s.units.fail.droops + 1
        ∧ fieldsKeptBut [PWR_DROOP_COUNT, PWR_RAIL_VSENSE] s t)
    ∧ (∃ t, exec (.droopEnd d) s = .next t ∧ sameBeyondUnits s t ∧ d.val ∉ t.units.pwr.droops)
    ∧ (∀ (p : HostNo) (v : Word), s.opened p PWR_CTL_QUIET = true →
      ∃ t, exec (.quietWrite p v) s = .next t
        ∧ t.fld PWR_STATUS_MODE = (if s.fld PWR_STATUS_MODE = 2 then 2 else bits v 1 1)
        ∧ (bits v 1 1 = 1 → t.units.plant.ballast = []) ∧ fieldsKeptBut [PWR_CTL_QUIET, PWR_STATUS_MODE] s t)
    ∧ ∀ q : Int, s.fld PWR_STATUS_MODE ≠ 2 →
      (460 ≤ q → ∃ t, exec (.thermalTrip q) s = .next t ∧ t.fld PWR_STATUS_MODE = 2 ∧ t.thermTripLow = true ∧ t.faultLow = true
        ∧ (∀ k, k < 400 → t.dom k = 6) ∧ (∀ k, 400 ≤ k → k < 432 → t.dom k = s.dom k)
        ∧ ∀ x ∈ t.slots, x.phase ≠ .issued ∧ x.phase ≠ .done)
      ∧ (q < 460 → exec (.thermalTrip q) s = .next s)

/-- What one request for a domain does to it, with nothing else asked for (R368): a WAKE of an OFF domain shows WAKING and a
WAKE of an IDLE one takes it to ON, with PWR.LAST_WAKE; IDLE and OFF wait until the engine has no descriptor in progress; a
request that finds nothing to do ends at once. A PWR_DOMAIN with nothing named is over at once (R367). PWR.DOM_CMD does the
same, or is refused with RESULT 2 (R368, R386). The end of a timed step brings a domain to its next state: a woken one to
HELD, and on to ON where it is released, one made IDLE to IDLE, one switched off to OFF, with the registers of its block at
their reset values, and a released one to ON (R362, R363, R366); its request ends with it, and its PWR_DOMAIN is over
(R368). Where the spec leaves a point open or to be inferred, this is the model's choice of log entries 54, 55 and 56. -/
def Obligations.PowerDomains : Prop :=
  (∀ s : State, s.running = true → s.units.pwr.reqs = [] → s.units.pwr.moving = [] →
     (∀ (id op : Nat) (d : Slot) (c : Instr), s.pwrRun id op = some d →
         (op, c) ∈ [(0, Instr.pwrDomainWake id), (1, .pwrDomainIdle id), (2, .pwrDomainOff id), (3, .pwrDomainRelease id)] →
       (tileDoms d.words false ++ pwrStacks d.words = [] → ∃ t, exec c s = .next t ∧ t.over id ∧ fieldsKeptBut [] s t)
       ∧ ∀ k, tileDoms d.words (op == 2) ++ pwrStacks d.words = [k] → s.alone k op = true →
         ∃ t, exec c s = .next t ∧ s.domAnswer t k op (body d.words 1 4 4 = 1) 0 (t.over id)
           ∧ ∀ j, j < 432 → j ≠ k → t.dom j = s.dom j)
     ∧ (∀ (id : Nat) (d : Slot) (q : Nat), (s.pwrRun id 4 = some d ∧ q = 4) ∨ (s.pwrRun id 5 = some d ∧ q = 5) →
       ∃ t, exec (if q = 4 then .wowSet id else .wowClear id) s = .next t ∧ t.over id
         ∧ (∀ j, j < 64 → bit (t.fld PWR_WOW_TILES) j =
             if bit (body d.words 0 63 0) j then q == 4 else bit (s.fld PWR_WOW_TILES) j)
         ∧ (∀ j, j < 16 → bit (t.fld PWR_WOW_DIES_DIES) j =
             if bit (body d.words 1 47 32) j then q == 4 else bit (s.fld PWR_WOW_DIES_DIES) j)
         ∧ fieldsKeptBut [PWR_WOW_TILES, PWR_WOW_DIES_DIES] s t)
     ∧ (∀ (p : HostNo) (v : Word) (k op : Nat), s.opened p PWR_DOM_CMD_GO = true → v.getLsbD 63 = true →
         s.on PWR_DOM_CMD_GO = false → k = bits v 8 0 → op = bits v 15 12 →
       ∀ c ∈ [Instr.domCmdWake p v, .domCmdIdle p v, .domCmdOff p v, .domCmdRelease p v],
         (s.refusesCmd op k = true → ∃ t, exec c s = .next t ∧ t.fld PWR_DOM_CMD_RESULT = 2 ∧ t.on PWR_DOM_CMD_GO = false
           ∧ t.units.pwr = s.units.pwr ∧ ∀ j, j < 432 → t.dom j = s.dom j)
         ∧ (s.refusesCmd op k = false → s.alone k op = true →
           ∃ t, exec c s = .next t ∧ s.domAnswer t k op false 1 (t.on PWR_DOM_CMD_GO = false ∧ t.fld PWR_DOM_CMD_RESULT = 1)
             ∧ ∀ j, j < 432 → j ≠ k → t.dom j = s.dom j)))
  ∧ ∀ (s : State) (k : DomNo) (r : DomReq) (x : Slot), s.running = true → s.units.pwr.reqs = [r] → s.units.pwr.moving = [k.val] →
      r.dom = k.val → r.src = .descriptor x.id → s.slot x.id = some x → (k.val < 384 → k.val % 6 < 2) →
      ∃ t, exec (.domainTransitionDone k) s = .next t ∧ (∀ j, j < 432 → j ≠ k.val → t.dom j = s.dom j)
        ∧ (∀ rel, r.op = .wake rel →
          (s.dom k = 1 → t.dom k = 2 ∧ (rel = false → t.units.pwr.reqs = [] ∧ t.over x.id)
            ∧ (rel = true → t.units.pwr.reqs = [r] ∧ t.units.pwr.moving = [k.val]))
          ∧ (s.dom k ≠ 1 → t.dom k = 3 ∧ t.units.pwr.reqs = [] ∧ t.over x.id))
        ∧ (r.op = .idle → t.dom k = 4 ∧ t.units.pwr.reqs = [] ∧ t.over x.id)
        ∧ (r.op = .release → t.dom k = 3 ∧ t.units.pwr.reqs = [] ∧ t.over x.id)
        ∧ (r.op = .off → t.dom k = 0 ∧ t.units.pwr.reqs = [] ∧ t.over x.id
            ∧ ∀ (b : Blk) (i off : Nat), place (blkBase b i + off) = .reg b i off →
              ((b = .mx ∧ k.val = 6 * i) ∨ ((b = .ve ∨ b = .sfu) ∧ k.val = 6 * i + 1) ∨ (b = .var ∧ k.val = 384 + i)) →
              t.held (blkBase b i + off) = regReset (blkBase b i + off))

/-- An update of the governor reports the readings, p_est, ceil_eff, floor_eff and the hottest junction (R375, R377), lowers
every throttle where p_est is above the rise limit and lowers none where it is not, but for those of arrays that begin
ballast (R379), keeps it from 1 to 64 (R376, R377), and runs ballast in RUN alone, outside a curtail (R371, R378, R384).
Ballast stops for a stamped product (R378). A curtail takes its level, stops ballast, and acknowledges once p_est is at or
below its entry; its end clears CURT_ACK (R384). EN is refused while the sketch port holds the pads (R385). Where the spec
leaves a point open or to be inferred, this is the model's choice of log entries 57, 58 and 59. -/
def Obligations.GovernorAndCurtail : Prop :=
  ∀ s : State, s.running = true →
    (∀ (a b c d : RailSense) (q : Int) (ceil floor p : Nat), ceil = s.ceilEff q →
        floor = s.floorEff ceil (s.fld PLANT_STATUS_P_EST) →
        p = min 0xffff ((a.mv.toNat * a.amps.toNat + b.mv.toNat * b.amps.toNat + c.mv.toNat * c.amps.toNat
          + d.mv.toNat * d.amps.toNat) / 1000 + s.fld PLANT_UNCORE_W) →
      ∃ t, exec (.governorUpdate [a, b, c, d] q) s = .next t
        ∧ t.fld PLANT_STATUS_P_EST = p ∧ t.fld PLANT_STATUS_CEIL_EFF = ceil ∧ t.fld PLANT_STATUS_FLOOR_EFF = floor
        ∧ t.fld PWR_RAIL_VSENSE 0 1 = b.mv.toNat ∧ t.fld PWR_RAIL_ISENSE 0 3 = d.amps.toNat
        ∧ (-32768 ≤ q → q ≤ 32767 → intOf 16 (t.fld PLANT_THERM_TJ_MAX) = q)
        ∧ (s.thermalCeiling q < s.ceiling → t.on PLANT_EVENT_THERM_LIMIT = true)
        ∧ (∀ x, s.socCeiling = some x → x < s.ceiling → t.on PLANT_EVENT_SOC_LOW = true)
        ∧ (∀ tl, tl < 64 → 1 ≤ s.theta tl → s.theta tl ≤ 64 → 1 ≤ t.theta tl ∧ t.theta tl ≤ 64
            ∧ (s.riseLimit ceil (s.fld PLANT_STATUS_P_EST) < p → t.theta tl ≤ s.theta tl ∧ (1 < s.theta tl → t.theta tl < s.theta tl))
            ∧ (p ≤ s.riseLimit ceil (s.fld PLANT_STATUS_P_EST) → (tl ∈ t.units.plant.ballast → tl ∈ s.units.plant.ballast) →
                s.theta tl ≤ t.theta tl))
        ∧ ((s.fld PWR_STATUS_MODE ≠ 0 ∨ s.curtailed = true) → t.units.plant.ballast = [])
        ∧ (s.fld PWR_STATUS_MODE = 0 → s.curtailed = false → ∀ tl ∈ t.units.plant.ballast,
            tl ∈ s.units.plant.ballast ∨ (p < floor ∧ s.mayBallast tl = true)))
    ∧ (∀ tl : TileNo, s.ballastDue tl = true →
      ∃ t, exec (.ballastStop tl) s = .next t ∧ sameBeyondUnits s t ∧ tl.val ∉ t.units.plant.ballast)
    ∧ (∀ level : Fin 16, s.hearsCurtail = true →
      (s.curtailed = false →
        ∃ t, exec (.curtailAssert level) s = .next t ∧ t.curtailed = true ∧ t.fld PLANT_STATUS_CURT_LVL = level
          ∧ t.fld PLANT_CURT_EVENTS_COUNT = min (s.fld PLANT_CURT_EVENTS_COUNT + 1) 0xffffffff ∧ t.units.plant.ballast = []
          ∧ (s.fld PLANT_STATUS_P_EST ≤ s.curtEntry level → t.on PLANT_STATUS_CURT_ACK = true))
      ∧ (s.curtailed = true → s.units.plant.curtReq = true →
        ∃ t, exec (.curtailLevelChange level) s = .next t ∧ t.curtailed = true ∧ t.fld PLANT_STATUS_CURT_LVL = level
          ∧ (s.curtEntry level < s.curtEntry (s.fld PLANT_STATUS_CURT_LVL) → t.on PLANT_STATUS_CURT_ACK = false)
          ∧ (s.curtEntry (s.fld PLANT_STATUS_CURT_LVL) ≤ s.curtEntry level →
              t.on PLANT_STATUS_CURT_ACK = s.on PLANT_STATUS_CURT_ACK))
      ∧ (s.curtailed = true →
        ∃ t, exec .curtailRelease s = .next t ∧ t.curtailed = false ∧ t.on PLANT_STATUS_CURT_ACK = false
          ∧ fieldsKeptBut [PLANT_STATUS_CURTAILED, PLANT_STATUS_CURT_LVL, PLANT_STATUS_CURT_ACK] s t))
    ∧ (∀ level : Fin 16, s.hearsCurtail = false → s.curtailed = false →
      ∃ t, exec (.curtailAssert level) s = .next t ∧ sameBeyondUnits s t)
    ∧ ∀ (p : HostNo) (v : Word), s.opened p PLANT_CTL_EN = true →
      (bits v 0 0 = 1 → s.on PLANT_CTL_EN = false → s.on DBG_STATUS_ACTIVE = true →
        ∃ t, exec (.plantEnWrite p v) s = .next t ∧ t = { s with regs := t.regs } ∧ t.on PLANT_EVENT_PINS = true
          ∧ t.fld HOST_LOCKED_COUNT p = min (s.fld HOST_LOCKED_COUNT p + 1) 0xffffffff ∧ t.on PLANT_CTL_EN = false)
      ∧ ((bits v 0 0 = 0 ∨ s.on PLANT_CTL_EN = true ∨ s.on DBG_STATUS_ACTIVE = false) →
        ∃ t, exec (.plantEnWrite p v) s = .next t ∧ t.fld PLANT_CTL_EN = bits v 0 0 ∧ t.fld PLANT_CTL_CURT_EN = bits v 3 3
          ∧ t.fld PLANT_STATUS_PINS_PLANT = bits v 0 0
          ∧ (bits v 0 0 = 0 → t.on PLANT_STATUS_LSN_OUT = false ∧ t.curtailed = false ∧ t.on PLANT_CTL_EN = false))

/-- A notice and its acknowledgement: LSN_OUT rises with its count where a rise is predicted for LEAD and it has been low
for 3 µs, and falls once LEAD has passed, every rise is admitted and none is predicted; an edge of LSN_ACK within 2 µs
acknowledges it, a later one is late; 5 µs after an acknowledged rise it is covered; it falls by itself at HOLD_MAX (R379,
R380). A frame from the energy buffer is taken where its CRC, type and gaps are right, else counted (R381, R383); without
one SoC goes stale (R383). A forecast leaves at its tick (R381, R382). A poll of the regulators takes their telemetry
(R374). Where the spec leaves a point open or to be inferred, this is the model's choice of log entries 58, 88 and 89. -/
def Obligations.NoticesAndPlantLink : Prop :=
  ∀ s : State, s.running = true →
    (s.on PLANT_CTL_EN = true → s.on PLANT_STATUS_LSN_OUT = false → s.lsnRested = true → s.risePredicted s.lsnLead = true →
      ∃ t, exec .lsnAssert s = .next t ∧ t.on PLANT_STATUS_LSN_OUT = true
        ∧ t.fld PLANT_LSN_NOTICES_COUNT = min (s.fld PLANT_LSN_NOTICES_COUNT + 1) 0xffffffff
        ∧ t.units.plant.acked = false ∧ t.units.plant.late = false ∧ t.units.plant.covered = false
        ∧ fieldsKeptBut [PLANT_STATUS_LSN_OUT, PLANT_LSN_NOTICES_COUNT] s t)
    ∧ (s.on PLANT_CTL_EN = true → s.on PLANT_STATUS_LSN_ACK = false →
      ∃ t, exec .lsnAck s = .next t ∧ t.on PLANT_STATUS_LSN_ACK = true
        ∧ (s.on PLANT_STATUS_LSN_OUT = true → s.units.plant.late = false → t.units.plant.acked = true
          ∧ fieldsKeptBut [PLANT_STATUS_LSN_ACK] s t)
        ∧ (s.on PLANT_STATUS_LSN_OUT = true → s.units.plant.late = true → t.on PLANT_EVENT_LATE_ACK = true
          ∧ t.units.plant.acked = s.units.plant.acked))
    ∧ (s.on PLANT_STATUS_LSN_OUT = true → s.units.plant.acked = false → s.units.plant.late = false →
      ∃ t, exec .lsnAckTimeout s = .next t ∧ t.on PLANT_EVENT_NOACK = true ∧ t.units.plant.late = true
        ∧ t.fld PLANT_LSN_NOACK_COUNT = min (s.fld PLANT_LSN_NOACK_COUNT + 1) 0xffffffff)
    ∧ (s.on PLANT_STATUS_LSN_OUT = true → s.units.plant.acked = true →
      ∃ t, exec .riseCovered s = .next t ∧ sameBeyondUnits s t ∧ t.units.plant.covered = true)
    ∧ ((s.lsnRested = false ∨ s.risePredicted s.lsnLead = false) → exec .lsnAssert s = .next s)
    ∧ (s.on PLANT_STATUS_LSN_OUT = true → (s.lsnLead : Int) ≤ sdiff s.ticks s.units.plant.lsnRose 64 → s.admittedWhole = true →
        s.risePredicted 10000 = false →
      ∃ t, exec .lsnDeassert s = .next t ∧ t.on PLANT_STATUS_LSN_OUT = false ∧ t.units.plant.covered = false
        ∧ fieldsKeptBut [PLANT_STATUS_LSN_OUT] s t)
    ∧ ((sdiff s.ticks s.units.plant.lsnRose 64 < (s.lsnLead : Int) ∨ s.admittedWhole = false ∨ s.risePredicted 10000 = true) →
      exec .lsnDeassert s = .next s)
    ∧ (s.on PLANT_STATUS_LSN_OUT = true →
      ∃ t, exec .lsnHoldMax s = .next t ∧ t.on PLANT_STATUS_LSN_OUT = false ∧ t.on PLANT_EVENT_HOLD_MAX = true)
    ∧ (∃ t, exec .lsnAckFall s = .next t ∧ t = { s with regs := t.regs } ∧ t.on PLANT_STATUS_LSN_ACK = false
        ∧ fieldsKeptBut [PLANT_STATUS_LSN_ACK] s t)
    ∧ (∀ (frame : BitVec 192) (f : Nat) (gap : Bool) (soc : Nat), f = frame.toNat → soc = frameByte f 4 + 256 * frameByte f 5 →
      let good := gap = false ∧ frameByte f 0 = 0xa5 ∧ frameByte f 1 = 2 ∧ frameByte f 22 + 256 * frameByte f 23 = plantCrc f
      (good → frameByte f 3 % 2 = 1 → soc ≤ 10000 →
        ∃ t, exec (.socFrameReceive frame gap) s = .next t ∧ t.fld PLANT_SOC_NOW_SOC = soc
          ∧ t.fld PLANT_SOC_NOW_SEQ = frameByte f 2 ∧ t.on PLANT_SOC_NOW_VALID = true ∧ t.on PLANT_STATUS_SOC_STALE = false)
      ∧ (good → ¬ (frameByte f 3 % 2 = 1 ∧ soc ≤ 10000) → exec (.socFrameReceive frame gap) s = .next s)
      ∧ (¬ good → ∃ t, exec (.socFrameReceive frame gap) s = .next t ∧ t = { s with regs := t.regs }
        ∧ t.fld PLANT_LINK_ERR_COUNT = min (s.fld PLANT_LINK_ERR_COUNT + 1) 0xffffffff
        ∧ fieldsKeptBut [PLANT_LINK_ERR_COUNT] s t))
    ∧ (∃ t, exec .socTimeout s = .next t ∧ t = { s with regs := t.regs } ∧ t.on PLANT_STATUS_SOC_STALE = true
        ∧ t.on PLANT_EVENT_SOC_STALE = true ∧ fieldsKeptBut [PLANT_STATUS_SOC_STALE, PLANT_EVENT_SOC_STALE] s t)
    ∧ (s.on PLANT_CTL_FORECAST_EN = true → s.ticks % 100000 = 0 →
      ∃ t f, exec .forecastSend s = .next t ∧ t.out = s.out ++ [.plantFrame (BitVec.ofNat 192 f)] ∧ f < 2 ^ 192
        ∧ frameByte f 0 = 0xa5 ∧ frameByte f 1 = 1 ∧ frameByte f 2 = s.units.plant.seq % 256
        ∧ frameByte f 22 + 256 * frameByte f 23 = plantCrc f
        ∧ frameByte f 4 + 256 * frameByte f 5 = s.moduleId
        ∧ frameByte f 6 + 256 * frameByte f 7 + 65536 * frameByte f 8 + 16777216 * frameByte f 9 = s.ticks % 2 ^ 32
        ∧ (s.on PLANT_STATUS_LSN_OUT = false → frameByte f 20 = 0 ∧ frameByte f 21 = 0)
        ∧ frameByte f 20 + 256 * frameByte f 21 = s.noticeStep % 65536
        ∧ (s.fld PLANT_PLAN_P_1MS ≠ 0 → frameByte f 12 + 256 * frameByte f 13
            = max (s.fld PLANT_STATUS_FLOOR_EFF) (min (s.fld PLANT_STATUS_CEIL_EFF) (s.fld PLANT_PLAN_P_1MS)))
        ∧ t.units.plant.seq = (s.units.plant.seq + 1) % 256)
    ∧ ∀ rs : List (Option Telemetry), rs.length = 4 →
      ∃ t, exec (.pmbusPoll rs) s = .next t
        ∧ t.out = s.out ++ ([PLANT_PMB_ADDR0, PLANT_PMB_ADDR1, PLANT_PMB_ADDR2, PLANT_PMB_ADDR3].map fun a => .pmbusRead (s.fld a))
        ∧ ∀ d : RailNo,
          (∀ x, rs[d.val]? = some (some x) → t.fld PLANT_RAIL_TELEM_STATUS_WORD 0 d = x.status.toNat
            ∧ t.fld PLANT_RAIL_TELEM_TEMP 0 d = x.temp.toNat ∧ t.fld PLANT_RAIL_TELEM_IOUT 0 d = x.iout.toNat
            ∧ t.fld PLANT_RAIL_TELEM_VOUT 0 d = x.vout.toNat)
          ∧ (rs[d.val]? = some none → t.on PLANT_EVENT_PMB_ERR = true
            ∧ t.fld PLANT_RAIL_TELEM_VOUT 0 d = s.fld PLANT_RAIL_TELEM_VOUT 0 d)

/-! ### Counters, start-up, fuses and the sketch port -/

/-- A window opens once no open window of its tile claims a counter of its own, with the replica's value, and CLEAR starts
its counters anew (R397, R398); its close ends its descriptor, and a point edge moves it on (R398). RD moves over unread
records only (R396). A periodic dump leaves as its record and then its header, or is lost (R399 to R401). Where the spec
leaves a point open or to be inferred, this is the model's choice of log entries 61 and 97. -/
def Obligations.WindowsAndDumps : Prop :=
  ∀ (s : State) (tl : TileNo), s.running = true →
    (∀ (d : Slot) (claims : Nat), s.slot d.id = some d → d.phase = .issued → opcodeOf d.words = 0x70 → d.target = tl.val →
        (∀ w ∈ s.units.pmc.windows, w.slot ≠ d.id) → claims = body d.words 0 15 0 → s.claimed tl &&& claims = 0 →
      ∃ t w, exec (.pmcWindow d.id) s = .next t ∧ w ∈ t.units.pmc.windows ∧ w.slot = d.id ∧ w.tile = tl.val ∧ w.claims = claims
        ∧ w.opened = s.replica tl ∧ w.duration = body d.words 1 31 0 ∧ w.point = body d.words 2 31 0 ∧ w.next = 1
        ∧ (body d.words 0 16 16 = 1 → ∀ n, n < 16 → bit claims n = true → t.fld PMC_CTR_VALUE tl n
            = if s.on PMC_EVSEL_SAMPLE tl n = true then 2 ^ 48 - (if s.fld PMC_EVSEL_PERIOD tl n = 0 then 2 ^ 24
                else s.fld PMC_EVSEL_PERIOD tl n) else 0)
        ∧ ∀ n, n < 16 → (body d.words 0 16 16 = 0 ∨ bit claims n = false) →
            t.fld PMC_CTR_VALUE tl n = s.fld PMC_CTR_VALUE tl n)
    ∧ (∀ w : PmcWindow, (s.units.pmc.windows.find? fun x => x.tile = tl.val) = some w →
        (∀ x ∈ s.units.pmc.windows, x.slot = w.slot → x = w) → s.lentLc3 tl = true → 0 ≤ s.edgeAge w →
      (w.edge.2 = true → (s.slot w.slot).isSome = true →
        ∃ t, exec (.windowEdge tl) s = .next t ∧ t.over w.slot ∧ ∀ x ∈ t.units.pmc.windows, x.slot ≠ w.slot)
      ∧ (w.edge.2 = false → w.recalled = false →
        ∃ t, exec (.windowEdge tl) s = .next t ∧ { w with next := w.next + 1 } ∈ t.units.pmc.windows
          ∧ t.fld PMC_WIN_SKIPPED tl = s.fld PMC_WIN_SKIPPED tl))
    ∧ (∀ (p : HostNo) (v : Word) (n moved : Nat), s.opened p PMC_SBUF_CTL_RD tl = true → n = s.fld PMC_SBUF_CTL_COUNT tl →
        moved = (bits v 11 8 + 16 - s.fld PMC_SBUF_CTL_RD tl) % 16 →
      (moved ≤ n → ∃ t, exec (.sbufRdWrite p tl v) s = .next t ∧ t = { s with regs := t.regs }
        ∧ t.fld PMC_SBUF_CTL_RD tl = bits v 11 8 ∧ t.fld PMC_SBUF_CTL_COUNT tl = n - moved
        ∧ t.on PMC_SBUF_CTL_FULL tl = (n - moved == 16) ∧ t.fld PMC_SBUF_CTL_WR tl = s.fld PMC_SBUF_CTL_WR tl)
      ∧ (n < moved → ∃ t, exec (.sbufRdWrite p tl v) s = .next t ∧ t = { s with regs := t.regs }
        ∧ t.fld HOST_LOCKED_COUNT p = min (s.fld HOST_LOCKED_COUNT p + 1) 0xffffffff
        ∧ t.fld PMC_SBUF_CTL_RD tl = s.fld PMC_SBUF_CTL_RD tl ∧ t.fld PMC_SBUF_CTL_COUNT tl = n))
    ∧ ∀ (room : Bool) (a k seq : Nat) (base : BitVec 64), s.on PMC_DUMP_CTL_EN tl = true → s.fld PMC_DUMP_CTL_PERIOD tl ≠ 0 →
        s.replica tl % (s.fld PMC_DUMP_CTL_PERIOD tl * 1024) = 0 → s.tileOwner tl = some a →
        k = s.fld PMC_DUMP_BASE_LOG2_RECORDS tl → 4 ≤ k → k ≤ 16 → seq = s.fld PMC_DUMP_CTL_SEQ tl →
        base = BitVec.ofNat 64 (s.fld PMC_DUMP_BASE_ADDR tl * 4096 + seq % 2 ^ k * 512) →
      (room = true → s.on ATL_STATUS_ORPHANED a = false →
        ∃ t, exec (.periodicDump tl room) s = .next t ∧ t.fld PMC_DUMP_CTL_SEQ tl = (seq + 1) % 2 ^ 32
          ∧ t.out = s.out ++ [.hostWrite (Fin.ofNat 4 (s.portOf a)) (base + 8)
                ((t.dumpWords tl (s.dumpsLost tl) 0).flatMap wordBytes),
              .hostWrite (Fin.ofNat 4 (s.portOf a)) base (wordBytes (tl.val * 2 ^ 50 + seq))]
          ∧ t.dumpsLost tl = 0 ∧ t.fld PMC_DUMP_LOST_COUNT tl = s.fld PMC_DUMP_LOST_COUNT tl)
      ∧ ((room = false ∨ s.on ATL_STATUS_ORPHANED a = true) →
        ∃ t, exec (.periodicDump tl room) s = .next t ∧ t.fld PMC_DUMP_CTL_SEQ tl = (seq + 1) % 2 ^ 32 ∧ t.out = s.out
          ∧ t.dumpsLost tl = s.dumpsLost tl + 1
          ∧ t.fld PMC_DUMP_LOST_COUNT tl = min (s.fld PMC_DUMP_LOST_COUNT tl + 1) 0xffffffff)

/-- A cold reset leaves every register at its reset value and no byte of memory as it was, and keeps the NV store; the fall
of PWR_GOOD does so until it rises (R406, R416). A module reset keeps the fuse shadows, the PCIe links and their
configuration, and with KEEP_STACKS the stacks that are READY (R406, R407). While PWR_GOOD is low or RESET_N is held low,
nothing happens but the two pins' own events, a reset and HOST_PERST_N (R406, R407, R416). HOST_PERST_N low is a host loss
(R406). Where the spec leaves a point open or to be inferred, this is the model's choice of log entries 5 and 64. -/
def Obligations.Resets : Prop :=
  (∀ (i : Instr) (s t : State), s.inReset = true → exec i s = .next t →
    t = s ∨ i = .coldReset ∨ i = .pwrGoodFall ∨ i = .resetNRelease ∨ (∃ c, i = .moduleReset c)
      ∨ ∃ p high, i = .hostPerst p high)
  ∧ ∀ s : State, s.sound = true →
    (∀ up : Bool, ∃ t, exec (if up then .coldReset else .pwrGoodFall) s = .next t ∧ (∀ a, t.held a = regReset a)
      ∧ t.mem = [] ∧ t.poison = [] ∧ t.upsets = [] ∧ t.units.nv = s.units.nv ∧ t.slots = [] ∧ t.units.boot.powerGood = up
      ∧ t.units.boot.sense = true ∧ t.units.boot.step = 1 ∧ t.pending = s.pending)
    ∧ (∀ c : BitVec 2, c ≠ 0 → s.units.boot.powerGood = true →
      ∃ t, exec (.moduleReset c) s = .next t ∧ t.fld CMC_RESET_CAUSE_CAUSE = c.toNat ∧ t.units.nv = s.units.nv ∧ t.slots = []
        ∧ (∀ w : Nat, t.fld FUSE_WORD_VALUE 0 w = s.fld FUSE_WORD_VALUE 0 w)
        ∧ (∀ p : HostNo, t.fld HOST_STATUS_UP p = s.fld HOST_STATUS_UP p) ∧ t.units.host.config = s.units.host.config
        ∧ t.units.rings.msix = s.units.rings.msix ∧ t.units.boot.step = 1 ∧ t.units.boot.sense = false
        ∧ t.units.boot.resetLow = (c == 1) ∧ (∀ a : AtlNo, t.exists a = false) ∧ t.mgmtPort = 0
        ∧ (∀ (n : DieNo) (a : Nat), stackOf a = some n.val → s.on CMC_RESET_KEEP_STACKS = true → s.fld HBM_STATUS_STATE n = 2 →
            t.byte a = s.byte a ∧ t.fld HBM_STATUS_STATE n = 3)
        ∧ (∀ a, (∀ n, stackOf a = some n → s.on CMC_RESET_KEEP_STACKS = false ∨ s.fld HBM_STATUS_STATE n ≠ 2) → t.byte a = 0))
    ∧ (∃ t, exec .resetNRelease s = .next t ∧ sameBeyondUnits s t
        ∧ t.units = { s.units with boot := { s.units.boot with resetLow := false } })
    ∧ ∀ p : HostNo,
      (∃ t, exec (.hostPerst p true) s = .next t ∧ sameBeyondUnits s t ∧ p.val ∈ t.units.boot.perst)
      ∧ (∃ t, exec (.hostPerst p false) s = .next t ∧ p.val ∉ t.units.boot.perst ∧ t.on HOST_STATUS_UP p = false
        ∧ (∀ dw, dw < 1024 → mapGet (fun _ => 0) t.units.host.config (1024 * p.val + dw) = 0)
        ∧ ∀ a : AtlNo, s.owns p (some a) = true → t.on ATL_STATUS_ORPHANED a = true)

/-- The start-up sequence, step by step: the outcome of each brings the next, or the failure that R414 gives it (R409, R411,
R412, R414). A host port comes up after step 1 while HOST_PERST_N is high, in Flit Mode alone (R336, R409). A refresh of a
READY stack reports its sensor, and doubles the rate above 85 °C (R413). Where the spec leaves a point open or to be
inferred, this is the model's choice of log entry 62. -/
def Obligations.StartUp : Prop :=
  ∀ s : State, s.running = true →
    (s.units.boot.failed = false →
      (s.units.boot.step = 1 →
        (∃ t, exec (.bootStepDone (.rom true)) s = .next t ∧ t.units.boot.step = 2 ∧ t.fld CMC_STATUS_STAGE = 1
          ∧ t.units.tb.locked = true
          ∧ (s.units.boot.sense = true → ∀ w, w < 64 → t.fld FUSE_WORD_VALUE 0 w = (s.fuse w).toNat)
          ∧ t.fld CMC_BOOT_FUSE_ROLLBACK = t.fuseRollback ∧ t.on CMC_BOOT_SECURE = t.secureBoot)
        ∧ ∃ t, exec (.bootStepDone (.rom false)) s = .next t ∧ t.faultLow = true ∧ t.fld CMC_STATUS_BOOT_ERR = 4)
      ∧ (s.units.boot.step = 2 → ∀ a b : ImageSlot,
        (∃ t, exec (.bootStepDone (.image false a b)) s = .next t ∧ t.faultLow = true ∧ t.fld CMC_STATUS_BOOT_ERR = 7)
        ∧ (∀ e : Nat, slotFault a s.fuseRollback s.secureBoot = some e → (slotFault b s.fuseRollback s.secureBoot).isSome = true →
          ∃ t, exec (.bootStepDone (.image true a b)) s = .next t ∧ t.faultLow = true ∧ t.fld CMC_STATUS_BOOT_ERR = e)
        ∧ ∀ (x : ImageSlot) (k : Nat),
          ((slotFault a s.fuseRollback s.secureBoot = none ∧ x = a ∧ k = 0
              ∧ (slotFault b s.fuseRollback s.secureBoot = none → b.version.toNat ≤ a.version.toNat))
            ∨ (slotFault b s.fuseRollback s.secureBoot = none ∧ x = b ∧ k = 1
              ∧ (slotFault a s.fuseRollback s.secureBoot = none → a.version.toNat < b.version.toNat))) →
          ∃ t, exec (.bootStepDone (.image true a b)) s = .next t ∧ t.units.boot.step = 3 ∧ t.fld CMC_BOOT_SLOT = k
            ∧ t.fld CMC_BOOT_FW_VERSION = x.version.toNat ∧ t.fld CMC_BOOT_IMG_ROLLBACK = x.rollback.toNat)
      ∧ (s.units.boot.step = 3 → ∀ c : BoardConfig,
        ∃ t, exec (.bootStepDone (.firmware c)) s = .next t ∧ t.units.boot.step = 4 ∧ t.fld CMC_STATUS_STAGE = 2
          ∧ t.on CMC_BOOT_CFG_VALID = c.crcOk ∧ t.units.boot.cfg = if c.crcOk then some c else none)
      ∧ (s.units.boot.step = 4 →
        (∃ t, exec (.bootStepDone (.edges none)) s = .next t ∧ t.units.boot.step = 5 ∧ t.fld CMC_STATUS_STAGE = 3
          ∧ (∀ d : RailNo, .avsRate d 5 ∈ t.out ∧ .avs d 750 ∈ t.out)
          ∧ (∀ n : DieNo, n.val ∉ s.units.boot.kept → t.fld HBM_STATUS_STATE n = 1)
          ∧ ∀ c, s.units.boot.cfg = some c → t.fld PLANT_PMB_ADDR2 = c.pmbAddr.toNat / 65536 % 128)
        ∧ ∀ e : Fin 4, ∃ t, exec (.bootStepDone (.edges (some e))) s = .next t ∧ t.faultLow = true
          ∧ t.fld CMC_STATUS_BOOT_ERR = 5 ∧ t.fld CMC_STATUS_ERR_ARG = e)
      ∧ (s.units.boot.step = 5 → ∀ xs : List StackBoot, xs.length = 16 →
        (∃ t, exec (.bootStepDone (.stacksAndTiles xs none)) s = .next t ∧ t.units.boot.step = 7 ∧ t.fld CMC_STATUS_STAGE = 4
          ∧ (∀ k, k < 416 → t.dom k = 3) ∧ (∀ tl : TileNo, t.on PAL_CTL_EN tl = true)
          ∧ ∀ (n : DieNo) (x : StackBoot), xs[n.val]? = some x →
            (x.trained = true → t.fld HBM_STATUS_STATE n = 2 ∧ t.fld HBM_REPAIR_HARD n = x.hard.toNat
              ∧ ((n.val ∉ s.units.boot.kept ∨ x.keptOk = false) → t.on HBM_STATUS_KEPT n = false
                ∧ ∀ a, stackOf a = some n.val → t.byte a = 0)
              ∧ (n.val ∈ s.units.boot.kept → x.keptOk = true → t.on HBM_STATUS_KEPT n = true
                ∧ ∀ a, stackOf a = some n.val → t.byte a = s.byte a))
            ∧ (x.trained = false → t.fld HBM_STATUS_STATE n = 4 ∧ t.dieFailed n = true))
        ∧ ∀ tl : TileNo, ∃ t, exec (.bootStepDone (.stacksAndTiles xs (some tl))) s = .next t ∧ t.faultLow = true
          ∧ t.fld CMC_STATUS_BOOT_ERR = 6 ∧ t.fld CMC_STATUS_ERR_ARG = tl)
      ∧ (s.units.boot.step = 7 →
        ∃ t, exec (.bootStepDone .links) s = .next t ∧ t.units.boot.step = 8 ∧ t.fld CMC_STATUS_STAGE = 5
          ∧ (s.units.boot.cfg = none → t.fld COLL_ID_MODULE = 0xffff ∧ ∀ p : PortNo, t.on LINK_CTL_EN p = true ∧ t.fld LINK_CTL_PMD p = 0)
          ∧ ∀ c, s.units.boot.cfg = some c → t.fld COLL_ID_MODULE = c.moduleId.toNat
            ∧ ∀ p : PortNo, t.fld LINK_CTL_PMD p = (if c.linkPmd.getLsbD p then 1 else 0)
              ∧ (c.linkEn.getLsbD p = true → t.on LINK_CTL_EN p = true))
      ∧ (s.units.boot.step = 8 →
        ∃ t, exec (.bootStepDone .ready) s = .next t ∧ t.readyReleased = true ∧ t.units.boot.step = 9
          ∧ t.on CMC_STATUS_DEGRADED = (s.fld RISK_VAR_FAILED_DIES != 0)
          ∧ fieldsKeptBut [CMC_STATUS_READY, CMC_STATUS_DEGRADED, CMC_STATUS_STAGE] s t))
    ∧ (∀ (p : HostNo) (width rate : BitVec 8) (flit : Bool), p.val ∈ s.units.boot.perst → 1 < s.units.boot.step →
        s.dom (hostDomain p) = 3 →
      ∃ t, exec (.hostLinkUp p width rate flit) s = .next t ∧ t = { s with regs := t.regs } ∧ t.on HOST_STATUS_NO_FLIT p = !flit
        ∧ (flit = true → t.on HOST_STATUS_UP p = true
          ∧ t.fld HOST_STATUS_WIDTH p = width.toNat % 2 ^ HOST_STATUS_WIDTH.width
          ∧ t.fld HOST_STATUS_RATE p = rate.toNat % 2 ^ HOST_STATUS_RATE.width)
        ∧ (flit = false → fieldsKeptBut [HOST_STATUS_NO_FLIT] s t))
    ∧ ∀ (n : DieNo) (pc : Fin 32) (temp : BitVec 8),
      (s.fld HBM_STATUS_STATE n = 2 →
        ∃ t, exec (.bankRefresh n pc temp) s = .next t ∧ t.fld HBM_STATUS_TEMP n = temp.toNat
          ∧ t.on HBM_STATUS_REFRESH_X2 n = (decide (85 < temp.toNat)) ∧ s.fld HBM_ODECC_COUNT n ≤ t.fld HBM_ODECC_COUNT n
          ∧ fieldsKeptBut [HBM_STATUS_TEMP, HBM_STATUS_REFRESH_X2, HBM_ODECC_COUNT] s t ∧ ∀ a, t.byte a = s.byte a)
      ∧ (s.fld HBM_STATUS_STATE n ≠ 2 → exec (.bankRefresh n pc temp) s = .next s)

/-- A fuse bit is programmed only as R418 allows: a pulse begins where every condition holds, which leaves RESULT 0 and
BUSY; a bit already 1 gives RESULT 1, and any other case RESULT 3 (R418). A passing margin read blows the bit and shows it;
the third failing one gives RESULT 2; the seal closes the sketch port (R418, R422). The sketch port opens where it is not
sealed and the plant does not hold its pads, else its write has the result of R419; closing it releases the pads. A sample
drives the selected group (R420, R421). Where the spec leaves a point open or to be inferred, this is the model's choice of
log entries 59, 63 and 65. -/
def Obligations.FusesAndSketch : Prop :=
  ∀ (s : State) (p : HostNo) (v : Word), s.running = true →
    (∀ w b : Nat, w = bits v 13 8 → b = bits v 5 0 → s.opened p FUSE_PROG_GO = true → s.on FUSE_STATUS_BUSY = false → v.getLsbD 16 = true →
      let allowed := bits v 63 56 = 0xa5 ∧ (∀ a : AtlNo, s.exists a = false) ∧ s.on CMC_STATUS_READY = true
        ∧ fuseOpen w b (bit (s.fuseWord 9) 2) = true
      (allowed → bit (s.fuseWord w) b = false →
        ∃ t, exec (.fuseProg p v) s = .next t ∧ t.fuses = s.fuses
          ∧ ((t.on FUSE_STATUS_BUSY = true ∧ t.on FUSE_PROG_GO = true ∧ t.fld FUSE_STATUS_RESULT = 0 ∧ t.on FUSE_STATUS_VPP_OK = true
              ∧ t.units.boot.fuseWord = w ∧ t.units.boot.fuseBit = b ∧ t.units.boot.pulses = 0)
            ∨ (t.on FUSE_STATUS_VPP_OK = false ∧ t.fld FUSE_STATUS_RESULT = 3 ∧ t.on FUSE_STATUS_BUSY = false)))
      ∧ (allowed → bit (s.fuseWord w) b = true →
        ∃ t, exec (.fuseProg p v) s = .next t ∧ t.on FUSE_STATUS_BUSY = false ∧ t.fuses = s.fuses
          ∧ t.fld FUSE_STATUS_RESULT = if t.on FUSE_STATUS_VPP_OK = true then 1 else 3)
      ∧ (¬ allowed → ∃ t, exec (.fuseProg p v) s = .next t ∧ t.fld FUSE_STATUS_RESULT = 3 ∧ t.on FUSE_STATUS_BUSY = false
          ∧ t.fuses = s.fuses))
    ∧ (∀ w b : Nat, s.on FUSE_STATUS_BUSY = true → w = s.units.boot.fuseWord → b = s.units.boot.fuseBit → w < 64 → b < 64 →
      (∃ t, exec (.fusePulseDone true) s = .next t ∧ t.on FUSE_STATUS_BUSY = false ∧ t.fld FUSE_STATUS_RESULT = 1
        ∧ bit (t.fuseWord w) b = true ∧ (t.fuse w).toNat = t.fuseWord w ∧ (w = 9 → b = 1 → t.on DBG_STATUS_ACTIVE = false))
      ∧ (s.units.boot.pulses < 2 →
        ∃ t, exec (.fusePulseDone false) s = .next t ∧ sameBeyondUnits s t ∧ t.units.boot.pulses = s.units.boot.pulses + 1)
      ∧ (2 ≤ s.units.boot.pulses →
        ∃ t, exec (.fusePulseDone false) s = .next t ∧ t.on FUSE_STATUS_BUSY = false ∧ t.fld FUSE_STATUS_RESULT = 2
          ∧ ∀ x, t.fuseWord x = s.fuseWord x))
    ∧ (s.opened p DBG_CTL_EN = true → ∀ c ∈ [Instr.sketchEnable p v, .sketchDisable p v],
      (bits v 0 0 = 0 → ∃ t, exec c s = .next t ∧ t.on DBG_CTL_EN = false ∧ t.on DBG_STATUS_ACTIVE = false
        ∧ fieldsKeptBut [DBG_CTL_EN, DBG_CTL_MODE, DBG_CTL_DIV, DBG_STATUS_ACTIVE] s t)
      ∧ (bits v 0 0 = 1 → s.sealed = true → ∃ t, exec c s = .next t ∧ t.fld DBG_STATUS_RESULT = 0x0f ∧ t.on DBG_CTL_EN = false
        ∧ t.fld HOST_LOCKED_COUNT p = min (s.fld HOST_LOCKED_COUNT p + 1) 0xffffffff
        ∧ t.on DBG_STATUS_ACTIVE = s.on DBG_STATUS_ACTIVE)
      ∧ (bits v 0 0 = 1 → s.sealed = false → s.on PLANT_CTL_EN = true → ∃ t, exec c s = .next t ∧ t.fld DBG_STATUS_RESULT = 0x0e
        ∧ t.on DBG_CTL_EN = false ∧ t.fld HOST_LOCKED_COUNT p = s.fld HOST_LOCKED_COUNT p)
      ∧ (bits v 0 0 = 1 → s.sealed = false → s.on PLANT_CTL_EN = false → ∃ t, exec c s = .next t ∧ t.fld DBG_STATUS_RESULT = 0
        ∧ t.on DBG_CTL_EN = true ∧ t.on DBG_STATUS_ACTIVE = true ∧ t.fld DBG_CTL_DIV = bits v 15 4))
    ∧ (s.on DBG_STATUS_ACTIVE = true →
      ∃ t x, exec .sketchSample s = .next t ∧ t.out = s.out ++ [.sketch x]
        ∧ (s.fld DBG_SEL_SOURCE = 20 → s.fld DBG_SEL_NODE = 0 → s.fld DBG_SEL_GROUP = 1 → x = BitVec.ofNat 32 s.ticks)
        ∧ (22 ≤ s.fld DBG_SEL_SOURCE → x = 0))
end

