-- ==== Sys2Proof/Laws/State.lean ====
section
/-! SUPPORT. What each primitive effect does to each field of the state: one lemma for a field and an effect. -/

namespace Sys2Proof.Machine

variable (s : State)

@[simp] theorem reg_pending (a : Nat) (v : Word) : (Eff.apply s (.reg a v)).pending = s.pending := rfl
@[simp] theorem reg_out (a : Nat) (v : Word) : (Eff.apply s (.reg a v)).out = s.out := rfl
@[simp] theorem reg_freeNext (a : Nat) (v : Word) : (Eff.apply s (.reg a v)).freeNext = s.freeNext := rfl
@[simp] theorem reg_regs (a : Nat) (v : Word) :
    (Eff.apply s (.reg a v)).regs = mapSet regReset s.regs a ((v &&& regBits a) ||| (regReset a &&& ~~~ regBits a)) := rfl
@[simp] theorem reg_mem (a : Nat) (v : Word) : (Eff.apply s (.reg a v)).mem = s.mem := rfl
@[simp] theorem reg_poison (a : Nat) (v : Word) : (Eff.apply s (.reg a v)).poison = s.poison := rfl
@[simp] theorem reg_upsets (a : Nat) (v : Word) : (Eff.apply s (.reg a v)).upsets = s.upsets := rfl
@[simp] theorem reg_routes (a : Nat) (v : Word) : (Eff.apply s (.reg a v)).routes = s.routes := rfl
@[simp] theorem reg_fuses (a : Nat) (v : Word) : (Eff.apply s (.reg a v)).fuses = s.fuses := rfl
@[simp] theorem reg_units (a : Nat) (v : Word) : (Eff.apply s (.reg a v)).units = s.units := rfl

@[simp] theorem granule_pending (g : Nat) (v m : BitVec 512) : (Eff.apply s (.granule g v m)).pending = s.pending := rfl
@[simp] theorem granule_out (g : Nat) (v m : BitVec 512) : (Eff.apply s (.granule g v m)).out = s.out := rfl
@[simp] theorem granule_freeNext (g : Nat) (v m : BitVec 512) : (Eff.apply s (.granule g v m)).freeNext = s.freeNext := rfl
@[simp] theorem granule_regs (g : Nat) (v m : BitVec 512) : (Eff.apply s (.granule g v m)).regs = s.regs := rfl
@[simp] theorem granule_mem (g : Nat) (v m : BitVec 512) :
    (Eff.apply s (.granule g v m)).mem = if isMemory (64 * g) then putBytes (64 * g) v m 64 s.mem else s.mem := rfl
@[simp] theorem granule_poison (g : Nat) (v m : BitVec 512) : (Eff.apply s (.granule g v m)).poison = s.poison := rfl
@[simp] theorem granule_upsets (g : Nat) (v m : BitVec 512) : (Eff.apply s (.granule g v m)).upsets = s.upsets := rfl
@[simp] theorem granule_routes (g : Nat) (v m : BitVec 512) : (Eff.apply s (.granule g v m)).routes = s.routes := rfl
@[simp] theorem granule_fuses (g : Nat) (v m : BitVec 512) : (Eff.apply s (.granule g v m)).fuses = s.fuses := rfl
@[simp] theorem granule_units (g : Nat) (v m : BitVec 512) : (Eff.apply s (.granule g v m)).units = s.units := rfl

@[simp] theorem poison_pending (g : Nat) : (Eff.apply s (.poison g)).pending = s.pending := rfl
@[simp] theorem poison_out (g : Nat) : (Eff.apply s (.poison g)).out = s.out := rfl
@[simp] theorem poison_freeNext (g : Nat) : (Eff.apply s (.poison g)).freeNext = s.freeNext := rfl
@[simp] theorem poison_regs (g : Nat) : (Eff.apply s (.poison g)).regs = s.regs := rfl
@[simp] theorem poison_mem (g : Nat) : (Eff.apply s (.poison g)).mem = s.mem := rfl
@[simp] theorem poison_poison (g : Nat) :
    (Eff.apply s (.poison g)).poison = setIns s.poison g := rfl
@[simp] theorem poison_upsets (g : Nat) : (Eff.apply s (.poison g)).upsets = s.upsets := rfl
@[simp] theorem poison_routes (g : Nat) : (Eff.apply s (.poison g)).routes = s.routes := rfl
@[simp] theorem poison_fuses (g : Nat) : (Eff.apply s (.poison g)).fuses = s.fuses := rfl
@[simp] theorem poison_units (g : Nat) : (Eff.apply s (.poison g)).units = s.units := rfl

@[simp] theorem heal_pending (g : Nat) : (Eff.apply s (.heal g)).pending = s.pending := rfl
@[simp] theorem heal_out (g : Nat) : (Eff.apply s (.heal g)).out = s.out := rfl
@[simp] theorem heal_freeNext (g : Nat) : (Eff.apply s (.heal g)).freeNext = s.freeNext := rfl
@[simp] theorem heal_regs (g : Nat) : (Eff.apply s (.heal g)).regs = s.regs := rfl
@[simp] theorem heal_mem (g : Nat) : (Eff.apply s (.heal g)).mem = s.mem := rfl
@[simp] theorem heal_poison (g : Nat) :
    (Eff.apply s (.heal g)).poison = s.poison.filter (· ≠ g) := rfl
@[simp] theorem heal_upsets (g : Nat) : (Eff.apply s (.heal g)).upsets = s.upsets := rfl
@[simp] theorem heal_routes (g : Nat) : (Eff.apply s (.heal g)).routes = s.routes := rfl
@[simp] theorem heal_fuses (g : Nat) : (Eff.apply s (.heal g)).fuses = s.fuses := rfl
@[simp] theorem heal_units (g : Nat) : (Eff.apply s (.heal g)).units = s.units := rfl

@[simp] theorem upset_pending (g : Nat) (m : BitVec 576) : (Eff.apply s (.upset g m)).pending = s.pending := rfl
@[simp] theorem upset_out (g : Nat) (m : BitVec 576) : (Eff.apply s (.upset g m)).out = s.out := rfl
@[simp] theorem upset_freeNext (g : Nat) (m : BitVec 576) : (Eff.apply s (.upset g m)).freeNext = s.freeNext := rfl
@[simp] theorem upset_regs (g : Nat) (m : BitVec 576) : (Eff.apply s (.upset g m)).regs = s.regs := rfl
@[simp] theorem upset_mem (g : Nat) (m : BitVec 576) : (Eff.apply s (.upset g m)).mem = s.mem := rfl
@[simp] theorem upset_poison (g : Nat) (m : BitVec 576) : (Eff.apply s (.upset g m)).poison = s.poison := rfl
@[simp] theorem upset_upsets (g : Nat) (m : BitVec 576) :
    (Eff.apply s (.upset g m)).upsets = mapSet upsetReset s.upsets g m := rfl
@[simp] theorem upset_routes (g : Nat) (m : BitVec 576) : (Eff.apply s (.upset g m)).routes = s.routes := rfl
@[simp] theorem upset_fuses (g : Nat) (m : BitVec 576) : (Eff.apply s (.upset g m)).fuses = s.fuses := rfl
@[simp] theorem upset_units (g : Nat) (m : BitVec 576) : (Eff.apply s (.upset g m)).units = s.units := rfl

@[simp] theorem route_pending (m : Nat) (v : Word) : (Eff.apply s (.route m v)).pending = s.pending := rfl
@[simp] theorem route_out (m : Nat) (v : Word) : (Eff.apply s (.route m v)).out = s.out := rfl
@[simp] theorem route_freeNext (m : Nat) (v : Word) : (Eff.apply s (.route m v)).freeNext = s.freeNext := rfl
@[simp] theorem route_regs (m : Nat) (v : Word) : (Eff.apply s (.route m v)).regs = s.regs := rfl
@[simp] theorem route_mem (m : Nat) (v : Word) : (Eff.apply s (.route m v)).mem = s.mem := rfl
@[simp] theorem route_poison (m : Nat) (v : Word) : (Eff.apply s (.route m v)).poison = s.poison := rfl
@[simp] theorem route_upsets (m : Nat) (v : Word) : (Eff.apply s (.route m v)).upsets = s.upsets := rfl
@[simp] theorem route_routes (m : Nat) (v : Word) :
    (Eff.apply s (.route m v)).routes = mapSet routeReset s.routes m (v &&& routeMask) := rfl
@[simp] theorem route_fuses (m : Nat) (v : Word) : (Eff.apply s (.route m v)).fuses = s.fuses := rfl
@[simp] theorem route_units (m : Nat) (v : Word) : (Eff.apply s (.route m v)).units = s.units := rfl

@[simp] theorem blow_pending (w b : Nat) : (Eff.apply s (.blow w b)).pending = s.pending := rfl
@[simp] theorem blow_out (w b : Nat) : (Eff.apply s (.blow w b)).out = s.out := rfl
@[simp] theorem blow_freeNext (w b : Nat) : (Eff.apply s (.blow w b)).freeNext = s.freeNext := rfl
@[simp] theorem blow_regs (w b : Nat) : (Eff.apply s (.blow w b)).regs = s.regs := rfl
@[simp] theorem blow_mem (w b : Nat) : (Eff.apply s (.blow w b)).mem = s.mem := rfl
@[simp] theorem blow_poison (w b : Nat) : (Eff.apply s (.blow w b)).poison = s.poison := rfl
@[simp] theorem blow_upsets (w b : Nat) : (Eff.apply s (.blow w b)).upsets = s.upsets := rfl
@[simp] theorem blow_routes (w b : Nat) : (Eff.apply s (.blow w b)).routes = s.routes := rfl
@[simp] theorem blow_fuses (w b : Nat) :
    (Eff.apply s (.blow w b)).fuses = mapSet fuseReset s.fuses w (mapGet fuseReset s.fuses w ||| (1 <<< b)) := rfl
@[simp] theorem blow_units (w b : Nat) : (Eff.apply s (.blow w b)).units = s.units := rfl

@[simp] theorem out_pending (o : Out) : (Eff.apply s (.out o)).pending = s.pending := rfl
@[simp] theorem out_out (o : Out) :
    (Eff.apply s (.out o)).out = s.out ++ [o] := rfl
@[simp] theorem out_freeNext (o : Out) : (Eff.apply s (.out o)).freeNext = s.freeNext := rfl
@[simp] theorem out_regs (o : Out) : (Eff.apply s (.out o)).regs = s.regs := rfl
@[simp] theorem out_mem (o : Out) : (Eff.apply s (.out o)).mem = s.mem := rfl
@[simp] theorem out_poison (o : Out) : (Eff.apply s (.out o)).poison = s.poison := rfl
@[simp] theorem out_upsets (o : Out) : (Eff.apply s (.out o)).upsets = s.upsets := rfl
@[simp] theorem out_routes (o : Out) : (Eff.apply s (.out o)).routes = s.routes := rfl
@[simp] theorem out_fuses (o : Out) : (Eff.apply s (.out o)).fuses = s.fuses := rfl
@[simp] theorem out_units (o : Out) : (Eff.apply s (.out o)).units = s.units := rfl

@[simp] theorem draw_pending : (Eff.apply s .draw).pending = s.pending := rfl
@[simp] theorem draw_out : (Eff.apply s .draw).out = s.out := rfl
@[simp] theorem draw_freeNext :
    (Eff.apply s .draw).freeNext = s.freeNext + 1 := rfl
@[simp] theorem draw_regs : (Eff.apply s .draw).regs = s.regs := rfl
@[simp] theorem draw_mem : (Eff.apply s .draw).mem = s.mem := rfl
@[simp] theorem draw_poison : (Eff.apply s .draw).poison = s.poison := rfl
@[simp] theorem draw_upsets : (Eff.apply s .draw).upsets = s.upsets := rfl
@[simp] theorem draw_routes : (Eff.apply s .draw).routes = s.routes := rfl
@[simp] theorem draw_fuses : (Eff.apply s .draw).fuses = s.fuses := rfl
@[simp] theorem draw_units : (Eff.apply s .draw).units = s.units := rfl

@[simp] theorem units_pending (u : Units) : (Eff.apply s (.units u)).pending = s.pending := rfl
@[simp] theorem units_out (u : Units) : (Eff.apply s (.units u)).out = s.out := rfl
@[simp] theorem units_freeNext (u : Units) : (Eff.apply s (.units u)).freeNext = s.freeNext := rfl
@[simp] theorem units_regs (u : Units) : (Eff.apply s (.units u)).regs = s.regs := rfl
@[simp] theorem units_mem (u : Units) : (Eff.apply s (.units u)).mem = s.mem := rfl
@[simp] theorem units_poison (u : Units) : (Eff.apply s (.units u)).poison = s.poison := rfl
@[simp] theorem units_upsets (u : Units) : (Eff.apply s (.units u)).upsets = s.upsets := rfl
@[simp] theorem units_routes (u : Units) : (Eff.apply s (.units u)).routes = s.routes := rfl
@[simp] theorem units_fuses (u : Units) : (Eff.apply s (.units u)).fuses = s.fuses := rfl
@[simp] theorem units_units (u : Units) :
    (Eff.apply s (.units u)).units = u := rfl

@[simp] theorem wipeRegs_pending (p : Nat → Bool) : (Eff.apply s (.wipeRegs p)).pending = s.pending := rfl
@[simp] theorem wipeRegs_out (p : Nat → Bool) : (Eff.apply s (.wipeRegs p)).out = s.out := rfl
@[simp] theorem wipeRegs_freeNext (p : Nat → Bool) : (Eff.apply s (.wipeRegs p)).freeNext = s.freeNext := rfl
@[simp] theorem wipeRegs_regs (p : Nat → Bool) :
    (Eff.apply s (.wipeRegs p)).regs = s.regs.filter fun e => !p e.1 := rfl
@[simp] theorem wipeRegs_mem (p : Nat → Bool) : (Eff.apply s (.wipeRegs p)).mem = s.mem := rfl
@[simp] theorem wipeRegs_poison (p : Nat → Bool) : (Eff.apply s (.wipeRegs p)).poison = s.poison := rfl
@[simp] theorem wipeRegs_upsets (p : Nat → Bool) : (Eff.apply s (.wipeRegs p)).upsets = s.upsets := rfl
@[simp] theorem wipeRegs_routes (p : Nat → Bool) : (Eff.apply s (.wipeRegs p)).routes = s.routes := rfl
@[simp] theorem wipeRegs_fuses (p : Nat → Bool) : (Eff.apply s (.wipeRegs p)).fuses = s.fuses := rfl
@[simp] theorem wipeRegs_units (p : Nat → Bool) : (Eff.apply s (.wipeRegs p)).units = s.units := rfl

@[simp] theorem wipeMem_pending (p : Nat → Bool) : (Eff.apply s (.wipeMem p)).pending = s.pending := rfl
@[simp] theorem wipeMem_out (p : Nat → Bool) : (Eff.apply s (.wipeMem p)).out = s.out := rfl
@[simp] theorem wipeMem_freeNext (p : Nat → Bool) : (Eff.apply s (.wipeMem p)).freeNext = s.freeNext := rfl
@[simp] theorem wipeMem_regs (p : Nat → Bool) : (Eff.apply s (.wipeMem p)).regs = s.regs := rfl
@[simp] theorem wipeMem_mem (p : Nat → Bool) :
    (Eff.apply s (.wipeMem p)).mem = s.mem.filter fun e => !p e.1 := rfl
@[simp] theorem wipeMem_poison (p : Nat → Bool) :
    (Eff.apply s (.wipeMem p)).poison = s.poison.filter fun g => !p (64 * g) := rfl
@[simp] theorem wipeMem_upsets (p : Nat → Bool) :
    (Eff.apply s (.wipeMem p)).upsets = s.upsets.filter fun e => !p (64 * e.1) := rfl
@[simp] theorem wipeMem_routes (p : Nat → Bool) : (Eff.apply s (.wipeMem p)).routes = s.routes := rfl
@[simp] theorem wipeMem_fuses (p : Nat → Bool) : (Eff.apply s (.wipeMem p)).fuses = s.fuses := rfl
@[simp] theorem wipeMem_units (p : Nat → Bool) : (Eff.apply s (.wipeMem p)).units = s.units := rfl

@[simp] theorem wipeRoutes_pending : (Eff.apply s .wipeRoutes).pending = s.pending := rfl
@[simp] theorem wipeRoutes_out : (Eff.apply s .wipeRoutes).out = s.out := rfl
@[simp] theorem wipeRoutes_freeNext : (Eff.apply s .wipeRoutes).freeNext = s.freeNext := rfl
@[simp] theorem wipeRoutes_regs : (Eff.apply s .wipeRoutes).regs = s.regs := rfl
@[simp] theorem wipeRoutes_mem : (Eff.apply s .wipeRoutes).mem = s.mem := rfl
@[simp] theorem wipeRoutes_poison : (Eff.apply s .wipeRoutes).poison = s.poison := rfl
@[simp] theorem wipeRoutes_upsets : (Eff.apply s .wipeRoutes).upsets = s.upsets := rfl
@[simp] theorem wipeRoutes_routes :
    (Eff.apply s .wipeRoutes).routes = [] := rfl
@[simp] theorem wipeRoutes_fuses : (Eff.apply s .wipeRoutes).fuses = s.fuses := rfl
@[simp] theorem wipeRoutes_units : (Eff.apply s .wipeRoutes).units = s.units := rfl

end Sys2Proof.Machine
end

