-- ==== Sys2Proof/Laws/Actions.lean ====
section
/-! SUPPORT. What actions do: the small actions in one lemma each, and that every action leads to a state that effects
reach. -/

namespace Sys2Proof.Machine

variable {s₀ : State} {α β : Type}

@[simp] theorem now_run (x : {s // Reach s₀ s}) : (now : Act s₀ State) x = (x.1, x) := rfl
@[simp] theorem ask_run (f : State → α) (x : {s // Reach s₀ s}) : (ask f : Act s₀ α) x = (f x.1, x) := rfl
@[simp] theorem emit_run (e : Eff) (x : {s // Reach s₀ s}) : (emit e : Act s₀ Unit) x = ((), ⟨e.apply x.1, x.2.eff e⟩) := rfl
@[simp] theorem change_run (f : Units → Units) (x : {s // Reach s₀ s}) :
    (change f : Act s₀ Unit) x = ((), ⟨(Eff.units (f x.1.units)).apply x.1, x.2.eff _⟩) := rfl
@[simp] theorem pure_run (v : α) (x : {s // Reach s₀ s}) : (pure v : Act s₀ α) x = (v, x) := rfl
@[simp] theorem bind_run (a : Act s₀ α) (f : α → Act s₀ β) (x : {s // Reach s₀ s}) :
    (a >>= f) x = f (a x).1 (a x).2 := rfl
@[simp] theorem map_run (a : Act s₀ α) (f : α → β) (x : {s // Reach s₀ s}) : (f <$> a) x = (f (a x).1, (a x).2) := rfl
@[simp] theorem fld_run (f : Fld) (i k : Nat) (x : {s // Reach s₀ s}) : (fld f i k : Act s₀ Nat) x = (x.1.fld f i k, x) := rfl
@[simp] theorem isOn_run (f : Fld) (i k : Nat) (x : {s // Reach s₀ s}) : (isOn f i k : Act s₀ Bool) x = (x.1.on f i k, x) := rfl

/-- Reading the state and going on. -/
theorem now_bind (f : State → Act s₀ β) (x : {s // Reach s₀ s}) : (now >>= f) x = f x.1 x := rfl
theorem ask_bind (g : State → α) (f : α → Act s₀ β) (x : {s // Reach s₀ s}) : (ask g >>= f) x = f (g x.1) x := rfl
theorem fld_bind (g : Fld) (i k : Nat) (f : Nat → Act s₀ β) (x : {s // Reach s₀ s}) :
    (fld g i k >>= f) x = f (x.1.fld g i k) x := rfl
theorem isOn_bind (g : Fld) (i k : Nat) (f : Bool → Act s₀ β) (x : {s // Reach s₀ s}) :
    (isOn g i k >>= f) x = f (x.1.on g i k) x := rfl
/-- A choice of actions acts as the one chosen. -/
theorem ite_run {c : Prop} [Decidable c] (a b : Act s₀ α) (x : {s // Reach s₀ s}) :
    (if c then a else b) x = if c then a x else b x := by split <;> rfl

/-- What setting a field comes to: one register effect. -/
@[simp] theorem setF_run (f : Fld) (v i k : Nat) (x : {s // Reach s₀ s}) :
    (setF f v i k : Act s₀ Unit) x = emit (.reg (f.addr i k) (putBits (x.1.held (f.addr i k)) f.hi f.lo v)) x := rfl
@[simp] theorem raise_run (f : Fld) (i k : Nat) (x : {s // Reach s₀ s}) : (raise f i k : Act s₀ Unit) x = setF f 1 i k x := rfl
@[simp] theorem countUp_run (f : Fld) (n i k : Nat) (x : {s // Reach s₀ s}) :
    (countUp f n i k : Act s₀ Unit) x = setF f (min (x.1.fld f i k + n) (2 ^ f.width - 1)) i k x := rfl
@[simp] theorem each_nil (f : α → Act s₀ Unit) : each [] f = pure () := rfl
@[simp] theorem each_cons (v : α) (vs : List α) (f : α → Act s₀ Unit) : each (v :: vs) f = (do f v; each vs f) := rfl
@[simp] theorem freeIndex_run (x : {s // Reach s₀ s}) :
    (freeIndex : Act s₀ Nat) x = (x.1.freeNext, ⟨Eff.draw.apply x.1, x.2.eff .draw⟩) := rfl

/-- Effects that follow effects are effects. -/
theorem Reach.trans {s t u : State} (h : Reach s t) (h' : Reach t u) : Reach s u := by
  induction h' with
  | refl => exact h
  | eff _ e ih => exact ih.eff e

/-- One effect is an effect. -/
theorem Reach.single (s : State) (e : Eff) : Reach s (e.apply s) := Reach.refl.eff e

/-- What one effect keeps, effects keep. -/
theorem Reach.keeps {s t : State} (h : Reach s t) (P : State → Prop) (hs : P s)
    (he : ∀ (u : State) (e : Eff), P u → P (e.apply u)) : P t := by
  induction h with
  | refl => exact hs
  | eff _ e ih => exact he _ e ih

/-- Every action leads to a state that effects reach. -/
theorem performAlways_reach (s : State) (a : Act s Unit) : Reach s (performAlways s a) := (a ⟨s, .refl⟩).2.2

/-- Every meaning that runs an action leads to a state that effects reach. -/
theorem perform_reach (s : State) (a : Act s Unit) : Reach s (perform s a) := by
  unfold perform State.orWaits
  split
  · exact .refl
  · split
    · exact .refl
    · exact performAlways_reach s a

/-- In reset nothing happens. -/
theorem perform_inReset {s : State} (a : Act s Unit) (h : s.inReset = true) : perform s a = s := by simp [perform, h]

/-- Out of reset the action runs, where it meets no stack in repair. -/
theorem perform_running {s : State} (a : Act s Unit) (h : s.inReset = false)
    (hm : (performAlways s a).units.hbm = s.units.hbm) : perform s a = performAlways s a := by
  simp [perform, State.orWaits, h, hm]

/-- The action runs, or nothing happens: in reset, and while it waits for a stack's repair. -/
theorem perform_or (s : State) (a : Act s Unit) : perform s a = s ∨ perform s a = performAlways s a := by
  unfold perform State.orWaits
  split
  · exact .inl rfl
  · split
    · exact .inl rfl
    · exact .inr rfl

/-- The queue of waiting commands is no effect's. -/
@[simp] theorem apply_pending (s : State) (e : Eff) : (e.apply s).pending = s.pending := by
  cases e <;> simp

/-- Effects leave the queue of waiting commands alone. -/
theorem Reach.pending {s t : State} (h : Reach s t) : t.pending = s.pending := by
  induction h with
  | refl => rfl
  | eff _ e ih => simp [ih]

end Sys2Proof.Machine
end

