-- ==== Sys2Proof/Laws/Addresses.lean ====
section
/-! SUPPORT. Where registers lie: the address of a register of a block lies in that block's window, at its instance and
offset, and registers of different places have different addresses. -/

namespace Sys2Proof.Machine

/-- A tile's register window. -/
theorem place_tile (t k r : Nat) (ht : t < 64) (hr : r < 0x10000) (hk : k < 6) :
    place (0x20000000000 + k * 0x10000 + t * 0x100000 + r) = tilePlace t (k * 0x10000 + r) := by
  unfold place
  have h1 : ¬ (0x20000000000 + k * 0x10000 + t * 0x100000 + r < 0x10000000000) := by omega
  have h2 : ¬ (0x20000000000 + k * 0x10000 + t * 0x100000 + r < 0x20000000000) := by omega
  have h3 : 0x20000000000 + k * 0x10000 + t * 0x100000 + r < 0x21000000000 := by omega
  have h4 : (0x20000000000 + k * 0x10000 + t * 0x100000 + r - 0x20000000000) / 0x100000 = t := by omega
  have h5 : (0x20000000000 + k * 0x10000 + t * 0x100000 + r - 0x20000000000) % 0x100000 = k * 0x10000 + r := by omega
  simp only [h1, h2, h3, h4, h5, if_true, if_false, ht]

/-- The blocks of a tile's window. -/
theorem tilePlace_blk (t k r : Nat) (hr : r < 0x10000) : tilePlace t (k * 0x10000 + r) =
    match k with
    | 0 => .reg .mx t r
    | 1 => .reg .ve t r
    | 2 => .reg .sfu t r
    | 3 => .reg .pal t r
    | 4 => .reg .seq t r
    | 5 => .reg .pmc t r
    | _ => .reg .seq t 0xfff8 := by
  unfold tilePlace
  have h1 : (k * 0x10000 + r) / 0x10000 = k := by omega
  have h2 : (k * 0x10000 + r) % 0x10000 = r := by omega
  rw [h1, h2]
  all_goals rfl

/-- The uncore. -/
theorem place_uncore (o : Nat) : place (0x21000000000 + o) = uncorePlace o := by
  unfold place
  have h1 : ¬ (0x21000000000 + o < 0x10000000000) := by omega
  have h2 : ¬ (0x21000000000 + o < 0x20000000000) := by omega
  have h3 : ¬ (0x21000000000 + o < 0x21000000000) := by omega
  have h4 : 0x21000000000 + o - 0x21000000000 = o := by omega
  simp only [h1, h2, h3, h4, if_false]

/-- A window of the uncore. -/
theorem uncorePlace_window (w r : Nat) (hw : w < 0x1000) (hr : r < 0x10000) : uncorePlace (w * 0x10000 + r) =
    match uncoreOne w with
    | some b => .reg b 0 r
    | none =>
      if 0x10 ≤ w ∧ w < 0x14 then .reg .host (w - 0x10) r
      else if 0x20 ≤ w ∧ w < 0x30 then .reg .atl (w - 0x20) r
      else if 0x30 ≤ w ∧ w < 0x32 then .reg .coll (w - 0x30) r
      else if 0x100 ≤ w ∧ w < 0x118 then .reg .link (w - 0x100) r
      else if 0x200 ≤ w ∧ w < 0x210 then .reg .hbm (w - 0x200) r
      else if 0x300 ≤ w ∧ w < 0x310 then .reg .var (w - 0x300) r
      else .absent := by
  unfold uncorePlace
  have h0 : ¬ 0x10000000 ≤ w * 0x10000 + r := by omega
  have h1 : (w * 0x10000 + r) / 0x10000 = w := by omega
  have h2 : (w * 0x10000 + r) % 0x10000 = r := by omega
  simp only [h0, h1, h2, if_false]
  all_goals rfl

/-- Windows 8 and above are no single blocks. -/
theorem uncoreOne_none (w : Nat) (h : 8 ≤ w) : uncoreOne w = none := by
  unfold uncoreOne
  split <;> first | omega | rfl

/-- A tile's block. -/
theorem place_tileBlk (b : Blk) (k j r : Nat) (hj : j < 64) (hr : r < 0x10000) (hk : k < 6)
    (hb : blkBase b j = 0x20000000000 + k * 0x10000 + j * 0x100000)
    (hp : tilePlace j (k * 0x10000 + r) = .reg b j r) : place (blkBase b j + r) = .reg b j r := by
  rw [hb, place_tile j k r hj hr hk, hp]

/-- An uncore block. -/
theorem place_uncoreBlk (b : Blk) (w j r : Nat)
    (hb : blkBase b j = 0x21000000000 + w * 0x10000)
    (hp : uncorePlace (w * 0x10000 + r) = .reg b j r) : place (blkBase b j + r) = .reg b j r := by
  rw [hb, Nat.add_assoc, place_uncore, hp]

/-- A window offset of an instance of a block lies there. -/
theorem place_blkBase (b : Blk) (j r : Nat) (hj : j < blkCount b) (hr : r < blkSize b) : place (blkBase b j + r) = .reg b j r := by
  cases b <;> simp only [blkCount, blkSize] at hj hr
  case mx => exact place_tileBlk _ 0 j r hj hr (by decide) (by simp [blkBase]) (tilePlace_blk j 0 r hr)
  case ve => exact place_tileBlk _ 1 j r hj hr (by decide) (by simp [blkBase]) (tilePlace_blk j 1 r hr)
  case sfu => exact place_tileBlk _ 2 j r hj hr (by decide) (by simp [blkBase]) (tilePlace_blk j 2 r hr)
  case pal => exact place_tileBlk _ 3 j r hj hr (by decide) (by simp [blkBase]) (tilePlace_blk j 3 r hr)
  case seq => exact place_tileBlk _ 4 j r hj hr (by decide) (by simp [blkBase]) (tilePlace_blk j 4 r hr)
  case pmc => exact place_tileBlk _ 5 j r hj hr (by decide) (by simp [blkBase]) (tilePlace_blk j 5 r hr)
  case cap | tb | pwr | plant | risk | dbg | fuse | cmc =>
    obtain rfl : j = 0 := by omega
    first
      | exact place_uncoreBlk _ 0 0 r rfl (uncorePlace_window 0 r (by decide) hr)
      | exact place_uncoreBlk _ 1 0 r rfl (uncorePlace_window 1 r (by decide) hr)
      | exact place_uncoreBlk _ 2 0 r rfl (uncorePlace_window 2 r (by decide) hr)
      | exact place_uncoreBlk _ 3 0 r rfl (uncorePlace_window 3 r (by decide) hr)
      | exact place_uncoreBlk _ 4 0 r rfl (uncorePlace_window 4 r (by decide) hr)
      | exact place_uncoreBlk _ 5 0 r rfl (uncorePlace_window 5 r (by decide) hr)
      | exact place_uncoreBlk _ 6 0 r rfl (uncorePlace_window 6 r (by decide) hr)
      | exact place_uncoreBlk _ 7 0 r rfl (uncorePlace_window 7 r (by decide) hr)
  case host =>
    refine place_uncoreBlk _ (0x10 + j) j r (by simp only [blkBase]; omega) ?_
    rw [uncorePlace_window _ r (by omega) hr, uncoreOne_none _ (by omega)]
    simp only []
    rw [if_pos (by omega), Nat.add_sub_cancel_left]
  case atl =>
    refine place_uncoreBlk _ (0x20 + j) j r (by simp only [blkBase]; omega) ?_
    rw [uncorePlace_window _ r (by omega) hr, uncoreOne_none _ (by omega)]
    simp only []
    rw [if_neg (by omega), if_pos (by omega), Nat.add_sub_cancel_left]
  case coll =>
    refine place_uncoreBlk _ (0x30 + j) j r (by simp only [blkBase]; omega) ?_
    rw [uncorePlace_window _ r (by omega) hr, uncoreOne_none _ (by omega)]
    simp only []
    rw [if_neg (by omega), if_neg (by omega), if_pos (by omega), Nat.add_sub_cancel_left]
  case link =>
    refine place_uncoreBlk _ (0x100 + j) j r (by simp only [blkBase]; omega) ?_
    rw [uncorePlace_window _ r (by omega) hr, uncoreOne_none _ (by omega)]
    simp only []
    rw [if_neg (by omega), if_neg (by omega), if_neg (by omega), if_pos (by omega), Nat.add_sub_cancel_left]
  case hbm =>
    refine place_uncoreBlk _ (0x200 + j) j r (by simp only [blkBase]; omega) ?_
    rw [uncorePlace_window _ r (by omega) hr, uncoreOne_none _ (by omega)]
    simp only []
    rw [if_neg (by omega), if_neg (by omega), if_neg (by omega), if_neg (by omega), if_pos (by omega), Nat.add_sub_cancel_left]
  case var =>
    refine place_uncoreBlk _ (0x300 + j) j r (by simp only [blkBase]; omega) ?_
    rw [uncorePlace_window _ r (by omega) hr, uncoreOne_none _ (by omega)]
    simp only []
    rw [if_neg (by omega), if_neg (by omega), if_neg (by omega), if_neg (by omega), if_neg (by omega), if_pos (by omega),
      Nat.add_sub_cancel_left]
  case ring =>
    obtain rfl : j = 0 := by omega
    rw [show blkBase .ring 0 + r = 0x21000000000 + (0x10000000 + r) by simp only [blkBase]; omega, place_uncore]
    unfold uncorePlace ringPlace
    have h1 : 0x10000000 ≤ 0x10000000 + r := by omega
    have h2 : 0x10000000 + r < 0x20000000 := by omega
    have h3 : 0x10000000 + r - 0x10000000 = r := by omega
    simp only [h1, h2, h3, hr, if_true]
  case grp =>
    rw [show blkBase .grp j + r = 0x21000000000 + (0x10100000 + (j * 64 + r)) by simp only [blkBase]; omega, place_uncore]
    unfold uncorePlace ringPlace
    have h1 : 0x10000000 ≤ 0x10100000 + (j * 64 + r) := by omega
    have h2 : 0x10100000 + (j * 64 + r) < 0x20000000 := by omega
    have h3 : 0x10100000 + (j * 64 + r) - 0x10000000 = 0x100000 + (j * 64 + r) := by omega
    have h4 : ¬ 0x100000 + (j * 64 + r) < 0x100000 := by omega
    have h5 : 0x100000 + (j * 64 + r) < 0x180000 := by omega
    have h6 : (0x100000 + (j * 64 + r) - 0x100000) / 64 = j := by omega
    have h7 : (0x100000 + (j * 64 + r)) % 64 = r := by omega
    simp only [h1, h2, h3, h4, h5, h6, h7, if_true, if_false]
  case ringr =>
    rw [show blkBase .ringr j + r = 0x21000000000 + (0x11000000 + (j * 64 + r)) by simp only [blkBase]; omega, place_uncore]
    unfold uncorePlace ringPlace
    have h1 : 0x10000000 ≤ 0x11000000 + (j * 64 + r) := by omega
    have h2 : 0x11000000 + (j * 64 + r) < 0x20000000 := by omega
    have h3 : 0x11000000 + (j * 64 + r) - 0x10000000 = 0x1000000 + (j * 64 + r) := by omega
    have h4 : ¬ 0x1000000 + (j * 64 + r) < 0x100000 := by omega
    have h5 : ¬ 0x1000000 + (j * 64 + r) < 0x180000 := by omega
    have h6 : 0x1000000 ≤ 0x1000000 + (j * 64 + r) ∧ 0x1000000 + (j * 64 + r) < 0x3000000 := by omega
    have h7 : (0x1000000 + (j * 64 + r) - 0x1000000) / 64 = j := by omega
    have h8 : (0x1000000 + (j * 64 + r)) % 64 = r := by omega
    simp only [h1, h2, h3, h4, h5, h6, h7, h8, if_true, if_false, and_self]

/-- An address of a block's register lies in that block's window, at its instance and offset. -/
theorem place_regAddr (b : Blk) (i off : Nat) :
    place (regAddr b i off) =
      .reg b (if oneCopy b (off % blkSize b) then 0 else i % blkCount b) (off % blkSize b) := by
  unfold regAddr
  apply place_blkBase
  · split
    · cases b <;> decide
    · exact Nat.mod_lt _ (by cases b <;> decide)
  · exact Nat.mod_lt _ (by cases b <;> decide)

/-- The place of a register's address leads back to it. -/
theorem regAddr_place {b b' : Blk} {i i' o o' : Nat} (h : place (regAddr b i o) = .reg b' i' o') :
    regAddr b' i' o' = regAddr b i o := by
  rw [place_regAddr] at h
  simp only [Place.reg.injEq] at h
  obtain ⟨rfl, rfl, rfl⟩ := h
  unfold regAddr
  rw [Nat.mod_mod]
  split
  · rfl
  · rw [Nat.mod_mod]

/-- The block of a register's address. -/
@[simp] theorem blkAt_regAddr (b : Blk) (i off : Nat) : blkAt (regAddr b i off) = some b := by
  simp [blkAt, place_regAddr]

/-- The block of a field's address. -/
@[simp] theorem blkAt_addr (f : Fld) (i k : Nat) : blkAt (f.addr i k) = some f.blk := blkAt_regAddr ..

/-- Registers of different blocks have different addresses. -/
theorem regAddr_ne_blk {b b' : Blk} (h : b ≠ b') (i i' o o' : Nat) : regAddr b i o ≠ regAddr b' i' o' := by
  intro e
  have := blkAt_regAddr b i o
  rw [e, blkAt_regAddr] at this
  exact h (Option.some.inj this).symm

/-- Registers at different offsets have different addresses. -/
theorem regAddr_ne_off {b : Blk} {o o' : Nat} (h : o % blkSize b ≠ o' % blkSize b) (i i' : Nat) :
    regAddr b i o ≠ regAddr b i' o' := by
  intro e
  have := place_regAddr b i o
  rw [e, place_regAddr] at this
  simp only [Place.reg.injEq] at this
  exact h this.2.2.symm

/-- The bits that the register of a place implements. -/
theorem regBits_regAddr (b : Blk) (i o : Nat) : regBits (regAddr b i o) =
    match findDef (blkRegs b) (o % blkSize b) with
    | some d => if b = .cap then 0 else d.impl
    | none => 0 := by
  unfold regBits regAt
  rw [place_regAddr]
  dsimp only
  cases h : findDef (blkRegs b) (o % blkSize b) with
  | none => rfl
  | some d => cases b <;> rfl

/-- The reset value of the register of a place. -/
theorem regReset_regAddr (b : Blk) (i o : Nat) : regReset (regAddr b i o) =
    match findDef (blkRegs b) (o % blkSize b) with
    | some d => resetOf b (o % blkSize b) d
    | none => 0 := by
  unfold regReset regAt
  rw [place_regAddr]
  dsimp only
  cases findDef (blkRegs b) (o % blkSize b) <;> rfl

end Sys2Proof.Machine
end

