-- ==== Sys2Proof/Laws/Footprint.lean ====
section
/-! SUPPORT. Footprints: what an action can change, composed from what its parts can. A footprint lists the register
fields, the registers and addresses written whole, the units and the further kinds of state that may change; whatever it
does not list is kept. -/

namespace Sys2Proof.Machine

/-- One part of the units' own state. -/
inductive Part where
  | pwr | plant | boot | var | fab | pmc | mx | ve | nv | hbm | tb | fail | host | rings | pal
  deriving DecidableEq, Repr

/-- Two states of the units agree in a part. -/
def Part.same (u v : Units) : Part → Prop
  | .pwr => u.pwr = v.pwr
  | .plant => u.plant = v.plant
  | .boot => u.boot = v.boot
  | .var => u.var = v.var
  | .fab => u.fab = v.fab
  | .pmc => u.pmc = v.pmc
  | .mx => u.mx = v.mx
  | .ve => u.ve = v.ve
  | .nv => u.nv = v.nv
  | .hbm => u.hbm = v.hbm
  | .tb => u.tb = v.tb
  | .fail => u.fail = v.fail
  | .host => u.host = v.host
  | .rings => u.rings = v.rings
  | .pal => u.pal = v.pal

/-- What a footprint may list: a field, a register or an array of registers written whole, one register's address, a part
of the units, memory with its poison and errors, what is sent outside, routes, fuses, and the loss of registers where power
is lost. -/
inductive Touch where
  | fld (f : Fld)
  | reg (f : Fld)
  | addr (a : Nat)
  | part (p : Part)
  | mem
  | out
  | routes
  | fuses
  | lost
  deriving DecidableEq, Repr

/-- A footprint. -/
abbrev Foot := List Touch

/-- The footprint allows a primitive effect in a state. -/
def Foot.allows (F : Foot) (s : State) : Eff → Prop
  | .reg a v => (∃ f i k n, Touch.fld f ∈ F ∧ a = f.addr i k ∧ v = putBits (s.held a) f.hi f.lo n)
      ∨ (∃ f i k, Touch.reg f ∈ F ∧ a = f.addr i k) ∨ Touch.addr a ∈ F
  | .granule .. | .poison _ | .heal _ | .upset .. | .wipeMem _ => Touch.mem ∈ F
  | .route .. | .wipeRoutes => Touch.routes ∈ F
  | .blow .. => Touch.fuses ∈ F
  | .out _ => Touch.out ∈ F
  | .draw => True
  | .units u => ∀ p, p.same s.units u ∨ Touch.part p ∈ F
  | .wipeRegs _ => Touch.lost ∈ F

/-- Effects that a footprint allows lead from `s` to the second state. -/
inductive ReachIn (F : Foot) (s : State) : State → Prop where
  | refl : ReachIn F s s
  | eff {t : State} (h : ReachIn F s t) (e : Eff) (he : F.allows t e) : ReachIn F s (e.apply t)

variable {s₀ : State} {α β : Type} {F G : Foot}

/-- Effects that follow effects. -/
theorem ReachIn.trans {s t u : State} (h : ReachIn F s t) (h' : ReachIn F t u) : ReachIn F s u := by
  induction h' with
  | refl => exact h
  | eff _ e he ih => exact ih.eff e he

/-- One effect. -/
theorem ReachIn.one {s : State} (e : Eff) (he : F.allows s e) : ReachIn F s (e.apply s) := ReachIn.refl.eff e he

/-- Within a footprint, effects are effects. -/
theorem ReachIn.reach {s t : State} (h : ReachIn F s t) : Reach s t := by
  induction h with
  | refl => exact .refl
  | eff _ e _ ih => exact ih.eff e

/-- What every allowed effect keeps, effects within the footprint keep. -/
theorem ReachIn.keeps {s t : State} (h : ReachIn F s t) (P : State → Prop) (hs : P s)
    (he : ∀ (u : State) (e : Eff), F.allows u e → P u → P (e.apply u)) : P t := by
  induction h with
  | refl => exact hs
  | eff _ e ha ih => exact he _ e ha ih

/-- The action's effects lie within the footprint, wherever it starts. -/
def Within (F : Foot) (a : Act s₀ α) : Prop := ∀ x, ReachIn F x.1 (a x).2.1
/-- The same of an operation. -/
def WithinW (F : Foot) (w : Work s₀ α) : Prop := ∀ io, Within F (w io)
/-- The same of a body check. -/
def WithinP (F : Foot) (p : Prep s₀ α) : Prop := WithinW F p.run

/-- What an action's footprint says of a meaning. -/
theorem Within.perform {s : State} {a : Act s Unit} (h : Within F a) : ReachIn F s (perform s a) := by
  unfold Sys2Proof.Machine.perform State.orWaits
  split
  · exact .refl
  · split
    · exact .refl
    · exact h ⟨s, .refl⟩

/-- The same where reset makes no difference. -/
theorem Within.performAlways {s : State} {a : Act s Unit} (h : Within F a) : ReachIn F s (performAlways s a) := h ⟨s, .refl⟩

/-! ### Actions -/

theorem within_pure (v : α) : Within F (pure v : Act s₀ α) := fun _ => .refl
theorem within_now : Within F (now : Act s₀ State) := fun _ => .refl
theorem within_ask (f : State → α) : Within F (ask f : Act s₀ α) := fun _ => .refl
theorem within_bind {a : Act s₀ α} {f : α → Act s₀ β} (ha : Within F a) (hf : ∀ v, Within F (f v)) : Within F (a >>= f) :=
  fun x => (ha x).trans (hf _ _)
theorem within_map {a : Act s₀ α} (f : α → β) (ha : Within F a) : Within F (f <$> a) := fun x => ha x
theorem within_change (f : Units → Units) (h : ∀ u p, p.same u (f u) ∨ Touch.part p ∈ F) :
    Within F (change f : Act s₀ Unit) := fun x => ReachIn.one (.units (f x.1.units)) (h _)
theorem within_emit (e : Eff) (h : ∀ s, F.allows s e) : Within F (emit e : Act s₀ Unit) := fun x => ReachIn.one e (h x.1)
theorem within_ite {c : Prop} [Decidable c] {a b : Act s₀ α} (ha : Within F a) (hb : Within F b) :
    Within F (if c then a else b) := by split <;> assumption
theorem within_fld (f : Fld) (i k : Nat) : Within F (fld f i k : Act s₀ Nat) := within_ask _
theorem within_isOn (f : Fld) (i k : Nat) : Within F (isOn f i k : Act s₀ Bool) := within_ask _
theorem within_freeIndex : Within F (freeIndex : Act s₀ Nat) := fun _ => ReachIn.one .draw trivial
theorem within_setF (f : Fld) (v i k : Nat) (h : Touch.fld f ∈ F) : Within F (setF f v i k : Act s₀ Unit) :=
  fun _ => ReachIn.one (.reg (f.addr i k) _) (.inl ⟨f, i, k, v, h, rfl, rfl⟩)
theorem within_raise (f : Fld) (i k : Nat) (h : Touch.fld f ∈ F) : Within F (raise f i k : Act s₀ Unit) :=
  within_setF f 1 i k h
theorem within_countUp (f : Fld) (n i k : Nat) (h : Touch.fld f ∈ F) : Within F (countUp f n i k : Act s₀ Unit) := by
  unfold countUp
  exact within_bind (within_fld f i k) fun _ => within_setF f _ i k h
theorem within_countWrap (f : Fld) (n i k : Nat) (h : Touch.fld f ∈ F) : Within F (countWrap f n i k : Act s₀ Unit) := by
  unfold countWrap
  exact within_bind (within_fld f i k) fun _ => within_setF f _ i k h
theorem within_each (xs : List α) (f : α → Act s₀ Unit) (h : ∀ x, Within F (f x)) : Within F (each xs f) := by
  induction xs with
  | nil => exact within_pure _
  | cons x xs ih => exact within_bind (h x) fun _ => ih
theorem within_logFirst (v o : Fld) (i : Nat) (fill : Act s₀ Unit) (hv : Touch.fld v ∈ F) (ho : Touch.fld o ∈ F)
    (h : Within F fill) : Within F (logFirst v o i fill) := by
  unfold logFirst
  refine within_bind (within_isOn v i 0) fun b => ?_
  split
  · exact within_raise o i 0 ho
  · exact within_bind (within_raise v i 0 hv) fun _ => h
theorem within_forIn {σ : Type} (xs : List β) (init : σ) (f : β → σ → Act s₀ (ForInStep σ)) (h : ∀ b r, Within F (f b r)) :
    Within F (forIn xs init f) := by
  induction xs generalizing init with
  | nil => exact within_pure _
  | cons x xs ih =>
    rw [List.forIn_cons]
    refine within_bind (h _ _) fun r => ?_
    split
    · exact within_pure _
    · exact ih _
/-- A register effect on an address that the footprint lists. -/
theorem within_emitAddr (a : Nat) (v : Word) (h : Touch.addr a ∈ F) : Within F (emit (.reg a v) : Act s₀ Unit) :=
  within_emit _ fun _ => .inr (.inr h)
/-- A register effect on a register that the footprint lists whole. -/
theorem within_emitReg (f : Fld) (i k : Nat) (v : Word) (h : Touch.reg f ∈ F) :
    Within F (emit (.reg (f.addr i k) v) : Act s₀ Unit) := within_emit _ fun _ => .inr (.inl ⟨f, i, k, h, rfl⟩)

/-- The register at an address may take any value. -/
def Foot.free (F : Foot) (a : Nat) : Prop := (∃ f i k, Touch.reg f ∈ F ∧ a = f.addr i k) ∨ Touch.addr a ∈ F
theorem within_emitFree (a : Nat) (v : Word) (h : F.free a) : Within F (emit (.reg a v) : Act s₀ Unit) :=
  within_emit _ fun _ => .inr h
theorem within_emit_granule (h : Touch.mem ∈ F) (g : Nat) (v m : BitVec 512) :
    Within F (emit (.granule g v m) : Act s₀ Unit) := within_emit _ fun _ => h
theorem within_emit_poison (h : Touch.mem ∈ F) (g : Nat) : Within F (emit (.poison g) : Act s₀ Unit) := within_emit _ fun _ => h
theorem within_emit_heal (h : Touch.mem ∈ F) (g : Nat) : Within F (emit (.heal g) : Act s₀ Unit) := within_emit _ fun _ => h
theorem within_emit_upset (h : Touch.mem ∈ F) (g : Nat) (m : BitVec 576) :
    Within F (emit (.upset g m) : Act s₀ Unit) := within_emit _ fun _ => h
theorem within_emit_route (h : Touch.routes ∈ F) (m : Nat) (v : Word) :
    Within F (emit (.route m v) : Act s₀ Unit) := within_emit _ fun _ => h
theorem within_emit_wipeRoutes (h : Touch.routes ∈ F) : Within F (emit .wipeRoutes : Act s₀ Unit) := within_emit _ fun _ => h
theorem within_emit_blow (h : Touch.fuses ∈ F) (w b : Nat) : Within F (emit (.blow w b) : Act s₀ Unit) :=
  within_emit _ fun _ => h
theorem within_emit_out (h : Touch.out ∈ F) (o : Out) : Within F (emit (.out o) : Act s₀ Unit) := within_emit _ fun _ => h
theorem within_emit_wipeRegs (h : Touch.lost ∈ F) (p : Nat → Bool) : Within F (emit (.wipeRegs p) : Act s₀ Unit) :=
  within_emit _ fun _ => h
theorem within_emit_wipeMem (h : Touch.mem ∈ F) (p : Nat → Bool) : Within F (emit (.wipeMem p) : Act s₀ Unit) :=
  within_emit _ fun _ => h

/-! ### Operations -/

theorem withinW_pure (v : α) : WithinW F (pure v : Work s₀ α) := fun _ => within_pure _
theorem withinW_get : WithinW F (get : Work s₀ Io) := fun _ => within_pure _
theorem withinW_set (io : Io) : WithinW F (set io : Work s₀ PUnit) := fun _ => within_pure _
theorem withinW_modify (f : Io → Io) : WithinW F (modify f : Work s₀ PUnit) := fun _ => within_pure _
theorem withinW_modifyGet (f : Io → α × Io) : WithinW F (modifyGet f : Work s₀ α) := fun _ => within_pure _
theorem withinW_bind {a : Work s₀ α} {f : α → Work s₀ β} (ha : WithinW F a) (hf : ∀ v, WithinW F (f v)) :
    WithinW F (a >>= f) := fun io => within_bind (ha io) fun v => hf v.1 v.2
theorem withinW_map {a : Work s₀ α} (f : α → β) (ha : WithinW F a) : WithinW F (f <$> a) :=
  fun io => within_bind (ha io) fun v => within_pure (f v.1, v.2)
theorem withinW_ite {c : Prop} [Decidable c] {a b : Work s₀ α} (ha : WithinW F a) (hb : WithinW F b) :
    WithinW F (if c then a else b) := by split <;> assumption
theorem withinW_doing {a : Act s₀ α} (h : Within F a) : WithinW F (doing a) := fun _ =>
  within_bind h fun v => within_pure (v, _)
theorem withinW_forIn {σ : Type} (xs : List β) (init : σ) (f : β → σ → Work s₀ (ForInStep σ))
    (h : ∀ b r, WithinW F (f b r)) : WithinW F (forIn xs init f) := by
  induction xs generalizing init with
  | nil => exact withinW_pure _
  | cons x xs ih =>
    rw [List.forIn_cons]
    refine withinW_bind (h _ _) fun r => ?_
    split
    · exact withinW_pure _
    · exact ih _
theorem within_runWork {w : Work s₀ α} (h : WithinW F w) (io : Io) : Within F (w.run io) := h io

/-! ### Body checks -/

theorem withinP_pure (v : α) : WithinP F (pure v : Prep s₀ α) := withinW_pure _
theorem withinP_failure : WithinP F (failure : Prep s₀ α) := withinW_pure _
theorem withinP_lift {a : Work s₀ α} (h : WithinW F a) : WithinP F (OptionT.lift a : Prep s₀ α) :=
  withinW_bind h fun _ => withinW_pure _
theorem withinP_bind {a : Prep s₀ α} {f : α → Prep s₀ β} (ha : WithinP F a) (hf : ∀ v, WithinP F (f v)) :
    WithinP F (a >>= f) := by
  unfold WithinP
  rw [OptionT.run_bind]
  refine withinW_bind ha fun v => ?_
  cases v with
  | none => exact withinW_pure _
  | some v => exact hf v
theorem withinP_seqLeft {a : Prep s₀ α} {b : Prep s₀ β} (ha : WithinP F a) (hb : WithinP F b) : WithinP F (a <* b) :=
  withinP_bind ha fun v => withinP_bind hb fun _ => withinP_pure v
theorem withinP_seqRight {a : Prep s₀ α} {b : Prep s₀ β} (ha : WithinP F a) (hb : WithinP F b) : WithinP F (a *> b) :=
  withinP_bind ha fun _ => hb
theorem withinP_map {a : Prep s₀ α} (f : α → β) (ha : WithinP F a) : WithinP F (f <$> a) := by
  unfold WithinP
  rw [OptionT.run_map]
  exact withinW_map _ ha
theorem withinP_ite {c : Prop} [Decidable c] {a b : Prep s₀ α} (ha : WithinP F a) (hb : WithinP F b) :
    WithinP F (if c then a else b) := by split <;> assumption
theorem withinP_run {p : Prep s₀ α} (h : WithinP F p) : WithinW F p.run := h
theorem withinP_forIn {σ : Type} (xs : List β) (init : σ) (f : β → σ → Prep s₀ (ForInStep σ))
    (h : ∀ b r, WithinP F (f b r)) : WithinP F (forIn xs init f) := by
  induction xs generalizing init with
  | nil => exact withinP_pure _
  | cons x xs ih =>
    rw [List.forIn_cons]
    refine withinP_bind (h _ _) fun r => ?_
    split
    · exact withinP_pure _
    · exact ih _

end Sys2Proof.Machine
end

