-- ==== Sys2Proof/Laws/FootEffects.lean ====
section
/-! SUPPORT. The footprints of the actions of Effects. -/

namespace Sys2Proof.Machine

variable {s₀ : State}

def bumpUncore_foot : Foot := [.fld CMC_UC_VALUE, .fld CMC_UC_OVF_OVF]
theorem bumpUncore_within {F : Foot} (hF : bumpUncore_foot ⊆ F) (c n : Nat) : Within F (bumpUncore c n : Act s₀ Bool) := by
  simp only [bumpUncore_foot, List.cons_subset, List.nil_subset, and_true] at hF
  obtain ⟨_, _⟩ := hF
  unfold bumpUncore
  repeat' first
    | with_reducible
        first
        | intro _ | exact within_pure _ | exact within_fld _ _ _ | exact within_setF _ _ _ _ ‹_›
        | refine within_bind ?_ fun _ => ?_ | refine within_ite ?_ ?_ | split | dsimp only

def counted_foot : Foot := [.part .pmc]
theorem counted_within {F : Foot} (hF : counted_foot ⊆ F) (t c n : Nat) (edge : Bool) : Within F (counted t c n edge : Act s₀ Nat) := by
  simp only [counted_foot, List.cons_subset, List.nil_subset, and_true] at hF
  unfold counted
  repeat' first
    | with_reducible
        first
        | intro _ | exact within_pure _ | exact within_now | refine within_bind ?_ fun _ => ?_
        | refine within_ite ?_ ?_ | split | dsimp only
    | exact within_change _ fun u p => by cases p <;> first | exact .inl rfl | exact .inr ‹_› | (refine .inl ?_; simp only [Part.same]; repeat' split) <;> rfl

def endInterval_foot : Foot := [.part .pmc]
theorem endInterval_within {F : Foot} (hF : endInterval_foot ⊆ F) (p : Nat × Nat → Bool) : Within F (endInterval p : Act s₀ Unit) := by
  simp only [endInterval_foot, List.cons_subset, List.nil_subset, and_true] at hF
  unfold endInterval
  repeat' first
    | with_reducible
        first
        | intro _ | exact within_pure _ | refine within_bind ?_ fun _ => ?_ | split | dsimp only
    | exact within_change _ fun u p => by cases p <;> first | exact .inl rfl | exact .inr ‹_› | (refine .inl ?_; simp only [Part.same]; repeat' split) <;> rfl

def uncore_foot : Foot := counted_foot ++ bumpUncore_foot
theorem uncore_within {F : Foot} (hF : uncore_foot ⊆ F) (kind source ev n : Nat) : Within F (uncore kind source ev n : Act s₀ Unit) := by
  simp only [uncore_foot, List.append_subset] at hF
  obtain ⟨_, _⟩ := hF
  unfold uncore
  repeat' first
    | with_reducible
        first
        | intro _ | exact counted_within ‹_› .. | exact bumpUncore_within ‹_› .. | exact within_pure _
        | exact within_now | refine within_bind ?_ fun _ => ?_ | refine within_ite ?_ ?_
        | refine within_each _ _ fun _ => ?_ | split | dsimp only

def send_foot : Foot := [.out] ++ uncore_foot
theorem send_within {F : Foot} (hF : send_foot ⊆ F) (o : Out) : Within F (send o : Act s₀ Unit) := by
  simp only [send_foot, List.append_subset, List.cons_subset, List.nil_subset, and_true] at hF
  obtain ⟨_, _⟩ := hF
  unfold send
  repeat' first
    | with_reducible
        first
        | intro _ | exact uncore_within ‹_› .. | exact within_pure _ | exact within_emit_out ‹_› ..
        | refine within_bind ?_ fun _ => ?_ | split | dsimp only

end Sys2Proof.Machine
end

