-- ==== Sys2Proof/Laws/FootRegs.lean ====
section
/-! SUPPORT. The footprints of the actions of Regs. -/

namespace Sys2Proof.Machine

variable {s₀ : State}

def recordLocked_foot : Foot := [.fld HOST_LOCKED_COUNT, .fld HOST_LOCKED_LOG_ADDR, .fld HOST_LOCKED_LOG_VALID, .fld HOST_LOCKED_LOG_OVERRUN]
theorem recordLocked_within {F : Foot} (hF : recordLocked_foot ⊆ F) (p a : Nat) : Within F (recordLocked p a : Act s₀ Unit) := by
  simp only [recordLocked_foot, List.cons_subset, List.nil_subset, and_true] at hF
  obtain ⟨_, _, _, _⟩ := hF
  unfold recordLocked
  repeat' first
    | with_reducible
        first
        | intro _ | exact within_pure _ | exact within_setF _ _ _ _ ‹_› | exact within_countUp _ _ _ _ ‹_›
        | refine within_bind ?_ fun _ => ?_ | refine within_logFirst _ _ _ _ ‹_› ‹_› ?_ | split | dsimp only

def setConfig_foot : Foot := [.part .host]
theorem setConfig_within {F : Foot} (hF : setConfig_foot ⊆ F) (p dw : Nat) (v : BitVec 32) : Within F (setConfig p dw v : Act s₀ Unit) := by
  simp only [setConfig_foot, List.cons_subset, List.nil_subset, and_true] at hF
  unfold setConfig
  repeat' first
    | with_reducible
        first
        | intro _ | exact within_pure _ | refine within_bind ?_ fun _ => ?_ | split | dsimp only
    | exact within_change _ fun u p => by cases p <;> first | exact .inl rfl | exact .inr ‹_› | (refine .inl ?_; simp only [Part.same]; repeat' split) <;> rfl

def logAdvisory_foot : Foot := setConfig_foot
theorem logAdvisory_within {F : Foot} (hF : logAdvisory_foot ⊆ F) (p : Nat) : Within F (logAdvisory p : Act s₀ Unit) := by
  simp only [logAdvisory_foot] at hF
  unfold logAdvisory
  repeat' first
    | with_reducible
        first
        | intro _ | exact setConfig_within ‹_› .. | exact within_pure _ | refine within_bind ?_ fun _ => ?_ | split
        | dsimp only

def recordDenied_foot : Foot := [.fld HOST_DENIED_COUNT, .fld HOST_DENIED_LOG_WRITE, .fld HOST_DENIED_LOG_ADDR, .fld HOST_DENIED_LOG_VALID, .fld HOST_DENIED_LOG_OVERRUN] ++ logAdvisory_foot
theorem recordDenied_within {F : Foot} (hF : recordDenied_foot ⊆ F) (p : Nat) (write : Bool) (a : Nat) : Within F (recordDenied p write a : Act s₀ Unit) := by
  simp only [recordDenied_foot, List.append_subset, List.cons_subset, List.nil_subset, and_true, and_assoc] at hF
  obtain ⟨_, _, _, _, _, _⟩ := hF
  unfold recordDenied
  repeat' first
    | with_reducible
        first
        | intro _ | exact logAdvisory_within ‹_› .. | exact within_pure _ | exact within_setF _ _ _ _ ‹_›
        | exact within_countUp _ _ _ _ ‹_› | refine within_bind ?_ fun _ => ?_ | refine within_ite ?_ ?_
        | refine within_logFirst _ _ _ _ ‹_› ‹_› ?_ | split | dsimp only

def recordNarrow_foot : Foot := [.fld HOST_NARROW_COUNT]
theorem recordNarrow_within {F : Foot} (hF : recordNarrow_foot ⊆ F) (p : Nat) : Within F (recordNarrow p : Act s₀ Unit) := by
  simp only [recordNarrow_foot, List.cons_subset, List.nil_subset, and_true] at hF
  unfold recordNarrow
  repeat' first
    | with_reducible
        first
        | intro _ | exact within_pure _ | exact within_countUp _ _ _ _ ‹_› | refine within_bind ?_ fun _ => ?_
        | split | dsimp only

/-- What a hook's register is where the command names a field's register. -/
theorem free_ofField {F : Foot} {f : Fld} {i k : Nat} (h : Touch.reg f ∈ F) {a : Nat}
    (ha : ∃ b j off, place (f.addr i k) = .reg b j off ∧ a = regAddr b j off) : F.free a := by
  obtain ⟨b, j, off, hp, rfl⟩ := ha
  exact .inl ⟨f, i, k, h, regAddr_place hp⟩

def checkedWrite_foot : Foot := recordLocked_foot ++ recordDenied_foot
theorem checkedWrite_within {F : Foot} (h : checkedWrite_foot ⊆ F) (p a : Nat) (v : Word) (hook : RegWrite → Act s₀ Unit)
    (hk : ∀ w : RegWrite, (∃ b i off, place a = .reg b i off ∧ w.addr = regAddr b i off) → Within F (hook w)) :
    Within F (checkedWrite p a v hook : Act s₀ Unit) := by
  simp only [checkedWrite_foot, List.append_subset] at h
  obtain ⟨_, _⟩ := h
  unfold checkedWrite
  refine within_bind within_now fun s => ?_
  split
  · have hw := fun w hw => hk w ⟨_, _, _, ‹_›, hw⟩
    repeat' first
      | with_reducible
          first
          | intro _ | exact recordLocked_within ‹_› .. | exact recordDenied_within ‹_› .. | exact within_pure _
          | refine within_bind ?_ fun _ => ?_ | split | dsimp only
      | exact hw _ rfl
  · exact recordDenied_within ‹_› _ _ _

theorem plainHook_within {F : Foot} {w : RegWrite} (hw : F.free w.addr) : Within F (plainHook w : Act s₀ Unit) := by
  unfold plainHook
  repeat' first
    | with_reducible
        first
        | intro _ | exact within_pure _ | exact within_emitReg _ _ _ _ ‹_› | exact within_emitAddr _ _ ‹_›
        | exact within_emitFree _ _ ‹_› | refine within_bind ?_ fun _ => ?_ | split | dsimp only

def discardRecorded_foot : Foot := recordLocked_foot
theorem discardRecorded_within {F : Foot} (hF : discardRecorded_foot ⊆ F) (w : RegWrite) : Within F (discardRecorded w : Act s₀ Unit) := by
  simp only [discardRecorded_foot] at hF
  unfold discardRecorded
  repeat' first
    | with_reducible
        first
        | intro _ | exact recordLocked_within ‹_› .. | exact within_pure _ | refine within_bind ?_ fun _ => ?_
        | split | dsimp only

end Sys2Proof.Machine
end

