-- ==== Sys2Proof/Laws/FootRecords.lean ====
section
/-! SUPPORT. The footprints of the actions of Records. -/

namespace Sys2Proof.Machine

variable {s₀ : State}

def queueRecord_foot : Foot := [.part .rings]
theorem queueRecord_within {F : Foot} (hF : queueRecord_foot ⊆ F) (r : CqRecord) : Within F (queueRecord r : Act s₀ Unit) := by
  simp only [queueRecord_foot, List.cons_subset, List.nil_subset, and_true] at hF
  unfold queueRecord
  repeat' first
    | with_reducible
        first
        | intro _ | exact within_pure _ | refine within_bind ?_ fun _ => ?_ | split | dsimp only
    | exact within_change _ fun u p => by cases p <;> first | exact .inl rfl | exact .inr ‹_› | (refine .inl ?_; simp only [Part.same]; repeat' split) <;> rfl

def notifyRecord_foot : Foot := queueRecord_foot
theorem notifyRecord_within {F : Foot} (hF : notifyRecord_foot ⊆ F) (st : Status) (events : Nat) : Within F (notifyRecord st events : Act s₀ Unit) := by
  simp only [notifyRecord_foot] at hF
  unfold notifyRecord
  repeat' first
    | with_reducible
        first
        | intro _ | exact queueRecord_within ‹_› .. | exact within_pure _ | exact within_ask _
        | exact within_fld _ _ _ | exact within_isOn _ _ _ | exact within_freeIndex
        | refine within_bind ?_ fun _ => ?_ | refine within_ite ?_ ?_ | split | dsimp only

def riskEvent_foot : Foot := notifyRecord_foot
theorem riskEvent_within {F : Foot} (hF : riskEvent_foot ⊆ F) (f : Fld) (hf : Touch.fld f ∈ F) : Within F (riskEvent f : Act s₀ Unit) := by
  simp only [riskEvent_foot] at hF
  unfold riskEvent
  repeat' first
    | with_reducible
        first
        | intro _ | exact notifyRecord_within ‹_› .. | exact within_pure _ | exact within_isOn _ _ _
        | exact within_raise _ _ _ ‹_› | refine within_bind ?_ fun _ => ?_ | refine within_ite ?_ ?_ | split
        | dsimp only

def setScore_foot : Foot := [.fld RISK_SCORE_SCORE, .fld RISK_SCORE_LEVEL, .fld RISK_EVENT_LEVEL1, .fld RISK_EVENT_LEVEL2, .fld RISK_EVENT_LEVEL3, .part .fail] ++ riskEvent_foot
theorem setScore_within {F : Foot} (hF : setScore_foot ⊆ F) (v : Nat) : Within F (setScore v : Act s₀ Unit) := by
  simp only [setScore_foot, List.append_subset, List.cons_subset, List.nil_subset, and_true, and_assoc] at hF
  obtain ⟨_, _, _, _, _, _, _⟩ := hF
  unfold setScore
  repeat' first
    | with_reducible
        first
        | intro _ | exact riskEvent_within ‹_› _ ‹_› | exact within_pure _ | exact within_now
        | exact within_fld _ _ _ | exact within_setF _ _ _ _ ‹_› | refine within_bind ?_ fun _ => ?_
        | refine within_ite ?_ ?_ | split | dsimp only
    | exact within_change _ fun u p => by cases p <;> first | exact .inl rfl | exact .inr ‹_› | (refine .inl ?_; simp only [Part.same]; repeat' split) <;> rfl

def riskBump_foot : Foot := setScore_foot
theorem riskBump_within {F : Foot} (hF : riskBump_foot ⊆ F) (f : Fld) : Within F (riskBump f : Act s₀ Unit) := by
  simp only [riskBump_foot] at hF
  unfold riskBump
  repeat' first
    | with_reducible
        first
        | intro _ | exact setScore_within ‹_› .. | exact within_pure _ | exact within_fld _ _ _
        | exact within_isOn _ _ _ | refine within_bind ?_ fun _ => ?_ | refine within_ite ?_ ?_ | split | dsimp only

def riskCe_foot : Foot := [.part .fail]
theorem riskCe_within {F : Foot} (hF : riskCe_foot ⊆ F) (n : Nat) : Within F (riskCe n : Act s₀ Unit) := by
  simp only [riskCe_foot, List.cons_subset, List.nil_subset, and_true] at hF
  unfold riskCe
  repeat' first
    | with_reducible
        first
        | intro _ | exact within_pure _ | refine within_bind ?_ fun _ => ?_ | split | dsimp only
    | exact within_change _ fun u p => by cases p <;> first | exact .inl rfl | exact .inr ‹_› | (refine .inl ?_; simp only [Part.same]; repeat' split) <;> rfl

def riskLink_foot : Foot := [.part .fail]
theorem riskLink_within {F : Foot} (hF : riskLink_foot ⊆ F) (n : Nat) : Within F (riskLink n : Act s₀ Unit) := by
  simp only [riskLink_foot, List.cons_subset, List.nil_subset, and_true] at hF
  unfold riskLink
  repeat' first
    | with_reducible
        first
        | intro _ | exact within_pure _ | refine within_bind ?_ fun _ => ?_ | split | dsimp only
    | exact within_change _ fun u p => by cases p <;> first | exact .inl rfl | exact .inr ‹_› | (refine .inl ?_; simp only [Part.same]; repeat' split) <;> rfl

end Sys2Proof.Machine
end

