-- ==== Sys2Proof/Laws/FootCounters.lean ====
section
/-! SUPPORT. The footprints of the actions of Counters. -/

namespace Sys2Proof.Machine

variable {s₀ : State}

def writeSample_foot : Foot := [.fld PMC_SBUF_CTL_LOST, .fld PMC_SBUF_WORD, .fld PMC_SBUF_CTL_WR, .fld PMC_SBUF_CTL_COUNT, .fld PMC_SBUF_CTL_FULL]
theorem writeSample_within {F : Foot} (hF : writeSample_foot ⊆ F) (t : Nat) (words : List Nat) : Within F (writeSample t words : Act s₀ Unit) := by
  simp only [writeSample_foot, List.cons_subset, List.nil_subset, and_true] at hF
  obtain ⟨_, _, _, _, _⟩ := hF
  unfold writeSample
  repeat' first
    | with_reducible
        first
        | intro _ | exact within_pure _ | exact within_fld _ _ _ | exact within_setF _ _ _ _ ‹_›
        | exact within_countUp _ _ _ _ ‹_› | refine within_bind ?_ fun _ => ?_ | refine within_ite ?_ ?_
        | refine within_each _ _ fun _ => ?_ | split | dsimp only

def sampleWrap_foot : Foot := writeSample_foot
theorem sampleWrap_within {F : Foot} (hF : sampleWrap_foot ⊆ F) (t c ev : Nat) (o : Occ) : Within F (sampleWrap t c ev o : Act s₀ Unit) := by
  simp only [sampleWrap_foot] at hF
  unfold sampleWrap
  repeat' first
    | with_reducible
        first
        | intro _ | exact writeSample_within ‹_› .. | exact within_pure _ | exact within_now | exact within_freeIndex
        | refine within_bind ?_ fun _ => ?_ | refine within_ite ?_ ?_ | split | dsimp only

def bumpCounter_foot : Foot := [.fld PMC_CTR_VALUE, .fld PMC_OVF_OVF, .fld PMC_CTL_FROZEN] ++ sampleWrap_foot
theorem bumpCounter_within {F : Foot} (hF : bumpCounter_foot ⊆ F) (t c n ev : Nat) (o : Occ) : Within F (bumpCounter t c n ev o : Act s₀ Bool) := by
  simp only [bumpCounter_foot, List.append_subset, List.cons_subset, List.nil_subset, and_true, and_assoc] at hF
  obtain ⟨_, _, _, _⟩ := hF
  unfold bumpCounter
  repeat' first
    | with_reducible
        first
        | intro _ | exact sampleWrap_within ‹_› .. | exact within_pure _ | exact within_now
        | exact within_setF _ _ _ _ ‹_› | exact within_raise _ _ _ ‹_› | refine within_bind ?_ fun _ => ?_
        | refine within_ite ?_ ?_ | split | dsimp only

def tally_foot : Foot := counted_foot ++ bumpCounter_foot
theorem tally_within {F : Foot} (hF : tally_foot ⊆ F) (t ev : Nat) (units : List Nat) (n : Nat) (o : Occ) : Within F (tally t ev units n o : Act s₀ Unit) := by
  simp only [tally_foot, List.append_subset] at hF
  obtain ⟨_, _⟩ := hF
  unfold tally
  repeat' first
    | with_reducible
        first
        | intro _ | exact counted_within ‹_› .. | exact bumpCounter_within ‹_› .. | exact within_pure _
        | exact within_now | refine within_bind ?_ fun _ => ?_ | refine within_ite ?_ ?_
        | refine within_each _ _ fun _ => ?_ | split | dsimp only

def tallySlots_foot : Foot := [.fld PMC_TD_COUNT] ++ tally_foot
theorem tallySlots_within {F : Foot} (hF : tallySlots_foot ⊆ F) (t u c n : Nat) (o : Occ) : Within F (tallySlots t u c n o : Act s₀ Unit) := by
  simp only [tallySlots_foot, List.append_subset, List.cons_subset, List.nil_subset, and_true] at hF
  obtain ⟨_, _⟩ := hF
  unfold tallySlots
  repeat' first
    | with_reducible
        first
        | intro _ | exact tally_within ‹_› .. | exact within_pure _ | exact within_countWrap _ _ _ _ ‹_›
        | refine within_bind ?_ fun _ => ?_ | split | dsimp only

def tallyIssue_foot : Foot := [.fld PMC_TD_BEATS_COUNT] ++ tallySlots_foot
theorem tallyIssue_within {F : Foot} (hF : tallyIssue_foot ⊆ F) (t u retired wasted : Nat) (o : Occ) : Within F (tallyIssue t u retired wasted o : Act s₀ Unit) := by
  simp only [tallyIssue_foot, List.append_subset, List.cons_subset, List.nil_subset, and_true] at hF
  obtain ⟨_, _⟩ := hF
  unfold tallyIssue
  repeat' first
    | with_reducible
        first
        | intro _ | exact tallySlots_within ‹_› .. | exact within_pure _ | exact within_countWrap _ _ _ _ ‹_›
        | refine within_bind ?_ fun _ => ?_ | split | dsimp only

def tallyStack_foot : Foot := uncore_foot
theorem tallyStack_within {F : Foot} (hF : tallyStack_foot ⊆ F) (w : Who) (n ev : Nat) : Within F (tallyStack w n ev : Act s₀ Unit) := by
  simp only [tallyStack_foot] at hF
  unfold tallyStack
  repeat' first
    | with_reducible
        first
        | intro _ | exact uncore_within ‹_› .. | exact within_pure _ | refine within_bind ?_ fun _ => ?_
        | refine within_ite ?_ ?_ | split | dsimp only

end Sys2Proof.Machine
end

