-- ==== Sys2Proof/Laws/FootMemory.lean ====
section
/-! SUPPORT. The footprints of the actions of Memory. -/

namespace Sys2Proof.Machine

variable {s₀ : State}

def changeRings_foot : Foot := [.part .rings]
theorem changeRings_within {F : Foot} (hF : changeRings_foot ⊆ F) (f : RingUnit → RingUnit) : Within F (changeRings f : Act s₀ Unit) := by
  simp only [changeRings_foot, List.cons_subset, List.nil_subset, and_true] at hF
  unfold changeRings
  repeat' first
    | with_reducible
        first
        | intro _ | exact within_pure _ | refine within_bind ?_ fun _ => ?_ | split | dsimp only
    | exact within_change _ fun u p => by cases p <;> first | exact .inl rfl | exact .inr ‹_› | (refine .inl ?_; simp only [Part.same]; repeat' split) <;> rfl

def withSlot_foot : Foot := changeRings_foot
theorem withSlot_within {F : Foot} (hF : withSlot_foot ⊆ F) (id : Nat) (f : Slot → Slot) : Within F (withSlot id f : Act s₀ Unit) := by
  simp only [withSlot_foot] at hF
  unfold withSlot
  repeat' first
    | with_reducible
        first
        | intro _ | exact changeRings_within ‹_› .. | exact within_pure _ | refine within_bind ?_ fun _ => ?_
        | refine within_ite ?_ ?_ | split | dsimp only

def settleWaits_foot : Foot := changeRings_foot
theorem settleWaits_within {F : Foot} (hF : settleWaits_foot ⊆ F) : Within F (settleWaits : Act s₀ Unit) := by
  simp only [settleWaits_foot] at hF
  unfold settleWaits
  repeat' first
    | with_reducible
        first
        | intro _ | exact changeRings_within ‹_› .. | exact within_pure _ | exact within_now
        | refine within_bind ?_ fun _ => ?_ | refine within_ite ?_ ?_ | split | dsimp only

def acAdd_foot : Foot := [.fld PAL_AC_VALUE] ++ settleWaits_foot
theorem acAdd_within {F : Foot} (hF : acAdd_foot ⊆ F) (t n k : Nat) : Within F (acAdd t n k : Act s₀ Unit) := by
  simp only [acAdd_foot, List.append_subset, List.cons_subset, List.nil_subset, and_true] at hF
  obtain ⟨_, _⟩ := hF
  unfold acAdd
  repeat' first
    | with_reducible
        first
        | intro _ | exact settleWaits_within ‹_› .. | exact within_pure _ | exact within_countWrap _ _ _ _ ‹_›
        | refine within_bind ?_ fun _ => ?_ | split | dsimp only

def palCorrected_foot : Foot := [.fld PAL_ECC_CE_COUNT_CE_COUNT, .fld PAL_ECC_CE_LOG_VALID, .fld PAL_ECC_CE_LOG_WORD, .fld PAL_ECC_CE_LOG_SYNDROME, .fld PAL_ECC_CE_LOG_GRANULE] ++ (tally_foot ++ riskCe_foot)
theorem palCorrected_within {F : Foot} (hF : palCorrected_foot ⊆ F) (who : Who) (t g : Nat) (m : BitVec 576) : Within F (palCorrected who t g m : Act s₀ Unit) := by
  simp only [palCorrected_foot, List.append_subset, List.cons_subset, List.nil_subset, and_true, and_assoc] at hF
  obtain ⟨_, _, _, _, _, _, _⟩ := hF
  unfold palCorrected
  repeat' first
    | with_reducible
        first
        | intro _ | exact tally_within ‹_› .. | exact riskCe_within ‹_› .. | exact within_pure _
        | exact within_setF _ _ _ _ ‹_› | exact within_raise _ _ _ ‹_› | exact within_countUp _ _ _ _ ‹_›
        | refine within_bind ?_ fun _ => ?_ | refine within_each _ _ fun _ => ?_ | split | dsimp only

def changePal_foot : Foot := [.part .pal]
theorem changePal_within {F : Foot} (hF : changePal_foot ⊆ F) (f : PalUnit → PalUnit) : Within F (changePal f : Act s₀ Unit) := by
  simp only [changePal_foot, List.cons_subset, List.nil_subset, and_true] at hF
  unfold changePal
  repeat' first
    | with_reducible
        first
        | intro _ | exact within_pure _ | refine within_bind ?_ fun _ => ?_ | split | dsimp only
    | exact within_change _ fun u p => by cases p <;> first | exact .inl rfl | exact .inr ‹_› | (refine .inl ?_; simp only [Part.same]; repeat' split) <;> rfl

def oweWriteBack_foot : Foot := changePal_foot
theorem oweWriteBack_within {F : Foot} (hF : oweWriteBack_foot ⊆ F) (t g : Nat) : Within F (oweWriteBack t g : Act s₀ Unit) := by
  simp only [oweWriteBack_foot] at hF
  unfold oweWriteBack
  repeat' first
    | with_reducible
        first
        | intro _ | exact changePal_within ‹_› .. | exact within_pure _ | refine within_bind ?_ fun _ => ?_
        | refine within_ite ?_ ?_ | split | dsimp only

def dropWriteBack_foot : Foot := changePal_foot
theorem dropWriteBack_within {F : Foot} (hF : dropWriteBack_foot ⊆ F) (g : Nat) : Within F (dropWriteBack g : Act s₀ Unit) := by
  simp only [dropWriteBack_foot] at hF
  unfold dropWriteBack
  repeat' first
    | with_reducible
        first
        | intro _ | exact changePal_within ‹_› .. | exact within_pure _ | refine within_bind ?_ fun _ => ?_ | split
        | dsimp only

def spoil_foot : Foot := [.mem]
theorem spoil_within {F : Foot} (hF : spoil_foot ⊆ F) (g : Nat) : Within F (spoil g : Act s₀ Unit) := by
  simp only [spoil_foot, List.cons_subset, List.nil_subset, and_true] at hF
  unfold spoil
  repeat' first
    | with_reducible
        first
        | intro _ | exact within_pure _ | exact within_now | exact within_emit_granule ‹_› ..
        | exact within_emit_poison ‹_› .. | exact within_emit_upset ‹_› .. | refine within_bind ?_ fun _ => ?_
        | split | dsimp only

def palUncorrectable_foot : Foot := [.fld PAL_ECC_UE_COUNT_UE_COUNT, .fld PAL_POISONED_COUNT, .fld PAL_ECC_UE_LOG_GRANULE, .fld PAL_ECC_UE_LOG_VALID, .fld PAL_ECC_UE_LOG_OVERRUN] ++ (spoil_foot ++ (dropWriteBack_foot ++ riskBump_foot))
theorem palUncorrectable_within {F : Foot} (hF : palUncorrectable_foot ⊆ F) (t g : Nat) : Within F (palUncorrectable t g : Act s₀ Unit) := by
  simp only [palUncorrectable_foot, List.append_subset, List.cons_subset, List.nil_subset, and_true, and_assoc] at hF
  obtain ⟨_, _, _, _, _, _, _, _⟩ := hF
  unfold palUncorrectable
  repeat' first
    | with_reducible
        first
        | intro _ | exact spoil_within ‹_› .. | exact dropWriteBack_within ‹_› .. | exact riskBump_within ‹_› ..
        | exact within_pure _ | exact within_setF _ _ _ _ ‹_› | exact within_countUp _ _ _ _ ‹_›
        | refine within_bind ?_ fun _ => ?_ | refine within_logFirst _ _ _ _ ‹_› ‹_› ?_ | split | dsimp only

def stackRetire_foot : Foot := [.fld HBM_ERR_UE, .fld RISK_RETIRE_LOG_METHOD, .fld RISK_RETIRE_LOG_STACK, .fld RISK_RETIRE_LOG_BLOCK, .fld RISK_EVENT_BLOCK_RETIRED, .fld HBM_REPAIR_SOFT, .fld RISK_RETIRED_COUNT, .fld RISK_EVENT_RETIRE_EXHAUSTED, .fld RISK_RETIRE_LOG_VALID, .fld RISK_RETIRE_LOG_OVERRUN, .mem, .part .nv, .part .hbm] ++ (riskBump_foot ++ riskEvent_foot)
theorem stackRetire_within {F : Foot} (hF : stackRetire_foot ⊆ F) (n g : Nat) (spare : Bool) : Within F (stackRetire n g spare : Act s₀ Unit) := by
  simp only [stackRetire_foot, List.append_subset, List.cons_subset, List.nil_subset, and_true, and_assoc] at hF
  obtain ⟨_, _, _, _, _, _, _, _, _, _, _, _, _, _, _⟩ := hF
  unfold stackRetire
  repeat' first
    | with_reducible
        first
        | intro _ | exact riskBump_within ‹_› .. | exact riskEvent_within ‹_› _ ‹_› | exact within_pure _
        | exact within_setF _ _ _ _ ‹_› | exact within_countUp _ _ _ _ ‹_› | exact within_emit_poison ‹_› ..
        | exact within_emit_wipeMem ‹_› .. | refine within_bind ?_ fun _ => ?_ | refine within_ite ?_ ?_
        | refine within_each _ _ fun _ => ?_ | refine within_logFirst _ _ _ _ ‹_› ‹_› ?_ | split | dsimp only
    | exact within_change _ fun u p => by cases p <;> first | exact .inl rfl | exact .inr ‹_› | (refine .inl ?_; simp only [Part.same]; repeat' split) <;> rfl

def stackCorrected_foot : Foot := [.fld HBM_ERR_CE] ++ (uncore_foot ++ riskCe_foot)
theorem stackCorrected_within {F : Foot} (hF : stackCorrected_foot ⊆ F) (n : Nat) (m : BitVec 576) : Within F (stackCorrected n m : Act s₀ Unit) := by
  simp only [stackCorrected_foot, List.append_subset, List.cons_subset, List.nil_subset, and_true] at hF
  obtain ⟨_, _, _⟩ := hF
  unfold stackCorrected
  repeat' first
    | with_reducible
        first
        | intro _ | exact uncore_within ‹_› .. | exact riskCe_within ‹_› .. | exact within_pure _
        | exact within_countUp _ _ _ _ ‹_› | refine within_bind ?_ fun _ => ?_ | split | dsimp only

def noteRead_foot : Foot := tally_foot ++ tallyStack_foot
theorem noteRead_within {F : Foot} (hF : noteRead_foot ⊆ F) (who : Who) (g : Nat) : Within F (noteRead who g : Act s₀ Unit) := by
  simp only [noteRead_foot, List.append_subset] at hF
  obtain ⟨_, _⟩ := hF
  unfold noteRead
  repeat' first
    | with_reducible
        first
        | intro _ | exact tally_within ‹_› .. | exact tallyStack_within ‹_› .. | exact within_pure _
        | refine within_bind ?_ fun _ => ?_ | split | dsimp only

def readPalette_foot : Foot := noteRead_foot ++ (palUncorrectable_foot ++ (palCorrected_foot ++ oweWriteBack_foot))
theorem readPalette_within {F : Foot} (hF : readPalette_foot ⊆ F) (who : Who) (t g : Nat) : Within F (readPalette who t g : Act s₀ (Granule × Got)) := by
  simp only [readPalette_foot, List.append_subset] at hF
  obtain ⟨_, _, _, _⟩ := hF
  unfold readPalette
  repeat' first
    | with_reducible
        first
        | intro _ | exact noteRead_within ‹_› .. | exact palUncorrectable_within ‹_› ..
        | exact palCorrected_within ‹_› .. | exact oweWriteBack_within ‹_› .. | exact within_pure _
        | exact within_now | refine within_bind ?_ fun _ => ?_ | refine within_ite ?_ ?_ | split | dsimp only

def meetRepair_foot : Foot := [.part .hbm]
theorem meetRepair_within {F : Foot} (hF : meetRepair_foot ⊆ F) (n : Nat) : Within F (meetRepair n : Act s₀ Unit) := by
  simp only [meetRepair_foot, List.cons_subset, List.nil_subset, and_true] at hF
  unfold meetRepair
  repeat' first
    | with_reducible
        first
        | intro _ | exact within_pure _ | exact within_now | refine within_bind ?_ fun _ => ?_
        | refine within_ite ?_ ?_ | split | dsimp only
    | exact within_change _ fun u p => by cases p <;> first | exact .inl rfl | exact .inr ‹_› | (refine .inl ?_; simp only [Part.same]; repeat' split) <;> rfl

def readStack_foot : Foot := [.mem] ++ (meetRepair_foot ++ (noteRead_foot ++ (stackRetire_foot ++ stackCorrected_foot)))
theorem readStack_within {F : Foot} (hF : readStack_foot ⊆ F) (who : Who) (n g : Nat) : Within F (readStack who n g : Act s₀ (Granule × Got)) := by
  simp only [readStack_foot, List.append_subset, List.cons_subset, List.nil_subset, and_true] at hF
  obtain ⟨_, _, _, _, _⟩ := hF
  unfold readStack
  repeat' first
    | with_reducible
        first
        | intro _ | exact meetRepair_within ‹_› .. | exact noteRead_within ‹_› .. | exact stackRetire_within ‹_› ..
        | exact stackCorrected_within ‹_› .. | exact within_pure _ | exact within_now | exact within_freeIndex
        | exact within_emit_upset ‹_› .. | refine within_bind ?_ fun _ => ?_ | refine within_ite ?_ ?_ | split
        | dsimp only

def injectOn_foot : Foot := [.fld PAL_INJECT_ARM, .mem]
theorem injectOn_within {F : Foot} (hF : injectOn_foot ⊆ F) (t g : Nat) : Within F (injectOn t g : Act s₀ Unit) := by
  simp only [injectOn_foot, List.cons_subset, List.nil_subset, and_true] at hF
  obtain ⟨_, _⟩ := hF
  unfold injectOn
  repeat' first
    | with_reducible
        first
        | intro _ | exact within_pure _ | exact within_now | exact within_setF _ _ _ _ ‹_›
        | exact within_emit_upset ‹_› .. | refine within_bind ?_ fun _ => ?_ | refine within_ite ?_ ?_ | split
        | dsimp only

def storeGranule_foot : Foot := [.mem] ++ dropWriteBack_foot
theorem storeGranule_within {F : Foot} (hF : storeGranule_foot ⊆ F) (g : Nat) (v mask : Granule) : Within F (storeGranule g v mask : Act s₀ Unit) := by
  simp only [storeGranule_foot, List.append_subset, List.cons_subset, List.nil_subset, and_true] at hF
  obtain ⟨_, _⟩ := hF
  unfold storeGranule
  repeat' first
    | with_reducible
        first
        | intro _ | exact dropWriteBack_within ‹_› .. | exact within_pure _ | exact within_emit_granule ‹_› ..
        | exact within_emit_upset ‹_› .. | refine within_bind ?_ fun _ => ?_ | split | dsimp only

def healGranule_foot : Foot := [.fld PAL_POISONED_COUNT, .mem]
theorem healGranule_within {F : Foot} (hF : healGranule_foot ⊆ F) (g : Nat) : Within F (healGranule g : Act s₀ Unit) := by
  simp only [healGranule_foot, List.cons_subset, List.nil_subset, and_true] at hF
  obtain ⟨_, _⟩ := hF
  unfold healGranule
  repeat' first
    | with_reducible
        first
        | intro _ | exact within_pure _ | exact within_fld _ _ _ | exact within_setF _ _ _ _ ‹_›
        | exact within_emit_heal ‹_› .. | refine within_bind ?_ fun _ => ?_ | split | dsimp only

def countCommit_foot : Foot := acAdd_foot ++ tally_foot
theorem countCommit_within {F : Foot} (hF : countCommit_foot ⊆ F) (who : Who) (t g : Nat) (ac : Option Nat) : Within F (countCommit who t g ac : Act s₀ Unit) := by
  simp only [countCommit_foot, List.append_subset] at hF
  obtain ⟨_, _⟩ := hF
  unfold countCommit
  repeat' first
    | with_reducible
        first
        | intro _ | exact acAdd_within ‹_› .. | exact tally_within ‹_› .. | exact within_pure _
        | refine within_bind ?_ fun _ => ?_ | split | dsimp only

def replaceGranule_foot : Foot := storeGranule_foot ++ healGranule_foot
theorem replaceGranule_within {F : Foot} (hF : replaceGranule_foot ⊆ F) (g : Nat) (v mask : Granule) : Within F (replaceGranule g v mask : Act s₀ Unit) := by
  simp only [replaceGranule_foot, List.append_subset] at hF
  obtain ⟨_, _⟩ := hF
  unfold replaceGranule
  repeat' first
    | with_reducible
        first
        | intro _ | exact storeGranule_within ‹_› .. | exact healGranule_within ‹_› .. | exact within_pure _
        | exact within_now | refine within_bind ?_ fun _ => ?_ | refine within_ite ?_ ?_ | split | dsimp only

def commitPalette_foot : Foot := palUncorrectable_foot ++ (palCorrected_foot ++ (replaceGranule_foot ++ (injectOn_foot ++ countCommit_foot)))
theorem commitPalette_within {F : Foot} (hF : commitPalette_foot ⊆ F) (who : Who) (t g : Nat) (v mask : Granule) (ac : Option Nat) : Within F (commitPalette who t g v mask ac : Act s₀ Got) := by
  simp only [commitPalette_foot, List.append_subset] at hF
  obtain ⟨_, _, _, _, _⟩ := hF
  unfold commitPalette
  repeat' first
    | with_reducible
        first
        | intro _ | exact palUncorrectable_within ‹_› .. | exact palCorrected_within ‹_› ..
        | exact replaceGranule_within ‹_› .. | exact injectOn_within ‹_› .. | exact countCommit_within ‹_› ..
        | exact within_pure _ | exact within_now | refine within_bind ?_ fun _ => ?_ | refine within_ite ?_ ?_
        | split | dsimp only

def commitStack_foot : Foot := meetRepair_foot ++ (stackRetire_foot ++ (stackCorrected_foot ++ (tallyStack_foot ++ replaceGranule_foot)))
theorem commitStack_within {F : Foot} (hF : commitStack_foot ⊆ F) (who : Who) (n g : Nat) (v mask : Granule) : Within F (commitStack who n g v mask : Act s₀ Got) := by
  simp only [commitStack_foot, List.append_subset] at hF
  obtain ⟨_, _, _, _, _⟩ := hF
  unfold commitStack
  repeat' first
    | with_reducible
        first
        | intro _ | exact meetRepair_within ‹_› .. | exact stackRetire_within ‹_› ..
        | exact stackCorrected_within ‹_› .. | exact tallyStack_within ‹_› .. | exact replaceGranule_within ‹_› ..
        | exact within_pure _ | exact within_now | exact within_freeIndex | refine within_bind ?_ fun _ => ?_
        | refine within_ite ?_ ?_ | split | dsimp only

def takeTag_foot : Foot := [.fld RING_TXN_IN_USE, .fld RING_TXN_PEAK, .fld ATL_TAGS_IN_USE_COUNT]
theorem takeTag_within {F : Foot} (hF : takeTag_foot ⊆ F) (owner : Option Nat) : Within F (takeTag owner : Act s₀ Unit) := by
  simp only [takeTag_foot, List.cons_subset, List.nil_subset, and_true] at hF
  obtain ⟨_, _, _⟩ := hF
  unfold takeTag
  repeat' first
    | with_reducible
        first
        | intro _ | exact within_pure _ | exact within_fld _ _ _ | exact within_setF _ _ _ _ ‹_›
        | refine within_bind ?_ fun _ => ?_ | split | dsimp only

def freeTag_foot : Foot := [.fld RING_TXN_IN_USE, .fld ATL_TAGS_IN_USE_COUNT]
theorem freeTag_within {F : Foot} (hF : freeTag_foot ⊆ F) (owner : Option Nat) : Within F (freeTag owner : Act s₀ Unit) := by
  simp only [freeTag_foot, List.cons_subset, List.nil_subset, and_true] at hF
  obtain ⟨_, _⟩ := hF
  unfold freeTag
  repeat' first
    | with_reducible
        first
        | intro _ | exact within_pure _ | exact within_fld _ _ _ | exact within_setF _ _ _ _ ‹_›
        | refine within_bind ?_ fun _ => ?_ | split | dsimp only

def notePeak_foot : Foot := [.fld RING_TXN_PEAK]
theorem notePeak_within {F : Foot} (hF : notePeak_foot ⊆ F) : Within F (notePeak : Act s₀ Unit) := by
  simp only [notePeak_foot, List.cons_subset, List.nil_subset, and_true] at hF
  unfold notePeak
  repeat' first
    | with_reducible
        first
        | intro _ | exact within_pure _ | exact within_fld _ _ _ | exact within_setF _ _ _ _ ‹_›
        | refine within_bind ?_ fun _ => ?_ | split | dsimp only

def countTagWait_foot : Foot := [.fld RING_TXN_WAIT_COUNT, .fld ATL_TAGS_WAIT_COUNT]
theorem countTagWait_within {F : Foot} (hF : countTagWait_foot ⊆ F) (owner : Option Nat) : Within F (countTagWait owner : Act s₀ Unit) := by
  simp only [countTagWait_foot, List.cons_subset, List.nil_subset, and_true] at hF
  obtain ⟨_, _⟩ := hF
  unfold countTagWait
  repeat' first
    | with_reducible
        first
        | intro _ | exact within_pure _ | exact within_countUp _ _ _ _ ‹_› | refine within_bind ?_ fun _ => ?_
        | split | dsimp only

def releaseTag_foot : Foot := freeTag_foot
theorem releaseTag_within {F : Foot} (hF : releaseTag_foot ⊆ F) (b : Banked) : Within F (releaseTag b : Act s₀ Unit) := by
  simp only [releaseTag_foot] at hF
  unfold releaseTag
  repeat' first
    | with_reducible
        first
        | intro _ | exact freeTag_within ‹_› .. | exact within_pure _ | exact within_now
        | refine within_bind ?_ fun _ => ?_ | split | dsimp only

def dropBanked_foot : Foot := changePal_foot ++ releaseTag_foot
theorem dropBanked_within {F : Foot} (hF : dropBanked_foot ⊆ F) (p : Banked → Bool) : Within F (dropBanked p : Act s₀ Unit) := by
  simp only [dropBanked_foot, List.append_subset] at hF
  obtain ⟨_, _⟩ := hF
  unfold dropBanked
  repeat' first
    | with_reducible
        first
        | intro _ | exact changePal_within ‹_› .. | exact releaseTag_within ‹_› .. | exact within_pure _
        | exact within_ask _ | refine within_bind ?_ fun _ => ?_ | refine within_each _ _ fun _ => ?_ | split
        | dsimp only

def tellSender_foot : Foot := withSlot_foot
theorem tellSender_within {F : Foot} (hF : tellSender_foot ⊆ F) (sender : Option Nat) (e : Got) (ended : Bool) : Within F (tellSender sender e ended : Act s₀ Unit) := by
  simp only [tellSender_foot] at hF
  unfold tellSender
  repeat' first
    | with_reducible
        first
        | intro _ | exact withSlot_within ‹_› .. | exact within_pure _ | refine within_bind ?_ fun _ => ?_
        | refine within_ite ?_ ?_ | split | dsimp only

def countSet_foot : Foot := tally_foot
theorem countSet_within {F : Foot} (hF : countSet_foot ⊆ F) (who : Who) (gs : List Nat) : Within F (countSet who gs : Act s₀ Unit) := by
  simp only [countSet_foot] at hF
  unfold countSet
  repeat' first
    | with_reducible
        first
        | intro _ | exact tally_within ‹_› .. | exact within_pure _ | refine within_bind ?_ fun _ => ?_
        | refine within_each _ _ fun _ => ?_ | split | dsimp only

def stopSender_foot : Foot := dropBanked_foot ++ withSlot_foot
theorem stopSender_within {F : Foot} (hF : stopSender_foot ⊆ F) (sender : Option Nat) : Within F (stopSender sender : Act s₀ Unit) := by
  simp only [stopSender_foot, List.append_subset] at hF
  obtain ⟨_, _⟩ := hF
  unfold stopSender
  repeat' first
    | with_reducible
        first
        | intro _ | exact dropBanked_within ‹_› .. | exact withSlot_within ‹_› .. | exact within_pure _
        | refine within_bind ?_ fun _ => ?_ | refine within_ite ?_ ?_ | split | dsimp only

def serveSet_foot : Foot := readPalette_foot ++ (tellSender_foot ++ (stopSender_foot ++ countSet_foot))
theorem serveSet_within {F : Foot} (hF : serveSet_foot ⊆ F) (w : PalWait) : Within F (serveSet w : Act s₀ Unit) := by
  simp only [serveSet_foot, List.append_subset] at hF
  obtain ⟨_, _, _, _⟩ := hF
  unfold serveSet
  repeat' first
    | with_reducible
        first
        | intro _ | exact readPalette_within ‹_› .. | exact tellSender_within ‹_› .. | exact stopSender_within ‹_› ..
        | exact countSet_within ‹_› .. | exact within_pure _ | exact within_now | refine within_bind ?_ fun _ => ?_
        | refine within_ite ?_ ?_ | refine within_each _ _ fun _ => ?_ | split | dsimp only

def commitTransfer_foot : Foot := commitPalette_foot ++ tellSender_foot
theorem commitTransfer_within {F : Foot} (hF : commitTransfer_foot ⊆ F) (t : Nat) (x : Transfer) : Within F (commitTransfer t x : Act s₀ Unit) := by
  simp only [commitTransfer_foot, List.append_subset] at hF
  obtain ⟨_, _⟩ := hF
  unfold commitTransfer
  repeat' first
    | with_reducible
        first
        | intro _ | exact commitPalette_within ‹_› .. | exact tellSender_within ‹_› .. | exact within_pure _
        | exact within_now | refine within_bind ?_ fun _ => ?_ | split | dsimp only

def writeBack_foot : Foot := [.mem] ++ tally_foot
theorem writeBack_within {F : Foot} (hF : writeBack_foot ⊆ F) (t g : Nat) : Within F (writeBack t g : Act s₀ Unit) := by
  simp only [writeBack_foot, List.append_subset, List.cons_subset, List.nil_subset, and_true] at hF
  obtain ⟨_, _⟩ := hF
  unfold writeBack
  repeat' first
    | with_reducible
        first
        | intro _ | exact tally_within ‹_› .. | exact within_pure _ | exact within_emit_upset ‹_› ..
        | refine within_bind ?_ fun _ => ?_ | split | dsimp only

def serveBanked_foot : Foot := commitTransfer_foot ++ (serveSet_foot ++ (writeBack_foot ++ releaseTag_foot))
theorem serveBanked_within {F : Foot} (hF : serveBanked_foot ⊆ F) (b : Banked) : Within F (serveBanked b : Act s₀ Unit) := by
  simp only [serveBanked_foot, List.append_subset] at hF
  obtain ⟨_, _, _, _⟩ := hF
  unfold serveBanked
  repeat' first
    | with_reducible
        first
        | intro _ | exact commitTransfer_within ‹_› .. | exact serveSet_within ‹_› .. | exact writeBack_within ‹_› ..
        | exact releaseTag_within ‹_› .. | exact within_pure _ | refine within_bind ?_ fun _ => ?_ | split
        | dsimp only

def serveFirst_foot : Foot := changePal_foot ++ serveBanked_foot
theorem serveFirst_within {F : Foot} (hF : serveFirst_foot ⊆ F) (p : Banked → Bool) : Within F (serveFirst p : Act s₀ Unit) := by
  simp only [serveFirst_foot, List.append_subset] at hF
  obtain ⟨_, _⟩ := hF
  unfold serveFirst
  repeat' first
    | with_reducible
        first
        | intro _ | exact changePal_within ‹_› .. | exact serveBanked_within ‹_› .. | exact within_pure _
        | exact within_ask _ | refine within_bind ?_ fun _ => ?_ | split | dsimp only

def drainWhile_foot : Foot := serveFirst_foot
theorem drainWhile_within {F : Foot} (hF : drainWhile_foot ⊆ F) (t : Nat) (held : List Banked → Bool) : ∀ x0, Within F (drainWhile t held x0 : Act s₀ Unit)
  | 0 => by
    have hF0 := hF
    simp only [drainWhile_foot] at hF
    unfold drainWhile
    repeat' first
      | with_reducible
          first
          | exact drainWhile_within hF0 _ _ _ | intro _ | exact serveFirst_within ‹_› .. | exact within_pure _
          | exact within_ask _ | refine within_bind ?_ fun _ => ?_ | refine within_ite ?_ ?_ | split | dsimp only
  | n + 1 => by
    have hF0 := hF
    simp only [drainWhile_foot] at hF
    unfold drainWhile
    repeat' first
      | with_reducible
          first
          | exact drainWhile_within hF0 _ _ _ | intro _ | exact serveFirst_within ‹_› .. | exact within_pure _
          | exact within_ask _ | refine within_bind ?_ fun _ => ?_ | refine within_ite ?_ ?_ | split | dsimp only

def settleBanks_foot : Foot := drainWhile_foot
theorem settleBanks_within {F : Foot} (hF : settleBanks_foot ⊆ F) (t : Nat) (held : List Banked → Bool) : Within F (settleBanks t held : Act s₀ Unit) := by
  simp only [settleBanks_foot] at hF
  unfold settleBanks
  repeat' first
    | with_reducible
        first
        | intro _ | exact drainWhile_within ‹_› .. | exact within_pure _ | exact within_now
        | refine within_bind ?_ fun _ => ?_ | split | dsimp only

def serveInTurn_foot : Foot := settleBanks_foot ++ serveFirst_foot
theorem serveInTurn_within {F : Foot} (hF : serveInTurn_foot ⊆ F) (b : Banked) : Within F (serveInTurn b : Act s₀ Unit) := by
  simp only [serveInTurn_foot, List.append_subset] at hF
  obtain ⟨_, _⟩ := hF
  unfold serveInTurn
  repeat' first
    | with_reducible
        first
        | intro _ | exact settleBanks_within ‹_› .. | exact serveFirst_within ‹_› .. | exact within_pure _
        | refine within_bind ?_ fun _ => ?_ | split | dsimp only

def readGranule_foot : Foot := settleBanks_foot ++ (readPalette_foot ++ readStack_foot)
theorem readGranule_within {F : Foot} (hF : readGranule_foot ⊆ F) (who : Who) (g : Nat) : Within F (readGranule who g : Act s₀ (Granule × Got)) := by
  simp only [readGranule_foot, List.append_subset] at hF
  obtain ⟨_, _, _⟩ := hF
  unfold readGranule
  repeat' first
    | with_reducible
        first
        | intro _ | exact settleBanks_within ‹_› .. | exact readPalette_within ‹_› .. | exact readStack_within ‹_› ..
        | exact within_pure _ | exact within_now | refine within_bind ?_ fun _ => ?_ | split | dsimp only

def refuseDark_foot : Foot := [.fld PAL_DARK_REFUSED_COUNT]
theorem refuseDark_within {F : Foot} (hF : refuseDark_foot ⊆ F) (g : Nat) : Within F (refuseDark g : Act s₀ Got) := by
  simp only [refuseDark_foot, List.cons_subset, List.nil_subset, and_true] at hF
  unfold refuseDark
  repeat' first
    | with_reducible
        first
        | intro _ | exact within_pure _ | exact within_countUp _ _ _ _ ‹_› | refine within_bind ?_ fun _ => ?_
        | split | dsimp only

def noteRemote_foot : Foot := tally_foot
theorem noteRemote_within {F : Foot} (hF : noteRemote_foot ⊆ F) (who : Who) (g : Nat) : Within F (noteRemote who g : Act s₀ Unit) := by
  simp only [noteRemote_foot] at hF
  unfold noteRemote
  repeat' first
    | with_reducible
        first
        | intro _ | exact tally_within ‹_› .. | exact within_pure _ | refine within_bind ?_ fun _ => ?_
        | refine within_ite ?_ ?_ | split | dsimp only

def settleFor_foot : Foot := settleBanks_foot
theorem settleFor_within {F : Foot} (hF : settleFor_foot ⊆ F) (who : Who) (t g : Nat) : Within F (settleFor who t g : Act s₀ Unit) := by
  simp only [settleFor_foot] at hF
  unfold settleFor
  repeat' first
    | with_reducible
        first
        | intro _ | exact settleBanks_within ‹_› .. | exact within_pure _ | refine within_bind ?_ fun _ => ?_ | split
        | dsimp only

def landGranule_foot : Foot := settleFor_foot ++ (commitPalette_foot ++ (commitStack_foot ++ refuseDark_foot))
theorem landGranule_within {F : Foot} (hF : landGranule_foot ⊆ F) (who : Who) (g : Nat) (v mask : Granule) (ac : Option Nat) : Within F (landGranule who g v mask ac : Act s₀ Got) := by
  simp only [landGranule_foot, List.append_subset] at hF
  obtain ⟨_, _, _, _⟩ := hF
  unfold landGranule
  repeat' first
    | with_reducible
        first
        | intro _ | exact settleFor_within ‹_› .. | exact commitPalette_within ‹_› ..
        | exact commitStack_within ‹_› .. | exact refuseDark_within ‹_› .. | exact within_pure _ | exact within_now
        | refine within_bind ?_ fun _ => ?_ | split | dsimp only

def writeGranule_foot : Foot := noteRemote_foot ++ landGranule_foot
theorem writeGranule_within {F : Foot} (hF : writeGranule_foot ⊆ F) (who : Who) (g : Nat) (v mask : Granule) (ac : Option Nat) : Within F (writeGranule who g v mask ac : Act s₀ Got) := by
  simp only [writeGranule_foot, List.append_subset] at hF
  obtain ⟨_, _⟩ := hF
  unfold writeGranule
  repeat' first
    | with_reducible
        first
        | intro _ | exact noteRemote_within ‹_› .. | exact landGranule_within ‹_› .. | exact within_pure _
        | refine within_bind ?_ fun _ => ?_ | split | dsimp only

def poisonPalette_foot : Foot := [.fld PAL_POISONED_COUNT, .mem]
theorem poisonPalette_within {F : Foot} (hF : poisonPalette_foot ⊆ F) (t g : Nat) : Within F (poisonPalette t g : Act s₀ Unit) := by
  simp only [poisonPalette_foot, List.cons_subset, List.nil_subset, and_true] at hF
  obtain ⟨_, _⟩ := hF
  unfold poisonPalette
  repeat' first
    | with_reducible
        first
        | intro _ | exact within_pure _ | exact within_now | exact within_countUp _ _ _ _ ‹_›
        | exact within_emit_poison ‹_› .. | refine within_bind ?_ fun _ => ?_ | refine within_ite ?_ ?_ | split
        | dsimp only

def writePoisoned_foot : Foot := settleFor_foot ++ (storeGranule_foot ++ (injectOn_foot ++ (poisonPalette_foot ++ (countCommit_foot ++ writeGranule_foot))))
theorem writePoisoned_within {F : Foot} (hF : writePoisoned_foot ⊆ F) (who : Who) (g : Nat) (v : Granule) (ac : Option Nat) : Within F (writePoisoned who g v ac : Act s₀ Got) := by
  simp only [writePoisoned_foot, List.append_subset] at hF
  obtain ⟨_, _, _, _, _, _⟩ := hF
  unfold writePoisoned
  repeat' first
    | with_reducible
        first
        | intro _ | exact settleFor_within ‹_› .. | exact storeGranule_within ‹_› .. | exact injectOn_within ‹_› ..
        | exact poisonPalette_within ‹_› .. | exact countCommit_within ‹_› .. | exact writeGranule_within ‹_› ..
        | exact within_pure _ | exact within_now | refine within_bind ?_ fun _ => ?_ | split | dsimp only

def admitTransfer_foot : Foot := changePal_foot ++ (refuseDark_foot ++ (tellSender_foot ++ releaseTag_foot))
theorem admitTransfer_within {F : Foot} (hF : admitTransfer_foot ⊆ F) (t : Nat) (x : Transfer) : Within F (admitTransfer t x : Act s₀ Unit) := by
  simp only [admitTransfer_foot, List.append_subset] at hF
  obtain ⟨_, _, _, _⟩ := hF
  unfold admitTransfer
  repeat' first
    | with_reducible
        first
        | intro _ | exact changePal_within ‹_› .. | exact refuseDark_within ‹_› .. | exact tellSender_within ‹_› ..
        | exact releaseTag_within ‹_› .. | exact within_pure _ | exact within_now | refine within_bind ?_ fun _ => ?_
        | split | dsimp only

def admitSet_foot : Foot := tellSender_foot ++ (releaseTag_foot ++ changePal_foot)
theorem admitSet_within {F : Foot} (hF : admitSet_foot ⊆ F) (w : PalWait) : Within F (admitSet w : Act s₀ Unit) := by
  simp only [admitSet_foot, List.append_subset] at hF
  obtain ⟨_, _, _⟩ := hF
  unfold admitSet
  repeat' first
    | with_reducible
        first
        | intro _ | exact tellSender_within ‹_› .. | exact releaseTag_within ‹_› .. | exact changePal_within ‹_› ..
        | exact within_pure _ | exact within_now | refine within_bind ?_ fun _ => ?_
        | refine within_each _ _ fun _ => ?_ | split | dsimp only

def takeIn_foot : Foot := admitTransfer_foot ++ admitSet_foot
theorem takeIn_within {F : Foot} (hF : takeIn_foot ⊆ F) : ∀ x0, Within F (takeIn x0 : Act s₀ Unit)
  | .write t x => by
    have hF0 := hF
    simp only [takeIn_foot, List.append_subset] at hF
    obtain ⟨_, _⟩ := hF
    unfold takeIn
    repeat' first
      | with_reducible
          first
          | exact takeIn_within hF0 _ | intro _ | exact admitTransfer_within ‹_› .. | exact admitSet_within ‹_› ..
          | exact within_pure _ | refine within_bind ?_ fun _ => ?_ | split | dsimp only
  | .read w => by
    have hF0 := hF
    simp only [takeIn_foot, List.append_subset] at hF
    obtain ⟨_, _⟩ := hF
    unfold takeIn
    repeat' first
      | with_reducible
          first
          | exact takeIn_within hF0 _ | intro _ | exact admitTransfer_within ‹_› .. | exact admitSet_within ‹_› ..
          | exact within_pure _ | refine within_bind ?_ fun _ => ?_ | split | dsimp only
  | .back _ _ => by
    have hF0 := hF
    simp only [takeIn_foot, List.append_subset] at hF
    obtain ⟨_, _⟩ := hF
    unfold takeIn
    repeat' first
      | with_reducible
          first
          | exact takeIn_within hF0 _ | intro _ | exact admitTransfer_within ‹_› .. | exact admitSet_within ‹_› ..
          | exact within_pure _ | refine within_bind ?_ fun _ => ?_ | split | dsimp only

def presentAccess_foot : Foot := takeIn_foot ++ (takeTag_foot ++ (countTagWait_foot ++ changeRings_foot))
theorem presentAccess_within {F : Foot} (hF : presentAccess_foot ⊆ F) (b : Banked) : Within F (presentAccess b : Act s₀ Unit) := by
  simp only [presentAccess_foot, List.append_subset] at hF
  obtain ⟨_, _, _, _⟩ := hF
  unfold presentAccess
  repeat' first
    | with_reducible
        first
        | intro _ | exact takeIn_within ‹_› .. | exact takeTag_within ‹_› .. | exact countTagWait_within ‹_› ..
        | exact changeRings_within ‹_› .. | exact within_pure _ | exact within_now
        | refine within_bind ?_ fun _ => ?_ | refine within_ite ?_ ?_ | split | dsimp only

def actGranuleAccept_foot : Foot := withSlot_foot ++ presentAccess_foot
theorem actGranuleAccept_within {F : Foot} (hF : actGranuleAccept_foot ⊆ F) (x : Transfer) : Within F (actGranuleAccept x : Act s₀ Unit) := by
  simp only [actGranuleAccept_foot, List.append_subset] at hF
  obtain ⟨_, _⟩ := hF
  unfold actGranuleAccept
  repeat' first
    | with_reducible
        first
        | intro _ | exact withSlot_within ‹_› .. | exact presentAccess_within ‹_› .. | exact within_pure _
        | refine within_bind ?_ fun _ => ?_ | split | dsimp only

end Sys2Proof.Machine
end

