-- ==== Sys2Proof/Laws/FootTensor.lean ====
section
/-! SUPPORT. The footprints of the actions of Tensor. -/

namespace Sys2Proof.Machine

variable {s₀ : State}

theorem raiseFlags_within {F : Foot} (f : Flags) : WithinW F (raiseFlags f : Work s₀ Unit) := by
  unfold raiseFlags
  repeat' first
    | with_reducible
        first
        | intro _ | exact within_pure _ | exact withinW_pure _ | exact withinW_get | exact withinW_set _
        | exact withinW_modify _ | exact withinW_modifyGet _ | refine within_bind ?_ fun _ => ?_
        | refine withinW_doing ?_ | refine withinW_bind ?_ fun _ => ?_ | refine withinW_forIn _ _ _ fun _ _ => ?_
        | refine withinW_map _ ?_ | split | dsimp only

theorem arises_within {F : Foot} (st : Status) (detail : Nat) : WithinW F (arises st detail : Work s₀ Unit) := by
  unfold arises
  repeat' first
    | with_reducible
        first
        | intro _ | exact within_pure _ | exact withinW_pure _ | exact withinW_get | exact withinW_set _
        | exact withinW_modify _ | exact withinW_modifyGet _ | refine within_bind ?_ fun _ => ?_
        | refine withinW_doing ?_ | refine withinW_bind ?_ fun _ => ?_ | refine withinW_forIn _ _ _ fun _ _ => ?_
        | refine withinW_map _ ?_ | split | dsimp only

def endStream_foot : Foot := countSet_foot
theorem endStream_within {F : Foot} (hF : endStream_foot ⊆ F) : WithinW F (endStream : Work s₀ Unit) := by
  simp only [endStream_foot] at hF
  unfold endStream
  repeat' first
    | with_reducible
        first
        | intro _ | exact countSet_within ‹_› .. | exact within_pure _ | exact withinW_pure _ | exact withinW_get
        | exact withinW_set _ | exact withinW_modify _ | exact withinW_modifyGet _
        | refine within_bind ?_ fun _ => ?_ | refine withinW_ite ?_ ?_ | refine within_forIn _ _ _ fun _ _ => ?_
        | refine withinW_doing ?_ | refine withinW_bind ?_ fun _ => ?_ | refine withinW_forIn _ _ _ fun _ _ => ?_
        | refine withinW_map _ ?_ | split | dsimp only

theorem request_within {F : Foot} (g : Nat) : WithinW F (request g : Work s₀ Unit) := by
  unfold request
  repeat' first
    | with_reducible
        first
        | intro _ | exact within_pure _ | exact withinW_pure _ | exact withinW_get | exact withinW_set _
        | exact withinW_modify _ | exact withinW_modifyGet _ | refine within_bind ?_ fun _ => ?_
        | refine withinW_ite ?_ ?_ | refine withinW_doing ?_ | refine withinW_bind ?_ fun _ => ?_
        | refine withinW_forIn _ _ _ fun _ _ => ?_ | refine withinW_map _ ?_ | split | dsimp only

theorem useTag_within {F : Foot} : WithinW F (useTag : Work s₀ Unit) := by
  unfold useTag
  repeat' first
    | with_reducible
        first
        | intro _ | exact within_pure _ | exact withinW_pure _ | exact withinW_get | exact withinW_set _
        | exact withinW_modify _ | exact withinW_modifyGet _ | refine within_bind ?_ fun _ => ?_
        | refine withinW_doing ?_ | refine withinW_bind ?_ fun _ => ?_ | refine withinW_forIn _ _ _ fun _ _ => ?_
        | refine withinW_map _ ?_ | split | dsimp only

def readFrom_foot : Foot := readGranule_foot
theorem readFrom_within {F : Foot} (hF : readFrom_foot ⊆ F) (g : Nat) : WithinW F (readFrom g : Work s₀ (Granule × Got)) := by
  simp only [readFrom_foot] at hF
  unfold readFrom
  repeat' first
    | with_reducible
        first
        | intro _ | exact useTag_within .. | exact readGranule_within ‹_› .. | exact within_pure _
        | exact withinW_pure _ | exact withinW_get | exact withinW_set _ | exact withinW_modify _
        | exact withinW_modifyGet _ | refine within_bind ?_ fun _ => ?_ | refine withinW_ite ?_ ?_
        | refine withinW_doing ?_ | refine withinW_bind ?_ fun _ => ?_ | refine withinW_forIn _ _ _ fun _ _ => ?_
        | refine withinW_map _ ?_ | split | dsimp only

def sendTo_foot : Foot := writeGranule_foot
theorem sendTo_within {F : Foot} (hF : sendTo_foot ⊆ F) (g : Nat) (v mask : Granule) (ac : Option Nat) : WithinW F (sendTo g v mask ac : Work s₀ Got) := by
  simp only [sendTo_foot] at hF
  unfold sendTo
  repeat' first
    | with_reducible
        first
        | intro _ | exact useTag_within .. | exact writeGranule_within ‹_› .. | exact within_pure _
        | exact withinW_pure _ | exact withinW_get | exact withinW_set _ | exact withinW_modify _
        | exact withinW_modifyGet _ | refine within_bind ?_ fun _ => ?_ | refine withinW_doing ?_
        | refine withinW_bind ?_ fun _ => ?_ | refine withinW_forIn _ _ _ fun _ _ => ?_ | refine withinW_map _ ?_
        | split | dsimp only

def load_foot : Foot := readFrom_foot
theorem load_within {F : Foot} (hF : load_foot ⊆ F) (g : Nat) : WithinW F (load g : Work s₀ Granule) := by
  simp only [load_foot] at hF
  unfold load
  repeat' first
    | with_reducible
        first
        | intro _ | exact readFrom_within ‹_› .. | exact arises_within .. | exact within_pure _
        | exact withinW_pure _ | exact withinW_get | exact withinW_set _ | exact withinW_modify _
        | exact withinW_modifyGet _ | refine within_bind ?_ fun _ => ?_ | refine withinW_ite ?_ ?_
        | refine withinW_doing ?_ | refine withinW_bind ?_ fun _ => ?_ | refine withinW_forIn _ _ _ fun _ _ => ?_
        | refine withinW_map _ ?_ | split | dsimp only

def fetch_foot : Foot := load_foot
theorem fetch_within {F : Foot} (hF : fetch_foot ⊆ F) (g : Nat) : WithinW F (fetch g : Work s₀ Granule) := by
  simp only [fetch_foot] at hF
  unfold fetch
  repeat' first
    | with_reducible
        first
        | intro _ | exact request_within .. | exact load_within ‹_› .. | exact within_pure _ | exact withinW_pure _
        | exact withinW_get | exact withinW_set _ | exact withinW_modify _ | exact withinW_modifyGet _
        | refine within_bind ?_ fun _ => ?_ | refine withinW_doing ?_ | refine withinW_bind ?_ fun _ => ?_
        | refine withinW_forIn _ _ _ fun _ _ => ?_ | refine withinW_map _ ?_ | split | dsimp only

def fetchSets_foot : Foot := load_foot ++ countSet_foot
theorem fetchSets_within {F : Foot} (hF : fetchSets_foot ⊆ F) : ∀ x0, WithinW F (fetchSets x0 : Work s₀ Unit)
  | [] => by
    have hF0 := hF
    simp only [fetchSets_foot, List.append_subset] at hF
    obtain ⟨_, _⟩ := hF
    unfold fetchSets
    repeat' first
      | with_reducible
          first
          | exact fetchSets_within hF0 _ | intro _ | exact load_within ‹_› .. | exact countSet_within ‹_› ..
          | exact within_pure _ | exact withinW_pure _ | exact withinW_get | exact withinW_set _
          | exact withinW_modify _ | exact withinW_modifyGet _ | refine within_bind ?_ fun _ => ?_
          | refine withinW_ite ?_ ?_ | refine within_forIn _ _ _ fun _ _ => ?_ | refine withinW_doing ?_
          | refine withinW_bind ?_ fun _ => ?_ | refine withinW_forIn _ _ _ fun _ _ => ?_ | refine withinW_map _ ?_
          | split | dsimp only
  | gs :: rest => by
    have hF0 := hF
    simp only [fetchSets_foot, List.append_subset] at hF
    obtain ⟨_, _⟩ := hF
    unfold fetchSets
    repeat' first
      | with_reducible
          first
          | exact fetchSets_within hF0 _ | intro _ | exact load_within ‹_› .. | exact countSet_within ‹_› ..
          | exact within_pure _ | exact withinW_pure _ | exact withinW_get | exact withinW_set _
          | exact withinW_modify _ | exact withinW_modifyGet _ | refine within_bind ?_ fun _ => ?_
          | refine withinW_ite ?_ ?_ | refine within_forIn _ _ _ fun _ _ => ?_ | refine withinW_doing ?_
          | refine withinW_bind ?_ fun _ => ?_ | refine withinW_forIn _ _ _ fun _ _ => ?_ | refine withinW_map _ ?_
          | split | dsimp only

def fetchWave_foot : Foot := endStream_foot ++ fetchSets_foot
theorem fetchWave_within {F : Foot} (hF : fetchWave_foot ⊆ F) (gs : List Nat) : WithinW F (fetchWave gs : Work s₀ Unit) := by
  simp only [fetchWave_foot, List.append_subset] at hF
  obtain ⟨_, _⟩ := hF
  unfold fetchWave
  repeat' first
    | with_reducible
        first
        | intro _ | exact endStream_within ‹_› .. | exact fetchSets_within ‹_› .. | exact within_pure _
        | exact withinW_pure _ | exact withinW_get | exact withinW_set _ | exact withinW_modify _
        | exact withinW_modifyGet _ | refine within_bind ?_ fun _ => ?_ | refine withinW_doing ?_
        | refine withinW_bind ?_ fun _ => ?_ | refine withinW_forIn _ _ _ fun _ _ => ?_ | refine withinW_map _ ?_
        | split | dsimp only

def readBits_foot : Foot := fetch_foot
theorem readBits_within {F : Foot} (hF : readBits_foot ⊆ F) (b n : Nat) : WithinW F (readBits b n : Work s₀ Nat) := by
  simp only [readBits_foot] at hF
  unfold readBits
  repeat' first
    | with_reducible
        first
        | intro _ | exact fetch_within ‹_› .. | exact within_pure _ | exact withinW_pure _ | exact withinW_get
        | exact withinW_set _ | exact withinW_modify _ | exact withinW_modifyGet _
        | refine within_bind ?_ fun _ => ?_ | refine withinW_doing ?_ | refine withinW_bind ?_ fun _ => ?_
        | refine withinW_forIn _ _ _ fun _ _ => ?_ | refine withinW_map _ ?_ | split | dsimp only

def rawAt_foot : Foot := readBits_foot
theorem rawAt_within {F : Foot} (hF : rawAt_foot ⊆ F) (t : Tensor) (q : Int) : WithinW F (rawAt t q : Work s₀ (Nat × Nat)) := by
  simp only [rawAt_foot] at hF
  unfold rawAt
  repeat' first
    | with_reducible
        first
        | intro _ | exact readBits_within ‹_› .. | exact within_pure _ | exact withinW_pure _ | exact withinW_get
        | exact withinW_set _ | exact withinW_modify _ | exact withinW_modifyGet _
        | refine within_bind ?_ fun _ => ?_ | refine withinW_doing ?_ | refine withinW_bind ?_ fun _ => ?_
        | refine withinW_forIn _ _ _ fun _ _ => ?_ | refine withinW_map _ ?_ | split | dsimp only

def getRaw_foot : Foot := rawAt_foot
theorem getRaw_within {F : Foot} (hF : getRaw_foot ⊆ F) (t : Tensor) (j : List Nat) : WithinW F (getRaw t j : Work s₀ (Nat × Nat)) := by
  simp only [getRaw_foot] at hF
  unfold getRaw
  repeat' first
    | with_reducible
        first
        | intro _ | exact rawAt_within ‹_› .. | exact within_pure _ | exact withinW_pure _ | exact withinW_get
        | exact withinW_set _ | exact withinW_modify _ | exact withinW_modifyGet _
        | refine within_bind ?_ fun _ => ?_ | refine withinW_ite ?_ ?_ | refine withinW_doing ?_
        | refine withinW_bind ?_ fun _ => ?_ | refine withinW_forIn _ _ _ fun _ _ => ?_ | refine withinW_map _ ?_
        | split | dsimp only

def getElt_foot : Foot := getRaw_foot
theorem getElt_within {F : Foot} (hF : getElt_foot ⊆ F) (t : Tensor) (j : List Nat) : WithinW F (getElt t j : Work s₀ Elt) := by
  simp only [getElt_foot] at hF
  unfold getElt
  repeat' first
    | with_reducible
        first
        | intro _ | exact getRaw_within ‹_› .. | exact within_pure _ | exact withinW_pure _ | exact withinW_get
        | exact withinW_set _ | exact withinW_modify _ | exact withinW_modifyGet _
        | refine within_bind ?_ fun _ => ?_ | refine withinW_doing ?_ | refine withinW_bind ?_ fun _ => ?_
        | refine withinW_forIn _ _ _ fun _ _ => ?_ | refine withinW_map _ ?_ | split | dsimp only

theorem writeBits_within {F : Foot} (b n v : Nat) : WithinW F (writeBits b n v : Work s₀ Unit) := by
  unfold writeBits
  repeat' first
    | with_reducible
        first
        | intro _ | exact within_pure _ | exact withinW_pure _ | exact withinW_get | exact withinW_set _
        | exact withinW_modify _ | exact withinW_modifyGet _ | refine within_bind ?_ fun _ => ?_
        | refine withinW_ite ?_ ?_ | refine withinW_doing ?_ | refine withinW_bind ?_ fun _ => ?_
        | refine withinW_forIn _ _ _ fun _ _ => ?_ | refine withinW_map _ ?_ | split | dsimp only

theorem putRaw_within {F : Foot} (t : Tensor) (j : List Nat) (c : Nat) : WithinW F (putRaw t j c : Work s₀ Unit) := by
  unfold putRaw
  repeat' first
    | with_reducible
        first
        | intro _ | exact writeBits_within .. | exact within_pure _ | exact withinW_pure _ | exact withinW_get
        | exact withinW_set _ | exact withinW_modify _ | exact withinW_modifyGet _
        | refine within_bind ?_ fun _ => ?_ | refine withinW_ite ?_ ?_ | refine withinW_doing ?_
        | refine withinW_bind ?_ fun _ => ?_ | refine withinW_forIn _ _ _ fun _ _ => ?_ | refine withinW_map _ ?_
        | split | dsimp only

theorem putElt_within {F : Foot} (t : Tensor) (j : List Nat) (rm : Rm) (sat : Bool) (x : Elt) : WithinW F (putElt t j rm sat x : Work s₀ Unit) := by
  unfold putElt
  repeat' first
    | with_reducible
        first
        | intro _ | exact raiseFlags_within .. | exact putRaw_within .. | exact within_pure _ | exact withinW_pure _
        | exact withinW_get | exact withinW_set _ | exact withinW_modify _ | exact withinW_modifyGet _
        | refine within_bind ?_ fun _ => ?_ | refine withinW_ite ?_ ?_ | refine withinW_doing ?_
        | refine withinW_bind ?_ fun _ => ?_ | refine withinW_forIn _ _ _ fun _ _ => ?_ | refine withinW_map _ ?_
        | split | dsimp only

theorem writeRun_within {F : Foot} (f : Nat → Bool) (b : Nat) : ∀ x0 x1, WithinW F (writeRun f b x0 x1 : Work s₀ Unit)
  | 0, _ => by
    unfold writeRun
    repeat' first
      | with_reducible
          first
          | exact writeRun_within _ _ _ _ | intro _ | exact writeBits_within .. | exact within_pure _
          | exact withinW_pure _ | exact withinW_get | exact withinW_set _ | exact withinW_modify _
          | exact withinW_modifyGet _ | refine within_bind ?_ fun _ => ?_ | refine withinW_ite ?_ ?_
          | refine withinW_doing ?_ | refine withinW_bind ?_ fun _ => ?_ | refine withinW_forIn _ _ _ fun _ _ => ?_
          | refine withinW_map _ ?_ | split | dsimp only
  | fuel + 1, n => by
    unfold writeRun
    repeat' first
      | with_reducible
          first
          | exact writeRun_within _ _ _ _ | intro _ | exact writeBits_within .. | exact within_pure _
          | exact withinW_pure _ | exact withinW_get | exact withinW_set _ | exact withinW_modify _
          | exact withinW_modifyGet _ | refine within_bind ?_ fun _ => ?_ | refine withinW_ite ?_ ?_
          | refine withinW_doing ?_ | refine withinW_bind ?_ fun _ => ?_ | refine withinW_forIn _ _ _ fun _ _ => ?_
          | refine withinW_map _ ?_ | split | dsimp only

theorem padGroup_within {F : Foot} (t : Tensor) (blk : Int) : WithinW F (padGroup t blk : Work s₀ Unit) := by
  unfold padGroup
  repeat' first
    | with_reducible
        first
        | intro _ | exact writeRun_within .. | exact within_pure _ | exact withinW_pure _ | exact withinW_get
        | exact withinW_set _ | exact withinW_modify _ | exact withinW_modifyGet _
        | refine within_bind ?_ fun _ => ?_ | refine withinW_ite ?_ ?_ | refine withinW_doing ?_
        | refine withinW_bind ?_ fun _ => ?_ | refine withinW_forIn _ _ _ fun _ _ => ?_ | refine withinW_map _ ?_
        | split | dsimp only

theorem putBlock_within {F : Foot} (t : Tensor) (blk : Int) (vs : Visit) : WithinW F (putBlock t blk vs : Work s₀ Unit) := by
  unfold putBlock
  repeat' first
    | with_reducible
        first
        | intro _ | exact raiseFlags_within .. | exact writeBits_within .. | exact padGroup_within ..
        | exact within_pure _ | exact withinW_pure _ | exact withinW_get | exact withinW_set _
        | exact withinW_modify _ | exact withinW_modifyGet _ | refine within_bind ?_ fun _ => ?_
        | refine within_forIn _ _ _ fun _ _ => ?_ | refine withinW_doing ?_ | refine withinW_bind ?_ fun _ => ?_
        | refine withinW_forIn _ _ _ fun _ _ => ?_ | refine withinW_map _ ?_ | split | dsimp only

theorem putAll_within {F : Foot} (t : Tensor) (sat : Bool) (es : List (List Nat × Elt × Rm)) : WithinW F (putAll t sat es : Work s₀ Unit) := by
  unfold putAll
  repeat' first
    | with_reducible
        first
        | intro _ | exact putBlock_within .. | exact putElt_within .. | exact within_pure _ | exact withinW_pure _
        | exact withinW_get | exact withinW_set _ | exact withinW_modify _ | exact withinW_modifyGet _
        | refine within_bind ?_ fun _ => ?_ | refine withinW_ite ?_ ?_ | refine within_forIn _ _ _ fun _ _ => ?_
        | refine withinW_doing ?_ | refine withinW_bind ?_ fun _ => ?_ | refine withinW_forIn _ _ _ fun _ _ => ?_
        | refine withinW_map _ ?_ | split | dsimp only

def commitSet_foot : Foot := sendTo_foot ++ countSet_foot
theorem commitSet_within {F : Foot} (hF : commitSet_foot ⊆ F) (ac : Option Nat) (rs : List Req) : WithinW F (commitSet ac rs : Work s₀ Unit) := by
  simp only [commitSet_foot, List.append_subset] at hF
  obtain ⟨_, _⟩ := hF
  unfold commitSet
  repeat' first
    | with_reducible
        first
        | intro _ | exact sendTo_within ‹_› .. | exact arises_within .. | exact countSet_within ‹_› ..
        | exact within_pure _ | exact withinW_pure _ | exact withinW_get | exact withinW_set _
        | exact withinW_modify _ | exact withinW_modifyGet _ | refine within_bind ?_ fun _ => ?_
        | refine withinW_ite ?_ ?_ | refine within_forIn _ _ _ fun _ _ => ?_ | refine withinW_doing ?_
        | refine withinW_bind ?_ fun _ => ?_ | refine withinW_forIn _ _ _ fun _ _ => ?_ | refine withinW_map _ ?_
        | split | dsimp only

def commitStaged_foot : Foot := commitSet_foot
theorem commitStaged_within {F : Foot} (hF : commitStaged_foot ⊆ F) (ac : Option Nat) : WithinW F (commitStaged ac : Work s₀ Unit) := by
  simp only [commitStaged_foot] at hF
  unfold commitStaged
  repeat' first
    | with_reducible
        first
        | intro _ | exact commitSet_within ‹_› .. | exact within_pure _ | exact withinW_pure _ | exact withinW_get
        | exact withinW_set _ | exact withinW_modify _ | exact withinW_modifyGet _
        | refine within_bind ?_ fun _ => ?_ | refine within_forIn _ _ _ fun _ _ => ?_ | refine withinW_doing ?_
        | refine withinW_bind ?_ fun _ => ?_ | refine withinW_forIn _ _ _ fun _ _ => ?_ | refine withinW_map _ ?_
        | split | dsimp only

def readWhole_foot : Foot := readFrom_foot
theorem readWhole_within {F : Foot} (hF : readWhole_foot ⊆ F) (a n : Nat) : WithinW F (readWhole a n : Work s₀ (Option Nat)) := by
  simp only [readWhole_foot] at hF
  unfold readWhole
  repeat' first
    | with_reducible
        first
        | intro _ | exact arises_within .. | exact readFrom_within ‹_› .. | exact within_pure _ | exact within_now
        | exact withinW_pure _ | exact withinW_get | exact withinW_set _ | exact withinW_modify _
        | exact withinW_modifyGet _ | refine within_bind ?_ fun _ => ?_ | refine withinW_ite ?_ ?_
        | refine within_forIn _ _ _ fun _ _ => ?_ | refine withinW_doing ?_ | refine withinW_bind ?_ fun _ => ?_
        | refine withinW_forIn _ _ _ fun _ _ => ?_ | refine withinW_map _ ?_ | split | dsimp only

end Sys2Proof.Machine
end

