-- ==== Sys2Proof/Laws/FootSlots.lean ====
section
/-! SUPPORT. The footprints of the actions of Slots. -/

namespace Sys2Proof.Machine

variable {s₀ : State}

def dropSlot_foot : Foot := changeRings_foot
theorem dropSlot_within {F : Foot} (hF : dropSlot_foot ⊆ F) (id : Nat) : Within F (dropSlot id : Act s₀ Unit) := by
  simp only [dropSlot_foot] at hF
  unfold dropSlot
  repeat' first
    | with_reducible
        first
        | intro _ | exact changeRings_within ‹_› .. | exact within_pure _ | refine within_bind ?_ fun _ => ?_ | split
        | dsimp only

def countOob_foot : Foot := [.fld SEQ_OOB_WRITE_COUNT_COUNT, .fld SEQ_OOB_READ_COUNT_COUNT, .fld VAR_OOB_WRITE_COUNT_COUNT, .fld VAR_OOB_READ_COUNT_COUNT, .fld COLL_OOB_WRITE_COUNT_COUNT, .fld COLL_OOB_READ_COUNT_COUNT]
theorem countOob_within {F : Foot} (hF : countOob_foot ⊆ F) (e : Engine) (writes reads : Nat) : Within F (countOob e writes reads : Act s₀ Unit) := by
  simp only [countOob_foot, List.cons_subset, List.nil_subset, and_true] at hF
  obtain ⟨_, _, _, _, _, _⟩ := hF
  unfold countOob
  repeat' first
    | with_reducible
        first
        | intro _ | exact within_pure _ | exact within_countUp _ _ _ _ ‹_› | refine within_bind ?_ fun _ => ?_
        | split | dsimp only

def stickyFlags_foot : Foot := [.fld MX_FLAGS_FLAGS, .fld VE_FLAGS_FLAGS, .fld SFU_FLAGS_FLAGS, .fld VAR_FLAGS_FLAGS]
theorem stickyFlags_within {F : Foot} (hF : stickyFlags_foot ⊆ F) (d : Slot) (e : Engine) (fl : Flags) : Within F (stickyFlags d e fl : Act s₀ Unit) := by
  simp only [stickyFlags_foot, List.cons_subset, List.nil_subset, and_true] at hF
  obtain ⟨_, _, _, _⟩ := hF
  unfold stickyFlags
  repeat' first
    | with_reducible
        first
        | intro _ | exact within_pure _ | exact within_fld _ _ _ | exact within_setF _ _ _ _ ‹_›
        | refine within_bind ?_ fun _ => ?_ | refine within_ite ?_ ?_ | split | dsimp only

def recallLoan_foot : Foot := [.part .pmc]
theorem recallLoan_within {F : Foot} (hF : recallLoan_foot ⊆ F) (t : Nat) : Within F (recallLoan t : Act s₀ Unit) := by
  simp only [recallLoan_foot, List.cons_subset, List.nil_subset, and_true] at hF
  unfold recallLoan
  repeat' first
    | with_reducible
        first
        | intro _ | exact within_pure _ | refine within_bind ?_ fun _ => ?_ | refine within_ite ?_ ?_ | split
        | dsimp only
    | exact within_change _ fun u p => by cases p <;> first | exact .inl rfl | exact .inr ‹_› | (refine .inl ?_; simp only [Part.same]; repeat' split) <;> rfl

def lendLc3_foot : Foot := [.part .pmc]
theorem lendLc3_within {F : Foot} (hF : lendLc3_foot ⊆ F) (t : Nat) : Within F (lendLc3 t : Act s₀ Unit) := by
  simp only [lendLc3_foot, List.cons_subset, List.nil_subset, and_true] at hF
  unfold lendLc3
  repeat' first
    | with_reducible
        first
        | intro _ | exact within_pure _ | exact within_now | refine within_bind ?_ fun _ => ?_
        | refine within_ite ?_ ?_ | split | dsimp only
    | exact within_change _ fun u p => by cases p <;> first | exact .inl rfl | exact .inr ‹_› | (refine .inl ?_; simp only [Part.same]; repeat' split) <;> rfl

def armStamp_foot : Foot := recallLoan_foot ++ withSlot_foot
theorem armStamp_within {F : Foot} (hF : armStamp_foot ⊆ F) (id : Nat) : Within F (armStamp id : Act s₀ Unit) := by
  simp only [armStamp_foot, List.append_subset] at hF
  obtain ⟨_, _⟩ := hF
  unfold armStamp
  repeat' first
    | with_reducible
        first
        | intro _ | exact recallLoan_within ‹_› .. | exact withSlot_within ‹_› .. | exact within_pure _
        | exact within_now | refine within_bind ?_ fun _ => ?_ | refine within_ite ?_ ?_ | split | dsimp only

def armStamps_foot : Foot := armStamp_foot ++ (recallLoan_foot ++ lendLc3_foot)
theorem armStamps_within {F : Foot} (hF : armStamps_foot ⊆ F) (target : Nat) : Within F (armStamps target : Act s₀ Unit) := by
  simp only [armStamps_foot, List.append_subset] at hF
  obtain ⟨_, _, _⟩ := hF
  unfold armStamps
  repeat' first
    | with_reducible
        first
        | intro _ | exact armStamp_within ‹_› .. | exact recallLoan_within ‹_› .. | exact lendLc3_within ‹_› ..
        | exact within_pure _ | exact within_now | refine within_bind ?_ fun _ => ?_ | refine within_ite ?_ ?_
        | refine within_each _ _ fun _ => ?_ | split | dsimp only

def settleLoans_foot : Foot := armStamps_foot
theorem settleLoans_within {F : Foot} (hF : settleLoans_foot ⊆ F) : Within F (settleLoans : Act s₀ Unit) := by
  simp only [settleLoans_foot] at hF
  unfold settleLoans
  repeat' first
    | with_reducible
        first
        | intro _ | exact armStamps_within ‹_› .. | exact within_pure _ | exact within_now
        | refine within_bind ?_ fun _ => ?_ | refine within_each _ _ fun _ => ?_ | split | dsimp only

def rearm_foot : Foot := armStamps_foot
theorem rearm_within {F : Foot} (hF : rearm_foot ⊆ F) : Within F (rearm : Act s₀ Unit) := by
  simp only [rearm_foot] at hF
  unfold rearm
  repeat' first
    | with_reducible
        first
        | intro _ | exact armStamps_within ‹_› .. | exact within_pure _ | refine within_bind ?_ fun _ => ?_
        | refine within_each _ _ fun _ => ?_ | split | dsimp only

def settleStamps_foot : Foot := changeRings_foot
theorem settleStamps_within {F : Foot} (hF : settleStamps_foot ⊆ F) : Within F (settleStamps : Act s₀ Unit) := by
  simp only [settleStamps_foot] at hF
  unfold settleStamps
  repeat' first
    | with_reducible
        first
        | intro _ | exact changeRings_within ‹_› .. | exact within_pure _ | exact within_now
        | refine within_bind ?_ fun _ => ?_ | refine within_ite ?_ ?_ | split | dsimp only

def launch_foot : Foot := [.fld SEQ_LATE_COUNT_COUNT, .part .plant] ++ (withSlot_foot ++ (tally_foot ++ armStamps_foot))
theorem launch_within {F : Foot} (hF : launch_foot ⊆ F) (id : Nat) : Within F (launch id : Act s₀ Unit) := by
  simp only [launch_foot, List.append_subset, List.cons_subset, List.nil_subset, and_true, and_assoc] at hF
  obtain ⟨_, _, _, _, _⟩ := hF
  unfold launch
  repeat' first
    | with_reducible
        first
        | intro _ | exact withSlot_within ‹_› .. | exact tally_within ‹_› .. | exact armStamps_within ‹_› ..
        | exact within_pure _ | exact within_now | exact within_countUp _ _ _ _ ‹_›
        | refine within_bind ?_ fun _ => ?_ | refine within_ite ?_ ?_ | split | dsimp only
    | exact within_change _ fun u p => by cases p <;> first | exact .inl rfl | exact .inr ‹_› | (refine .inl ?_; simp only [Part.same]; repeat' split) <;> rfl

def absorb_foot : Foot := countOob_foot ++ (tally_foot ++ (stickyFlags_foot ++ (notePeak_foot ++ withSlot_foot)))
theorem absorb_within {F : Foot} (hF : absorb_foot ⊆ F) (d : Slot) (e : Engine) (io : Io) : Within F (absorb d e io : Act s₀ Unit) := by
  simp only [absorb_foot, List.append_subset] at hF
  obtain ⟨_, _, _, _, _⟩ := hF
  unfold absorb
  repeat' first
    | with_reducible
        first
        | intro _ | exact countOob_within ‹_› .. | exact tally_within ‹_› .. | exact stickyFlags_within ‹_› ..
        | exact notePeak_within ‹_› .. | exact withSlot_within ‹_› .. | exact within_pure _ | exact within_now
        | refine within_bind ?_ fun _ => ?_ | refine within_ite ?_ ?_ | split | dsimp only

def runFor_foot : Foot := endStream_foot ++ absorb_foot
theorem runFor_within {F : Foot} {α : Type} (h : runFor_foot ⊆ F) (d : Slot) (e : Engine) {w : Work s₀ α} (hw : WithinW F w) :
    Within F (runFor d e w : Act s₀ α) := by
  simp only [runFor_foot, List.append_subset] at h
  obtain ⟨h, h'⟩ := h
  unfold runFor
  refine within_bind (within_runWork (withinW_bind hw fun _ => withinW_bind (endStream_within h) fun _ => withinW_pure _) _) fun _ => ?_
  exact within_bind (absorb_within h' _ _ _) fun _ => within_pure _

def finish_foot : Foot := withSlot_foot
theorem finish_within {F : Foot} (hF : finish_foot ⊆ F) (id : Nat) : Within F (finish id : Act s₀ Unit) := by
  simp only [finish_foot] at hF
  unfold finish
  repeat' first
    | with_reducible
        first
        | intro _ | exact withSlot_within ‹_› .. | exact within_pure _ | refine within_bind ?_ fun _ => ?_ | split
        | dsimp only

def tagged_foot : Foot := countTagWait_foot ++ withSlot_foot
theorem tagged_within {F : Foot} (hF : tagged_foot ⊆ F) (d : Slot) {a : Act s₀ Unit} (ha : Within F a) : Within F (tagged d a : Act s₀ Unit) := by
  simp only [tagged_foot, List.append_subset] at hF
  obtain ⟨_, _⟩ := hF
  unfold tagged
  repeat' first
    | with_reducible
        first
        | intro _ | exact countTagWait_within ‹_› .. | exact withSlot_within ‹_› .. | exact within_pure _
        | exact within_now | refine within_bind ?_ fun _ => ?_ | refine within_ite ?_ ?_ | split | dsimp only
    | exact ha

def wholeRun_foot : Foot := tagged_foot ++ (runFor_foot ++ finish_foot)
theorem wholeRun_within {F : Foot} (h : wholeRun_foot ⊆ F) (e : Engine) (ops : List Nat) {w : Slot → Work s₀ Unit}
    (hw : ∀ d, WithinW F (w d)) : Within F (wholeRun e ops w : Act s₀ Unit) := by
  simp only [wholeRun_foot, List.append_subset] at h
  obtain ⟨_, _, _⟩ := h
  unfold wholeRun
  repeat' first
    | with_reducible
        first
        | intro _ | exact within_pure _ | exact within_now | exact finish_within ‹_› .. | refine tagged_within ‹_› _ ?_
        | refine runFor_within ‹_› _ _ ?_ | exact hw _ | refine within_bind ?_ fun _ => ?_ | split | dsimp only

def markDirty_foot : Foot := changeRings_foot
theorem markDirty_within {F : Foot} (hF : markDirty_foot ⊆ F) (g : Nat) : Within F (markDirty g : Act s₀ Unit) := by
  simp only [markDirty_foot] at hF
  unfold markDirty
  repeat' first
    | with_reducible
        first
        | intro _ | exact changeRings_within ‹_› .. | exact within_pure _ | refine within_bind ?_ fun _ => ?_ | split
        | dsimp only

def setRingState_foot : Foot := [.fld RING_STATE_STATE] ++ markDirty_foot
theorem setRingState_within {F : Foot} (hF : setRingState_foot ⊆ F) (r v : Nat) : Within F (setRingState r v : Act s₀ Unit) := by
  simp only [setRingState_foot, List.append_subset, List.cons_subset, List.nil_subset, and_true] at hF
  obtain ⟨_, _⟩ := hF
  unfold setRingState
  repeat' first
    | with_reducible
        first
        | intro _ | exact markDirty_within ‹_› .. | exact within_pure _ | exact within_setF _ _ _ _ ‹_›
        | refine within_bind ?_ fun _ => ?_ | split | dsimp only

def settleStopping_foot : Foot := setRingState_foot
theorem settleStopping_within {F : Foot} (hF : settleStopping_foot ⊆ F) (r : Nat) : Within F (settleStopping r : Act s₀ Unit) := by
  simp only [settleStopping_foot] at hF
  unfold settleStopping
  repeat' first
    | with_reducible
        first
        | intro _ | exact setRingState_within ‹_› .. | exact within_pure _ | exact within_now
        | refine within_bind ?_ fun _ => ?_ | refine within_ite ?_ ?_ | split | dsimp only

def countAsked_foot : Foot := changeRings_foot
theorem countAsked_within {F : Foot} (hF : countAsked_foot ⊆ F) (p : Nat) (f : Nat → Nat) : Within F (countAsked p f : Act s₀ Unit) := by
  simp only [countAsked_foot] at hF
  unfold countAsked
  repeat' first
    | with_reducible
        first
        | intro _ | exact changeRings_within ‹_› .. | exact within_pure _ | refine within_bind ?_ fun _ => ?_ | split
        | dsimp only

def sendAsk_foot : Foot := countAsked_foot ++ send_foot
theorem sendAsk_within {F : Foot} (hF : sendAsk_foot ⊆ F) (o : Out) : Within F (sendAsk o : Act s₀ Unit) := by
  simp only [sendAsk_foot, List.append_subset] at hF
  obtain ⟨_, _⟩ := hF
  unfold sendAsk
  repeat' first
    | with_reducible
        first
        | intro _ | exact countAsked_within ‹_› .. | exact send_within ‹_› .. | exact within_pure _
        | refine within_bind ?_ fun _ => ?_ | split | dsimp only

def answered_foot : Foot := freeTag_foot ++ countAsked_foot
theorem answered_within {F : Foot} (hF : answered_foot ⊆ F) (owner : Option Nat) (p : Nat) : Within F (answered owner p : Act s₀ Unit) := by
  simp only [answered_foot, List.append_subset] at hF
  obtain ⟨_, _⟩ := hF
  unfold answered
  repeat' first
    | with_reducible
        first
        | intro _ | exact freeTag_within ‹_› .. | exact countAsked_within ‹_› .. | exact within_pure _
        | refine within_bind ?_ fun _ => ?_ | split | dsimp only

def readFence_foot : Foot := takeTag_foot ++ (withSlot_foot ++ (sendAsk_foot ++ (countTagWait_foot ++ changeRings_foot)))
theorem readFence_within {F : Foot} (hF : readFence_foot ⊆ F) (d : Slot) : Within F (readFence d : Act s₀ Unit) := by
  simp only [readFence_foot, List.append_subset] at hF
  obtain ⟨_, _, _, _, _⟩ := hF
  unfold readFence
  repeat' first
    | with_reducible
        first
        | intro _ | exact takeTag_within ‹_› .. | exact withSlot_within ‹_› .. | exact sendAsk_within ‹_› ..
        | exact countTagWait_within ‹_› .. | exact changeRings_within ‹_› .. | exact within_pure _ | exact within_now
        | refine within_bind ?_ fun _ => ?_ | refine within_ite ?_ ?_ | split | dsimp only

def settleFences_foot : Foot := readFence_foot
theorem settleFences_within {F : Foot} (hF : settleFences_foot ⊆ F) : Within F (settleFences : Act s₀ Unit) := by
  simp only [settleFences_foot] at hF
  unfold settleFences
  repeat' first
    | with_reducible
        first
        | intro _ | exact readFence_within ‹_› .. | exact within_pure _ | exact within_now
        | refine within_bind ?_ fun _ => ?_ | refine within_each _ _ fun _ => ?_ | split | dsimp only

def retire_foot : Foot := [.fld RING_RETIRED_RETIRED] ++ (changeRings_foot ++ (markDirty_foot ++ (settleWaits_foot ++ settleFences_foot)))
theorem retire_within {F : Foot} (hF : retire_foot ⊆ F) (r pos : Nat) : Within F (retire r pos : Act s₀ Unit) := by
  simp only [retire_foot, List.append_subset, List.cons_subset, List.nil_subset, and_true] at hF
  obtain ⟨_, _, _, _, _⟩ := hF
  unfold retire
  repeat' first
    | with_reducible
        first
        | intro _ | exact changeRings_within ‹_› .. | exact markDirty_within ‹_› .. | exact settleWaits_within ‹_› ..
        | exact settleFences_within ‹_› .. | exact within_pure _ | exact within_now | exact within_setF _ _ _ _ ‹_›
        | refine within_bind ?_ fun _ => ?_ | refine within_ite ?_ ?_ | split | dsimp only

def completeSlot_foot : Foot := tally_foot ++ (withSlot_foot ++ (queueRecord_foot ++ (dropSlot_foot ++ (retire_foot ++ (armStamps_foot ++ (settleStopping_foot ++ settleFences_foot))))))
theorem completeSlot_within {F : Foot} (hF : completeSlot_foot ⊆ F) (id : Nat) : Within F (completeSlot id : Act s₀ Unit) := by
  simp only [completeSlot_foot, List.append_subset] at hF
  obtain ⟨_, _, _, _, _, _, _, _⟩ := hF
  unfold completeSlot
  repeat' first
    | with_reducible
        first
        | intro _ | exact tally_within ‹_› .. | exact withSlot_within ‹_› .. | exact queueRecord_within ‹_› ..
        | exact dropSlot_within ‹_› .. | exact retire_within ‹_› .. | exact armStamps_within ‹_› ..
        | exact settleStopping_within ‹_› .. | exact settleFences_within ‹_› .. | exact within_pure _
        | exact within_now | refine within_bind ?_ fun _ => ?_ | refine within_ite ?_ ?_ | split | dsimp only

def completeWith_foot : Foot := withSlot_foot ++ completeSlot_foot
theorem completeWith_within {F : Foot} (hF : completeWith_foot ⊆ F) (id : Nat) (arose : Arose) : Within F (completeWith id arose : Act s₀ Unit) := by
  simp only [completeWith_foot, List.append_subset] at hF
  obtain ⟨_, _⟩ := hF
  unfold completeWith
  repeat' first
    | with_reducible
        first
        | intro _ | exact withSlot_within ‹_› .. | exact completeSlot_within ‹_› .. | exact within_pure _
        | refine within_bind ?_ fun _ => ?_ | split | dsimp only

end Sys2Proof.Machine
end

