-- ==== Sys2Proof/Laws/FootCurrent.lean ====
section
/-! SUPPORT. The footprints of the actions of Current. -/

namespace Sys2Proof.Machine

variable {s₀ : State}

def changePlant_foot : Foot := [.part .plant]
theorem changePlant_within {F : Foot} (hF : changePlant_foot ⊆ F) (f : PlantUnit → PlantUnit) : Within F (changePlant f : Act s₀ Unit) := by
  simp only [changePlant_foot, List.cons_subset, List.nil_subset, and_true] at hF
  unfold changePlant
  repeat' first
    | with_reducible
        first
        | intro _ | exact within_pure _ | refine within_bind ?_ fun _ => ?_ | split | dsimp only
    | exact within_change _ fun u p => by cases p <;> first | exact .inl rfl | exact .inr ‹_› | (refine .inl ?_; simp only [Part.same]; repeat' split) <;> rfl

def advancing_foot : Foot := tagged_foot
theorem advancing_within {F : Foot} (hF : advancing_foot ⊆ F) (t : Nat) (e : Engine) {a : Act s₀ Unit} (ha : Within F a) : Within F (advancing t e a : Act s₀ Unit) := by
  simp only [advancing_foot] at hF
  unfold advancing
  repeat' first
    | with_reducible
        first
        | intro _ | exact within_pure _ | exact within_now | refine within_bind ?_ fun _ => ?_
        | refine within_ite ?_ ?_ | refine tagged_within ‹_› _ ?_ | exact withinW_pure _ | exact withinW_get
        | refine withinW_doing ?_ | refine withinW_bind ?_ fun _ => ?_ | refine withinW_map _ ?_
        | refine withinP_run ?_ | exact withinP_pure _ | refine withinP_lift ?_ | refine withinP_bind ?_ fun _ => ?_
        | split | dsimp only
    | exact ha

def fitTiles_foot : Foot := changePlant_foot
theorem fitTiles_within {F : Foot} (hF : fitTiles_foot ⊆ F) (r : Nat) (ts : List Nat) : Within F (fitTiles r ts : Act s₀ Unit) := by
  simp only [fitTiles_foot] at hF
  unfold fitTiles
  repeat' first
    | with_reducible
        first
        | intro _ | exact changePlant_within ‹_› .. | exact within_pure _ | exact within_now
        | refine within_bind ?_ fun _ => ?_ | refine within_ite ?_ ?_ | split | dsimp only

def fitEngine_foot : Foot := fitTiles_foot
theorem fitEngine_within {F : Foot} (hF : fitEngine_foot ⊆ F) (e : Engine) : Within F (fitEngine e : Act s₀ Unit) := by
  simp only [fitEngine_foot] at hF
  unfold fitEngine
  repeat' first
    | with_reducible
        first
        | intro _ | exact fitTiles_within ‹_› .. | exact within_pure _ | refine within_bind ?_ fun _ => ?_ | split
        | dsimp only

end Sys2Proof.Machine
end

