-- ==== Sys2Proof/Laws/FootRings.lean ====
section
/-! SUPPORT. The footprints of the actions of Rings. -/

namespace Sys2Proof.Machine

variable {s₀ : State}

def withTag_foot : Foot := takeTag_foot ++ (sendAsk_foot ++ (countTagWait_foot ++ changeRings_foot))
theorem withTag_within {F : Foot} (hF : withTag_foot ⊆ F) (owner : Option Nat) (what : List Out) : Within F (withTag owner what : Act s₀ Unit) := by
  simp only [withTag_foot, List.append_subset] at hF
  obtain ⟨_, _, _, _⟩ := hF
  unfold withTag
  repeat' first
    | with_reducible
        first
        | intro _ | exact takeTag_within ‹_› .. | exact sendAsk_within ‹_› .. | exact countTagWait_within ‹_› ..
        | exact changeRings_within ‹_› .. | exact within_pure _ | exact within_now
        | refine within_bind ?_ fun _ => ?_ | refine within_ite ?_ ?_ | refine within_each _ _ fun _ => ?_ | split
        | dsimp only

def eventRecord_foot : Foot := queueRecord_foot
theorem eventRecord_within {F : Foot} (hF : eventRecord_foot ⊆ F) (kind ring : Nat) (pos start opcode : Option Nat) (detail : Nat) (target : Nat) : Within F (eventRecord kind ring pos start opcode detail target : Act s₀ Unit) := by
  simp only [eventRecord_foot] at hF
  unfold eventRecord
  repeat' first
    | with_reducible
        first
        | intro _ | exact queueRecord_within ‹_› .. | exact within_pure _ | exact within_ask _
        | exact within_freeIndex | refine within_bind ?_ fun _ => ?_ | split | dsimp only

def writeMirror_foot : Foot := send_foot ++ (changeRings_foot ++ settleFences_foot)
theorem writeMirror_within {F : Foot} (hF : writeMirror_foot ⊆ F) (g : Nat) : Within F (writeMirror g : Act s₀ Unit) := by
  simp only [writeMirror_foot, List.append_subset] at hF
  obtain ⟨_, _, _⟩ := hF
  unfold writeMirror
  repeat' first
    | with_reducible
        first
        | intro _ | exact send_within ‹_› .. | exact changeRings_within ‹_› .. | exact settleFences_within ‹_› ..
        | exact within_pure _ | exact within_now | refine within_bind ?_ fun _ => ?_ | refine within_ite ?_ ?_
        | split | dsimp only

def settleSweep_foot : Foot := changeRings_foot ++ writeMirror_foot
theorem settleSweep_within {F : Foot} (hF : settleSweep_foot ⊆ F) : Within F (settleSweep : Act s₀ Unit) := by
  simp only [settleSweep_foot, List.append_subset] at hF
  obtain ⟨_, _⟩ := hF
  unfold settleSweep
  repeat' first
    | with_reducible
        first
        | intro _ | exact changeRings_within ‹_› .. | exact writeMirror_within ‹_› .. | exact within_pure _
        | exact within_now | refine within_bind ?_ fun _ => ?_ | refine within_ite ?_ ?_
        | refine within_each _ _ fun _ => ?_ | split | dsimp only

def startSweep_foot : Foot := changeRings_foot ++ (uncore_foot ++ (withTag_foot ++ settleSweep_foot))
theorem startSweep_within {F : Foot} (hF : startSweep_foot ⊆ F) : Within F (startSweep : Act s₀ Unit) := by
  simp only [startSweep_foot, List.append_subset] at hF
  obtain ⟨_, _, _, _⟩ := hF
  unfold startSweep
  repeat' first
    | with_reducible
        first
        | intro _ | exact changeRings_within ‹_› .. | exact uncore_within ‹_› .. | exact withTag_within ‹_› ..
        | exact settleSweep_within ‹_› .. | exact within_pure _ | exact within_now
        | refine within_bind ?_ fun _ => ?_ | refine within_each _ _ fun _ => ?_ | split | dsimp only

def actPollSweep_foot : Foot := [.fld RING_POLL_STATUS_OVERRUN] ++ (changeRings_foot ++ startSweep_foot)
theorem actPollSweep_within {F : Foot} (hF : actPollSweep_foot ⊆ F) : Within F (actPollSweep : Act s₀ Unit) := by
  simp only [actPollSweep_foot, List.append_subset, List.cons_subset, List.nil_subset, and_true] at hF
  obtain ⟨_, _, _⟩ := hF
  unfold actPollSweep
  repeat' first
    | with_reducible
        first
        | intro _ | exact changeRings_within ‹_› .. | exact startSweep_within ‹_› .. | exact within_pure _
        | exact within_now | exact within_countUp _ _ _ _ ‹_› | refine within_bind ?_ fun _ => ?_
        | refine within_ite ?_ ?_ | split | dsimp only

def sweepOn_foot : Foot := settleSweep_foot ++ startSweep_foot
theorem sweepOn_within {F : Foot} (hF : sweepOn_foot ⊆ F) : Within F (sweepOn : Act s₀ Unit) := by
  simp only [sweepOn_foot, List.append_subset] at hF
  obtain ⟨_, _⟩ := hF
  unfold sweepOn
  repeat' first
    | with_reducible
        first
        | intro _ | exact settleSweep_within ‹_› .. | exact startSweep_within ‹_› .. | exact within_pure _
        | exact within_now | refine within_bind ?_ fun _ => ?_ | refine within_ite ?_ ?_ | split | dsimp only

def doorbellError_foot : Foot := [.fld GRP_STATUS_DB_READ_ERR, .fld GRP_DB_ACTIVE] ++ eventRecord_foot
theorem doorbellError_within {F : Foot} (hF : doorbellError_foot ⊆ F) (g : Nat) : Within F (doorbellError g : Act s₀ Unit) := by
  simp only [doorbellError_foot, List.append_subset, List.cons_subset, List.nil_subset, and_true, and_assoc] at hF
  obtain ⟨_, _, _⟩ := hF
  unfold doorbellError
  repeat' first
    | with_reducible
        first
        | intro _ | exact eventRecord_within ‹_› .. | exact within_pure _ | exact within_now
        | exact within_setF _ _ _ _ ‹_› | exact within_raise _ _ _ ‹_› | refine within_bind ?_ fun _ => ?_
        | refine within_ite ?_ ?_ | split | dsimp only

def dropSummary_foot : Foot := changeRings_foot ++ answered_foot
theorem dropSummary_within {F : Foot} (hF : dropSummary_foot ⊆ F) (g : Nat) : Within F (dropSummary g : Act s₀ Unit) := by
  simp only [dropSummary_foot, List.append_subset] at hF
  obtain ⟨_, _⟩ := hF
  unfold dropSummary
  repeat' first
    | with_reducible
        first
        | intro _ | exact changeRings_within ‹_› .. | exact answered_within ‹_› .. | exact within_pure _
        | exact within_now | refine within_bind ?_ fun _ => ?_ | split | dsimp only

def takeHead_foot : Foot := [.fld GRP_CQ_POS_HEAD_SEEN] ++ changeRings_foot
theorem takeHead_within {F : Foot} (hF : takeHead_foot ⊆ F) (g head : Nat) : Within F (takeHead g head : Act s₀ Unit) := by
  simp only [takeHead_foot, List.append_subset, List.cons_subset, List.nil_subset, and_true] at hF
  obtain ⟨_, _⟩ := hF
  unfold takeHead
  repeat' first
    | with_reducible
        first
        | intro _ | exact changeRings_within ‹_› .. | exact within_pure _ | exact within_fld _ _ _
        | exact within_setF _ _ _ _ ‹_› | refine within_bind ?_ fun _ => ?_ | refine within_ite ?_ ?_ | split
        | dsimp only

def actSummaryReadReturn_foot : Foot := dropSummary_foot ++ (doorbellError_foot ++ (takeHead_foot ++ (changeRings_foot ++ (withTag_foot ++ sweepOn_foot))))
theorem actSummaryReadReturn_within {F : Foot} (hF : actSummaryReadReturn_foot ⊆ F) (g : Nat) (data : Option Summary) : Within F (actSummaryReadReturn g data : Act s₀ Unit) := by
  simp only [actSummaryReadReturn_foot, List.append_subset] at hF
  obtain ⟨_, _, _, _, _, _⟩ := hF
  unfold actSummaryReadReturn
  repeat' first
    | with_reducible
        first
        | intro _ | exact dropSummary_within ‹_› .. | exact doorbellError_within ‹_› ..
        | exact takeHead_within ‹_› .. | exact changeRings_within ‹_› .. | exact withTag_within ‹_› ..
        | exact sweepOn_within ‹_› .. | exact within_pure _ | exact within_now | refine within_bind ?_ fun _ => ?_
        | refine within_ite ?_ ?_ | split | dsimp only

def setRingCtx_foot : Foot := [.fld RING_STATE_PHASE, .reg RING_SEED_SEED, .reg RING_KEY_HI_STEP]
theorem setRingCtx_within {F : Foot} (hF : setRingCtx_foot ⊆ F) (r : Nat) (c : Ctx) : Within F (setRingCtx r c : Act s₀ Unit) := by
  simp only [setRingCtx_foot, List.cons_subset, List.nil_subset, and_true] at hF
  obtain ⟨_, _, _⟩ := hF
  unfold setRingCtx
  repeat' first
    | with_reducible
        first
        | intro _ | exact within_pure _ | exact within_setF _ _ _ _ ‹_› | exact within_emitReg _ _ _ _ ‹_›
        | exact within_emitAddr _ _ ‹_› | refine within_bind ?_ fun _ => ?_ | refine within_ite ?_ ?_ | split
        | dsimp only

def giveUpFetch_foot : Foot := changeRings_foot
theorem giveUpFetch_within {F : Foot} (hF : giveUpFetch_foot ⊆ F) (r : Nat) : Within F (giveUpFetch r : Act s₀ Unit) := by
  simp only [giveUpFetch_foot] at hF
  unfold giveUpFetch
  repeat' first
    | with_reducible
        first
        | intro _ | exact changeRings_within ‹_› .. | exact within_pure _ | refine within_bind ?_ fun _ => ?_
        | refine within_ite ?_ ?_ | split | dsimp only

def haltRing_foot : Foot := [.fld RING_STATE_HALT_CAUSE] ++ (giveUpFetch_foot ++ (setRingState_foot ++ eventRecord_foot))
theorem haltRing_within {F : Foot} (hF : haltRing_foot ⊆ F) (r cause : Nat) : Within F (haltRing r cause : Act s₀ Unit) := by
  simp only [haltRing_foot, List.append_subset, List.cons_subset, List.nil_subset, and_true] at hF
  obtain ⟨_, _, _, _⟩ := hF
  unfold haltRing
  repeat' first
    | with_reducible
        first
        | intro _ | exact giveUpFetch_within ‹_› .. | exact setRingState_within ‹_› ..
        | exact eventRecord_within ‹_› .. | exact within_pure _ | exact within_now | exact within_setF _ _ _ _ ‹_›
        | refine within_bind ?_ fun _ => ?_ | split | dsimp only

def discardFetched_foot : Foot := [.fld RING_POS_FETCHED] ++ (giveUpFetch_foot ++ (setRingCtx_foot ++ changeRings_foot))
theorem discardFetched_within {F : Foot} (hF : discardFetched_foot ⊆ F) (r : Nat) : Within F (discardFetched r : Act s₀ Unit) := by
  simp only [discardFetched_foot, List.append_subset, List.cons_subset, List.nil_subset, and_true] at hF
  obtain ⟨_, _, _, _⟩ := hF
  unfold discardFetched
  repeat' first
    | with_reducible
        first
        | intro _ | exact giveUpFetch_within ‹_› .. | exact setRingCtx_within ‹_› ..
        | exact changeRings_within ‹_› .. | exact within_pure _ | exact within_now | exact within_setF _ _ _ _ ‹_›
        | refine within_bind ?_ fun _ => ?_ | split | dsimp only

def actRingFetch_foot : Foot := changeRings_foot ++ withTag_foot
theorem actRingFetch_within {F : Foot} (hF : actRingFetch_foot ⊆ F) (r : Nat) : Within F (actRingFetch r : Act s₀ Unit) := by
  simp only [actRingFetch_foot, List.append_subset] at hF
  obtain ⟨_, _⟩ := hF
  unfold actRingFetch
  repeat' first
    | with_reducible
        first
        | intro _ | exact changeRings_within ‹_› .. | exact withTag_within ‹_› .. | exact within_pure _
        | exact within_now | refine within_bind ?_ fun _ => ?_ | refine within_ite ?_ ?_ | split | dsimp only

def takeEntries_foot : Foot := [.fld RING_POS_FETCHED] ++ (haltRing_foot ++ (changeRings_foot ++ setRingCtx_foot))
theorem takeEntries_within {F : Foot} (hF : takeEntries_foot ⊆ F) (r : Nat) : ∀ x0, Within F (takeEntries r x0 : Act s₀ Unit)
  | [] => by
    have hF0 := hF
    simp only [takeEntries_foot, List.append_subset, List.cons_subset, List.nil_subset, and_true] at hF
    obtain ⟨_, _, _, _⟩ := hF
    unfold takeEntries
    repeat' first
      | with_reducible
          first
          | exact takeEntries_within hF0 _ _ | intro _ | exact haltRing_within ‹_› ..
          | exact changeRings_within ‹_› .. | exact setRingCtx_within ‹_› .. | exact within_pure _ | exact within_now
          | exact within_setF _ _ _ _ ‹_› | refine within_bind ?_ fun _ => ?_ | refine within_ite ?_ ?_ | split
          | dsimp only
  | w :: ws => by
    have hF0 := hF
    simp only [takeEntries_foot, List.append_subset, List.cons_subset, List.nil_subset, and_true] at hF
    obtain ⟨_, _, _, _⟩ := hF
    unfold takeEntries
    repeat' first
      | with_reducible
          first
          | exact takeEntries_within hF0 _ _ | intro _ | exact haltRing_within ‹_› ..
          | exact changeRings_within ‹_› .. | exact setRingCtx_within ‹_› .. | exact within_pure _ | exact within_now
          | exact within_setF _ _ _ _ ‹_› | refine within_bind ?_ fun _ => ?_ | refine within_ite ?_ ?_ | split
          | dsimp only

def startWalk_foot : Foot := changeRings_foot ++ withTag_foot
theorem startWalk_within {F : Foot} (hF : startWalk_foot ⊆ F) (r : Nat) : Within F (startWalk r : Act s₀ Unit) := by
  simp only [startWalk_foot, List.append_subset] at hF
  obtain ⟨_, _⟩ := hF
  unfold startWalk
  repeat' first
    | with_reducible
        first
        | intro _ | exact changeRings_within ‹_› .. | exact withTag_within ‹_› .. | exact within_pure _
        | exact within_now | refine within_bind ?_ fun _ => ?_ | refine within_ite ?_ ?_ | split | dsimp only

def settleWalk_foot : Foot := changeRings_foot ++ startWalk_foot
theorem settleWalk_within {F : Foot} (hF : settleWalk_foot ⊆ F) (r : Nat) : Within F (settleWalk r : Act s₀ Unit) := by
  simp only [settleWalk_foot, List.append_subset] at hF
  obtain ⟨_, _⟩ := hF
  unfold settleWalk
  repeat' first
    | with_reducible
        first
        | intro _ | exact changeRings_within ‹_› .. | exact startWalk_within ‹_› .. | exact within_pure _
        | exact within_now | refine within_bind ?_ fun _ => ?_ | refine within_ite ?_ ?_ | split | dsimp only

def settleSched_foot : Foot := haltRing_foot
theorem settleSched_within {F : Foot} (hF : settleSched_foot ⊆ F) (r : Nat) : Within F (settleSched r : Act s₀ Unit) := by
  simp only [settleSched_foot] at hF
  unfold settleSched
  repeat' first
    | with_reducible
        first
        | intro _ | exact haltRing_within ‹_› .. | exact within_pure _ | exact within_now
        | refine within_bind ?_ fun _ => ?_ | refine within_ite ?_ ?_ | split | dsimp only

def actSchedTableRead_foot : Foot := changeRings_foot ++ (answered_foot ++ settleSched_foot)
theorem actSchedTableRead_within {F : Foot} (hF : actSchedTableRead_foot ⊆ F) (a : Nat) (entries : List (BitVec 32)) : Within F (actSchedTableRead a entries : Act s₀ Unit) := by
  simp only [actSchedTableRead_foot, List.append_subset] at hF
  obtain ⟨_, _, _⟩ := hF
  unfold actSchedTableRead
  repeat' first
    | with_reducible
        first
        | intro _ | exact changeRings_within ‹_› .. | exact answered_within ‹_› .. | exact settleSched_within ‹_› ..
        | exact within_pure _ | exact within_now | refine within_bind ?_ fun _ => ?_ | refine within_ite ?_ ?_
        | split | dsimp only

def actRingFetchReturn_foot : Foot := changeRings_foot ++ (answered_foot ++ (haltRing_foot ++ (uncore_foot ++ (takeEntries_foot ++ (settleWalk_foot ++ settleSched_foot)))))
theorem actRingFetchReturn_within {F : Foot} (hF : actRingFetchReturn_foot ⊆ F) (r : Nat) (data : Option (List Descriptor)) : Within F (actRingFetchReturn r data : Act s₀ Unit) := by
  simp only [actRingFetchReturn_foot, List.append_subset] at hF
  obtain ⟨_, _, _, _, _, _, _⟩ := hF
  unfold actRingFetchReturn
  repeat' first
    | with_reducible
        first
        | intro _ | exact changeRings_within ‹_› .. | exact answered_within ‹_› .. | exact haltRing_within ‹_› ..
        | exact uncore_within ‹_› .. | exact takeEntries_within ‹_› .. | exact settleWalk_within ‹_› ..
        | exact settleSched_within ‹_› .. | exact within_pure _ | exact within_now
        | refine within_bind ?_ fun _ => ?_ | refine within_ite ?_ ?_ | split | dsimp only

def takeTail_foot : Foot := [.fld GRP_STATUS_DB_BACKWARD, .fld RING_POS_TAIL] ++ (changeRings_foot ++ (haltRing_foot ++ settleSched_foot))
theorem takeTail_within {F : Foot} (hF : takeTail_foot ⊆ F) (r tail : Nat) : Within F (takeTail r tail : Act s₀ Unit) := by
  simp only [takeTail_foot, List.append_subset, List.cons_subset, List.nil_subset, and_true, and_assoc] at hF
  obtain ⟨_, _, _, _, _⟩ := hF
  unfold takeTail
  repeat' first
    | with_reducible
        first
        | intro _ | exact changeRings_within ‹_› .. | exact haltRing_within ‹_› .. | exact settleSched_within ‹_› ..
        | exact within_pure _ | exact within_now | exact within_setF _ _ _ _ ‹_› | exact within_raise _ _ _ ‹_›
        | refine within_bind ?_ fun _ => ?_ | refine within_ite ?_ ?_ | split | dsimp only

def actTailReadReturn_foot : Foot := [.reg GRP_SUMMARY_SEEN_VALUE] ++ (changeRings_foot ++ (answered_foot ++ (doorbellError_foot ++ (takeTail_foot ++ sweepOn_foot))))
theorem actTailReadReturn_within {F : Foot} (hF : actTailReadReturn_foot ⊆ F) (g : Nat) (tails : Option (List (BitVec 32))) : Within F (actTailReadReturn g tails : Act s₀ Unit) := by
  simp only [actTailReadReturn_foot, List.append_subset, List.cons_subset, List.nil_subset, and_true] at hF
  obtain ⟨_, _, _, _, _, _⟩ := hF
  unfold actTailReadReturn
  repeat' first
    | with_reducible
        first
        | intro _ | exact changeRings_within ‹_› .. | exact answered_within ‹_› ..
        | exact doorbellError_within ‹_› .. | exact takeTail_within ‹_› .. | exact sweepOn_within ‹_› ..
        | exact within_pure _ | exact within_now | exact within_emitReg _ _ _ _ ‹_› | exact within_emitAddr _ _ ‹_›
        | refine within_bind ?_ fun _ => ?_ | refine within_ite ?_ ?_ | refine within_each _ _ fun _ => ?_ | split
        | dsimp only

def actHostReadTimeout_foot : Foot := actSummaryReadReturn_foot ++ (actTailReadReturn_foot ++ (actRingFetchReturn_foot ++ (changeRings_foot ++ (answered_foot ++ haltRing_foot))))
theorem actHostReadTimeout_within {F : Foot} (hF : actHostReadTimeout_foot ⊆ F) (h : HostRead) : Within F (actHostReadTimeout h : Act s₀ Unit) := by
  simp only [actHostReadTimeout_foot, List.append_subset] at hF
  obtain ⟨_, _, _, _, _, _⟩ := hF
  unfold actHostReadTimeout
  repeat' first
    | with_reducible
        first
        | intro _ | exact actSummaryReadReturn_within ‹_› .. | exact actTailReadReturn_within ‹_› ..
        | exact actRingFetchReturn_within ‹_› .. | exact changeRings_within ‹_› .. | exact answered_within ‹_› ..
        | exact haltRing_within ‹_› .. | exact within_pure _ | exact within_now | refine within_bind ?_ fun _ => ?_
        | refine within_ite ?_ ?_ | split | dsimp only

def setHoldoff_foot : Foot := changeRings_foot
theorem setHoldoff_within {F : Foot} (hF : setHoldoff_foot ⊆ F) (g : Nat) (h : Holdoff) : Within F (setHoldoff g h : Act s₀ Unit) := by
  simp only [setHoldoff_foot] at hF
  unfold setHoldoff
  repeat' first
    | with_reducible
        first
        | intro _ | exact changeRings_within ‹_› .. | exact within_pure _ | refine within_bind ?_ fun _ => ?_ | split
        | dsimp only

def msixCause_foot : Foot := setHoldoff_foot
theorem msixCause_within {F : Foot} (hF : msixCause_foot ⊆ F) (g : Nat) : Within F (msixCause g : Act s₀ Unit) := by
  simp only [msixCause_foot] at hF
  unfold msixCause
  repeat' first
    | with_reducible
        first
        | intro _ | exact setHoldoff_within ‹_› .. | exact within_pure _ | exact within_now
        | refine within_bind ?_ fun _ => ?_ | refine within_ite ?_ ?_ | split | dsimp only

def setMsix_foot : Foot := changeRings_foot
theorem setMsix_within {F : Foot} (hF : setMsix_foot ⊆ F) (p v : Nat) (e : MsixEntry) : Within F (setMsix p v e : Act s₀ Unit) := by
  simp only [setMsix_foot] at hF
  unfold setMsix
  repeat' first
    | with_reducible
        first
        | intro _ | exact changeRings_within ‹_› .. | exact within_pure _ | refine within_bind ?_ fun _ => ?_ | split
        | dsimp only

def sendVector_foot : Foot := writeMirror_foot ++ (setMsix_foot ++ send_foot)
theorem sendVector_within {F : Foot} (hF : sendVector_foot ⊆ F) (p v : Nat) (gs : List Nat) : Within F (sendVector p v gs : Act s₀ Unit) := by
  simp only [sendVector_foot, List.append_subset] at hF
  obtain ⟨_, _, _⟩ := hF
  unfold sendVector
  repeat' first
    | with_reducible
        first
        | intro _ | exact writeMirror_within ‹_› .. | exact setMsix_within ‹_› .. | exact send_within ‹_› ..
        | exact within_pure _ | exact within_now | refine within_bind ?_ fun _ => ?_ | refine within_ite ?_ ?_
        | refine within_each _ _ fun _ => ?_ | split | dsimp only

def sendMessage_foot : Foot := setHoldoff_foot ++ sendVector_foot
theorem sendMessage_within {F : Foot} (hF : sendMessage_foot ⊆ F) (g : Nat) : Within F (sendMessage g : Act s₀ Unit) := by
  simp only [sendMessage_foot, List.append_subset] at hF
  obtain ⟨_, _⟩ := hF
  unfold sendMessage
  repeat' first
    | with_reducible
        first
        | intro _ | exact setHoldoff_within ‹_› .. | exact sendVector_within ‹_› .. | exact within_pure _
        | exact within_now | refine within_bind ?_ fun _ => ?_ | split | dsimp only

def actMsixSend_foot : Foot := sendMessage_foot
theorem actMsixSend_within {F : Foot} (hF : actMsixSend_foot ⊆ F) (g : Nat) : Within F (actMsixSend g : Act s₀ Unit) := by
  simp only [actMsixSend_foot] at hF
  unfold actMsixSend
  repeat' first
    | with_reducible
        first
        | intro _ | exact sendMessage_within ‹_› .. | exact within_pure _ | exact within_ask _
        | refine within_bind ?_ fun _ => ?_ | refine within_ite ?_ ?_ | split | dsimp only

def actMsixHoldoffEnd_foot : Foot := sendMessage_foot ++ setHoldoff_foot
theorem actMsixHoldoffEnd_within {F : Foot} (hF : actMsixHoldoffEnd_foot ⊆ F) (g : Nat) : Within F (actMsixHoldoffEnd g : Act s₀ Unit) := by
  simp only [actMsixHoldoffEnd_foot, List.append_subset] at hF
  obtain ⟨_, _⟩ := hF
  unfold actMsixHoldoffEnd
  repeat' first
    | with_reducible
        first
        | intro _ | exact sendMessage_within ‹_› .. | exact setHoldoff_within ‹_› .. | exact within_pure _
        | exact within_ask _ | refine within_bind ?_ fun _ => ?_ | refine within_ite ?_ ?_ | split | dsimp only

def sendPending_foot : Foot := sendVector_foot
theorem sendPending_within {F : Foot} (hF : sendPending_foot ⊆ F) (p : Nat) : Within F (sendPending p : Act s₀ Unit) := by
  simp only [sendPending_foot] at hF
  unfold sendPending
  repeat' first
    | with_reducible
        first
        | intro _ | exact sendVector_within ‹_› .. | exact within_pure _ | exact within_now
        | refine within_bind ?_ fun _ => ?_ | refine within_each _ _ fun _ => ?_ | split | dsimp only

def actMsixUnmask_foot : Foot := [.part .host] ++ (setMsix_foot ++ (sendVector_foot ++ sendPending_foot))
theorem actMsixUnmask_within {F : Foot} (hF : actMsixUnmask_foot ⊆ F) (p : Nat) (vec : Option (Fin 2048)) : Within F (actMsixUnmask p vec : Act s₀ Unit) := by
  simp only [actMsixUnmask_foot, List.append_subset, List.cons_subset, List.nil_subset, and_true] at hF
  obtain ⟨_, _, _, _⟩ := hF
  unfold actMsixUnmask
  repeat' first
    | with_reducible
        first
        | intro _ | exact setMsix_within ‹_› .. | exact sendVector_within ‹_› .. | exact sendPending_within ‹_› ..
        | exact within_pure _ | exact within_ask _ | refine within_bind ?_ fun _ => ?_ | refine within_ite ?_ ?_
        | split | dsimp only
    | exact within_change _ fun u p => by cases p <;> first | exact .inl rfl | exact .inr ‹_› | (refine .inl ?_; simp only [Part.same]; repeat' split) <;> rfl

def actCqRecordWrite_foot : Foot := [.fld GRP_CQ_POS_TAIL, .fld GRP_STATUS_CQ_WRITE_ERR] ++ (countTagWait_foot ++ (changeRings_foot ++ (takeTag_foot ++ (send_foot ++ (freeTag_foot ++ (uncore_foot ++ (msixCause_foot ++ (dropSlot_foot ++ (retire_foot ++ (settleStopping_foot ++ settleFences_foot))))))))))
theorem actCqRecordWrite_within {F : Foot} (hF : actCqRecordWrite_foot ⊆ F) (g : Nat) (ok : Bool) : Within F (actCqRecordWrite g ok : Act s₀ Unit) := by
  simp only [actCqRecordWrite_foot, List.append_subset, List.cons_subset, List.nil_subset, and_true, and_assoc] at hF
  obtain ⟨_, _, _, _, _, _, _, _, _, _, _, _, _⟩ := hF
  unfold actCqRecordWrite
  repeat' first
    | with_reducible
        first
        | intro _ | exact countTagWait_within ‹_› .. | exact changeRings_within ‹_› .. | exact takeTag_within ‹_› ..
        | exact send_within ‹_› .. | exact freeTag_within ‹_› .. | exact uncore_within ‹_› ..
        | exact msixCause_within ‹_› .. | exact dropSlot_within ‹_› .. | exact retire_within ‹_› ..
        | exact settleStopping_within ‹_› .. | exact settleFences_within ‹_› .. | exact within_pure _
        | exact within_now | exact within_setF _ _ _ _ ‹_› | exact within_raise _ _ _ ‹_›
        | refine within_bind ?_ fun _ => ?_ | refine within_ite ?_ ?_ | split | dsimp only

def enableRing_foot : Foot := [.fld RING_CTL_ENABLE, .fld RING_STATE_HALT_CAUSE, .fld RING_POS_FETCHED, .fld RING_POS_TAIL] ++ (changeRings_foot ++ (setRingState_foot ++ startWalk_foot))
theorem enableRing_within {F : Foot} (hF : enableRing_foot ⊆ F) (r : Nat) : Within F (enableRing r : Act s₀ Unit) := by
  simp only [enableRing_foot, List.append_subset, List.cons_subset, List.nil_subset, and_true, and_assoc] at hF
  obtain ⟨_, _, _, _, _, _, _⟩ := hF
  unfold enableRing
  repeat' first
    | with_reducible
        first
        | intro _ | exact changeRings_within ‹_› .. | exact setRingState_within ‹_› ..
        | exact startWalk_within ‹_› .. | exact within_pure _ | exact within_fld _ _ _ | exact within_isOn _ _ _
        | exact within_setF _ _ _ _ ‹_› | refine within_bind ?_ fun _ => ?_ | refine within_ite ?_ ?_ | split
        | dsimp only

def disableRing_foot : Foot := [.fld RING_CTL_ENABLE] ++ (discardFetched_foot ++ (changeRings_foot ++ (setRingState_foot ++ settleStopping_foot)))
theorem disableRing_within {F : Foot} (hF : disableRing_foot ⊆ F) (r : Nat) : Within F (disableRing r : Act s₀ Unit) := by
  simp only [disableRing_foot, List.append_subset, List.cons_subset, List.nil_subset, and_true] at hF
  obtain ⟨_, _, _, _, _⟩ := hF
  unfold disableRing
  repeat' first
    | with_reducible
        first
        | intro _ | exact discardFetched_within ‹_› .. | exact changeRings_within ‹_› ..
        | exact setRingState_within ‹_› .. | exact settleStopping_within ‹_› .. | exact within_pure _
        | exact within_setF _ _ _ _ ‹_› | refine within_bind ?_ fun _ => ?_ | split | dsimp only

def hookRingCtl_foot : Foot := [.fld RING_STATE_HALT_CAUSE] ++ (enableRing_foot ++ (changeRings_foot ++ (setRingState_foot ++ (startWalk_foot ++ disableRing_foot))))
theorem hookRingCtl_within {F : Foot} (hF : hookRingCtl_foot ⊆ F) (w : RegWrite) : Within F (hookRingCtl w : Act s₀ Unit) := by
  simp only [hookRingCtl_foot, List.append_subset, List.cons_subset, List.nil_subset, and_true] at hF
  obtain ⟨_, _, _, _, _, _⟩ := hF
  unfold hookRingCtl
  repeat' first
    | with_reducible
        first
        | intro _ | exact enableRing_within ‹_› .. | exact changeRings_within ‹_› ..
        | exact setRingState_within ‹_› .. | exact startWalk_within ‹_› .. | exact disableRing_within ‹_› ..
        | exact within_pure _ | exact within_now | exact within_setF _ _ _ _ ‹_› | refine within_bind ?_ fun _ => ?_
        | refine within_ite ?_ ?_ | split | dsimp only

theorem hookWhileDisabled_within {F : Foot} {w : RegWrite} (hw : F.free w.addr) : Within F (hookWhileDisabled w : Act s₀ Unit) := by
  unfold hookWhileDisabled
  repeat' first
    | with_reducible
        first
        | intro _ | exact plainHook_within ‹_› .. | exact within_pure _ | exact within_fld _ _ _
        | exact within_emitFree _ _ ‹_› | refine within_bind ?_ fun _ => ?_ | refine within_ite ?_ ?_ | split
        | dsimp only

def hookRetired_foot : Foot := [.fld RING_POS_FETCHED] ++ (changeRings_foot ++ settleWaits_foot)
theorem hookRetired_within {F : Foot} (hF : hookRetired_foot ⊆ F) {w : RegWrite} (hw : F.free w.addr) : Within F (hookRetired w : Act s₀ Unit) := by
  simp only [hookRetired_foot, List.append_subset, List.cons_subset, List.nil_subset, and_true] at hF
  obtain ⟨_, _, _⟩ := hF
  unfold hookRetired
  repeat' first
    | with_reducible
        first
        | intro _ | exact plainHook_within ‹_› .. | exact changeRings_within ‹_› .. | exact settleWaits_within ‹_› ..
        | exact within_pure _ | exact within_fld _ _ _ | exact within_setF _ _ _ _ ‹_›
        | exact within_emitFree _ _ ‹_› | refine within_bind ?_ fun _ => ?_ | refine within_ite ?_ ?_ | split
        | dsimp only

def hookRingCfg_foot : Foot := discardRecorded_foot
theorem hookRingCfg_within {F : Foot} (hF : hookRingCfg_foot ⊆ F) {w : RegWrite} (hw : F.free w.addr) : Within F (hookRingCfg w : Act s₀ Unit) := by
  simp only [hookRingCfg_foot] at hF
  unfold hookRingCfg
  repeat' first
    | with_reducible
        first
        | intro _ | exact plainHook_within ‹_› .. | exact discardRecorded_within ‹_› .. | exact within_pure _
        | exact within_now | exact within_emitFree _ _ ‹_› | refine within_bind ?_ fun _ => ?_
        | refine within_ite ?_ ?_ | split | dsimp only

theorem hookGrpDb_within {F : Foot} {w : RegWrite} (hw : F.free w.addr) : Within F (hookGrpDb w : Act s₀ Unit) := by
  unfold hookGrpDb
  repeat' first
    | with_reducible
        first
        | intro _ | exact within_pure _ | exact within_now | exact within_emitReg _ _ _ _ ‹_›
        | exact within_emitAddr _ _ ‹_› | exact within_emitFree _ _ ‹_› | refine within_bind ?_ fun _ => ?_
        | refine within_ite ?_ ?_ | split | dsimp only

def hookSched_foot : Foot := discardRecorded_foot
theorem hookSched_within {F : Foot} (hF : hookSched_foot ⊆ F) {w : RegWrite} (hw : F.free w.addr) : Within F (hookSched w : Act s₀ Unit) := by
  simp only [hookSched_foot] at hF
  unfold hookSched
  repeat' first
    | with_reducible
        first
        | intro _ | exact discardRecorded_within ‹_› .. | exact plainHook_within ‹_› .. | exact within_pure _
        | exact within_emitFree _ _ ‹_› | refine within_bind ?_ fun _ => ?_ | refine within_ite ?_ ?_ | split
        | dsimp only

end Sys2Proof.Machine
end

