-- ==== Sys2Proof/Laws/FootFrames.lean ====
section
/-! SUPPORT. The footprints of the actions of Frames. -/

namespace Sys2Proof.Machine

variable {s₀ : State}

def changeFab_foot : Foot := [.part .fab]
theorem changeFab_within {F : Foot} (hF : changeFab_foot ⊆ F) (f : Fabric → Fabric) : Within F (changeFab f : Act s₀ Unit) := by
  simp only [changeFab_foot, List.cons_subset, List.nil_subset, and_true] at hF
  unfold changeFab
  repeat' first
    | with_reducible
        first
        | intro _ | exact within_pure _ | refine within_bind ?_ fun _ => ?_ | split | dsimp only
    | exact within_change _ fun u p => by cases p <;> first | exact .inl rfl | exact .inr ‹_› | (refine .inl ?_; simp only [Part.same]; repeat' split) <;> rfl

def withPort_foot : Foot := changeFab_foot
theorem withPort_within {F : Foot} (hF : withPort_foot ⊆ F) (p : Nat) (f : PortUnit → PortUnit) : Within F (withPort p f : Act s₀ Unit) := by
  simp only [withPort_foot] at hF
  unfold withPort
  repeat' first
    | with_reducible
        first
        | intro _ | exact changeFab_within ‹_› .. | exact within_pure _ | refine within_bind ?_ fun _ => ?_ | split
        | dsimp only

def sendIdle_foot : Foot := send_foot
theorem sendIdle_within {F : Foot} (hF : sendIdle_foot ⊆ F) (p : Nat) (nak : Bool) (vl cls credit : Nat) : Within F (sendIdle p nak vl cls credit : Act s₀ Unit) := by
  simp only [sendIdle_foot] at hF
  unfold sendIdle
  repeat' first
    | with_reducible
        first
        | intro _ | exact send_within ‹_› .. | exact within_pure _ | exact within_ask _
        | refine within_bind ?_ fun _ => ?_ | split | dsimp only

def giveCredits_foot : Foot := sendIdle_foot
theorem giveCredits_within {F : Foot} (hF : giveCredits_foot ⊆ F) (a : Option Nat) (f : Frame) : Within F (giveCredits a f : Act s₀ Unit) := by
  simp only [giveCredits_foot] at hF
  unfold giveCredits
  repeat' first
    | with_reducible
        first
        | intro _ | exact sendIdle_within ‹_› .. | exact within_pure _ | exact within_now
        | refine within_bind ?_ fun _ => ?_ | refine within_ite ?_ ?_ | split | dsimp only

def noteDeparture_foot : Foot := [.part .tb]
theorem noteDeparture_within {F : Foot} (hF : noteDeparture_foot ⊆ F) (p : Nat) (f : TxFrame) : Within F (noteDeparture p f : Act s₀ Unit) := by
  simp only [noteDeparture_foot, List.cons_subset, List.nil_subset, and_true] at hF
  unfold noteDeparture
  repeat' first
    | with_reducible
        first
        | intro _ | exact request_within .. | exact within_pure _ | exact within_ask _
        | refine within_bind ?_ fun _ => ?_ | refine within_ite ?_ ?_ | split | dsimp only
    | exact within_change _ fun u p => by cases p <;> first | exact .inl rfl | exact .inr ‹_› | (refine .inl ?_; simp only [Part.same]; repeat' split) <;> rfl

def noteContrib_foot : Foot := send_foot
theorem noteContrib_within {F : Foot} (hF : noteContrib_foot ⊆ F) (p : Nat) (f : TxFrame) : Within F (noteContrib p f : Act s₀ Unit) := by
  simp only [noteContrib_foot] at hF
  unfold noteContrib
  repeat' first
    | with_reducible
        first
        | intro _ | exact send_within ‹_› .. | exact within_pure _ | refine within_bind ?_ fun _ => ?_
        | refine within_ite ?_ ?_ | split | dsimp only

def sendFlit_foot : Foot := withPort_foot ++ send_foot
theorem sendFlit_within {F : Foot} (hF : sendFlit_foot ⊆ F) (p : Nat) (h : FlitHdr) (cs : List (BitVec 128)) : Within F (sendFlit p h cs : Act s₀ Unit) := by
  simp only [sendFlit_foot, List.append_subset] at hF
  obtain ⟨_, _⟩ := hF
  unfold sendFlit
  repeat' first
    | with_reducible
        first
        | intro _ | exact withPort_within ‹_› .. | exact send_within ‹_› .. | exact within_pure _
        | exact within_ask _ | refine within_bind ?_ fun _ => ?_ | split | dsimp only

def pumpPort_foot : Foot := withPort_foot ++ (sendFlit_foot ++ (noteDeparture_foot ++ (noteContrib_foot ++ giveCredits_foot)))
theorem pumpPort_within {F : Foot} (hF : pumpPort_foot ⊆ F) (p : Nat) : ∀ x0, Within F (pumpPort p x0 : Act s₀ Unit)
  | 0 => by
    have hF0 := hF
    simp only [pumpPort_foot, List.append_subset] at hF
    obtain ⟨_, _, _, _, _⟩ := hF
    unfold pumpPort
    repeat' first
      | with_reducible
          first
          | exact pumpPort_within hF0 _ _ | intro _ | exact withPort_within ‹_› .. | exact sendFlit_within ‹_› ..
          | exact noteDeparture_within ‹_› .. | exact noteContrib_within ‹_› .. | exact giveCredits_within ‹_› ..
          | exact within_pure _ | exact within_now | refine within_bind ?_ fun _ => ?_ | refine within_ite ?_ ?_
          | split | dsimp only
  | fuel + 1 => by
    have hF0 := hF
    simp only [pumpPort_foot, List.append_subset] at hF
    obtain ⟨_, _, _, _, _⟩ := hF
    unfold pumpPort
    repeat' first
      | with_reducible
          first
          | exact pumpPort_within hF0 _ _ | intro _ | exact withPort_within ‹_› .. | exact sendFlit_within ‹_› ..
          | exact noteDeparture_within ‹_› .. | exact noteContrib_within ‹_› .. | exact giveCredits_within ‹_› ..
          | exact within_pure _ | exact within_now | refine within_bind ?_ fun _ => ?_ | refine within_ite ?_ ?_
          | split | dsimp only

def pump_foot : Foot := pumpPort_foot
theorem pump_within {F : Foot} (hF : pump_foot ⊆ F) (p : Nat) : Within F (pump p : Act s₀ Unit) := by
  simp only [pump_foot] at hF
  unfold pump
  repeat' first
    | with_reducible
        first
        | intro _ | exact pumpPort_within ‹_› .. | exact within_pure _ | exact within_ask _
        | refine within_bind ?_ fun _ => ?_ | split | dsimp only

def sendControlFlit_foot : Foot := withPort_foot ++ pump_foot
theorem sendControlFlit_within {F : Foot} (hF : sendControlFlit_foot ⊆ F) (p : Nat) : Within F (sendControlFlit p : Act s₀ Unit) := by
  simp only [sendControlFlit_foot, List.append_subset] at hF
  obtain ⟨_, _⟩ := hF
  unfold sendControlFlit
  repeat' first
    | with_reducible
        first
        | intro _ | exact withPort_within ‹_› .. | exact pump_within ‹_› .. | exact within_pure _
        | exact within_freeIndex | refine within_bind ?_ fun _ => ?_ | split | dsimp only

def enqueue_foot : Foot := withPort_foot ++ pump_foot
theorem enqueue_within {F : Foot} (hF : enqueue_foot ⊆ F) (p : Nat) (f : Frame) (cls : Nat) (origin stamp : Option Nat) : Within F (enqueue p f cls origin stamp : Act s₀ Unit) := by
  simp only [enqueue_foot, List.append_subset] at hF
  obtain ⟨_, _⟩ := hF
  unfold enqueue
  repeat' first
    | with_reducible
        first
        | intro _ | exact withPort_within ‹_› .. | exact pump_within ‹_› .. | exact within_pure _
        | refine within_bind ?_ fun _ => ?_ | split | dsimp only

def routeFrame_foot : Foot := changeFab_foot ++ (giveCredits_foot ++ enqueue_foot)
theorem routeFrame_within {F : Foot} (hF : routeFrame_foot ⊆ F) (f : Frame) (origin : Option Nat) : Within F (routeFrame f origin : Act s₀ (Option Nat)) := by
  simp only [routeFrame_foot, List.append_subset] at hF
  obtain ⟨_, _, _⟩ := hF
  unfold routeFrame
  repeat' first
    | with_reducible
        first
        | intro _ | exact changeFab_within ‹_› .. | exact giveCredits_within ‹_› .. | exact enqueue_within ‹_› ..
        | exact within_pure _ | exact within_now | refine within_bind ?_ fun _ => ?_ | refine within_ite ?_ ?_
        | split | dsimp only

def sendControl_foot : Foot := routeFrame_foot
theorem sendControl_within {F : Foot} (hF : sendControl_foot ⊆ F) (f : Frame) : Within F (sendControl f : Act s₀ Unit) := by
  simp only [sendControl_foot] at hF
  unfold sendControl
  repeat' first
    | with_reducible
        first
        | intro _ | exact routeFrame_within ‹_› .. | exact within_pure _ | exact within_fld _ _ _
        | refine within_bind ?_ fun _ => ?_ | split | dsimp only

def sendNotice_foot : Foot := sendControl_foot
theorem sendNotice_within {F : Foot} (hF : sendNotice_foot ⊆ F) (f : Frame) (st : Status) (detail : Nat) : Within F (sendNotice f st detail : Act s₀ Unit) := by
  simp only [sendNotice_foot] at hF
  unfold sendNotice
  repeat' first
    | with_reducible
        first
        | intro _ | exact sendControl_within ‹_› .. | exact within_pure _ | exact within_ask _
        | refine within_bind ?_ fun _ => ?_ | refine within_ite ?_ ?_ | split | dsimp only

def sendOrNotice_foot : Foot := routeFrame_foot ++ (giveCredits_foot ++ sendNotice_foot)
theorem sendOrNotice_within {F : Foot} (hF : sendOrNotice_foot ⊆ F) (f : Frame) (origin : Option Nat) : Within F (sendOrNotice f origin : Act s₀ Unit) := by
  simp only [sendOrNotice_foot, List.append_subset] at hF
  obtain ⟨_, _, _⟩ := hF
  unfold sendOrNotice
  repeat' first
    | with_reducible
        first
        | intro _ | exact routeFrame_within ‹_› .. | exact giveCredits_within ‹_› .. | exact sendNotice_within ‹_› ..
        | exact within_pure _ | refine within_bind ?_ fun _ => ?_ | split | dsimp only

def sendAck_foot : Foot := sendControl_foot
theorem sendAck_within {F : Foot} (hF : sendAck_foot ⊆ F) (f : Frame) (st : Status) (detail : Nat) : Within F (sendAck f st detail : Act s₀ Unit) := by
  simp only [sendAck_foot] at hF
  unfold sendAck
  repeat' first
    | with_reducible
        first
        | intro _ | exact sendControl_within ‹_› .. | exact within_pure _ | exact within_ask _
        | refine within_bind ?_ fun _ => ?_ | split | dsimp only

def launchFrame_foot : Foot := takeTag_foot ++ (changeFab_foot ++ (uncore_foot ++ sendOrNotice_foot))
theorem launchFrame_within {F : Foot} (hF : launchFrame_foot ⊆ F) (x : Sending) : Within F (launchFrame x : Act s₀ Unit) := by
  simp only [launchFrame_foot, List.append_subset] at hF
  obtain ⟨_, _, _, _⟩ := hF
  unfold launchFrame
  repeat' first
    | with_reducible
        first
        | intro _ | exact takeTag_within ‹_› .. | exact changeFab_within ‹_› .. | exact uncore_within ‹_› ..
        | exact sendOrNotice_within ‹_› .. | exact within_pure _ | exact within_now
        | refine within_bind ?_ fun _ => ?_ | refine within_ite ?_ ?_ | split | dsimp only

def startFrame_foot : Foot := launchFrame_foot ++ (countTagWait_foot ++ changeRings_foot)
theorem startFrame_within {F : Foot} (hF : startFrame_foot ⊆ F) (x : Sending) : Within F (startFrame x : Act s₀ Unit) := by
  simp only [startFrame_foot, List.append_subset] at hF
  obtain ⟨_, _, _⟩ := hF
  unfold startFrame
  repeat' first
    | with_reducible
        first
        | intro _ | exact launchFrame_within ‹_› .. | exact countTagWait_within ‹_› ..
        | exact changeRings_within ‹_› .. | exact within_pure _ | exact within_now
        | refine within_bind ?_ fun _ => ?_ | refine within_ite ?_ ?_ | split | dsimp only

def actTxnTagGrant_foot : Foot := changeRings_foot ++ (launchFrame_foot ++ (readFence_foot ++ (takeTag_foot ++ (sendAsk_foot ++ takeIn_foot))))
theorem actTxnTagGrant_within {F : Foot} (hF : actTxnTagGrant_foot ⊆ F) : Within F (actTxnTagGrant : Act s₀ Unit) := by
  simp only [actTxnTagGrant_foot, List.append_subset] at hF
  obtain ⟨_, _, _, _, _, _⟩ := hF
  unfold actTxnTagGrant
  repeat' first
    | with_reducible
        first
        | intro _ | exact changeRings_within ‹_› .. | exact launchFrame_within ‹_› .. | exact readFence_within ‹_› ..
        | exact takeTag_within ‹_› .. | exact sendAsk_within ‹_› .. | exact takeIn_within ‹_› .. | exact within_pure _
        | exact within_now | refine within_bind ?_ fun _ => ?_ | refine within_each _ _ fun _ => ?_ | split
        | dsimp only

def advanceFrames_foot : Foot := changeFab_foot ++ startFrame_foot
theorem advanceFrames_within {F : Foot} (hF : advanceFrames_foot ⊆ F) (id : Nat) : Within F (advanceFrames id : Act s₀ Unit) := by
  simp only [advanceFrames_foot, List.append_subset] at hF
  obtain ⟨_, _⟩ := hF
  unfold advanceFrames
  repeat' first
    | with_reducible
        first
        | intro _ | exact changeFab_within ‹_› .. | exact startFrame_within ‹_› .. | exact within_pure _
        | exact within_now | refine within_bind ?_ fun _ => ?_ | refine within_each _ _ fun _ => ?_ | split
        | dsimp only

def withJob_foot : Foot := [.part .fail]
theorem withJob_within {F : Foot} (hF : withJob_foot ⊆ F) (id : Nat) (f : FixJob → FixJob) : Within F (withJob id f : Act s₀ Unit) := by
  simp only [withJob_foot, List.cons_subset, List.nil_subset, and_true] at hF
  unfold withJob
  repeat' first
    | with_reducible
        first
        | intro _ | exact within_pure _ | refine within_bind ?_ fun _ => ?_ | refine within_ite ?_ ?_ | split
        | dsimp only
    | exact within_change _ fun u p => by cases p <;> first | exact .inl rfl | exact .inr ‹_› | (refine .inl ?_; simp only [Part.same]; repeat' split) <;> rfl

def postFrames_foot : Foot := withSlot_foot ++ (withJob_foot ++ (changeFab_foot ++ advanceFrames_foot))
theorem postFrames_within {F : Foot} (hF : postFrames_foot ⊆ F) (id : Nat) (xs : List Sending) : Within F (postFrames id xs : Act s₀ Unit) := by
  simp only [postFrames_foot, List.append_subset] at hF
  obtain ⟨_, _, _, _⟩ := hF
  unfold postFrames
  repeat' first
    | with_reducible
        first
        | intro _ | exact withSlot_within ‹_› .. | exact withJob_within ‹_› .. | exact changeFab_within ‹_› ..
        | exact advanceFrames_within ‹_› .. | exact within_pure _ | refine within_bind ?_ fun _ => ?_ | split
        | dsimp only

def dropWaiting_foot : Foot := [.part .fail] ++ (changeFab_foot ++ changeRings_foot)
theorem dropWaiting_within {F : Foot} (hF : dropWaiting_foot ⊆ F) (p : Sending → Bool) : Within F (dropWaiting p : Act s₀ Unit) := by
  simp only [dropWaiting_foot, List.append_subset, List.cons_subset, List.nil_subset, and_true] at hF
  obtain ⟨_, _, _⟩ := hF
  unfold dropWaiting
  repeat' first
    | with_reducible
        first
        | intro _ | exact changeFab_within ‹_› .. | exact changeRings_within ‹_› .. | exact within_pure _
        | exact within_now | refine within_bind ?_ fun _ => ?_ | split | dsimp only
    | exact within_change _ fun u p => by cases p <;> first | exact .inl rfl | exact .inr ‹_› | (refine .inl ?_; simp only [Part.same]; repeat' split) <;> rfl

def answer_foot : Foot := changeFab_foot ++ (freeTag_foot ++ (withSlot_foot ++ (withJob_foot ++ (riskBump_foot ++ (dropWaiting_foot ++ advanceFrames_foot)))))
theorem answer_within {F : Foot} (hF : answer_foot ⊆ F) (fl : Flight) (st : Status) (detail : Nat) : Within F (answer fl st detail : Act s₀ Unit) := by
  simp only [answer_foot, List.append_subset] at hF
  obtain ⟨_, _, _, _, _, _, _⟩ := hF
  unfold answer
  repeat' first
    | with_reducible
        first
        | intro _ | exact changeFab_within ‹_› .. | exact freeTag_within ‹_› .. | exact withSlot_within ‹_› ..
        | exact withJob_within ‹_› .. | exact riskBump_within ‹_› .. | exact dropWaiting_within ‹_› ..
        | exact advanceFrames_within ‹_› .. | exact within_pure _ | exact within_now
        | refine within_bind ?_ fun _ => ?_ | refine within_ite ?_ ?_ | split | dsimp only

end Sys2Proof.Machine
end

