-- ==== Sys2Proof/Laws/FootLink.lean ====
section
/-! SUPPORT. The footprints of the actions of Link. -/

namespace Sys2Proof.Machine

variable {s₀ : State}

def dropPartial_foot : Foot := [.fld LINK_REASM_DROP_COUNT, .fld LINK_EVENT_REASM_DROP] ++ (withPort_foot ++ (sendIdle_foot ++ sendNotice_foot))
theorem dropPartial_within {F : Foot} (hF : dropPartial_foot ⊆ F) (p : Nat) (key : Nat) (cs : List (BitVec 128)) : Within F (dropPartial p key cs : Act s₀ Unit) := by
  simp only [dropPartial_foot, List.append_subset, List.cons_subset, List.nil_subset, and_true, and_assoc] at hF
  obtain ⟨_, _, _, _, _⟩ := hF
  unfold dropPartial
  repeat' first
    | with_reducible
        first
        | intro _ | exact withPort_within ‹_› .. | exact sendIdle_within ‹_› .. | exact sendNotice_within ‹_› ..
        | exact within_pure _ | exact within_now | exact within_freeIndex | exact within_raise _ _ _ ‹_›
        | exact within_countUp _ _ _ _ ‹_› | refine within_bind ?_ fun _ => ?_ | refine within_ite ?_ ?_ | split
        | dsimp only

def voidCredits_foot : Foot := changeFab_foot
theorem voidCredits_within {F : Foot} (hF : voidCredits_foot ⊆ F) (p : Nat) : Within F (voidCredits p : Act s₀ Unit) := by
  simp only [voidCredits_foot] at hF
  unfold voidCredits
  repeat' first
    | with_reducible
        first
        | intro _ | exact changeFab_within ‹_› .. | exact within_pure _ | refine within_bind ?_ fun _ => ?_
        | refine within_ite ?_ ?_ | split | dsimp only

def failPort_foot : Foot := [.fld LINK_STATUS_STATE, .fld LINK_STATUS_LANES_UP, .fld LINK_STATUS_LANE_SET, .fld LINK_STATUS_WIDTH, .fld LINK_EVENT_FAILED] ++ (riskBump_foot ++ (withPort_foot ++ (voidCredits_foot ++ (sendOrNotice_foot ++ (giveCredits_foot ++ dropPartial_foot)))))
theorem failPort_within {F : Foot} (hF : failPort_foot ⊆ F) (p : Nat) : Within F (failPort p : Act s₀ Unit) := by
  simp only [failPort_foot, List.append_subset, List.cons_subset, List.nil_subset, and_true, and_assoc] at hF
  obtain ⟨_, _, _, _, _, _, _, _, _, _, _⟩ := hF
  unfold failPort
  repeat' first
    | with_reducible
        first
        | intro _ | exact riskBump_within ‹_› .. | exact withPort_within ‹_› .. | exact voidCredits_within ‹_› ..
        | exact sendOrNotice_within ‹_› .. | exact giveCredits_within ‹_› .. | exact dropPartial_within ‹_› ..
        | exact within_pure _ | exact within_ask _ | exact within_setF _ _ _ _ ‹_› | exact within_raise _ _ _ ‹_›
        | refine within_bind ?_ fun _ => ?_ | refine within_ite ?_ ?_ | refine within_each _ _ fun _ => ?_ | split
        | dsimp only

def useLanes_foot : Foot := [.fld LINK_STATUS_LANE_SET, .fld LINK_STATUS_WIDTH]
theorem useLanes_within {F : Foot} (hF : useLanes_foot ⊆ F) (p v : Nat) : Within F (useLanes p v : Act s₀ Unit) := by
  simp only [useLanes_foot, List.cons_subset, List.nil_subset, and_true] at hF
  obtain ⟨_, _⟩ := hF
  unfold useLanes
  repeat' first
    | with_reducible
        first
        | intro _ | exact within_pure _ | exact within_setF _ _ _ _ ‹_› | refine within_bind ?_ fun _ => ?_ | split
        | dsimp only

def changeLanes_foot : Foot := [.fld LINK_CAL_TX_DELAY, .fld LINK_CAL_RX_DELAY] ++ useLanes_foot
theorem changeLanes_within {F : Foot} (hF : changeLanes_foot ⊆ F) (p v : Nat) : Within F (changeLanes p v : Act s₀ Unit) := by
  simp only [changeLanes_foot, List.append_subset, List.cons_subset, List.nil_subset, and_true, and_assoc] at hF
  obtain ⟨_, _, _⟩ := hF
  unfold changeLanes
  repeat' first
    | with_reducible
        first
        | intro _ | exact useLanes_within ‹_› .. | exact within_pure _ | exact within_freeIndex
        | exact within_setF _ _ _ _ ‹_› | refine within_bind ?_ fun _ => ?_ | split | dsimp only

def settleTimebase_foot : Foot := [.fld TB_STATUS_SETTLING, .part .tb]
theorem settleTimebase_within {F : Foot} (hF : settleTimebase_foot ⊆ F) (p : Nat) : Within F (settleTimebase p : Act s₀ Unit) := by
  simp only [settleTimebase_foot, List.cons_subset, List.nil_subset, and_true] at hF
  obtain ⟨_, _⟩ := hF
  unfold settleTimebase
  repeat' first
    | with_reducible
        first
        | intro _ | exact within_pure _ | exact within_now | exact within_raise _ _ _ ‹_›
        | refine within_bind ?_ fun _ => ?_ | refine within_ite ?_ ?_ | split | dsimp only
    | exact within_change _ fun u p => by cases p <;> first | exact .inl rfl | exact .inr ‹_› | (refine .inl ?_; simp only [Part.same]; repeat' split) <;> rfl

def replayAll_foot : Foot := [.fld LINK_RETRY_REPLAYS, .fld LINK_EVENT_REPLAY_STORM] ++ (uncore_foot ++ (riskLink_foot ++ (withPort_foot ++ (failPort_foot ++ send_foot))))
theorem replayAll_within {F : Foot} (hF : replayAll_foot ⊆ F) (p : Nat) : Within F (replayAll p : Act s₀ Unit) := by
  simp only [replayAll_foot, List.append_subset, List.cons_subset, List.nil_subset, and_true, and_assoc] at hF
  obtain ⟨_, _, _, _, _, _, _⟩ := hF
  unfold replayAll
  repeat' first
    | with_reducible
        first
        | intro _ | exact uncore_within ‹_› .. | exact riskLink_within ‹_› .. | exact withPort_within ‹_› ..
        | exact failPort_within ‹_› .. | exact send_within ‹_› .. | exact within_pure _ | exact within_ask _
        | exact within_raise _ _ _ ‹_› | exact within_countUp _ _ _ _ ‹_› | refine within_bind ?_ fun _ => ?_
        | refine within_ite ?_ ?_ | refine within_each _ _ fun _ => ?_ | split | dsimp only

def degradeTo_foot : Foot := [.fld LINK_STATUS_STATE, .fld LINK_EVENT_DEGRADE] ++ (changeLanes_foot ++ (settleTimebase_foot ++ send_foot))
theorem degradeTo_within {F : Foot} (hF : degradeTo_foot ⊆ F) (p v : Nat) : Within F (degradeTo p v : Act s₀ Unit) := by
  simp only [degradeTo_foot, List.append_subset, List.cons_subset, List.nil_subset, and_true, and_assoc] at hF
  obtain ⟨_, _, _, _, _⟩ := hF
  unfold degradeTo
  repeat' first
    | with_reducible
        first
        | intro _ | exact changeLanes_within ‹_› .. | exact settleTimebase_within ‹_› .. | exact send_within ‹_› ..
        | exact within_pure _ | exact within_ask _ | exact within_setF _ _ _ _ ‹_› | exact within_raise _ _ _ ‹_›
        | refine within_bind ?_ fun _ => ?_ | refine within_each _ _ fun _ => ?_ | split | dsimp only

def settleLanes_foot : Foot := failPort_foot ++ (send_foot ++ (sendControlFlit_foot ++ degradeTo_foot))
theorem settleLanes_within {F : Foot} (hF : settleLanes_foot ⊆ F) (p : Nat) : Within F (settleLanes p : Act s₀ Unit) := by
  simp only [settleLanes_foot, List.append_subset] at hF
  obtain ⟨_, _, _, _⟩ := hF
  unfold settleLanes
  repeat' first
    | with_reducible
        first
        | intro _ | exact failPort_within ‹_› .. | exact send_within ‹_› .. | exact sendControlFlit_within ‹_› ..
        | exact degradeTo_within ‹_› .. | exact within_pure _ | exact within_now | refine within_bind ?_ fun _ => ?_
        | refine within_ite ?_ ?_ | split | dsimp only

def actDegradeWindowEnd_foot : Foot := [.fld LINK_LANE_CE_COUNT, .fld LINK_LANE_UE_COUNT] ++ (riskLink_foot ++ (withPort_foot ++ settleLanes_foot))
theorem actDegradeWindowEnd_within {F : Foot} (hF : actDegradeWindowEnd_foot ⊆ F) (p : Nat) (ce ue : List Nat) : Within F (actDegradeWindowEnd p ce ue : Act s₀ Unit) := by
  simp only [actDegradeWindowEnd_foot, List.append_subset, List.cons_subset, List.nil_subset, and_true, and_assoc] at hF
  obtain ⟨_, _, _, _, _⟩ := hF
  unfold actDegradeWindowEnd
  repeat' first
    | with_reducible
        first
        | intro _ | exact riskLink_within ‹_› .. | exact withPort_within ‹_› .. | exact settleLanes_within ‹_› ..
        | exact within_pure _ | exact within_now | exact within_countUp _ _ _ _ ‹_›
        | refine within_bind ?_ fun _ => ?_ | refine within_ite ?_ ?_ | refine within_each _ _ fun _ => ?_ | split
        | dsimp only

def startTraining_foot : Foot := [.fld LINK_CTL_RETRAIN, .fld LINK_STATUS_STATE, .fld LINK_STATUS_LANES_UP, .fld LINK_STATUS_LANE_SET, .fld LINK_STATUS_WIDTH, .fld LINK_STATUS_REVERSED] ++ withPort_foot
theorem startTraining_within {F : Foot} (hF : startTraining_foot ⊆ F) (p : Nat) : Within F (startTraining p : Act s₀ Unit) := by
  simp only [startTraining_foot, List.append_subset, List.cons_subset, List.nil_subset, and_true, and_assoc] at hF
  obtain ⟨_, _, _, _, _, _, _⟩ := hF
  unfold startTraining
  repeat' first
    | with_reducible
        first
        | intro _ | exact withPort_within ‹_› .. | exact within_pure _ | exact within_now
        | exact within_setF _ _ _ _ ‹_› | refine within_bind ?_ fun _ => ?_ | refine within_ite ?_ ?_ | split
        | dsimp only

def portDown_foot : Foot := [.fld LINK_STATUS_STATE, .fld LINK_STATUS_LANES_UP, .fld LINK_STATUS_LANE_SET, .fld LINK_STATUS_WIDTH] ++ withPort_foot
theorem portDown_within {F : Foot} (hF : portDown_foot ⊆ F) (p : Nat) : Within F (portDown p : Act s₀ Unit) := by
  simp only [portDown_foot, List.append_subset, List.cons_subset, List.nil_subset, and_true, and_assoc] at hF
  obtain ⟨_, _, _, _, _⟩ := hF
  unfold portDown
  repeat' first
    | with_reducible
        first
        | intro _ | exact withPort_within ‹_› .. | exact within_pure _ | exact within_setF _ _ _ _ ‹_›
        | refine within_bind ?_ fun _ => ?_ | split | dsimp only

def hookLinkCtl_foot : Foot := [.fld LINK_CTL_RETRAIN] ++ (portDown_foot ++ (failPort_foot ++ (withPort_foot ++ startTraining_foot)))
theorem hookLinkCtl_within {F : Foot} (hF : hookLinkCtl_foot ⊆ F) {w : RegWrite} (hw : F.free w.addr) : Within F (hookLinkCtl w : Act s₀ Unit) := by
  simp only [hookLinkCtl_foot, List.append_subset, List.cons_subset, List.nil_subset, and_true] at hF
  obtain ⟨_, _, _, _, _⟩ := hF
  unfold hookLinkCtl
  repeat' first
    | with_reducible
        first
        | intro _ | exact portDown_within ‹_› .. | exact failPort_within ‹_› .. | exact withPort_within ‹_› ..
        | exact startTraining_within ‹_› .. | exact within_pure _ | exact within_now | exact within_raise _ _ _ ‹_›
        | exact within_emitReg _ _ _ _ ‹_› | exact within_emitAddr _ _ ‹_› | exact within_emitFree _ _ ‹_›
        | refine within_bind ?_ fun _ => ?_ | refine within_ite ?_ ?_ | split | dsimp only

def actPortIdleEnd_foot : Foot := withPort_foot ++ (portDown_foot ++ startTraining_foot)
theorem actPortIdleEnd_within {F : Foot} (hF : actPortIdleEnd_foot ⊆ F) (p : Nat) : Within F (actPortIdleEnd p : Act s₀ Unit) := by
  simp only [actPortIdleEnd_foot, List.append_subset] at hF
  obtain ⟨_, _, _⟩ := hF
  unfold actPortIdleEnd
  repeat' first
    | with_reducible
        first
        | intro _ | exact withPort_within ‹_› .. | exact portDown_within ‹_› .. | exact startTraining_within ‹_› ..
        | exact within_pure _ | exact within_now | refine within_bind ?_ fun _ => ?_ | refine within_ite ?_ ?_
        | split | dsimp only

def actLaneTrained_foot : Foot := [.fld LINK_STATUS_LANES_UP, .fld LINK_STATUS_STATE] ++ (withPort_foot ++ failPort_foot)
theorem actLaneTrained_within {F : Foot} (hF : actLaneTrained_foot ⊆ F) (p lane : Nat) (ok : Bool) : Within F (actLaneTrained p lane ok : Act s₀ Unit) := by
  simp only [actLaneTrained_foot, List.append_subset, List.cons_subset, List.nil_subset, and_true, and_assoc] at hF
  obtain ⟨_, _, _, _⟩ := hF
  unfold actLaneTrained
  repeat' first
    | with_reducible
        first
        | intro _ | exact withPort_within ‹_› .. | exact failPort_within ‹_› .. | exact within_pure _
        | exact within_now | exact within_setF _ _ _ _ ‹_› | refine within_bind ?_ fun _ => ?_
        | refine within_ite ?_ ?_ | split | dsimp only

def tellPeer_foot : Foot := withPort_foot ++ (send_foot ++ sendControlFlit_foot)
theorem tellPeer_within {F : Foot} (hF : tellPeer_foot ⊆ F) (p : Nat) : Within F (tellPeer p : Act s₀ Unit) := by
  simp only [tellPeer_foot, List.append_subset] at hF
  obtain ⟨_, _, _⟩ := hF
  unfold tellPeer
  repeat' first
    | with_reducible
        first
        | intro _ | exact withPort_within ‹_› .. | exact send_within ‹_› .. | exact sendControlFlit_within ‹_› ..
        | exact within_pure _ | exact within_now | refine within_bind ?_ fun _ => ?_ | refine within_ite ?_ ?_
        | split | dsimp only

def actLaneLockLoss_foot : Foot := [.fld LINK_STATUS_LANES_UP] ++ (withPort_foot ++ (settleLanes_foot ++ (failPort_foot ++ (changeLanes_foot ++ tellPeer_foot))))
theorem actLaneLockLoss_within {F : Foot} (hF : actLaneLockLoss_foot ⊆ F) (p : Nat) (lane : Nat) : Within F (actLaneLockLoss p lane : Act s₀ Unit) := by
  simp only [actLaneLockLoss_foot, List.append_subset, List.cons_subset, List.nil_subset, and_true] at hF
  obtain ⟨_, _, _, _, _, _⟩ := hF
  unfold actLaneLockLoss
  repeat' first
    | with_reducible
        first
        | intro _ | exact withPort_within ‹_› .. | exact settleLanes_within ‹_› .. | exact failPort_within ‹_› ..
        | exact changeLanes_within ‹_› .. | exact tellPeer_within ‹_› .. | exact within_pure _ | exact within_now
        | exact within_setF _ _ _ _ ‹_› | refine within_bind ?_ fun _ => ?_ | refine within_ite ?_ ?_ | split
        | dsimp only

def hookCollId_foot : Foot := tellPeer_foot
theorem hookCollId_within {F : Foot} (hF : hookCollId_foot ⊆ F) {w : RegWrite} (hw : F.free w.addr) : Within F (hookCollId w : Act s₀ Unit) := by
  simp only [hookCollId_foot] at hF
  unfold hookCollId
  repeat' first
    | with_reducible
        first
        | intro _ | exact plainHook_within ‹_› .. | exact tellPeer_within ‹_› .. | exact within_pure _
        | exact within_emitFree _ _ ‹_› | refine within_bind ?_ fun _ => ?_ | refine within_each _ _ fun _ => ?_
        | split | dsimp only

def actPortAligned_foot : Foot := [.fld LINK_STATUS_REVERSED, .fld LINK_CAL_TX_DELAY, .fld LINK_CAL_RX_DELAY] ++ (failPort_foot ++ (useLanes_foot ++ (withPort_foot ++ tellPeer_foot)))
theorem actPortAligned_within {F : Foot} (hF : actPortAligned_foot ⊆ F) (p : Nat) (reversed : Bool) (tx rx : Nat) : Within F (actPortAligned p reversed tx rx : Act s₀ Unit) := by
  simp only [actPortAligned_foot, List.append_subset, List.cons_subset, List.nil_subset, and_true, and_assoc] at hF
  obtain ⟨_, _, _, _, _, _, _⟩ := hF
  unfold actPortAligned
  repeat' first
    | with_reducible
        first
        | intro _ | exact failPort_within ‹_› .. | exact useLanes_within ‹_› .. | exact withPort_within ‹_› ..
        | exact tellPeer_within ‹_› .. | exact within_pure _ | exact within_now | exact within_setF _ _ _ _ ‹_›
        | refine within_bind ?_ fun _ => ?_ | refine within_ite ?_ ?_ | split | dsimp only

def grantCredits_foot : Foot := sendIdle_foot
theorem grantCredits_within {F : Foot} (hF : grantCredits_foot ⊆ F) (p vl cls : Nat) : ∀ x0 x1, Within F (grantCredits p vl cls x0 x1 : Act s₀ Unit)
  | 0, _ => by
    have hF0 := hF
    simp only [grantCredits_foot] at hF
    unfold grantCredits
    repeat' first
      | with_reducible
          first
          | exact grantCredits_within hF0 _ _ _ _ _ | intro _ | exact sendIdle_within ‹_› .. | exact within_pure _
          | refine within_bind ?_ fun _ => ?_ | refine within_ite ?_ ?_ | split | dsimp only
  | fuel + 1, n => by
    have hF0 := hF
    simp only [grantCredits_foot] at hF
    unfold grantCredits
    repeat' first
      | with_reducible
          first
          | exact grantCredits_within hF0 _ _ _ _ _ | intro _ | exact sendIdle_within ‹_› .. | exact within_pure _
          | refine within_bind ?_ fun _ => ?_ | refine within_ite ?_ ?_ | split | dsimp only

def activate_foot : Foot := [.fld LINK_STATUS_STATE, .fld LINK_CREDIT_RESERVE_USED, .fld LINK_CREDIT_POOL, .fld LINK_EVENT_CREDIT_CLAMP, .fld LINK_EVENT_RETRAINED] ++ (withPort_foot ++ (settleTimebase_foot ++ grantCredits_foot))
theorem activate_within {F : Foot} (hF : activate_foot ⊆ F) (p : Nat) : Within F (activate p : Act s₀ Unit) := by
  simp only [activate_foot, List.append_subset, List.cons_subset, List.nil_subset, and_true, and_assoc] at hF
  obtain ⟨_, _, _, _, _, _, _, _⟩ := hF
  unfold activate
  repeat' first
    | with_reducible
        first
        | intro _ | exact withPort_within ‹_› .. | exact settleTimebase_within ‹_› ..
        | exact grantCredits_within ‹_› .. | exact within_pure _ | exact within_now | exact within_setF _ _ _ _ ‹_›
        | exact within_raise _ _ _ ‹_› | refine within_bind ?_ fun _ => ?_ | refine within_ite ?_ ?_
        | refine within_each _ _ fun _ => ?_ | split | dsimp only

def actPeerInfoReceive_foot : Foot := [.fld LINK_PEER_MODULE, .fld LINK_PEER_PORT, .fld LINK_PEER_VALID, .fld LINK_PEER_CAL_TX_DELAY, .fld LINK_PEER_CAL_RX_DELAY, .fld LINK_EVENT_PEER_CHANGE] ++ (failPort_foot ++ (degradeTo_foot ++ (settleLanes_foot ++ (changeLanes_foot ++ activate_foot))))
theorem actPeerInfoReceive_within {F : Foot} (hF : actPeerInfoReceive_foot ⊆ F) (p mod peer lanes tx rx : Nat) : Within F (actPeerInfoReceive p mod peer lanes tx rx : Act s₀ Unit) := by
  simp only [actPeerInfoReceive_foot, List.append_subset, List.cons_subset, List.nil_subset, and_true, and_assoc] at hF
  obtain ⟨_, _, _, _, _, _, _, _, _, _, _⟩ := hF
  unfold actPeerInfoReceive
  repeat' first
    | with_reducible
        first
        | intro _ | exact failPort_within ‹_› .. | exact degradeTo_within ‹_› .. | exact settleLanes_within ‹_› ..
        | exact changeLanes_within ‹_› .. | exact activate_within ‹_› .. | exact within_pure _ | exact within_now
        | exact within_setF _ _ _ _ ‹_› | exact within_raise _ _ _ ‹_› | refine within_bind ?_ fun _ => ?_
        | refine within_ite ?_ ?_ | split | dsimp only

def takeAck_foot : Foot := withPort_foot ++ replayAll_foot
theorem takeAck_within {F : Foot} (hF : takeAck_foot ⊆ F) (p : Nat) (h : FlitHdr) : Within F (takeAck p h : Act s₀ Unit) := by
  simp only [takeAck_foot, List.append_subset] at hF
  obtain ⟨_, _⟩ := hF
  unfold takeAck
  repeat' first
    | with_reducible
        first
        | intro _ | exact withPort_within ‹_› .. | exact replayAll_within ‹_› .. | exact within_pure _
        | exact within_ask _ | refine within_bind ?_ fun _ => ?_ | refine within_ite ?_ ?_ | split | dsimp only

def takeCredit_foot : Foot := withPort_foot
theorem takeCredit_within {F : Foot} (hF : takeCredit_foot ⊆ F) (p : Nat) (h : FlitHdr) : Within F (takeCredit p h : Act s₀ Unit) := by
  simp only [takeCredit_foot] at hF
  unfold takeCredit
  repeat' first
    | with_reducible
        first
        | intro _ | exact withPort_within ‹_› .. | exact within_pure _ | refine within_bind ?_ fun _ => ?_ | split
        | dsimp only

def arrive_foot : Foot := giveCredits_foot ++ changeFab_foot
theorem arrive_within {F : Foot} (hF : arrive_foot ⊆ F) (p : Nat) (f : Frame) : Within F (arrive p f : Act s₀ Unit) := by
  simp only [arrive_foot, List.append_subset] at hF
  obtain ⟨_, _⟩ := hF
  unfold arrive
  repeat' first
    | with_reducible
        first
        | intro _ | exact giveCredits_within ‹_› .. | exact changeFab_within ‹_› .. | exact within_pure _
        | exact within_ask _ | refine within_bind ?_ fun _ => ?_ | refine within_ite ?_ ?_ | split | dsimp only

def takeChunks_foot : Foot := withPort_foot ++ arrive_foot
theorem takeChunks_within {F : Foot} (hF : takeChunks_foot ⊆ F) (p key : Nat) : ∀ x0, Within F (takeChunks p key x0 : Act s₀ Unit)
  | [] => by
    have hF0 := hF
    simp only [takeChunks_foot, List.append_subset] at hF
    obtain ⟨_, _⟩ := hF
    unfold takeChunks
    repeat' first
      | with_reducible
          first
          | exact takeChunks_within hF0 _ _ _ | intro _ | exact withPort_within ‹_› .. | exact arrive_within ‹_› ..
          | exact within_pure _ | exact within_ask _ | refine within_bind ?_ fun _ => ?_ | refine within_ite ?_ ?_
          | split | dsimp only
  | c :: cs => by
    have hF0 := hF
    simp only [takeChunks_foot, List.append_subset] at hF
    obtain ⟨_, _⟩ := hF
    unfold takeChunks
    repeat' first
      | with_reducible
          first
          | exact takeChunks_within hF0 _ _ _ | intro _ | exact withPort_within ‹_› .. | exact arrive_within ‹_› ..
          | exact within_pure _ | exact within_ask _ | refine within_bind ?_ fun _ => ?_ | refine within_ite ?_ ?_
          | split | dsimp only

def takeData_foot : Foot := takeChunks_foot
theorem takeData_within {F : Foot} (hF : takeData_foot ⊆ F) (p : Nat) (f : Flit) (h : FlitHdr) : Within F (takeData p f h : Act s₀ Unit) := by
  simp only [takeData_foot] at hF
  unfold takeData
  repeat' first
    | with_reducible
        first
        | intro _ | exact takeChunks_within ‹_› .. | exact within_pure _ | exact within_ask _
        | refine within_bind ?_ fun _ => ?_ | refine within_ite ?_ ?_ | split | dsimp only

def actFlitReceive_foot : Foot := uncore_foot ++ (withPort_foot ++ (sendIdle_foot ++ (takeAck_foot ++ (takeCredit_foot ++ (takeData_foot ++ pump_foot)))))
theorem actFlitReceive_within {F : Foot} (hF : actFlitReceive_foot ⊆ F) (p : Nat) (f : Flit) (fecBad : Bool) : Within F (actFlitReceive p f fecBad : Act s₀ Unit) := by
  simp only [actFlitReceive_foot, List.append_subset] at hF
  obtain ⟨_, _, _, _, _, _, _⟩ := hF
  unfold actFlitReceive
  repeat' first
    | with_reducible
        first
        | intro _ | exact uncore_within ‹_› .. | exact withPort_within ‹_› .. | exact sendIdle_within ‹_› ..
        | exact takeAck_within ‹_› .. | exact takeCredit_within ‹_› .. | exact takeData_within ‹_› ..
        | exact pump_within ‹_› .. | exact within_pure _ | exact within_now | refine within_bind ?_ fun _ => ?_
        | refine within_ite ?_ ?_ | split | dsimp only

def actReplayTimeout_foot : Foot := replayAll_foot
theorem actReplayTimeout_within {F : Foot} (hF : actReplayTimeout_foot ⊆ F) (p : Nat) : Within F (actReplayTimeout p : Act s₀ Unit) := by
  simp only [actReplayTimeout_foot] at hF
  unfold actReplayTimeout
  repeat' first
    | with_reducible
        first
        | intro _ | exact replayAll_within ‹_› .. | exact within_pure _ | exact within_now
        | refine within_bind ?_ fun _ => ?_ | refine within_ite ?_ ?_ | split | dsimp only

def actReasmTimeout_foot : Foot := dropPartial_foot
theorem actReasmTimeout_within {F : Foot} (hF : actReasmTimeout_foot ⊆ F) (p key : Nat) : Within F (actReasmTimeout p key : Act s₀ Unit) := by
  simp only [actReasmTimeout_foot] at hF
  unfold actReasmTimeout
  repeat' first
    | with_reducible
        first
        | intro _ | exact dropPartial_within ‹_› .. | exact within_pure _ | exact within_ask _
        | refine within_bind ?_ fun _ => ?_ | split | dsimp only

def actFrameForward_foot : Foot := changeFab_foot ++ sendOrNotice_foot
theorem actFrameForward_within {F : Foot} (hF : actFrameForward_foot ⊆ F) (p : Nat) : Within F (actFrameForward p : Act s₀ Unit) := by
  simp only [actFrameForward_foot, List.append_subset] at hF
  obtain ⟨_, _⟩ := hF
  unfold actFrameForward
  repeat' first
    | with_reducible
        first
        | intro _ | exact changeFab_within ‹_› .. | exact sendOrNotice_within ‹_› .. | exact within_pure _
        | exact within_now | refine within_bind ?_ fun _ => ?_ | split | dsimp only

end Sys2Proof.Machine
end

