-- ==== Sys2Proof/Laws/FootTimebase.lean ====
section
/-! SUPPORT. The footprints of the actions of Timebase. -/

namespace Sys2Proof.Machine

variable {s₀ : State}

def withTb_foot : Foot := [.part .tb]
theorem withTb_within {F : Foot} (hF : withTb_foot ⊆ F) (f : Timebase → Timebase) : Within F (withTb f : Act s₀ Unit) := by
  simp only [withTb_foot, List.cons_subset, List.nil_subset, and_true] at hF
  unfold withTb
  repeat' first
    | with_reducible
        first
        | intro _ | exact within_pure _ | refine within_bind ?_ fun _ => ?_ | split | dsimp only
    | exact within_change _ fun u p => by cases p <;> first | exact .inl rfl | exact .inr ‹_› | (refine .inl ?_; simp only [Part.same]; repeat' split) <;> rfl

def setTbState_foot : Foot := [.fld TB_STATUS_STATE, .fld TB_STATUS_EXCHANGES]
theorem setTbState_within {F : Foot} (hF : setTbState_foot ⊆ F) (n : Nat) : Within F (setTbState n : Act s₀ Unit) := by
  simp only [setTbState_foot, List.cons_subset, List.nil_subset, and_true] at hF
  obtain ⟨_, _⟩ := hF
  unfold setTbState
  repeat' first
    | with_reducible
        first
        | intro _ | exact within_pure _ | exact within_fld _ _ _ | exact within_setF _ _ _ _ ‹_›
        | refine within_bind ?_ fun _ => ?_ | refine within_ite ?_ ?_ | split | dsimp only

def stepCount_foot : Foot := [.fld TB_LAST_STEP_TICKS, .fld TB_EVENT_STEPPED, .fld TB_STATUS_EXCHANGES] ++ (withTb_foot ++ settleStamps_foot)
theorem stepCount_within {F : Foot} (hF : stepCount_foot ⊆ F) (d : Int) : Within F (stepCount d : Act s₀ Unit) := by
  simp only [stepCount_foot, List.append_subset, List.cons_subset, List.nil_subset, and_true, and_assoc] at hF
  obtain ⟨_, _, _, _, _⟩ := hF
  unfold stepCount
  repeat' first
    | with_reducible
        first
        | intro _ | exact withTb_within ‹_› .. | exact settleStamps_within ‹_› .. | exact within_pure _
        | exact within_freeIndex | exact within_setF _ _ _ _ ‹_› | exact within_raise _ _ _ ‹_›
        | refine within_bind ?_ fun _ => ?_ | refine within_ite ?_ ?_ | split | dsimp only

def actPllLock_foot : Foot := [.fld TB_STATUS_HOPS] ++ (withTb_foot ++ setTbState_foot)
theorem actPllLock_within {F : Foot} (hF : actPllLock_foot ⊆ F) : Within F (actPllLock : Act s₀ Unit) := by
  simp only [actPllLock_foot, List.append_subset, List.cons_subset, List.nil_subset, and_true] at hF
  obtain ⟨_, _, _⟩ := hF
  unfold actPllLock
  repeat' first
    | with_reducible
        first
        | intro _ | exact withTb_within ‹_› .. | exact setTbState_within ‹_› .. | exact within_pure _
        | exact within_now | exact within_setF _ _ _ _ ‹_› | refine within_bind ?_ fun _ => ?_
        | refine within_ite ?_ ?_ | split | dsimp only

def actPllUnlock_foot : Foot := [.fld TB_STATUS_HOPS, .fld TB_EVENT_PLL_UNLOCK] ++ (withTb_foot ++ (setTbState_foot ++ riskBump_foot))
theorem actPllUnlock_within {F : Foot} (hF : actPllUnlock_foot ⊆ F) : Within F (actPllUnlock : Act s₀ Unit) := by
  simp only [actPllUnlock_foot, List.append_subset, List.cons_subset, List.nil_subset, and_true, and_assoc] at hF
  obtain ⟨_, _, _, _, _⟩ := hF
  unfold actPllUnlock
  repeat' first
    | with_reducible
        first
        | intro _ | exact withTb_within ‹_› .. | exact request_within .. | exact setTbState_within ‹_› ..
        | exact riskBump_within ‹_› .. | exact within_pure _ | exact within_now | exact within_setF _ _ _ _ ‹_›
        | exact within_raise _ _ _ ‹_› | refine within_bind ?_ fun _ => ?_ | refine within_ite ?_ ?_ | split
        | dsimp only

def actTick_foot : Foot := withTb_foot ++ settleStamps_foot
theorem actTick_within {F : Foot} (hF : actTick_foot ⊆ F) : Within F (actTick : Act s₀ Unit) := by
  simp only [actTick_foot, List.append_subset] at hF
  obtain ⟨_, _⟩ := hF
  unfold actTick
  repeat' first
    | with_reducible
        first
        | intro _ | exact withTb_within ‹_› .. | exact settleStamps_within ‹_› .. | exact within_pure _
        | exact within_now | refine within_bind ?_ fun _ => ?_ | refine within_ite ?_ ?_ | split | dsimp only

def actTbBroadcast_foot : Foot := [.fld TB_EVENT_SKEW_ERR] ++ (withTb_foot ++ (riskBump_foot ++ settleStamps_foot))
theorem actTbBroadcast_within {F : Foot} (hF : actTbBroadcast_foot ⊆ F) (diffs : List (Nat × Int)) : Within F (actTbBroadcast diffs : Act s₀ Unit) := by
  simp only [actTbBroadcast_foot, List.append_subset, List.cons_subset, List.nil_subset, and_true] at hF
  obtain ⟨_, _, _, _⟩ := hF
  unfold actTbBroadcast
  repeat' first
    | with_reducible
        first
        | intro _ | exact withTb_within ‹_› .. | exact riskBump_within ‹_› .. | exact settleStamps_within ‹_› ..
        | exact within_pure _ | exact within_raise _ _ _ ‹_› | refine within_bind ?_ fun _ => ?_
        | refine within_ite ?_ ?_ | refine within_each _ _ fun _ => ?_ | split | dsimp only

def takeRole_foot : Foot := [.fld TB_STATUS_UP_IN_USE, .fld TB_STATUS_HOPS] ++ (withTb_foot ++ setTbState_foot)
theorem takeRole_within {F : Foot} (hF : takeRole_foot ⊆ F) (role : Nat) : Within F (takeRole role : Act s₀ Unit) := by
  simp only [takeRole_foot, List.append_subset, List.cons_subset, List.nil_subset, and_true, and_assoc] at hF
  obtain ⟨_, _, _, _⟩ := hF
  unfold takeRole
  repeat' first
    | with_reducible
        first
        | intro _ | exact withTb_within ‹_› .. | exact request_within .. | exact setTbState_within ‹_› ..
        | exact within_pure _ | exact within_now | exact within_setF _ _ _ _ ‹_› | refine within_bind ?_ fun _ => ?_
        | refine within_ite ?_ ?_ | split | dsimp only

def hookTbCtl_foot : Foot := [.reg TB_CAPTURE_VALUE] ++ (discardRecorded_foot ++ (takeRole_foot ++ stepCount_foot))
theorem hookTbCtl_within {F : Foot} (hF : hookTbCtl_foot ⊆ F) {w : RegWrite} (hw : F.free w.addr) : Within F (hookTbCtl w : Act s₀ Unit) := by
  simp only [hookTbCtl_foot, List.append_subset, List.cons_subset, List.nil_subset, and_true] at hF
  obtain ⟨_, _, _, _⟩ := hF
  unfold hookTbCtl
  repeat' first
    | with_reducible
        first
        | intro _ | exact discardRecorded_within ‹_› .. | exact takeRole_within ‹_› ..
        | exact stepCount_within ‹_› .. | exact within_pure _ | exact within_now | exact within_emitReg _ _ _ _ ‹_›
        | exact within_emitAddr _ _ ‹_› | exact within_emitFree _ _ ‹_› | refine within_bind ?_ fun _ => ?_
        | refine within_ite ?_ ?_ | split | dsimp only

def sendSync_foot : Foot := enqueue_foot
theorem sendSync_within {F : Foot} (hF : sendSync_foot ⊆ F) (p kind : Nat) (payload : Granule) (quarters : Nat) : Within F (sendSync p kind payload quarters : Act s₀ Unit) := by
  simp only [sendSync_foot] at hF
  unfold sendSync
  repeat' first
    | with_reducible
        first
        | intro _ | exact enqueue_within ‹_› .. | exact within_pure _ | exact within_now
        | refine within_bind ?_ fun _ => ?_ | refine within_ite ?_ ?_ | split | dsimp only

def switchPort_foot : Foot := [.fld TB_EVENT_PORT_SWITCH, .fld TB_STATUS_SETTLING] ++ withTb_foot
theorem switchPort_within {F : Foot} (hF : switchPort_foot ⊆ F) : Within F (switchPort : Act s₀ Unit) := by
  simp only [switchPort_foot, List.append_subset, List.cons_subset, List.nil_subset, and_true, and_assoc] at hF
  obtain ⟨_, _, _⟩ := hF
  unfold switchPort
  repeat' first
    | with_reducible
        first
        | intro _ | exact withTb_within ‹_› .. | exact within_pure _ | exact within_raise _ _ _ ‹_›
        | refine within_bind ?_ fun _ => ?_ | split | dsimp only

def actSyncRequestSend_foot : Foot := [.fld TB_STATUS_UP_IN_USE] ++ (withTb_foot ++ (switchPort_foot ++ sendSync_foot))
theorem actSyncRequestSend_within {F : Foot} (hF : actSyncRequestSend_foot ⊆ F) (f1 : Nat) : Within F (actSyncRequestSend f1 : Act s₀ Unit) := by
  simp only [actSyncRequestSend_foot, List.append_subset, List.cons_subset, List.nil_subset, and_true] at hF
  obtain ⟨_, _, _, _⟩ := hF
  unfold actSyncRequestSend
  repeat' first
    | with_reducible
        first
        | intro _ | exact withTb_within ‹_› .. | exact switchPort_within ‹_› .. | exact request_within ..
        | exact sendSync_within ‹_› .. | exact within_pure _ | exact within_now | exact within_setF _ _ _ _ ‹_›
        | refine within_bind ?_ fun _ => ?_ | refine within_ite ?_ ?_ | split | dsimp only

def takeArrived_foot : Foot := changeFab_foot ++ giveCredits_foot
theorem takeArrived_within {F : Foot} (hF : takeArrived_foot ⊆ F) (p : Option Nat) (kinds : List Nat) : Within F (takeArrived p kinds : Act s₀ (Option Arrived)) := by
  simp only [takeArrived_foot, List.append_subset] at hF
  obtain ⟨_, _⟩ := hF
  unfold takeArrived
  repeat' first
    | with_reducible
        first
        | intro _ | exact changeFab_within ‹_› .. | exact giveCredits_within ‹_› .. | exact within_pure _
        | exact within_now | refine within_bind ?_ fun _ => ?_ | split | dsimp only

def actSyncRequestReceive_foot : Foot := takeArrived_foot ++ sendSync_foot
theorem actSyncRequestReceive_within {F : Foot} (hF : actSyncRequestReceive_foot ⊆ F) (p : Nat) (f2 f3 : Nat) : Within F (actSyncRequestReceive p f2 f3 : Act s₀ Unit) := by
  simp only [actSyncRequestReceive_foot, List.append_subset] at hF
  obtain ⟨_, _⟩ := hF
  unfold actSyncRequestReceive
  repeat' first
    | with_reducible
        first
        | intro _ | exact takeArrived_within ‹_› .. | exact sendSync_within ‹_› .. | exact within_pure _
        | exact within_now | refine within_bind ?_ fun _ => ?_ | refine within_ite ?_ ?_ | split | dsimp only

def missExchange_foot : Foot := [.fld TB_EVENT_UP_LOST, .fld TB_STATUS_UP_IN_USE, .fld TB_EVENT_HOLDOVER] ++ (withTb_foot ++ (switchPort_foot ++ (setTbState_foot ++ riskBump_foot)))
theorem missExchange_within {F : Foot} (hF : missExchange_foot ⊆ F) : Within F (missExchange : Act s₀ Unit) := by
  simp only [missExchange_foot, List.append_subset, List.cons_subset, List.nil_subset, and_true, and_assoc] at hF
  obtain ⟨_, _, _, _, _, _, _⟩ := hF
  unfold missExchange
  repeat' first
    | with_reducible
        first
        | intro _ | exact withTb_within ‹_› .. | exact request_within .. | exact switchPort_within ‹_› ..
        | exact setTbState_within ‹_› .. | exact riskBump_within ‹_› .. | exact within_pure _ | exact within_now
        | exact within_setF _ _ _ _ ‹_› | exact within_raise _ _ _ ‹_› | refine within_bind ?_ fun _ => ?_
        | refine within_ite ?_ ?_ | split | dsimp only

def actSyncResponseMissed_foot : Foot := missExchange_foot
theorem actSyncResponseMissed_within {F : Foot} (hF : actSyncResponseMissed_foot ⊆ F) : Within F (actSyncResponseMissed : Act s₀ Unit) := by
  simp only [actSyncResponseMissed_foot] at hF
  unfold actSyncResponseMissed
  repeat' first
    | with_reducible
        first
        | intro _ | exact missExchange_within ‹_› .. | exact within_pure _ | exact within_now
        | refine within_bind ?_ fun _ => ?_ | refine within_ite ?_ ?_ | split | dsimp only

def servo_foot : Foot := [.fld TB_FREQ_FREQ] ++ withTb_foot
theorem servo_within {F : Foot} (hF : servo_foot ⊆ F) (th : Int) (p : Nat) : Within F (servo th p : Act s₀ Unit) := by
  simp only [servo_foot, List.append_subset, List.cons_subset, List.nil_subset, and_true] at hF
  obtain ⟨_, _⟩ := hF
  unfold servo
  repeat' first
    | with_reducible
        first
        | intro _ | exact withTb_within ‹_› .. | exact within_pure _ | exact within_ask _
        | exact within_setF _ _ _ _ ‹_› | refine within_bind ?_ fun _ => ?_ | split | dsimp only

def takeOffset_foot : Foot := [.fld TB_STATUS_SETTLING] ++ (stepCount_foot ++ (withTb_foot ++ (setTbState_foot ++ servo_foot)))
theorem takeOffset_within {F : Foot} (hF : takeOffset_foot ⊆ F) (th : Int) : Within F (takeOffset th : Act s₀ Unit) := by
  simp only [takeOffset_foot, List.append_subset, List.cons_subset, List.nil_subset, and_true] at hF
  obtain ⟨_, _, _, _, _⟩ := hF
  unfold takeOffset
  repeat' first
    | with_reducible
        first
        | intro _ | exact stepCount_within ‹_› .. | exact withTb_within ‹_› .. | exact setTbState_within ‹_› ..
        | exact servo_within ‹_› .. | exact within_pure _ | exact within_now | exact within_setF _ _ _ _ ‹_›
        | exact within_raise _ _ _ ‹_› | refine within_bind ?_ fun _ => ?_ | refine within_ite ?_ ?_ | split
        | dsimp only

def actSyncResponseReceive_foot : Foot := [.fld TB_DELAY_D, .fld TB_OFFSET_THETA, .fld TB_STATUS_HOPS, .fld TB_STATUS_EXCHANGES] ++ (takeArrived_foot ++ (missExchange_foot ++ (withTb_foot ++ takeOffset_foot)))
theorem actSyncResponseReceive_within {F : Foot} (hF : actSyncResponseReceive_foot ⊆ F) (p : Nat) (f4 : Nat) (replayed : Bool) : Within F (actSyncResponseReceive p f4 replayed : Act s₀ Unit) := by
  simp only [actSyncResponseReceive_foot, List.append_subset, List.cons_subset, List.nil_subset, and_true, and_assoc] at hF
  obtain ⟨_, _, _, _, _, _, _, _⟩ := hF
  unfold actSyncResponseReceive
  repeat' first
    | with_reducible
        first
        | intro _ | exact takeArrived_within ‹_› .. | exact missExchange_within ‹_› .. | exact withTb_within ‹_› ..
        | exact request_within .. | exact takeOffset_within ‹_› .. | exact within_pure _ | exact within_now
        | exact within_setF _ _ _ _ ‹_› | exact within_countUp _ _ _ _ ‹_› | refine within_bind ?_ fun _ => ?_
        | refine within_ite ?_ ?_ | split | dsimp only

def hookTbSync_foot : Foot := withTb_foot
theorem hookTbSync_within {F : Foot} (hF : hookTbSync_foot ⊆ F) {w : RegWrite} (hw : F.free w.addr) : Within F (hookTbSync w : Act s₀ Unit) := by
  simp only [hookTbSync_foot] at hF
  unfold hookTbSync
  repeat' first
    | with_reducible
        first
        | intro _ | exact plainHook_within ‹_› .. | exact withTb_within ‹_› .. | exact within_pure _
        | exact within_now | exact within_emitFree _ _ ‹_› | refine within_bind ?_ fun _ => ?_ | split | dsimp only

def actStampReached_foot : Foot := changeRings_foot
theorem actStampReached_within {F : Foot} (hF : actStampReached_foot ⊆ F) (target lc : Nat) : Within F (actStampReached target lc : Act s₀ Unit) := by
  simp only [actStampReached_foot] at hF
  unfold actStampReached
  repeat' first
    | with_reducible
        first
        | intro _ | exact changeRings_within ‹_› .. | exact within_pure _ | exact within_now
        | refine within_bind ?_ fun _ => ?_ | refine within_ite ?_ ?_ | split | dsimp only

end Sys2Proof.Machine
end

