-- ==== Sys2Proof/Laws/FootPrepare.lean ====
section
/-! SUPPORT. The footprints of the actions of Prepare. -/

namespace Sys2Proof.Machine

variable {s₀ : State}

theorem failWith_within {F : Foot} {α : Type} (st : Status) (detail : Nat) : WithinP F (failWith st detail : Prep s₀ α) := by
  unfold failWith
  repeat' first
    | with_reducible
        first
        | intro _ | exact arises_within .. | exact within_pure _ | exact withinW_pure _ | exact withinW_get
        | exact withinW_set _ | exact withinW_modify _ | exact withinW_modifyGet _ | exact withinP_pure _
        | exact withinP_failure | refine within_bind ?_ fun _ => ?_ | refine withinW_doing ?_
        | refine withinW_bind ?_ fun _ => ?_ | refine withinW_forIn _ _ _ fun _ _ => ?_ | refine withinW_map _ ?_
        | refine withinP_lift ?_ | refine withinP_bind ?_ fun _ => ?_ | refine withinP_forIn _ _ _ fun _ _ => ?_
        | refine withinP_map _ ?_ | split | dsimp only

theorem check_within {F : Foot} (st : Status) (detail : Nat) (ok : Bool) : WithinP F (check st detail ok : Prep s₀ Unit) := by
  unfold check
  repeat' first
    | with_reducible
        first
        | intro _ | exact arises_within .. | exact within_pure _ | exact withinW_pure _ | exact withinW_get
        | exact withinW_set _ | exact withinW_modify _ | exact withinW_modifyGet _ | exact withinP_pure _
        | exact withinP_failure | refine within_bind ?_ fun _ => ?_ | refine withinP_ite ?_ ?_
        | refine withinW_doing ?_ | refine withinW_bind ?_ fun _ => ?_ | refine withinW_forIn _ _ _ fun _ _ => ?_
        | refine withinW_map _ ?_ | refine withinP_lift ?_ | refine withinP_bind ?_ fun _ => ?_
        | refine withinP_forIn _ _ _ fun _ _ => ?_ | refine withinP_map _ ?_ | split | dsimp only

theorem malformed_within {F : Foot} {α : Type} : WithinP F (malformed : Prep s₀ α) := by
  unfold malformed
  repeat' first
    | with_reducible
        first
        | intro _ | exact failWith_within .. | exact within_pure _ | exact withinW_pure _ | exact withinW_get
        | exact withinW_set _ | exact withinW_modify _ | exact withinW_modifyGet _ | exact withinP_pure _
        | exact withinP_failure | refine within_bind ?_ fun _ => ?_ | refine withinW_doing ?_
        | refine withinW_bind ?_ fun _ => ?_ | refine withinW_forIn _ _ _ fun _ _ => ?_ | refine withinW_map _ ?_
        | refine withinP_lift ?_ | refine withinP_bind ?_ fun _ => ?_ | refine withinP_forIn _ _ _ fun _ _ => ?_
        | refine withinP_map _ ?_ | split | dsimp only

theorem demand_within {F : Foot} (ok : Bool) : WithinP F (demand ok : Prep s₀ Unit) := by
  unfold demand
  repeat' first
    | with_reducible
        first
        | intro _ | exact check_within .. | exact within_pure _ | exact withinW_pure _ | exact withinW_get
        | exact withinW_set _ | exact withinW_modify _ | exact withinW_modifyGet _ | exact withinP_pure _
        | exact withinP_failure | refine within_bind ?_ fun _ => ?_ | refine withinW_doing ?_
        | refine withinW_bind ?_ fun _ => ?_ | refine withinW_forIn _ _ _ fun _ _ => ?_ | refine withinW_map _ ?_
        | refine withinP_lift ?_ | refine withinP_bind ?_ fun _ => ?_ | refine withinP_forIn _ _ _ fun _ _ => ?_
        | refine withinP_map _ ?_ | split | dsimp only

theorem permit_within {F : Foot} (ok : Bool) : WithinP F (permit ok : Prep s₀ Unit) := by
  unfold permit
  repeat' first
    | with_reducible
        first
        | intro _ | exact check_within .. | exact within_pure _ | exact withinW_pure _ | exact withinW_get
        | exact withinW_set _ | exact withinW_modify _ | exact withinW_modifyGet _ | exact withinP_pure _
        | exact withinP_failure | refine within_bind ?_ fun _ => ?_ | refine withinW_doing ?_
        | refine withinW_bind ?_ fun _ => ?_ | refine withinW_forIn _ _ _ fun _ _ => ?_ | refine withinW_map _ ?_
        | refine withinP_lift ?_ | refine withinP_bind ?_ fun _ => ?_ | refine withinP_forIn _ _ _ fun _ _ => ?_
        | refine withinP_map _ ?_ | split | dsimp only

theorem attempt_within {F : Foot} {α : Type} {p : Prep s₀ α} (h : WithinP F p) : WithinP F (attempt p) :=
  withinP_lift (withinP_run h)

theorem sound_within {F : Foot} : WithinP F (sound : Prep s₀ Unit) := by
  unfold sound
  repeat' first
    | with_reducible
        first
        | intro _ | exact within_pure _ | exact withinW_pure _ | exact withinW_get | exact withinW_set _
        | exact withinW_modify _ | exact withinW_modifyGet _ | exact withinP_pure _ | exact withinP_failure
        | refine within_bind ?_ fun _ => ?_ | refine withinP_ite ?_ ?_ | refine withinW_doing ?_
        | refine withinW_bind ?_ fun _ => ?_ | refine withinW_forIn _ _ _ fun _ _ => ?_ | refine withinW_map _ ?_
        | refine withinP_lift ?_ | refine withinP_bind ?_ fun _ => ?_ | refine withinP_forIn _ _ _ fun _ _ => ?_
        | refine withinP_map _ ?_ | split | dsimp only

def readBlock_foot : Foot := readWhole_foot
theorem readBlock_within {F : Foot} (hF : readBlock_foot ⊆ F) (a n : Nat) : WithinP F (readBlock a n : Prep s₀ Nat) := by
  simp only [readBlock_foot] at hF
  unfold readBlock
  repeat' first
    | with_reducible
        first
        | intro _ | exact readWhole_within ‹_› .. | exact within_pure _ | exact withinW_pure _ | exact withinW_get
        | exact withinW_set _ | exact withinW_modify _ | exact withinW_modifyGet _ | exact withinP_pure _
        | exact withinP_failure | refine within_bind ?_ fun _ => ?_ | refine withinW_doing ?_
        | refine withinW_bind ?_ fun _ => ?_ | refine withinW_forIn _ _ _ fun _ _ => ?_ | refine withinW_map _ ?_
        | refine withinP_lift ?_ | refine withinP_bind ?_ fun _ => ?_ | refine withinP_forIn _ _ _ fun _ _ => ?_
        | refine withinP_map _ ?_ | split | dsimp only

def readRef_foot : Foot := readBlock_foot
theorem readRef_within {F : Foot} (hF : readRef_foot ⊆ F) (ref : Nat) : WithinP F (readRef ref : Prep s₀ Nat) := by
  simp only [readRef_foot] at hF
  unfold readRef
  repeat' first
    | with_reducible
        first
        | intro _ | exact readBlock_within ‹_› .. | exact malformed_within .. | exact within_pure _
        | exact withinW_pure _ | exact withinW_get | exact withinW_set _ | exact withinW_modify _
        | exact withinW_modifyGet _ | exact withinP_pure _ | exact withinP_failure
        | refine within_bind ?_ fun _ => ?_ | refine withinP_ite ?_ ?_ | refine withinW_doing ?_
        | refine withinW_bind ?_ fun _ => ?_ | refine withinW_forIn _ _ _ fun _ _ => ?_ | refine withinW_map _ ?_
        | refine withinP_lift ?_ | refine withinP_bind ?_ fun _ => ?_ | refine withinP_forIn _ _ _ fun _ _ => ?_
        | refine withinP_map _ ?_ | split | dsimp only

theorem tensorOf_within {F : Foot} (rec : Nat) : WithinP F (tensorOf rec : Prep s₀ Tensor) := by
  unfold tensorOf
  repeat' first
    | with_reducible
        first
        | intro _ | exact malformed_within .. | exact within_pure _ | exact withinW_pure _ | exact withinW_get
        | exact withinW_set _ | exact withinW_modify _ | exact withinW_modifyGet _ | exact withinP_pure _
        | exact withinP_failure | refine within_bind ?_ fun _ => ?_ | refine withinW_doing ?_
        | refine withinW_bind ?_ fun _ => ?_ | refine withinW_forIn _ _ _ fun _ _ => ?_ | refine withinW_map _ ?_
        | refine withinP_lift ?_ | refine withinP_bind ?_ fun _ => ?_ | refine withinP_forIn _ _ _ fun _ _ => ?_
        | refine withinP_map _ ?_ | split | dsimp only

def readTensors_foot : Foot := readRef_foot
theorem readTensors_within {F : Foot} (hF : readTensors_foot ⊆ F) : ∀ x0, WithinP F (readTensors x0 : Prep s₀ (List (Nat × Tensor)))
  | [] => by
    have hF0 := hF
    simp only [readTensors_foot] at hF
    unfold readTensors
    repeat' first
      | with_reducible
          first
          | exact readTensors_within hF0 _ | intro _ | exact readRef_within ‹_› .. | exact tensorOf_within ..
          | exact within_pure _ | exact withinW_pure _ | exact withinW_get | exact withinW_set _
          | exact withinW_modify _ | exact withinW_modifyGet _ | exact withinP_pure _ | exact withinP_failure
          | refine within_bind ?_ fun _ => ?_ | refine withinW_doing ?_ | refine withinW_bind ?_ fun _ => ?_
          | refine withinW_forIn _ _ _ fun _ _ => ?_ | refine withinW_map _ ?_ | refine withinP_lift ?_
          | refine withinP_bind ?_ fun _ => ?_ | refine withinP_forIn _ _ _ fun _ _ => ?_ | refine withinP_map _ ?_
          | refine withinP_run ?_ | split | dsimp only
  | ref :: refs => by
    have hF0 := hF
    simp only [readTensors_foot] at hF
    unfold readTensors
    repeat' first
      | with_reducible
          first
          | exact readTensors_within hF0 _ | intro _ | exact readRef_within ‹_› .. | exact tensorOf_within ..
          | exact within_pure _ | exact withinW_pure _ | exact withinW_get | exact withinW_set _
          | exact withinW_modify _ | exact withinW_modifyGet _ | exact withinP_pure _ | exact withinP_failure
          | refine within_bind ?_ fun _ => ?_ | refine withinW_doing ?_ | refine withinW_bind ?_ fun _ => ?_
          | refine withinW_forIn _ _ _ fun _ _ => ?_ | refine withinW_map _ ?_ | refine withinP_lift ?_
          | refine withinP_bind ?_ fun _ => ?_ | refine withinP_forIn _ _ _ fun _ _ => ?_ | refine withinP_map _ ?_
          | refine withinP_run ?_ | split | dsimp only

theorem permitTensor_within {F : Foot} (t : Tensor) (write : Bool) : WithinP F (permitTensor t write : Prep s₀ Unit) := by
  unfold permitTensor
  repeat' first
    | with_reducible
        first
        | intro _ | exact permit_within .. | exact within_pure _ | exact within_now | exact withinW_pure _
        | exact withinW_get | exact withinW_set _ | exact withinW_modify _ | exact withinW_modifyGet _
        | exact withinP_pure _ | exact withinP_failure | refine within_bind ?_ fun _ => ?_ | refine withinW_doing ?_
        | refine withinW_bind ?_ fun _ => ?_ | refine withinW_forIn _ _ _ fun _ _ => ?_ | refine withinW_map _ ?_
        | refine withinP_lift ?_ | refine withinP_bind ?_ fun _ => ?_ | refine withinP_forIn _ _ _ fun _ _ => ?_
        | refine withinP_map _ ?_ | split | dsimp only

theorem permitBytes_within {F : Foot} (lo hi : Nat) : WithinP F (permitBytes lo hi : Prep s₀ Unit) := by
  unfold permitBytes
  repeat' first
    | with_reducible
        first
        | intro _ | exact permit_within .. | exact within_pure _ | exact within_now | exact withinW_pure _
        | exact withinW_get | exact withinW_set _ | exact withinW_modify _ | exact withinW_modifyGet _
        | exact withinP_pure _ | exact withinP_failure | refine within_bind ?_ fun _ => ?_ | refine withinW_doing ?_
        | refine withinW_bind ?_ fun _ => ?_ | refine withinW_forIn _ _ _ fun _ _ => ?_ | refine withinW_map _ ?_
        | refine withinP_lift ?_ | refine withinP_bind ?_ fun _ => ?_ | refine withinP_forIn _ _ _ fun _ _ => ?_
        | refine withinP_map _ ?_ | split | dsimp only

theorem permitCounter_within {F : Foot} (base : Nat) (ac : Option Nat) : WithinP F (permitCounter base ac : Prep s₀ Unit) := by
  unfold permitCounter
  repeat' first
    | with_reducible
        first
        | intro _ | exact permit_within .. | exact within_pure _ | exact within_now | exact withinW_pure _
        | exact withinW_get | exact withinW_set _ | exact withinW_modify _ | exact withinW_modifyGet _
        | exact withinP_pure _ | exact withinP_failure | refine within_bind ?_ fun _ => ?_ | refine withinW_doing ?_
        | refine withinW_bind ?_ fun _ => ?_ | refine withinW_forIn _ _ _ fun _ _ => ?_ | refine withinW_map _ ?_
        | refine withinP_lift ?_ | refine withinP_bind ?_ fun _ => ?_ | refine withinP_forIn _ _ _ fun _ _ => ?_
        | refine withinP_map _ ?_ | split | dsimp only

def readRaws_foot : Foot := getRaw_foot
theorem readRaws_within {F : Foot} (hF : readRaws_foot ⊆ F) (t : Tensor) (z : Nat) : ∀ x0, WithinW F (readRaws t z x0 : Work s₀ (List (Nat × Nat)))
  | [] => by
    have hF0 := hF
    simp only [readRaws_foot] at hF
    unfold readRaws
    repeat' first
      | with_reducible
          first
          | exact readRaws_within hF0 _ _ _ | intro _ | exact getRaw_within ‹_› .. | exact within_pure _
          | exact withinW_pure _ | exact withinW_get | exact withinW_set _ | exact withinW_modify _
          | exact withinW_modifyGet _ | refine within_bind ?_ fun _ => ?_ | refine withinW_ite ?_ ?_
          | refine withinW_doing ?_ | refine withinW_bind ?_ fun _ => ?_ | refine withinW_forIn _ _ _ fun _ _ => ?_
          | refine withinW_map _ ?_ | split | dsimp only
  | j :: js => by
    have hF0 := hF
    simp only [readRaws_foot] at hF
    unfold readRaws
    repeat' first
      | with_reducible
          first
          | exact readRaws_within hF0 _ _ _ | intro _ | exact getRaw_within ‹_› .. | exact within_pure _
          | exact withinW_pure _ | exact withinW_get | exact withinW_set _ | exact withinW_modify _
          | exact withinW_modifyGet _ | refine within_bind ?_ fun _ => ?_ | refine withinW_ite ?_ ?_
          | refine withinW_doing ?_ | refine withinW_bind ?_ fun _ => ?_ | refine withinW_forIn _ _ _ fun _ _ => ?_
          | refine withinW_map _ ?_ | split | dsimp only

def readStream_foot : Foot := readRaws_foot ++ (endStream_foot ++ fetch_foot)
theorem readStream_within {F : Foot} (hF : readStream_foot ⊆ F) (t : Tensor) (js : List (Option (List Nat))) : WithinW F (readStream t js : Work s₀ (List (Nat × Nat))) := by
  simp only [readStream_foot, List.append_subset] at hF
  obtain ⟨_, _, _⟩ := hF
  unfold readStream
  repeat' first
    | with_reducible
        first
        | intro _ | exact readRaws_within ‹_› .. | exact endStream_within ‹_› .. | exact fetch_within ‹_› ..
        | exact within_pure _ | exact withinW_pure _ | exact withinW_get | exact withinW_set _
        | exact withinW_modify _ | exact withinW_modifyGet _ | refine within_bind ?_ fun _ => ?_
        | refine withinW_ite ?_ ?_ | refine within_forIn _ _ _ fun _ _ => ?_ | refine withinW_doing ?_
        | refine withinW_bind ?_ fun _ => ?_ | refine withinW_forIn _ _ _ fun _ _ => ?_ | refine withinW_map _ ?_
        | split | dsimp only

end Sys2Proof.Machine
end

