-- ==== Sys2Proof/Laws/FootCopyUnit.lean ====
section
/-! SUPPORT. The footprints of the actions of CopyUnit. -/

namespace Sys2Proof.Machine

variable {s₀ : State}

theorem permitGranules_within {F : Foot} (t first n : Nat) : WithinP F (permitGranules t first n : Prep s₀ Unit) := by
  unfold permitGranules
  repeat' first
    | with_reducible
        first
        | intro _ | exact permitBytes_within .. | exact within_pure _ | exact withinW_pure _ | exact withinW_get
        | exact withinW_set _ | exact withinW_modify _ | exact withinW_modifyGet _ | exact withinP_pure _
        | exact withinP_failure | refine within_bind ?_ fun _ => ?_ | refine withinP_ite ?_ ?_
        | refine withinW_doing ?_ | refine withinW_bind ?_ fun _ => ?_ | refine withinW_forIn _ _ _ fun _ _ => ?_
        | refine withinW_map _ ?_ | refine withinP_lift ?_ | refine withinP_bind ?_ fun _ => ?_
        | refine withinP_forIn _ _ _ fun _ _ => ?_ | refine withinP_map _ ?_ | split | dsimp only

theorem prepPal_within {F : Foot} (fill : Bool) (t : Nat) (w : Descriptor) : WithinP F (prepPal fill t w : Prep s₀ (List Nat)) := by
  unfold prepPal
  repeat' first
    | with_reducible
        first
        | intro _ | exact demand_within .. | exact permitGranules_within .. | exact permitCounter_within ..
        | exact within_pure _ | exact withinW_pure _ | exact withinW_get | exact withinW_set _
        | exact withinW_modify _ | exact withinW_modifyGet _ | exact withinP_pure _ | exact withinP_failure
        | refine within_bind ?_ fun _ => ?_ | refine withinP_ite ?_ ?_ | refine withinW_doing ?_
        | refine withinW_bind ?_ fun _ => ?_ | refine withinW_forIn _ _ _ fun _ _ => ?_ | refine withinW_map _ ?_
        | refine withinP_lift ?_ | refine withinP_bind ?_ fun _ => ?_ | refine withinP_forIn _ _ _ fun _ _ => ?_
        | refine withinP_map _ ?_ | split | dsimp only

theorem noteGot_within {F : Foot} (e : Got) : WithinW F (noteGot e : Work s₀ Unit) := by
  unfold noteGot
  repeat' first
    | with_reducible
        first
        | intro _ | exact arises_within .. | exact within_pure _ | exact withinW_pure _ | exact withinW_get
        | exact withinW_set _ | exact withinW_modify _ | exact withinW_modifyGet _
        | refine within_bind ?_ fun _ => ?_ | refine withinW_ite ?_ ?_ | refine withinW_doing ?_
        | refine withinW_bind ?_ fun _ => ?_ | refine withinW_forIn _ _ _ fun _ _ => ?_ | refine withinW_map _ ?_
        | split | dsimp only

def palFillWork_foot : Foot := sendTo_foot
theorem palFillWork_within {F : Foot} (hF : palFillWork_foot ⊆ F) (t : Nat) (d : Slot) : WithinW F (palFillWork t d : Work s₀ Unit) := by
  simp only [palFillWork_foot] at hF
  unfold palFillWork
  repeat' first
    | with_reducible
        first
        | intro _ | exact noteGot_within .. | exact sendTo_within ‹_› .. | exact within_pure _ | exact withinW_pure _
        | exact withinW_get | exact withinW_set _ | exact withinW_modify _ | exact withinW_modifyGet _
        | refine within_bind ?_ fun _ => ?_ | refine withinW_ite ?_ ?_ | refine within_forIn _ _ _ fun _ _ => ?_
        | refine withinW_doing ?_ | refine withinW_bind ?_ fun _ => ?_ | refine withinW_forIn _ _ _ fun _ _ => ?_
        | refine withinW_map _ ?_ | split | dsimp only

def palSet_foot : Foot := readFrom_foot
theorem palSet_within {F : Foot} (hF : palSet_foot ⊆ F) : ∀ x0 x1, WithinW F (palSet x0 x1 : Work s₀ (List (Granule × Bool)))
  | _, [] => by
    have hF0 := hF
    simp only [palSet_foot] at hF
    unfold palSet
    repeat' first
      | with_reducible
          first
          | exact palSet_within hF0 _ _ | intro _ | exact readFrom_within ‹_› .. | exact noteGot_within ..
          | exact within_pure _ | exact within_now | exact withinW_pure _ | exact withinW_get | exact withinW_set _
          | exact withinW_modify _ | exact withinW_modifyGet _ | refine within_bind ?_ fun _ => ?_
          | refine withinW_ite ?_ ?_ | refine withinW_doing ?_ | refine withinW_bind ?_ fun _ => ?_
          | refine withinW_forIn _ _ _ fun _ _ => ?_ | refine withinW_map _ ?_ | split | dsimp only
  | seen, g :: gs => by
    have hF0 := hF
    simp only [palSet_foot] at hF
    unfold palSet
    repeat' first
      | with_reducible
          first
          | exact palSet_within hF0 _ _ | intro _ | exact readFrom_within ‹_› .. | exact noteGot_within ..
          | exact within_pure _ | exact within_now | exact withinW_pure _ | exact withinW_get | exact withinW_set _
          | exact withinW_modify _ | exact withinW_modifyGet _ | refine within_bind ?_ fun _ => ?_
          | refine withinW_ite ?_ ?_ | refine withinW_doing ?_ | refine withinW_bind ?_ fun _ => ?_
          | refine withinW_forIn _ _ _ fun _ _ => ?_ | refine withinW_map _ ?_ | split | dsimp only

def palSources_foot : Foot := palSet_foot ++ countSet_foot
theorem palSources_within {F : Foot} (hF : palSources_foot ⊆ F) : ∀ x0, WithinW F (palSources x0 : Work s₀ (List (Granule × Bool)))
  | [] => by
    have hF0 := hF
    simp only [palSources_foot, List.append_subset] at hF
    obtain ⟨_, _⟩ := hF
    unfold palSources
    repeat' first
      | with_reducible
          first
          | exact palSources_within hF0 _ | intro _ | exact palSet_within ‹_› .. | exact countSet_within ‹_› ..
          | exact within_pure _ | exact withinW_pure _ | exact withinW_get | exact withinW_set _
          | exact withinW_modify _ | exact withinW_modifyGet _ | refine within_bind ?_ fun _ => ?_
          | refine withinW_doing ?_ | refine withinW_bind ?_ fun _ => ?_ | refine withinW_forIn _ _ _ fun _ _ => ?_
          | refine withinW_map _ ?_ | split | dsimp only
  | gs :: rest => by
    have hF0 := hF
    simp only [palSources_foot, List.append_subset] at hF
    obtain ⟨_, _⟩ := hF
    unfold palSources
    repeat' first
      | with_reducible
          first
          | exact palSources_within hF0 _ | intro _ | exact palSet_within ‹_› .. | exact countSet_within ‹_› ..
          | exact within_pure _ | exact withinW_pure _ | exact withinW_get | exact withinW_set _
          | exact withinW_modify _ | exact withinW_modifyGet _ | refine within_bind ?_ fun _ => ?_
          | refine withinW_doing ?_ | refine withinW_bind ?_ fun _ => ?_ | refine withinW_forIn _ _ _ fun _ _ => ?_
          | refine withinW_map _ ?_ | split | dsimp only

def palCopyWork_foot : Foot := palSources_foot ++ (writePoisoned_foot ++ writeGranule_foot)
theorem palCopyWork_within {F : Foot} (hF : palCopyWork_foot ⊆ F) (t : Nat) (d : Slot) : WithinW F (palCopyWork t d : Work s₀ Unit) := by
  simp only [palCopyWork_foot, List.append_subset] at hF
  obtain ⟨_, _, _⟩ := hF
  unfold palCopyWork
  repeat' first
    | with_reducible
        first
        | intro _ | exact palSources_within ‹_› .. | exact useTag_within .. | exact noteGot_within ..
        | exact writePoisoned_within ‹_› .. | exact writeGranule_within ‹_› .. | exact within_pure _
        | exact withinW_pure _ | exact withinW_get | exact withinW_set _ | exact withinW_modify _
        | exact withinW_modifyGet _ | refine within_bind ?_ fun _ => ?_ | refine withinW_ite ?_ ?_
        | refine within_forIn _ _ _ fun _ _ => ?_ | refine withinW_doing ?_ | refine withinW_bind ?_ fun _ => ?_
        | refine withinW_forIn _ _ _ fun _ _ => ?_ | refine withinW_map _ ?_ | split | dsimp only

theorem putRawVisit_within {F : Foot} (t : Tensor) (blk : Int) (scale : Nat) (codes : List (Nat × Nat)) : WithinW F (putRawVisit t blk scale codes : Work s₀ Unit) := by
  unfold putRawVisit
  repeat' first
    | with_reducible
        first
        | intro _ | exact writeBits_within .. | exact padGroup_within .. | exact within_pure _ | exact withinW_pure _
        | exact withinW_get | exact withinW_set _ | exact withinW_modify _ | exact withinW_modifyGet _
        | refine within_bind ?_ fun _ => ?_ | refine within_forIn _ _ _ fun _ _ => ?_ | refine withinW_doing ?_
        | refine withinW_bind ?_ fun _ => ?_ | refine withinW_forIn _ _ _ fun _ _ => ?_ | refine withinW_map _ ?_
        | split | dsimp only

theorem putMoves_within {F : Foot} (c : Conv) (src dst : Tensor) (ms : List Move) (aligned : Bool) (xs : List (Nat × Nat)) : WithinW F (putMoves c src dst ms aligned xs : Work s₀ Unit) := by
  unfold putMoves
  repeat' first
    | with_reducible
        first
        | intro _ | exact putRaw_within .. | exact putRawVisit_within .. | exact raiseFlags_within ..
        | exact putAll_within .. | exact within_pure _ | exact withinW_pure _ | exact withinW_get
        | exact withinW_set _ | exact withinW_modify _ | exact withinW_modifyGet _
        | refine within_bind ?_ fun _ => ?_ | refine withinW_ite ?_ ?_ | refine within_forIn _ _ _ fun _ _ => ?_
        | refine withinW_doing ?_ | refine withinW_bind ?_ fun _ => ?_ | refine withinW_forIn _ _ _ fun _ _ => ?_
        | refine withinW_map _ ?_ | split | dsimp only

def addFloats_foot : Foot := rawAt_foot
theorem addFloats_within {F : Foot} (hF : addFloats_foot ⊆ F) (c : Conv) (src dst : Tensor) : ∀ x0, WithinW F (addFloats c src dst x0 : Work s₀ Nat)
  | [] => by
    have hF0 := hF
    simp only [addFloats_foot] at hF
    unfold addFloats
    repeat' first
      | with_reducible
          first
          | exact addFloats_within hF0 _ _ _ _ | intro _ | exact rawAt_within ‹_› .. | exact raiseFlags_within ..
          | exact putElt_within .. | exact within_pure _ | exact withinW_pure _ | exact withinW_get
          | exact withinW_set _ | exact withinW_modify _ | exact withinW_modifyGet _
          | refine within_bind ?_ fun _ => ?_ | refine withinW_ite ?_ ?_ | refine withinW_doing ?_
          | refine withinW_bind ?_ fun _ => ?_ | refine withinW_forIn _ _ _ fun _ _ => ?_ | refine withinW_map _ ?_
          | split | dsimp only
  | (m, x) :: es => by
    have hF0 := hF
    simp only [addFloats_foot] at hF
    unfold addFloats
    repeat' first
      | with_reducible
          first
          | exact addFloats_within hF0 _ _ _ _ | intro _ | exact rawAt_within ‹_› .. | exact raiseFlags_within ..
          | exact putElt_within .. | exact within_pure _ | exact withinW_pure _ | exact withinW_get
          | exact withinW_set _ | exact withinW_modify _ | exact withinW_modifyGet _
          | refine within_bind ?_ fun _ => ?_ | refine withinW_ite ?_ ?_ | refine withinW_doing ?_
          | refine withinW_bind ?_ fun _ => ?_ | refine withinW_forIn _ _ _ fun _ _ => ?_ | refine withinW_map _ ?_
          | split | dsimp only

def addInts_foot : Foot := rawAt_foot
theorem addInts_within {F : Foot} (hF : addInts_foot ⊆ F) (c : Conv) (src dst : Tensor) : ∀ x0 x1, WithinW F (addInts c src dst x0 x1 : Work s₀ (List (Nat × Int) × Nat))
  | sums, [] => by
    have hF0 := hF
    simp only [addInts_foot] at hF
    unfold addInts
    repeat' first
      | with_reducible
          first
          | exact addInts_within hF0 _ _ _ _ _ | intro _ | exact rawAt_within ‹_› .. | exact raiseFlags_within ..
          | exact within_pure _ | exact withinW_pure _ | exact withinW_get | exact withinW_set _
          | exact withinW_modify _ | exact withinW_modifyGet _ | refine within_bind ?_ fun _ => ?_
          | refine withinW_ite ?_ ?_ | refine withinW_doing ?_ | refine withinW_bind ?_ fun _ => ?_
          | refine withinW_forIn _ _ _ fun _ _ => ?_ | refine withinW_map _ ?_ | split | dsimp only
  | sums, (m, x) :: es => by
    have hF0 := hF
    simp only [addInts_foot] at hF
    unfold addInts
    repeat' first
      | with_reducible
          first
          | exact addInts_within hF0 _ _ _ _ _ | intro _ | exact rawAt_within ‹_› .. | exact raiseFlags_within ..
          | exact within_pure _ | exact withinW_pure _ | exact withinW_get | exact withinW_set _
          | exact withinW_modify _ | exact withinW_modifyGet _ | refine within_bind ?_ fun _ => ?_
          | refine withinW_ite ?_ ?_ | refine withinW_doing ?_ | refine withinW_bind ?_ fun _ => ?_
          | refine withinW_forIn _ _ _ fun _ _ => ?_ | refine withinW_map _ ?_ | split | dsimp only

theorem putSums_within {F : Foot} (dst : Tensor) (sums : List (Nat × Int)) (ms : List Move) : WithinW F (putSums dst sums ms : Work s₀ Unit) := by
  unfold putSums
  repeat' first
    | with_reducible
        first
        | intro _ | exact raiseFlags_within .. | exact putRaw_within .. | exact within_pure _ | exact withinW_pure _
        | exact withinW_get | exact withinW_set _ | exact withinW_modify _ | exact withinW_modifyGet _
        | refine within_bind ?_ fun _ => ?_ | refine withinW_ite ?_ ?_ | refine within_forIn _ _ _ fun _ _ => ?_
        | refine withinW_doing ?_ | refine withinW_bind ?_ fun _ => ?_ | refine withinW_forIn _ _ _ fun _ _ => ?_
        | refine withinW_map _ ?_ | split | dsimp only

def putAdds_foot : Foot := addInts_foot ++ addFloats_foot
theorem putAdds_within {F : Foot} (hF : putAdds_foot ⊆ F) (c : Conv) (src dst : Tensor) (ms : List Move) (xs : List (Nat × Nat)) : WithinW F (putAdds c src dst ms xs : Work s₀ Unit) := by
  simp only [putAdds_foot, List.append_subset] at hF
  obtain ⟨_, _⟩ := hF
  unfold putAdds
  repeat' first
    | with_reducible
        first
        | intro _ | exact addInts_within ‹_› .. | exact putSums_within .. | exact addFloats_within ‹_› ..
        | exact within_pure _ | exact withinW_pure _ | exact withinW_get | exact withinW_set _
        | exact withinW_modify _ | exact withinW_modifyGet _ | refine within_bind ?_ fun _ => ?_
        | refine withinW_ite ?_ ?_ | refine withinW_doing ?_ | refine withinW_bind ?_ fun _ => ?_
        | refine withinW_forIn _ _ _ fun _ _ => ?_ | refine withinW_map _ ?_ | split | dsimp only

def runMoves_foot : Foot := readStream_foot ++ (putAdds_foot ++ commitStaged_foot)
theorem runMoves_within {F : Foot} (hF : runMoves_foot ⊆ F) (c : Conv) (src dst : Tensor) (ms : List Move) (reduce : Bool) (ac : Option Nat) : WithinW F (runMoves c src dst ms reduce ac : Work s₀ Unit) := by
  simp only [runMoves_foot, List.append_subset] at hF
  obtain ⟨_, _, _⟩ := hF
  unfold runMoves
  repeat' first
    | with_reducible
        first
        | intro _ | exact readStream_within ‹_› .. | exact putAdds_within ‹_› .. | exact putMoves_within ..
        | exact commitStaged_within ‹_› .. | exact within_pure _ | exact withinW_pure _ | exact withinW_get
        | exact withinW_set _ | exact withinW_modify _ | exact withinW_modifyGet _
        | refine within_bind ?_ fun _ => ?_ | refine withinW_ite ?_ ?_ | refine withinW_doing ?_
        | refine withinW_bind ?_ fun _ => ?_ | refine withinW_forIn _ _ _ fun _ _ => ?_ | refine withinW_map _ ?_
        | split | dsimp only

def prepTensor_foot : Foot := readTensors_foot
theorem prepTensor_within {F : Foot} (hF : prepTensor_foot ⊆ F) (w : Descriptor) : WithinP F (prepTensor w : Prep s₀ (List Nat)) := by
  simp only [prepTensor_foot] at hF
  unfold prepTensor
  repeat' first
    | with_reducible
        first
        | intro _ | exact demand_within .. | exact readTensors_within ‹_› .. | exact permitTensor_within ..
        | exact permitCounter_within .. | exact malformed_within .. | exact within_pure _ | exact withinW_pure _
        | exact withinW_get | exact withinW_set _ | exact withinW_modify _ | exact withinW_modifyGet _
        | exact withinP_pure _ | exact withinP_failure | refine within_bind ?_ fun _ => ?_ | refine withinP_ite ?_ ?_
        | refine within_forIn _ _ _ fun _ _ => ?_ | refine withinW_doing ?_ | refine withinW_bind ?_ fun _ => ?_
        | refine withinW_forIn _ _ _ fun _ _ => ?_ | refine withinW_map _ ?_ | refine withinP_lift ?_
        | refine withinP_bind ?_ fun _ => ?_ | refine withinP_forIn _ _ _ fun _ _ => ?_ | refine withinP_map _ ?_
        | split | dsimp only

def tensorCopyWork_foot : Foot := runMoves_foot
theorem tensorCopyWork_within {F : Foot} (hF : tensorCopyWork_foot ⊆ F) (t : Nat) (d : Slot) : WithinW F (tensorCopyWork t d : Work s₀ Unit) := by
  simp only [tensorCopyWork_foot] at hF
  unfold tensorCopyWork
  repeat' first
    | with_reducible
        first
        | intro _ | exact runMoves_within ‹_› .. | exact within_pure _ | exact withinW_pure _ | exact withinW_get
        | exact withinW_set _ | exact withinW_modify _ | exact withinW_modifyGet _
        | refine within_bind ?_ fun _ => ?_ | refine withinW_ite ?_ ?_ | refine withinW_doing ?_
        | refine withinW_bind ?_ fun _ => ?_ | refine withinW_forIn _ _ _ fun _ _ => ?_ | refine withinW_map _ ?_
        | split | dsimp only

def logIndexFault_foot : Foot := [.fld SEQ_INDEX_FAULT_LOG_POSITION, .fld SEQ_INDEX_FAULT_VALUE_VALUE, .fld SEQ_INDEX_FAULT_LOG_VALID, .fld SEQ_INDEX_FAULT_LOG_OVERRUN]
theorem logIndexFault_within {F : Foot} (hF : logIndexFault_foot ⊆ F) (t pos value : Nat) : WithinW F (logIndexFault t pos value : Work s₀ Unit) := by
  simp only [logIndexFault_foot, List.cons_subset, List.nil_subset, and_true] at hF
  obtain ⟨_, _, _, _⟩ := hF
  unfold logIndexFault
  repeat' first
    | with_reducible
        first
        | intro _ | exact arises_within .. | exact within_pure _ | exact withinW_pure _ | exact withinW_get
        | exact withinW_set _ | exact withinW_modify _ | exact withinW_modifyGet _ | exact within_setF _ _ _ _ ‹_›
        | refine within_bind ?_ fun _ => ?_ | refine within_logFirst _ _ _ _ ‹_› ‹_› ?_ | refine withinW_doing ?_
        | refine withinW_bind ?_ fun _ => ?_ | refine withinW_forIn _ _ _ fun _ _ => ?_ | refine withinW_map _ ?_
        | split | dsimp only

def readIndices_foot : Foot := [.fld SEQ_INDEX_CLAMP_COUNT_COUNT] ++ (readStream_foot ++ logIndexFault_foot)
theorem readIndices_within {F : Foot} (hF : readIndices_foot ⊆ F) (t imode n : Nat) (idx dst : Tensor) : WithinW F (readIndices t imode n idx dst : Work s₀ (Option (List Resolved))) := by
  simp only [readIndices_foot, List.append_subset, List.cons_subset, List.nil_subset, and_true] at hF
  obtain ⟨_, _, _⟩ := hF
  unfold readIndices
  repeat' first
    | with_reducible
        first
        | intro _ | exact readStream_within ‹_› .. | exact logIndexFault_within ‹_› .. | exact within_pure _
        | exact withinW_pure _ | exact withinW_get | exact withinW_set _ | exact withinW_modify _
        | exact withinW_modifyGet _ | exact within_countUp _ _ _ _ ‹_› | refine within_bind ?_ fun _ => ?_
        | refine withinW_ite ?_ ?_ | refine within_forIn _ _ _ fun _ _ => ?_ | refine withinW_doing ?_
        | refine withinW_bind ?_ fun _ => ?_ | refine withinW_forIn _ _ _ fun _ _ => ?_ | refine withinW_map _ ?_
        | split | dsimp only

theorem suppressSlices_within {F : Foot} (src : Tensor) (g : Nat) (rs : List Resolved) : WithinW F (suppressSlices src g rs : Work s₀ Unit) := by
  unfold suppressSlices
  repeat' first
    | with_reducible
        first
        | intro _ | exact within_pure _ | exact withinW_pure _ | exact withinW_get | exact withinW_set _
        | exact withinW_modify _ | exact withinW_modifyGet _ | refine within_bind ?_ fun _ => ?_
        | refine withinW_doing ?_ | refine withinW_bind ?_ fun _ => ?_ | refine withinW_forIn _ _ _ fun _ _ => ?_
        | refine withinW_map _ ?_ | split | dsimp only

def tensorIndexedWork_foot : Foot := readIndices_foot ++ runMoves_foot
theorem tensorIndexedWork_within {F : Foot} (hF : tensorIndexedWork_foot ⊆ F) (scatter : Bool) (t : Nat) (d : Slot) : WithinW F (tensorIndexedWork scatter t d : Work s₀ Unit) := by
  simp only [tensorIndexedWork_foot, List.append_subset] at hF
  obtain ⟨_, _⟩ := hF
  unfold tensorIndexedWork
  repeat' first
    | with_reducible
        first
        | intro _ | exact readIndices_within ‹_› .. | exact suppressSlices_within .. | exact runMoves_within ‹_› ..
        | exact within_pure _ | exact withinW_pure _ | exact withinW_get | exact withinW_set _
        | exact withinW_modify _ | exact withinW_modifyGet _ | refine within_bind ?_ fun _ => ?_
        | refine withinW_ite ?_ ?_ | refine withinW_doing ?_ | refine withinW_bind ?_ fun _ => ?_
        | refine withinW_forIn _ _ _ fun _ _ => ?_ | refine withinW_map _ ?_ | split | dsimp only

end Sys2Proof.Machine
end

