-- ==== Sys2Proof/Laws/FootPaletteOps.lean ====
section
/-! SUPPORT. The footprints of the actions of PaletteOps. -/

namespace Sys2Proof.Machine

variable {s₀ : State}

def actGranuleCommit_foot : Foot := serveInTurn_foot
theorem actGranuleCommit_within {F : Foot} (hF : actGranuleCommit_foot ⊆ F) (t : Nat) (src : Source) : Within F (actGranuleCommit t src : Act s₀ Unit) := by
  simp only [actGranuleCommit_foot] at hF
  unfold actGranuleCommit
  repeat' first
    | with_reducible
        first
        | intro _ | exact serveInTurn_within ‹_› .. | exact within_pure _ | exact within_now
        | refine within_bind ?_ fun _ => ?_ | split | dsimp only

def strike_foot : Foot := [.mem]
theorem strike_within {F : Foot} (hF : strike_foot ⊆ F) (us : List Upset) : Within F (strike us : Act s₀ Unit) := by
  simp only [strike_foot, List.cons_subset, List.nil_subset, and_true] at hF
  unfold strike
  repeat' first
    | with_reducible
        first
        | intro _ | exact within_pure _ | exact within_now | exact within_emit_upset ‹_› ..
        | refine within_bind ?_ fun _ => ?_ | refine within_ite ?_ ?_ | refine within_each _ _ fun _ => ?_ | split
        | dsimp only

def serveRead_foot : Foot := serveInTurn_foot
theorem serveRead_within {F : Foot} (hF : serveRead_foot ⊆ F) (w : PalWait) : Within F (serveRead w : Act s₀ Unit) := by
  simp only [serveRead_foot] at hF
  unfold serveRead
  repeat' first
    | with_reducible
        first
        | intro _ | exact serveInTurn_within ‹_› .. | exact within_pure _ | exact within_ask _
        | refine within_bind ?_ fun _ => ?_ | refine within_each _ _ fun _ => ?_ | split | dsimp only

def serveReads_foot : Foot := serveInTurn_foot
theorem serveReads_within {F : Foot} (hF : serveReads_foot ⊆ F) : Within F (serveReads : Act s₀ Unit) := by
  simp only [serveReads_foot] at hF
  unfold serveReads
  repeat' first
    | with_reducible
        first
        | intro _ | exact serveInTurn_within ‹_› .. | exact within_pure _ | exact within_ask _
        | refine within_bind ?_ fun _ => ?_ | refine within_each _ _ fun _ => ?_ | split | dsimp only

def actPaletteRequestSet_foot : Foot := strike_foot ++ (presentAccess_foot ++ serveRead_foot)
theorem actPaletteRequestSet_within {F : Foot} (hF : actPaletteRequestSet_foot ⊆ F) (t : TileNo) (req : Requester) (sender : Option Nat) (addrs : List Addr) (upsets : List Upset) (busy : Bool) : Within F (actPaletteRequestSet t req sender addrs upsets busy : Act s₀ Unit) := by
  simp only [actPaletteRequestSet_foot, List.append_subset] at hF
  obtain ⟨_, _, _⟩ := hF
  unfold actPaletteRequestSet
  repeat' first
    | with_reducible
        first
        | intro _ | exact strike_within ‹_› .. | exact presentAccess_within ‹_› .. | exact serveRead_within ‹_› ..
        | exact within_pure _ | exact within_ask _ | refine within_bind ?_ fun _ => ?_ | refine within_ite ?_ ?_
        | refine within_each _ _ fun _ => ?_ | split | dsimp only

def actEccWriteBack_foot : Foot := serveFirst_foot
theorem actEccWriteBack_within {F : Foot} (hF : actEccWriteBack_foot ⊆ F) (t : Nat) : Within F (actEccWriteBack t : Act s₀ Unit) := by
  simp only [actEccWriteBack_foot] at hF
  unfold actEccWriteBack
  repeat' first
    | with_reducible
        first
        | intro _ | exact serveFirst_within ‹_› .. | exact within_pure _ | refine within_bind ?_ fun _ => ?_ | split
        | dsimp only

def actRequestAged_foot : Foot := tally_foot ++ serveFirst_foot
theorem actRequestAged_within {F : Foot} (hF : actRequestAged_foot ⊆ F) (t : Nat) : Within F (actRequestAged t : Act s₀ Unit) := by
  simp only [actRequestAged_foot, List.append_subset] at hF
  obtain ⟨_, _⟩ := hF
  unfold actRequestAged
  repeat' first
    | with_reducible
        first
        | intro _ | exact tally_within ‹_› .. | exact serveFirst_within ‹_› .. | exact within_pure _
        | exact within_now | refine within_bind ?_ fun _ => ?_ | split | dsimp only

def setScrub_foot : Foot := [.fld PAL_STATUS_SCRUB_ACTIVE] ++ changePal_foot
theorem setScrub_within {F : Foot} (hF : setScrub_foot ⊆ F) (t : Nat) (x : Scrub) : Within F (setScrub t x : Act s₀ Unit) := by
  simp only [setScrub_foot, List.append_subset, List.cons_subset, List.nil_subset, and_true] at hF
  obtain ⟨_, _⟩ := hF
  unfold setScrub
  repeat' first
    | with_reducible
        first
        | intro _ | exact changePal_within ‹_› .. | exact within_pure _ | exact within_setF _ _ _ _ ‹_›
        | refine within_bind ?_ fun _ => ?_ | refine within_ite ?_ ?_ | split | dsimp only

def scrubGranule_foot : Foot := palUncorrectable_foot ++ (palCorrected_foot ++ oweWriteBack_foot)
theorem scrubGranule_within {F : Foot} (hF : scrubGranule_foot ⊆ F) (t g : Nat) : Within F (scrubGranule t g : Act s₀ Unit) := by
  simp only [scrubGranule_foot, List.append_subset] at hF
  obtain ⟨_, _, _⟩ := hF
  unfold scrubGranule
  repeat' first
    | with_reducible
        first
        | intro _ | exact palUncorrectable_within ‹_› .. | exact palCorrected_within ‹_› ..
        | exact oweWriteBack_within ‹_› .. | exact within_pure _ | exact within_now
        | refine within_bind ?_ fun _ => ?_ | refine within_ite ?_ ?_ | split | dsimp only

def nextScrub_foot : Foot := setScrub_foot
theorem nextScrub_within {F : Foot} (hF : nextScrub_foot ⊆ F) (t : Nat) : Within F (nextScrub t : Act s₀ Unit) := by
  simp only [nextScrub_foot] at hF
  unfold nextScrub
  repeat' first
    | with_reducible
        first
        | intro _ | exact setScrub_within ‹_› .. | exact within_pure _ | exact within_now
        | refine within_bind ?_ fun _ => ?_ | split | dsimp only

def scrubLine_foot : Foot := settleBanks_foot ++ (scrubGranule_foot ++ (tally_foot ++ nextScrub_foot))
theorem scrubLine_within {F : Foot} (hF : scrubLine_foot ⊆ F) (t : Nat) : Within F (scrubLine t : Act s₀ Unit) := by
  simp only [scrubLine_foot, List.append_subset] at hF
  obtain ⟨_, _, _, _⟩ := hF
  unfold scrubLine
  repeat' first
    | with_reducible
        first
        | intro _ | exact settleBanks_within ‹_› .. | exact scrubGranule_within ‹_› .. | exact tally_within ‹_› ..
        | exact nextScrub_within ‹_› .. | exact within_pure _ | exact within_now | refine within_bind ?_ fun _ => ?_
        | refine within_each _ _ fun _ => ?_ | split | dsimp only

def actPatrolScrub_foot : Foot := strike_foot ++ (nextScrub_foot ++ (scrubLine_foot ++ setScrub_foot))
theorem actPatrolScrub_within {F : Foot} (hF : actPatrolScrub_foot ⊆ F) (t : Nat) (upsets : List Upset) (idle : Bool) : Within F (actPatrolScrub t upsets idle : Act s₀ Unit) := by
  simp only [actPatrolScrub_foot, List.append_subset] at hF
  obtain ⟨_, _, _, _⟩ := hF
  unfold actPatrolScrub
  repeat' first
    | with_reducible
        first
        | intro _ | exact strike_within ‹_› .. | exact nextScrub_within ‹_› .. | exact scrubLine_within ‹_› ..
        | exact setScrub_within ‹_› .. | exact within_pure _ | exact within_now | exact within_isOn _ _ _
        | refine within_bind ?_ fun _ => ?_ | refine within_ite ?_ ?_ | split | dsimp only

def skipScrub_foot : Foot := nextScrub_foot
theorem skipScrub_within {F : Foot} (hF : skipScrub_foot ⊆ F) (t : Nat) : Within F (skipScrub t : Act s₀ Unit) := by
  simp only [skipScrub_foot] at hF
  unfold skipScrub
  repeat' first
    | with_reducible
        first
        | intro _ | exact nextScrub_within ‹_› .. | exact within_pure _ | exact within_now
        | refine within_bind ?_ fun _ => ?_ | refine within_ite ?_ ?_ | split | dsimp only

def actScrubPriorityRaise_foot : Foot := strike_foot ++ scrubLine_foot
theorem actScrubPriorityRaise_within {F : Foot} (hF : actScrubPriorityRaise_foot ⊆ F) (t : Nat) (upsets : List Upset) : Within F (actScrubPriorityRaise t upsets : Act s₀ Unit) := by
  simp only [actScrubPriorityRaise_foot, List.append_subset] at hF
  obtain ⟨_, _⟩ := hF
  unfold actScrubPriorityRaise
  repeat' first
    | with_reducible
        first
        | intro _ | exact strike_within ‹_› .. | exact scrubLine_within ‹_› .. | exact within_pure _
        | exact within_ask _ | refine within_bind ?_ fun _ => ?_ | refine within_ite ?_ ?_ | split | dsimp only

def hookAc_foot : Foot := settleWaits_foot
theorem hookAc_within {F : Foot} (hF : hookAc_foot ⊆ F) {w : RegWrite} (hw : F.free w.addr) : Within F (hookAc w : Act s₀ Unit) := by
  simp only [hookAc_foot] at hF
  unfold hookAc
  repeat' first
    | with_reducible
        first
        | intro _ | exact plainHook_within ‹_› .. | exact settleWaits_within ‹_› .. | exact within_pure _
        | exact within_emitFree _ _ ‹_› | refine within_bind ?_ fun _ => ?_ | split | dsimp only

def hookAcAdd_foot : Foot := acAdd_foot
theorem hookAcAdd_within {F : Foot} (hF : hookAcAdd_foot ⊆ F) {w : RegWrite} (hw : F.free w.addr) : Within F (hookAcAdd w : Act s₀ Unit) := by
  simp only [hookAcAdd_foot] at hF
  unfold hookAcAdd
  repeat' first
    | with_reducible
        first
        | intro _ | exact plainHook_within ‹_› .. | exact acAdd_within ‹_› .. | exact within_pure _
        | exact within_emitFree _ _ ‹_› | refine within_bind ?_ fun _ => ?_ | refine within_ite ?_ ?_ | split
        | dsimp only

theorem hookSets_within {F : Foot} {w : RegWrite} (hw : F.free w.addr) : Within F (hookSets w : Act s₀ Unit) := by
  unfold hookSets
  repeat' first
    | with_reducible
        first
        | intro _ | exact within_pure _ | exact within_emitReg _ _ _ _ ‹_› | exact within_emitAddr _ _ ‹_›
        | exact within_emitFree _ _ ‹_› | refine within_bind ?_ fun _ => ?_ | split | dsimp only

end Sys2Proof.Machine
end

