-- ==== Sys2Proof/Laws/FootMatrix.lean ====
section
/-! SUPPORT. The footprints of the actions of Matrix. -/

namespace Sys2Proof.Machine

variable {s₀ : State}

def prepMx_foot : Foot := readTensors_foot
theorem prepMx_within {F : Foot} (hF : prepMx_foot ⊆ F) (t : Nat) (w : Descriptor) : WithinP F (prepMx t w : Prep s₀ (List Nat)) := by
  simp only [prepMx_foot] at hF
  unfold prepMx
  repeat' first
    | with_reducible
        first
        | intro _ | exact failWith_within .. | exact demand_within .. | exact permit_within ..
        | exact readTensors_within ‹_› .. | exact permitTensor_within .. | exact permitCounter_within ..
        | exact malformed_within .. | exact within_pure _ | exact within_now | exact withinW_pure _
        | exact withinW_get | exact withinW_set _ | exact withinW_modify _ | exact withinW_modifyGet _
        | exact withinP_pure _ | exact withinP_failure | refine within_bind ?_ fun _ => ?_ | refine withinP_ite ?_ ?_
        | refine withinW_doing ?_ | refine withinW_bind ?_ fun _ => ?_ | refine withinW_forIn _ _ _ fun _ _ => ?_
        | refine withinW_map _ ?_ | refine withinP_lift ?_ | refine withinP_bind ?_ fun _ => ?_
        | refine withinP_forIn _ _ _ fun _ _ => ?_ | refine withinP_map _ ?_ | split | dsimp only

def loadTile_foot : Foot := getRaw_foot ++ tally_foot
theorem loadTile_within {F : Foot} (hF : loadTile_foot ⊆ F) (x : Product) (i : Nat) : WithinW F (loadTile x i : Work s₀ (Option (List (List (Nat × Nat))))) := by
  simp only [loadTile_foot, List.append_subset] at hF
  obtain ⟨_, _⟩ := hF
  unfold loadTile
  repeat' first
    | with_reducible
        first
        | intro _ | exact getRaw_within ‹_› .. | exact tally_within ‹_› .. | exact within_pure _
        | exact withinW_pure _ | exact withinW_get | exact withinW_set _ | exact withinW_modify _
        | exact withinW_modifyGet _ | refine within_bind ?_ fun _ => ?_ | refine withinW_ite ?_ ?_
        | refine within_forIn _ _ _ fun _ _ => ?_ | refine withinW_doing ?_ | refine withinW_bind ?_ fun _ => ?_
        | refine withinW_forIn _ _ _ fun _ _ => ?_ | refine withinW_map _ ?_ | split | dsimp only

def columnStart_foot : Foot := getRaw_foot ++ rawAt_foot
theorem columnStart_within {F : Foot} (hF : columnStart_foot ⊆ F) (x : Product) (q : Nat) (j : List Nat) : WithinW F (columnStart x q j : Work s₀ Nat) := by
  simp only [columnStart_foot, List.append_subset] at hF
  obtain ⟨_, _⟩ := hF
  unfold columnStart
  repeat' first
    | with_reducible
        first
        | intro _ | exact getRaw_within ‹_› .. | exact rawAt_within ‹_› .. | exact within_pure _ | exact within_now
        | exact within_freeIndex | exact withinW_pure _ | exact withinW_get | exact withinW_set _
        | exact withinW_modify _ | exact withinW_modifyGet _ | refine within_bind ?_ fun _ => ?_
        | refine withinW_ite ?_ ?_ | refine withinW_doing ?_ | refine withinW_bind ?_ fun _ => ?_
        | refine withinW_forIn _ _ _ fun _ _ => ?_ | refine withinW_map _ ?_ | split | dsimp only

theorem putSum_within {F : Foot} (x : Product) (b m : Nat) (j : List Nat) (c : Nat) : WithinW F (putSum x b m j c : Work s₀ Unit) := by
  unfold putSum
  repeat' first
    | with_reducible
        first
        | intro _ | exact raiseFlags_within .. | exact putRaw_within .. | exact within_pure _ | exact within_now
        | exact withinW_pure _ | exact withinW_get | exact withinW_set _ | exact withinW_modify _
        | exact withinW_modifyGet _ | refine within_bind ?_ fun _ => ?_ | refine withinW_ite ?_ ?_
        | refine withinW_doing ?_ | refine withinW_bind ?_ fun _ => ?_ | refine withinW_forIn _ _ _ fun _ _ => ?_
        | refine withinW_map _ ?_ | split | dsimp only

def feedVector_foot : Foot := getRaw_foot ++ (columnStart_foot ++ (commitStaged_foot ++ (tally_foot ++ tallyIssue_foot)))
theorem feedVector_within {F : Foot} (hF : feedVector_foot ⊆ F) (x : Product) (i m : Nat) (tile : List (List (Nat × Nat))) : WithinW F (feedVector x i m tile : Work s₀ Unit) := by
  simp only [feedVector_foot, List.append_subset] at hF
  obtain ⟨_, _, _, _, _⟩ := hF
  unfold feedVector
  repeat' first
    | with_reducible
        first
        | intro _ | exact getRaw_within ‹_› .. | exact columnStart_within ‹_› .. | exact raiseFlags_within ..
        | exact putSum_within .. | exact commitStaged_within ‹_› .. | exact tally_within ‹_› ..
        | exact tallyIssue_within ‹_› .. | exact within_pure _ | exact withinW_pure _ | exact withinW_get
        | exact withinW_set _ | exact withinW_modify _ | exact withinW_modifyGet _
        | refine within_bind ?_ fun _ => ?_ | refine withinW_ite ?_ ?_ | refine within_forIn _ _ _ fun _ _ => ?_
        | refine withinW_doing ?_ | refine withinW_bind ?_ fun _ => ?_ | refine withinW_forIn _ _ _ fun _ _ => ?_
        | refine withinW_map _ ?_ | split | dsimp only

def emptyProduct_foot : Foot := columnStart_foot ++ commitStaged_foot
theorem emptyProduct_within {F : Foot} (hF : emptyProduct_foot ⊆ F) (x : Product) : WithinW F (emptyProduct x : Work s₀ Unit) := by
  simp only [emptyProduct_foot, List.append_subset] at hF
  obtain ⟨_, _⟩ := hF
  unfold emptyProduct
  repeat' first
    | with_reducible
        first
        | intro _ | exact arises_within .. | exact columnStart_within ‹_› .. | exact putSum_within ..
        | exact commitStaged_within ‹_› .. | exact within_pure _ | exact withinW_pure _ | exact withinW_get
        | exact withinW_set _ | exact withinW_modify _ | exact withinW_modifyGet _
        | refine within_bind ?_ fun _ => ?_ | refine withinW_ite ?_ ?_ | refine within_forIn _ _ _ fun _ _ => ?_
        | refine withinW_doing ?_ | refine withinW_bind ?_ fun _ => ?_ | refine withinW_forIn _ _ _ fun _ _ => ?_
        | refine withinW_map _ ?_ | split | dsimp only

def changeMx_foot : Foot := [.part .mx]
theorem changeMx_within {F : Foot} (hF : changeMx_foot ⊆ F) (f : MxUnit → MxUnit) : Within F (changeMx f : Act s₀ Unit) := by
  simp only [changeMx_foot, List.cons_subset, List.nil_subset, and_true] at hF
  unfold changeMx
  repeat' first
    | with_reducible
        first
        | intro _ | exact within_pure _ | refine within_bind ?_ fun _ => ?_ | split | dsimp only
    | exact within_change _ fun u p => by cases p <;> first | exact .inl rfl | exact .inr ‹_› | (refine .inl ?_; simp only [Part.same]; repeat' split) <;> rfl

def setRun_foot : Foot := changeMx_foot
theorem setRun_within {F : Foot} (hF : setRun_foot ⊆ F) (r : MxRun) : Within F (setRun r : Act s₀ Unit) := by
  simp only [setRun_foot] at hF
  unfold setRun
  repeat' first
    | with_reducible
        first
        | intro _ | exact changeMx_within ‹_› .. | exact within_pure _ | refine within_bind ?_ fun _ => ?_ | split
        | dsimp only

def endRun_foot : Foot := changeMx_foot
theorem endRun_within {F : Foot} (hF : endRun_foot ⊆ F) (t : Nat) (h : Half) : Within F (endRun t h : Act s₀ Unit) := by
  simp only [endRun_foot] at hF
  unfold endRun
  repeat' first
    | with_reducible
        first
        | intro _ | exact changeMx_within ‹_› .. | exact within_pure _ | refine within_bind ?_ fun _ => ?_ | split
        | dsimp only

def parkHalf_foot : Foot := [.fld MX_PARK_PARK_R, .fld MX_PARK_PARK_L, .fld MX_STATUS_PARKED_R, .fld MX_STATUS_PARKED_L] ++ changeMx_foot
theorem parkHalf_within {F : Foot} (hF : parkHalf_foot ⊆ F) (t : Nat) (right : Bool) (reason : Nat) : Within F (parkHalf t right reason : Act s₀ Unit) := by
  simp only [parkHalf_foot, List.append_subset, List.cons_subset, List.nil_subset, and_true, and_assoc] at hF
  obtain ⟨_, _, _, _, _⟩ := hF
  unfold parkHalf
  repeat' first
    | with_reducible
        first
        | intro _ | exact changeMx_within ‹_› .. | exact within_pure _ | exact within_now
        | exact within_setF _ _ _ _ ‹_› | exact within_raise _ _ _ ‹_› | refine within_bind ?_ fun _ => ?_
        | refine within_ite ?_ ?_ | split | dsimp only

def parkAfter_foot : Foot := parkHalf_foot
theorem parkAfter_within {F : Foot} (hF : parkAfter_foot ⊆ F) (e : Engine) (id : Nat) : Within F (parkAfter e id : Act s₀ Unit) := by
  simp only [parkAfter_foot] at hF
  unfold parkAfter
  repeat' first
    | with_reducible
        first
        | intro _ | exact parkHalf_within ‹_› .. | exact within_pure _ | exact within_now
        | refine within_bind ?_ fun _ => ?_ | refine within_ite ?_ ?_ | split | dsimp only

def endProduct_foot : Foot := endRun_foot ++ (finish_foot ++ parkAfter_foot)
theorem endProduct_within {F : Foot} (hF : endProduct_foot ⊆ F) (t : TileNo) (h : Half) (id : Nat) : Within F (endProduct t h id : Act s₀ Unit) := by
  simp only [endProduct_foot, List.append_subset] at hF
  obtain ⟨_, _, _⟩ := hF
  unfold endProduct
  repeat' first
    | with_reducible
        first
        | intro _ | exact endRun_within ‹_› .. | exact finish_within ‹_› .. | exact parkAfter_within ‹_› ..
        | exact within_pure _ | refine within_bind ?_ fun _ => ?_ | split | dsimp only

def feedOne_foot : Foot := runFor_foot ++ (feedVector_foot ++ (endProduct_foot ++ setRun_foot))
theorem feedOne_within {F : Foot} (hF : feedOne_foot ⊆ F) (t : TileNo) (h : Half) (d : Slot) (x : Product) (r : MxRun) : Within F (feedOne t h d x r : Act s₀ Bool) := by
  simp only [feedOne_foot, List.append_subset] at hF
  obtain ⟨_, _, _, _⟩ := hF
  unfold feedOne
  repeat' first
    | with_reducible
        first
        | intro _ | exact feedVector_within ‹_› .. | exact endProduct_within ‹_› .. | exact setRun_within ‹_› ..
        | exact within_pure _ | refine within_bind ?_ fun _ => ?_ | refine within_ite ?_ ?_
        | refine runFor_within ‹_› _ _ ?_ | exact withinW_pure _ | exact withinW_get | refine withinW_doing ?_
        | refine withinW_bind ?_ fun _ => ?_ | refine withinW_map _ ?_ | refine withinP_run ?_ | exact withinP_pure _
        | refine withinP_lift ?_ | refine withinP_bind ?_ fun _ => ?_ | split | dsimp only

def feedPass_foot : Foot := feedOne_foot
theorem feedPass_within {F : Foot} (hF : feedPass_foot ⊆ F) (t : TileNo) (h : Half) (d : Slot) (x : Product) : ∀ x0, Within F (feedPass t h d x x0 : Act s₀ Unit)
  | 0 => by
    have hF0 := hF
    simp only [feedPass_foot] at hF
    unfold feedPass
    repeat' first
      | with_reducible
          first
          | exact feedPass_within hF0 _ _ _ _ _ | intro _ | exact feedOne_within ‹_› .. | exact within_pure _
          | exact within_now | refine within_bind ?_ fun _ => ?_ | refine within_ite ?_ ?_ | split | dsimp only
  | n + 1 => by
    have hF0 := hF
    simp only [feedPass_foot] at hF
    unfold feedPass
    repeat' first
      | with_reducible
          first
          | exact feedPass_within hF0 _ _ _ _ _ | intro _ | exact feedOne_within ‹_› .. | exact within_pure _
          | exact within_now | refine within_bind ?_ fun _ => ?_ | refine within_ite ?_ ?_ | split | dsimp only

def loadNext_foot : Foot := runFor_foot ++ (loadTile_foot ++ setRun_foot)
theorem loadNext_within {F : Foot} (hF : loadNext_foot ⊆ F) (t : TileNo) (h : Half) (d : Slot) (x : Product) : Within F (loadNext t h d x : Act s₀ Unit) := by
  simp only [loadNext_foot, List.append_subset] at hF
  obtain ⟨_, _, _⟩ := hF
  unfold loadNext
  repeat' first
    | with_reducible
        first
        | intro _ | exact loadTile_within ‹_› .. | exact setRun_within ‹_› .. | exact within_pure _
        | exact within_now | refine within_bind ?_ fun _ => ?_ | refine within_ite ?_ ?_
        | refine runFor_within ‹_› _ _ ?_ | exact withinW_pure _ | exact withinW_get | refine withinW_doing ?_
        | refine withinW_bind ?_ fun _ => ?_ | refine withinW_map _ ?_ | refine withinP_run ?_ | exact withinP_pure _
        | refine withinP_lift ?_ | refine withinP_bind ?_ fun _ => ?_ | split | dsimp only

def firstFeed_foot : Foot := launch_foot ++ (fitEngine_foot ++ (setRun_foot ++ (loadNext_foot ++ feedPass_foot)))
theorem firstFeed_within {F : Foot} (hF : firstFeed_foot ⊆ F) (t : TileNo) (h : Half) (d : Slot) (x : Product) (r : MxRun) : Within F (firstFeed t h d x r : Act s₀ Unit) := by
  simp only [firstFeed_foot, List.append_subset] at hF
  obtain ⟨_, _, _, _, _⟩ := hF
  unfold firstFeed
  repeat' first
    | with_reducible
        first
        | intro _ | exact launch_within ‹_› .. | exact fitEngine_within ‹_› .. | exact setRun_within ‹_› ..
        | exact loadNext_within ‹_› .. | exact feedPass_within ‹_› .. | exact within_pure _
        | refine within_bind ?_ fun _ => ?_ | split | dsimp only

def advance_foot : Foot := feedPass_foot ++ firstFeed_foot
theorem advance_within {F : Foot} (hF : advance_foot ⊆ F) (t : TileNo) (h : Half) : Within F (advance t h : Act s₀ Unit) := by
  simp only [advance_foot, List.append_subset] at hF
  obtain ⟨_, _⟩ := hF
  unfold advance
  repeat' first
    | with_reducible
        first
        | intro _ | exact feedPass_within ‹_› .. | exact firstFeed_within ‹_› .. | exact within_pure _
        | exact within_now | refine within_bind ?_ fun _ => ?_ | refine within_ite ?_ ?_ | split | dsimp only

def actMxProduct_foot : Foot := advance_foot ++ (launch_foot ++ (finish_foot ++ (runFor_foot ++ (emptyProduct_foot ++ (parkAfter_foot ++ (loadTile_foot ++ (endProduct_foot ++ setRun_foot)))))))
theorem actMxProduct_within {F : Foot} (hF : actMxProduct_foot ⊆ F) (t : TileNo) (h : Half) : Within F (actMxProduct t h : Act s₀ Unit) := by
  simp only [actMxProduct_foot, List.append_subset] at hF
  obtain ⟨_, _, _, _, _, _, _, _, _⟩ := hF
  unfold actMxProduct
  repeat' first
    | with_reducible
        first
        | intro _ | exact advance_within ‹_› .. | exact launch_within ‹_› .. | exact finish_within ‹_› ..
        | exact emptyProduct_within ‹_› .. | exact parkAfter_within ‹_› .. | exact loadTile_within ‹_› ..
        | exact endProduct_within ‹_› .. | exact setRun_within ‹_› .. | exact within_pure _ | exact within_now
        | refine within_bind ?_ fun _ => ?_ | refine within_ite ?_ ?_ | refine runFor_within ‹_› _ _ ?_
        | exact withinW_pure _ | exact withinW_get | refine withinW_doing ?_ | refine withinW_bind ?_ fun _ => ?_
        | refine withinW_map _ ?_ | refine withinP_run ?_ | exact withinP_pure _ | refine withinP_lift ?_
        | refine withinP_bind ?_ fun _ => ?_ | split | dsimp only

def actMxFirstFeed_foot : Foot := advance_foot
theorem actMxFirstFeed_within {F : Foot} (hF : actMxFirstFeed_foot ⊆ F) (t : TileNo) (h : Half) : Within F (actMxFirstFeed t h : Act s₀ Unit) := by
  simp only [actMxFirstFeed_foot] at hF
  unfold actMxFirstFeed
  repeat' first
    | with_reducible
        first
        | intro _ | exact advance_within ‹_› .. | exact within_pure _ | exact within_now
        | refine within_bind ?_ fun _ => ?_ | refine within_ite ?_ ?_ | split | dsimp only

def actMxPassStart_foot : Foot := endProduct_foot ++ (setRun_foot ++ (loadNext_foot ++ feedPass_foot))
theorem actMxPassStart_within {F : Foot} (hF : actMxPassStart_foot ⊆ F) (t : TileNo) (h : Half) : Within F (actMxPassStart t h : Act s₀ Unit) := by
  simp only [actMxPassStart_foot, List.append_subset] at hF
  obtain ⟨_, _, _, _⟩ := hF
  unfold actMxPassStart
  repeat' first
    | with_reducible
        first
        | intro _ | exact endProduct_within ‹_› .. | exact setRun_within ‹_› .. | exact loadNext_within ‹_› ..
        | exact feedPass_within ‹_› .. | exact within_pure _ | exact within_now | refine within_bind ?_ fun _ => ?_
        | refine within_ite ?_ ?_ | split | dsimp only

def followOther_foot : Foot := advance_foot ++ feedOne_foot
theorem followOther_within {F : Foot} (hF : followOther_foot ⊆ F) (t : TileNo) (h : Half) : Within F (followOther t h : Act s₀ Unit) := by
  simp only [followOther_foot, List.append_subset] at hF
  obtain ⟨_, _⟩ := hF
  unfold followOther
  repeat' first
    | with_reducible
        first
        | intro _ | exact advance_within ‹_› .. | exact feedOne_within ‹_› .. | exact within_pure _
        | exact within_now | refine within_bind ?_ fun _ => ?_ | refine within_ite ?_ ?_ | split | dsimp only

def actMxPaceRelease_foot : Foot := feedOne_foot ++ (followOther_foot ++ advance_foot)
theorem actMxPaceRelease_within {F : Foot} (hF : actMxPaceRelease_foot ⊆ F) (t : TileNo) (h : Half) : Within F (actMxPaceRelease t h : Act s₀ Unit) := by
  simp only [actMxPaceRelease_foot, List.append_subset] at hF
  obtain ⟨_, _, _⟩ := hF
  unfold actMxPaceRelease
  repeat' first
    | with_reducible
        first
        | intro _ | exact feedOne_within ‹_› .. | exact followOther_within ‹_› .. | exact advance_within ‹_› ..
        | exact within_pure _ | exact within_now | refine within_bind ?_ fun _ => ?_ | refine within_ite ?_ ?_
        | split | dsimp only

def abortHalf_foot : Foot := endRun_foot ++ withSlot_foot
theorem abortHalf_within {F : Foot} (hF : abortHalf_foot ⊆ F) (t : TileNo) (h : Half) (st : Status) : Within F (abortHalf t h st : Act s₀ Unit) := by
  simp only [abortHalf_foot, List.append_subset] at hF
  obtain ⟨_, _⟩ := hF
  unfold abortHalf
  repeat' first
    | with_reducible
        first
        | intro _ | exact endRun_within ‹_› .. | exact withSlot_within ‹_› .. | exact within_pure _
        | exact within_now | refine within_bind ?_ fun _ => ?_ | split | dsimp only

def parkNow_foot : Foot := abortHalf_foot ++ parkHalf_foot
theorem parkNow_within {F : Foot} (hF : parkNow_foot ⊆ F) (t : TileNo) (right : Bool) (reason : Nat) : Within F (parkNow t right reason : Act s₀ Unit) := by
  simp only [parkNow_foot, List.append_subset] at hF
  obtain ⟨_, _⟩ := hF
  unfold parkNow
  repeat' first
    | with_reducible
        first
        | intro _ | exact abortHalf_within ‹_› .. | exact parkHalf_within ‹_› .. | exact within_pure _
        | exact within_now | refine within_bind ?_ fun _ => ?_ | refine within_ite ?_ ?_ | split | dsimp only

def actParkThreshold_foot : Foot := parkNow_foot
theorem actParkThreshold_within {F : Foot} (hF : actParkThreshold_foot ⊆ F) (t : TileNo) (right : Bool) : Within F (actParkThreshold t right : Act s₀ Unit) := by
  simp only [actParkThreshold_foot] at hF
  unfold actParkThreshold
  repeat' first
    | with_reducible
        first
        | intro _ | exact parkNow_within ‹_› .. | exact within_pure _ | exact within_now
        | refine within_bind ?_ fun _ => ?_ | refine within_ite ?_ ?_ | split | dsimp only

def releaseHalf_foot : Foot := [.fld MX_STATUS_PARKED_R, .fld MX_STATUS_PARKED_L, .fld MX_PARK_PARK_R, .fld MX_PARK_PARK_L] ++ changeMx_foot
theorem releaseHalf_within {F : Foot} (hF : releaseHalf_foot ⊆ F) (t : Nat) (right : Bool) : Within F (releaseHalf t right : Act s₀ Unit) := by
  simp only [releaseHalf_foot, List.append_subset, List.cons_subset, List.nil_subset, and_true, and_assoc] at hF
  obtain ⟨_, _, _, _, _⟩ := hF
  unfold releaseHalf
  repeat' first
    | with_reducible
        first
        | intro _ | exact changeMx_within ‹_› .. | exact within_pure _ | exact within_now
        | exact within_setF _ _ _ _ ‹_› | refine within_bind ?_ fun _ => ?_ | refine within_ite ?_ ?_ | split
        | dsimp only

def hookPark_foot : Foot := [.fld MX_PARK_PARK_L, .fld MX_PARK_PARK_R] ++ (releaseHalf_foot ++ parkNow_foot)
theorem hookPark_within {F : Foot} (hF : hookPark_foot ⊆ F) (w : RegWrite) : Within F (hookPark w : Act s₀ Unit) := by
  simp only [hookPark_foot, List.append_subset, List.cons_subset, List.nil_subset, and_true, and_assoc] at hF
  obtain ⟨_, _, _, _⟩ := hF
  unfold hookPark
  repeat' first
    | with_reducible
        first
        | intro _ | exact releaseHalf_within ‹_› .. | exact parkNow_within ‹_› .. | exact within_pure _
        | exact within_isOn _ _ _ | exact within_raise _ _ _ ‹_› | refine within_bind ?_ fun _ => ?_
        | refine within_ite ?_ ?_ | split | dsimp only

def actParkTakeEffect_foot : Foot := [.fld MX_PARK_PARK_R, .fld MX_PARK_PARK_L, .fld MX_PARK_LOG_HALF, .fld MX_PARK_LOG_REASON, .fld MX_PARK_LOG_START, .fld MX_PARK_LOG_VALID, .fld MX_PARK_LOG_OVERRUN] ++ changeMx_foot
theorem actParkTakeEffect_within {F : Foot} (hF : actParkTakeEffect_foot ⊆ F) (t : TileNo) (right : Bool) : Within F (actParkTakeEffect t right : Act s₀ Unit) := by
  simp only [actParkTakeEffect_foot, List.append_subset, List.cons_subset, List.nil_subset, and_true, and_assoc] at hF
  obtain ⟨_, _, _, _, _, _, _, _⟩ := hF
  unfold actParkTakeEffect
  repeat' first
    | with_reducible
        first
        | intro _ | exact changeMx_within ‹_› .. | exact within_pure _ | exact within_now
        | exact within_setF _ _ _ _ ‹_› | refine within_bind ?_ fun _ => ?_ | refine within_ite ?_ ?_
        | refine within_logFirst _ _ _ _ ‹_› ‹_› ?_ | split | dsimp only

def splitNow_foot : Foot := [.fld MX_STATUS_SPLIT_ACTIVE, .fld MX_STATUS_SPLIT_PENDING, .fld MX_STATUS_PARKED_R, .fld MX_PARK_PARK_R] ++ changeMx_foot
theorem splitNow_within {F : Foot} (hF : splitNow_foot ⊆ F) (t : Nat) : Within F (splitNow t : Act s₀ Unit) := by
  simp only [splitNow_foot, List.append_subset, List.cons_subset, List.nil_subset, and_true, and_assoc] at hF
  obtain ⟨_, _, _, _, _⟩ := hF
  unfold splitNow
  repeat' first
    | with_reducible
        first
        | intro _ | exact changeMx_within ‹_› .. | exact within_pure _ | exact within_fld _ _ _
        | exact within_setF _ _ _ _ ‹_› | refine within_bind ?_ fun _ => ?_ | refine within_ite ?_ ?_ | split
        | dsimp only

def hookSplit_foot : Foot := [.fld MX_STATUS_SPLIT_PENDING] ++ (discardRecorded_foot ++ splitNow_foot)
theorem hookSplit_within {F : Foot} (hF : hookSplit_foot ⊆ F) {w : RegWrite} (hw : F.free w.addr) : Within F (hookSplit w : Act s₀ Unit) := by
  simp only [hookSplit_foot, List.append_subset, List.cons_subset, List.nil_subset, and_true] at hF
  obtain ⟨_, _, _⟩ := hF
  unfold hookSplit
  repeat' first
    | with_reducible
        first
        | intro _ | exact discardRecorded_within ‹_› .. | exact plainHook_within ‹_› ..
        | exact splitNow_within ‹_› .. | exact within_pure _ | exact within_now | exact within_setF _ _ _ _ ‹_›
        | exact within_raise _ _ _ ‹_› | exact within_emitFree _ _ ‹_› | refine within_bind ?_ fun _ => ?_
        | refine within_ite ?_ ?_ | split | dsimp only

end Sys2Proof.Machine
end

