-- ==== Sys2Proof/Laws/FootVector.lean ====
section
/-! SUPPORT. The footprints of the actions of Vector. -/

namespace Sys2Proof.Machine

variable {s₀ : State}

theorem permitAll_within {F : Foot} (write : Bool) : ∀ x0, WithinP F (permitAll write x0 : Prep s₀ Unit)
  | [] => by
    unfold permitAll
    repeat' first
      | with_reducible
          first
          | exact permitAll_within _ _ | intro _ | exact permitTensor_within .. | exact within_pure _
          | exact withinW_pure _ | exact withinW_get | exact withinW_set _ | exact withinW_modify _
          | exact withinW_modifyGet _ | exact withinP_pure _ | exact withinP_failure
          | refine within_bind ?_ fun _ => ?_ | refine withinW_doing ?_ | refine withinW_bind ?_ fun _ => ?_
          | refine withinW_forIn _ _ _ fun _ _ => ?_ | refine withinW_map _ ?_ | refine withinP_lift ?_
          | refine withinP_bind ?_ fun _ => ?_ | refine withinP_forIn _ _ _ fun _ _ => ?_ | refine withinP_map _ ?_
          | split | dsimp only
  | x :: xs => by
    unfold permitAll
    repeat' first
      | with_reducible
          first
          | exact permitAll_within _ _ | intro _ | exact permitTensor_within .. | exact within_pure _
          | exact withinW_pure _ | exact withinW_get | exact withinW_set _ | exact withinW_modify _
          | exact withinW_modifyGet _ | exact withinP_pure _ | exact withinP_failure
          | refine within_bind ?_ fun _ => ?_ | refine withinW_doing ?_ | refine withinW_bind ?_ fun _ => ?_
          | refine withinW_forIn _ _ _ fun _ _ => ?_ | refine withinW_map _ ?_ | refine withinP_lift ?_
          | refine withinP_bind ?_ fun _ => ?_ | refine withinP_forIn _ _ _ fun _ _ => ?_ | refine withinP_map _ ?_
          | split | dsimp only

def prepStroke_foot : Foot := readBlock_foot ++ readTensors_foot
theorem prepStroke_within {F : Foot} (hF : prepStroke_foot ⊆ F) (t : Nat) (w : Descriptor) : WithinP F (prepStroke t w : Prep s₀ (List Nat)) := by
  simp only [prepStroke_foot, List.append_subset] at hF
  obtain ⟨_, _⟩ := hF
  unfold prepStroke
  repeat' first
    | with_reducible
        first
        | intro _ | exact demand_within .. | exact readBlock_within ‹_› .. | exact malformed_within ..
        | exact readTensors_within ‹_› .. | exact permitAll_within .. | exact permitCounter_within ..
        | exact sound_within .. | exact raiseFlags_within .. | exact within_pure _ | exact withinW_pure _
        | exact withinW_get | exact withinW_set _ | exact withinW_modify _ | exact withinW_modifyGet _
        | exact withinP_pure _ | exact withinP_failure | refine within_bind ?_ fun _ => ?_ | refine withinP_ite ?_ ?_
        | refine withinW_doing ?_ | refine withinW_bind ?_ fun _ => ?_ | refine withinW_forIn _ _ _ fun _ _ => ?_
        | refine withinW_map _ ?_ | refine withinP_lift ?_ | refine withinP_bind ?_ fun _ => ?_
        | refine withinP_forIn _ _ _ fun _ _ => ?_ | refine withinP_map _ ?_ | split | dsimp only

def readInputs_foot : Foot := getElt_foot
theorem readInputs_within {F : Foot} (hF : readInputs_foot ⊆ F) (p : Stroke) (j : List Nat) : ∀ x0, WithinW F (readInputs p j x0 : Work s₀ (List Elt))
  | [] => by
    have hF0 := hF
    simp only [readInputs_foot] at hF
    unfold readInputs
    repeat' first
      | with_reducible
          first
          | exact readInputs_within hF0 _ _ _ | intro _ | exact getElt_within ‹_› .. | exact within_pure _
          | exact withinW_pure _ | exact withinW_get | exact withinW_set _ | exact withinW_modify _
          | exact withinW_modifyGet _ | refine within_bind ?_ fun _ => ?_ | refine withinW_ite ?_ ?_
          | refine withinW_doing ?_ | refine withinW_bind ?_ fun _ => ?_ | refine withinW_forIn _ _ _ fun _ _ => ?_
          | refine withinW_map _ ?_ | split | dsimp only
  | (x, k) :: xs => by
    have hF0 := hF
    simp only [readInputs_foot] at hF
    unfold readInputs
    repeat' first
      | with_reducible
          first
          | exact readInputs_within hF0 _ _ _ | intro _ | exact getElt_within ‹_› .. | exact within_pure _
          | exact withinW_pure _ | exact withinW_get | exact withinW_set _ | exact withinW_modify _
          | exact withinW_modifyGet _ | refine within_bind ?_ fun _ => ?_ | refine withinW_ite ?_ ?_
          | refine withinW_doing ?_ | refine withinW_bind ?_ fun _ => ?_ | refine withinW_forIn _ _ _ fun _ _ => ?_
          | refine withinW_map _ ?_ | split | dsimp only

def runElements_foot : Foot := [.fld VE_NONFINITE_COUNT_COUNT] ++ readInputs_foot
theorem runElements_within {F : Foot} (hF : runElements_foot ⊆ F) (p : Stroke) (d : Slot) (tile : Nat) (h : Nat → Option Val) (first : Bool) : ∀ x0, WithinW F (runElements p d tile h first x0 : Work s₀ (List (Nat × Lane)))
  | [] => by
    have hF0 := hF
    simp only [runElements_foot, List.append_subset, List.cons_subset, List.nil_subset, and_true] at hF
    obtain ⟨_, _⟩ := hF
    unfold runElements
    repeat' first
      | with_reducible
          first
          | exact runElements_within hF0 _ _ _ _ _ _ | intro _ | exact readInputs_within ‹_› ..
          | exact raiseFlags_within .. | exact within_pure _ | exact withinW_pure _ | exact withinW_get
          | exact withinW_set _ | exact withinW_modify _ | exact withinW_modifyGet _
          | exact within_countUp _ _ _ _ ‹_› | refine within_bind ?_ fun _ => ?_ | refine withinW_doing ?_
          | refine withinW_bind ?_ fun _ => ?_ | refine withinW_forIn _ _ _ fun _ _ => ?_ | refine withinW_map _ ?_
          | split | dsimp only
  | e :: es => by
    have hF0 := hF
    simp only [runElements_foot, List.append_subset, List.cons_subset, List.nil_subset, and_true] at hF
    obtain ⟨_, _⟩ := hF
    unfold runElements
    repeat' first
      | with_reducible
          first
          | exact runElements_within hF0 _ _ _ _ _ _ | intro _ | exact readInputs_within ‹_› ..
          | exact raiseFlags_within .. | exact within_pure _ | exact withinW_pure _ | exact withinW_get
          | exact withinW_set _ | exact withinW_modify _ | exact withinW_modifyGet _
          | exact within_countUp _ _ _ _ ‹_› | refine within_bind ?_ fun _ => ?_ | refine withinW_doing ?_
          | refine withinW_bind ?_ fun _ => ?_ | refine withinW_forIn _ _ _ fun _ _ => ?_ | refine withinW_map _ ?_
          | split | dsimp only

def runWave_foot : Foot := fetchWave_foot ++ runElements_foot
theorem runWave_within {F : Foot} (hF : runWave_foot ⊆ F) (p : Stroke) (d : Slot) (tile : Nat) (h : Nat → Option Val) (first : Bool) (es : List Nat) : WithinW F (runWave p d tile h first es : Work s₀ (Option (List (Nat × Lane)))) := by
  simp only [runWave_foot, List.append_subset] at hF
  obtain ⟨_, _⟩ := hF
  unfold runWave
  repeat' first
    | with_reducible
        first
        | intro _ | exact fetchWave_within ‹_› .. | exact runElements_within ‹_› .. | exact within_pure _
        | exact withinW_pure _ | exact withinW_get | exact withinW_set _ | exact withinW_modify _
        | exact withinW_modifyGet _ | refine within_bind ?_ fun _ => ?_ | refine withinW_ite ?_ ?_
        | refine withinW_doing ?_ | refine withinW_bind ?_ fun _ => ?_ | refine withinW_forIn _ _ _ fun _ _ => ?_
        | refine withinW_map _ ?_ | split | dsimp only

theorem storeElt_within {F : Foot} (p : Stroke) (d : Slot) (tile o : Nat) (x : Tensor) (st : Stores) (e : Nat) (v : Elt) : WithinW F (storeElt p d tile o x st e v : Work s₀ Stores) := by
  unfold storeElt
  repeat' first
    | with_reducible
        first
        | intro _ | exact putBlock_within .. | exact putRaw_within .. | exact putElt_within .. | exact within_pure _
        | exact withinW_pure _ | exact withinW_get | exact withinW_set _ | exact withinW_modify _
        | exact withinW_modifyGet _ | refine within_bind ?_ fun _ => ?_ | refine withinW_ite ?_ ?_
        | refine withinW_doing ?_ | refine withinW_bind ?_ fun _ => ?_ | refine withinW_forIn _ _ _ fun _ _ => ?_
        | refine withinW_map _ ?_ | split | dsimp only

theorem storeAll_within {F : Foot} (p : Stroke) (d : Slot) (tile o : Nat) (x : Tensor) : ∀ x0 x1, WithinW F (storeAll p d tile o x x0 x1 : Work s₀ Stores)
  | st, [] => by
    unfold storeAll
    repeat' first
      | with_reducible
          first
          | exact storeAll_within _ _ _ _ _ _ _ | intro _ | exact storeElt_within .. | exact within_pure _
          | exact withinW_pure _ | exact withinW_get | exact withinW_set _ | exact withinW_modify _
          | exact withinW_modifyGet _ | refine within_bind ?_ fun _ => ?_ | refine withinW_doing ?_
          | refine withinW_bind ?_ fun _ => ?_ | refine withinW_forIn _ _ _ fun _ _ => ?_ | refine withinW_map _ ?_
          | split | dsimp only
  | st, (e, v) :: rest => by
    unfold storeAll
    repeat' first
      | with_reducible
          first
          | exact storeAll_within _ _ _ _ _ _ _ | intro _ | exact storeElt_within .. | exact within_pure _
          | exact withinW_pure _ | exact withinW_get | exact withinW_set _ | exact withinW_modify _
          | exact withinW_modifyGet _ | refine within_bind ?_ fun _ => ?_ | refine withinW_doing ?_
          | refine withinW_bind ?_ fun _ => ?_ | refine withinW_forIn _ _ _ fun _ _ => ?_ | refine withinW_map _ ?_
          | split | dsimp only

def commitMerged_foot : Foot := sendTo_foot
theorem commitMerged_within {F : Foot} (hF : commitMerged_foot ⊆ F) (ac : Option Nat) : WithinW F (commitMerged ac : Work s₀ Unit) := by
  simp only [commitMerged_foot] at hF
  unfold commitMerged
  repeat' first
    | with_reducible
        first
        | intro _ | exact sendTo_within ‹_› .. | exact arises_within .. | exact within_pure _ | exact withinW_pure _
        | exact withinW_get | exact withinW_set _ | exact withinW_modify _ | exact withinW_modifyGet _
        | refine within_bind ?_ fun _ => ?_ | refine withinW_ite ?_ ?_ | refine within_forIn _ _ _ fun _ _ => ?_
        | refine withinW_doing ?_ | refine withinW_bind ?_ fun _ => ?_ | refine withinW_forIn _ _ _ fun _ _ => ?_
        | refine withinW_map _ ?_ | split | dsimp only

def storeOutput_foot : Foot := commitMerged_foot
theorem storeOutput_within {F : Foot} (hF : storeOutput_foot ⊆ F) (p : Stroke) (d : Slot) (tile o : Nat) (st : Stores) (vs : List (Nat × Elt)) : WithinW F (storeOutput p d tile o st vs : Work s₀ Stores) := by
  simp only [storeOutput_foot] at hF
  unfold storeOutput
  repeat' first
    | with_reducible
        first
        | intro _ | exact storeAll_within .. | exact commitMerged_within ‹_› .. | exact within_pure _
        | exact withinW_pure _ | exact withinW_get | exact withinW_set _ | exact withinW_modify _
        | exact withinW_modifyGet _ | refine within_bind ?_ fun _ => ?_ | refine withinW_doing ?_
        | refine withinW_bind ?_ fun _ => ?_ | refine withinW_forIn _ _ _ fun _ _ => ?_ | refine withinW_map _ ?_
        | split | dsimp only

def tallyWave_foot : Foot := tally_foot ++ tallyIssue_foot
theorem tallyWave_within {F : Foot} (hF : tallyWave_foot ⊆ F) (tile : Nat) (p : Stroke) (d : Slot) (first : Bool) (es : List Nat) : Within F (tallyWave tile p d first es : Act s₀ Unit) := by
  simp only [tallyWave_foot, List.append_subset] at hF
  obtain ⟨_, _⟩ := hF
  unfold tallyWave
  repeat' first
    | with_reducible
        first
        | intro _ | exact tally_within ‹_› .. | exact tallyIssue_within ‹_› .. | exact within_pure _
        | refine within_bind ?_ fun _ => ?_ | refine within_ite ?_ ?_ | refine within_each _ _ fun _ => ?_ | split
        | dsimp only

def mapWave_foot : Foot := runWave_foot ++ storeOutput_foot
theorem mapWave_within {F : Foot} (hF : mapWave_foot ⊆ F) (p : Stroke) (d : Slot) (tile : Nat) (r : VeRun) (es : List Nat) : WithinW F (mapWave p d tile r es : Work s₀ VeRun) := by
  simp only [mapWave_foot, List.append_subset] at hF
  obtain ⟨_, _⟩ := hF
  unfold mapWave
  repeat' first
    | with_reducible
        first
        | intro _ | exact runWave_within ‹_› .. | exact storeOutput_within ‹_› .. | exact raiseFlags_within ..
        | exact within_pure _ | exact withinW_pure _ | exact withinW_get | exact withinW_set _
        | exact withinW_modify _ | exact withinW_modifyGet _ | refine within_bind ?_ fun _ => ?_
        | refine withinW_ite ?_ ?_ | refine withinW_doing ?_ | refine withinW_bind ?_ fun _ => ?_
        | refine withinW_forIn _ _ _ fun _ _ => ?_ | refine withinW_map _ ?_ | split | dsimp only

def sweepWave_foot : Foot := runWave_foot
theorem sweepWave_within {F : Foot} (hF : sweepWave_foot ⊆ F) (p : Stroke) (d : Slot) (tile : Nat) (r : VeRun) (es : List Nat) : WithinW F (sweepWave p d tile r es : Work s₀ VeRun) := by
  simp only [sweepWave_foot] at hF
  unfold sweepWave
  repeat' first
    | with_reducible
        first
        | intro _ | exact runWave_within ‹_› .. | exact within_pure _ | exact withinW_pure _ | exact withinW_get
        | exact withinW_set _ | exact withinW_modify _ | exact withinW_modifyGet _
        | refine within_bind ?_ fun _ => ?_ | refine withinW_doing ?_ | refine withinW_bind ?_ fun _ => ?_
        | refine withinW_forIn _ _ _ fun _ _ => ?_ | refine withinW_map _ ?_ | split | dsimp only

def secondSweep_foot : Foot := runWave_foot ++ (storeOutput_foot ++ tallyWave_foot)
theorem secondSweep_within {F : Foot} (hF : secondSweep_foot ⊆ F) (p : Stroke) (d : Slot) (tile : Nat) (h : Nat → Option Val) (dark : Bool) : ∀ x0 x1, WithinW F (secondSweep p d tile h dark x0 x1 : Work s₀ Unit)
  | _, [] => by
    have hF0 := hF
    simp only [secondSweep_foot, List.append_subset] at hF
    obtain ⟨_, _, _⟩ := hF
    unfold secondSweep
    repeat' first
      | with_reducible
          first
          | exact secondSweep_within hF0 _ _ _ _ _ _ _ | intro _ | exact runWave_within ‹_› ..
          | exact storeOutput_within ‹_› .. | exact tallyWave_within ‹_› .. | exact within_pure _
          | exact withinW_pure _ | exact withinW_get | exact withinW_set _ | exact withinW_modify _
          | exact withinW_modifyGet _ | refine within_bind ?_ fun _ => ?_ | refine withinW_ite ?_ ?_
          | refine withinW_doing ?_ | refine withinW_bind ?_ fun _ => ?_ | refine withinW_forIn _ _ _ fun _ _ => ?_
          | refine withinW_map _ ?_ | split | dsimp only
  | st, es :: rest => by
    have hF0 := hF
    simp only [secondSweep_foot, List.append_subset] at hF
    obtain ⟨_, _, _⟩ := hF
    unfold secondSweep
    repeat' first
      | with_reducible
          first
          | exact secondSweep_within hF0 _ _ _ _ _ _ _ | intro _ | exact runWave_within ‹_› ..
          | exact storeOutput_within ‹_› .. | exact tallyWave_within ‹_› .. | exact within_pure _
          | exact withinW_pure _ | exact withinW_get | exact withinW_set _ | exact withinW_modify _
          | exact withinW_modifyGet _ | refine within_bind ?_ fun _ => ?_ | refine withinW_ite ?_ ?_
          | refine withinW_doing ?_ | refine withinW_bind ?_ fun _ => ?_ | refine withinW_forIn _ _ _ fun _ _ => ?_
          | refine withinW_map _ ?_ | split | dsimp only

def initialStates_foot : Foot := getElt_foot
theorem initialStates_within {F : Foot} (hF : initialStates_foot ⊆ F) (p : Stroke) : ∀ x0, WithinW F (initialStates p x0 : Work s₀ (List (Nat × Val)))
  | [] => by
    have hF0 := hF
    simp only [initialStates_foot] at hF
    unfold initialStates
    repeat' first
      | with_reducible
          first
          | exact initialStates_within hF0 _ _ | intro _ | exact getElt_within ‹_› .. | exact raiseFlags_within ..
          | exact within_pure _ | exact withinW_pure _ | exact withinW_get | exact withinW_set _
          | exact withinW_modify _ | exact withinW_modifyGet _ | refine within_bind ?_ fun _ => ?_
          | refine withinW_doing ?_ | refine withinW_bind ?_ fun _ => ?_ | refine withinW_forIn _ _ _ fun _ _ => ?_
          | refine withinW_map _ ?_ | split | dsimp only
  | e :: es => by
    have hF0 := hF
    simp only [initialStates_foot] at hF
    unfold initialStates
    repeat' first
      | with_reducible
          first
          | exact initialStates_within hF0 _ _ | intro _ | exact getElt_within ‹_› .. | exact raiseFlags_within ..
          | exact within_pure _ | exact withinW_pure _ | exact withinW_get | exact withinW_set _
          | exact withinW_modify _ | exact withinW_modifyGet _ | refine within_bind ?_ fun _ => ?_
          | refine withinW_doing ?_ | refine withinW_bind ?_ fun _ => ?_ | refine withinW_forIn _ _ _ fun _ _ => ?_
          | refine withinW_map _ ?_ | split | dsimp only

def scanRest_foot : Foot := initialStates_foot ++ secondSweep_foot
theorem scanRest_within {F : Foot} (hF : scanRest_foot ⊆ F) (p : Stroke) (d : Slot) (tile : Nat) (r : VeRun) : WithinW F (scanRest p d tile r : Work s₀ Unit) := by
  simp only [scanRest_foot, List.append_subset] at hF
  obtain ⟨_, _⟩ := hF
  unfold scanRest
  repeat' first
    | with_reducible
        first
        | intro _ | exact initialStates_within ‹_› .. | exact raiseFlags_within .. | exact secondSweep_within ‹_› ..
        | exact within_pure _ | exact within_now | exact withinW_pure _ | exact withinW_get | exact withinW_set _
        | exact withinW_modify _ | exact withinW_modifyGet _ | refine within_bind ?_ fun _ => ?_
        | refine withinW_ite ?_ ?_ | refine withinW_doing ?_ | refine withinW_bind ?_ fun _ => ?_
        | refine withinW_forIn _ _ _ fun _ _ => ?_ | refine withinW_map _ ?_ | split | dsimp only

def setVeRun_foot : Foot := [.part .ve]
theorem setVeRun_within {F : Foot} (hF : setVeRun_foot ⊆ F) (r : VeRun) : Within F (setVeRun r : Act s₀ Unit) := by
  simp only [setVeRun_foot, List.cons_subset, List.nil_subset, and_true] at hF
  unfold setVeRun
  repeat' first
    | with_reducible
        first
        | intro _ | exact within_pure _ | refine within_bind ?_ fun _ => ?_ | split | dsimp only
    | exact within_change _ fun u p => by cases p <;> first | exact .inl rfl | exact .inr ‹_› | (refine .inl ?_; simp only [Part.same]; repeat' split) <;> rfl

def endVeRun_foot : Foot := [.part .ve]
theorem endVeRun_within {F : Foot} (hF : endVeRun_foot ⊆ F) (t : Nat) : Within F (endVeRun t : Act s₀ Unit) := by
  simp only [endVeRun_foot, List.cons_subset, List.nil_subset, and_true] at hF
  unfold endVeRun
  repeat' first
    | with_reducible
        first
        | intro _ | exact within_pure _ | refine within_bind ?_ fun _ => ?_ | split | dsimp only
    | exact within_change _ fun u p => by cases p <;> first | exact .inl rfl | exact .inr ‹_› | (refine .inl ?_; simp only [Part.same]; repeat' split) <;> rfl

def endStroke_foot : Foot := endVeRun_foot ++ finish_foot
theorem endStroke_within {F : Foot} (hF : endStroke_foot ⊆ F) (t : TileNo) (id : Nat) : Within F (endStroke t id : Act s₀ Unit) := by
  simp only [endStroke_foot, List.append_subset] at hF
  obtain ⟨_, _⟩ := hF
  unfold endStroke
  repeat' first
    | with_reducible
        first
        | intro _ | exact endVeRun_within ‹_› .. | exact finish_within ‹_› .. | exact within_pure _
        | refine within_bind ?_ fun _ => ?_ | split | dsimp only

def oneWave_foot : Foot := runFor_foot ++ (sweepWave_foot ++ (mapWave_foot ++ (endStroke_foot ++ (tallyWave_foot ++ (setVeRun_foot ++ scanRest_foot)))))
theorem oneWave_within {F : Foot} (hF : oneWave_foot ⊆ F) (t : TileNo) (d : Slot) (p : Stroke) (ws : List (List Nat)) (r : VeRun) : Within F (oneWave t d p ws r : Act s₀ Bool) := by
  simp only [oneWave_foot, List.append_subset] at hF
  obtain ⟨_, _, _, _, _, _, _⟩ := hF
  unfold oneWave
  repeat' first
    | with_reducible
        first
        | intro _ | exact sweepWave_within ‹_› .. | exact mapWave_within ‹_› .. | exact endStroke_within ‹_› ..
        | exact tallyWave_within ‹_› .. | exact setVeRun_within ‹_› .. | exact scanRest_within ‹_› ..
        | exact within_pure _ | refine within_bind ?_ fun _ => ?_ | refine within_ite ?_ ?_
        | refine runFor_within ‹_› _ _ ?_ | exact withinW_pure _ | exact withinW_get | refine withinW_doing ?_
        | refine withinW_bind ?_ fun _ => ?_ | refine withinW_map _ ?_ | refine withinP_run ?_ | exact withinP_pure _
        | refine withinP_lift ?_ | refine withinP_bind ?_ fun _ => ?_ | split | dsimp only

def manyWaves_foot : Foot := oneWave_foot
theorem manyWaves_within {F : Foot} (hF : manyWaves_foot ⊆ F) (t : TileNo) (d : Slot) (p : Stroke) (ws : List (List Nat)) : ∀ x0, Within F (manyWaves t d p ws x0 : Act s₀ Unit)
  | 0 => by
    have hF0 := hF
    simp only [manyWaves_foot] at hF
    unfold manyWaves
    repeat' first
      | with_reducible
          first
          | exact manyWaves_within hF0 _ _ _ _ _ | intro _ | exact oneWave_within ‹_› .. | exact within_pure _
          | exact within_now | refine within_bind ?_ fun _ => ?_ | refine within_ite ?_ ?_ | split | dsimp only
  | n + 1 => by
    have hF0 := hF
    simp only [manyWaves_foot] at hF
    unfold manyWaves
    repeat' first
      | with_reducible
          first
          | exact manyWaves_within hF0 _ _ _ _ _ | intro _ | exact oneWave_within ‹_› .. | exact within_pure _
          | exact within_now | refine within_bind ?_ fun _ => ?_ | refine within_ite ?_ ?_ | split | dsimp only

theorem emptyStroke_within {F : Foot} (p : Stroke) : WithinW F (emptyStroke p : Work s₀ Unit) := by
  unfold emptyStroke
  repeat' first
    | with_reducible
        first
        | intro _ | exact arises_within .. | exact within_pure _ | exact withinW_pure _ | exact withinW_get
        | exact withinW_set _ | exact withinW_modify _ | exact withinW_modifyGet _
        | refine within_bind ?_ fun _ => ?_ | refine withinW_ite ?_ ?_ | refine withinW_doing ?_
        | refine withinW_bind ?_ fun _ => ?_ | refine withinW_forIn _ _ _ fun _ _ => ?_ | refine withinW_map _ ?_
        | split | dsimp only

def actStroke_foot : Foot := runFor_foot ++ (finish_foot ++ (setVeRun_foot ++ manyWaves_foot))
theorem actStroke_within {F : Foot} (hF : actStroke_foot ⊆ F) (t : TileNo) (mode : Nat) : Within F (actStroke t mode : Act s₀ Unit) := by
  simp only [actStroke_foot, List.append_subset] at hF
  obtain ⟨_, _, _, _⟩ := hF
  unfold actStroke
  repeat' first
    | with_reducible
        first
        | intro _ | exact emptyStroke_within .. | exact finish_within ‹_› .. | exact setVeRun_within ‹_› ..
        | exact manyWaves_within ‹_› .. | exact within_pure _ | exact within_now | refine within_bind ?_ fun _ => ?_
        | refine within_ite ?_ ?_ | refine runFor_within ‹_› _ _ ?_ | exact withinW_pure _ | exact withinW_get
        | refine withinW_doing ?_ | refine withinW_bind ?_ fun _ => ?_ | refine withinW_map _ ?_
        | refine withinP_run ?_ | exact withinP_pure _ | refine withinP_lift ?_ | refine withinP_bind ?_ fun _ => ?_
        | split | dsimp only

def actVePaceRelease_foot : Foot := oneWave_foot
theorem actVePaceRelease_within {F : Foot} (hF : actVePaceRelease_foot ⊆ F) (t : TileNo) : Within F (actVePaceRelease t : Act s₀ Unit) := by
  simp only [actVePaceRelease_foot] at hF
  unfold actVePaceRelease
  repeat' first
    | with_reducible
        first
        | intro _ | exact oneWave_within ‹_› .. | exact within_pure _ | exact within_now
        | refine within_bind ?_ fun _ => ?_ | refine within_ite ?_ ?_ | split | dsimp only

end Sys2Proof.Machine
end

