-- ==== Sys2Proof/Laws/FootNormSoftmax.lean ====
section
/-! SUPPORT. The footprints of the actions of NormSoftmax. -/

namespace Sys2Proof.Machine

variable {s₀ : State}

theorem permitOutputs_within {F : Foot} (ac : Option Nat) : ∀ x0, WithinP F (permitOutputs ac x0 : Prep s₀ Unit)
  | [] => by
    unfold permitOutputs
    repeat' first
      | with_reducible
          first
          | exact permitOutputs_within _ _ | intro _ | exact permitTensor_within .. | exact permitCounter_within ..
          | exact within_pure _ | exact withinW_pure _ | exact withinW_get | exact withinW_set _
          | exact withinW_modify _ | exact withinW_modifyGet _ | exact withinP_pure _ | exact withinP_failure
          | refine within_bind ?_ fun _ => ?_ | refine withinW_doing ?_ | refine withinW_bind ?_ fun _ => ?_
          | refine withinW_forIn _ _ _ fun _ _ => ?_ | refine withinW_map _ ?_ | refine withinP_lift ?_
          | refine withinP_bind ?_ fun _ => ?_ | refine withinP_forIn _ _ _ fun _ _ => ?_ | refine withinP_map _ ?_
          | split | dsimp only
  | x :: xs => by
    unfold permitOutputs
    repeat' first
      | with_reducible
          first
          | exact permitOutputs_within _ _ | intro _ | exact permitTensor_within .. | exact permitCounter_within ..
          | exact within_pure _ | exact withinW_pure _ | exact withinW_get | exact withinW_set _
          | exact withinW_modify _ | exact withinW_modifyGet _ | exact withinP_pure _ | exact withinP_failure
          | refine within_bind ?_ fun _ => ?_ | refine withinW_doing ?_ | refine withinW_bind ?_ fun _ => ?_
          | refine withinW_forIn _ _ _ fun _ _ => ?_ | refine withinW_map _ ?_ | refine withinP_lift ?_
          | refine withinP_bind ?_ fun _ => ?_ | refine withinP_forIn _ _ _ fun _ _ => ?_ | refine withinP_map _ ?_
          | split | dsimp only

def prepNorm_foot : Foot := readTensors_foot
theorem prepNorm_within {F : Foot} (hF : prepNorm_foot ⊆ F) (t : Nat) (w : Descriptor) : WithinP F (prepNorm t w : Prep s₀ (List Nat)) := by
  simp only [prepNorm_foot] at hF
  unfold prepNorm
  repeat' first
    | with_reducible
        first
        | intro _ | exact demand_within .. | exact readTensors_within ‹_› .. | exact permitAll_within ..
        | exact permitOutputs_within .. | exact within_pure _ | exact withinW_pure _ | exact withinW_get
        | exact withinW_set _ | exact withinW_modify _ | exact withinW_modifyGet _ | exact withinP_pure _
        | exact withinP_failure | refine within_bind ?_ fun _ => ?_ | refine withinW_doing ?_
        | refine withinW_bind ?_ fun _ => ?_ | refine withinW_forIn _ _ _ fun _ _ => ?_ | refine withinW_map _ ?_
        | refine withinP_lift ?_ | refine withinP_bind ?_ fun _ => ?_ | refine withinP_forIn _ _ _ fun _ _ => ?_
        | refine withinP_map _ ?_ | split | dsimp only

def prepSoftmax_foot : Foot := readTensors_foot
theorem prepSoftmax_within {F : Foot} (hF : prepSoftmax_foot ⊆ F) (t : Nat) (w : Descriptor) : WithinP F (prepSoftmax t w : Prep s₀ (List Nat)) := by
  simp only [prepSoftmax_foot] at hF
  unfold prepSoftmax
  repeat' first
    | with_reducible
        first
        | intro _ | exact demand_within .. | exact readTensors_within ‹_› .. | exact permitAll_within ..
        | exact permitOutputs_within .. | exact within_pure _ | exact withinW_pure _ | exact withinW_get
        | exact withinW_set _ | exact withinW_modify _ | exact withinW_modifyGet _ | exact withinP_pure _
        | exact withinP_failure | refine within_bind ?_ fun _ => ?_ | refine withinP_ite ?_ ?_
        | refine withinW_doing ?_ | refine withinW_bind ?_ fun _ => ?_ | refine withinW_forIn _ _ _ fun _ _ => ?_
        | refine withinW_map _ ?_ | refine withinP_lift ?_ | refine withinP_bind ?_ fun _ => ?_
        | refine withinP_forIn _ _ _ fun _ _ => ?_ | refine withinP_map _ ?_ | split | dsimp only

def newWave_foot : Foot := endStream_foot
theorem newWave_within {F : Foot} (hF : newWave_foot ⊆ F) : WithinW F (newWave : Work s₀ Unit) := by
  simp only [newWave_foot] at hF
  unfold newWave
  repeat' first
    | with_reducible
        first
        | intro _ | exact endStream_within ‹_› .. | exact within_pure _ | exact withinW_pure _ | exact withinW_get
        | exact withinW_set _ | exact withinW_modify _ | exact withinW_modifyGet _
        | refine within_bind ?_ fun _ => ?_ | refine withinW_doing ?_ | refine withinW_bind ?_ fun _ => ?_
        | refine withinW_forIn _ _ _ fun _ _ => ?_ | refine withinW_map _ ?_ | split | dsimp only

theorem goesOn_within {F : Foot} : WithinW F (goesOn : Work s₀ Bool) := by
  unfold goesOn
  repeat' first
    | with_reducible
        first
        | intro _ | exact within_pure _ | exact withinW_pure _ | exact withinW_get | exact withinW_set _
        | exact withinW_modify _ | exact withinW_modifyGet _ | refine within_bind ?_ fun _ => ?_
        | refine withinW_doing ?_ | refine withinW_bind ?_ fun _ => ?_ | refine withinW_forIn _ _ _ fun _ _ => ?_
        | refine withinW_map _ ?_ | split | dsimp only

def readElts_foot : Foot := getElt_foot
theorem readElts_within {F : Foot} (hF : readElts_foot ⊆ F) (x : Tensor) : ∀ x0, WithinW F (readElts x x0 : Work s₀ (List Elt))
  | [] => by
    have hF0 := hF
    simp only [readElts_foot] at hF
    unfold readElts
    repeat' first
      | with_reducible
          first
          | exact readElts_within hF0 _ _ | intro _ | exact getElt_within ‹_› .. | exact within_pure _
          | exact withinW_pure _ | exact withinW_get | exact withinW_set _ | exact withinW_modify _
          | exact withinW_modifyGet _ | refine within_bind ?_ fun _ => ?_ | refine withinW_doing ?_
          | refine withinW_bind ?_ fun _ => ?_ | refine withinW_forIn _ _ _ fun _ _ => ?_ | refine withinW_map _ ?_
          | split | dsimp only
  | j :: js => by
    have hF0 := hF
    simp only [readElts_foot] at hF
    unfold readElts
    repeat' first
      | with_reducible
          first
          | exact readElts_within hF0 _ _ | intro _ | exact getElt_within ‹_› .. | exact within_pure _
          | exact withinW_pure _ | exact withinW_get | exact withinW_set _ | exact withinW_modify _
          | exact withinW_modifyGet _ | refine within_bind ?_ fun _ => ?_ | refine withinW_doing ?_
          | refine withinW_bind ?_ fun _ => ?_ | refine withinW_forIn _ _ _ fun _ _ => ?_ | refine withinW_map _ ?_
          | split | dsimp only

def readOpt_foot : Foot := readElts_foot
theorem readOpt_within {F : Foot} (hF : readOpt_foot ⊆ F) (x : Option Tensor) (js : List (List Nat)) : WithinW F (readOpt x js : Work s₀ (List (Option Val))) := by
  simp only [readOpt_foot] at hF
  unfold readOpt
  repeat' first
    | with_reducible
        first
        | intro _ | exact readElts_within ‹_› .. | exact within_pure _ | exact withinW_pure _ | exact withinW_get
        | exact withinW_set _ | exact withinW_modify _ | exact withinW_modifyGet _
        | refine within_bind ?_ fun _ => ?_ | refine withinW_doing ?_ | refine withinW_bind ?_ fun _ => ?_
        | refine withinW_forIn _ _ _ fun _ _ => ?_ | refine withinW_map _ ?_ | split | dsimp only

def readWaves_foot : Foot := fetchWave_foot
theorem readWaves_within {F : Foot} {α : Type} (h : readWaves_foot ⊆ F) (ins : List Tensor)
    {f : List (List Nat) → Work s₀ (List α)} (hf : ∀ x, WithinW F (f x)) :
    ∀ x, WithinW F (readWaves ins f x : Work s₀ (List (List (List Nat × α))))
  | [] => withinW_pure _
  | _ :: _ => by
    have _ : fetchWave_foot ⊆ F := h
    unfold readWaves
    repeat' first
      | with_reducible
          first
          | intro _ | exact hf _ | exact goesOn_within .. | exact fetchWave_within ‹_› .. | exact readWaves_within h _ hf _
          | exact withinW_pure _ | exact withinW_get | refine withinW_bind ?_ fun _ => ?_ | split | dsimp only

def tallyWaves_foot : Foot := tally_foot
theorem tallyWaves_within {F : Foot} (hF : tallyWaves_foot ⊆ F) (tile : Nat) (d : Slot) (n : Nat) : WithinW F (tallyWaves tile d n : Work s₀ Unit) := by
  simp only [tallyWaves_foot] at hF
  unfold tallyWaves
  repeat' first
    | with_reducible
        first
        | intro _ | exact tally_within ‹_› .. | exact within_pure _ | exact withinW_pure _ | exact withinW_get
        | exact withinW_set _ | exact withinW_modify _ | exact withinW_modifyGet _
        | refine within_bind ?_ fun _ => ?_ | refine within_each _ _ fun _ => ?_ | refine withinW_doing ?_
        | refine withinW_bind ?_ fun _ => ?_ | refine withinW_forIn _ _ _ fun _ _ => ?_ | refine withinW_map _ ?_
        | split | dsimp only

def putWave_foot : Foot := newWave_foot ++ commitMerged_foot
theorem putWave_within {F : Foot} (hF : putWave_foot ⊆ F) (d : Slot) (tile : Nat) (y : Tensor) (es : List (List Nat × Elt)) : WithinW F (putWave d tile y es : Work s₀ Unit) := by
  simp only [putWave_foot, List.append_subset] at hF
  obtain ⟨_, _⟩ := hF
  unfold putWave
  repeat' first
    | with_reducible
        first
        | intro _ | exact newWave_within ‹_› .. | exact putAll_within .. | exact commitMerged_within ‹_› ..
        | exact within_pure _ | exact withinW_pure _ | exact withinW_get | exact withinW_set _
        | exact withinW_modify _ | exact withinW_modifyGet _ | refine within_bind ?_ fun _ => ?_
        | refine withinW_ite ?_ ?_ | refine withinW_doing ?_ | refine withinW_bind ?_ fun _ => ?_
        | refine withinW_forIn _ _ _ fun _ _ => ?_ | refine withinW_map _ ?_ | split | dsimp only

def putCodes_foot : Foot := newWave_foot ++ commitMerged_foot
theorem putCodes_within {F : Foot} (hF : putCodes_foot ⊆ F) (d : Slot) (y : Tensor) (es : List (List Nat × Nat)) : WithinW F (putCodes d y es : Work s₀ Unit) := by
  simp only [putCodes_foot, List.append_subset] at hF
  obtain ⟨_, _⟩ := hF
  unfold putCodes
  repeat' first
    | with_reducible
        first
        | intro _ | exact newWave_within ‹_› .. | exact putRaw_within .. | exact commitMerged_within ‹_› ..
        | exact within_pure _ | exact withinW_pure _ | exact withinW_get | exact withinW_set _
        | exact withinW_modify _ | exact withinW_modifyGet _ | refine within_bind ?_ fun _ => ?_
        | refine within_forIn _ _ _ fun _ _ => ?_ | refine withinW_doing ?_ | refine withinW_bind ?_ fun _ => ?_
        | refine withinW_forIn _ _ _ fun _ _ => ?_ | refine withinW_map _ ?_ | split | dsimp only

def emptyRows_foot : Foot := [.fld SFU_EMPTY_REDUCE_COUNT_COUNT]
theorem emptyRows_within {F : Foot} (hF : emptyRows_foot ⊆ F) (tile rows : Nat) : WithinW F (emptyRows tile rows : Work s₀ Unit) := by
  simp only [emptyRows_foot, List.cons_subset, List.nil_subset, and_true] at hF
  unfold emptyRows
  repeat' first
    | with_reducible
        first
        | intro _ | exact arises_within .. | exact within_pure _ | exact withinW_pure _ | exact withinW_get
        | exact withinW_set _ | exact withinW_modify _ | exact withinW_modifyGet _ | exact within_countUp _ _ _ _ ‹_›
        | refine within_bind ?_ fun _ => ?_ | refine withinW_ite ?_ ?_ | refine withinW_doing ?_
        | refine withinW_bind ?_ fun _ => ?_ | refine withinW_forIn _ _ _ fun _ _ => ?_ | refine withinW_map _ ?_
        | split | dsimp only

def groupStats_foot : Foot := [.fld VE_CLAMP_COUNT_COUNT] ++ (readWaves_foot ++ (readElts_foot ++ tallyWaves_foot))
theorem groupStats_within {F : Foot} (hF : groupStats_foot ⊆ F) (d : Slot) (tile : Nat) (x : Tensor) (rows : List (List Nat)) : WithinW F (groupStats d tile x rows : Work s₀ (Option (List (List Nat × Option RowStats)))) := by
  simp only [groupStats_foot, List.append_subset, List.cons_subset, List.nil_subset, and_true] at hF
  obtain ⟨_, _, _, _⟩ := hF
  unfold groupStats
  repeat' first
    | with_reducible
        first
        | intro _ | exact readElts_within ‹_› .. | exact tallyWaves_within ‹_› .. | exact goesOn_within ..
        | exact raiseFlags_within .. | exact within_pure _ | exact withinW_pure _ | exact withinW_get
        | exact withinW_set _ | exact withinW_modify _ | exact withinW_modifyGet _ | exact within_countUp _ _ _ _ ‹_›
        | refine within_bind ?_ fun _ => ?_ | refine withinW_ite ?_ ?_ | refine within_forIn _ _ _ fun _ _ => ?_
        | refine withinW_doing ?_ | refine withinW_bind ?_ fun _ => ?_ | refine withinW_forIn _ _ _ fun _ _ => ?_
        | refine withinW_map _ ?_ | refine readWaves_within ‹_› _ (fun _ => ?_) _ | exact withinW_pure _
        | exact withinW_get | refine withinP_forIn _ _ _ fun _ _ => ?_ | refine withinP_run ?_ | exact withinP_pure _
        | refine withinP_lift ?_ | refine withinP_bind ?_ fun _ => ?_ | split | dsimp only

def putStats_foot : Foot := putCodes_foot
theorem putStats_within {F : Foot} (hF : putStats_foot ⊆ F) (d : Slot) (n : Nat) (z : Tensor) (sts : List (List Nat × Option RowStats)) : WithinW F (putStats d n z sts : Work s₀ Unit) := by
  simp only [putStats_foot] at hF
  unfold putStats
  repeat' first
    | with_reducible
        first
        | intro _ | exact putCodes_within ‹_› .. | exact within_pure _ | exact withinW_pure _ | exact withinW_get
        | exact withinW_set _ | exact withinW_modify _ | exact withinW_modifyGet _
        | refine within_bind ?_ fun _ => ?_ | refine withinW_ite ?_ ?_ | refine within_forIn _ _ _ fun _ _ => ?_
        | refine withinW_doing ?_ | refine withinW_bind ?_ fun _ => ?_ | refine withinW_forIn _ _ _ fun _ _ => ?_
        | refine withinW_map _ ?_ | split | dsimp only

def putNorm_foot : Foot := readWaves_foot ++ (readElts_foot ++ (readOpt_foot ++ (putWave_foot ++ tallyWaves_foot)))
theorem putNorm_within {F : Foot} (hF : putNorm_foot ⊆ F) (d : Slot) (tile : Nat) (x y : Tensor) (g b : Option Tensor) (rows : List (List Nat)) (sts : List (List Nat × Option RowStats)) : WithinW F (putNorm d tile x y g b rows sts : Work s₀ Unit) := by
  simp only [putNorm_foot, List.append_subset] at hF
  obtain ⟨_, _, _, _, _⟩ := hF
  unfold putNorm
  repeat' first
    | with_reducible
        first
        | intro _ | exact readElts_within ‹_› .. | exact readOpt_within ‹_› .. | exact raiseFlags_within ..
        | exact putWave_within ‹_› .. | exact tallyWaves_within ‹_› .. | exact within_pure _ | exact withinW_pure _
        | exact withinW_get | exact withinW_set _ | exact withinW_modify _ | exact withinW_modifyGet _
        | refine within_bind ?_ fun _ => ?_ | refine within_forIn _ _ _ fun _ _ => ?_ | refine withinW_doing ?_
        | refine withinW_bind ?_ fun _ => ?_ | refine withinW_forIn _ _ _ fun _ _ => ?_ | refine withinW_map _ ?_
        | refine readWaves_within ‹_› _ (fun _ => ?_) _ | exact withinW_pure _ | exact withinW_get
        | refine withinP_forIn _ _ _ fun _ _ => ?_ | refine withinP_run ?_ | exact withinP_pure _
        | refine withinP_lift ?_ | refine withinP_bind ?_ fun _ => ?_ | split | dsimp only

def normGroups_foot : Foot := groupStats_foot ++ (putStats_foot ++ putNorm_foot)
theorem normGroups_within {F : Foot} (hF : normGroups_foot ⊆ F) (d : Slot) (tile : Nat) (x : Tensor) (y g b st : Option Tensor) : ∀ x0, WithinW F (normGroups d tile x y g b st x0 : Work s₀ Unit)
  | [] => by
    have hF0 := hF
    simp only [normGroups_foot, List.append_subset] at hF
    obtain ⟨_, _, _⟩ := hF
    unfold normGroups
    repeat' first
      | with_reducible
          first
          | exact normGroups_within hF0 _ _ _ _ _ _ _ _ | intro _ | exact groupStats_within ‹_› ..
          | exact putStats_within ‹_› .. | exact putNorm_within ‹_› .. | exact within_pure _ | exact withinW_pure _
          | exact withinW_get | exact withinW_set _ | exact withinW_modify _ | exact withinW_modifyGet _
          | refine within_bind ?_ fun _ => ?_ | refine withinW_ite ?_ ?_ | refine withinW_doing ?_
          | refine withinW_bind ?_ fun _ => ?_ | refine withinW_forIn _ _ _ fun _ _ => ?_ | refine withinW_map _ ?_
          | split | dsimp only
  | rows :: rest => by
    have hF0 := hF
    simp only [normGroups_foot, List.append_subset] at hF
    obtain ⟨_, _, _⟩ := hF
    unfold normGroups
    repeat' first
      | with_reducible
          first
          | exact normGroups_within hF0 _ _ _ _ _ _ _ _ | intro _ | exact groupStats_within ‹_› ..
          | exact putStats_within ‹_› .. | exact putNorm_within ‹_› .. | exact within_pure _ | exact withinW_pure _
          | exact withinW_get | exact withinW_set _ | exact withinW_modify _ | exact withinW_modifyGet _
          | refine within_bind ?_ fun _ => ?_ | refine withinW_ite ?_ ?_ | refine withinW_doing ?_
          | refine withinW_bind ?_ fun _ => ?_ | refine withinW_forIn _ _ _ fun _ _ => ?_ | refine withinW_map _ ?_
          | split | dsimp only

def normWork_foot : Foot := emptyRows_foot ++ normGroups_foot
theorem normWork_within {F : Foot} (hF : normWork_foot ⊆ F) (tile : Nat) (d : Slot) : WithinW F (normWork tile d : Work s₀ Unit) := by
  simp only [normWork_foot, List.append_subset] at hF
  obtain ⟨_, _⟩ := hF
  unfold normWork
  repeat' first
    | with_reducible
        first
        | intro _ | exact emptyRows_within ‹_› .. | exact normGroups_within ‹_› .. | exact within_pure _
        | exact withinW_pure _ | exact withinW_get | exact withinW_set _ | exact withinW_modify _
        | exact withinW_modifyGet _ | refine within_bind ?_ fun _ => ?_ | refine withinW_ite ?_ ?_
        | refine withinW_doing ?_ | refine withinW_bind ?_ fun _ => ?_ | refine withinW_forIn _ _ _ fun _ _ => ?_
        | refine withinW_map _ ?_ | split | dsimp only

def takeTerms_foot : Foot := [.fld SFU_LOGIT_SAT_COUNT_COUNT] ++ tallyWaves_foot
theorem takeTerms_within {F : Foot} (hF : takeTerms_foot ⊆ F) (d : Slot) (tile : Nat) (count : Bool) (got : List (List (List Nat × Elt))) : WithinW F (takeTerms d tile count got : Work s₀ (List (List (List Nat × Term)))) := by
  simp only [takeTerms_foot, List.append_subset, List.cons_subset, List.nil_subset, and_true] at hF
  obtain ⟨_, _⟩ := hF
  unfold takeTerms
  repeat' first
    | with_reducible
        first
        | intro _ | exact raiseFlags_within .. | exact tallyWaves_within ‹_› .. | exact within_pure _
        | exact withinW_pure _ | exact withinW_get | exact withinW_set _ | exact withinW_modify _
        | exact withinW_modifyGet _ | exact within_countUp _ _ _ _ ‹_› | refine within_bind ?_ fun _ => ?_
        | refine withinW_ite ?_ ?_ | refine within_forIn _ _ _ fun _ _ => ?_ | refine withinW_doing ?_
        | refine withinW_bind ?_ fun _ => ?_ | refine withinW_forIn _ _ _ fun _ _ => ?_ | refine withinW_map _ ?_
        | split | dsimp only

def readTerms_foot : Foot := readWaves_foot ++ (readElts_foot ++ takeTerms_foot)
theorem readTerms_within {F : Foot} (hF : readTerms_foot ⊆ F) (d : Slot) (tile : Nat) (count : Bool) (x : Tensor) (ws : List (List (List Nat × List Nat))) : WithinW F (readTerms d tile count x ws : Work s₀ (List (List (List Nat × Term)))) := by
  simp only [readTerms_foot, List.append_subset] at hF
  obtain ⟨_, _, _⟩ := hF
  unfold readTerms
  repeat' first
    | with_reducible
        first
        | intro _ | exact readElts_within ‹_› .. | exact takeTerms_within ‹_› .. | exact within_pure _
        | exact withinW_pure _ | exact withinW_get | exact withinW_set _ | exact withinW_modify _
        | exact withinW_modifyGet _ | refine within_bind ?_ fun _ => ?_ | refine withinW_doing ?_
        | refine withinW_bind ?_ fun _ => ?_ | refine withinW_forIn _ _ _ fun _ _ => ?_ | refine withinW_map _ ?_
        | refine readWaves_within ‹_› _ (fun _ => ?_) _ | exact withinW_pure _ | exact withinW_get
        | refine withinP_run ?_ | exact withinP_pure _ | refine withinP_lift ?_ | refine withinP_bind ?_ fun _ => ?_
        | split | dsimp only

def putSumsOf_foot : Foot := putCodes_foot
theorem putSumsOf_within {F : Foot} (hF : putSumsOf_foot ⊆ F) (d : Slot) (per : Nat) (sm inf : Tensor) (rs : List (List Nat × Val × Int)) : WithinW F (putSumsOf d per sm inf rs : Work s₀ Unit) := by
  simp only [putSumsOf_foot] at hF
  unfold putSumsOf
  repeat' first
    | with_reducible
        first
        | intro _ | exact putCodes_within ‹_› .. | exact within_pure _ | exact withinW_pure _ | exact withinW_get
        | exact withinW_set _ | exact withinW_modify _ | exact withinW_modifyGet _
        | refine within_bind ?_ fun _ => ?_ | refine within_forIn _ _ _ fun _ _ => ?_ | refine withinW_doing ?_
        | refine withinW_bind ?_ fun _ => ?_ | refine withinW_forIn _ _ _ fun _ _ => ?_ | refine withinW_map _ ?_
        | split | dsimp only

def putSoftmax_foot : Foot := [.fld SFU_EMPTY_SOFTMAX_COUNT_COUNT] ++ putWave_foot
theorem putSoftmax_within {F : Foot} (hF : putSoftmax_foot ⊆ F) (d : Slot) (tile : Nat) (y : Tensor) (sums : List (List Nat × Val × Int)) (rows : List (List Nat)) (got : List (List (List Nat × Term))) : WithinW F (putSoftmax d tile y sums rows got : Work s₀ Unit) := by
  simp only [putSoftmax_foot, List.append_subset, List.cons_subset, List.nil_subset, and_true] at hF
  obtain ⟨_, _⟩ := hF
  unfold putSoftmax
  repeat' first
    | with_reducible
        first
        | intro _ | exact arises_within .. | exact raiseFlags_within .. | exact putWave_within ‹_› ..
        | exact within_pure _ | exact withinW_pure _ | exact withinW_get | exact withinW_set _
        | exact withinW_modify _ | exact withinW_modifyGet _ | exact within_countUp _ _ _ _ ‹_›
        | refine within_bind ?_ fun _ => ?_ | refine withinW_ite ?_ ?_ | refine within_forIn _ _ _ fun _ _ => ?_
        | refine withinW_doing ?_ | refine withinW_bind ?_ fun _ => ?_ | refine withinW_forIn _ _ _ fun _ _ => ?_
        | refine withinW_map _ ?_ | split | dsimp only

def softmaxGroups_foot : Foot := readTerms_foot ++ (putSumsOf_foot ++ putSoftmax_foot)
theorem softmaxGroups_within {F : Foot} (hF : softmaxGroups_foot ⊆ F) (d : Slot) (tile : Nat) (x : Tensor) (y sm inf : Option Tensor) : ∀ x0, WithinW F (softmaxGroups d tile x y sm inf x0 : Work s₀ Unit)
  | [] => by
    have hF0 := hF
    simp only [softmaxGroups_foot, List.append_subset] at hF
    obtain ⟨_, _, _⟩ := hF
    unfold softmaxGroups
    repeat' first
      | with_reducible
          first
          | exact softmaxGroups_within hF0 _ _ _ _ _ _ _ | intro _ | exact readTerms_within ‹_› ..
          | exact goesOn_within .. | exact raiseFlags_within .. | exact putSumsOf_within ‹_› ..
          | exact putSoftmax_within ‹_› .. | exact within_pure _ | exact withinW_pure _ | exact withinW_get
          | exact withinW_set _ | exact withinW_modify _ | exact withinW_modifyGet _
          | refine within_bind ?_ fun _ => ?_ | refine withinW_ite ?_ ?_ | refine withinW_doing ?_
          | refine withinW_bind ?_ fun _ => ?_ | refine withinW_forIn _ _ _ fun _ _ => ?_ | refine withinW_map _ ?_
          | split | dsimp only
  | rows :: rest => by
    have hF0 := hF
    simp only [softmaxGroups_foot, List.append_subset] at hF
    obtain ⟨_, _, _⟩ := hF
    unfold softmaxGroups
    repeat' first
      | with_reducible
          first
          | exact softmaxGroups_within hF0 _ _ _ _ _ _ _ | intro _ | exact readTerms_within ‹_› ..
          | exact goesOn_within .. | exact raiseFlags_within .. | exact putSumsOf_within ‹_› ..
          | exact putSoftmax_within ‹_› .. | exact within_pure _ | exact withinW_pure _ | exact withinW_get
          | exact withinW_set _ | exact withinW_modify _ | exact withinW_modifyGet _
          | refine within_bind ?_ fun _ => ?_ | refine withinW_ite ?_ ?_ | refine withinW_doing ?_
          | refine withinW_bind ?_ fun _ => ?_ | refine withinW_forIn _ _ _ fun _ _ => ?_ | refine withinW_map _ ?_
          | split | dsimp only

def readApply_foot : Foot := readElts_foot
theorem readApply_within {F : Foot} (hF : readApply_foot ⊆ F) (x sm inf : Tensor) (js : List (List Nat)) : WithinW F (readApply x sm inf js : Work s₀ (List (Elt × Val × Int))) := by
  simp only [readApply_foot] at hF
  unfold readApply
  repeat' first
    | with_reducible
        first
        | intro _ | exact readElts_within ‹_› .. | exact within_pure _ | exact withinW_pure _ | exact withinW_get
        | exact withinW_set _ | exact withinW_modify _ | exact withinW_modifyGet _
        | refine within_bind ?_ fun _ => ?_ | refine withinW_doing ?_ | refine withinW_bind ?_ fun _ => ?_
        | refine withinW_forIn _ _ _ fun _ _ => ?_ | refine withinW_map _ ?_ | split | dsimp only

def softmaxApplyWork_foot : Foot := readWaves_foot ++ (readApply_foot ++ (takeTerms_foot ++ putSoftmax_foot))
theorem softmaxApplyWork_within {F : Foot} (hF : softmaxApplyWork_foot ⊆ F) (tile : Nat) (d : Slot) (x y sm inf : Tensor) : WithinW F (softmaxApplyWork tile d x y sm inf : Work s₀ Unit) := by
  simp only [softmaxApplyWork_foot, List.append_subset] at hF
  obtain ⟨_, _, _, _⟩ := hF
  unfold softmaxApplyWork
  repeat' first
    | with_reducible
        first
        | intro _ | exact readApply_within ‹_› .. | exact takeTerms_within ‹_› .. | exact putSoftmax_within ‹_› ..
        | exact within_pure _ | exact withinW_pure _ | exact withinW_get | exact withinW_set _
        | exact withinW_modify _ | exact withinW_modifyGet _ | refine within_bind ?_ fun _ => ?_
        | refine withinW_doing ?_ | refine withinW_bind ?_ fun _ => ?_ | refine withinW_forIn _ _ _ fun _ _ => ?_
        | refine withinW_map _ ?_ | refine readWaves_within ‹_› _ (fun _ => ?_) _ | exact withinW_pure _
        | exact withinW_get | refine withinP_run ?_ | exact withinP_pure _ | refine withinP_lift ?_
        | refine withinP_bind ?_ fun _ => ?_ | split | dsimp only

def mergeWaves_foot : Foot := fetchWave_foot ++ (readElts_foot ++ putSumsOf_foot)
theorem mergeWaves_within {F : Foot} (hF : mergeWaves_foot ⊆ F) (d : Slot) (x xc sm inf : Tensor) : ∀ x0, WithinW F (mergeWaves d x xc sm inf x0 : Work s₀ Unit)
  | [] => by
    have hF0 := hF
    simp only [mergeWaves_foot, List.append_subset] at hF
    obtain ⟨_, _, _⟩ := hF
    unfold mergeWaves
    repeat' first
      | with_reducible
          first
          | exact mergeWaves_within hF0 _ _ _ _ _ _ | intro _ | exact goesOn_within ..
          | exact fetchWave_within ‹_› .. | exact readElts_within ‹_› .. | exact raiseFlags_within ..
          | exact putSumsOf_within ‹_› .. | exact within_pure _ | exact withinW_pure _ | exact withinW_get
          | exact withinW_set _ | exact withinW_modify _ | exact withinW_modifyGet _
          | refine within_bind ?_ fun _ => ?_ | refine withinW_ite ?_ ?_ | refine withinW_doing ?_
          | refine withinW_bind ?_ fun _ => ?_ | refine withinW_forIn _ _ _ fun _ _ => ?_ | refine withinW_map _ ?_
          | split | dsimp only
  | rows :: rest => by
    have hF0 := hF
    simp only [mergeWaves_foot, List.append_subset] at hF
    obtain ⟨_, _, _⟩ := hF
    unfold mergeWaves
    repeat' first
      | with_reducible
          first
          | exact mergeWaves_within hF0 _ _ _ _ _ _ | intro _ | exact goesOn_within ..
          | exact fetchWave_within ‹_› .. | exact readElts_within ‹_› .. | exact raiseFlags_within ..
          | exact putSumsOf_within ‹_› .. | exact within_pure _ | exact withinW_pure _ | exact withinW_get
          | exact withinW_set _ | exact withinW_modify _ | exact withinW_modifyGet _
          | refine within_bind ?_ fun _ => ?_ | refine withinW_ite ?_ ?_ | refine withinW_doing ?_
          | refine withinW_bind ?_ fun _ => ?_ | refine withinW_forIn _ _ _ fun _ _ => ?_ | refine withinW_map _ ?_
          | split | dsimp only

def softmaxWork_foot : Foot := emptyRows_foot ++ (softmaxApplyWork_foot ++ (mergeWaves_foot ++ softmaxGroups_foot))
theorem softmaxWork_within {F : Foot} (hF : softmaxWork_foot ⊆ F) (tile : Nat) (d : Slot) : WithinW F (softmaxWork tile d : Work s₀ Unit) := by
  simp only [softmaxWork_foot, List.append_subset] at hF
  obtain ⟨_, _, _, _⟩ := hF
  unfold softmaxWork
  repeat' first
    | with_reducible
        first
        | intro _ | exact emptyRows_within ‹_› .. | exact softmaxApplyWork_within ‹_› ..
        | exact mergeWaves_within ‹_› .. | exact softmaxGroups_within ‹_› .. | exact within_pure _
        | exact withinW_pure _ | exact withinW_get | exact withinW_set _ | exact withinW_modify _
        | exact withinW_modifyGet _ | refine within_bind ?_ fun _ => ?_ | refine withinW_ite ?_ ?_
        | refine withinW_doing ?_ | refine withinW_bind ?_ fun _ => ?_ | refine withinW_forIn _ _ _ fun _ _ => ?_
        | refine withinW_map _ ?_ | split | dsimp only

def actSoftmax_foot : Foot := wholeRun_foot ++ softmaxWork_foot
theorem actSoftmax_within {F : Foot} (hF : actSoftmax_foot ⊆ F) (t : TileNo) (mode : Nat) : Within F (actSoftmax t mode : Act s₀ Unit) := by
  simp only [actSoftmax_foot, List.append_subset] at hF
  obtain ⟨_, _⟩ := hF
  unfold actSoftmax
  repeat' first
    | with_reducible
        first
        | intro _ | exact softmaxWork_within ‹_› .. | exact within_pure _ | exact within_now
        | refine within_bind ?_ fun _ => ?_ | refine within_ite ?_ ?_ | refine wholeRun_within ‹_› _ _ fun _ => ?_
        | exact withinW_pure _ | exact withinW_get | refine withinW_doing ?_ | refine withinW_bind ?_ fun _ => ?_
        | refine withinW_map _ ?_ | refine withinP_run ?_ | exact withinP_pure _ | refine withinP_lift ?_
        | refine withinP_bind ?_ fun _ => ?_ | split | dsimp only

end Sys2Proof.Machine
end

