-- ==== Sys2Proof/Laws/FootCollective.lean ====
section
/-! SUPPORT. The footprints of the actions of Collective. -/

namespace Sys2Proof.Machine

variable {s₀ : State}

def writePart_foot : Foot := writeGranule_foot
theorem writePart_within {F : Foot} (hF : writePart_foot ⊆ F) (f : Frame) (r : Req) : Within F (writePart f r : Act s₀ Got) := by
  simp only [writePart_foot] at hF
  unfold writePart
  repeat' first
    | with_reducible
        first
        | intro _ | exact writeGranule_within ‹_› .. | exact within_pure _ | exact within_now
        | refine within_bind ?_ fun _ => ?_ | refine within_ite ?_ ?_ | split | dsimp only

def writeParts1_foot : Foot := writePart_foot
theorem writeParts1_within {F : Foot} (hF : writeParts1_foot ⊆ F) (f : Frame) : ∀ x0, Within F (writeParts1 f x0 : Act s₀ Arose)
  | [] => by
    have hF0 := hF
    simp only [writeParts1_foot] at hF
    unfold writeParts1
    repeat' first
      | with_reducible
          first
          | exact writeParts1_within hF0 _ _ | intro _ | exact writePart_within ‹_› .. | exact within_pure _
          | refine within_bind ?_ fun _ => ?_ | refine within_ite ?_ ?_ | split | dsimp only
  | r :: rs => by
    have hF0 := hF
    simp only [writeParts1_foot] at hF
    unfold writeParts1
    repeat' first
      | with_reducible
          first
          | exact writeParts1_within hF0 _ _ | intro _ | exact writePart_within ‹_› .. | exact within_pure _
          | refine within_bind ?_ fun _ => ?_ | refine within_ite ?_ ?_ | split | dsimp only

def acceptWrite_foot : Foot := writeParts1_foot ++ sendAck_foot
theorem acceptWrite_within {F : Foot} (hF : acceptWrite_foot ⊆ F) (a : Arrived) : Within F (acceptWrite a : Act s₀ Unit) := by
  simp only [acceptWrite_foot, List.append_subset] at hF
  obtain ⟨_, _⟩ := hF
  unfold acceptWrite
  repeat' first
    | with_reducible
        first
        | intro _ | exact writeParts1_within ‹_› .. | exact sendAck_within ‹_› .. | exact within_pure _
        | refine within_bind ?_ fun _ => ?_ | split | dsimp only

def dropStale_foot : Foot := [.fld COLL_GEN_STALE_COUNT_COUNT] ++ sendNotice_foot
theorem dropStale_within {F : Foot} (hF : dropStale_foot ⊆ F) (e g : Nat) (f : Frame) : Within F (dropStale e g f : Act s₀ Unit) := by
  simp only [dropStale_foot, List.append_subset, List.cons_subset, List.nil_subset, and_true] at hF
  obtain ⟨_, _⟩ := hF
  unfold dropStale
  repeat' first
    | with_reducible
        first
        | intro _ | exact sendNotice_within ‹_› .. | exact within_pure _ | exact within_countUp _ _ _ _ ‹_›
        | refine within_bind ?_ fun _ => ?_ | split | dsimp only

def holdFrame_foot : Foot := dropStale_foot ++ changeFab_foot
theorem holdFrame_within {F : Foot} (hF : holdFrame_foot ⊆ F) (e : Nat) (a : Arrived) : Within F (holdFrame e a : Act s₀ Unit) := by
  simp only [holdFrame_foot, List.append_subset] at hF
  obtain ⟨_, _⟩ := hF
  unfold holdFrame
  repeat' first
    | with_reducible
        first
        | intro _ | exact dropStale_within ‹_› .. | exact changeFab_within ‹_› .. | exact within_pure _
        | exact within_now | refine within_bind ?_ fun _ => ?_ | refine within_ite ?_ ?_ | split | dsimp only

def withColl_foot : Foot := changeFab_foot
theorem withColl_within {F : Foot} (hF : withColl_foot ⊆ F) (id : Nat) (f : Coll → Coll) : Within F (withColl id f : Act s₀ Unit) := by
  simp only [withColl_foot] at hF
  unfold withColl
  repeat' first
    | with_reducible
        first
        | intro _ | exact changeFab_within ‹_› .. | exact within_pure _ | refine within_bind ?_ fun _ => ?_
        | refine within_ite ?_ ?_ | split | dsimp only

def sendUnits_foot : Foot := postFrames_foot
theorem sendUnits_within {F : Foot} (hF : sendUnits_foot ⊆ F) (c : Coll) (kind rank o : Nat) (vs : List Nat) (contrib : Nat) : Within F (sendUnits c kind rank o vs contrib : Act s₀ Unit) := by
  simp only [sendUnits_foot] at hF
  unfold sendUnits
  repeat' first
    | with_reducible
        first
        | intro _ | exact postFrames_within ‹_› .. | exact within_pure _ | exact within_now
        | refine within_bind ?_ fun _ => ?_ | split | dsimp only

theorem putResult_within {F : Foot} (dst : Tensor) (e : Nat) (c : Coll) (o v i : Nat) : WithinW F (putResult dst e c o v i : Work s₀ Unit) := by
  unfold putResult
  repeat' first
    | with_reducible
        first
        | intro _ | exact raiseFlags_within .. | exact putRaw_within .. | exact writeBits_within ..
        | exact within_pure _ | exact withinW_pure _ | exact withinW_get | exact withinW_set _
        | exact withinW_modify _ | exact withinW_modifyGet _ | refine within_bind ?_ fun _ => ?_
        | refine withinW_ite ?_ ?_ | refine withinW_doing ?_ | refine withinW_bind ?_ fun _ => ?_
        | refine withinW_forIn _ _ _ fun _ _ => ?_ | refine withinW_map _ ?_ | split | dsimp only

def changeVar_foot : Foot := [.part .var]
theorem changeVar_within {F : Foot} (hF : changeVar_foot ⊆ F) (f : VarUnit → VarUnit) : Within F (changeVar f : Act s₀ Unit) := by
  simp only [changeVar_foot, List.cons_subset, List.nil_subset, and_true] at hF
  unfold changeVar
  repeat' first
    | with_reducible
        first
        | intro _ | exact within_pure _ | refine within_bind ?_ fun _ => ?_ | split | dsimp only
    | exact within_change _ fun u p => by cases p <;> first | exact .inl rfl | exact .inr ‹_› | (refine .inl ?_; simp only [Part.same]; repeat' split) <;> rfl

def withExchange_foot : Foot := changeVar_foot
theorem withExchange_within {F : Foot} (hF : withExchange_foot ⊆ F) (e : Nat) (f : Exchange → Exchange) : Within F (withExchange e f : Act s₀ Unit) := by
  simp only [withExchange_foot] at hF
  unfold withExchange
  repeat' first
    | with_reducible
        first
        | intro _ | exact changeVar_within ‹_› .. | exact within_pure _ | refine within_bind ?_ fun _ => ?_
        | refine within_ite ?_ ?_ | split | dsimp only

def storeUnits_foot : Foot := withExchange_foot ++ (runFor_foot ++ (commitStaged_foot ++ withColl_foot))
theorem storeUnits_within {F : Foot} (hF : storeUnits_foot ⊆ F) (c : Coll) (o : Nat) (vs : List Nat) : Within F (storeUnits c o vs : Act s₀ Unit) := by
  simp only [storeUnits_foot, List.append_subset] at hF
  obtain ⟨_, _, _, _⟩ := hF
  unfold storeUnits
  repeat' first
    | with_reducible
        first
        | intro _ | exact withExchange_within ‹_› .. | exact putResult_within .. | exact commitStaged_within ‹_› ..
        | exact withColl_within ‹_› .. | exact within_pure _ | exact within_now | refine within_bind ?_ fun _ => ?_
        | refine within_ite ?_ ?_ | refine within_forIn _ _ _ fun _ _ => ?_ | refine runFor_within ‹_› _ _ ?_
        | exact withinW_pure _ | exact withinW_get | refine withinW_doing ?_ | refine withinW_bind ?_ fun _ => ?_
        | refine withinW_map _ ?_ | refine withinW_forIn _ _ _ fun _ _ => ?_
        | refine withinP_forIn _ _ _ fun _ _ => ?_ | refine withinP_run ?_ | exact withinP_pure _
        | refine withinP_lift ?_ | refine withinP_bind ?_ fun _ => ?_ | split | dsimp only

def voteRecord_foot : Foot := runFor_foot ++ commitStaged_foot
theorem voteRecord_within {F : Foot} (hF : voteRecord_foot ⊆ F) (c : Coll) (d : Slot) : Within F (voteRecord c d : Act s₀ Unit) := by
  simp only [voteRecord_foot, List.append_subset] at hF
  obtain ⟨_, _⟩ := hF
  unfold voteRecord
  repeat' first
    | with_reducible
        first
        | intro _ | exact writeBits_within .. | exact commitStaged_within ‹_› .. | exact within_pure _
        | exact within_freeIndex | refine within_bind ?_ fun _ => ?_ | refine within_ite ?_ ?_
        | refine runFor_within ‹_› _ _ ?_ | exact withinW_pure _ | exact withinW_get | refine withinW_doing ?_
        | refine withinW_bind ?_ fun _ => ?_ | refine withinW_map _ ?_ | refine withinP_run ?_ | exact withinP_pure _
        | refine withinP_lift ?_ | refine withinP_bind ?_ fun _ => ?_ | split | dsimp only

def settleColl_foot : Foot := changeFab_foot ++ (voteRecord_foot ++ finish_foot)
theorem settleColl_within {F : Foot} (hF : settleColl_foot ⊆ F) (id : Nat) : Within F (settleColl id : Act s₀ Unit) := by
  simp only [settleColl_foot, List.append_subset] at hF
  obtain ⟨_, _, _⟩ := hF
  unfold settleColl
  repeat' first
    | with_reducible
        first
        | intro _ | exact changeFab_within ‹_› .. | exact voteRecord_within ‹_› .. | exact finish_within ‹_› ..
        | exact within_pure _ | exact within_now | refine within_bind ?_ fun _ => ?_ | refine within_ite ?_ ?_
        | split | dsimp only

def endVarRun_foot : Foot := changeVar_foot ++ withSlot_foot
theorem endVarRun_within {F : Foot} (hF : endVarRun_foot ⊆ F) (id : Nat) (st : Status) (detail : Nat) : Within F (endVarRun id st detail : Act s₀ Unit) := by
  simp only [endVarRun_foot, List.append_subset] at hF
  obtain ⟨_, _⟩ := hF
  unfold endVarRun
  repeat' first
    | with_reducible
        first
        | intro _ | exact changeVar_within ‹_› .. | exact withSlot_within ‹_› .. | exact within_pure _
        | refine within_bind ?_ fun _ => ?_ | split | dsimp only

def endExchange_foot : Foot := changeFab_foot ++ (dropWaiting_foot ++ (changeVar_foot ++ endVarRun_foot))
theorem endExchange_within {F : Foot} (hF : endExchange_foot ⊆ F) (x : Exchange) (st : Status) (detail : Nat) : Within F (endExchange x st detail : Act s₀ Unit) := by
  simp only [endExchange_foot, List.append_subset] at hF
  obtain ⟨_, _, _, _⟩ := hF
  unfold endExchange
  repeat' first
    | with_reducible
        first
        | intro _ | exact changeFab_within ‹_› .. | exact dropWaiting_within ‹_› .. | exact changeVar_within ‹_› ..
        | exact endVarRun_within ‹_› .. | exact within_pure _ | exact within_now | refine within_bind ?_ fun _ => ?_
        | refine within_each _ _ fun _ => ?_ | split | dsimp only

def endColl_foot : Foot := dropWaiting_foot ++ (changeFab_foot ++ (endExchange_foot ++ withSlot_foot))
theorem endColl_within {F : Foot} (hF : endColl_foot ⊆ F) (c : Coll) (st : Status) (detail : Nat) (refuse : Option Status) : Within F (endColl c st detail refuse : Act s₀ Unit) := by
  simp only [endColl_foot, List.append_subset] at hF
  obtain ⟨_, _, _, _⟩ := hF
  unfold endColl
  repeat' first
    | with_reducible
        first
        | intro _ | exact dropWaiting_within ‹_› .. | exact changeFab_within ‹_› .. | exact endExchange_within ‹_› ..
        | exact withSlot_within ‹_› .. | exact within_pure _ | exact within_now | refine within_bind ?_ fun _ => ?_
        | refine within_ite ?_ ?_ | split | dsimp only

def finishRun_foot : Foot := withColl_foot ++ (sendUnits_foot ++ storeUnits_foot)
theorem finishRun_within {F : Foot} (hF : finishRun_foot ⊆ F) (c : Coll) (o : Nat) (vs : List Nat) (total : Nat) : Within F (finishRun c o vs total : Act s₀ Unit) := by
  simp only [finishRun_foot, List.append_subset] at hF
  obtain ⟨_, _, _⟩ := hF
  unfold finishRun
  repeat' first
    | with_reducible
        first
        | intro _ | exact withColl_within ‹_› .. | exact sendUnits_within ‹_› .. | exact storeUnits_within ‹_› ..
        | exact within_pure _ | refine within_bind ?_ fun _ => ?_ | refine within_ite ?_ ?_
        | refine within_each _ _ fun _ => ?_ | split | dsimp only

def noteCombine_foot : Foot := [.fld COLL_VOTE_SAT_COUNT_COUNT] ++ runFor_foot
theorem noteCombine_within {F : Foot} (hF : noteCombine_foot ⊆ F) (d : Slot) (e : Nat) (fl : Flags) (sats : Nat) : Within F (noteCombine d e fl sats : Act s₀ Unit) := by
  simp only [noteCombine_foot, List.append_subset, List.cons_subset, List.nil_subset, and_true] at hF
  obtain ⟨_, _⟩ := hF
  unfold noteCombine
  repeat' first
    | with_reducible
        first
        | intro _ | exact raiseFlags_within .. | exact within_pure _ | exact within_countUp _ _ _ _ ‹_›
        | refine within_bind ?_ fun _ => ?_ | refine runFor_within ‹_› _ _ ?_ | exact withinW_pure _
        | exact withinW_get | refine withinW_doing ?_ | refine withinW_bind ?_ fun _ => ?_ | refine withinW_map _ ?_
        | refine withinP_run ?_ | exact withinP_pure _ | refine withinP_lift ?_ | refine withinP_bind ?_ fun _ => ?_
        | split | dsimp only

def ringReduce_foot : Foot := noteCombine_foot ++ (withColl_foot ++ (finishRun_foot ++ sendUnits_foot))
theorem ringReduce_within {F : Foot} (hF : ringReduce_foot ⊆ F) (c : Coll) (d : Slot) (o : Nat) (vs : List Nat) (contrib : Nat) : Within F (ringReduce c d o vs contrib : Act s₀ Unit) := by
  simp only [ringReduce_foot, List.append_subset] at hF
  obtain ⟨_, _, _, _⟩ := hF
  unfold ringReduce
  repeat' first
    | with_reducible
        first
        | intro _ | exact noteCombine_within ‹_› .. | exact withColl_within ‹_› .. | exact finishRun_within ‹_› ..
        | exact sendUnits_within ‹_› .. | exact within_pure _ | refine within_bind ?_ fun _ => ?_
        | refine within_ite ?_ ?_ | split | dsimp only

def treeUp_foot : Foot := noteCombine_foot ++ (finishRun_foot ++ sendUnits_foot)
theorem treeUp_within {F : Foot} (hF : treeUp_foot ⊆ F) (c : Coll) (d : Slot) (o n : Nat) : Within F (treeUp c d o n : Act s₀ Unit) := by
  simp only [treeUp_foot, List.append_subset] at hF
  obtain ⟨_, _, _⟩ := hF
  unfold treeUp
  repeat' first
    | with_reducible
        first
        | intro _ | exact noteCombine_within ‹_› .. | exact finishRun_within ‹_› .. | exact sendUnits_within ‹_› ..
        | exact within_pure _ | refine within_bind ?_ fun _ => ?_ | refine within_ite ?_ ?_ | split | dsimp only

def treeReduce_foot : Foot := withColl_foot ++ treeUp_foot
theorem treeReduce_within {F : Foot} (hF : treeReduce_foot ⊆ F) (c : Coll) (d : Slot) (src o : Nat) (vs : List Nat) (contrib : Nat) : Within F (treeReduce c d src o vs contrib : Act s₀ Unit) := by
  simp only [treeReduce_foot, List.append_subset] at hF
  obtain ⟨_, _⟩ := hF
  unfold treeReduce
  repeat' first
    | with_reducible
        first
        | intro _ | exact withColl_within ‹_› .. | exact treeUp_within ‹_› .. | exact within_pure _
        | refine within_bind ?_ fun _ => ?_ | refine within_ite ?_ ?_ | split | dsimp only

def gatherRun_foot : Foot := withColl_foot ++ (storeUnits_foot ++ sendUnits_foot)
theorem gatherRun_within {F : Foot} (hF : gatherRun_foot ⊆ F) (c : Coll) (src o : Nat) (vs : List Nat) (contrib : Nat) : Within F (gatherRun c src o vs contrib : Act s₀ Unit) := by
  simp only [gatherRun_foot, List.append_subset] at hF
  obtain ⟨_, _, _⟩ := hF
  unfold gatherRun
  repeat' first
    | with_reducible
        first
        | intro _ | exact withColl_within ‹_› .. | exact storeUnits_within ‹_› .. | exact sendUnits_within ‹_› ..
        | exact within_pure _ | refine within_bind ?_ fun _ => ?_ | refine within_ite ?_ ?_
        | refine within_each _ _ fun _ => ?_ | split | dsimp only

def runFrame_foot : Foot := treeReduce_foot ++ (ringReduce_foot ++ (gatherRun_foot ++ settleColl_foot))
theorem runFrame_within {F : Foot} (hF : runFrame_foot ⊆ F) (c : Coll) (a : Arrived) : Within F (runFrame c a : Act s₀ Unit) := by
  simp only [runFrame_foot, List.append_subset] at hF
  obtain ⟨_, _, _, _⟩ := hF
  unfold runFrame
  repeat' first
    | with_reducible
        first
        | intro _ | exact treeReduce_within ‹_› .. | exact ringReduce_within ‹_› .. | exact gatherRun_within ‹_› ..
        | exact settleColl_within ‹_› .. | exact within_pure _ | exact within_now | refine within_bind ?_ fun _ => ?_
        | refine within_ite ?_ ?_ | split | dsimp only

def acceptColl_foot : Foot := sendAck_foot ++ (endColl_foot ++ (runFrame_foot ++ changeFab_foot))
theorem acceptColl_within {F : Foot} (hF : acceptColl_foot ⊆ F) (e k : Nat) (a : Arrived) : Within F (acceptColl e k a : Act s₀ Unit) := by
  simp only [acceptColl_foot, List.append_subset] at hF
  obtain ⟨_, _, _, _⟩ := hF
  unfold acceptColl
  repeat' first
    | with_reducible
        first
        | intro _ | exact sendAck_within ‹_› .. | exact endColl_within ‹_› .. | exact runFrame_within ‹_› ..
        | exact changeFab_within ‹_› .. | exact within_pure _ | exact within_now | refine within_bind ?_ fun _ => ?_
        | refine within_ite ?_ ?_ | split | dsimp only

def acceptGroupFrame_foot : Foot := sendAck_foot ++ (dropStale_foot ++ (holdFrame_foot ++ (uncore_foot ++ (acceptWrite_foot ++ acceptColl_foot))))
theorem acceptGroupFrame_within {F : Foot} (hF : acceptGroupFrame_foot ⊆ F) (a : Arrived) : Within F (acceptGroupFrame a : Act s₀ Unit) := by
  simp only [acceptGroupFrame_foot, List.append_subset] at hF
  obtain ⟨_, _, _, _, _, _⟩ := hF
  unfold acceptGroupFrame
  repeat' first
    | with_reducible
        first
        | intro _ | exact sendAck_within ‹_› .. | exact dropStale_within ‹_› .. | exact holdFrame_within ‹_› ..
        | exact uncore_within ‹_› .. | exact acceptWrite_within ‹_› .. | exact acceptColl_within ‹_› ..
        | exact within_pure _ | exact within_now | refine within_bind ?_ fun _ => ?_ | refine within_ite ?_ ?_
        | split | dsimp only

def actWriteFrameReceive_foot : Foot := changeFab_foot ++ (acceptWrite_foot ++ (acceptGroupFrame_foot ++ giveCredits_foot))
theorem actWriteFrameReceive_within {F : Foot} (hF : actWriteFrameReceive_foot ⊆ F) (p : Option Nat) : Within F (actWriteFrameReceive p : Act s₀ Unit) := by
  simp only [actWriteFrameReceive_foot, List.append_subset] at hF
  obtain ⟨_, _, _, _⟩ := hF
  unfold actWriteFrameReceive
  repeat' first
    | with_reducible
        first
        | intro _ | exact changeFab_within ‹_› .. | exact acceptWrite_within ‹_› ..
        | exact acceptGroupFrame_within ‹_› .. | exact giveCredits_within ‹_› .. | exact within_pure _
        | exact within_now | refine within_bind ?_ fun _ => ?_ | refine within_ite ?_ ?_ | split | dsimp only

def actCollFrameReceive_foot : Foot := changeFab_foot ++ (acceptGroupFrame_foot ++ giveCredits_foot)
theorem actCollFrameReceive_within {F : Foot} (hF : actCollFrameReceive_foot ⊆ F) (p : Option Nat) (contrib : BitVec 32) : Within F (actCollFrameReceive p contrib : Act s₀ Unit) := by
  simp only [actCollFrameReceive_foot, List.append_subset] at hF
  obtain ⟨_, _, _⟩ := hF
  unfold actCollFrameReceive
  repeat' first
    | with_reducible
        first
        | intro _ | exact changeFab_within ‹_› .. | exact acceptGroupFrame_within ‹_› ..
        | exact giveCredits_within ‹_› .. | exact within_pure _ | exact within_now
        | refine within_bind ?_ fun _ => ?_ | split | dsimp only

theorem permitGroup_within {F : Foot} (e g : Nat) : WithinP F (permitGroup e g : Prep s₀ Nat) := by
  unfold permitGroup
  repeat' first
    | with_reducible
        first
        | intro _ | exact permit_within .. | exact failWith_within .. | exact within_pure _ | exact within_now
        | exact withinW_pure _ | exact withinW_get | exact withinW_set _ | exact withinW_modify _
        | exact withinW_modifyGet _ | exact withinP_pure _ | exact withinP_failure
        | refine within_bind ?_ fun _ => ?_ | refine withinW_doing ?_ | refine withinW_bind ?_ fun _ => ?_
        | refine withinW_forIn _ _ _ fun _ _ => ?_ | refine withinW_map _ ?_ | refine withinP_lift ?_
        | refine withinP_bind ?_ fun _ => ?_ | refine withinP_forIn _ _ _ fun _ _ => ?_ | refine withinP_map _ ?_
        | split | dsimp only

def prepColl_foot : Foot := readTensors_foot
theorem prepColl_within {F : Foot} (hF : prepColl_foot ⊆ F) (e : Nat) (w : Descriptor) : WithinP F (prepColl e w : Prep s₀ (List Nat)) := by
  simp only [prepColl_foot] at hF
  unfold prepColl
  repeat' first
    | with_reducible
        first
        | intro _ | exact demand_within .. | exact permitGroup_within .. | exact permitBytes_within ..
        | exact readTensors_within ‹_› .. | exact permitTensor_within .. | exact permitCounter_within ..
        | exact within_pure _ | exact within_now | exact withinW_pure _ | exact withinW_get | exact withinW_set _
        | exact withinW_modify _ | exact withinW_modifyGet _ | exact withinP_pure _ | exact withinP_failure
        | refine within_bind ?_ fun _ => ?_ | refine withinP_ite ?_ ?_ | refine withinW_doing ?_
        | refine withinW_bind ?_ fun _ => ?_ | refine withinW_forIn _ _ _ fun _ _ => ?_ | refine withinW_map _ ?_
        | refine withinP_lift ?_ | refine withinP_bind ?_ fun _ => ?_ | refine withinP_forIn _ _ _ fun _ _ => ?_
        | refine withinP_map _ ?_ | refine attempt_within ?_ | exact withinW_pure _ | exact withinW_get
        | refine withinP_run ?_ | exact withinP_pure _ | split | dsimp only

def startColl_foot : Foot := finishRun_foot ++ (storeUnits_foot ++ sendUnits_foot)
theorem startColl_within {F : Foot} (hF : startColl_foot ⊆ F) (c : Coll) (d : Slot) : Within F (startColl c d : Act s₀ Unit) := by
  simp only [startColl_foot, List.append_subset] at hF
  obtain ⟨_, _, _⟩ := hF
  unfold startColl
  repeat' first
    | with_reducible
        first
        | intro _ | exact finishRun_within ‹_› .. | exact storeUnits_within ‹_› .. | exact sendUnits_within ‹_› ..
        | exact within_pure _ | refine within_bind ?_ fun _ => ?_ | refine within_ite ?_ ?_
        | refine within_each _ _ fun _ => ?_ | split | dsimp only

def drainStaged_foot : Foot := endColl_foot ++ runFrame_foot
theorem drainStaged_within {F : Foot} (hF : drainStaged_foot ⊆ F) (id : Nat) : ∀ x0, Within F (drainStaged id x0 : Act s₀ Unit)
  | [] => by
    have hF0 := hF
    simp only [drainStaged_foot, List.append_subset] at hF
    obtain ⟨_, _⟩ := hF
    unfold drainStaged
    repeat' first
      | with_reducible
          first
          | exact drainStaged_within hF0 _ _ | intro _ | exact endColl_within ‹_› .. | exact runFrame_within ‹_› ..
          | exact within_pure _ | exact within_now | refine within_bind ?_ fun _ => ?_ | refine within_ite ?_ ?_
          | split | dsimp only
  | (_, a) :: rest => by
    have hF0 := hF
    simp only [drainStaged_foot, List.append_subset] at hF
    obtain ⟨_, _⟩ := hF
    unfold drainStaged
    repeat' first
      | with_reducible
          first
          | exact drainStaged_within hF0 _ _ | intro _ | exact endColl_within ‹_› .. | exact runFrame_within ‹_› ..
          | exact within_pure _ | exact within_now | refine within_bind ?_ fun _ => ?_ | refine within_ite ?_ ?_
          | split | dsimp only

def takeStaged_foot : Foot := changeFab_foot
theorem takeStaged_within {F : Foot} (hF : takeStaged_foot ⊆ F) (c : Coll) : Within F (takeStaged c : Act s₀ (List (Nat × Arrived))) := by
  simp only [takeStaged_foot] at hF
  unfold takeStaged
  repeat' first
    | with_reducible
        first
        | intro _ | exact changeFab_within ‹_› .. | exact within_pure _ | exact within_now
        | refine within_bind ?_ fun _ => ?_ | split | dsimp only

def beginColl_foot : Foot := changeFab_foot ++ (takeStaged_foot ++ (endColl_foot ++ (noteCombine_foot ++ (startColl_foot ++ (drainStaged_foot ++ settleColl_foot)))))
theorem beginColl_within {F : Foot} (hF : beginColl_foot ⊆ F) (c : Coll) (d : Slot) (src : ElemType) (xs : List (Nat × Nat)) (poisoned : Bool) : Within F (beginColl c d src xs poisoned : Act s₀ Unit) := by
  simp only [beginColl_foot, List.append_subset] at hF
  obtain ⟨_, _, _, _, _, _, _⟩ := hF
  unfold beginColl
  repeat' first
    | with_reducible
        first
        | intro _ | exact changeFab_within ‹_› .. | exact takeStaged_within ‹_› .. | exact endColl_within ‹_› ..
        | exact noteCombine_within ‹_› .. | exact startColl_within ‹_› .. | exact drainStaged_within ‹_› ..
        | exact settleColl_within ‹_› .. | exact within_pure _ | refine within_bind ?_ fun _ => ?_
        | refine within_ite ?_ ?_ | split | dsimp only

def actCollective_foot : Foot := [.fld COLL_GROUP_ID_SEQ] ++ (runFor_foot ++ (readStream_foot ++ beginColl_foot))
theorem actCollective_within {F : Foot} (hF : actCollective_foot ⊆ F) (op id : Nat) : Within F (actCollective op id : Act s₀ Unit) := by
  simp only [actCollective_foot, List.append_subset, List.cons_subset, List.nil_subset, and_true] at hF
  obtain ⟨_, _, _, _⟩ := hF
  unfold actCollective
  repeat' first
    | with_reducible
        first
        | intro _ | exact readStream_within ‹_› .. | exact beginColl_within ‹_› .. | exact within_pure _
        | exact within_now | exact within_setF _ _ _ _ ‹_› | refine within_bind ?_ fun _ => ?_
        | refine within_ite ?_ ?_ | refine runFor_within ‹_› _ _ ?_ | exact withinW_pure _ | exact withinW_get
        | refine withinW_doing ?_ | refine withinW_bind ?_ fun _ => ?_ | refine withinW_map _ ?_
        | refine withinP_run ?_ | exact withinP_pure _ | refine withinP_lift ?_ | refine withinP_bind ?_ fun _ => ?_
        | split | dsimp only

end Sys2Proof.Machine
end

