-- ==== Sys2Proof/Laws/FootGroups.lean ====
section
/-! SUPPORT. The footprints of the actions of Groups. -/

namespace Sys2Proof.Machine

variable {s₀ : State}

def changeGeneration_foot : Foot := endColl_foot ++ (dropWaiting_foot ++ (withSlot_foot ++ (endExchange_foot ++ changeFab_foot)))
theorem changeGeneration_within {F : Foot} (hF : changeGeneration_foot ⊆ F) (e g : Nat) : Within F (changeGeneration e g : Act s₀ Unit) := by
  simp only [changeGeneration_foot, List.append_subset] at hF
  obtain ⟨_, _, _, _, _⟩ := hF
  unfold changeGeneration
  repeat' first
    | with_reducible
        first
        | intro _ | exact endColl_within ‹_› .. | exact dropWaiting_within ‹_› .. | exact withSlot_within ‹_› ..
        | exact endExchange_within ‹_› .. | exact changeFab_within ‹_› .. | exact within_pure _ | exact within_now
        | refine within_bind ?_ fun _ => ?_ | refine within_each _ _ fun _ => ?_ | split | dsimp only

def releaseHeld_foot : Foot := changeFab_foot ++ acceptGroupFrame_foot
theorem releaseHeld_within {F : Foot} (hF : releaseHeld_foot ⊆ F) (e g : Nat) : Within F (releaseHeld e g : Act s₀ Unit) := by
  simp only [releaseHeld_foot, List.append_subset] at hF
  obtain ⟨_, _⟩ := hF
  unfold releaseHeld
  repeat' first
    | with_reducible
        first
        | intro _ | exact changeFab_within ‹_› .. | exact acceptGroupFrame_within ‹_› .. | exact within_pure _
        | exact within_now | refine within_bind ?_ fun _ => ?_ | refine within_each _ _ fun _ => ?_ | split
        | dsimp only

def writeGroup_foot : Foot := [.fld COLL_GROUP_ID_VALID, .fld COLL_GROUP_ID_ATELIER, .fld COLL_GROUP_ID_VL, .fld COLL_GROUP_ID_GROUP, .fld COLL_GROUP_ID_GEN, .fld COLL_GROUP_ID_SEQ, .fld COLL_GROUP_SIZE_COUNT, .fld COLL_GROUP_SIZE_RANK] ++ changeFab_foot
theorem writeGroup_within {F : Foot} (hF : writeGroup_foot ⊆ F) (e k a g gen vl seq : Nat) (ids : List Nat) : Within F (writeGroup e k a g gen vl seq ids : Act s₀ Unit) := by
  simp only [writeGroup_foot, List.append_subset, List.cons_subset, List.nil_subset, and_true, and_assoc] at hF
  obtain ⟨_, _, _, _, _, _, _, _, _⟩ := hF
  unfold writeGroup
  repeat' first
    | with_reducible
        first
        | intro _ | exact changeFab_within ‹_› .. | exact within_pure _ | exact within_ask _
        | exact within_setF _ _ _ _ ‹_› | refine within_bind ?_ fun _ => ?_ | split | dsimp only

def installNewer_foot : Foot := writeGroup_foot ++ (changeGeneration_foot ++ releaseHeld_foot)
theorem installNewer_within {F : Foot} (hF : installNewer_foot ⊆ F) (e k a g gen vl seq : Nat) (ids : List Nat) : Within F (installNewer e k a g gen vl seq ids : Act s₀ Unit) := by
  simp only [installNewer_foot, List.append_subset] at hF
  obtain ⟨_, _, _⟩ := hF
  unfold installNewer
  repeat' first
    | with_reducible
        first
        | intro _ | exact writeGroup_within ‹_› .. | exact changeGeneration_within ‹_› ..
        | exact releaseHeld_within ‹_› .. | exact within_pure _ | refine within_bind ?_ fun _ => ?_ | split
        | dsimp only

def installLocal_foot : Foot := installNewer_foot ++ writeGroup_foot
theorem installLocal_within {F : Foot} (hF : installLocal_foot ⊆ F) (e a g gen vl seq : Nat) (ids : List Nat) : Within F (installLocal e a g gen vl seq ids : Act s₀ (Status × Nat)) := by
  simp only [installLocal_foot, List.append_subset] at hF
  obtain ⟨_, _⟩ := hF
  unfold installLocal
  repeat' first
    | with_reducible
        first
        | intro _ | exact installNewer_within ‹_› .. | exact writeGroup_within ‹_› .. | exact within_pure _
        | exact within_now | refine within_bind ?_ fun _ => ?_ | split | dsimp only

def removeGroup_foot : Foot := [.reg COLL_GROUP_ID_VALID, .reg COLL_GROUP_SIZE_COUNT] ++ (changeFab_foot ++ changeGeneration_foot)
theorem removeGroup_within {F : Foot} (hF : removeGroup_foot ⊆ F) (e g : Nat) : Within F (removeGroup e g : Act s₀ Unit) := by
  simp only [removeGroup_foot, List.append_subset, List.cons_subset, List.nil_subset, and_true, and_assoc] at hF
  obtain ⟨_, _, _, _⟩ := hF
  unfold removeGroup
  repeat' first
    | with_reducible
        first
        | intro _ | exact changeFab_within ‹_› .. | exact changeGeneration_within ‹_› .. | exact within_pure _
        | exact within_now | exact within_emitReg _ _ _ _ ‹_› | exact within_emitAddr _ _ ‹_›
        | refine within_bind ?_ fun _ => ?_ | split | dsimp only

def readSpan_foot : Foot := readFrom_foot
theorem readSpan_within {F : Foot} (hF : readSpan_foot ⊆ F) (lo n : Nat) : WithinP F (readSpan lo n : Prep s₀ Nat) := by
  simp only [readSpan_foot] at hF
  unfold readSpan
  repeat' first
    | with_reducible
        first
        | intro _ | exact readFrom_within ‹_› .. | exact arises_within .. | exact within_pure _
        | exact withinW_pure _ | exact withinW_get | exact withinW_set _ | exact withinW_modify _
        | exact withinW_modifyGet _ | exact withinP_pure _ | exact withinP_failure
        | refine within_bind ?_ fun _ => ?_ | refine withinP_ite ?_ ?_ | refine within_forIn _ _ _ fun _ _ => ?_
        | refine withinW_doing ?_ | refine withinW_bind ?_ fun _ => ?_ | refine withinW_forIn _ _ _ fun _ _ => ?_
        | refine withinW_map _ ?_ | refine withinP_lift ?_ | refine withinP_bind ?_ fun _ => ?_
        | refine withinP_forIn _ _ _ fun _ _ => ?_ | refine withinP_map _ ?_ | split | dsimp only

theorem permitRead_within {F : Foot} (ok : Bool) : WithinP F (permitRead ok : Prep s₀ Unit) := by
  unfold permitRead
  repeat' first
    | with_reducible
        first
        | intro _ | exact failWith_within .. | exact within_pure _ | exact withinW_pure _ | exact withinW_get
        | exact withinW_set _ | exact withinW_modify _ | exact withinW_modifyGet _ | exact withinP_pure _
        | exact withinP_failure | refine within_bind ?_ fun _ => ?_ | refine withinP_ite ?_ ?_
        | refine withinW_doing ?_ | refine withinW_bind ?_ fun _ => ?_ | refine withinW_forIn _ _ _ fun _ _ => ?_
        | refine withinW_map _ ?_ | refine withinP_lift ?_ | refine withinP_bind ?_ fun _ => ?_
        | refine withinP_forIn _ _ _ fun _ _ => ?_ | refine withinP_map _ ?_ | split | dsimp only

def readOwned_foot : Foot := readSpan_foot
theorem readOwned_within {F : Foot} (hF : readOwned_foot ⊆ F) (lo n : Nat) : WithinP F (readOwned lo n : Prep s₀ Nat) := by
  simp only [readOwned_foot] at hF
  unfold readOwned
  repeat' first
    | with_reducible
        first
        | intro _ | exact permitRead_within .. | exact readSpan_within ‹_› .. | exact within_pure _
        | exact within_now | exact withinW_pure _ | exact withinW_get | exact withinW_set _ | exact withinW_modify _
        | exact withinW_modifyGet _ | exact withinP_pure _ | exact withinP_failure
        | refine within_bind ?_ fun _ => ?_ | refine withinW_doing ?_ | refine withinW_bind ?_ fun _ => ?_
        | refine withinW_forIn _ _ _ fun _ _ => ?_ | refine withinW_map _ ?_ | refine withinP_lift ?_
        | refine withinP_bind ?_ fun _ => ?_ | refine withinP_forIn _ _ _ fun _ _ => ?_ | refine withinP_map _ ?_
        | split | dsimp only

def prepGroupSet_foot : Foot := readOwned_foot
theorem prepGroupSet_within {F : Foot} (hF : prepGroupSet_foot ⊆ F) (e : Nat) (w : Descriptor) : WithinP F (prepGroupSet e w : Prep s₀ (List Nat)) := by
  simp only [prepGroupSet_foot] at hF
  unfold prepGroupSet
  repeat' first
    | with_reducible
        first
        | intro _ | exact demand_within .. | exact permit_within .. | exact readOwned_within ‹_› ..
        | exact within_pure _ | exact within_now | exact withinW_pure _ | exact withinW_get | exact withinW_set _
        | exact withinW_modify _ | exact withinW_modifyGet _ | exact withinP_pure _ | exact withinP_failure
        | refine within_bind ?_ fun _ => ?_ | refine withinW_doing ?_ | refine withinW_bind ?_ fun _ => ?_
        | refine withinW_forIn _ _ _ fun _ _ => ?_ | refine withinW_map _ ?_ | refine withinP_lift ?_
        | refine withinP_bind ?_ fun _ => ?_ | refine withinP_forIn _ _ _ fun _ _ => ?_ | refine withinP_map _ ?_
        | split | dsimp only

def actGroupSet_foot : Foot := removeGroup_foot ++ (installLocal_foot ++ (withSlot_foot ++ (postFrames_foot ++ finish_foot)))
theorem actGroupSet_within {F : Foot} (hF : actGroupSet_foot ⊆ F) (mode id : Nat) : Within F (actGroupSet mode id : Act s₀ Unit) := by
  simp only [actGroupSet_foot, List.append_subset] at hF
  obtain ⟨_, _, _, _, _⟩ := hF
  unfold actGroupSet
  repeat' first
    | with_reducible
        first
        | intro _ | exact removeGroup_within ‹_› .. | exact installLocal_within ‹_› .. | exact withSlot_within ‹_› ..
        | exact postFrames_within ‹_› .. | exact finish_within ‹_› .. | exact within_pure _ | exact within_now
        | refine within_bind ?_ fun _ => ?_ | refine within_ite ?_ ?_ | split | dsimp only

def takePiece_foot : Foot := sendAck_foot ++ (changeFab_foot ++ installNewer_foot)
theorem takePiece_within {F : Foot} (hF : takePiece_foot ⊆ F) (f : Frame) : Within F (takePiece f : Act s₀ Unit) := by
  simp only [takePiece_foot, List.append_subset] at hF
  obtain ⟨_, _, _⟩ := hF
  unfold takePiece
  repeat' first
    | with_reducible
        first
        | intro _ | exact sendAck_within ‹_› .. | exact changeFab_within ‹_› .. | exact installNewer_within ‹_› ..
        | exact within_pure _ | exact within_now | refine within_bind ?_ fun _ => ?_ | refine within_ite ?_ ?_
        | split | dsimp only

def actMembershipFrameReceive_foot : Foot := takeArrived_foot ++ takePiece_foot
theorem actMembershipFrameReceive_within {F : Foot} (hF : actMembershipFrameReceive_foot ⊆ F) (p : Option Nat) : Within F (actMembershipFrameReceive p : Act s₀ Unit) := by
  simp only [actMembershipFrameReceive_foot, List.append_subset] at hF
  obtain ⟨_, _⟩ := hF
  unfold actMembershipFrameReceive
  repeat' first
    | with_reducible
        first
        | intro _ | exact takeArrived_within ‹_› .. | exact takePiece_within ‹_› .. | exact within_pure _
        | refine within_bind ?_ fun _ => ?_ | split | dsimp only

def takeAnswer_foot : Foot := answer_foot ++ endColl_foot
theorem takeAnswer_within {F : Foot} (hF : takeAnswer_foot ⊆ F) (f : Frame) : Within F (takeAnswer f : Act s₀ Unit) := by
  simp only [takeAnswer_foot, List.append_subset] at hF
  obtain ⟨_, _⟩ := hF
  unfold takeAnswer
  repeat' first
    | with_reducible
        first
        | intro _ | exact answer_within ‹_› .. | exact endColl_within ‹_› .. | exact within_pure _ | exact within_now
        | refine within_bind ?_ fun _ => ?_ | refine within_ite ?_ ?_ | split | dsimp only

def actAckReceive_foot : Foot := takeArrived_foot ++ takeAnswer_foot
theorem actAckReceive_within {F : Foot} (hF : actAckReceive_foot ⊆ F) (p : Option Nat) : Within F (actAckReceive p : Act s₀ Unit) := by
  simp only [actAckReceive_foot, List.append_subset] at hF
  obtain ⟨_, _⟩ := hF
  unfold actAckReceive
  repeat' first
    | with_reducible
        first
        | intro _ | exact takeArrived_within ‹_› .. | exact takeAnswer_within ‹_› .. | exact within_pure _
        | refine within_bind ?_ fun _ => ?_ | split | dsimp only

def actNoticeReceive_foot : Foot := takeArrived_foot ++ takeAnswer_foot
theorem actNoticeReceive_within {F : Foot} (hF : actNoticeReceive_foot ⊆ F) (p : Option Nat) : Within F (actNoticeReceive p : Act s₀ Unit) := by
  simp only [actNoticeReceive_foot, List.append_subset] at hF
  obtain ⟨_, _⟩ := hF
  unfold actNoticeReceive
  repeat' first
    | with_reducible
        first
        | intro _ | exact takeArrived_within ‹_› .. | exact takeAnswer_within ‹_› .. | exact within_pure _
        | refine within_bind ?_ fun _ => ?_ | split | dsimp only

def actAckTimeout_foot : Foot := answer_foot
theorem actAckTimeout_within {F : Foot} (hF : actAckTimeout_foot ⊆ F) (tag : Nat) : Within F (actAckTimeout tag : Act s₀ Unit) := by
  simp only [actAckTimeout_foot] at hF
  unfold actAckTimeout
  repeat' first
    | with_reducible
        first
        | intro _ | exact answer_within ‹_› .. | exact within_pure _ | exact within_now
        | refine within_bind ?_ fun _ => ?_ | split | dsimp only

def actGenHoldExpire_foot : Foot := changeFab_foot ++ dropStale_foot
theorem actGenHoldExpire_within {F : Foot} (hF : actGenHoldExpire_foot ⊆ F) (e : Nat) : Within F (actGenHoldExpire e : Act s₀ Unit) := by
  simp only [actGenHoldExpire_foot, List.append_subset] at hF
  obtain ⟨_, _⟩ := hF
  unfold actGenHoldExpire
  repeat' first
    | with_reducible
        first
        | intro _ | exact changeFab_within ‹_› .. | exact dropStale_within ‹_› .. | exact within_pure _
        | exact within_now | refine within_bind ?_ fun _ => ?_ | split | dsimp only

def actSilentThreshold_foot : Foot := [.fld COLL_SILENT_LOG_GROUP, .fld COLL_SILENT_LOG_MODULE, .fld COLL_SILENT_LOG_VALID, .fld COLL_SILENT_LOG_OVERRUN] ++ riskBump_foot
theorem actSilentThreshold_within {F : Foot} (hF : actSilentThreshold_foot ⊆ F) (e id member : Nat) : Within F (actSilentThreshold e id member : Act s₀ Unit) := by
  simp only [actSilentThreshold_foot, List.append_subset, List.cons_subset, List.nil_subset, and_true, and_assoc] at hF
  obtain ⟨_, _, _, _, _⟩ := hF
  unfold actSilentThreshold
  repeat' first
    | with_reducible
        first
        | intro _ | exact riskBump_within ‹_› .. | exact within_pure _ | exact within_now
        | exact within_setF _ _ _ _ ‹_› | refine within_bind ?_ fun _ => ?_ | refine within_ite ?_ ?_
        | refine within_logFirst _ _ _ _ ‹_› ‹_› ?_ | split | dsimp only

end Sys2Proof.Machine
end

