-- ==== Sys2Proof/Laws/FootFabSend.lean ====
section
/-! SUPPORT. The footprints of the actions of FabSend. -/

namespace Sys2Proof.Machine

variable {s₀ : State}

def prepFabSend_foot : Foot := readTensors_foot
theorem prepFabSend_within {F : Foot} (hF : prepFabSend_foot ⊆ F) (e : Nat) (w : Descriptor) : WithinP F (prepFabSend e w : Prep s₀ (List Nat)) := by
  simp only [prepFabSend_foot] at hF
  unfold prepFabSend
  repeat' first
    | with_reducible
        first
        | intro _ | exact demand_within .. | exact permit_within .. | exact permitGroup_within ..
        | exact readTensors_within ‹_› .. | exact permitTensor_within .. | exact within_pure _ | exact within_now
        | exact withinW_pure _ | exact withinW_get | exact withinW_set _ | exact withinW_modify _
        | exact withinW_modifyGet _ | exact withinP_pure _ | exact withinP_failure
        | refine within_bind ?_ fun _ => ?_ | refine withinP_ite ?_ ?_ | refine withinW_doing ?_
        | refine withinW_bind ?_ fun _ => ?_ | refine withinW_forIn _ _ _ fun _ _ => ?_ | refine withinW_map _ ?_
        | refine withinP_lift ?_ | refine withinP_bind ?_ fun _ => ?_ | refine withinP_forIn _ _ _ fun _ _ => ?_
        | refine withinP_map _ ?_ | refine attempt_within ?_ | exact withinW_pure _ | exact withinW_get
        | refine withinP_run ?_ | exact withinP_pure _ | split | dsimp only

def sendWork_foot : Foot := readStream_foot
theorem sendWork_within {F : Foot} (hF : sendWork_foot ⊆ F) (c : Conv) (src dst : Tensor) : WithinW F (sendWork c src dst : Work s₀ (List Req)) := by
  simp only [sendWork_foot] at hF
  unfold sendWork
  repeat' first
    | with_reducible
        first
        | intro _ | exact readStream_within ‹_› .. | exact putMoves_within .. | exact within_pure _
        | exact withinW_pure _ | exact withinW_get | exact withinW_set _ | exact withinW_modify _
        | exact withinW_modifyGet _ | refine within_bind ?_ fun _ => ?_ | refine withinW_doing ?_
        | refine withinW_bind ?_ fun _ => ?_ | refine withinW_forIn _ _ _ fun _ _ => ?_ | refine withinW_map _ ?_
        | split | dsimp only

def actFabSend_foot : Foot := runFor_foot ++ (sendWork_foot ++ (postFrames_foot ++ finish_foot))
theorem actFabSend_within {F : Foot} (hF : actFabSend_foot ⊆ F) (id : Nat) : Within F (actFabSend id : Act s₀ Unit) := by
  simp only [actFabSend_foot, List.append_subset] at hF
  obtain ⟨_, _, _, _⟩ := hF
  unfold actFabSend
  repeat' first
    | with_reducible
        first
        | intro _ | exact sendWork_within ‹_› .. | exact postFrames_within ‹_› .. | exact finish_within ‹_› ..
        | exact within_pure _ | exact within_now | refine within_bind ?_ fun _ => ?_ | refine within_ite ?_ ?_
        | refine runFor_within ‹_› _ _ ?_ | exact withinW_pure _ | exact withinW_get | refine withinW_doing ?_
        | refine withinW_bind ?_ fun _ => ?_ | refine withinW_map _ ?_ | refine withinP_run ?_ | exact withinP_pure _
        | refine withinP_lift ?_ | refine withinP_bind ?_ fun _ => ?_ | split | dsimp only

def prepDispatch_foot : Foot := readBlock_foot ++ readTensors_foot
theorem prepDispatch_within {F : Foot} (hF : prepDispatch_foot ⊆ F) (e : Nat) (w : Descriptor) : WithinP F (prepDispatch e w : Prep s₀ (List Nat)) := by
  simp only [prepDispatch_foot, List.append_subset] at hF
  obtain ⟨_, _⟩ := hF
  unfold prepDispatch
  repeat' first
    | with_reducible
        first
        | intro _ | exact demand_within .. | exact permitGroup_within .. | exact permitCounter_within ..
        | exact readBlock_within ‹_› .. | exact readTensors_within ‹_› .. | exact permitTensor_within ..
        | exact permitBytes_within .. | exact within_pure _ | exact withinW_pure _ | exact withinW_get
        | exact withinW_set _ | exact withinW_modify _ | exact withinW_modifyGet _ | exact withinP_pure _
        | exact withinP_failure | refine within_bind ?_ fun _ => ?_ | refine withinP_ite ?_ ?_
        | refine within_forIn _ _ _ fun _ _ => ?_ | refine withinW_doing ?_ | refine withinW_bind ?_ fun _ => ?_
        | refine withinW_forIn _ _ _ fun _ _ => ?_ | refine withinW_map _ ?_ | refine withinP_lift ?_
        | refine withinP_bind ?_ fun _ => ?_ | refine withinP_forIn _ _ _ fun _ _ => ?_ | refine withinP_map _ ?_
        | refine attempt_within ?_ | exact withinW_pure _ | exact withinW_get | refine withinP_run ?_
        | exact withinP_pure _ | split | dsimp only

def readRow_foot : Foot := readStream_foot
theorem readRow_within {F : Foot} (hF : readRow_foot ⊆ F) (x : Tensor) (r : Nat) (t : ElemType) (rmode : Nat) (sat : Bool) (draw : Nat → Nat) : WithinW F (readRow x r t rmode sat draw : Work s₀ (Option (List Nat))) := by
  simp only [readRow_foot] at hF
  unfold readRow
  repeat' first
    | with_reducible
        first
        | intro _ | exact readStream_within ‹_› .. | exact raiseFlags_within .. | exact within_pure _
        | exact withinW_pure _ | exact withinW_get | exact withinW_set _ | exact withinW_modify _
        | exact withinW_modifyGet _ | refine within_bind ?_ fun _ => ?_ | refine withinW_ite ?_ ?_
        | refine within_forIn _ _ _ fun _ _ => ?_ | refine withinW_doing ?_ | refine withinW_bind ?_ fun _ => ?_
        | refine withinW_forIn _ _ _ fun _ _ => ?_ | refine withinW_map _ ?_ | split | dsimp only

def dispatchRows_foot : Foot := readRow_foot
theorem dispatchRows_within {F : Foot} (hF : dispatchRows_foot ⊆ F) (d : Slot) (e : Nat) (x : Tensor) (t : ElemType) (table k : Nat) : ∀ x0, WithinW F (dispatchRows d e x t table k x0 : Work s₀ (List (Nat × Nat × List Req))) := by
  simp only [dispatchRows_foot] at hF
  intro x0
  induction x0 with
  | nil =>
    unfold dispatchRows
    repeat' first
      | with_reducible
          first
          | intro _ | exact readRow_within ‹_› .. | exact within_pure _ | exact withinW_pure _ | exact withinW_get
          | exact withinW_set _ | exact withinW_modify _ | exact withinW_modifyGet _
          | refine within_bind ?_ fun _ => ?_ | refine withinW_doing ?_ | refine withinW_bind ?_ fun _ => ?_
          | refine withinW_forIn _ _ _ fun _ _ => ?_ | refine withinW_map _ ?_ | split | dsimp only
  | cons x xs ih =>
    obtain ⟨a, y⟩ := x
    cases y <;> unfold dispatchRows
    all_goals
     repeat' first
       | with_reducible
           first
           | exact ih | intro _ | exact readRow_within ‹_› .. | exact within_pure _ | exact withinW_pure _
           | exact withinW_get | exact withinW_set _ | exact withinW_modify _ | exact withinW_modifyGet _
           | refine within_bind ?_ fun _ => ?_ | refine withinW_doing ?_ | refine withinW_bind ?_ fun _ => ?_
           | refine withinW_forIn _ _ _ fun _ _ => ?_ | refine withinW_map _ ?_ | split | dsimp only

def zeroRow_foot : Foot := sendTo_foot
theorem zeroRow_within {F : Foot} (hF : zeroRow_foot ⊆ F) (a n : Nat) (ac : Option Nat) : WithinW F (zeroRow a n ac : Work s₀ Unit) := by
  simp only [zeroRow_foot] at hF
  unfold zeroRow
  repeat' first
    | with_reducible
        first
        | intro _ | exact noteGot_within .. | exact sendTo_within ‹_› .. | exact within_pure _ | exact withinW_pure _
        | exact withinW_get | exact withinW_set _ | exact withinW_modify _ | exact withinW_modifyGet _
        | refine within_bind ?_ fun _ => ?_ | refine within_forIn _ _ _ fun _ _ => ?_ | refine withinW_doing ?_
        | refine withinW_bind ?_ fun _ => ?_ | refine withinW_forIn _ _ _ fun _ _ => ?_ | refine withinW_map _ ?_
        | split | dsimp only

def dispatchWork_foot : Foot := [.fld COLL_DISPATCH_DROP_COUNT] ++ (readStream_foot ++ (zeroRow_foot ++ (commitStaged_foot ++ dispatchRows_foot)))
theorem dispatchWork_within {F : Foot} (hF : dispatchWork_foot ⊆ F) (d : Slot) (e : Nat) (members : List Nat) : WithinW F (dispatchWork d e members : Work s₀ (Option (List Assigned × List (Nat × Nat × List Req)))) := by
  simp only [dispatchWork_foot, List.append_subset, List.cons_subset, List.nil_subset, and_true] at hF
  obtain ⟨_, _, _, _, _⟩ := hF
  unfold dispatchWork
  repeat' first
    | with_reducible
        first
        | intro _ | exact readStream_within ‹_› .. | exact arises_within .. | exact zeroRow_within ‹_› ..
        | exact putRaw_within .. | exact commitStaged_within ‹_› .. | exact dispatchRows_within ‹_› ..
        | exact within_pure _ | exact withinW_pure _ | exact withinW_get | exact withinW_set _
        | exact withinW_modify _ | exact withinW_modifyGet _ | exact within_countUp _ _ _ _ ‹_›
        | refine within_bind ?_ fun _ => ?_ | refine withinW_ite ?_ ?_ | refine within_forIn _ _ _ fun _ _ => ?_
        | refine withinW_doing ?_ | refine withinW_bind ?_ fun _ => ?_ | refine withinW_forIn _ _ _ fun _ _ => ?_
        | refine withinW_map _ ?_ | split | dsimp only

def actCollDispatch_foot : Foot := runFor_foot ++ (dispatchWork_foot ++ (postFrames_foot ++ finish_foot))
theorem actCollDispatch_within {F : Foot} (hF : actCollDispatch_foot ⊆ F) (id : Nat) : Within F (actCollDispatch id : Act s₀ Unit) := by
  simp only [actCollDispatch_foot, List.append_subset] at hF
  obtain ⟨_, _, _, _⟩ := hF
  unfold actCollDispatch
  repeat' first
    | with_reducible
        first
        | intro _ | exact dispatchWork_within ‹_› .. | exact postFrames_within ‹_› .. | exact finish_within ‹_› ..
        | exact within_pure _ | exact within_now | refine within_bind ?_ fun _ => ?_ | refine within_ite ?_ ?_
        | refine runFor_within ‹_› _ _ ?_ | exact withinW_pure _ | exact withinW_get | refine withinW_doing ?_
        | refine withinW_bind ?_ fun _ => ?_ | refine withinW_map _ ?_ | refine withinP_run ?_ | exact withinP_pure _
        | refine withinP_lift ?_ | refine withinP_bind ?_ fun _ => ?_ | split | dsimp only

def prepCombine_foot : Foot := readTensors_foot
theorem prepCombine_within {F : Foot} (hF : prepCombine_foot ⊆ F) (e : Nat) (w : Descriptor) : WithinP F (prepCombine e w : Prep s₀ (List Nat)) := by
  simp only [prepCombine_foot] at hF
  unfold prepCombine
  repeat' first
    | with_reducible
        first
        | intro _ | exact demand_within .. | exact permitGroup_within .. | exact permitBytes_within ..
        | exact readTensors_within ‹_› .. | exact permitTensor_within .. | exact within_pure _ | exact withinW_pure _
        | exact withinW_get | exact withinW_set _ | exact withinW_modify _ | exact withinW_modifyGet _
        | exact withinP_pure _ | exact withinP_failure | refine within_bind ?_ fun _ => ?_ | refine withinP_ite ?_ ?_
        | refine withinW_doing ?_ | refine withinW_bind ?_ fun _ => ?_ | refine withinW_forIn _ _ _ fun _ _ => ?_
        | refine withinW_map _ ?_ | refine withinP_lift ?_ | refine withinP_bind ?_ fun _ => ?_
        | refine withinP_forIn _ _ _ fun _ _ => ?_ | refine withinP_map _ ?_ | refine attempt_within ?_
        | exact withinW_pure _ | exact withinW_get | refine withinP_run ?_ | exact withinP_pure _ | split
        | dsimp only

def readTags_foot : Foot := fetch_foot
theorem readTags_within {F : Foot} (hF : readTags_foot ⊆ F) (a n : Nat) : WithinW F (readTags a n : Work s₀ (List Nat)) := by
  simp only [readTags_foot] at hF
  unfold readTags
  repeat' first
    | with_reducible
        first
        | intro _ | exact fetch_within ‹_› .. | exact within_pure _ | exact withinW_pure _ | exact withinW_get
        | exact withinW_set _ | exact withinW_modify _ | exact withinW_modifyGet _
        | refine within_bind ?_ fun _ => ?_ | refine withinW_ite ?_ ?_ | refine within_forIn _ _ _ fun _ _ => ?_
        | refine withinW_doing ?_ | refine withinW_bind ?_ fun _ => ?_ | refine withinW_forIn _ _ _ fun _ _ => ?_
        | refine withinW_map _ ?_ | split | dsimp only

def combineRows_foot : Foot := readRow_foot
theorem combineRows_within {F : Foot} (hF : combineRows_foot ⊆ F) (d : Slot) (e : Nat) (rt : ElemType) (members : List Nat) : ∀ x0, WithinW F (combineRows d e rt members x0 : Work s₀ (List (Nat × List Req)))
  | [] => by
    have hF0 := hF
    simp only [combineRows_foot] at hF
    unfold combineRows
    repeat' first
      | with_reducible
          first
          | exact combineRows_within hF0 _ _ _ _ _ | intro _ | exact arises_within .. | exact readRow_within ‹_› ..
          | exact within_pure _ | exact withinW_pure _ | exact withinW_get | exact withinW_set _
          | exact withinW_modify _ | exact withinW_modifyGet _ | refine within_bind ?_ fun _ => ?_
          | refine withinW_ite ?_ ?_ | refine withinW_doing ?_ | refine withinW_bind ?_ fun _ => ?_
          | refine withinW_forIn _ _ _ fun _ _ => ?_ | refine withinW_map _ ?_ | split | dsimp only
  | (s, tag) :: rest => by
    have hF0 := hF
    simp only [combineRows_foot] at hF
    unfold combineRows
    repeat' first
      | with_reducible
          first
          | exact combineRows_within hF0 _ _ _ _ _ | intro _ | exact arises_within .. | exact readRow_within ‹_› ..
          | exact within_pure _ | exact withinW_pure _ | exact withinW_get | exact withinW_set _
          | exact withinW_modify _ | exact withinW_modifyGet _ | refine within_bind ?_ fun _ => ?_
          | refine withinW_ite ?_ ?_ | refine withinW_doing ?_ | refine withinW_bind ?_ fun _ => ?_
          | refine withinW_forIn _ _ _ fun _ _ => ?_ | refine withinW_map _ ?_ | split | dsimp only

def actCollCombine_foot : Foot := runFor_foot ++ (readTags_foot ++ (combineRows_foot ++ (postFrames_foot ++ finish_foot)))
theorem actCollCombine_within {F : Foot} (hF : actCollCombine_foot ⊆ F) (id : Nat) : Within F (actCollCombine id : Act s₀ Unit) := by
  simp only [actCollCombine_foot, List.append_subset] at hF
  obtain ⟨_, _, _, _, _⟩ := hF
  unfold actCollCombine
  repeat' first
    | with_reducible
        first
        | intro _ | exact readTags_within ‹_› .. | exact combineRows_within ‹_› .. | exact postFrames_within ‹_› ..
        | exact finish_within ‹_› .. | exact within_pure _ | exact within_now | refine within_bind ?_ fun _ => ?_
        | refine within_ite ?_ ?_ | refine runFor_within ‹_› _ _ ?_ | exact withinW_pure _ | exact withinW_get
        | refine withinW_doing ?_ | refine withinW_bind ?_ fun _ => ?_ | refine withinW_map _ ?_
        | refine withinP_run ?_ | exact withinP_pure _ | refine withinP_lift ?_ | refine withinP_bind ?_ fun _ => ?_
        | split | dsimp only

end Sys2Proof.Machine
end

