-- ==== Sys2Proof/Laws/FootVarnish.lean ====
section
/-! SUPPORT. The footprints of the actions of Varnish. -/

namespace Sys2Proof.Machine

variable {s₀ : State}

theorem permitOwn_within {F : Foot} (n lo len : Nat) : WithinP F (permitOwn n lo len : Prep s₀ Unit) := by
  unfold permitOwn
  repeat' first
    | with_reducible
        first
        | intro _ | exact permit_within .. | exact within_pure _ | exact within_now | exact withinW_pure _
        | exact withinW_get | exact withinW_set _ | exact withinW_modify _ | exact withinW_modifyGet _
        | exact withinP_pure _ | exact withinP_failure | refine within_bind ?_ fun _ => ?_ | refine withinW_doing ?_
        | refine withinW_bind ?_ fun _ => ?_ | refine withinW_forIn _ _ _ fun _ _ => ?_ | refine withinW_map _ ?_
        | refine withinP_lift ?_ | refine withinP_bind ?_ fun _ => ?_ | refine withinP_forIn _ _ _ fun _ _ => ?_
        | refine withinP_map _ ?_ | split | dsimp only

def readOwnStack_foot : Foot := readSpan_foot
theorem readOwnStack_within {F : Foot} (hF : readOwnStack_foot ⊆ F) (n lo len : Nat) : WithinP F (readOwnStack n lo len : Prep s₀ Nat) := by
  simp only [readOwnStack_foot] at hF
  unfold readOwnStack
  repeat' first
    | with_reducible
        first
        | intro _ | exact permitRead_within .. | exact readSpan_within ‹_› .. | exact within_pure _
        | exact within_now | exact withinW_pure _ | exact withinW_get | exact withinW_set _ | exact withinW_modify _
        | exact withinW_modifyGet _ | exact withinP_pure _ | exact withinP_failure
        | refine within_bind ?_ fun _ => ?_ | refine withinW_doing ?_ | refine withinW_bind ?_ fun _ => ?_
        | refine withinW_forIn _ _ _ fun _ _ => ?_ | refine withinW_map _ ?_ | refine withinP_lift ?_
        | refine withinP_bind ?_ fun _ => ?_ | refine withinP_forIn _ _ _ fun _ _ => ?_ | refine withinP_map _ ?_
        | split | dsimp only

def prepVarProgram_foot : Foot := readOwnStack_foot
theorem prepVarProgram_within {F : Foot} (hF : prepVarProgram_foot ⊆ F) (n : Nat) (w : Descriptor) : WithinP F (prepVarProgram n w : Prep s₀ (List Nat)) := by
  simp only [prepVarProgram_foot] at hF
  unfold prepVarProgram
  repeat' first
    | with_reducible
        first
        | intro _ | exact demand_within .. | exact readOwnStack_within ‹_› .. | exact within_pure _
        | exact withinW_pure _ | exact withinW_get | exact withinW_set _ | exact withinW_modify _
        | exact withinW_modifyGet _ | exact withinP_pure _ | exact withinP_failure
        | refine within_bind ?_ fun _ => ?_ | refine withinW_doing ?_ | refine withinW_bind ?_ fun _ => ?_
        | refine withinW_forIn _ _ _ fun _ _ => ?_ | refine withinW_map _ ?_ | refine withinP_lift ?_
        | refine withinP_bind ?_ fun _ => ?_ | refine withinP_forIn _ _ _ fun _ _ => ?_ | refine withinP_map _ ?_
        | split | dsimp only

def actVarProgram_foot : Foot := [.fld VAR_PROG_N0, .fld VAR_PROG_N1, .fld VAR_PROG_N2, .fld VAR_PROG_N3] ++ (changeVar_foot ++ finish_foot)
theorem actVarProgram_within {F : Foot} (hF : actVarProgram_foot ⊆ F) (n : DieNo) : Within F (actVarProgram n : Act s₀ Unit) := by
  simp only [actVarProgram_foot, List.append_subset, List.cons_subset, List.nil_subset, and_true, and_assoc] at hF
  obtain ⟨_, _, _, _, _, _⟩ := hF
  unfold actVarProgram
  repeat' first
    | with_reducible
        first
        | intro _ | exact changeVar_within ‹_› .. | exact finish_within ‹_› .. | exact within_pure _
        | exact within_now | exact within_setF _ _ _ _ ‹_› | refine within_bind ?_ fun _ => ?_ | split | dsimp only
    | exact within_setF _ _ _ _ (by unfold progCount; split <;> assumption)

def updateTouches_foot : Foot := readTensors_foot
theorem updateTouches_within {F : Foot} (hF : updateTouches_foot ⊆ F) (n t segs : Nat) : WithinP F (updateTouches n t segs : Prep s₀ (List Nat)) := by
  simp only [updateTouches_foot] at hF
  unfold updateTouches
  repeat' first
    | with_reducible
        first
        | intro _ | exact demand_within .. | exact permitOwn_within .. | exact readTensors_within ‹_› ..
        | exact within_pure _ | exact withinW_pure _ | exact withinW_get | exact withinW_set _
        | exact withinW_modify _ | exact withinW_modifyGet _ | exact withinP_pure _ | exact withinP_failure
        | refine within_bind ?_ fun _ => ?_ | refine withinP_ite ?_ ?_ | refine within_forIn _ _ _ fun _ _ => ?_
        | refine withinW_doing ?_ | refine withinW_bind ?_ fun _ => ?_ | refine withinW_forIn _ _ _ fun _ _ => ?_
        | refine withinW_map _ ?_ | refine withinP_lift ?_ | refine withinP_bind ?_ fun _ => ?_
        | refine withinP_forIn _ _ _ fun _ _ => ?_ | refine withinP_map _ ?_ | refine attempt_within ?_
        | exact withinW_pure _ | exact withinW_get | refine withinP_run ?_ | exact withinP_pure _ | split
        | dsimp only

def prepVarUpdate_foot : Foot := readOwnStack_foot ++ updateTouches_foot
theorem prepVarUpdate_within {F : Foot} (hF : prepVarUpdate_foot ⊆ F) (n : Nat) (w : Descriptor) : WithinP F (prepVarUpdate n w : Prep s₀ (List Nat)) := by
  simp only [prepVarUpdate_foot, List.append_subset] at hF
  obtain ⟨_, _⟩ := hF
  unfold prepVarUpdate
  repeat' first
    | with_reducible
        first
        | intro _ | exact failWith_within .. | exact demand_within .. | exact permit_within ..
        | exact readOwnStack_within ‹_› .. | exact updateTouches_within ‹_› .. | exact sound_within ..
        | exact within_pure _ | exact within_now | exact withinW_pure _ | exact withinW_get | exact withinW_set _
        | exact withinW_modify _ | exact withinW_modifyGet _ | exact withinP_pure _ | exact withinP_failure
        | refine within_bind ?_ fun _ => ?_ | refine withinP_ite ?_ ?_ | refine withinW_doing ?_
        | refine withinW_bind ?_ fun _ => ?_ | refine withinW_forIn _ _ _ fun _ _ => ?_ | refine withinW_map _ ?_
        | refine withinP_lift ?_ | refine withinP_bind ?_ fun _ => ?_ | refine withinP_forIn _ _ _ fun _ _ => ?_
        | refine withinP_map _ ?_ | refine attempt_within ?_ | exact withinW_pure _ | exact withinW_get
        | refine withinP_run ?_ | exact withinP_pure _ | split | dsimp only

def passElement_foot : Foot := readBits_foot
theorem passElement_within {F : Foot} (hF : passElement_foot ⊆ F) (p : Pass) (g : Segment) (db dw : Val) (i e : Nat) (a : Sums) : WithinW F (passElement p g db dw i e a : Work s₀ Sums) := by
  simp only [passElement_foot] at hF
  unfold passElement
  repeat' first
    | with_reducible
        first
        | intro _ | exact readBits_within ‹_› .. | exact raiseFlags_within .. | exact writeBits_within ..
        | exact within_pure _ | exact withinW_pure _ | exact withinW_get | exact withinW_set _
        | exact withinW_modify _ | exact withinW_modifyGet _ | refine within_bind ?_ fun _ => ?_
        | refine withinW_ite ?_ ?_ | refine within_forIn _ _ _ fun _ _ => ?_ | refine withinW_doing ?_
        | refine withinW_bind ?_ fun _ => ?_ | refine withinW_forIn _ _ _ fun _ _ => ?_ | refine withinW_map _ ?_
        | split | dsimp only

def passElements_foot : Foot := passElement_foot
theorem passElements_within {F : Foot} (hF : passElements_foot ⊆ F) (p : Pass) (g : Segment) (db dw : Val) (base i n : Nat) (a : Sums) : WithinW F (passElements p g db dw base i n a : Work s₀ Sums) := by
  simp only [passElements_foot] at hF
  unfold passElements
  repeat' first
    | with_reducible
        first
        | intro _ | exact passElement_within ‹_› .. | exact within_pure _ | exact withinW_pure _ | exact withinW_get
        | exact withinW_set _ | exact withinW_modify _ | exact withinW_modifyGet _
        | refine within_bind ?_ fun _ => ?_ | refine withinW_ite ?_ ?_ | refine within_forIn _ _ _ fun _ _ => ?_
        | refine withinW_doing ?_ | refine withinW_bind ?_ fun _ => ?_ | refine withinW_forIn _ _ _ fun _ _ => ?_
        | refine withinW_map _ ?_ | split | dsimp only

theorem rowScalar_within {F : Foot} (x : Val) (n : Nat) : WithinW F (rowScalar x n : Work s₀ Val) := by
  unfold rowScalar
  repeat' first
    | with_reducible
        first
        | intro _ | exact raiseFlags_within .. | exact within_pure _ | exact withinW_pure _ | exact withinW_get
        | exact withinW_set _ | exact withinW_modify _ | exact withinW_modifyGet _
        | refine within_bind ?_ fun _ => ?_ | refine withinW_doing ?_ | refine withinW_bind ?_ fun _ => ?_
        | refine withinW_forIn _ _ _ fun _ _ => ?_ | refine withinW_map _ ?_ | split | dsimp only

def passRow_foot : Foot := [.fld VAR_LAZY_SKIP_COUNT, .fld VAR_ROW_AHEAD_COUNT] ++ (getElt_foot ++ (readBits_foot ++ passElements_foot))
theorem passRow_within {F : Foot} (hF : passRow_foot ⊆ F) (n : Nat) (p : Pass) (g : Segment) (touch : Option Tensor) (base j : Nat) (a : Sums) : WithinW F (passRow n p g touch base j a : Work s₀ Sums) := by
  simp only [passRow_foot, List.append_subset, List.cons_subset, List.nil_subset, and_true, and_assoc] at hF
  obtain ⟨_, _, _, _, _⟩ := hF
  unfold passRow
  repeat' first
    | with_reducible
        first
        | intro _ | exact getElt_within ‹_› .. | exact readBits_within ‹_› .. | exact rowScalar_within ..
        | exact passElements_within ‹_› .. | exact writeBits_within .. | exact within_pure _ | exact withinW_pure _
        | exact withinW_get | exact withinW_set _ | exact withinW_modify _ | exact withinW_modifyGet _
        | exact within_countUp _ _ _ _ ‹_› | refine within_bind ?_ fun _ => ?_ | refine withinW_ite ?_ ?_
        | refine withinW_doing ?_ | refine withinW_bind ?_ fun _ => ?_ | refine withinW_forIn _ _ _ fun _ _ => ?_
        | refine withinW_map _ ?_ | split | dsimp only

def passSegments_foot : Foot := passRow_foot ++ passElements_foot
theorem passSegments_within {F : Foot} (hF : passSegments_foot ⊆ F) (n : Nat) (p : Pass) : ∀ x0 x1 x2, WithinW F (passSegments n p x0 x1 x2 : Work s₀ Sums)
  | _, [], a => by
    have hF0 := hF
    simp only [passSegments_foot, List.append_subset] at hF
    obtain ⟨_, _⟩ := hF
    unfold passSegments
    repeat' first
      | with_reducible
          first
          | exact passSegments_within hF0 _ _ _ _ _ | intro _ | exact passRow_within ‹_› ..
          | exact passElements_within ‹_› .. | exact within_pure _ | exact withinW_pure _ | exact withinW_get
          | exact withinW_set _ | exact withinW_modify _ | exact withinW_modifyGet _
          | refine within_bind ?_ fun _ => ?_ | refine withinW_ite ?_ ?_ | refine within_forIn _ _ _ fun _ _ => ?_
          | refine withinW_doing ?_ | refine withinW_bind ?_ fun _ => ?_ | refine withinW_forIn _ _ _ fun _ _ => ?_
          | refine withinW_map _ ?_ | split | dsimp only
  | base, (g, touch) :: rest, a => by
    have hF0 := hF
    simp only [passSegments_foot, List.append_subset] at hF
    obtain ⟨_, _⟩ := hF
    unfold passSegments
    repeat' first
      | with_reducible
          first
          | exact passSegments_within hF0 _ _ _ _ _ | intro _ | exact passRow_within ‹_› ..
          | exact passElements_within ‹_› .. | exact within_pure _ | exact withinW_pure _ | exact withinW_get
          | exact withinW_set _ | exact withinW_modify _ | exact withinW_modifyGet _
          | refine within_bind ?_ fun _ => ?_ | refine withinW_ite ?_ ?_ | refine within_forIn _ _ _ fun _ _ => ?_
          | refine withinW_doing ?_ | refine withinW_bind ?_ fun _ => ?_ | refine withinW_forIn _ _ _ fun _ _ => ?_
          | refine withinW_map _ ?_ | split | dsimp only

def runPass_foot : Foot := passSegments_foot ++ uncore_foot
theorem runPass_within {F : Foot} (hF : runPass_foot ⊆ F) (n : Nat) (u : Update) (k : Nat) (second : Bool) (scales : List Val) : WithinW F (runPass n u k second scales : Work s₀ Sums) := by
  simp only [runPass_foot, List.append_subset] at hF
  obtain ⟨_, _⟩ := hF
  unfold runPass
  repeat' first
    | with_reducible
        first
        | intro _ | exact raiseFlags_within .. | exact passSegments_within ‹_› .. | exact uncore_within ‹_› ..
        | exact within_pure _ | exact withinW_pure _ | exact withinW_get | exact withinW_set _
        | exact withinW_modify _ | exact withinW_modifyGet _ | refine within_bind ?_ fun _ => ?_
        | refine withinW_ite ?_ ?_ | refine within_forIn _ _ _ fun _ _ => ?_ | refine withinW_doing ?_
        | refine withinW_bind ?_ fun _ => ?_ | refine withinW_forIn _ _ _ fun _ _ => ?_ | refine withinW_map _ ?_
        | split | dsimp only

def actVarUpdate_foot : Foot := runFor_foot ++ (runPass_foot ++ changeVar_foot)
theorem actVarUpdate_within {F : Foot} (hF : actVarUpdate_foot ⊆ F) (n : DieNo) : Within F (actVarUpdate n : Act s₀ Unit) := by
  simp only [actVarUpdate_foot, List.append_subset] at hF
  obtain ⟨_, _, _⟩ := hF
  unfold actVarUpdate
  repeat' first
    | with_reducible
        first
        | intro _ | exact runPass_within ‹_› .. | exact raiseFlags_within .. | exact changeVar_within ‹_› ..
        | exact within_pure _ | exact within_now | refine within_bind ?_ fun _ => ?_ | refine within_ite ?_ ?_
        | refine within_forIn _ _ _ fun _ _ => ?_ | refine runFor_within ‹_› _ _ ?_ | exact withinW_pure _
        | exact withinW_get | refine withinW_doing ?_ | refine withinW_bind ?_ fun _ => ?_ | refine withinW_map _ ?_
        | refine withinW_forIn _ _ _ fun _ _ => ?_ | refine withinP_forIn _ _ _ fun _ _ => ?_ | refine withinP_run ?_
        | exact withinP_pure _ | refine withinP_lift ?_ | refine withinP_bind ?_ fun _ => ?_ | split | dsimp only

def withVarRun_foot : Foot := changeVar_foot
theorem withVarRun_within {F : Foot} (hF : withVarRun_foot ⊆ F) (id : Nat) (f : VarRun → VarRun) : Within F (withVarRun id f : Act s₀ Unit) := by
  simp only [withVarRun_foot] at hF
  unfold withVarRun
  repeat' first
    | with_reducible
        first
        | intro _ | exact changeVar_within ‹_› .. | exact within_pure _ | refine within_bind ?_ fun _ => ?_
        | refine within_ite ?_ ?_ | split | dsimp only

def actVarPass1End_foot : Foot := endVarRun_foot ++ (changeVar_foot ++ (withVarRun_foot ++ withExchange_foot))
theorem actVarPass1End_within {F : Foot} (hF : actVarPass1End_foot ⊆ F) (n : DieNo) : Within F (actVarPass1End n : Act s₀ Unit) := by
  simp only [actVarPass1End_foot, List.append_subset] at hF
  obtain ⟨_, _, _, _⟩ := hF
  unfold actVarPass1End
  repeat' first
    | with_reducible
        first
        | intro _ | exact endVarRun_within ‹_› .. | exact changeVar_within ‹_› .. | exact withVarRun_within ‹_› ..
        | exact withExchange_within ‹_› .. | exact within_pure _ | exact within_now
        | refine within_bind ?_ fun _ => ?_ | refine within_ite ?_ ?_ | split | dsimp only

def actExchangeModuleRecord_foot : Foot := [.fld COLL_GROUP_ID_SEQ] ++ (withExchange_foot ++ (changeFab_foot ++ (startColl_foot ++ (takeStaged_foot ++ (drainStaged_foot ++ settleColl_foot)))))
theorem actExchangeModuleRecord_within {F : Foot} (hF : actExchangeModuleRecord_foot ⊆ F) (e : Nat) : Within F (actExchangeModuleRecord e : Act s₀ Unit) := by
  simp only [actExchangeModuleRecord_foot, List.append_subset, List.cons_subset, List.nil_subset, and_true] at hF
  obtain ⟨_, _, _, _, _, _, _⟩ := hF
  unfold actExchangeModuleRecord
  repeat' first
    | with_reducible
        first
        | intro _ | exact withExchange_within ‹_› .. | exact changeFab_within ‹_› .. | exact startColl_within ‹_› ..
        | exact takeStaged_within ‹_› .. | exact drainStaged_within ‹_› .. | exact settleColl_within ‹_› ..
        | exact within_pure _ | exact within_now | exact within_setF _ _ _ _ ‹_› | refine within_bind ?_ fun _ => ?_
        | refine within_ite ?_ ?_ | split | dsimp only

def holdDie_foot : Foot := [.fld VAR_STATUS_HELD, .fld VAR_STATUS_HELD_CAUSE, .fld VAR_SKEW_LOG_CAUSE, .fld VAR_SKEW_LOG_DIE, .fld VAR_SKEW_LOG_MODULE, .fld VAR_SKEW_LOG_K_SEEN, .fld VAR_SKEW_LOG_VALID, .fld VAR_SKEW_LOG_OVERRUN] ++ changeVar_foot
theorem holdDie_within {F : Foot} (hF : holdDie_foot ⊆ F) (n detail k : Nat) : Within F (holdDie n detail k : Act s₀ Unit) := by
  simp only [holdDie_foot, List.append_subset, List.cons_subset, List.nil_subset, and_true, and_assoc] at hF
  obtain ⟨_, _, _, _, _, _, _, _, _⟩ := hF
  unfold holdDie
  repeat' first
    | with_reducible
        first
        | intro _ | exact changeVar_within ‹_› .. | exact within_pure _ | exact within_setF _ _ _ _ ‹_›
        | refine within_bind ?_ fun _ => ?_ | refine within_logFirst _ _ _ _ ‹_› ‹_› ?_ | split | dsimp only

def takeGlobal_foot : Foot := [.fld VAR_NORM_SCALE, .fld VAR_NORM_S, .fld VAR_STATUS_NORM_NONFINITE] ++ (runFor_foot ++ withVarRun_foot)
theorem takeGlobal_within {F : Foot} (hF : takeGlobal_foot ⊆ F) (r : Report) (sums : List (Option Val)) (counts : List Nat) : Within F (takeGlobal r sums counts : Act s₀ Unit) := by
  simp only [takeGlobal_foot, List.append_subset, List.cons_subset, List.nil_subset, and_true, and_assoc] at hF
  obtain ⟨_, _, _, _, _⟩ := hF
  unfold takeGlobal
  repeat' first
    | with_reducible
        first
        | intro _ | exact raiseFlags_within .. | exact withVarRun_within ‹_› .. | exact within_pure _
        | exact within_now | exact within_freeIndex | exact within_setF _ _ _ _ ‹_› | exact within_raise _ _ _ ‹_›
        | refine within_bind ?_ fun _ => ?_ | refine within_ite ?_ ?_ | refine within_each _ _ fun _ => ?_
        | refine runFor_within ‹_› _ _ ?_ | exact withinW_pure _ | exact withinW_get | refine withinW_doing ?_
        | refine withinW_bind ?_ fun _ => ?_ | refine withinW_map _ ?_ | refine withinP_run ?_ | exact withinP_pure _
        | refine withinP_lift ?_ | refine withinP_bind ?_ fun _ => ?_ | split | dsimp only

def actExchangeGatherComplete_foot : Foot := endExchange_foot ++ (holdDie_foot ++ (takeGlobal_foot ++ changeVar_foot))
theorem actExchangeGatherComplete_within {F : Foot} (hF : actExchangeGatherComplete_foot ⊆ F) (e : Nat) : Within F (actExchangeGatherComplete e : Act s₀ Unit) := by
  simp only [actExchangeGatherComplete_foot, List.append_subset] at hF
  obtain ⟨_, _, _, _⟩ := hF
  unfold actExchangeGatherComplete
  repeat' first
    | with_reducible
        first
        | intro _ | exact endExchange_within ‹_› .. | exact holdDie_within ‹_› .. | exact takeGlobal_within ‹_› ..
        | exact changeVar_within ‹_› .. | exact within_pure _ | exact within_now | refine within_bind ?_ fun _ => ?_
        | refine within_ite ?_ ?_ | refine within_each _ _ fun _ => ?_ | split | dsimp only

def commitPass_foot : Foot := commitStaged_foot ++ sendTo_foot
theorem commitPass_within {F : Foot} (hF : commitPass_foot ⊆ F) (n : Nat) : WithinW F (commitPass n : Work s₀ Unit) := by
  simp only [commitPass_foot, List.append_subset] at hF
  obtain ⟨_, _⟩ := hF
  unfold commitPass
  repeat' first
    | with_reducible
        first
        | intro _ | exact commitStaged_within ‹_› .. | exact noteGot_within .. | exact sendTo_within ‹_› ..
        | exact within_pure _ | exact within_now | exact withinW_pure _ | exact withinW_get | exact withinW_set _
        | exact withinW_modify _ | exact withinW_modifyGet _ | refine within_bind ?_ fun _ => ?_
        | refine within_forIn _ _ _ fun _ _ => ?_ | refine withinW_doing ?_ | refine withinW_bind ?_ fun _ => ?_
        | refine withinW_forIn _ _ _ fun _ _ => ?_ | refine withinW_map _ ?_ | split | dsimp only

def actVarPass2End_foot : Foot := [.fld VAR_STEP_K] ++ (runFor_foot ++ (runPass_foot ++ (commitPass_foot ++ (withVarRun_foot ++ finish_foot))))
theorem actVarPass2End_within {F : Foot} (hF : actVarPass2End_foot ⊆ F) (n : DieNo) : Within F (actVarPass2End n : Act s₀ Unit) := by
  simp only [actVarPass2End_foot, List.append_subset, List.cons_subset, List.nil_subset, and_true] at hF
  obtain ⟨_, _, _, _, _, _⟩ := hF
  unfold actVarPass2End
  repeat' first
    | with_reducible
        first
        | intro _ | exact runPass_within ‹_› .. | exact commitPass_within ‹_› .. | exact withVarRun_within ‹_› ..
        | exact finish_within ‹_› .. | exact within_pure _ | exact within_now | exact within_setF _ _ _ _ ‹_›
        | refine within_bind ?_ fun _ => ?_ | refine within_ite ?_ ?_ | refine runFor_within ‹_› _ _ ?_
        | exact withinW_pure _ | exact withinW_get | refine withinW_doing ?_ | refine withinW_bind ?_ fun _ => ?_
        | refine withinW_map _ ?_ | refine withinP_run ?_ | exact withinP_pure _ | refine withinP_lift ?_
        | refine withinP_bind ?_ fun _ => ?_ | split | dsimp only

theorem prepVarState_within {F : Foot} (w : Descriptor) : WithinP F (prepVarState w : Prep s₀ (List Nat)) := by
  unfold prepVarState
  repeat' first
    | with_reducible
        first
        | intro _ | exact demand_within .. | exact within_pure _ | exact withinW_pure _ | exact withinW_get
        | exact withinW_set _ | exact withinW_modify _ | exact withinW_modifyGet _ | exact withinP_pure _
        | exact withinP_failure | refine within_bind ?_ fun _ => ?_ | refine withinW_doing ?_
        | refine withinW_bind ?_ fun _ => ?_ | refine withinW_forIn _ _ _ fun _ _ => ?_ | refine withinW_map _ ?_
        | refine withinP_lift ?_ | refine withinP_bind ?_ fun _ => ?_ | refine withinP_forIn _ _ _ fun _ _ => ?_
        | refine withinP_map _ ?_ | split | dsimp only

def clearHold_foot : Foot := [.fld VAR_STATUS_HELD, .fld VAR_STATUS_HELD_CAUSE] ++ changeVar_foot
theorem clearHold_within {F : Foot} (hF : clearHold_foot ⊆ F) (n : Nat) : Within F (clearHold n : Act s₀ Unit) := by
  simp only [clearHold_foot, List.append_subset, List.cons_subset, List.nil_subset, and_true, and_assoc] at hF
  obtain ⟨_, _, _⟩ := hF
  unfold clearHold
  repeat' first
    | with_reducible
        first
        | intro _ | exact changeVar_within ‹_› .. | exact within_pure _ | exact within_setF _ _ _ _ ‹_›
        | refine within_bind ?_ fun _ => ?_ | split | dsimp only

def setStep_foot : Foot := [.fld VAR_STEP_K] ++ clearHold_foot
theorem setStep_within {F : Foot} (hF : setStep_foot ⊆ F) (n k : Nat) : Within F (setStep n k : Act s₀ Unit) := by
  simp only [setStep_foot, List.append_subset, List.cons_subset, List.nil_subset, and_true] at hF
  obtain ⟨_, _⟩ := hF
  unfold setStep
  repeat' first
    | with_reducible
        first
        | intro _ | exact clearHold_within ‹_› .. | exact within_pure _ | exact within_setF _ _ _ _ ‹_›
        | refine within_bind ?_ fun _ => ?_ | split | dsimp only

def actVarState_foot : Foot := setStep_foot ++ (clearHold_foot ++ finish_foot)
theorem actVarState_within {F : Foot} (hF : actVarState_foot ⊆ F) (op : Nat) (n : DieNo) : Within F (actVarState op n : Act s₀ Unit) := by
  simp only [actVarState_foot, List.append_subset] at hF
  obtain ⟨_, _, _⟩ := hF
  unfold actVarState
  repeat' first
    | with_reducible
        first
        | intro _ | exact setStep_within ‹_› .. | exact clearHold_within ‹_› .. | exact finish_within ‹_› ..
        | exact within_pure _ | exact within_now | refine within_bind ?_ fun _ => ?_ | refine within_ite ?_ ?_
        | split | dsimp only

def pushRecords_foot : Foot := readTensors_foot
theorem pushRecords_within {F : Foot} (hF : pushRecords_foot ⊆ F) (n list : Nat) : ∀ x0 x1, WithinP F (pushRecords n list x0 x1 : Prep s₀ (List Nat))
  | 0, _ => by
    have hF0 := hF
    simp only [pushRecords_foot] at hF
    unfold pushRecords
    repeat' first
      | with_reducible
          first
          | exact pushRecords_within hF0 _ _ _ _ | intro _ | exact demand_within .. | exact readTensors_within ‹_› ..
          | exact permitTensor_within .. | exact permitCounter_within .. | exact within_pure _ | exact withinW_pure _
          | exact withinW_get | exact withinW_set _ | exact withinW_modify _ | exact withinW_modifyGet _
          | exact withinP_pure _ | exact withinP_failure | refine within_bind ?_ fun _ => ?_
          | refine withinW_doing ?_ | refine withinW_bind ?_ fun _ => ?_ | refine withinW_forIn _ _ _ fun _ _ => ?_
          | refine withinW_map _ ?_ | refine withinP_lift ?_ | refine withinP_bind ?_ fun _ => ?_
          | refine withinP_forIn _ _ _ fun _ _ => ?_ | refine withinP_map _ ?_ | refine attempt_within ?_
          | exact withinW_pure _ | exact withinW_get | refine withinP_run ?_ | exact withinP_pure _ | split
          | dsimp only
  | k + 1, i => by
    have hF0 := hF
    simp only [pushRecords_foot] at hF
    unfold pushRecords
    repeat' first
      | with_reducible
          first
          | exact pushRecords_within hF0 _ _ _ _ | intro _ | exact demand_within .. | exact readTensors_within ‹_› ..
          | exact permitTensor_within .. | exact permitCounter_within .. | exact within_pure _ | exact withinW_pure _
          | exact withinW_get | exact withinW_set _ | exact withinW_modify _ | exact withinW_modifyGet _
          | exact withinP_pure _ | exact withinP_failure | refine within_bind ?_ fun _ => ?_
          | refine withinW_doing ?_ | refine withinW_bind ?_ fun _ => ?_ | refine withinW_forIn _ _ _ fun _ _ => ?_
          | refine withinW_map _ ?_ | refine withinP_lift ?_ | refine withinP_bind ?_ fun _ => ?_
          | refine withinP_forIn _ _ _ fun _ _ => ?_ | refine withinP_map _ ?_ | refine attempt_within ?_
          | exact withinW_pure _ | exact withinW_get | refine withinP_run ?_ | exact withinP_pure _ | split
          | dsimp only

def prepVarPush_foot : Foot := readOwnStack_foot ++ pushRecords_foot
theorem prepVarPush_within {F : Foot} (hF : prepVarPush_foot ⊆ F) (n : Nat) (w : Descriptor) : WithinP F (prepVarPush n w : Prep s₀ (List Nat)) := by
  simp only [prepVarPush_foot, List.append_subset] at hF
  obtain ⟨_, _⟩ := hF
  unfold prepVarPush
  repeat' first
    | with_reducible
        first
        | intro _ | exact demand_within .. | exact readOwnStack_within ‹_› .. | exact pushRecords_within ‹_› ..
        | exact within_pure _ | exact withinW_pure _ | exact withinW_get | exact withinW_set _
        | exact withinW_modify _ | exact withinW_modifyGet _ | exact withinP_pure _ | exact withinP_failure
        | refine within_bind ?_ fun _ => ?_ | refine withinW_doing ?_ | refine withinW_bind ?_ fun _ => ?_
        | refine withinW_forIn _ _ _ fun _ _ => ?_ | refine withinW_map _ ?_ | refine withinP_lift ?_
        | refine withinP_bind ?_ fun _ => ?_ | refine withinP_forIn _ _ _ fun _ _ => ?_ | refine withinP_map _ ?_
        | split | dsimp only

def commitPush_foot : Foot := [.fld VAR_PUSHED_COUNT] ++ (sendTo_foot ++ uncore_foot)
theorem commitPush_within {F : Foot} (hF : commitPush_foot ⊆ F) (n : Nat) (ac : Option Nat) : WithinW F (commitPush n ac : Work s₀ Unit) := by
  simp only [commitPush_foot, List.append_subset, List.cons_subset, List.nil_subset, and_true] at hF
  obtain ⟨_, _, _⟩ := hF
  unfold commitPush
  repeat' first
    | with_reducible
        first
        | intro _ | exact sendTo_within ‹_› .. | exact uncore_within ‹_› .. | exact arises_within ..
        | exact within_pure _ | exact withinW_pure _ | exact withinW_get | exact withinW_set _
        | exact withinW_modify _ | exact withinW_modifyGet _ | exact within_countUp _ _ _ _ ‹_›
        | refine within_bind ?_ fun _ => ?_ | refine withinW_ite ?_ ?_ | refine within_forIn _ _ _ fun _ _ => ?_
        | refine withinW_doing ?_ | refine withinW_bind ?_ fun _ => ?_ | refine withinW_forIn _ _ _ fun _ _ => ?_
        | refine withinW_map _ ?_ | split | dsimp only

def pushWork_foot : Foot := readStream_foot ++ commitPush_foot
theorem pushWork_within {F : Foot} (hF : pushWork_foot ⊆ F) (n : Nat) (d : Slot) : WithinW F (pushWork n d : Work s₀ Unit) := by
  simp only [pushWork_foot, List.append_subset] at hF
  obtain ⟨_, _⟩ := hF
  unfold pushWork
  repeat' first
    | with_reducible
        first
        | intro _ | exact readStream_within ‹_› .. | exact putMoves_within .. | exact commitPush_within ‹_› ..
        | exact within_pure _ | exact withinW_pure _ | exact withinW_get | exact withinW_set _
        | exact withinW_modify _ | exact withinW_modifyGet _ | refine within_bind ?_ fun _ => ?_
        | refine withinW_ite ?_ ?_ | refine within_forIn _ _ _ fun _ _ => ?_ | refine withinW_doing ?_
        | refine withinW_bind ?_ fun _ => ?_ | refine withinW_forIn _ _ _ fun _ _ => ?_ | refine withinW_map _ ?_
        | split | dsimp only

def noteAccess_foot : Foot := withSlot_foot
theorem noteAccess_within {F : Foot} (hF : noteAccess_foot ⊆ F) (sender : Option Nat) (e : Got) : Within F (noteAccess sender e : Act s₀ Unit) := by
  simp only [noteAccess_foot] at hF
  unfold noteAccess
  repeat' first
    | with_reducible
        first
        | intro _ | exact withSlot_within ‹_› .. | exact within_pure _ | refine within_bind ?_ fun _ => ?_
        | refine within_ite ?_ ?_ | split | dsimp only

def serveStack_foot : Foot := stackRetire_foot ++ (noteAccess_foot ++ (writeGranule_foot ++ readGranule_foot))
theorem serveStack_within {F : Foot} (hF : serveStack_foot ⊆ F) (n : Nat) (w : StackWait) : Within F (serveStack n w : Act s₀ Unit) := by
  simp only [serveStack_foot, List.append_subset] at hF
  obtain ⟨_, _, _, _⟩ := hF
  unfold serveStack
  repeat' first
    | with_reducible
        first
        | intro _ | exact stackRetire_within ‹_› .. | exact noteAccess_within ‹_› ..
        | exact writeGranule_within ‹_› .. | exact readGranule_within ‹_› .. | exact within_pure _ | exact within_now
        | refine within_bind ?_ fun _ => ?_ | refine within_ite ?_ ?_ | split | dsimp only

def presentStack_foot : Foot := [.part .hbm] ++ serveStack_foot
theorem presentStack_within {F : Foot} (hF : presentStack_foot ⊆ F) (n : Nat) (w : StackWait) : Within F (presentStack n w : Act s₀ Unit) := by
  simp only [presentStack_foot, List.append_subset, List.cons_subset, List.nil_subset, and_true] at hF
  obtain ⟨_, _⟩ := hF
  unfold presentStack
  repeat' first
    | with_reducible
        first
        | intro _ | exact serveStack_within ‹_› .. | exact within_pure _ | exact within_now
        | refine within_bind ?_ fun _ => ?_ | refine within_ite ?_ ?_ | split | dsimp only
    | exact within_change _ fun u p => by cases p <;> first | exact .inl rfl | exact .inr ‹_› | (refine .inl ?_; simp only [Part.same]; repeat' split) <;> rfl

def actStackAccess_foot : Foot := [.mem] ++ presentStack_foot
theorem actStackAccess_within {F : Foot} (hF : actStackAccess_foot ⊆ F) (n : Nat) (own : Bool) (sender : Option Nat) (addr : Nat) (wr : Option (Granule × Granule)) (upset : BitVec 576) (spare : Bool) : Within F (actStackAccess n own sender addr wr upset spare : Act s₀ Unit) := by
  simp only [actStackAccess_foot, List.append_subset, List.cons_subset, List.nil_subset, and_true] at hF
  obtain ⟨_, _⟩ := hF
  unfold actStackAccess
  repeat' first
    | with_reducible
        first
        | intro _ | exact presentStack_within ‹_› .. | exact within_pure _ | exact within_now
        | exact within_emit_upset ‹_› .. | refine within_bind ?_ fun _ => ?_ | refine within_ite ?_ ?_ | split
        | dsimp only

end Sys2Proof.Machine
end

