-- ==== Sys2Proof/Laws/FootAteliers.lean ====
section
/-! SUPPORT. The footprints of the actions of Ateliers. -/

namespace Sys2Proof.Machine

variable {s₀ : State}

def takeHolding_foot : Foot := discardRecorded_foot
theorem takeHolding_within {F : Foot} (hF : takeHolding_foot ⊆ F) {w : RegWrite} (hw : F.free w.addr) (h : Holding) : Within F (takeHolding w h : Act s₀ Unit) := by
  simp only [takeHolding_foot] at hF
  unfold takeHolding
  repeat' first
    | with_reducible
        first
        | intro _ | exact discardRecorded_within ‹_› .. | exact plainHook_within ‹_› .. | exact within_pure _
        | exact within_now | exact within_emitFree _ _ ‹_› | refine within_bind ?_ fun _ => ?_
        | refine within_ite ?_ ?_ | split | dsimp only

def hookAtlOwner_foot : Foot := [.reg ATL_STATUS_STATE] ++ discardRecorded_foot
theorem hookAtlOwner_within {F : Foot} (hF : hookAtlOwner_foot ⊆ F) {w : RegWrite} (hw : F.free w.addr) : Within F (hookAtlOwner w : Act s₀ Unit) := by
  simp only [hookAtlOwner_foot, List.append_subset, List.cons_subset, List.nil_subset, and_true] at hF
  obtain ⟨_, _⟩ := hF
  unfold hookAtlOwner
  repeat' first
    | with_reducible
        first
        | intro _ | exact discardRecorded_within ‹_› .. | exact plainHook_within ‹_› .. | exact within_pure _
        | exact within_now | exact within_emitReg _ _ _ _ ‹_› | exact within_emitAddr _ _ ‹_›
        | exact within_emitFree _ _ ‹_› | refine within_bind ?_ fun _ => ?_ | refine within_ite ?_ ?_ | split
        | dsimp only

def hookAtlTiles_foot : Foot := takeHolding_foot
theorem hookAtlTiles_within {F : Foot} (hF : hookAtlTiles_foot ⊆ F) {w : RegWrite} (hw : F.free w.addr) : Within F (hookAtlTiles w : Act s₀ Unit) := by
  simp only [hookAtlTiles_foot] at hF
  unfold hookAtlTiles
  repeat' first
    | with_reducible
        first
        | intro _ | exact takeHolding_within ‹_› ‹_› .. | exact within_pure _ | exact within_now
        | exact within_emitFree _ _ ‹_› | refine within_bind ?_ fun _ => ?_ | split | dsimp only

def hookAtlDies_foot : Foot := takeHolding_foot
theorem hookAtlDies_within {F : Foot} (hF : hookAtlDies_foot ⊆ F) {w : RegWrite} (hw : F.free w.addr) : Within F (hookAtlDies w : Act s₀ Unit) := by
  simp only [hookAtlDies_foot] at hF
  unfold hookAtlDies
  repeat' first
    | with_reducible
        first
        | intro _ | exact takeHolding_within ‹_› ‹_› .. | exact within_pure _ | exact within_now
        | exact within_emitFree _ _ ‹_› | refine within_bind ?_ fun _ => ?_ | split | dsimp only

def hookAtlRings_foot : Foot := takeHolding_foot
theorem hookAtlRings_within {F : Foot} (hF : hookAtlRings_foot ⊆ F) {w : RegWrite} (hw : F.free w.addr) : Within F (hookAtlRings w : Act s₀ Unit) := by
  simp only [hookAtlRings_foot] at hF
  unfold hookAtlRings
  repeat' first
    | with_reducible
        first
        | intro _ | exact takeHolding_within ‹_› ‹_› .. | exact within_pure _ | exact within_now
        | exact within_emitFree _ _ ‹_› | refine within_bind ?_ fun _ => ?_ | refine within_ite ?_ ?_ | split
        | dsimp only

def hookAtlHbm_foot : Foot := takeHolding_foot
theorem hookAtlHbm_within {F : Foot} (hF : hookAtlHbm_foot ⊆ F) {w : RegWrite} (hw : F.free w.addr) : Within F (hookAtlHbm w : Act s₀ Unit) := by
  simp only [hookAtlHbm_foot] at hF
  unfold hookAtlHbm
  repeat' first
    | with_reducible
        first
        | intro _ | exact plainHook_within ‹_› .. | exact takeHolding_within ‹_› ‹_› .. | exact within_pure _
        | exact within_now | exact within_emitFree _ _ ‹_› | refine within_bind ?_ fun _ => ?_
        | refine within_ite ?_ ?_ | split | dsimp only

def hookAtlTxn_foot : Foot := discardRecorded_foot
theorem hookAtlTxn_within {F : Foot} (hF : hookAtlTxn_foot ⊆ F) {w : RegWrite} (hw : F.free w.addr) : Within F (hookAtlTxn w : Act s₀ Unit) := by
  simp only [hookAtlTxn_foot] at hF
  unfold hookAtlTxn
  repeat' first
    | with_reducible
        first
        | intro _ | exact discardRecorded_within ‹_› .. | exact plainHook_within ‹_› .. | exact within_pure _
        | exact within_now | exact within_emitFree _ _ ‹_› | refine within_bind ?_ fun _ => ?_
        | refine within_ite ?_ ?_ | split | dsimp only

def hookAtlMgmt_foot : Foot := [.part .host]
theorem hookAtlMgmt_within {F : Foot} (hF : hookAtlMgmt_foot ⊆ F) {w : RegWrite} (hw : F.free w.addr) : Within F (hookAtlMgmt w : Act s₀ Unit) := by
  simp only [hookAtlMgmt_foot, List.cons_subset, List.nil_subset, and_true] at hF
  unfold hookAtlMgmt
  repeat' first
    | with_reducible
        first
        | intro _ | exact plainHook_within ‹_› .. | exact within_pure _ | exact within_now
        | exact within_emitFree _ _ ‹_› | refine within_bind ?_ fun _ => ?_ | refine within_ite ?_ ?_ | split
        | dsimp only
    | exact within_change _ fun u p => by cases p <;> first | exact .inl rfl | exact .inr ‹_› | (refine .inl ?_; simp only [Part.same]; repeat' split) <;> rfl

def parkHalves_foot : Foot := parkNow_foot
theorem parkHalves_within {F : Foot} (hF : parkHalves_foot ⊆ F) (a reason : Nat) : Within F (parkHalves a reason : Act s₀ Unit) := by
  simp only [parkHalves_foot] at hF
  unfold parkHalves
  repeat' first
    | with_reducible
        first
        | intro _ | exact parkNow_within ‹_› .. | exact within_pure _ | exact within_now
        | refine within_bind ?_ fun _ => ?_ | refine within_ite ?_ ?_ | refine within_each _ _ fun _ => ?_ | split
        | dsimp only

def startQuiesce_foot : Foot := [.fld ATL_STATUS_STATE] ++ (discardFetched_foot ++ parkHalves_foot)
theorem startQuiesce_within {F : Foot} (hF : startQuiesce_foot ⊆ F) (a : Nat) : Within F (startQuiesce a : Act s₀ Unit) := by
  simp only [startQuiesce_foot, List.append_subset, List.cons_subset, List.nil_subset, and_true] at hF
  obtain ⟨_, _, _⟩ := hF
  unfold startQuiesce
  repeat' first
    | with_reducible
        first
        | intro _ | exact discardFetched_within ‹_› .. | exact parkHalves_within ‹_› .. | exact within_pure _
        | exact within_now | exact within_setF _ _ _ _ ‹_› | refine within_bind ?_ fun _ => ?_
        | refine within_ite ?_ ?_ | refine within_each _ _ fun _ => ?_ | split | dsimp only

def actQuiesceDone_foot : Foot := [.fld ATL_STATUS_STATE, .fld RISK_STATUS_DRAINED, .fld RISK_EVENT_DRAINED, .part .host] ++ riskEvent_foot
theorem actQuiesceDone_within {F : Foot} (hF : actQuiesceDone_foot ⊆ F) (a : Nat) : Within F (actQuiesceDone a : Act s₀ Unit) := by
  simp only [actQuiesceDone_foot, List.append_subset, List.cons_subset, List.nil_subset, and_true, and_assoc] at hF
  obtain ⟨_, _, _, _, _⟩ := hF
  unfold actQuiesceDone
  repeat' first
    | with_reducible
        first
        | intro _ | exact riskEvent_within ‹_› _ ‹_› | exact within_pure _ | exact within_now
        | exact within_setF _ _ _ _ ‹_› | refine within_bind ?_ fun _ => ?_ | refine within_ite ?_ ?_ | split
        | dsimp only
    | exact within_change _ fun u p => by cases p <;> first | exact .inl rfl | exact .inr ‹_› | (refine .inl ?_; simp only [Part.same]; repeat' split) <;> rfl

def releaseAtelier_foot : Foot := [.fld ATL_STATUS_STATE, .fld RISK_STATUS_DRAINED, .part .host] ++ settleFences_foot
theorem releaseAtelier_within {F : Foot} (hF : releaseAtelier_foot ⊆ F) (a : Nat) : Within F (releaseAtelier a : Act s₀ Unit) := by
  simp only [releaseAtelier_foot, List.append_subset, List.cons_subset, List.nil_subset, and_true, and_assoc] at hF
  obtain ⟨_, _, _, _⟩ := hF
  unfold releaseAtelier
  repeat' first
    | with_reducible
        first
        | intro _ | exact settleFences_within ‹_› .. | exact within_pure _ | exact within_now
        | exact within_setF _ _ _ _ ‹_› | refine within_bind ?_ fun _ => ?_ | refine within_ite ?_ ?_ | split
        | dsimp only
    | exact within_change _ fun u p => by cases p <;> first | exact .inl rfl | exact .inr ‹_› | (refine .inl ?_; simp only [Part.same]; repeat' split) <;> rfl

def hookShareOk_foot : Foot := [.fld ATL_CTL_SHARE_OK] ++ parkHalves_foot
theorem hookShareOk_within {F : Foot} (hF : hookShareOk_foot ⊆ F) (w : RegWrite) : Within F (hookShareOk w : Act s₀ Unit) := by
  simp only [hookShareOk_foot, List.append_subset, List.cons_subset, List.nil_subset, and_true] at hF
  obtain ⟨_, _⟩ := hF
  unfold hookShareOk
  repeat' first
    | with_reducible
        first
        | intro _ | exact parkHalves_within ‹_› .. | exact within_pure _ | exact within_now
        | exact within_setF _ _ _ _ ‹_› | refine within_bind ?_ fun _ => ?_ | refine within_ite ?_ ?_ | split
        | dsimp only

def hookAtlCtl_foot : Foot := [.fld ATL_CTL_LOCK] ++ (hookShareOk_foot ++ (startQuiesce_foot ++ releaseAtelier_foot))
theorem hookAtlCtl_within {F : Foot} (hF : hookAtlCtl_foot ⊆ F) (w : RegWrite) : Within F (hookAtlCtl w : Act s₀ Unit) := by
  simp only [hookAtlCtl_foot, List.append_subset, List.cons_subset, List.nil_subset, and_true] at hF
  obtain ⟨_, _, _, _⟩ := hF
  unfold hookAtlCtl
  repeat' first
    | with_reducible
        first
        | intro _ | exact hookShareOk_within ‹_› .. | exact startQuiesce_within ‹_› ..
        | exact releaseAtelier_within ‹_› .. | exact within_pure _ | exact within_now | exact within_raise _ _ _ ‹_›
        | refine within_bind ?_ fun _ => ?_ | refine within_ite ?_ ?_ | split | dsimp only

def resetFunction_foot : Foot := [.part .host, .part .rings]
theorem resetFunction_within {F : Foot} (hF : resetFunction_foot ⊆ F) (p : Nat) : Within F (resetFunction p : Act s₀ Unit) := by
  simp only [resetFunction_foot, List.cons_subset, List.nil_subset, and_true] at hF
  obtain ⟨_, _⟩ := hF
  unfold resetFunction
  repeat' first
    | with_reducible
        first
        | intro _ | exact within_pure _ | refine within_bind ?_ fun _ => ?_ | split | dsimp only
    | exact within_change _ fun u p => by cases p <;> first | exact .inl rfl | exact .inr ‹_› | (refine .inl ?_; simp only [Part.same]; repeat' split) <;> rfl

def clearConfig_foot : Foot := [.part .host]
theorem clearConfig_within {F : Foot} (hF : clearConfig_foot ⊆ F) (p : Nat) : Within F (clearConfig p : Act s₀ Unit) := by
  simp only [clearConfig_foot, List.cons_subset, List.nil_subset, and_true] at hF
  unfold clearConfig
  repeat' first
    | with_reducible
        first
        | intro _ | exact within_pure _ | refine within_bind ?_ fun _ => ?_ | split | dsimp only
    | exact within_change _ fun u p => by cases p <;> first | exact .inl rfl | exact .inr ‹_› | (refine .inl ?_; simp only [Part.same]; repeat' split) <;> rfl

def orphanPort_foot : Foot := [.fld ATL_STATUS_ORPHANED, .part .host] ++ (startQuiesce_foot ++ changeRings_foot)
theorem orphanPort_within {F : Foot} (hF : orphanPort_foot ⊆ F) (p : Nat) : Within F (orphanPort p : Act s₀ Unit) := by
  simp only [orphanPort_foot, List.append_subset, List.cons_subset, List.nil_subset, and_true, and_assoc] at hF
  obtain ⟨_, _, _, _⟩ := hF
  unfold orphanPort
  repeat' first
    | with_reducible
        first
        | intro _ | exact startQuiesce_within ‹_› .. | exact changeRings_within ‹_› .. | exact within_pure _
        | exact within_now | exact within_setF _ _ _ _ ‹_› | refine within_bind ?_ fun _ => ?_
        | refine within_ite ?_ ?_ | refine within_each _ _ fun _ => ?_ | split | dsimp only
    | exact within_change _ fun u p => by cases p <;> first | exact .inl rfl | exact .inr ‹_› | (refine .inl ?_; simp only [Part.same]; repeat' split) <;> rfl

def actHostLoss_foot : Foot := [.fld HOST_EVENT_LINK_DOWN, .fld HOST_EVENT_HOT_RESET, .fld HOST_EVENT_FLR, .fld HOST_EVENT_BME_CLEARED, .reg HOST_STATUS_UP, .part .host] ++ (resetFunction_foot ++ orphanPort_foot)
theorem actHostLoss_within {F : Foot} (hF : actHostLoss_foot ⊆ F) (p : Nat) (cause : LossCause) : Within F (actHostLoss p cause : Act s₀ Unit) := by
  simp only [actHostLoss_foot, List.append_subset, List.cons_subset, List.nil_subset, and_true, and_assoc] at hF
  obtain ⟨_, _, _, _, _, _, _, _⟩ := hF
  unfold actHostLoss
  repeat' first
    | with_reducible
        first
        | intro _ | exact resetFunction_within ‹_› .. | exact orphanPort_within ‹_› .. | exact within_pure _
        | exact within_raise _ _ _ ‹_› | exact within_emitReg _ _ _ _ ‹_› | exact within_emitAddr _ _ ‹_›
        | refine within_bind ?_ fun _ => ?_ | split | dsimp only
    | exact within_change _ fun u p => by cases p <;> first | exact .inl rfl | exact .inr ‹_› | (refine .inl ?_; simp only [Part.same]; repeat' split) <;> rfl

def hookAdopt_foot : Foot := [.fld ATL_OWNER_PORT, .fld ATL_STATUS_ORPHANED, .fld ATL_CTL_LOCK, .part .host] ++ discardRecorded_foot
theorem hookAdopt_within {F : Foot} (hF : hookAdopt_foot ⊆ F) {w : RegWrite} (hw : F.free w.addr) : Within F (hookAdopt w : Act s₀ Unit) := by
  simp only [hookAdopt_foot, List.append_subset, List.cons_subset, List.nil_subset, and_true, and_assoc] at hF
  obtain ⟨_, _, _, _, _⟩ := hF
  unfold hookAdopt
  repeat' first
    | with_reducible
        first
        | intro _ | exact plainHook_within ‹_› .. | exact discardRecorded_within ‹_› .. | exact within_pure _
        | exact within_now | exact within_setF _ _ _ _ ‹_› | exact within_emitFree _ _ ‹_›
        | refine within_bind ?_ fun _ => ?_ | refine within_ite ?_ ?_ | split | dsimp only
    | exact within_change _ fun u p => by cases p <;> first | exact .inl rfl | exact .inr ‹_› | (refine .inl ?_; simp only [Part.same]; repeat' split) <;> rfl

theorem hookRingBase_within {F : Foot} {w : RegWrite} (hw : F.free w.addr) : Within F (hookRingBase w : Act s₀ Unit) := by
  unfold hookRingBase
  repeat' first
    | with_reducible
        first
        | intro _ | exact plainHook_within ‹_› .. | exact within_pure _ | exact within_now
        | exact within_emitFree _ _ ‹_› | refine within_bind ?_ fun _ => ?_ | refine within_ite ?_ ?_ | split
        | dsimp only

def clearRings_foot : Foot := [.fld RING_CTL_ENABLE, .fld RING_STATE_STATE] ++ (changeRings_foot ++ rearm_foot)
theorem clearRings_within {F : Foot} (hF : clearRings_foot ⊆ F) (a : Nat) : Within F (clearRings a : Act s₀ Unit) := by
  simp only [clearRings_foot, List.append_subset, List.cons_subset, List.nil_subset, and_true, and_assoc] at hF
  obtain ⟨_, _, _, _⟩ := hF
  unfold clearRings
  repeat' first
    | with_reducible
        first
        | intro _ | exact changeRings_within ‹_› .. | exact rearm_within ‹_› .. | exact within_pure _
        | exact within_now | exact within_setF _ _ _ _ ‹_› | refine within_bind ?_ fun _ => ?_
        | refine within_each _ _ fun _ => ?_ | split | dsimp only

def clearLanes_foot : Foot := [.fld COLL_VL_VALID_VALID, .fld COLL_VL_OWNER_OWNER]
theorem clearLanes_within {F : Foot} (hF : clearLanes_foot ⊆ F) (a : Nat) : Within F (clearLanes a : Act s₀ Unit) := by
  simp only [clearLanes_foot, List.cons_subset, List.nil_subset, and_true] at hF
  obtain ⟨_, _⟩ := hF
  unfold clearLanes
  repeat' first
    | with_reducible
        first
        | intro _ | exact within_pure _ | exact within_now | exact within_setF _ _ _ _ ‹_›
        | refine within_bind ?_ fun _ => ?_ | refine within_ite ?_ ?_ | refine within_each _ _ fun _ => ?_ | split
        | dsimp only

theorem toReset_within {F : Foot} (a : Nat) (h : F.free a) : Within F (toReset a : Act s₀ Unit) := within_emitFree a _ h
theorem toReset_field {F : Foot} (f : Fld) (i k : Nat) (h : Touch.reg f ∈ F) : Within F (toReset (f.addr i k) : Act s₀ Unit) :=
  toReset_within _ (.inl ⟨f, i, k, h, rfl⟩)

def dissolve_foot : Foot := [.fld ATL_OWNER_VALID, .fld ATL_CTL_LOCK, .reg ATL_SHARE_RIGHT, .reg ATL_TILES_MASK, .reg ATL_DIES_MASK, .reg ATL_RINGS_FIRST, .reg ATL_TXN_MAX, .reg ATL_HBM_VALID, .reg ATL_STATUS_STATE, .part .host] ++ (clearRings_foot ++ (removeGroup_foot ++ clearLanes_foot))
theorem dissolve_within {F : Foot} (hF : dissolve_foot ⊆ F) (a : Nat) : Within F (dissolve a : Act s₀ Unit) := by
  simp only [dissolve_foot, List.append_subset, List.cons_subset, List.nil_subset, and_true, and_assoc] at hF
  obtain ⟨_, _, _, _, _, _, _, _, _, _, _, _, _⟩ := hF
  unfold dissolve
  repeat' first
    | with_reducible
        first
        | intro _ | exact clearRings_within ‹_› .. | exact removeGroup_within ‹_› .. | exact clearLanes_within ‹_› ..
        | exact toReset_field _ _ _ ‹_› | exact within_pure _ | exact within_now | exact within_setF _ _ _ _ ‹_›
        | refine within_bind ?_ fun _ => ?_ | refine within_ite ?_ ?_ | refine within_each _ _ fun _ => ?_
        | exact withinW_pure _ | exact withinW_get | refine withinW_doing ?_ | refine withinW_bind ?_ fun _ => ?_
        | refine withinW_map _ ?_ | refine withinP_run ?_ | exact withinP_pure _ | refine withinP_lift ?_
        | refine withinP_bind ?_ fun _ => ?_ | split | dsimp only
    | exact within_change _ fun u p => by cases p <;> first | exact .inl rfl | exact .inr ‹_› | (refine .inl ?_; simp only [Part.same]; repeat' split) <;> rfl

def hookDissolve_foot : Foot := dissolve_foot ++ discardRecorded_foot
theorem hookDissolve_within {F : Foot} (hF : hookDissolve_foot ⊆ F) {w : RegWrite} (hw : F.free w.addr) : Within F (hookDissolve w : Act s₀ Unit) := by
  simp only [hookDissolve_foot, List.append_subset] at hF
  obtain ⟨_, _⟩ := hF
  unfold hookDissolve
  repeat' first
    | with_reducible
        first
        | intro _ | exact plainHook_within ‹_› .. | exact dissolve_within ‹_› ..
        | exact discardRecorded_within ‹_› .. | exact within_pure _ | exact within_now
        | exact within_emitFree _ _ ‹_› | refine within_bind ?_ fun _ => ?_ | refine within_ite ?_ ?_ | split
        | dsimp only

def hookShare_foot : Foot := discardRecorded_foot
theorem hookShare_within {F : Foot} (hF : hookShare_foot ⊆ F) {w : RegWrite} (hw : F.free w.addr) : Within F (hookShare w : Act s₀ Unit) := by
  simp only [hookShare_foot] at hF
  unfold hookShare
  repeat' first
    | with_reducible
        first
        | intro _ | exact discardRecorded_within ‹_› .. | exact plainHook_within ‹_› .. | exact within_pure _
        | exact within_now | exact within_emitFree _ _ ‹_› | refine within_bind ?_ fun _ => ?_
        | refine within_ite ?_ ?_ | split | dsimp only

end Sys2Proof.Machine
end

