-- ==== Sys2Proof/Laws/FootFailure.lean ====
section
/-! SUPPORT. The footprints of the actions of Failure. -/

namespace Sys2Proof.Machine

variable {s₀ : State}

def actRiskWindow_foot : Foot := [.fld RISK_INPUTS_CE, .fld RISK_INPUTS_DROOP, .fld RISK_INPUTS_TEMP, .fld RISK_INPUTS_LINK, .part .fail] ++ setScore_foot
theorem actRiskWindow_within {F : Foot} (hF : actRiskWindow_foot ⊆ F) (hottest : Int) : Within F (actRiskWindow hottest : Act s₀ Unit) := by
  simp only [actRiskWindow_foot, List.append_subset, List.cons_subset, List.nil_subset, and_true, and_assoc] at hF
  obtain ⟨_, _, _, _, _, _⟩ := hF
  unfold actRiskWindow
  repeat' first
    | with_reducible
        first
        | intro _ | exact setScore_within ‹_› .. | exact within_pure _ | exact within_now
        | exact within_setF _ _ _ _ ‹_› | refine within_bind ?_ fun _ => ?_ | refine within_ite ?_ ?_ | split
        | dsimp only
    | exact within_change _ fun u p => by cases p <;> first | exact .inl rfl | exact .inr ‹_› | (refine .inl ?_; simp only [Part.same]; repeat' split) <;> rfl

def hookRiskLevels_foot : Foot := setScore_foot ++ discardRecorded_foot
theorem hookRiskLevels_within {F : Foot} (hF : hookRiskLevels_foot ⊆ F) {w : RegWrite} (hw : F.free w.addr) : Within F (hookRiskLevels w : Act s₀ Unit) := by
  simp only [hookRiskLevels_foot, List.append_subset] at hF
  obtain ⟨_, _⟩ := hF
  unfold hookRiskLevels
  repeat' first
    | with_reducible
        first
        | intro _ | exact plainHook_within ‹_› .. | exact setScore_within ‹_› ..
        | exact discardRecorded_within ‹_› .. | exact within_pure _ | exact within_fld _ _ _
        | exact within_emitFree _ _ ‹_› | refine within_bind ?_ fun _ => ?_ | refine within_ite ?_ ?_ | split
        | dsimp only

def actVarDieFail_foot : Foot := [.fld RISK_VAR_FAILED_DIES, .fld RISK_EVENT_VAR_FAIL] ++ (riskEvent_foot ++ (setScore_foot ++ (changeVar_foot ++ (completeWith_foot ++ withSlot_foot))))
theorem actVarDieFail_within {F : Foot} (hF : actVarDieFail_foot ⊆ F) (n : Nat) : Within F (actVarDieFail n : Act s₀ Unit) := by
  simp only [actVarDieFail_foot, List.append_subset, List.cons_subset, List.nil_subset, and_true, and_assoc] at hF
  obtain ⟨_, _, _, _, _, _, _⟩ := hF
  unfold actVarDieFail
  repeat' first
    | with_reducible
        first
        | intro _ | exact riskEvent_within ‹_› _ ‹_› | exact setScore_within ‹_› .. | exact changeVar_within ‹_› ..
        | exact completeWith_within ‹_› .. | exact withSlot_within ‹_› .. | exact within_pure _ | exact within_now
        | exact within_setF _ _ _ _ ‹_› | refine within_bind ?_ fun _ => ?_ | refine within_ite ?_ ?_
        | refine within_each _ _ fun _ => ?_ | split | dsimp only

def changeFail_foot : Foot := [.part .fail]
theorem changeFail_within {F : Foot} (hF : changeFail_foot ⊆ F) (f : FailUnit → FailUnit) : Within F (changeFail f : Act s₀ Unit) := by
  simp only [changeFail_foot, List.cons_subset, List.nil_subset, and_true] at hF
  unfold changeFail
  repeat' first
    | with_reducible
        first
        | intro _ | exact within_pure _ | refine within_bind ?_ fun _ => ?_ | split | dsimp only
    | exact within_change _ fun u p => by cases p <;> first | exact .inl rfl | exact .inr ‹_› | (refine .inl ?_; simp only [Part.same]; repeat' split) <;> rfl

def readRun_foot : Foot := readGranule_foot
theorem readRun_within {F : Foot} (hF : readRun_foot ⊆ F) (a : Nat) : ∀ x0, Within F (readRun a x0 : Act s₀ (Nat × Bool))
  | 0 => by
    have hF0 := hF
    simp only [readRun_foot] at hF
    unfold readRun
    repeat' first
      | with_reducible
          first
          | exact readRun_within hF0 _ _ | intro _ | exact readGranule_within ‹_› .. | exact within_pure _
          | refine within_bind ?_ fun _ => ?_ | split | dsimp only
  | n + 1 => by
    have hF0 := hF
    simp only [readRun_foot] at hF
    unfold readRun
    repeat' first
      | with_reducible
          first
          | exact readRun_within hF0 _ _ | intro _ | exact readGranule_within ‹_› .. | exact within_pure _
          | refine within_bind ?_ fun _ => ?_ | split | dsimp only

def latchCopy_foot : Foot := [.reg RISK_TAG_KEY_HI] ++ (changeRings_foot ++ (readRun_foot ++ changeFail_foot))
theorem latchCopy_within {F : Foot} (hF : latchCopy_foot ⊆ F) (kind : Nat) (slot : Option Nat) (useq : Nat) : Within F (latchCopy kind slot useq : Act s₀ Unit) := by
  simp only [latchCopy_foot, List.append_subset, List.cons_subset, List.nil_subset, and_true] at hF
  obtain ⟨_, _, _, _⟩ := hF
  unfold latchCopy
  repeat' first
    | with_reducible
        first
        | intro _ | exact changeRings_within ‹_› .. | exact readRun_within ‹_› .. | exact changeFail_within ‹_› ..
        | exact within_pure _ | exact within_now | exact within_emitReg _ _ _ _ ‹_› | exact within_emitAddr _ _ ‹_›
        | refine within_bind ?_ fun _ => ?_ | refine within_ite ?_ ?_ | refine within_each _ _ fun _ => ?_ | split
        | dsimp only

def sendToBuddy_foot : Foot := withJob_foot ++ (uncore_foot ++ postFrames_foot)
theorem sendToBuddy_within {F : Foot} (hF : sendToBuddy_foot ⊆ F) (j : FixJob) (rs : List Req) : Within F (sendToBuddy j rs : Act s₀ Unit) := by
  simp only [sendToBuddy_foot, List.append_subset] at hF
  obtain ⟨_, _, _⟩ := hF
  unfold sendToBuddy
  repeat' first
    | with_reducible
        first
        | intro _ | exact withJob_within ‹_› .. | exact uncore_within ‹_› .. | exact postFrames_within ‹_› ..
        | exact within_pure _ | exact within_now | refine within_bind ?_ fun _ => ?_ | split | dsimp only

def hookImagePlace_foot : Foot := changeFail_foot
theorem hookImagePlace_within {F : Foot} (hF : hookImagePlace_foot ⊆ F) {w : RegWrite} {hook : RegWrite → Act s₀ Unit} (hk : Within F (hook w)) : Within F (hookImagePlace w hook : Act s₀ Unit) := by
  simp only [hookImagePlace_foot] at hF
  unfold hookImagePlace
  repeat' first
    | with_reducible
        first
        | intro _ | exact changeFail_within ‹_› .. | exact within_pure _ | exact within_now | exact within_ask _
        | refine within_bind ?_ fun _ => ?_ | refine within_ite ?_ ?_ | split | dsimp only
    | exact hk

def tornImage_foot : Foot := changeFail_foot
theorem tornImage_within {F : Foot} (hF : tornImage_foot ⊆ F) (j : FixJob) : Within F (tornImage j : Act s₀ Unit) := by
  simp only [tornImage_foot] at hF
  unfold tornImage
  repeat' first
    | with_reducible
        first
        | intro _ | exact changeFail_within ‹_› .. | exact within_pure _ | refine within_bind ?_ fun _ => ?_ | split
        | dsimp only

def copyStart_foot : Foot := withJob_foot ++ (tornImage_foot ++ sendToBuddy_foot)
theorem copyStart_within {F : Foot} (hF : copyStart_foot ⊆ F) (j : FixJob) : Within F (copyStart j : Act s₀ Unit) := by
  simp only [copyStart_foot, List.append_subset] at hF
  obtain ⟨_, _, _⟩ := hF
  unfold copyStart
  repeat' first
    | with_reducible
        first
        | intro _ | exact withJob_within ‹_› .. | exact tornImage_within ‹_› .. | exact sendToBuddy_within ‹_› ..
        | exact within_pure _ | exact within_now | refine within_bind ?_ fun _ => ?_ | refine within_ite ?_ ?_
        | split | dsimp only

def readBlockGranules_foot : Foot := readGranule_foot
theorem readBlockGranules_within {F : Foot} (hF : readBlockGranules_foot ⊆ F) (a : Nat) : ∀ x0, Within F (readBlockGranules a x0 : Act s₀ (List Granule × Got))
  | 0 => by
    have hF0 := hF
    simp only [readBlockGranules_foot] at hF
    unfold readBlockGranules
    repeat' first
      | with_reducible
          first
          | exact readBlockGranules_within hF0 _ _ | intro _ | exact readGranule_within ‹_› .. | exact within_pure _
          | refine within_bind ?_ fun _ => ?_ | refine within_ite ?_ ?_ | split | dsimp only
  | n + 1 => by
    have hF0 := hF
    simp only [readBlockGranules_foot] at hF
    unfold readBlockGranules
    repeat' first
      | with_reducible
          first
          | exact readBlockGranules_within hF0 _ _ | intro _ | exact readGranule_within ‹_› .. | exact within_pure _
          | refine within_bind ?_ fun _ => ?_ | refine within_ite ?_ ?_ | split | dsimp only

def readBlocks_foot : Foot := readBlockGranules_foot
theorem readBlocks_within {F : Foot} (hF : readBlocks_foot ⊆ F) (base : Nat) : ∀ x0, Within F (readBlocks base x0 : Act s₀ (List Req × Got))
  | [] => by
    have hF0 := hF
    simp only [readBlocks_foot] at hF
    unfold readBlocks
    repeat' first
      | with_reducible
          first
          | exact readBlocks_within hF0 _ _ | intro _ | exact readBlockGranules_within ‹_› .. | exact within_pure _
          | refine within_bind ?_ fun _ => ?_ | refine within_ite ?_ ?_ | split | dsimp only
  | (i, a) :: rest => by
    have hF0 := hF
    simp only [readBlocks_foot] at hF
    unfold readBlocks
    repeat' first
      | with_reducible
          first
          | exact readBlocks_within hF0 _ _ | intro _ | exact readBlockGranules_within ‹_› .. | exact within_pure _
          | refine within_bind ?_ fun _ => ?_ | refine within_ite ?_ ?_ | split | dsimp only

def copyData_foot : Foot := readBlocks_foot ++ (withJob_foot ++ sendToBuddy_foot)
theorem copyData_within {F : Foot} (hF : copyData_foot ⊆ F) (j : FixJob) : Within F (copyData j : Act s₀ Unit) := by
  simp only [copyData_foot, List.append_subset] at hF
  obtain ⟨_, _, _⟩ := hF
  unfold copyData
  repeat' first
    | with_reducible
        first
        | intro _ | exact readBlocks_within ‹_› .. | exact withJob_within ‹_› .. | exact sendToBuddy_within ‹_› ..
        | exact within_pure _ | exact within_now | refine within_bind ?_ fun _ => ?_ | refine within_ite ?_ ?_
        | split | dsimp only

def copyMeta_foot : Foot := withJob_foot ++ sendToBuddy_foot
theorem copyMeta_within {F : Foot} (hF : copyMeta_foot ⊆ F) (j : FixJob) (last : Option Nat) : Within F (copyMeta j last : Act s₀ Unit) := by
  simp only [copyMeta_foot, List.append_subset] at hF
  obtain ⟨_, _⟩ := hF
  unfold copyMeta
  repeat' first
    | with_reducible
        first
        | intro _ | exact withJob_within ‹_› .. | exact sendToBuddy_within ‹_› .. | exact within_pure _
        | exact within_now | refine within_bind ?_ fun _ => ?_ | refine within_ite ?_ ?_ | split | dsimp only

def copyHeader_foot : Foot := withJob_foot ++ sendToBuddy_foot
theorem copyHeader_within {F : Foot} (hF : copyHeader_foot ⊆ F) (j : FixJob) : Within F (copyHeader j : Act s₀ Unit) := by
  simp only [copyHeader_foot, List.append_subset] at hF
  obtain ⟨_, _⟩ := hF
  unfold copyHeader
  repeat' first
    | with_reducible
        first
        | intro _ | exact withJob_within ‹_› .. | exact sendToBuddy_within ‹_› .. | exact within_pure _
        | exact within_now | refine within_bind ?_ fun _ => ?_ | split | dsimp only

def dropJob_foot : Foot := changeFail_foot
theorem dropJob_within {F : Foot} (hF : dropJob_foot ⊆ F) (id : Nat) : Within F (dropJob id : Act s₀ Unit) := by
  simp only [dropJob_foot] at hF
  unfold dropJob
  repeat' first
    | with_reducible
        first
        | intro _ | exact changeFail_within ‹_› .. | exact within_pure _ | refine within_bind ?_ fun _ => ?_ | split
        | dsimp only

def endJobSlot_foot : Foot := withSlot_foot
theorem endJobSlot_within {F : Foot} (hF : endJobSlot_foot ⊆ F) (j : FixJob) (arose : Arose) : Within F (endJobSlot j arose : Act s₀ Unit) := by
  simp only [endJobSlot_foot] at hF
  unfold endJobSlot
  repeat' first
    | with_reducible
        first
        | intro _ | exact withSlot_within ‹_› .. | exact within_pure _ | refine within_bind ?_ fun _ => ?_ | split
        | dsimp only

def logCopy_foot : Foot := [.fld RISK_LAST_COPY_STATUS, .fld RISK_LAST_COPY_CAUSE, .fld RISK_LAST_COPY_BYTES]
theorem logCopy_within {F : Foot} (hF : logCopy_foot ⊆ F) (j : FixJob) (st : Status) (cause : Nat) : Within F (logCopy j st cause : Act s₀ Unit) := by
  simp only [logCopy_foot, List.cons_subset, List.nil_subset, and_true] at hF
  obtain ⟨_, _, _⟩ := hF
  unfold logCopy
  repeat' first
    | with_reducible
        first
        | intro _ | exact within_pure _ | exact within_setF _ _ _ _ ‹_› | refine within_bind ?_ fun _ => ?_ | split
        | dsimp only

def failJob_foot : Foot := [.fld RISK_EVENT_SNAP_FAIL] ++ (dropJob_foot ++ (dropWaiting_foot ++ (logCopy_foot ++ (riskEvent_foot ++ (notifyRecord_foot ++ endJobSlot_foot)))))
theorem failJob_within {F : Foot} (hF : failJob_foot ⊆ F) (j : FixJob) : Within F (failJob j : Act s₀ Unit) := by
  simp only [failJob_foot, List.append_subset, List.cons_subset, List.nil_subset, and_true] at hF
  obtain ⟨_, _, _, _, _, _, _⟩ := hF
  unfold failJob
  repeat' first
    | with_reducible
        first
        | intro _ | exact dropJob_within ‹_› .. | exact dropWaiting_within ‹_› .. | exact logCopy_within ‹_› ..
        | exact riskEvent_within ‹_› _ ‹_› | exact notifyRecord_within ‹_› .. | exact endJobSlot_within ‹_› ..
        | exact within_pure _ | exact within_ask _ | exact within_freeIndex | exact within_raise _ _ _ ‹_›
        | refine within_bind ?_ fun _ => ?_ | refine within_ite ?_ ?_ | split | dsimp only

def clearChange_foot : Foot := writeGranule_foot
theorem clearChange_within {F : Foot} (hF : clearChange_foot ⊆ F) (a : Nat) : Within F (clearChange a : Act s₀ Unit) := by
  simp only [clearChange_foot] at hF
  unfold clearChange
  repeat' first
    | with_reducible
        first
        | intro _ | exact writeGranule_within ‹_› .. | exact within_pure _ | exact within_now
        | refine within_bind ?_ fun _ => ?_ | split | dsimp only

def drainCovered_foot : Foot := [.fld RISK_STATUS_DRAINED, .fld RISK_EVENT_DRAINED, .part .host] ++ (riskEvent_foot ++ startQuiesce_foot)
theorem drainCovered_within {F : Foot} (hF : drainCovered_foot ⊆ F) : Within F (drainCovered : Act s₀ Unit) := by
  simp only [drainCovered_foot, List.append_subset, List.cons_subset, List.nil_subset, and_true, and_assoc] at hF
  obtain ⟨_, _, _, _, _⟩ := hF
  unfold drainCovered
  repeat' first
    | with_reducible
        first
        | intro _ | exact riskEvent_within ‹_› _ ‹_› | exact startQuiesce_within ‹_› .. | exact within_pure _
        | exact within_now | exact within_setF _ _ _ _ ‹_› | refine within_bind ?_ fun _ => ?_
        | refine within_ite ?_ ?_ | refine within_each _ _ fun _ => ?_ | split | dsimp only
    | exact within_change _ fun u p => by cases p <;> first | exact .inl rfl | exact .inr ‹_› | (refine .inl ?_; simp only [Part.same]; repeat' split) <;> rfl

def endCopy_foot : Foot := [.fld RISK_IMAGE_K, .fld RISK_IMAGE_USEQ, .fld RISK_IMAGE_SLOT, .fld RISK_IMAGE_VALID] ++ (dropJob_foot ++ (changeFail_foot ++ (logCopy_foot ++ (clearChange_foot ++ (notifyRecord_foot ++ (endJobSlot_foot ++ drainCovered_foot))))))
theorem endCopy_within {F : Foot} (hF : endCopy_foot ⊆ F) (j : FixJob) : Within F (endCopy j : Act s₀ Unit) := by
  simp only [endCopy_foot, List.append_subset, List.cons_subset, List.nil_subset, and_true, and_assoc] at hF
  obtain ⟨_, _, _, _, _, _, _, _, _, _, _⟩ := hF
  unfold endCopy
  repeat' first
    | with_reducible
        first
        | intro _ | exact dropJob_within ‹_› .. | exact changeFail_within ‹_› .. | exact logCopy_within ‹_› ..
        | exact clearChange_within ‹_› .. | exact notifyRecord_within ‹_› .. | exact endJobSlot_within ‹_› ..
        | exact drainCovered_within ‹_› .. | exact within_pure _ | exact within_setF _ _ _ _ ‹_›
        | exact within_raise _ _ _ ‹_› | refine within_bind ?_ fun _ => ?_ | refine within_ite ?_ ?_
        | refine within_each _ _ fun _ => ?_ | split | dsimp only

def startQueue_foot : Foot := failJob_foot ++ copyStart_foot
theorem startQueue_within {F : Foot} (hF : startQueue_foot ⊆ F) : ∀ x0, Within F (startQueue x0 : Act s₀ Unit)
  | 0 => by
    have hF0 := hF
    simp only [startQueue_foot, List.append_subset] at hF
    obtain ⟨_, _⟩ := hF
    unfold startQueue
    repeat' first
      | with_reducible
          first
          | exact startQueue_within hF0 _ | intro _ | exact failJob_within ‹_› .. | exact copyStart_within ‹_› ..
          | exact within_pure _ | exact within_now | refine within_bind ?_ fun _ => ?_ | refine within_ite ?_ ?_
          | split | dsimp only
  | n + 1 => by
    have hF0 := hF
    simp only [startQueue_foot, List.append_subset] at hF
    obtain ⟨_, _⟩ := hF
    unfold startQueue
    repeat' first
      | with_reducible
          first
          | exact startQueue_within hF0 _ | intro _ | exact failJob_within ‹_› .. | exact copyStart_within ‹_› ..
          | exact within_pure _ | exact within_now | refine within_bind ?_ fun _ => ?_ | refine within_ite ?_ ?_
          | split | dsimp only

def startJobs_foot : Foot := startQueue_foot
theorem startJobs_within {F : Foot} (hF : startJobs_foot ⊆ F) : Within F (startJobs : Act s₀ Unit) := by
  simp only [startJobs_foot] at hF
  unfold startJobs
  repeat' first
    | with_reducible
        first
        | intro _ | exact startQueue_within ‹_› .. | exact within_pure _ | exact within_ask _
        | refine within_bind ?_ fun _ => ?_ | split | dsimp only

def sendHeader_foot : Foot := withJob_foot ++ postFrames_foot
theorem sendHeader_within {F : Foot} (hF : sendHeader_foot ⊆ F) (j : FixJob) : Within F (sendHeader j : Act s₀ Unit) := by
  simp only [sendHeader_foot, List.append_subset] at hF
  obtain ⟨_, _⟩ := hF
  unfold sendHeader
  repeat' first
    | with_reducible
        first
        | intro _ | exact withJob_within ‹_› .. | exact postFrames_within ‹_› .. | exact within_pure _
        | exact within_now | refine within_bind ?_ fun _ => ?_ | split | dsimp only

def actCopyStepAdvance_foot : Foot := failJob_foot ++ (copyData_foot ++ (copyMeta_foot ++ (copyHeader_foot ++ (endCopy_foot ++ (sendHeader_foot ++ (dropJob_foot ++ (logCopy_foot ++ (endJobSlot_foot ++ startJobs_foot))))))))
theorem actCopyStepAdvance_within {F : Foot} (hF : actCopyStepAdvance_foot ⊆ F) : Within F (actCopyStepAdvance : Act s₀ Unit) := by
  simp only [actCopyStepAdvance_foot, List.append_subset] at hF
  obtain ⟨_, _, _, _, _, _, _, _, _, _⟩ := hF
  unfold actCopyStepAdvance
  repeat' first
    | with_reducible
        first
        | intro _ | exact failJob_within ‹_› .. | exact copyData_within ‹_› .. | exact copyMeta_within ‹_› ..
        | exact copyHeader_within ‹_› .. | exact endCopy_within ‹_› .. | exact sendHeader_within ‹_› ..
        | exact dropJob_within ‹_› .. | exact logCopy_within ‹_› .. | exact endJobSlot_within ‹_› ..
        | exact startJobs_within ‹_› .. | exact within_pure _ | exact within_now | refine within_bind ?_ fun _ => ?_
        | refine within_ite ?_ ?_ | split | dsimp only

def updateBoundary_foot : Foot := changeFail_foot ++ (latchCopy_foot ++ startJobs_foot)
theorem updateBoundary_within {F : Foot} (hF : updateBoundary_foot ⊆ F) (useq : Nat) : Within F (updateBoundary useq : Act s₀ Unit) := by
  simp only [updateBoundary_foot, List.append_subset] at hF
  obtain ⟨_, _, _⟩ := hF
  unfold updateBoundary
  repeat' first
    | with_reducible
        first
        | intro _ | exact changeFail_within ‹_› .. | exact latchCopy_within ‹_› .. | exact startJobs_within ‹_› ..
        | exact within_pure _ | exact within_now | refine within_bind ?_ fun _ => ?_ | refine within_ite ?_ ?_
        | refine within_each _ _ fun _ => ?_ | split | dsimp only

theorem prepFixSnapshot_within {F : Foot} (w : Descriptor) : WithinP F (prepFixSnapshot w : Prep s₀ (List Nat)) := by
  unfold prepFixSnapshot
  repeat' first
    | with_reducible
        first
        | intro _ | exact demand_within .. | exact within_pure _ | exact withinW_pure _ | exact withinW_get
        | exact withinW_set _ | exact withinW_modify _ | exact withinW_modifyGet _ | exact withinP_pure _
        | exact withinP_failure | refine within_bind ?_ fun _ => ?_ | refine withinW_doing ?_
        | refine withinW_bind ?_ fun _ => ?_ | refine withinW_forIn _ _ _ fun _ _ => ?_ | refine withinW_map _ ?_
        | refine withinP_lift ?_ | refine withinP_bind ?_ fun _ => ?_ | refine withinP_forIn _ _ _ fun _ _ => ?_
        | refine withinP_map _ ?_ | split | dsimp only

def actFixSnapshot_foot : Foot := latchCopy_foot ++ startJobs_foot
theorem actFixSnapshot_within {F : Foot} (hF : actFixSnapshot_foot ⊆ F) (id : Nat) : Within F (actFixSnapshot id : Act s₀ Unit) := by
  simp only [actFixSnapshot_foot, List.append_subset] at hF
  obtain ⟨_, _⟩ := hF
  unfold actFixSnapshot
  repeat' first
    | with_reducible
        first
        | intro _ | exact latchCopy_within ‹_› .. | exact startJobs_within ‹_› .. | exact within_pure _
        | exact within_now | refine within_bind ?_ fun _ => ?_ | refine within_ite ?_ ?_ | split | dsimp only

def pickSlot_foot : Foot := readBlock_foot
theorem pickSlot_within {F : Foot} (hF : pickSlot_foot ⊆ F) (w : Descriptor) : WithinP F (pickSlot w : Prep s₀ (Nat × Nat)) := by
  simp only [pickSlot_foot] at hF
  unfold pickSlot
  repeat' first
    | with_reducible
        first
        | intro _ | exact readBlock_within ‹_› .. | exact permit_within .. | exact permitBytes_within ..
        | exact within_pure _ | exact withinW_pure _ | exact withinW_get | exact withinW_set _
        | exact withinW_modify _ | exact withinW_modifyGet _ | exact withinP_pure _ | exact withinP_failure
        | refine within_bind ?_ fun _ => ?_ | refine withinP_ite ?_ ?_ | refine withinW_doing ?_
        | refine withinW_bind ?_ fun _ => ?_ | refine withinW_forIn _ _ _ fun _ _ => ?_ | refine withinW_map _ ?_
        | refine withinP_lift ?_ | refine withinP_bind ?_ fun _ => ?_ | refine withinP_forIn _ _ _ fun _ _ => ?_
        | refine withinP_map _ ?_ | split | dsimp only

def serveRecords_foot : Foot := readTensors_foot
theorem serveRecords_within {F : Foot} (hF : serveRecords_foot ⊆ F) (lo hi list : Nat) : ∀ x0 x1, WithinP F (serveRecords lo hi list x0 x1 : Prep s₀ (List Nat))
  | 0, _ => by
    have hF0 := hF
    simp only [serveRecords_foot] at hF
    unfold serveRecords
    repeat' first
      | with_reducible
          first
          | exact serveRecords_within hF0 _ _ _ _ _ | intro _ | exact demand_within ..
          | exact readTensors_within ‹_› .. | exact permitTensor_within .. | exact within_pure _
          | exact withinW_pure _ | exact withinW_get | exact withinW_set _ | exact withinW_modify _
          | exact withinW_modifyGet _ | exact withinP_pure _ | exact withinP_failure
          | refine within_bind ?_ fun _ => ?_ | refine withinW_doing ?_ | refine withinW_bind ?_ fun _ => ?_
          | refine withinW_forIn _ _ _ fun _ _ => ?_ | refine withinW_map _ ?_ | refine withinP_lift ?_
          | refine withinP_bind ?_ fun _ => ?_ | refine withinP_forIn _ _ _ fun _ _ => ?_ | refine withinP_map _ ?_
          | refine attempt_within ?_ | exact withinW_pure _ | exact withinW_get | refine withinP_run ?_
          | exact withinP_pure _ | split | dsimp only
  | k + 1, i => by
    have hF0 := hF
    simp only [serveRecords_foot] at hF
    unfold serveRecords
    repeat' first
      | with_reducible
          first
          | exact serveRecords_within hF0 _ _ _ _ _ | intro _ | exact demand_within ..
          | exact readTensors_within ‹_› .. | exact permitTensor_within .. | exact within_pure _
          | exact withinW_pure _ | exact withinW_get | exact withinW_set _ | exact withinW_modify _
          | exact withinW_modifyGet _ | exact withinP_pure _ | exact withinP_failure
          | refine within_bind ?_ fun _ => ?_ | refine withinW_doing ?_ | refine withinW_bind ?_ fun _ => ?_
          | refine withinW_forIn _ _ _ fun _ _ => ?_ | refine withinW_map _ ?_ | refine withinP_lift ?_
          | refine withinP_bind ?_ fun _ => ?_ | refine withinP_forIn _ _ _ fun _ _ => ?_ | refine withinP_map _ ?_
          | refine attempt_within ?_ | exact withinW_pure _ | exact withinW_get | refine withinP_run ?_
          | exact withinP_pure _ | split | dsimp only

def prepFixRestore_foot : Foot := readBlock_foot ++ (pickSlot_foot ++ (readOwned_foot ++ serveRecords_foot))
theorem prepFixRestore_within {F : Foot} (hF : prepFixRestore_foot ⊆ F) (w : Descriptor) : WithinP F (prepFixRestore w : Prep s₀ (List Nat)) := by
  simp only [prepFixRestore_foot, List.append_subset] at hF
  obtain ⟨_, _, _, _⟩ := hF
  unfold prepFixRestore
  repeat' first
    | with_reducible
        first
        | intro _ | exact demand_within .. | exact readBlock_within ‹_› .. | exact permit_within ..
        | exact permitBytes_within .. | exact pickSlot_within ‹_› .. | exact readOwned_within ‹_› ..
        | exact serveRecords_within ‹_› .. | exact within_pure _ | exact within_now | exact withinW_pure _
        | exact withinW_get | exact withinW_set _ | exact withinW_modify _ | exact withinW_modifyGet _
        | exact withinP_pure _ | exact withinP_failure | refine within_bind ?_ fun _ => ?_ | refine withinP_ite ?_ ?_
        | refine withinW_doing ?_ | refine withinW_bind ?_ fun _ => ?_ | refine withinW_forIn _ _ _ fun _ _ => ?_
        | refine withinW_map _ ?_ | refine withinP_lift ?_ | refine withinP_bind ?_ fun _ => ?_
        | refine withinP_forIn _ _ _ fun _ _ => ?_ | refine withinP_map _ ?_ | split | dsimp only

def actFixRestoreSend_foot : Foot := readBlockGranules_foot ++ (withSlot_foot ++ (changeFail_foot ++ postFrames_foot))
theorem actFixRestoreSend_within {F : Foot} (hF : actFixRestoreSend_foot ⊆ F) (id : Nat) : Within F (actFixRestoreSend id : Act s₀ Unit) := by
  simp only [actFixRestoreSend_foot, List.append_subset] at hF
  obtain ⟨_, _, _, _⟩ := hF
  unfold actFixRestoreSend
  repeat' first
    | with_reducible
        first
        | intro _ | exact readBlockGranules_within ‹_› .. | exact withSlot_within ‹_› ..
        | exact changeFail_within ‹_› .. | exact postFrames_within ‹_› .. | exact within_pure _ | exact within_now
        | refine within_bind ?_ fun _ => ?_ | refine within_ite ?_ ?_ | split | dsimp only

def serveFrames_foot : Foot := sendWork_foot
theorem serveFrames_within {F : Foot} (hF : serveFrames_foot ⊆ F) (d : Slot) (me list : Nat) : ∀ x0 x1 x2, WithinW F (serveFrames d me list x0 x1 x2 : Work s₀ (List Sending))
  | 0, _, _ => by
    have hF0 := hF
    simp only [serveFrames_foot] at hF
    unfold serveFrames
    repeat' first
      | with_reducible
          first
          | exact serveFrames_within hF0 _ _ _ _ _ _ | intro _ | exact sendWork_within ‹_› .. | exact within_pure _
          | exact withinW_pure _ | exact withinW_get | exact withinW_set _ | exact withinW_modify _
          | exact withinW_modifyGet _ | refine within_bind ?_ fun _ => ?_ | refine withinW_ite ?_ ?_
          | refine withinW_doing ?_ | refine withinW_bind ?_ fun _ => ?_ | refine withinW_forIn _ _ _ fun _ _ => ?_
          | refine withinW_map _ ?_ | split | dsimp only
  | k + 1, i, b => by
    have hF0 := hF
    simp only [serveFrames_foot] at hF
    unfold serveFrames
    repeat' first
      | with_reducible
          first
          | exact serveFrames_within hF0 _ _ _ _ _ _ | intro _ | exact sendWork_within ‹_› .. | exact within_pure _
          | exact withinW_pure _ | exact withinW_get | exact withinW_set _ | exact withinW_modify _
          | exact withinW_modifyGet _ | refine within_bind ?_ fun _ => ?_ | refine withinW_ite ?_ ?_
          | refine withinW_doing ?_ | refine withinW_bind ?_ fun _ => ?_ | refine withinW_forIn _ _ _ fun _ _ => ?_
          | refine withinW_map _ ?_ | split | dsimp only

def actFixRestoreServe_foot : Foot := runFor_foot ++ (serveFrames_foot ++ (postFrames_foot ++ finish_foot))
theorem actFixRestoreServe_within {F : Foot} (hF : actFixRestoreServe_foot ⊆ F) (id : Nat) : Within F (actFixRestoreServe id : Act s₀ Unit) := by
  simp only [actFixRestoreServe_foot, List.append_subset] at hF
  obtain ⟨_, _, _, _⟩ := hF
  unfold actFixRestoreServe
  repeat' first
    | with_reducible
        first
        | intro _ | exact serveFrames_within ‹_› .. | exact postFrames_within ‹_› .. | exact finish_within ‹_› ..
        | exact within_pure _ | exact within_now | refine within_bind ?_ fun _ => ?_
        | refine runFor_within ‹_› _ _ ?_ | exact withinW_pure _ | exact withinW_get | refine withinW_doing ?_
        | refine withinW_bind ?_ fun _ => ?_ | refine withinW_map _ ?_ | refine withinP_run ?_ | exact withinP_pure _
        | refine withinP_lift ?_ | refine withinP_bind ?_ fun _ => ?_ | split | dsimp only

def readRecords_foot : Foot := fetch_foot
theorem readRecords_within {F : Foot} (hF : readRecords_foot ⊆ F) (g : Nat) : ∀ x0, WithinW F (readRecords g x0 : Work s₀ (List (Nat × Nat × Nat)))
  | 0 => by
    have hF0 := hF
    simp only [readRecords_foot] at hF
    unfold readRecords
    repeat' first
      | with_reducible
          first
          | exact readRecords_within hF0 _ _ | intro _ | exact fetch_within ‹_› .. | exact within_pure _
          | exact withinW_pure _ | exact withinW_get | exact withinW_set _ | exact withinW_modify _
          | exact withinW_modifyGet _ | refine within_bind ?_ fun _ => ?_ | refine withinW_ite ?_ ?_
          | refine within_forIn _ _ _ fun _ _ => ?_ | refine withinW_doing ?_ | refine withinW_bind ?_ fun _ => ?_
          | refine withinW_forIn _ _ _ fun _ _ => ?_ | refine withinW_map _ ?_ | split | dsimp only
  | n + 1 => by
    have hF0 := hF
    simp only [readRecords_foot] at hF
    unfold readRecords
    repeat' first
      | with_reducible
          first
          | exact readRecords_within hF0 _ _ | intro _ | exact fetch_within ‹_› .. | exact within_pure _
          | exact withinW_pure _ | exact withinW_get | exact withinW_set _ | exact withinW_modify _
          | exact withinW_modifyGet _ | refine within_bind ?_ fun _ => ?_ | refine withinW_ite ?_ ?_
          | refine within_forIn _ _ _ fun _ _ => ?_ | refine withinW_doing ?_ | refine withinW_bind ?_ fun _ => ?_
          | refine withinW_forIn _ _ _ fun _ _ => ?_ | refine withinW_map _ ?_ | split | dsimp only

theorem skipped_within {F : Foot} : WithinW F (skipped : Work s₀ Unit) := by
  unfold skipped
  repeat' first
    | with_reducible
        first
        | intro _ | exact arises_within .. | exact within_pure _ | exact withinW_pure _ | exact withinW_get
        | exact withinW_set _ | exact withinW_modify _ | exact withinW_modifyGet _
        | refine within_bind ?_ fun _ => ?_ | refine withinW_doing ?_ | refine withinW_bind ?_ fun _ => ?_
        | refine withinW_forIn _ _ _ fun _ _ => ?_ | refine withinW_map _ ?_ | split | dsimp only

def applyRange_foot : Foot := readFrom_foot ++ (sendTo_foot ++ clearChange_foot)
theorem applyRange_within {F : Foot} (hF : applyRange_foot ⊆ F) (data : Nat) (gone : Nat) (r : Nat × Nat) : WithinW F (applyRange data gone r : Work s₀ Unit) := by
  simp only [applyRange_foot, List.append_subset] at hF
  obtain ⟨_, _, _⟩ := hF
  unfold applyRange
  repeat' first
    | with_reducible
        first
        | intro _ | exact skipped_within .. | exact readFrom_within ‹_› .. | exact noteGot_within ..
        | exact sendTo_within ‹_› .. | exact clearChange_within ‹_› .. | exact within_pure _ | exact withinW_pure _
        | exact withinW_get | exact withinW_set _ | exact withinW_modify _ | exact withinW_modifyGet _
        | refine within_bind ?_ fun _ => ?_ | refine withinW_ite ?_ ?_ | refine within_forIn _ _ _ fun _ _ => ?_
        | refine withinW_doing ?_ | refine withinW_bind ?_ fun _ => ?_ | refine withinW_forIn _ _ _ fun _ _ => ?_
        | refine withinW_map _ ?_ | split | dsimp only

def applyData_foot : Foot := applyRange_foot
theorem applyData_within {F : Foot} (hF : applyData_foot ⊆ F) (gone : Nat) : ∀ x0 x1, WithinW F (applyData gone x0 x1 : Work s₀ Unit)
  | _, [] => by
    have hF0 := hF
    simp only [applyData_foot] at hF
    unfold applyData
    repeat' first
      | with_reducible
          first
          | exact applyData_within hF0 _ _ _ | intro _ | exact applyRange_within ‹_› .. | exact within_pure _
          | exact withinW_pure _ | exact withinW_get | exact withinW_set _ | exact withinW_modify _
          | exact withinW_modifyGet _ | refine within_bind ?_ fun _ => ?_ | refine withinW_doing ?_
          | refine withinW_bind ?_ fun _ => ?_ | refine withinW_forIn _ _ _ fun _ _ => ?_ | refine withinW_map _ ?_
          | split | dsimp only
  | data, r :: rest => by
    have hF0 := hF
    simp only [applyData_foot] at hF
    unfold applyData
    repeat' first
      | with_reducible
          first
          | exact applyData_within hF0 _ _ _ | intro _ | exact applyRange_within ‹_› .. | exact within_pure _
          | exact withinW_pure _ | exact withinW_get | exact withinW_set _ | exact withinW_modify _
          | exact withinW_modifyGet _ | refine within_bind ?_ fun _ => ?_ | refine withinW_doing ?_
          | refine withinW_bind ?_ fun _ => ?_ | refine withinW_forIn _ _ _ fun _ _ => ?_ | refine withinW_map _ ?_
          | split | dsimp only

def applySteps_foot : Foot := setStep_foot
theorem applySteps_within {F : Foot} (hF : applySteps_foot ⊆ F) (v : Nat) : WithinW F (applySteps v : Work s₀ Unit) := by
  simp only [applySteps_foot] at hF
  unfold applySteps
  repeat' first
    | with_reducible
        first
        | intro _ | exact skipped_within .. | exact setStep_within ‹_› .. | exact within_pure _ | exact within_now
        | exact withinW_pure _ | exact withinW_get | exact withinW_set _ | exact withinW_modify _
        | exact withinW_modifyGet _ | refine within_bind ?_ fun _ => ?_ | refine withinW_ite ?_ ?_
        | refine within_forIn _ _ _ fun _ _ => ?_ | refine withinW_doing ?_ | refine withinW_bind ?_ fun _ => ?_
        | refine withinW_forIn _ _ _ fun _ _ => ?_ | refine withinW_map _ ?_ | split | dsimp only

def applyGroup_foot : Foot := installLocal_foot
theorem applyGroup_within {F : Foot} (hF : applyGroup_foot ⊆ F) (a e g gen vl seq : Nat) (ids : List Nat) : WithinW F (applyGroup a e g gen vl seq ids : Work s₀ Unit) := by
  simp only [applyGroup_foot] at hF
  unfold applyGroup
  repeat' first
    | with_reducible
        first
        | intro _ | exact skipped_within .. | exact installLocal_within ‹_› .. | exact arises_within ..
        | exact within_pure _ | exact within_now | exact withinW_pure _ | exact withinW_get | exact withinW_set _
        | exact withinW_modify _ | exact withinW_modifyGet _ | refine within_bind ?_ fun _ => ?_
        | refine withinW_ite ?_ ?_ | refine withinW_doing ?_ | refine withinW_bind ?_ fun _ => ?_
        | refine withinW_forIn _ _ _ fun _ _ => ?_ | refine withinW_map _ ?_ | split | dsimp only

def applyGroups_foot : Foot := applyGroup_foot
theorem applyGroups_within {F : Foot} (hF : applyGroups_foot ⊆ F) (a v : Nat) : ∀ x0 x1 x2, WithinW F (applyGroups a v x0 x1 x2 : Work s₀ Unit)
  | 0, _, _ => by
    have hF0 := hF
    simp only [applyGroups_foot] at hF
    unfold applyGroups
    repeat' first
      | with_reducible
          first
          | exact applyGroups_within hF0 _ _ _ _ _ | intro _ | exact applyGroup_within ‹_› .. | exact within_pure _
          | exact withinW_pure _ | exact withinW_get | exact withinW_set _ | exact withinW_modify _
          | exact withinW_modifyGet _ | refine within_bind ?_ fun _ => ?_ | refine withinW_ite ?_ ?_
          | refine withinW_doing ?_ | refine withinW_bind ?_ fun _ => ?_ | refine withinW_forIn _ _ _ fun _ _ => ?_
          | refine withinW_map _ ?_ | split | dsimp only
  | n + 1, k, words => by
    have hF0 := hF
    simp only [applyGroups_foot] at hF
    unfold applyGroups
    repeat' first
      | with_reducible
          first
          | exact applyGroups_within hF0 _ _ _ _ _ | intro _ | exact applyGroup_within ‹_› .. | exact within_pure _
          | exact withinW_pure _ | exact withinW_get | exact withinW_set _ | exact withinW_modify _
          | exact withinW_modifyGet _ | refine within_bind ?_ fun _ => ?_ | refine withinW_ite ?_ ?_
          | refine withinW_doing ?_ | refine withinW_bind ?_ fun _ => ?_ | refine withinW_forIn _ _ _ fun _ _ => ?_
          | refine withinW_map _ ?_ | split | dsimp only

def applyRoutes_foot : Foot := [.reg COLL_VL_VALID_VALID, .routes, .reg COLL_ROUTE_CTL_TTL, .reg COLL_VL_OWNER_OWNER, .reg TB_SYNC_DOMAIN] ++ hookTbSync_foot
theorem applyRoutes_within {F : Foot} (hF : applyRoutes_foot ⊆ F) (a v : Nat) : WithinW F (applyRoutes a v : Work s₀ Unit) := by
  simp only [applyRoutes_foot, List.append_subset, List.cons_subset, List.nil_subset, and_true, and_assoc] at hF
  obtain ⟨_, _, _, _, _, _⟩ := hF
  unfold applyRoutes
  repeat' first
    | with_reducible
        first
        | intro _ | exact skipped_within .. | exact hookTbSync_within ‹_› ‹_› .. | exact within_pure _
        | exact within_now | exact withinW_pure _ | exact withinW_get | exact withinW_set _ | exact withinW_modify _
        | exact withinW_modifyGet _ | exact within_emitReg _ _ _ _ ‹_› | exact within_emitAddr _ _ ‹_›
        | exact within_emit_route ‹_› .. | refine within_bind ?_ fun _ => ?_ | refine withinW_ite ?_ ?_
        | refine within_forIn _ _ _ fun _ _ => ?_ | refine withinW_doing ?_ | refine withinW_bind ?_ fun _ => ?_
        | refine withinW_forIn _ _ _ fun _ _ => ?_ | refine withinW_map _ ?_ | split | dsimp only
    | exact hookTbSync_within ‹_› (.inl ⟨TB_SYNC_DOMAIN, 0, 0, ‹_›, rfl⟩)

def applyRing_foot : Foot := [.fld RING_RETIRED_RETIRED, .fld RING_POS_FETCHED, .fld RING_STATE_CURSOR] ++ (setRingCtx_foot ++ (changeRings_foot ++ settleWaits_foot))
theorem applyRing_within {F : Foot} (hF : applyRing_foot ⊆ F) (a v k : Nat) : WithinW F (applyRing a v k : Work s₀ Unit) := by
  simp only [applyRing_foot, List.append_subset, List.cons_subset, List.nil_subset, and_true, and_assoc] at hF
  obtain ⟨_, _, _, _, _, _⟩ := hF
  unfold applyRing
  repeat' first
    | with_reducible
        first
        | intro _ | exact skipped_within .. | exact setRingCtx_within ‹_› .. | exact changeRings_within ‹_› ..
        | exact settleWaits_within ‹_› .. | exact within_pure _ | exact within_now | exact withinW_pure _
        | exact withinW_get | exact withinW_set _ | exact withinW_modify _ | exact withinW_modifyGet _
        | exact within_setF _ _ _ _ ‹_› | refine within_bind ?_ fun _ => ?_ | refine withinW_ite ?_ ?_
        | refine withinW_doing ?_ | refine withinW_bind ?_ fun _ => ?_ | refine withinW_forIn _ _ _ fun _ _ => ?_
        | refine withinW_map _ ?_ | split | dsimp only

def applyTag_foot : Foot := [.fld RISK_RNG_CHECK_ARMED, .reg RISK_TAG_KEY_HI]
theorem applyTag_within {F : Foot} (hF : applyTag_foot ⊆ F) (a v k : Nat) (accept : Bool) : WithinW F (applyTag a v k accept : Work s₀ Unit) := by
  simp only [applyTag_foot, List.cons_subset, List.nil_subset, and_true] at hF
  obtain ⟨_, _⟩ := hF
  unfold applyTag
  repeat' first
    | with_reducible
        first
        | intro _ | exact skipped_within .. | exact within_pure _ | exact within_fld _ _ _ | exact withinW_pure _
        | exact withinW_get | exact withinW_set _ | exact withinW_modify _ | exact withinW_modifyGet _
        | exact within_setF _ _ _ _ ‹_› | exact within_emitReg _ _ _ _ ‹_› | exact within_emitAddr _ _ ‹_›
        | refine within_bind ?_ fun _ => ?_ | refine withinW_ite ?_ ?_ | refine withinW_doing ?_
        | refine withinW_bind ?_ fun _ => ?_ | refine withinW_forIn _ _ _ fun _ _ => ?_ | refine withinW_map _ ?_
        | split | dsimp only

def applyTensors_foot : Foot := applyData_foot ++ applySteps_foot
theorem applyTensors_within {F : Foot} (hF : applyTensors_foot ⊆ F) (d : Slot) (rs : List (Nat × Nat × Nat)) (base h : Nat) : WithinW F (applyTensors d rs base h : Work s₀ Unit) := by
  simp only [applyTensors_foot, List.append_subset] at hF
  obtain ⟨_, _⟩ := hF
  unfold applyTensors
  repeat' first
    | with_reducible
        first
        | intro _ | exact applyData_within ‹_› .. | exact skipped_within .. | exact applySteps_within ‹_› ..
        | exact within_pure _ | exact within_now | exact withinW_pure _ | exact withinW_get | exact withinW_set _
        | exact withinW_modify _ | exact withinW_modifyGet _ | refine within_bind ?_ fun _ => ?_
        | refine withinW_ite ?_ ?_ | refine withinW_doing ?_ | refine withinW_bind ?_ fun _ => ?_
        | refine withinW_forIn _ _ _ fun _ _ => ?_ | refine withinW_map _ ?_ | split | dsimp only

def applyShared_foot : Foot := applyGroups_foot ++ applyRoutes_foot
theorem applyShared_within {F : Foot} (hF : applyShared_foot ⊆ F) (a : Nat) (rs : List (Nat × Nat × Nat)) : WithinW F (applyShared a rs : Work s₀ Unit) := by
  simp only [applyShared_foot, List.append_subset] at hF
  obtain ⟨_, _⟩ := hF
  unfold applyShared
  repeat' first
    | with_reducible
        first
        | intro _ | exact applyGroups_within ‹_› .. | exact applyRoutes_within ‹_› .. | exact within_pure _
        | exact withinW_pure _ | exact withinW_get | exact withinW_set _ | exact withinW_modify _
        | exact withinW_modifyGet _ | refine within_bind ?_ fun _ => ?_ | refine withinW_doing ?_
        | refine withinW_bind ?_ fun _ => ?_ | refine withinW_forIn _ _ _ fun _ _ => ?_ | refine withinW_map _ ?_
        | split | dsimp only

def applyRings_foot : Foot := applyRing_foot
theorem applyRings_within {F : Foot} (hF : applyRings_foot ⊆ F) (a : Nat) (rs : List (Nat × Nat × Nat)) : WithinW F (applyRings a rs : Work s₀ Unit) := by
  simp only [applyRings_foot] at hF
  unfold applyRings
  repeat' first
    | with_reducible
        first
        | intro _ | exact applyRing_within ‹_› .. | exact within_pure _ | exact withinW_pure _ | exact withinW_get
        | exact withinW_set _ | exact withinW_modify _ | exact withinW_modifyGet _
        | refine within_bind ?_ fun _ => ?_ | refine within_forIn _ _ _ fun _ _ => ?_ | refine withinW_doing ?_
        | refine withinW_bind ?_ fun _ => ?_ | refine withinW_forIn _ _ _ fun _ _ => ?_ | refine withinW_map _ ?_
        | split | dsimp only

def applyTags_foot : Foot := applyTag_foot
theorem applyTags_within {F : Foot} (hF : applyTags_foot ⊆ F) (a : Nat) (rs : List (Nat × Nat × Nat)) (accept : Bool) : WithinW F (applyTags a rs accept : Work s₀ Unit) := by
  simp only [applyTags_foot] at hF
  unfold applyTags
  repeat' first
    | with_reducible
        first
        | intro _ | exact applyTag_within ‹_› .. | exact within_pure _ | exact withinW_pure _ | exact withinW_get
        | exact withinW_set _ | exact withinW_modify _ | exact withinW_modifyGet _
        | refine within_bind ?_ fun _ => ?_ | refine within_forIn _ _ _ fun _ _ => ?_ | refine withinW_doing ?_
        | refine withinW_bind ?_ fun _ => ?_ | refine withinW_forIn _ _ _ fun _ _ => ?_ | refine withinW_map _ ?_
        | split | dsimp only

def applyWork_foot : Foot := readRecords_foot ++ (applyTensors_foot ++ (applyShared_foot ++ (applyRings_foot ++ applyTags_foot)))
theorem applyWork_within {F : Foot} (hF : applyWork_foot ⊆ F) (d : Slot) : WithinW F (applyWork d : Work s₀ Unit) := by
  simp only [applyWork_foot, List.append_subset] at hF
  obtain ⟨_, _, _, _, _⟩ := hF
  unfold applyWork
  repeat' first
    | with_reducible
        first
        | intro _ | exact readRecords_within ‹_› .. | exact applyTensors_within ‹_› ..
        | exact applyShared_within ‹_› .. | exact applyRings_within ‹_› .. | exact applyTags_within ‹_› ..
        | exact within_pure _ | exact withinW_pure _ | exact withinW_get | exact withinW_set _
        | exact withinW_modify _ | exact withinW_modifyGet _ | refine within_bind ?_ fun _ => ?_
        | refine withinW_ite ?_ ?_ | refine withinW_doing ?_ | refine withinW_bind ?_ fun _ => ?_
        | refine withinW_forIn _ _ _ fun _ _ => ?_ | refine withinW_map _ ?_ | split | dsimp only

def actFixRestoreApply_foot : Foot := runFor_foot ++ (applyWork_foot ++ finish_foot)
theorem actFixRestoreApply_within {F : Foot} (hF : actFixRestoreApply_foot ⊆ F) (id : Nat) : Within F (actFixRestoreApply id : Act s₀ Unit) := by
  simp only [actFixRestoreApply_foot, List.append_subset] at hF
  obtain ⟨_, _, _⟩ := hF
  unfold actFixRestoreApply
  repeat' first
    | with_reducible
        first
        | intro _ | exact applyWork_within ‹_› .. | exact finish_within ‹_› .. | exact within_pure _
        | exact within_now | refine within_bind ?_ fun _ => ?_ | refine runFor_within ‹_› _ _ ?_
        | exact withinW_pure _ | exact withinW_get | refine withinW_doing ?_ | refine withinW_bind ?_ fun _ => ?_
        | refine withinW_map _ ?_ | refine withinP_run ?_ | exact withinP_pure _ | refine withinP_lift ?_
        | refine withinP_bind ?_ fun _ => ?_ | split | dsimp only

end Sys2Proof.Machine
end

