-- ==== Sys2Proof/Laws/FootPower.lean ====
section
/-! SUPPORT. The footprints of the actions of Power. -/

namespace Sys2Proof.Machine

variable {s₀ : State}

def changePwr_foot : Foot := [.part .pwr]
theorem changePwr_within {F : Foot} (hF : changePwr_foot ⊆ F) (f : PowerUnit → PowerUnit) : Within F (changePwr f : Act s₀ Unit) := by
  simp only [changePwr_foot, List.cons_subset, List.nil_subset, and_true] at hF
  unfold changePwr
  repeat' first
    | with_reducible
        first
        | intro _ | exact within_pure _ | refine within_bind ?_ fun _ => ?_ | split | dsimp only
    | exact within_change _ fun u p => by cases p <;> first | exact .inl rfl | exact .inr ‹_› | (refine .inl ?_; simp only [Part.same]; repeat' split) <;> rfl

def avsWrite_foot : Foot := [.fld PLANT_EVENT_AVS_ERR] ++ send_foot
theorem avsWrite_within {F : Foot} (hF : avsWrite_foot ⊆ F) (d mv : Nat) : Within F (avsWrite d mv : Act s₀ Bool) := by
  simp only [avsWrite_foot, List.append_subset, List.cons_subset, List.nil_subset, and_true] at hF
  obtain ⟨_, _⟩ := hF
  unfold avsWrite
  repeat' first
    | with_reducible
        first
        | intro _ | exact send_within ‹_› .. | exact within_pure _ | exact within_freeIndex
        | exact within_raise _ _ _ ‹_› | refine within_bind ?_ fun _ => ?_ | refine within_ite ?_ ?_ | split
        | dsimp only

def noteRaise_foot : Foot := changePlant_foot ++ fitTiles_foot
theorem noteRaise_within {F : Foot} (hF : noteRaise_foot ⊆ F) (d : Nat) : Within F (noteRaise d : Act s₀ Unit) := by
  simp only [noteRaise_foot, List.append_subset] at hF
  obtain ⟨_, _⟩ := hF
  unfold noteRaise
  repeat' first
    | with_reducible
        first
        | intro _ | exact changePlant_within ‹_› .. | exact fitTiles_within ‹_› .. | exact within_pure _
        | exact within_freeIndex | refine within_bind ?_ fun _ => ?_ | split | dsimp only

def startRail_foot : Foot := [.fld PWR_RAIL_BUSY, .fld PWR_STATUS_OP_BUSY, .fld PWR_RAIL_OP_NOW, .fld PWR_RAIL_VTARGET] ++ (avsWrite_foot ++ noteRaise_foot)
theorem startRail_within {F : Foot} (hF : startRail_foot ⊆ F) (d : Nat) : Within F (startRail d : Act s₀ Unit) := by
  simp only [startRail_foot, List.append_subset, List.cons_subset, List.nil_subset, and_true, and_assoc] at hF
  obtain ⟨_, _, _, _, _, _⟩ := hF
  unfold startRail
  repeat' first
    | with_reducible
        first
        | intro _ | exact avsWrite_within ‹_› .. | exact noteRaise_within ‹_› .. | exact within_pure _
        | exact within_now | exact within_fld _ _ _ | exact within_setF _ _ _ _ ‹_›
        | refine within_bind ?_ fun _ => ?_ | refine within_ite ?_ ?_ | split | dsimp only

def hookRail_foot : Foot := startRail_foot
theorem hookRail_within {F : Foot} (hF : hookRail_foot ⊆ F) {w : RegWrite} (hw : F.free w.addr) : Within F (hookRail w : Act s₀ Unit) := by
  simp only [hookRail_foot] at hF
  unfold hookRail
  repeat' first
    | with_reducible
        first
        | intro _ | exact plainHook_within ‹_› .. | exact startRail_within ‹_› .. | exact within_pure _
        | exact within_isOn _ _ _ | exact within_emitFree _ _ ‹_› | refine within_bind ?_ fun _ => ?_
        | refine within_ite ?_ ?_ | split | dsimp only

def endRail_foot : Foot := [.fld PWR_RAIL_VSENSE, .fld PWR_RAIL_OP_NOW, .fld PWR_RAIL_BUSY, .fld PWR_STATUS_OP_BUSY] ++ (changePlant_foot ++ startRail_foot)
theorem endRail_within {F : Foot} (hF : endRail_foot ⊆ F) (d mv : Nat) : Within F (endRail d mv : Act s₀ Unit) := by
  simp only [endRail_foot, List.append_subset, List.cons_subset, List.nil_subset, and_true, and_assoc] at hF
  obtain ⟨_, _, _, _, _, _⟩ := hF
  unfold endRail
  repeat' first
    | with_reducible
        first
        | intro _ | exact changePlant_within ‹_› .. | exact startRail_within ‹_› .. | exact within_pure _
        | exact within_now | exact within_fld _ _ _ | exact within_setF _ _ _ _ ‹_›
        | refine within_bind ?_ fun _ => ?_ | split | dsimp only

def actRailOpSettle_foot : Foot := endRail_foot
theorem actRailOpSettle_within {F : Foot} (hF : actRailOpSettle_foot ⊆ F) (d mv : Nat) : Within F (actRailOpSettle d mv : Act s₀ Unit) := by
  simp only [actRailOpSettle_foot] at hF
  unfold actRailOpSettle
  repeat' first
    | with_reducible
        first
        | intro _ | exact endRail_within ‹_› .. | exact within_pure _ | exact within_now
        | refine within_bind ?_ fun _ => ?_ | refine within_ite ?_ ?_ | split | dsimp only

def actRailSettleTimeout_foot : Foot := [.fld PLANT_EVENT_AVS_ERR] ++ endRail_foot
theorem actRailSettleTimeout_within {F : Foot} (hF : actRailSettleTimeout_foot ⊆ F) (d mv : Nat) : Within F (actRailSettleTimeout d mv : Act s₀ Unit) := by
  simp only [actRailSettleTimeout_foot, List.append_subset, List.cons_subset, List.nil_subset, and_true] at hF
  obtain ⟨_, _⟩ := hF
  unfold actRailSettleTimeout
  repeat' first
    | with_reducible
        first
        | intro _ | exact endRail_within ‹_› .. | exact within_pure _ | exact within_now
        | exact within_raise _ _ _ ‹_› | refine within_bind ?_ fun _ => ?_ | refine within_ite ?_ ?_ | split
        | dsimp only

def actDroopStart_foot : Foot := [.fld PWR_RAIL_VSENSE, .fld PWR_DROOP_COUNT, .part .fail] ++ changePwr_foot
theorem actDroopStart_within {F : Foot} (hF : actDroopStart_foot ⊆ F) (d mv : Nat) : Within F (actDroopStart d mv : Act s₀ Unit) := by
  simp only [actDroopStart_foot, List.append_subset, List.cons_subset, List.nil_subset, and_true, and_assoc] at hF
  obtain ⟨_, _, _, _⟩ := hF
  unfold actDroopStart
  repeat' first
    | with_reducible
        first
        | intro _ | exact changePwr_within ‹_› .. | exact within_pure _ | exact within_now
        | exact within_setF _ _ _ _ ‹_› | exact within_countUp _ _ _ _ ‹_› | refine within_bind ?_ fun _ => ?_
        | refine within_ite ?_ ?_ | split | dsimp only
    | exact within_change _ fun u p => by cases p <;> first | exact .inl rfl | exact .inr ‹_› | (refine .inl ?_; simp only [Part.same]; repeat' split) <;> rfl

def setDom_foot : Foot := [.fld PWR_DSTATE]
theorem setDom_within {F : Foot} (hF : setDom_foot ⊆ F) (d v : Nat) : Within F (setDom d v : Act s₀ Unit) := by
  simp only [setDom_foot, List.cons_subset, List.nil_subset, and_true] at hF
  unfold setDom
  repeat' first
    | with_reducible
        first
        | intro _ | exact within_pure _ | exact within_fld _ _ _ | exact within_setF _ _ _ _ ‹_›
        | refine within_bind ?_ fun _ => ?_ | split | dsimp only

def wipeBlock_foot : Foot := [.lost]
theorem wipeBlock_within {F : Foot} (hF : wipeBlock_foot ⊆ F) (b : Blk) (i : Nat) : Within F (wipeBlock b i : Act s₀ Unit) := by
  simp only [wipeBlock_foot, List.cons_subset, List.nil_subset, and_true] at hF
  unfold wipeBlock
  repeat' first
    | with_reducible
        first
        | intro _ | exact within_pure _ | exact within_emit_wipeRegs ‹_› .. | refine within_bind ?_ fun _ => ?_
        | split | dsimp only

def darkenQuarter_foot : Foot := [.fld PAL_POISONED_COUNT, .lost, .mem] ++ (dropBanked_foot ++ settleWaits_foot)
theorem darkenQuarter_within {F : Foot} (hF : darkenQuarter_foot ⊆ F) (t q : Nat) : Within F (darkenQuarter t q : Act s₀ Unit) := by
  simp only [darkenQuarter_foot, List.append_subset, List.cons_subset, List.nil_subset, and_true, and_assoc] at hF
  obtain ⟨_, _, _, _, _⟩ := hF
  unfold darkenQuarter
  repeat' first
    | with_reducible
        first
        | intro _ | exact dropBanked_within ‹_› .. | exact settleWaits_within ‹_› .. | exact within_pure _
        | exact within_now | exact within_setF _ _ _ _ ‹_› | exact within_emit_wipeRegs ‹_› ..
        | exact within_emit_wipeMem ‹_› .. | refine within_bind ?_ fun _ => ?_ | refine within_ite ?_ ?_ | split
        | dsimp only

def wipeLink_foot : Foot := [.reg LINK_CTL_EN] ++ wipeBlock_foot
theorem wipeLink_within {F : Foot} (hF : wipeLink_foot ⊆ F) (p : Nat) : Within F (wipeLink p : Act s₀ Unit) := by
  simp only [wipeLink_foot, List.append_subset, List.cons_subset, List.nil_subset, and_true] at hF
  obtain ⟨_, _⟩ := hF
  unfold wipeLink
  repeat' first
    | with_reducible
        first
        | intro _ | exact wipeBlock_within ‹_› .. | exact within_pure _ | exact within_ask _
        | exact within_emitReg _ _ _ _ ‹_› | exact within_emitAddr _ _ ‹_› | refine within_bind ?_ fun _ => ?_
        | split | dsimp only

def darkenPort_foot : Foot := failPort_foot ++ (withPort_foot ++ wipeLink_foot)
theorem darkenPort_within {F : Foot} (hF : darkenPort_foot ⊆ F) (p : Nat) : Within F (darkenPort p : Act s₀ Unit) := by
  simp only [darkenPort_foot, List.append_subset] at hF
  obtain ⟨_, _, _⟩ := hF
  unfold darkenPort
  repeat' first
    | with_reducible
        first
        | intro _ | exact failPort_within ‹_› .. | exact withPort_within ‹_› .. | exact wipeLink_within ‹_› ..
        | exact within_pure _ | exact within_fld _ _ _ | refine within_bind ?_ fun _ => ?_ | refine within_ite ?_ ?_
        | split | dsimp only

def removePower_foot : Foot := [.fld HBM_STATUS_STATE, .reg HBM_STATUS_STATE, .part .ve] ++ (wipeBlock_foot ++ (changeMx_foot ++ (changePlant_foot ++ (darkenQuarter_foot ++ (changeVar_foot ++ (darkenPort_foot ++ (resetFunction_foot ++ clearConfig_foot)))))))
theorem removePower_within {F : Foot} (hF : removePower_foot ⊆ F) (d : Nat) : Within F (removePower d : Act s₀ Unit) := by
  simp only [removePower_foot, List.append_subset, List.cons_subset, List.nil_subset, and_true, and_assoc] at hF
  obtain ⟨_, _, _, _, _, _, _, _, _, _, _⟩ := hF
  unfold removePower
  repeat' first
    | with_reducible
        first
        | intro _ | exact wipeBlock_within ‹_› .. | exact changeMx_within ‹_› .. | exact changePlant_within ‹_› ..
        | exact darkenQuarter_within ‹_› .. | exact changeVar_within ‹_› .. | exact darkenPort_within ‹_› ..
        | exact resetFunction_within ‹_› .. | exact clearConfig_within ‹_› .. | exact within_pure _
        | exact within_ask _ | exact within_fld _ _ _ | exact within_setF _ _ _ _ ‹_›
        | exact within_emitReg _ _ _ _ ‹_› | exact within_emitAddr _ _ ‹_› | refine within_bind ?_ fun _ => ?_
        | refine within_ite ?_ ?_ | split | dsimp only
    | exact within_change _ fun u p => by cases p <;> first | exact .inl rfl | exact .inr ‹_› | (refine .inl ?_; simp only [Part.same]; repeat' split) <;> rfl

def enterOn_foot : Foot := [.fld MX_CTL_TREE_EN] ++ (setDom_foot ++ startTraining_foot)
theorem enterOn_within {F : Foot} (hF : enterOn_foot ⊆ F) (d : Nat) : Within F (enterOn d : Act s₀ Unit) := by
  simp only [enterOn_foot, List.append_subset, List.cons_subset, List.nil_subset, and_true] at hF
  obtain ⟨_, _, _⟩ := hF
  unfold enterOn
  repeat' first
    | with_reducible
        first
        | intro _ | exact setDom_within ‹_› .. | exact startTraining_within ‹_› .. | exact within_pure _
        | exact within_isOn _ _ _ | exact within_raise _ _ _ ‹_› | refine within_bind ?_ fun _ => ?_
        | refine within_ite ?_ ?_ | refine within_each _ _ fun _ => ?_ | split | dsimp only

def noteWake_foot : Foot := [.fld PWR_LAST_WAKE_VALID, .fld PWR_LAST_WAKE_SOURCE, .fld PWR_LAST_WAKE_DOMAIN, .fld PWR_LAST_WAKE_TIME]
theorem noteWake_within {F : Foot} (hF : noteWake_foot ⊆ F) (d : Nat) (src : DomSource) : Within F (noteWake d src : Act s₀ Unit) := by
  simp only [noteWake_foot, List.cons_subset, List.nil_subset, and_true] at hF
  obtain ⟨_, _, _, _⟩ := hF
  unfold noteWake
  repeat' first
    | with_reducible
        first
        | intro _ | exact within_pure _ | exact within_now | exact within_setF _ _ _ _ ‹_›
        | exact within_raise _ _ _ ‹_› | refine within_bind ?_ fun _ => ?_ | split | dsimp only

def endReq_foot : Foot := [.fld PWR_DOM_CMD_GO, .fld PWR_DOM_CMD_RESULT] ++ (changePwr_foot ++ finish_foot)
theorem endReq_within {F : Foot} (hF : endReq_foot ⊆ F) (r : DomReq) : Within F (endReq r : Act s₀ Unit) := by
  simp only [endReq_foot, List.append_subset, List.cons_subset, List.nil_subset, and_true, and_assoc] at hF
  obtain ⟨_, _, _, _⟩ := hF
  unfold endReq
  repeat' first
    | with_reducible
        first
        | intro _ | exact changePwr_within ‹_› .. | exact finish_within ‹_› .. | exact within_pure _
        | exact within_now | exact within_setF _ _ _ _ ‹_› | refine within_bind ?_ fun _ => ?_
        | refine within_ite ?_ ?_ | split | dsimp only

def setMoving_foot : Foot := changePwr_foot
theorem setMoving_within {F : Foot} (hF : setMoving_foot ⊆ F) (d : Nat) : Within F (setMoving d : Act s₀ Unit) := by
  simp only [setMoving_foot] at hF
  unfold setMoving
  repeat' first
    | with_reducible
        first
        | intro _ | exact changePwr_within ‹_› .. | exact within_pure _ | refine within_bind ?_ fun _ => ?_ | split
        | dsimp only

def startStep_foot : Foot := setDom_foot ++ (skipScrub_foot ++ (noteWake_foot ++ setMoving_foot))
theorem startStep_within {F : Foot} (hF : startStep_foot ⊆ F) (r : DomReq) : Within F (startStep r : Act s₀ Unit) := by
  simp only [startStep_foot, List.append_subset] at hF
  obtain ⟨_, _, _, _⟩ := hF
  unfold startStep
  repeat' first
    | with_reducible
        first
        | intro _ | exact setDom_within ‹_› .. | exact skipScrub_within ‹_› .. | exact noteWake_within ‹_› ..
        | exact setMoving_within ‹_› .. | exact within_pure _ | exact within_now | refine within_bind ?_ fun _ => ?_
        | refine within_ite ?_ ?_ | split | dsimp only

def settleReqs_foot : Foot := endReq_foot ++ startStep_foot
theorem settleReqs_within {F : Foot} (hF : settleReqs_foot ⊆ F) (earlier : List DomReq) : ∀ x0, Within F (settleReqs earlier x0 : Act s₀ Unit)
  | [] => by
    have hF0 := hF
    simp only [settleReqs_foot, List.append_subset] at hF
    obtain ⟨_, _⟩ := hF
    unfold settleReqs
    repeat' first
      | with_reducible
          first
          | exact settleReqs_within hF0 _ _ | intro _ | exact endReq_within ‹_› .. | exact startStep_within ‹_› ..
          | exact within_pure _ | exact within_now | refine within_bind ?_ fun _ => ?_ | refine within_ite ?_ ?_
          | split | dsimp only
  | r :: rs => by
    have hF0 := hF
    simp only [settleReqs_foot, List.append_subset] at hF
    obtain ⟨_, _⟩ := hF
    unfold settleReqs
    repeat' first
      | with_reducible
          first
          | exact settleReqs_within hF0 _ _ | intro _ | exact endReq_within ‹_› .. | exact startStep_within ‹_› ..
          | exact within_pure _ | exact within_now | refine within_bind ?_ fun _ => ?_ | refine within_ite ?_ ?_
          | split | dsimp only

def settlePower_foot : Foot := settleReqs_foot
theorem settlePower_within {F : Foot} (hF : settlePower_foot ⊆ F) : Within F (settlePower : Act s₀ Unit) := by
  simp only [settlePower_foot] at hF
  unfold settlePower
  repeat' first
    | with_reducible
        first
        | intro _ | exact settleReqs_within ‹_› .. | exact within_pure _ | exact within_now
        | refine within_bind ?_ fun _ => ?_ | split | dsimp only

def askPower_foot : Foot := changePwr_foot ++ settlePower_foot
theorem askPower_within {F : Foot} (hF : askPower_foot ⊆ F) (rs : List DomReq) : Within F (askPower rs : Act s₀ Unit) := by
  simp only [askPower_foot, List.append_subset] at hF
  obtain ⟨_, _⟩ := hF
  unfold askPower
  repeat' first
    | with_reducible
        first
        | intro _ | exact changePwr_within ‹_› .. | exact settlePower_within ‹_› .. | exact within_pure _
        | refine within_bind ?_ fun _ => ?_ | split | dsimp only

def endWake_foot : Foot := [.fld HBM_STATUS_STATE] ++ (setDom_foot ++ (setMoving_foot ++ (endReq_foot ++ enterOn_foot)))
theorem endWake_within {F : Foot} (hF : endWake_foot ⊆ F) (r : DomReq) (rel : Bool) (st : Nat) : Within F (endWake r rel st : Act s₀ Unit) := by
  simp only [endWake_foot, List.append_subset, List.cons_subset, List.nil_subset, and_true] at hF
  obtain ⟨_, _, _, _, _⟩ := hF
  unfold endWake
  repeat' first
    | with_reducible
        first
        | intro _ | exact setDom_within ‹_› .. | exact setMoving_within ‹_› .. | exact endReq_within ‹_› ..
        | exact enterOn_within ‹_› .. | exact within_pure _ | exact within_fld _ _ _ | exact within_setF _ _ _ _ ‹_›
        | refine within_bind ?_ fun _ => ?_ | refine within_ite ?_ ?_ | split | dsimp only

def actDomainTransitionDone_foot : Foot := changePwr_foot ++ (endWake_foot ++ (setDom_foot ++ (changePlant_foot ++ (endReq_foot ++ (removePower_foot ++ (enterOn_foot ++ settlePower_foot))))))
theorem actDomainTransitionDone_within {F : Foot} (hF : actDomainTransitionDone_foot ⊆ F) (d : Nat) : Within F (actDomainTransitionDone d : Act s₀ Unit) := by
  simp only [actDomainTransitionDone_foot, List.append_subset] at hF
  obtain ⟨_, _, _, _, _, _, _, _⟩ := hF
  unfold actDomainTransitionDone
  repeat' first
    | with_reducible
        first
        | intro _ | exact changePwr_within ‹_› .. | exact endWake_within ‹_› .. | exact setDom_within ‹_› ..
        | exact changePlant_within ‹_› .. | exact endReq_within ‹_› .. | exact removePower_within ‹_› ..
        | exact enterOn_within ‹_› .. | exact settlePower_within ‹_› .. | exact within_pure _ | exact within_now
        | refine within_bind ?_ fun _ => ?_ | refine within_ite ?_ ?_ | split | dsimp only

def actGateDrainEnd_foot : Foot := setDom_foot ++ setMoving_foot
theorem actGateDrainEnd_within {F : Foot} (hF : actGateDrainEnd_foot ⊆ F) (t q : Nat) : Within F (actGateDrainEnd t q : Act s₀ Unit) := by
  simp only [actGateDrainEnd_foot, List.append_subset] at hF
  obtain ⟨_, _⟩ := hF
  unfold actGateDrainEnd
  repeat' first
    | with_reducible
        first
        | intro _ | exact setDom_within ‹_› .. | exact setMoving_within ‹_› .. | exact within_pure _
        | exact within_now | refine within_bind ?_ fun _ => ?_ | refine within_ite ?_ ?_ | split | dsimp only

def actQuarterInitDone_foot : Foot := [.mem] ++ (setDom_foot ++ (endReq_foot ++ settlePower_foot))
theorem actQuarterInitDone_within {F : Foot} (hF : actQuarterInitDone_foot ⊆ F) (t q : Nat) : Within F (actQuarterInitDone t q : Act s₀ Unit) := by
  simp only [actQuarterInitDone_foot, List.append_subset, List.cons_subset, List.nil_subset, and_true] at hF
  obtain ⟨_, _, _, _⟩ := hF
  unfold actQuarterInitDone
  repeat' first
    | with_reducible
        first
        | intro _ | exact setDom_within ‹_› .. | exact endReq_within ‹_› .. | exact settlePower_within ‹_› ..
        | exact within_pure _ | exact within_now | exact within_emit_wipeMem ‹_› ..
        | refine within_bind ?_ fun _ => ?_ | refine within_ite ?_ ?_ | split | dsimp only

theorem prepPwrDomain_within {F : Foot} (w : Descriptor) : WithinP F (prepPwrDomain w : Prep s₀ (List Nat)) := by
  unfold prepPwrDomain
  repeat' first
    | with_reducible
        first
        | intro _ | exact demand_within .. | exact permit_within .. | exact within_pure _ | exact within_now
        | exact withinW_pure _ | exact withinW_get | exact withinW_set _ | exact withinW_modify _
        | exact withinW_modifyGet _ | exact withinP_pure _ | exact withinP_failure
        | refine within_bind ?_ fun _ => ?_ | refine withinW_doing ?_ | refine withinW_bind ?_ fun _ => ?_
        | refine withinW_forIn _ _ _ fun _ _ => ?_ | refine withinW_map _ ?_ | refine withinP_lift ?_
        | refine withinP_bind ?_ fun _ => ?_ | refine withinP_forIn _ _ _ fun _ _ => ?_ | refine withinP_map _ ?_
        | split | dsimp only

def actPwrDomain_foot : Foot := finish_foot ++ askPower_foot
theorem actPwrDomain_within {F : Foot} (hF : actPwrDomain_foot ⊆ F) (id op : Nat) (reqs : Descriptor → DomSource → List DomReq) : Within F (actPwrDomain id op reqs : Act s₀ Unit) := by
  simp only [actPwrDomain_foot, List.append_subset] at hF
  obtain ⟨_, _⟩ := hF
  unfold actPwrDomain
  repeat' first
    | with_reducible
        first
        | intro _ | exact finish_within ‹_› .. | exact askPower_within ‹_› .. | exact within_pure _
        | exact within_now | refine within_bind ?_ fun _ => ?_ | refine within_ite ?_ ?_ | split | dsimp only

def actWow_foot : Foot := [.fld PWR_WOW_TILES, .fld PWR_WOW_DIES_DIES] ++ finish_foot
theorem actWow_within {F : Foot} (hF : actWow_foot ⊆ F) (id : Nat) (set : Bool) : Within F (actWow id set : Act s₀ Unit) := by
  simp only [actWow_foot, List.append_subset, List.cons_subset, List.nil_subset, and_true, and_assoc] at hF
  obtain ⟨_, _, _⟩ := hF
  unfold actWow
  repeat' first
    | with_reducible
        first
        | intro _ | exact finish_within ‹_› .. | exact within_pure _ | exact within_now
        | exact within_setF _ _ _ _ ‹_› | refine within_bind ?_ fun _ => ?_ | refine within_ite ?_ ?_ | split
        | dsimp only

def wakeOnWork_foot : Foot := askPower_foot
theorem wakeOnWork_within {F : Foot} (hF : wakeOnWork_foot ⊆ F) (e : Engine) : Within F (wakeOnWork e : Act s₀ Unit) := by
  simp only [wakeOnWork_foot] at hF
  unfold wakeOnWork
  repeat' first
    | with_reducible
        first
        | intro _ | exact askPower_within ‹_› .. | exact within_pure _ | exact within_now
        | refine within_bind ?_ fun _ => ?_ | refine within_ite ?_ ?_ | split | dsimp only

def hookDomCmd_foot : Foot := [.fld PWR_DOM_CMD_RESULT, .fld PWR_DOM_CMD_GO] ++ askPower_foot
theorem hookDomCmd_within {F : Foot} (hF : hookDomCmd_foot ⊆ F) {w : RegWrite} (hw : F.free w.addr) : Within F (hookDomCmd w : Act s₀ Unit) := by
  simp only [hookDomCmd_foot, List.append_subset, List.cons_subset, List.nil_subset, and_true, and_assoc] at hF
  obtain ⟨_, _, _⟩ := hF
  unfold hookDomCmd
  repeat' first
    | with_reducible
        first
        | intro _ | exact plainHook_within ‹_› .. | exact askPower_within ‹_› .. | exact within_pure _
        | exact within_now | exact within_setF _ _ _ _ ‹_› | exact within_raise _ _ _ ‹_›
        | exact within_emitFree _ _ ‹_› | refine within_bind ?_ fun _ => ?_ | refine within_ite ?_ ?_ | split
        | dsimp only

def hookPwrCtl_foot : Foot := [.fld PWR_STATUS_MODE] ++ changePlant_foot
theorem hookPwrCtl_within {F : Foot} (hF : hookPwrCtl_foot ⊆ F) {w : RegWrite} (hw : F.free w.addr) : Within F (hookPwrCtl w : Act s₀ Unit) := by
  simp only [hookPwrCtl_foot, List.append_subset, List.cons_subset, List.nil_subset, and_true] at hF
  obtain ⟨_, _⟩ := hF
  unfold hookPwrCtl
  repeat' first
    | with_reducible
        first
        | intro _ | exact plainHook_within ‹_› .. | exact changePlant_within ‹_› .. | exact within_pure _
        | exact within_fld _ _ _ | exact within_setF _ _ _ _ ‹_› | exact within_emitFree _ _ ‹_›
        | refine within_bind ?_ fun _ => ?_ | refine within_ite ?_ ?_ | split | dsimp only

def loseWork_foot : Foot := [.part .mx, .part .ve, .part .var, .part .fab, .part .fail, .part .pmc, .part .pwr] ++ (dropBanked_foot ++ (changeRings_foot ++ rearm_foot))
theorem loseWork_within {F : Foot} (hF : loseWork_foot ⊆ F) : Within F (loseWork : Act s₀ Unit) := by
  simp only [loseWork_foot, List.append_subset, List.cons_subset, List.nil_subset, and_true, and_assoc] at hF
  obtain ⟨_, _, _, _, _, _, _, _, _, _⟩ := hF
  unfold loseWork
  repeat' first
    | with_reducible
        first
        | intro _ | exact dropBanked_within ‹_› .. | exact changeRings_within ‹_› .. | exact rearm_within ‹_› ..
        | exact within_pure _ | refine within_bind ?_ fun _ => ?_ | split | dsimp only
    | exact within_change _ fun u p => by cases p <;> first | exact .inl rfl | exact .inr ‹_› | (refine .inl ?_; simp only [Part.same]; repeat' split) <;> rfl

def actThermalTrip_foot : Foot := [.fld PWR_STATUS_MODE, .fld PWR_DOM_CMD_GO] ++ (changePwr_foot ++ (loseWork_foot ++ (removePower_foot ++ setDom_foot)))
theorem actThermalTrip_within {F : Foot} (hF : actThermalTrip_foot ⊆ F) (quarterDegrees : Int) : Within F (actThermalTrip quarterDegrees : Act s₀ Unit) := by
  simp only [actThermalTrip_foot, List.append_subset, List.cons_subset, List.nil_subset, and_true, and_assoc] at hF
  obtain ⟨_, _, _, _, _, _⟩ := hF
  unfold actThermalTrip
  repeat' first
    | with_reducible
        first
        | intro _ | exact changePwr_within ‹_› .. | exact loseWork_within ‹_› .. | exact removePower_within ‹_› ..
        | exact setDom_within ‹_› .. | exact within_pure _ | exact within_now | exact within_setF _ _ _ _ ‹_›
        | refine within_bind ?_ fun _ => ?_ | refine within_ite ?_ ?_ | refine within_each _ _ fun _ => ?_ | split
        | dsimp only

end Sys2Proof.Machine
end

