-- ==== Sys2Proof/Laws/FootPlant.lean ====
section
/-! SUPPORT. The footprints of the actions of Plant. -/

namespace Sys2Proof.Machine

variable {s₀ : State}

def startBallast_foot : Foot := changePlant_foot ++ fitTiles_foot
theorem startBallast_within {F : Foot} (hF : startBallast_foot ⊆ F) (t : Nat) : Within F (startBallast t : Act s₀ Unit) := by
  simp only [startBallast_foot, List.append_subset] at hF
  obtain ⟨_, _⟩ := hF
  unfold startBallast
  repeat' first
    | with_reducible
        first
        | intro _ | exact changePlant_within ‹_› .. | exact fitTiles_within ‹_› .. | exact within_pure _
        | refine within_bind ?_ fun _ => ?_ | split | dsimp only

def raiseThetas_foot : Foot := changePlant_foot
theorem raiseThetas_within {F : Foot} (hF : raiseThetas_foot ⊆ F) (k r : Nat) : Within F (raiseThetas k r : Act s₀ Unit) := by
  simp only [raiseThetas_foot] at hF
  unfold raiseThetas
  repeat' first
    | with_reducible
        first
        | intro _ | exact changePlant_within ‹_› .. | exact within_pure _ | exact within_now
        | refine within_bind ?_ fun _ => ?_ | refine within_ite ?_ ?_ | split | dsimp only

def moveThetas_foot : Foot := changePlant_foot ++ raiseThetas_foot
theorem moveThetas_within {F : Foot} (hF : moveThetas_foot ⊆ F) (down : Bool) : Within F (moveThetas down : Act s₀ Unit) := by
  simp only [moveThetas_foot, List.append_subset] at hF
  obtain ⟨_, _⟩ := hF
  unfold moveThetas
  repeat' first
    | with_reducible
        first
        | intro _ | exact changePlant_within ‹_› .. | exact raiseThetas_within ‹_› .. | exact within_pure _
        | exact within_freeIndex | refine within_bind ?_ fun _ => ?_ | refine within_ite ?_ ?_
        | refine within_each _ _ fun _ => ?_ | split | dsimp only

def addBallast_foot : Foot := startBallast_foot
theorem addBallast_within {F : Foot} (hF : addBallast_foot ⊆ F) : ∀ x0, Within F (addBallast x0 : Act s₀ Unit)
  | [] => by
    have hF0 := hF
    simp only [addBallast_foot] at hF
    unfold addBallast
    repeat' first
      | with_reducible
          first
          | exact addBallast_within hF0 _ | intro _ | exact startBallast_within ‹_› .. | exact within_pure _
          | exact within_now | refine within_bind ?_ fun _ => ?_ | refine within_ite ?_ ?_ | split | dsimp only
  | t :: ts => by
    have hF0 := hF
    simp only [addBallast_foot] at hF
    unfold addBallast
    repeat' first
      | with_reducible
          first
          | exact addBallast_within hF0 _ | intro _ | exact startBallast_within ‹_› .. | exact within_pure _
          | exact within_now | refine within_bind ?_ fun _ => ?_ | refine within_ite ?_ ?_ | split | dsimp only

def dropBallast_foot : Foot := changePlant_foot
theorem dropBallast_within {F : Foot} (hF : dropBallast_foot ⊆ F) : ∀ x0, Within F (dropBallast x0 : Act s₀ Unit)
  | [] => by
    have hF0 := hF
    simp only [dropBallast_foot] at hF
    unfold dropBallast
    repeat' first
      | with_reducible
          first
          | exact dropBallast_within hF0 _ | intro _ | exact changePlant_within ‹_› .. | exact within_pure _
          | exact within_now | refine within_bind ?_ fun _ => ?_ | refine within_ite ?_ ?_ | split | dsimp only
  | t :: ts => by
    have hF0 := hF
    simp only [dropBallast_foot] at hF
    unfold dropBallast
    repeat' first
      | with_reducible
          first
          | exact dropBallast_within hF0 _ | intro _ | exact changePlant_within ‹_› .. | exact within_pure _
          | exact within_now | refine within_bind ?_ fun _ => ?_ | refine within_ite ?_ ?_ | split | dsimp only

def moveBallast_foot : Foot := addBallast_foot ++ dropBallast_foot
theorem moveBallast_within {F : Foot} (hF : moveBallast_foot ⊆ F) (more : Bool) : Within F (moveBallast more : Act s₀ Unit) := by
  simp only [moveBallast_foot, List.append_subset] at hF
  obtain ⟨_, _⟩ := hF
  unfold moveBallast
  repeat' first
    | with_reducible
        first
        | intro _ | exact addBallast_within ‹_› .. | exact dropBallast_within ‹_› .. | exact within_pure _
        | exact within_now | refine within_bind ?_ fun _ => ?_ | refine within_ite ?_ ?_ | split | dsimp only

def resumeBallast_foot : Foot := startBallast_foot
theorem resumeBallast_within {F : Foot} (hF : resumeBallast_foot ⊆ F) (t : Nat) : Within F (resumeBallast t : Act s₀ Unit) := by
  simp only [resumeBallast_foot] at hF
  unfold resumeBallast
  repeat' first
    | with_reducible
        first
        | intro _ | exact startBallast_within ‹_› .. | exact within_pure _ | exact within_now
        | refine within_bind ?_ fun _ => ?_ | refine within_ite ?_ ?_ | split | dsimp only

def settleCurtAck_foot : Foot := [.fld PLANT_STATUS_CURT_ACK, .fld PLANT_EVENT_CURT_UNMET]
theorem settleCurtAck_within {F : Foot} (hF : settleCurtAck_foot ⊆ F) : Within F (settleCurtAck : Act s₀ Unit) := by
  simp only [settleCurtAck_foot, List.cons_subset, List.nil_subset, and_true] at hF
  obtain ⟨_, _⟩ := hF
  unfold settleCurtAck
  repeat' first
    | with_reducible
        first
        | intro _ | exact within_pure _ | exact within_now | exact within_raise _ _ _ ‹_›
        | refine within_bind ?_ fun _ => ?_ | refine within_ite ?_ ?_ | split | dsimp only

def actGovernorUpdate_foot : Foot := [.fld PWR_RAIL_VSENSE, .fld PWR_RAIL_ISENSE, .fld PLANT_THERM_TJ_MAX, .fld PLANT_STATUS_P_EST, .fld PLANT_STATUS_CEIL_EFF, .fld PLANT_STATUS_FLOOR_EFF, .fld PLANT_EVENT_THERM_LIMIT, .fld PLANT_EVENT_SOC_LOW] ++ (changePlant_foot ++ (settleCurtAck_foot ++ (moveThetas_foot ++ moveBallast_foot)))
theorem actGovernorUpdate_within {F : Foot} (hF : actGovernorUpdate_foot ⊆ F) (rails : List RailSense) (quarterDegrees : Int) : Within F (actGovernorUpdate rails quarterDegrees : Act s₀ Unit) := by
  simp only [actGovernorUpdate_foot, List.append_subset, List.cons_subset, List.nil_subset, and_true, and_assoc] at hF
  obtain ⟨_, _, _, _, _, _, _, _, _, _, _, _⟩ := hF
  unfold actGovernorUpdate
  repeat' first
    | with_reducible
        first
        | intro _ | exact changePlant_within ‹_› .. | exact settleCurtAck_within ‹_› ..
        | exact moveThetas_within ‹_› .. | exact moveBallast_within ‹_› .. | exact within_pure _ | exact within_now
        | exact within_setF _ _ _ _ ‹_› | exact within_raise _ _ _ ‹_› | refine within_bind ?_ fun _ => ?_
        | refine within_ite ?_ ?_ | refine within_each _ _ fun _ => ?_ | split | dsimp only

def standBallast_foot : Foot := changePlant_foot
theorem standBallast_within {F : Foot} (hF : standBallast_foot ⊆ F) (t : Nat) : Within F (standBallast t : Act s₀ Unit) := by
  simp only [standBallast_foot] at hF
  unfold standBallast
  repeat' first
    | with_reducible
        first
        | intro _ | exact changePlant_within ‹_› .. | exact within_pure _ | refine within_bind ?_ fun _ => ?_
        | refine within_ite ?_ ?_ | split | dsimp only

def actBallastStop_foot : Foot := standBallast_foot
theorem actBallastStop_within {F : Foot} (hF : actBallastStop_foot ⊆ F) (t : Nat) : Within F (actBallastStop t : Act s₀ Unit) := by
  simp only [actBallastStop_foot] at hF
  unfold actBallastStop
  repeat' first
    | with_reducible
        first
        | intro _ | exact standBallast_within ‹_› .. | exact within_pure _ | exact within_now
        | refine within_bind ?_ fun _ => ?_ | refine within_ite ?_ ?_ | split | dsimp only

def actLsnAssert_foot : Foot := [.fld PLANT_STATUS_LSN_OUT, .fld PLANT_LSN_NOTICES_COUNT] ++ changePlant_foot
theorem actLsnAssert_within {F : Foot} (hF : actLsnAssert_foot ⊆ F) : Within F (actLsnAssert : Act s₀ Unit) := by
  simp only [actLsnAssert_foot, List.append_subset, List.cons_subset, List.nil_subset, and_true, and_assoc] at hF
  obtain ⟨_, _, _⟩ := hF
  unfold actLsnAssert
  repeat' first
    | with_reducible
        first
        | intro _ | exact changePlant_within ‹_› .. | exact within_pure _ | exact within_now
        | exact within_raise _ _ _ ‹_› | exact within_countUp _ _ _ _ ‹_› | refine within_bind ?_ fun _ => ?_
        | refine within_ite ?_ ?_ | split | dsimp only

def actLsnAck_foot : Foot := [.fld PLANT_STATUS_LSN_ACK, .fld PLANT_EVENT_LATE_ACK] ++ changePlant_foot
theorem actLsnAck_within {F : Foot} (hF : actLsnAck_foot ⊆ F) : Within F (actLsnAck : Act s₀ Unit) := by
  simp only [actLsnAck_foot, List.append_subset, List.cons_subset, List.nil_subset, and_true, and_assoc] at hF
  obtain ⟨_, _, _⟩ := hF
  unfold actLsnAck
  repeat' first
    | with_reducible
        first
        | intro _ | exact changePlant_within ‹_› .. | exact within_pure _ | exact within_now
        | exact within_raise _ _ _ ‹_› | refine within_bind ?_ fun _ => ?_ | refine within_ite ?_ ?_ | split
        | dsimp only

def actLsnAckTimeout_foot : Foot := [.fld PLANT_EVENT_NOACK, .fld PLANT_LSN_NOACK_COUNT] ++ changePlant_foot
theorem actLsnAckTimeout_within {F : Foot} (hF : actLsnAckTimeout_foot ⊆ F) : Within F (actLsnAckTimeout : Act s₀ Unit) := by
  simp only [actLsnAckTimeout_foot, List.append_subset, List.cons_subset, List.nil_subset, and_true, and_assoc] at hF
  obtain ⟨_, _, _⟩ := hF
  unfold actLsnAckTimeout
  repeat' first
    | with_reducible
        first
        | intro _ | exact changePlant_within ‹_› .. | exact within_pure _ | exact within_now
        | exact within_raise _ _ _ ‹_› | exact within_countUp _ _ _ _ ‹_› | refine within_bind ?_ fun _ => ?_
        | refine within_ite ?_ ?_ | split | dsimp only

def actRiseCovered_foot : Foot := changePlant_foot
theorem actRiseCovered_within {F : Foot} (hF : actRiseCovered_foot ⊆ F) : Within F (actRiseCovered : Act s₀ Unit) := by
  simp only [actRiseCovered_foot] at hF
  unfold actRiseCovered
  repeat' first
    | with_reducible
        first
        | intro _ | exact changePlant_within ‹_› .. | exact within_pure _ | exact within_now
        | refine within_bind ?_ fun _ => ?_ | refine within_ite ?_ ?_ | split | dsimp only

def endNotice_foot : Foot := [.fld PLANT_STATUS_LSN_OUT] ++ changePlant_foot
theorem endNotice_within {F : Foot} (hF : endNotice_foot ⊆ F) : Within F (endNotice : Act s₀ Unit) := by
  simp only [endNotice_foot, List.append_subset, List.cons_subset, List.nil_subset, and_true] at hF
  obtain ⟨_, _⟩ := hF
  unfold endNotice
  repeat' first
    | with_reducible
        first
        | intro _ | exact changePlant_within ‹_› .. | exact within_pure _ | exact within_now
        | exact within_setF _ _ _ _ ‹_› | refine within_bind ?_ fun _ => ?_ | refine within_ite ?_ ?_ | split
        | dsimp only

def actLsnDeassert_foot : Foot := endNotice_foot
theorem actLsnDeassert_within {F : Foot} (hF : actLsnDeassert_foot ⊆ F) : Within F (actLsnDeassert : Act s₀ Unit) := by
  simp only [actLsnDeassert_foot] at hF
  unfold actLsnDeassert
  repeat' first
    | with_reducible
        first
        | intro _ | exact endNotice_within ‹_› .. | exact within_pure _ | exact within_now
        | refine within_bind ?_ fun _ => ?_ | refine within_ite ?_ ?_ | split | dsimp only

def actLsnHoldMax_foot : Foot := [.fld PLANT_EVENT_HOLD_MAX] ++ endNotice_foot
theorem actLsnHoldMax_within {F : Foot} (hF : actLsnHoldMax_foot ⊆ F) : Within F (actLsnHoldMax : Act s₀ Unit) := by
  simp only [actLsnHoldMax_foot, List.append_subset, List.cons_subset, List.nil_subset, and_true] at hF
  obtain ⟨_, _⟩ := hF
  unfold actLsnHoldMax
  repeat' first
    | with_reducible
        first
        | intro _ | exact endNotice_within ‹_› .. | exact within_pure _ | exact within_isOn _ _ _
        | exact within_raise _ _ _ ‹_› | refine within_bind ?_ fun _ => ?_ | refine within_ite ?_ ?_ | split
        | dsimp only

def settleCurtail_foot : Foot := [.fld PLANT_STATUS_CURTAILED, .fld PLANT_STATUS_CURT_LVL, .fld PLANT_CURT_EVENTS_COUNT, .fld PLANT_STATUS_CURT_ACK] ++ (changePlant_foot ++ settleCurtAck_foot)
theorem settleCurtail_within {F : Foot} (hF : settleCurtail_foot ⊆ F) : Within F (settleCurtail : Act s₀ Unit) := by
  simp only [settleCurtail_foot, List.append_subset, List.cons_subset, List.nil_subset, and_true, and_assoc] at hF
  obtain ⟨_, _, _, _, _, _⟩ := hF
  unfold settleCurtail
  repeat' first
    | with_reducible
        first
        | intro _ | exact changePlant_within ‹_› .. | exact settleCurtAck_within ‹_› .. | exact within_pure _
        | exact within_now | exact within_setF _ _ _ _ ‹_› | exact within_raise _ _ _ ‹_›
        | exact within_countUp _ _ _ _ ‹_› | refine within_bind ?_ fun _ => ?_ | refine within_ite ?_ ?_ | split
        | dsimp only

def hookPlantCtl_foot : Foot := [.fld PLANT_EVENT_PINS, .fld PLANT_STATUS_PINS_PLANT] ++ (discardRecorded_foot ++ (endNotice_foot ++ settleCurtail_foot))
theorem hookPlantCtl_within {F : Foot} (hF : hookPlantCtl_foot ⊆ F) {w : RegWrite} (hw : F.free w.addr) : Within F (hookPlantCtl w : Act s₀ Unit) := by
  simp only [hookPlantCtl_foot, List.append_subset, List.cons_subset, List.nil_subset, and_true, and_assoc] at hF
  obtain ⟨_, _, _, _, _⟩ := hF
  unfold hookPlantCtl
  repeat' first
    | with_reducible
        first
        | intro _ | exact discardRecorded_within ‹_› .. | exact plainHook_within ‹_› ..
        | exact endNotice_within ‹_› .. | exact settleCurtail_within ‹_› .. | exact within_pure _ | exact within_now
        | exact within_setF _ _ _ _ ‹_› | exact within_raise _ _ _ ‹_› | exact within_emitFree _ _ ‹_›
        | refine within_bind ?_ fun _ => ?_ | refine within_ite ?_ ?_ | split | dsimp only

def hookPlantSoc_foot : Foot := discardRecorded_foot
theorem hookPlantSoc_within {F : Foot} (hF : hookPlantSoc_foot ⊆ F) {w : RegWrite} (hw : F.free w.addr) : Within F (hookPlantSoc w : Act s₀ Unit) := by
  simp only [hookPlantSoc_foot] at hF
  unfold hookPlantSoc
  repeat' first
    | with_reducible
        first
        | intro _ | exact discardRecorded_within ‹_› .. | exact plainHook_within ‹_› .. | exact within_pure _
        | exact within_emitFree _ _ ‹_› | refine within_bind ?_ fun _ => ?_ | refine within_ite ?_ ?_ | split
        | dsimp only

def actSocFrameReceive_foot : Foot := [.fld PLANT_LINK_ERR_COUNT, .fld PLANT_SOC_NOW_VALID, .fld PLANT_SOC_NOW_SEQ, .fld PLANT_SOC_NOW_SOC, .fld PLANT_STATUS_SOC_STALE] ++ changePlant_foot
theorem actSocFrameReceive_within {F : Foot} (hF : actSocFrameReceive_foot ⊆ F) (f : Nat) (gap : Bool) : Within F (actSocFrameReceive f gap : Act s₀ Unit) := by
  simp only [actSocFrameReceive_foot, List.append_subset, List.cons_subset, List.nil_subset, and_true, and_assoc] at hF
  obtain ⟨_, _, _, _, _, _⟩ := hF
  unfold actSocFrameReceive
  repeat' first
    | with_reducible
        first
        | intro _ | exact changePlant_within ‹_› .. | exact within_pure _ | exact within_now
        | exact within_setF _ _ _ _ ‹_› | exact within_raise _ _ _ ‹_› | exact within_countUp _ _ _ _ ‹_›
        | refine within_bind ?_ fun _ => ?_ | refine within_ite ?_ ?_ | split | dsimp only

def actSocTimeout_foot : Foot := [.fld PLANT_STATUS_SOC_STALE, .fld PLANT_EVENT_SOC_STALE]
theorem actSocTimeout_within {F : Foot} (hF : actSocTimeout_foot ⊆ F) : Within F (actSocTimeout : Act s₀ Unit) := by
  simp only [actSocTimeout_foot, List.cons_subset, List.nil_subset, and_true] at hF
  obtain ⟨_, _⟩ := hF
  unfold actSocTimeout
  repeat' first
    | with_reducible
        first
        | intro _ | exact within_pure _ | exact within_raise _ _ _ ‹_› | refine within_bind ?_ fun _ => ?_ | split
        | dsimp only

def actForecastSend_foot : Foot := send_foot ++ changePlant_foot
theorem actForecastSend_within {F : Foot} (hF : actForecastSend_foot ⊆ F) : Within F (actForecastSend : Act s₀ Unit) := by
  simp only [actForecastSend_foot, List.append_subset] at hF
  obtain ⟨_, _⟩ := hF
  unfold actForecastSend
  repeat' first
    | with_reducible
        first
        | intro _ | exact send_within ‹_› .. | exact changePlant_within ‹_› .. | exact within_pure _
        | exact within_now | refine within_bind ?_ fun _ => ?_ | refine within_ite ?_ ?_ | split | dsimp only

def actPmbusPoll_foot : Foot := [.fld PLANT_EVENT_PMB_ERR, .fld PLANT_RAIL_TELEM_STATUS_WORD, .fld PLANT_RAIL_TELEM_TEMP, .fld PLANT_RAIL_TELEM_IOUT, .fld PLANT_RAIL_TELEM_VOUT] ++ send_foot
theorem actPmbusPoll_within {F : Foot} (hF : actPmbusPoll_foot ⊆ F) (readings : List (Option Telemetry)) : Within F (actPmbusPoll readings : Act s₀ Unit) := by
  simp only [actPmbusPoll_foot, List.append_subset, List.cons_subset, List.nil_subset, and_true, and_assoc] at hF
  obtain ⟨_, _, _, _, _, _⟩ := hF
  unfold actPmbusPoll
  repeat' first
    | with_reducible
        first
        | intro _ | exact send_within ‹_› .. | exact within_pure _ | exact within_fld _ _ _
        | exact within_setF _ _ _ _ ‹_› | exact within_raise _ _ _ ‹_› | refine within_bind ?_ fun _ => ?_
        | refine within_each _ _ fun _ => ?_ | split | dsimp only

end Sys2Proof.Machine
end

