-- ==== Sys2Proof/Laws/FootWindows.lean ====
section
/-! SUPPORT. The footprints of the actions of Windows. -/

namespace Sys2Proof.Machine

variable {s₀ : State}

def changePmc_foot : Foot := [.part .pmc]
theorem changePmc_within {F : Foot} (hF : changePmc_foot ⊆ F) (f : PmcUnit → PmcUnit) : Within F (changePmc f : Act s₀ Unit) := by
  simp only [changePmc_foot, List.cons_subset, List.nil_subset, and_true] at hF
  unfold changePmc
  repeat' first
    | with_reducible
        first
        | intro _ | exact within_pure _ | refine within_bind ?_ fun _ => ?_ | split | dsimp only
    | exact within_change _ fun u p => by cases p <;> first | exact .inl rfl | exact .inr ‹_› | (refine .inl ?_; simp only [Part.same]; repeat' split) <;> rfl

def loseDump_foot : Foot := [.fld PMC_DUMP_LOST_COUNT] ++ (uncore_foot ++ changePmc_foot)
theorem loseDump_within {F : Foot} (hF : loseDump_foot ⊆ F) (t p : Nat) : Within F (loseDump t p : Act s₀ Unit) := by
  simp only [loseDump_foot, List.append_subset, List.cons_subset, List.nil_subset, and_true] at hF
  obtain ⟨_, _, _⟩ := hF
  unfold loseDump
  repeat' first
    | with_reducible
        first
        | intro _ | exact uncore_within ‹_› .. | exact changePmc_within ‹_› .. | exact within_pure _
        | exact within_now | exact within_countUp _ _ _ _ ‹_› | refine within_bind ?_ fun _ => ?_
        | refine within_ite ?_ ?_ | split | dsimp only

def writeDump_foot : Foot := [.fld PMC_DUMP_CTL_SEQ] ++ (loseDump_foot ++ (send_foot ++ changePmc_foot))
theorem writeDump_within {F : Foot} (hF : writeDump_foot ⊆ F) (t type ctrs : Nat) (room : Bool) : Within F (writeDump t type ctrs room : Act s₀ Unit) := by
  simp only [writeDump_foot, List.append_subset, List.cons_subset, List.nil_subset, and_true] at hF
  obtain ⟨_, _, _, _⟩ := hF
  unfold writeDump
  repeat' first
    | with_reducible
        first
        | intro _ | exact loseDump_within ‹_› .. | exact send_within ‹_› .. | exact changePmc_within ‹_› ..
        | exact within_pure _ | exact within_now | exact within_setF _ _ _ _ ‹_› | refine within_bind ?_ fun _ => ?_
        | refine within_ite ?_ ?_ | split | dsimp only

def actPeriodicDump_foot : Foot := writeDump_foot
theorem actPeriodicDump_within {F : Foot} (hF : actPeriodicDump_foot ⊆ F) (t : Nat) (room : Bool) : Within F (actPeriodicDump t room : Act s₀ Unit) := by
  simp only [actPeriodicDump_foot] at hF
  unfold actPeriodicDump
  repeat' first
    | with_reducible
        first
        | intro _ | exact writeDump_within ‹_› .. | exact within_pure _ | exact within_now
        | refine within_bind ?_ fun _ => ?_ | refine within_ite ?_ ?_ | split | dsimp only

theorem prepPmcWindow_within {F : Foot} (t : Nat) (w : Descriptor) : WithinP F (prepPmcWindow t w : Prep s₀ (List Nat)) := by
  unfold prepPmcWindow
  repeat' first
    | with_reducible
        first
        | intro _ | exact demand_within .. | exact permit_within .. | exact within_pure _ | exact within_now
        | exact withinW_pure _ | exact withinW_get | exact withinW_set _ | exact withinW_modify _
        | exact withinW_modifyGet _ | exact withinP_pure _ | exact withinP_failure
        | refine within_bind ?_ fun _ => ?_ | refine withinW_doing ?_ | refine withinW_bind ?_ fun _ => ?_
        | refine withinW_forIn _ _ _ fun _ _ => ?_ | refine withinW_map _ ?_ | refine withinP_lift ?_
        | refine withinP_bind ?_ fun _ => ?_ | refine withinP_forIn _ _ _ fun _ _ => ?_ | refine withinP_map _ ?_
        | split | dsimp only

def clearClaims_foot : Foot := [.fld PMC_CTR_VALUE]
theorem clearClaims_within {F : Foot} (hF : clearClaims_foot ⊆ F) (t claims : Nat) : Within F (clearClaims t claims : Act s₀ Unit) := by
  simp only [clearClaims_foot, List.cons_subset, List.nil_subset, and_true] at hF
  unfold clearClaims
  repeat' first
    | with_reducible
        first
        | intro _ | exact within_pure _ | exact within_now | exact within_setF _ _ _ _ ‹_›
        | refine within_bind ?_ fun _ => ?_ | refine within_ite ?_ ?_ | refine within_each _ _ fun _ => ?_ | split
        | dsimp only

def edgeDump_foot : Foot := writeDump_foot
theorem edgeDump_within {F : Foot} (hF : edgeDump_foot ⊆ F) (w : PmcWindow) (type : Nat) : Within F (edgeDump w type : Act s₀ Unit) := by
  simp only [edgeDump_foot] at hF
  unfold edgeDump
  repeat' first
    | with_reducible
        first
        | intro _ | exact writeDump_within ‹_› .. | exact within_pure _ | exact within_freeIndex
        | refine within_bind ?_ fun _ => ?_ | refine within_ite ?_ ?_ | split | dsimp only

def actPmcWindow_foot : Foot := changePmc_foot ++ (clearClaims_foot ++ (edgeDump_foot ++ lendLc3_foot))
theorem actPmcWindow_within {F : Foot} (hF : actPmcWindow_foot ⊆ F) (id : Nat) : Within F (actPmcWindow id : Act s₀ Unit) := by
  simp only [actPmcWindow_foot, List.append_subset] at hF
  obtain ⟨_, _, _, _⟩ := hF
  unfold actPmcWindow
  repeat' first
    | with_reducible
        first
        | intro _ | exact changePmc_within ‹_› .. | exact clearClaims_within ‹_› .. | exact edgeDump_within ‹_› ..
        | exact lendLc3_within ‹_› .. | exact within_pure _ | exact within_now | refine within_bind ?_ fun _ => ?_
        | refine within_ite ?_ ?_ | split | dsimp only

def skipPoints_foot : Foot := [.fld PMC_WIN_SKIPPED] ++ changePmc_foot
theorem skipPoints_within {F : Foot} (hF : skipPoints_foot ⊆ F) (s : State) (w : PmcWindow) : Within F (skipPoints s w : Act s₀ Unit) := by
  simp only [skipPoints_foot, List.append_subset, List.cons_subset, List.nil_subset, and_true] at hF
  obtain ⟨_, _⟩ := hF
  unfold skipPoints
  repeat' first
    | with_reducible
        first
        | intro _ | exact changePmc_within ‹_› .. | exact within_pure _ | exact within_countUp _ _ _ _ ‹_›
        | refine within_bind ?_ fun _ => ?_ | refine within_ite ?_ ?_ | split | dsimp only

def closeWindow_foot : Foot := changePmc_foot ++ (finish_foot ++ lendLc3_foot)
theorem closeWindow_within {F : Foot} (hF : closeWindow_foot ⊆ F) (w : PmcWindow) : Within F (closeWindow w : Act s₀ Unit) := by
  simp only [closeWindow_foot, List.append_subset] at hF
  obtain ⟨_, _, _⟩ := hF
  unfold closeWindow
  repeat' first
    | with_reducible
        first
        | intro _ | exact changePmc_within ‹_› .. | exact finish_within ‹_› .. | exact lendLc3_within ‹_› ..
        | exact within_pure _ | refine within_bind ?_ fun _ => ?_ | split | dsimp only

def actWindowEdge_foot : Foot := [.fld SEQ_LC_LOAN_SLIPS, .fld SEQ_LC_LOAN_LAST_SLIP] ++ (edgeDump_foot ++ (closeWindow_foot ++ skipPoints_foot))
theorem actWindowEdge_within {F : Foot} (hF : actWindowEdge_foot ⊆ F) (t : Nat) : Within F (actWindowEdge t : Act s₀ Unit) := by
  simp only [actWindowEdge_foot, List.append_subset, List.cons_subset, List.nil_subset, and_true, and_assoc] at hF
  obtain ⟨_, _, _, _, _⟩ := hF
  unfold actWindowEdge
  repeat' first
    | with_reducible
        first
        | intro _ | exact edgeDump_within ‹_› .. | exact closeWindow_within ‹_› .. | exact skipPoints_within ‹_› ..
        | exact within_pure _ | exact within_now | exact within_setF _ _ _ _ ‹_› | exact within_countUp _ _ _ _ ‹_›
        | refine within_bind ?_ fun _ => ?_ | refine within_ite ?_ ?_ | split | dsimp only

def hookSbufCtl_foot : Foot := [.fld PMC_SBUF_CTL_COUNT, .fld PMC_SBUF_CTL_FULL] ++ discardRecorded_foot
theorem hookSbufCtl_within {F : Foot} (hF : hookSbufCtl_foot ⊆ F) {w : RegWrite} (hw : F.free w.addr) : Within F (hookSbufCtl w : Act s₀ Unit) := by
  simp only [hookSbufCtl_foot, List.append_subset, List.cons_subset, List.nil_subset, and_true, and_assoc] at hF
  obtain ⟨_, _, _⟩ := hF
  unfold hookSbufCtl
  repeat' first
    | with_reducible
        first
        | intro _ | exact discardRecorded_within ‹_› .. | exact plainHook_within ‹_› .. | exact within_pure _
        | exact within_now | exact within_setF _ _ _ _ ‹_› | exact within_emitFree _ _ ‹_›
        | refine within_bind ?_ fun _ => ?_ | refine within_ite ?_ ?_ | split | dsimp only

def settleFrozen_foot : Foot := [.fld PMC_CTL_FROZEN]
theorem settleFrozen_within {F : Foot} (hF : settleFrozen_foot ⊆ F) (t : Nat) : Within F (settleFrozen t : Act s₀ Unit) := by
  simp only [settleFrozen_foot, List.cons_subset, List.nil_subset, and_true] at hF
  unfold settleFrozen
  repeat' first
    | with_reducible
        first
        | intro _ | exact within_pure _ | exact within_now | exact within_setF _ _ _ _ ‹_›
        | refine within_bind ?_ fun _ => ?_ | refine within_ite ?_ ?_ | split | dsimp only

def hookFreeze_foot : Foot := settleFrozen_foot
theorem hookFreeze_within {F : Foot} (hF : hookFreeze_foot ⊆ F) {w : RegWrite} (hw : F.free w.addr) : Within F (hookFreeze w : Act s₀ Unit) := by
  simp only [hookFreeze_foot] at hF
  unfold hookFreeze
  repeat' first
    | with_reducible
        first
        | intro _ | exact plainHook_within ‹_› .. | exact settleFrozen_within ‹_› .. | exact within_pure _
        | exact within_emitFree _ _ ‹_› | refine within_bind ?_ fun _ => ?_ | split | dsimp only

def hookSelect_foot : Foot := recordLocked_foot
theorem hookSelect_within {F : Foot} (hF : hookSelect_foot ⊆ F) {w : RegWrite} (hw : F.free w.addr) (chain : Fld) (even : Bool) : Within F (hookSelect chain even w : Act s₀ Unit) := by
  simp only [hookSelect_foot] at hF
  unfold hookSelect
  repeat' first
    | with_reducible
        first
        | intro _ | exact recordLocked_within ‹_› .. | exact plainHook_within ‹_› .. | exact within_pure _
        | exact within_emitReg _ _ _ _ ‹_› | exact within_emitAddr _ _ ‹_› | exact within_emitFree _ _ ‹_›
        | refine within_bind ?_ fun _ => ?_ | refine within_ite ?_ ?_ | split | dsimp only

end Sys2Proof.Machine
end

