-- ==== Sys2Proof/Laws/FootStartup.lean ====
section
/-! SUPPORT. The footprints of the actions of Startup. -/

namespace Sys2Proof.Machine

variable {s₀ : State}

def changeBoot_foot : Foot := [.part .boot]
theorem changeBoot_within {F : Foot} (hF : changeBoot_foot ⊆ F) (f : BootUnit → BootUnit) : Within F (changeBoot f : Act s₀ Unit) := by
  simp only [changeBoot_foot, List.cons_subset, List.nil_subset, and_true] at hF
  unfold changeBoot
  repeat' first
    | with_reducible
        first
        | intro _ | exact within_pure _ | refine within_bind ?_ fun _ => ?_ | split | dsimp only
    | exact within_change _ fun u p => by cases p <;> first | exact .inl rfl | exact .inr ‹_› | (refine .inl ?_; simp only [Part.same]; repeat' split) <;> rfl

def leaveFuse_foot : Foot := [.fuses]
theorem leaveFuse_within {F : Foot} (hF : leaveFuse_foot ⊆ F) : Within F (leaveFuse : Act s₀ Unit) := by
  simp only [leaveFuse_foot, List.cons_subset, List.nil_subset, and_true] at hF
  unfold leaveFuse
  repeat' first
    | with_reducible
        first
        | intro _ | exact within_pure _ | exact within_now | exact within_freeIndex | exact within_emit_blow ‹_› ..
        | refine within_bind ?_ fun _ => ?_ | refine within_ite ?_ ?_ | split | dsimp only

def actColdReset_foot : Foot := [.routes, .lost, .mem, .part .nv, .part .boot, .part .pwr, .part .plant, .part .var, .part .fab, .part .pmc, .part .mx, .part .ve, .part .hbm, .part .tb, .part .fail, .part .host, .part .rings, .part .pal] ++ leaveFuse_foot
theorem actColdReset_within {F : Foot} (hF : actColdReset_foot ⊆ F) (powerGood : Bool) : Within F (actColdReset powerGood : Act s₀ Unit) := by
  simp only [actColdReset_foot, List.append_subset, List.cons_subset, List.nil_subset, and_true, and_assoc] at hF
  obtain ⟨_, _, _, _, _, _, _, _, _, _, _, _, _, _, _, _, _, _, _⟩ := hF
  unfold actColdReset
  repeat' first
    | with_reducible
        first
        | intro _ | exact leaveFuse_within ‹_› .. | exact within_pure _ | exact within_emit_wipeRoutes ‹_› ..
        | exact within_emit_wipeRegs ‹_› .. | exact within_emit_wipeMem ‹_› .. | refine within_bind ?_ fun _ => ?_
        | split | dsimp only
    | exact within_change _ fun u p => by cases p <;> first | exact .inl rfl | exact .inr ‹_› | (refine .inl ?_; simp only [Part.same]; repeat' split) <;> rfl

def actModuleReset_foot : Foot := [.fld HBM_STATUS_STATE, .fld CMC_RESET_CAUSE_CAUSE, .routes, .lost, .mem, .part .nv, .part .host, .part .rings, .part .boot, .part .pwr, .part .plant, .part .var, .part .fab, .part .pmc, .part .mx, .part .ve, .part .hbm, .part .tb, .part .fail, .part .pal] ++ leaveFuse_foot
theorem actModuleReset_within {F : Foot} (hF : actModuleReset_foot ⊆ F) (cause : Nat) : Within F (actModuleReset cause : Act s₀ Unit) := by
  simp only [actModuleReset_foot, List.append_subset, List.cons_subset, List.nil_subset, and_true, and_assoc] at hF
  obtain ⟨_, _, _, _, _, _, _, _, _, _, _, _, _, _, _, _, _, _, _, _, _⟩ := hF
  unfold actModuleReset
  repeat' first
    | with_reducible
        first
        | intro _ | exact leaveFuse_within ‹_› .. | exact within_pure _ | exact within_now
        | exact within_setF _ _ _ _ ‹_› | exact within_emit_wipeRoutes ‹_› .. | exact within_emit_wipeRegs ‹_› ..
        | exact within_emit_wipeMem ‹_› .. | refine within_bind ?_ fun _ => ?_ | refine within_ite ?_ ?_
        | refine within_each _ _ fun _ => ?_ | split | dsimp only
    | exact within_change _ fun u p => by cases p <;> first | exact .inl rfl | exact .inr ‹_› | (refine .inl ?_; simp only [Part.same]; repeat' split) <;> rfl

def hookCmcReset_foot : Foot := actModuleReset_foot
theorem hookCmcReset_within {F : Foot} (hF : hookCmcReset_foot ⊆ F) {w : RegWrite} (hw : F.free w.addr) : Within F (hookCmcReset w : Act s₀ Unit) := by
  simp only [hookCmcReset_foot] at hF
  unfold hookCmcReset
  repeat' first
    | with_reducible
        first
        | intro _ | exact plainHook_within ‹_› .. | exact actModuleReset_within ‹_› .. | exact within_pure _
        | exact within_emitFree _ _ ‹_› | refine within_bind ?_ fun _ => ?_ | refine within_ite ?_ ?_ | split
        | dsimp only

def actHostPerst_foot : Foot := changeBoot_foot ++ (actHostLoss_foot ++ (resetFunction_foot ++ (orphanPort_foot ++ clearConfig_foot)))
theorem actHostPerst_within {F : Foot} (hF : actHostPerst_foot ⊆ F) (p : Nat) (high : Bool) : Within F (actHostPerst p high : Act s₀ Unit) := by
  simp only [actHostPerst_foot, List.append_subset] at hF
  obtain ⟨_, _, _, _, _⟩ := hF
  unfold actHostPerst
  repeat' first
    | with_reducible
        first
        | intro _ | exact changeBoot_within ‹_› .. | exact actHostLoss_within ‹_› ..
        | exact resetFunction_within ‹_› .. | exact orphanPort_within ‹_› .. | exact clearConfig_within ‹_› ..
        | exact within_pure _ | exact within_isOn _ _ _ | refine within_bind ?_ fun _ => ?_ | refine within_ite ?_ ?_
        | split | dsimp only

def actHostLinkUp_foot : Foot := [.fld HOST_STATUS_UP, .fld HOST_STATUS_WIDTH, .fld HOST_STATUS_RATE, .fld HOST_STATUS_NO_FLIT]
theorem actHostLinkUp_within {F : Foot} (hF : actHostLinkUp_foot ⊆ F) (p width rate : Nat) (flit : Bool) : Within F (actHostLinkUp p width rate flit : Act s₀ Unit) := by
  simp only [actHostLinkUp_foot, List.cons_subset, List.nil_subset, and_true] at hF
  obtain ⟨_, _, _, _⟩ := hF
  unfold actHostLinkUp
  repeat' first
    | with_reducible
        first
        | intro _ | exact within_pure _ | exact within_now | exact within_setF _ _ _ _ ‹_›
        | exact within_raise _ _ _ ‹_› | refine within_bind ?_ fun _ => ?_ | refine within_ite ?_ ?_ | split
        | dsimp only

def bootFail_foot : Foot := [.fld CMC_STATUS_BOOT_ERR, .fld CMC_STATUS_ERR_ARG] ++ changeBoot_foot
theorem bootFail_within {F : Foot} (hF : bootFail_foot ⊆ F) (err arg : Nat) : Within F (bootFail err arg : Act s₀ Unit) := by
  simp only [bootFail_foot, List.append_subset, List.cons_subset, List.nil_subset, and_true, and_assoc] at hF
  obtain ⟨_, _, _⟩ := hF
  unfold bootFail
  repeat' first
    | with_reducible
        first
        | intro _ | exact changeBoot_within ‹_› .. | exact within_pure _ | exact within_setF _ _ _ _ ‹_›
        | refine within_bind ?_ fun _ => ?_ | split | dsimp only

def bootNext_foot : Foot := [.fld CMC_STATUS_STAGE] ++ changeBoot_foot
theorem bootNext_within {F : Foot} (hF : bootNext_foot ⊆ F) (step stage : Nat) : Within F (bootNext step stage : Act s₀ Unit) := by
  simp only [bootNext_foot, List.append_subset, List.cons_subset, List.nil_subset, and_true] at hF
  obtain ⟨_, _⟩ := hF
  unfold bootNext
  repeat' first
    | with_reducible
        first
        | intro _ | exact changeBoot_within ‹_› .. | exact within_pure _ | exact within_setF _ _ _ _ ‹_›
        | refine within_bind ?_ fun _ => ?_ | split | dsimp only

def senseFuse_foot : Foot := [.reg FUSE_WORD_VALUE]
theorem senseFuse_within {F : Foot} (hF : senseFuse_foot ⊆ F) (w : Nat) : Within F (senseFuse w : Act s₀ Unit) := by
  simp only [senseFuse_foot, List.cons_subset, List.nil_subset, and_true] at hF
  unfold senseFuse
  repeat' first
    | with_reducible
        first
        | intro _ | exact within_pure _ | exact within_ask _ | exact within_emitReg _ _ _ _ ‹_›
        | exact within_emitAddr _ _ ‹_› | refine within_bind ?_ fun _ => ?_ | split | dsimp only

def bootRom_foot : Foot := [.fld CMC_BOOT_FUSE_ROLLBACK, .fld CMC_BOOT_SECURE] ++ (senseFuse_foot ++ (actPllLock_foot ++ (bootNext_foot ++ bootFail_foot)))
theorem bootRom_within {F : Foot} (hF : bootRom_foot ⊆ F) (pllLocked : Bool) : Within F (bootRom pllLocked : Act s₀ Unit) := by
  simp only [bootRom_foot, List.append_subset, List.cons_subset, List.nil_subset, and_true, and_assoc] at hF
  obtain ⟨_, _, _, _, _, _⟩ := hF
  unfold bootRom
  repeat' first
    | with_reducible
        first
        | intro _ | exact senseFuse_within ‹_› .. | exact actPllLock_within ‹_› .. | exact bootNext_within ‹_› ..
        | exact bootFail_within ‹_› .. | exact within_pure _ | exact within_now | exact within_setF _ _ _ _ ‹_›
        | refine within_bind ?_ fun _ => ?_ | refine within_ite ?_ ?_ | refine within_each _ _ fun _ => ?_ | split
        | dsimp only

def bootSlot_foot : Foot := [.fld CMC_BOOT_FW_VERSION, .fld CMC_BOOT_IMG_ROLLBACK, .fld CMC_BOOT_SLOT] ++ bootNext_foot
theorem bootSlot_within {F : Foot} (hF : bootSlot_foot ⊆ F) (x : ImageSlot) (k : Nat) : Within F (bootSlot x k : Act s₀ Unit) := by
  simp only [bootSlot_foot, List.append_subset, List.cons_subset, List.nil_subset, and_true, and_assoc] at hF
  obtain ⟨_, _, _, _⟩ := hF
  unfold bootSlot
  repeat' first
    | with_reducible
        first
        | intro _ | exact bootNext_within ‹_› .. | exact within_pure _ | exact within_setF _ _ _ _ ‹_›
        | refine within_bind ?_ fun _ => ?_ | split | dsimp only

def bootImage_foot : Foot := bootFail_foot ++ bootSlot_foot
theorem bootImage_within {F : Foot} (hF : bootImage_foot ⊆ F) (norFound : Bool) (a b : ImageSlot) : Within F (bootImage norFound a b : Act s₀ Unit) := by
  simp only [bootImage_foot, List.append_subset] at hF
  obtain ⟨_, _⟩ := hF
  unfold bootImage
  repeat' first
    | with_reducible
        first
        | intro _ | exact bootFail_within ‹_› .. | exact bootSlot_within ‹_› .. | exact within_pure _
        | exact within_now | refine within_bind ?_ fun _ => ?_ | refine within_ite ?_ ?_ | split | dsimp only

def bootFirmware_foot : Foot := [.fld CMC_BOOT_CFG_VALID] ++ (changeBoot_foot ++ bootNext_foot)
theorem bootFirmware_within {F : Foot} (hF : bootFirmware_foot ⊆ F) (cfg : BoardConfig) : Within F (bootFirmware cfg : Act s₀ Unit) := by
  simp only [bootFirmware_foot, List.append_subset, List.cons_subset, List.nil_subset, and_true] at hF
  obtain ⟨_, _, _⟩ := hF
  unfold bootFirmware
  repeat' first
    | with_reducible
        first
        | intro _ | exact changeBoot_within ‹_› .. | exact bootNext_within ‹_› .. | exact within_pure _
        | exact within_setF _ _ _ _ ‹_› | refine within_bind ?_ fun _ => ?_ | refine within_ite ?_ ?_ | split
        | dsimp only

def bootEdges_foot : Foot := [.fld HBM_STATUS_STATE, .fld PLANT_PMB_ADDR0, .fld PLANT_PMB_ADDR1, .fld PLANT_PMB_ADDR2, .fld PLANT_PMB_ADDR3] ++ (send_foot ++ (avsWrite_foot ++ (bootFail_foot ++ bootNext_foot)))
theorem bootEdges_within {F : Foot} (hF : bootEdges_foot ⊆ F) (failed : Option Nat) : Within F (bootEdges failed : Act s₀ Unit) := by
  simp only [bootEdges_foot, List.append_subset, List.cons_subset, List.nil_subset, and_true, and_assoc] at hF
  obtain ⟨_, _, _, _, _, _, _, _, _⟩ := hF
  unfold bootEdges
  repeat' first
    | with_reducible
        first
        | intro _ | exact send_within ‹_› .. | exact avsWrite_within ‹_› .. | exact bootFail_within ‹_› ..
        | exact bootNext_within ‹_› .. | exact within_pure _ | exact within_now | exact within_ask _
        | exact within_setF _ _ _ _ ‹_› | refine within_bind ?_ fun _ => ?_ | refine within_each _ _ fun _ => ?_
        | split | dsimp only
    | exact within_setF _ _ _ _ (by unfold pmbAddr; split <;> assumption)

def bootStack_foot : Foot := [.fld HBM_STATUS_STATE, .fld HBM_STATUS_KEPT, .fld HBM_REPAIR_HARD, .fld HBM_REPAIR_SPARES_MIN, .mem, .part .nv] ++ (setDom_foot ++ actVarDieFail_foot)
theorem bootStack_within {F : Foot} (hF : bootStack_foot ⊆ F) (n : Nat) (x : StackBoot) : Within F (bootStack n x : Act s₀ Unit) := by
  simp only [bootStack_foot, List.append_subset, List.cons_subset, List.nil_subset, and_true, and_assoc] at hF
  obtain ⟨_, _, _, _, _, _, _, _⟩ := hF
  unfold bootStack
  repeat' first
    | with_reducible
        first
        | intro _ | exact setDom_within ‹_› .. | exact actVarDieFail_within ‹_› .. | exact within_pure _
        | exact within_now | exact within_setF _ _ _ _ ‹_› | exact within_emit_wipeMem ‹_› ..
        | refine within_bind ?_ fun _ => ?_ | refine within_ite ?_ ?_ | split | dsimp only
    | exact within_change _ fun u p => by cases p <;> first | exact .inl rfl | exact .inr ‹_› | (refine .inl ?_; simp only [Part.same]; repeat' split) <;> rfl

def bootTiles_foot : Foot := [.fld PAL_CTL_EN] ++ (setDom_foot ++ (bootFail_foot ++ bootNext_foot))
theorem bootTiles_within {F : Foot} (hF : bootTiles_foot ⊆ F) (bad : Option Nat) : Within F (bootTiles bad : Act s₀ Unit) := by
  simp only [bootTiles_foot, List.append_subset, List.cons_subset, List.nil_subset, and_true] at hF
  obtain ⟨_, _, _, _⟩ := hF
  unfold bootTiles
  repeat' first
    | with_reducible
        first
        | intro _ | exact setDom_within ‹_› .. | exact bootFail_within ‹_› .. | exact bootNext_within ‹_› ..
        | exact within_pure _ | exact within_raise _ _ _ ‹_› | refine within_bind ?_ fun _ => ?_
        | refine within_each _ _ fun _ => ?_ | split | dsimp only

def bootStacksAndTiles_foot : Foot := [.fld CMC_BOOT_STACKS_KEPT] ++ (bootStack_foot ++ bootTiles_foot)
theorem bootStacksAndTiles_within {F : Foot} (hF : bootStacksAndTiles_foot ⊆ F) (xs : List StackBoot) (bad : Option Nat) : Within F (bootStacksAndTiles xs bad : Act s₀ Unit) := by
  simp only [bootStacksAndTiles_foot, List.append_subset, List.cons_subset, List.nil_subset, and_true] at hF
  obtain ⟨_, _, _⟩ := hF
  unfold bootStacksAndTiles
  repeat' first
    | with_reducible
        first
        | intro _ | exact bootStack_within ‹_› .. | exact bootTiles_within ‹_› .. | exact within_pure _
        | exact within_now | exact within_setF _ _ _ _ ‹_› | refine within_bind ?_ fun _ => ?_
        | refine within_ite ?_ ?_ | refine within_each _ _ fun _ => ?_ | split | dsimp only

def bootLinks_foot : Foot := [.fld COLL_ID_MODULE, .fld TB_CTL_ROLE, .fld LINK_CTL_PMD, .fld LINK_CTL_EN] ++ (takeRole_foot ++ (startTraining_foot ++ bootNext_foot))
theorem bootLinks_within {F : Foot} (hF : bootLinks_foot ⊆ F) : Within F (bootLinks : Act s₀ Unit) := by
  simp only [bootLinks_foot, List.append_subset, List.cons_subset, List.nil_subset, and_true, and_assoc] at hF
  obtain ⟨_, _, _, _, _, _, _⟩ := hF
  unfold bootLinks
  repeat' first
    | with_reducible
        first
        | intro _ | exact takeRole_within ‹_› .. | exact startTraining_within ‹_› .. | exact bootNext_within ‹_› ..
        | exact within_pure _ | exact within_now | exact within_setF _ _ _ _ ‹_› | exact within_raise _ _ _ ‹_›
        | refine within_bind ?_ fun _ => ?_ | refine within_ite ?_ ?_ | refine within_each _ _ fun _ => ?_ | split
        | dsimp only

def bootReady_foot : Foot := [.fld CMC_STATUS_READY, .fld CMC_STATUS_DEGRADED] ++ bootNext_foot
theorem bootReady_within {F : Foot} (hF : bootReady_foot ⊆ F) : Within F (bootReady : Act s₀ Unit) := by
  simp only [bootReady_foot, List.append_subset, List.cons_subset, List.nil_subset, and_true, and_assoc] at hF
  obtain ⟨_, _, _⟩ := hF
  unfold bootReady
  repeat' first
    | with_reducible
        first
        | intro _ | exact bootNext_within ‹_› .. | exact within_pure _ | exact within_now
        | exact within_setF _ _ _ _ ‹_› | exact within_raise _ _ _ ‹_› | refine within_bind ?_ fun _ => ?_
        | refine within_ite ?_ ?_ | split | dsimp only

def actBootStep_foot : Foot := bootRom_foot ++ (bootImage_foot ++ (bootFirmware_foot ++ (bootEdges_foot ++ (bootStacksAndTiles_foot ++ (bootLinks_foot ++ bootReady_foot)))))
theorem actBootStep_within {F : Foot} (hF : actBootStep_foot ⊆ F) (r : BootResult) : Within F (actBootStep r : Act s₀ Unit) := by
  simp only [actBootStep_foot, List.append_subset] at hF
  obtain ⟨_, _, _, _, _, _, _⟩ := hF
  unfold actBootStep
  repeat' first
    | with_reducible
        first
        | intro _ | exact bootRom_within ‹_› .. | exact bootImage_within ‹_› .. | exact bootFirmware_within ‹_› ..
        | exact bootEdges_within ‹_› .. | exact bootStacksAndTiles_within ‹_› .. | exact bootLinks_within ‹_› ..
        | exact bootReady_within ‹_› .. | exact within_pure _ | exact within_ask _
        | refine within_bind ?_ fun _ => ?_ | refine within_ite ?_ ?_ | split | dsimp only

def hookFuseProg_foot : Foot := [.fld FUSE_STATUS_VPP_OK, .fld FUSE_STATUS_RESULT, .fld FUSE_PROG_GO, .fld FUSE_STATUS_BUSY] ++ (discardRecorded_foot ++ changeBoot_foot)
theorem hookFuseProg_within {F : Foot} (hF : hookFuseProg_foot ⊆ F) {w : RegWrite} (hw : F.free w.addr) : Within F (hookFuseProg w : Act s₀ Unit) := by
  simp only [hookFuseProg_foot, List.append_subset, List.cons_subset, List.nil_subset, and_true, and_assoc] at hF
  obtain ⟨_, _, _, _, _, _⟩ := hF
  unfold hookFuseProg
  repeat' first
    | with_reducible
        first
        | intro _ | exact discardRecorded_within ‹_› .. | exact changeBoot_within ‹_› .. | exact within_pure _
        | exact within_now | exact within_freeIndex | exact within_setF _ _ _ _ ‹_› | exact within_raise _ _ _ ‹_›
        | exact within_emitReg _ _ _ _ ‹_› | exact within_emitAddr _ _ ‹_› | exact within_emitFree _ _ ‹_›
        | refine within_bind ?_ fun _ => ?_ | refine within_ite ?_ ?_ | split | dsimp only

def writeFuseProg_foot : Foot := [.fld FUSE_STATUS_RESULT, .reg FUSE_PROG_GO] ++ (checkedWrite_foot ++ hookFuseProg_foot)
theorem writeFuseProg_within {F : Foot} (hF : writeFuseProg_foot ⊆ F) (p : Nat) (v : Word) : Within F (writeFuseProg p v : Act s₀ Unit) := by
  simp only [writeFuseProg_foot, List.append_subset, List.cons_subset, List.nil_subset, and_true, and_assoc] at hF
  obtain ⟨_, _, _, _⟩ := hF
  unfold writeFuseProg
  repeat' first
    | with_reducible
        first
        | intro _ | exact hookFuseProg_within ‹_› ‹_› .. | exact within_pure _ | exact within_now
        | exact within_setF _ _ _ _ ‹_› | refine within_bind ?_ fun _ => ?_ | refine within_ite ?_ ?_
        | refine checkedWrite_within ‹_› _ _ _ _ fun w hw => ?_ | split | dsimp only
    | exact hookFuseProg_within ‹_› (free_ofField ‹_› hw)

def closeSketch_foot : Foot := [.fld DBG_CTL_EN, .fld DBG_STATUS_ACTIVE]
theorem closeSketch_within {F : Foot} (hF : closeSketch_foot ⊆ F) : Within F (closeSketch : Act s₀ Unit) := by
  simp only [closeSketch_foot, List.cons_subset, List.nil_subset, and_true] at hF
  obtain ⟨_, _⟩ := hF
  unfold closeSketch
  repeat' first
    | with_reducible
        first
        | intro _ | exact within_pure _ | exact within_setF _ _ _ _ ‹_› | refine within_bind ?_ fun _ => ?_ | split
        | dsimp only

def endFuse_foot : Foot := [.fld FUSE_STATUS_RESULT, .fld FUSE_STATUS_BUSY, .fld FUSE_PROG_GO]
theorem endFuse_within {F : Foot} (hF : endFuse_foot ⊆ F) (result : Nat) : Within F (endFuse result : Act s₀ Unit) := by
  simp only [endFuse_foot, List.cons_subset, List.nil_subset, and_true] at hF
  obtain ⟨_, _, _⟩ := hF
  unfold endFuse
  repeat' first
    | with_reducible
        first
        | intro _ | exact within_pure _ | exact within_setF _ _ _ _ ‹_› | refine within_bind ?_ fun _ => ?_ | split
        | dsimp only

def actFusePulseDone_foot : Foot := [.fuses] ++ (senseFuse_foot ++ (endFuse_foot ++ (closeSketch_foot ++ changeBoot_foot)))
theorem actFusePulseDone_within {F : Foot} (hF : actFusePulseDone_foot ⊆ F) (marginOk : Bool) : Within F (actFusePulseDone marginOk : Act s₀ Unit) := by
  simp only [actFusePulseDone_foot, List.append_subset, List.cons_subset, List.nil_subset, and_true] at hF
  obtain ⟨_, _, _, _, _⟩ := hF
  unfold actFusePulseDone
  repeat' first
    | with_reducible
        first
        | intro _ | exact senseFuse_within ‹_› .. | exact endFuse_within ‹_› .. | exact closeSketch_within ‹_› ..
        | exact changeBoot_within ‹_› .. | exact within_pure _ | exact within_now | exact within_freeIndex
        | exact within_emit_blow ‹_› .. | refine within_bind ?_ fun _ => ?_ | refine within_ite ?_ ?_ | split
        | dsimp only

def hookDbgCtl_foot : Foot := [.fld DBG_STATUS_RESULT, .fld DBG_STATUS_ACTIVE] ++ (closeSketch_foot ++ recordLocked_foot)
theorem hookDbgCtl_within {F : Foot} (hF : hookDbgCtl_foot ⊆ F) {w : RegWrite} (hw : F.free w.addr) : Within F (hookDbgCtl w : Act s₀ Unit) := by
  simp only [hookDbgCtl_foot, List.append_subset, List.cons_subset, List.nil_subset, and_true, and_assoc] at hF
  obtain ⟨_, _, _, _⟩ := hF
  unfold hookDbgCtl
  repeat' first
    | with_reducible
        first
        | intro _ | exact plainHook_within ‹_› .. | exact closeSketch_within ‹_› ..
        | exact recordLocked_within ‹_› .. | exact within_pure _ | exact within_now | exact within_setF _ _ _ _ ‹_›
        | exact within_raise _ _ _ ‹_› | exact within_emitReg _ _ _ _ ‹_› | exact within_emitAddr _ _ ‹_›
        | exact within_emitFree _ _ ‹_› | refine within_bind ?_ fun _ => ?_ | refine within_ite ?_ ?_ | split
        | dsimp only

def actSketchSample_foot : Foot := [.fld DBG_STATUS_LOST] ++ send_foot
theorem actSketchSample_within {F : Foot} (hF : actSketchSample_foot ⊆ F) : Within F (actSketchSample : Act s₀ Unit) := by
  simp only [actSketchSample_foot, List.append_subset, List.cons_subset, List.nil_subset, and_true] at hF
  obtain ⟨_, _⟩ := hF
  unfold actSketchSample
  repeat' first
    | with_reducible
        first
        | intro _ | exact send_within ‹_› .. | exact within_pure _ | exact within_now | exact within_freeIndex
        | exact within_countUp _ _ _ _ ‹_› | refine within_bind ?_ fun _ => ?_ | refine within_ite ?_ ?_ | split
        | dsimp only

def actBankRefresh_foot : Foot := [.fld HBM_ODECC_COUNT, .fld HBM_STATUS_TEMP, .fld HBM_STATUS_REFRESH_X2]
theorem actBankRefresh_within {F : Foot} (hF : actBankRefresh_foot ⊆ F) (n temp : Nat) : Within F (actBankRefresh n temp : Act s₀ Unit) := by
  simp only [actBankRefresh_foot, List.cons_subset, List.nil_subset, and_true] at hF
  obtain ⟨_, _, _⟩ := hF
  unfold actBankRefresh
  repeat' first
    | with_reducible
        first
        | intro _ | exact within_pure _ | exact within_fld _ _ _ | exact within_freeIndex
        | exact within_setF _ _ _ _ ‹_› | exact within_countUp _ _ _ _ ‹_› | refine within_bind ?_ fun _ => ?_
        | refine within_ite ?_ ?_ | split | dsimp only

end Sys2Proof.Machine
end

