-- ==== Sys2Proof/Laws/FootIssue.lean ====
section
/-! SUPPORT. The footprints of the actions of Issue. -/

namespace Sys2Proof.Machine

variable {s₀ : State}

def noteTurn_foot : Foot := changeRings_foot
theorem noteTurn_within {F : Foot} (hF : noteTurn_foot ⊆ F) (target r : Nat) : Within F (noteTurn target r : Act s₀ Unit) := by
  simp only [noteTurn_foot] at hF
  unfold noteTurn
  repeat' first
    | with_reducible
        first
        | intro _ | exact changeRings_within ‹_› .. | exact within_pure _ | refine within_bind ?_ fun _ => ?_ | split
        | dsimp only

def noteSegment_foot : Foot := [.fld RING_STATE_CURSOR] ++ changeRings_foot
theorem noteSegment_within {F : Foot} (hF : noteSegment_foot ⊆ F) (r pos : Nat) (starts : Bool) : Within F (noteSegment r pos starts : Act s₀ Unit) := by
  simp only [noteSegment_foot, List.append_subset, List.cons_subset, List.nil_subset, and_true] at hF
  obtain ⟨_, _⟩ := hF
  unfold noteSegment
  repeat' first
    | with_reducible
        first
        | intro _ | exact changeRings_within ‹_› .. | exact within_pure _ | exact within_now
        | exact within_setF _ _ _ _ ‹_› | refine within_bind ?_ fun _ => ?_ | refine within_ite ?_ ?_ | split
        | dsimp only

def actDescriptorDeliver_foot : Foot := noteTurn_foot ++ (noteSegment_foot ++ (changeRings_foot ++ (withSlot_foot ++ (completeWith_foot ++ (armStamps_foot ++ (settleWaits_foot ++ (settleFences_foot ++ (wakeOnWork_foot ++ (settleWalk_foot ++ settleSched_foot)))))))))
theorem actDescriptorDeliver_within {F : Foot} (hF : actDescriptorDeliver_foot ⊆ F) (r : Nat) : Within F (actDescriptorDeliver r : Act s₀ Unit) := by
  simp only [actDescriptorDeliver_foot, List.append_subset] at hF
  obtain ⟨_, _, _, _, _, _, _, _, _, _, _⟩ := hF
  unfold actDescriptorDeliver
  repeat' first
    | with_reducible
        first
        | intro _ | exact noteTurn_within ‹_› .. | exact noteSegment_within ‹_› .. | exact changeRings_within ‹_› ..
        | exact withSlot_within ‹_› .. | exact completeWith_within ‹_› .. | exact armStamps_within ‹_› ..
        | exact settleWaits_within ‹_› .. | exact settleFences_within ‹_› .. | exact wakeOnWork_within ‹_› ..
        | exact settleWalk_within ‹_› .. | exact settleSched_within ‹_› .. | exact within_pure _ | exact within_now
        | refine within_bind ?_ fun _ => ?_ | refine within_ite ?_ ?_ | split | dsimp only

def prepare_foot : Foot := prepTensor_foot ++ (prepMx_foot ++ (prepStroke_foot ++ (prepNorm_foot ++ (prepSoftmax_foot ++ (prepFabSend_foot ++ (prepDispatch_foot ++ (prepCombine_foot ++ (prepGroupSet_foot ++ (prepColl_foot ++ (prepVarUpdate_foot ++ (prepVarPush_foot ++ (prepVarProgram_foot ++ prepFixRestore_foot))))))))))))
theorem prepare_within {F : Foot} (hF : prepare_foot ⊆ F) (e : Engine) (w : Descriptor) : WithinP F (prepare e w : Prep s₀ (List Nat)) := by
  simp only [prepare_foot, List.append_subset] at hF
  obtain ⟨_, _, _, _, _, _, _, _, _, _, _, _, _, _⟩ := hF
  unfold prepare
  repeat' first
    | with_reducible
        first
        | intro _ | exact prepPal_within .. | exact prepTensor_within ‹_› .. | exact prepMx_within ‹_› ..
        | exact prepStroke_within ‹_› .. | exact prepNorm_within ‹_› .. | exact prepSoftmax_within ‹_› ..
        | exact prepPmcWindow_within .. | exact prepFabSend_within ‹_› .. | exact prepDispatch_within ‹_› ..
        | exact prepCombine_within ‹_› .. | exact prepGroupSet_within ‹_› .. | exact prepColl_within ‹_› ..
        | exact prepVarUpdate_within ‹_› .. | exact prepVarPush_within ‹_› .. | exact prepVarState_within ..
        | exact prepVarProgram_within ‹_› .. | exact prepFixSnapshot_within .. | exact prepFixRestore_within ‹_› ..
        | exact prepPwrDomain_within .. | exact within_pure _ | exact withinW_pure _ | exact withinW_get
        | exact withinW_set _ | exact withinW_modify _ | exact withinW_modifyGet _ | exact withinP_pure _
        | exact withinP_failure | refine within_bind ?_ fun _ => ?_ | refine withinW_doing ?_
        | refine withinW_bind ?_ fun _ => ?_ | refine withinW_forIn _ _ _ fun _ _ => ?_ | refine withinW_map _ ?_
        | refine withinP_lift ?_ | refine withinP_bind ?_ fun _ => ?_ | refine withinP_forIn _ _ _ fun _ _ => ?_
        | refine withinP_map _ ?_ | split | dsimp only

def rngCheck_foot : Foot := [.fld RISK_RNG_CHECK_ARMED, .fld RISK_EVENT_RNG_SKEW] ++ riskEvent_foot
theorem rngCheck_within {F : Foot} (hF : rngCheck_foot ⊆ F) (d : Slot) : Within F (rngCheck d : Act s₀ (Option (Status × Nat))) := by
  simp only [rngCheck_foot, List.append_subset, List.cons_subset, List.nil_subset, and_true, and_assoc] at hF
  obtain ⟨_, _, _⟩ := hF
  unfold rngCheck
  repeat' first
    | with_reducible
        first
        | intro _ | exact riskEvent_within ‹_› _ ‹_› | exact within_pure _ | exact within_now
        | exact within_setF _ _ _ _ ‹_› | refine within_bind ?_ fun _ => ?_ | refine within_ite ?_ ?_ | split
        | dsimp only

def noteIssue_foot : Foot := [.fld SEQ_LAST_ISSUE_OPCODE, .fld SEQ_LAST_ISSUE_RING, .fld SEQ_LAST_ISSUE_POSITION] ++ (withSlot_foot ++ launch_foot)
theorem noteIssue_within {F : Foot} (hF : noteIssue_foot ⊆ F) (d : Slot) : Within F (noteIssue d : Act s₀ Unit) := by
  simp only [noteIssue_foot, List.append_subset, List.cons_subset, List.nil_subset, and_true, and_assoc] at hF
  obtain ⟨_, _, _, _, _⟩ := hF
  unfold noteIssue
  repeat' first
    | with_reducible
        first
        | intro _ | exact withSlot_within ‹_› .. | exact launch_within ‹_› .. | exact within_pure _
        | exact within_now | exact within_setF _ _ _ _ ‹_› | refine within_bind ?_ fun _ => ?_
        | refine within_ite ?_ ?_ | split | dsimp only

def failIssue_foot : Foot := finish_foot ++ (parkAfter_foot ++ completeSlot_foot)
theorem failIssue_within {F : Foot} (hF : failIssue_foot ⊆ F) (e : Engine) (id : Nat) : Within F (failIssue e id : Act s₀ Unit) := by
  simp only [failIssue_foot, List.append_subset] at hF
  obtain ⟨_, _, _⟩ := hF
  unfold failIssue
  repeat' first
    | with_reducible
        first
        | intro _ | exact finish_within ‹_› .. | exact parkAfter_within ‹_› .. | exact completeSlot_within ‹_› ..
        | exact within_pure _ | refine within_bind ?_ fun _ => ?_ | split | dsimp only

def yieldBallast_foot : Foot := standBallast_foot ++ changePlant_foot
theorem yieldBallast_within {F : Foot} (hF : yieldBallast_foot ⊆ F) (e : Engine) (d : Slot) : Within F (yieldBallast e d : Act s₀ Unit) := by
  simp only [yieldBallast_foot, List.append_subset] at hF
  obtain ⟨_, _⟩ := hF
  unfold yieldBallast
  repeat' first
    | with_reducible
        first
        | intro _ | exact standBallast_within ‹_› .. | exact changePlant_within ‹_› .. | exact within_pure _
        | refine within_bind ?_ fun _ => ?_ | refine within_ite ?_ ?_ | split | dsimp only

def issueOn_foot : Foot := noteIssue_foot ++ (yieldBallast_foot ++ (withSlot_foot ++ (fitEngine_foot ++ (tally_foot ++ (rngCheck_foot ++ (failIssue_foot ++ (runFor_foot ++ prepare_foot)))))))
theorem issueOn_within {F : Foot} (hF : issueOn_foot ⊆ F) (e : Engine) (d : Slot) : Within F (issueOn e d : Act s₀ Unit) := by
  simp only [issueOn_foot, List.append_subset] at hF
  obtain ⟨_, _, _, _, _, _, _, _, _⟩ := hF
  unfold issueOn
  repeat' first
    | with_reducible
        first
        | intro _ | exact noteIssue_within ‹_› .. | exact yieldBallast_within ‹_› .. | exact withSlot_within ‹_› ..
        | exact fitEngine_within ‹_› .. | exact tally_within ‹_› .. | exact rngCheck_within ‹_› ..
        | exact failIssue_within ‹_› .. | exact prepare_within ‹_› .. | exact sound_within .. | exact within_pure _
        | exact within_ask _ | refine within_bind ?_ fun _ => ?_ | refine within_ite ?_ ?_
        | refine withinP_seqLeft ?_ ?_ | refine runFor_within ‹_› _ _ ?_ | exact withinW_pure _ | exact withinW_get
        | refine withinW_doing ?_ | refine withinW_bind ?_ fun _ => ?_ | refine withinW_map _ ?_
        | refine withinP_run ?_ | exact withinP_pure _ | refine withinP_lift ?_ | refine withinP_bind ?_ fun _ => ?_
        | split | dsimp only

def actDescriptorIssue_foot : Foot := issueOn_foot
theorem actDescriptorIssue_within {F : Foot} (hF : actDescriptorIssue_foot ⊆ F) (e : Engine) : Within F (actDescriptorIssue e : Act s₀ Unit) := by
  simp only [actDescriptorIssue_foot] at hF
  unfold actDescriptorIssue
  repeat' first
    | with_reducible
        first
        | intro _ | exact issueOn_within ‹_› .. | exact within_pure _ | exact within_now
        | refine within_bind ?_ fun _ => ?_ | split | dsimp only

def selfExec_foot : Foot := noteIssue_foot ++ (rngCheck_foot ++ (completeWith_foot ++ (runFor_foot ++ finish_foot)))
theorem selfExec_within {F : Foot} (hF : selfExec_foot ⊆ F) (id op : Nat) {effect : Slot → Prep s₀ Unit} (he : ∀ d, WithinP F (effect d)) : Within F (selfExec id op effect : Act s₀ Unit) := by
  simp only [selfExec_foot, List.append_subset] at hF
  obtain ⟨_, _, _, _, _⟩ := hF
  unfold selfExec
  repeat' first
    | with_reducible
        first
        | intro _ | exact noteIssue_within ‹_› .. | exact rngCheck_within ‹_› .. | exact completeWith_within ‹_› ..
        | exact finish_within ‹_› .. | exact within_pure _ | exact within_now | refine within_bind ?_ fun _ => ?_
        | refine within_ite ?_ ?_ | refine runFor_within ‹_› _ _ ?_ | exact withinW_pure _ | exact withinW_get
        | refine withinW_doing ?_ | refine withinW_bind ?_ fun _ => ?_ | refine withinW_map _ ?_
        | refine withinP_run ?_ | exact withinP_pure _ | refine withinP_lift ?_ | refine withinP_bind ?_ fun _ => ?_
        | split | dsimp only
    | exact he _

def actStreamSet_foot : Foot := selfExec_foot ++ completeSlot_foot
theorem actStreamSet_within {F : Foot} (hF : actStreamSet_foot ⊆ F) (id : Nat) : Within F (actStreamSet id : Act s₀ Unit) := by
  simp only [actStreamSet_foot, List.append_subset] at hF
  obtain ⟨_, _⟩ := hF
  unfold actStreamSet
  repeat' first
    | with_reducible
        first
        | intro _ | exact demand_within .. | exact sound_within .. | exact completeSlot_within ‹_› ..
        | exact within_pure _ | exact within_now | refine within_bind ?_ fun _ => ?_ | refine within_ite ?_ ?_
        | refine withinP_seqRight ?_ ?_ | refine selfExec_within ‹_› _ _ fun _ => ?_ | exact withinW_pure _
        | exact withinW_get | refine withinW_doing ?_ | refine withinW_bind ?_ fun _ => ?_ | refine withinW_map _ ?_
        | refine withinP_run ?_ | exact withinP_pure _ | refine withinP_lift ?_ | refine withinP_bind ?_ fun _ => ?_
        | split | dsimp only

def counterAddWork_foot : Foot := acAdd_foot
theorem counterAddWork_within {F : Foot} (hF : counterAddWork_foot ⊆ F) (d : Slot) : WithinP F (counterAddWork d : Prep s₀ Unit) := by
  simp only [counterAddWork_foot] at hF
  unfold counterAddWork
  repeat' first
    | with_reducible
        first
        | intro _ | exact demand_within .. | exact permit_within .. | exact sound_within ..
        | exact acAdd_within ‹_› .. | exact within_pure _ | exact within_now | exact withinW_pure _
        | exact withinW_get | exact withinW_set _ | exact withinW_modify _ | exact withinW_modifyGet _
        | exact withinP_pure _ | exact withinP_failure | refine within_bind ?_ fun _ => ?_ | refine withinW_doing ?_
        | refine withinW_bind ?_ fun _ => ?_ | refine withinW_forIn _ _ _ fun _ _ => ?_ | refine withinW_map _ ?_
        | refine withinP_lift ?_ | refine withinP_bind ?_ fun _ => ?_ | refine withinP_forIn _ _ _ fun _ _ => ?_
        | refine withinP_map _ ?_ | split | dsimp only

def hostWriteWork_foot : Foot := send_foot
theorem hostWriteWork_within {F : Foot} (hF : hostWriteWork_foot ⊆ F) (d : Slot) : WithinP F (hostWriteWork d : Prep s₀ Unit) := by
  simp only [hostWriteWork_foot] at hF
  unfold hostWriteWork
  repeat' first
    | with_reducible
        first
        | intro _ | exact demand_within .. | exact permit_within .. | exact sound_within ..
        | exact send_within ‹_› .. | exact within_pure _ | exact within_now | exact withinW_pure _
        | exact withinW_get | exact withinW_set _ | exact withinW_modify _ | exact withinW_modifyGet _
        | exact withinP_pure _ | exact withinP_failure | refine within_bind ?_ fun _ => ?_ | refine withinW_doing ?_
        | refine withinW_bind ?_ fun _ => ?_ | refine withinW_forIn _ _ _ fun _ _ => ?_ | refine withinW_map _ ?_
        | refine withinP_lift ?_ | refine withinP_bind ?_ fun _ => ?_ | refine withinP_forIn _ _ _ fun _ _ => ?_
        | refine withinP_map _ ?_ | split | dsimp only

def settleUpdate_foot : Foot := changeVar_foot ++ updateBoundary_foot
theorem settleUpdate_within {F : Foot} (hF : settleUpdate_foot ⊆ F) (d : Slot) : Within F (settleUpdate d : Act s₀ Unit) := by
  simp only [settleUpdate_foot, List.append_subset] at hF
  obtain ⟨_, _⟩ := hF
  unfold settleUpdate
  repeat' first
    | with_reducible
        first
        | intro _ | exact changeVar_within ‹_› .. | exact updateBoundary_within ‹_› .. | exact within_pure _
        | exact within_now | refine within_bind ?_ fun _ => ?_ | refine within_ite ?_ ?_ | split | dsimp only

def actDescriptorComplete_foot : Foot := completeSlot_foot ++ (settleUpdate_foot ++ (settlePower_foot ++ resumeBallast_foot))
theorem actDescriptorComplete_within {F : Foot} (hF : actDescriptorComplete_foot ⊆ F) (id : Nat) : Within F (actDescriptorComplete id : Act s₀ Unit) := by
  simp only [actDescriptorComplete_foot, List.append_subset] at hF
  obtain ⟨_, _, _, _⟩ := hF
  unfold actDescriptorComplete
  repeat' first
    | with_reducible
        first
        | intro _ | exact completeSlot_within ‹_› .. | exact settleUpdate_within ‹_› ..
        | exact settlePower_within ‹_› .. | exact resumeBallast_within ‹_› .. | exact within_pure _
        | exact within_now | refine within_bind ?_ fun _ => ?_ | refine within_ite ?_ ?_ | split | dsimp only

def actFenceHostReadReturn_foot : Foot := answered_foot ++ withSlot_foot
theorem actFenceHostReadReturn_within {F : Foot} (hF : actFenceHostReadReturn_foot ⊆ F) (id : Nat) : Within F (actFenceHostReadReturn id : Act s₀ Unit) := by
  simp only [actFenceHostReadReturn_foot, List.append_subset] at hF
  obtain ⟨_, _⟩ := hF
  unfold actFenceHostReadReturn
  repeat' first
    | with_reducible
        first
        | intro _ | exact answered_within ‹_› .. | exact withSlot_within ‹_› .. | exact within_pure _
        | exact within_now | refine within_bind ?_ fun _ => ?_ | refine within_ite ?_ ?_ | split | dsimp only

end Sys2Proof.Machine
end

