-- ==== Sys2Proof/Laws/FootStalls.lean ====
section
/-! SUPPORT. The footprints of the actions of Stalls. -/

namespace Sys2Proof.Machine

variable {s₀ : State}

def reportStall_foot : Foot := [.fld MX_STALL_LOG_VALID, .fld MX_STALL_LOG_OVERRUN, .fld MX_STALL_LOG_CAUSE, .fld MX_STALL_LOG_START, .fld VE_STALL_LOG_VALID, .fld VE_STALL_LOG_OVERRUN, .fld VE_STALL_LOG_CAUSE, .fld VE_STALL_LOG_START, .fld VAR_STALL_LOG_VALID, .fld VAR_STALL_LOG_OVERRUN, .fld VAR_STALL_LOG_CAUSE, .fld VAR_STALL_LOG_START] ++ (withSlot_foot ++ queueRecord_foot)
theorem reportStall_within {F : Foot} (hF : reportStall_foot ⊆ F) (u : StallUnit) (d : Slot) (cause : Nat) : Within F (reportStall u d cause : Act s₀ Unit) := by
  simp only [reportStall_foot, List.append_subset, List.cons_subset, List.nil_subset, and_true, and_assoc] at hF
  obtain ⟨_, _, _, _, _, _, _, _, _, _, _, _, _, _⟩ := hF
  unfold reportStall
  repeat' first
    | with_reducible
        first
        | intro _ | exact withSlot_within ‹_› .. | exact queueRecord_within ‹_› .. | exact within_pure _
        | exact within_now | exact within_setF _ _ _ _ ‹_› | refine within_bind ?_ fun _ => ?_
        | refine within_logFirst _ _ _ _ ‹_› ‹_› ?_ | split | dsimp only
    | exact within_logFirst _ _ _ _ (by cases u <;> assumption) (by cases u <;> assumption) (within_bind (within_setF _ _ _ _ (by cases u <;> assumption)) fun _ => within_setF _ _ _ _ (by cases u <;> assumption))

def actStallReport_foot : Foot := reportStall_foot
theorem actStallReport_within {F : Foot} (hF : actStallReport_foot ⊆ F) (u : StallUnit) (cause : Nat) : Within F (actStallReport u cause : Act s₀ Unit) := by
  simp only [actStallReport_foot] at hF
  unfold actStallReport
  repeat' first
    | with_reducible
        first
        | intro _ | exact reportStall_within ‹_› .. | exact within_pure _ | exact within_now
        | refine within_bind ?_ fun _ => ?_ | refine within_ite ?_ ?_ | split | dsimp only

def leaveExchange_foot : Foot := changeVar_foot ++ changeFab_foot
theorem leaveExchange_within {F : Foot} (hF : leaveExchange_foot ⊆ F) (id : Nat) : Within F (leaveExchange id : Act s₀ Unit) := by
  simp only [leaveExchange_foot, List.append_subset] at hF
  obtain ⟨_, _⟩ := hF
  unfold leaveExchange
  repeat' first
    | with_reducible
        first
        | intro _ | exact changeVar_within ‹_› .. | exact changeFab_within ‹_› .. | exact within_pure _
        | exact within_now | refine within_bind ?_ fun _ => ?_ | refine within_ite ?_ ?_ | split | dsimp only

def abortUpdate_foot : Foot := withSlot_foot ++ (withVarRun_foot ++ (leaveExchange_foot ++ endVarRun_foot))
theorem abortUpdate_within {F : Foot} (hF : abortUpdate_foot ⊆ F) (n : DieNo) (id : Nat) : Within F (abortUpdate n id : Act s₀ Unit) := by
  simp only [abortUpdate_foot, List.append_subset] at hF
  obtain ⟨_, _, _, _⟩ := hF
  unfold abortUpdate
  repeat' first
    | with_reducible
        first
        | intro _ | exact withSlot_within ‹_› .. | exact withVarRun_within ‹_› .. | exact leaveExchange_within ‹_› ..
        | exact endVarRun_within ‹_› .. | exact within_pure _ | exact within_now | refine within_bind ?_ fun _ => ?_
        | refine within_ite ?_ ?_ | split | dsimp only

def stalledWaves_foot : Foot := runFor_foot ++ (normWork_foot ++ softmaxWork_foot)
theorem stalledWaves_within {F : Foot} (hF : stalledWaves_foot ⊆ F) (t : TileNo) (d : Slot) : Within F (stalledWaves t d : Act s₀ Unit) := by
  simp only [stalledWaves_foot, List.append_subset] at hF
  obtain ⟨_, _, _⟩ := hF
  unfold stalledWaves
  repeat' first
    | with_reducible
        first
        | intro _ | exact normWork_within ‹_› .. | exact softmaxWork_within ‹_› .. | exact within_pure _
        | exact within_freeIndex | exact withinW_modify _ | refine within_bind ?_ fun _ => ?_
        | refine within_ite ?_ ?_ | refine runFor_within ‹_› _ _ ?_ | exact withinW_pure _ | exact withinW_get
        | refine withinW_doing ?_ | refine withinW_bind ?_ fun _ => ?_ | refine withinW_map _ ?_
        | refine withinP_run ?_ | exact withinP_pure _ | refine withinP_lift ?_ | refine withinP_bind ?_ fun _ => ?_
        | split | dsimp only

def abortStalled_foot : Foot := abortHalf_foot ++ (parkAfter_foot ++ (endVeRun_foot ++ (stalledWaves_foot ++ (withSlot_foot ++ abortUpdate_foot))))
theorem abortStalled_within {F : Foot} (hF : abortStalled_foot ⊆ F) (d : Slot) : Within F (abortStalled d : Act s₀ Unit) := by
  simp only [abortStalled_foot, List.append_subset] at hF
  obtain ⟨_, _, _, _, _, _⟩ := hF
  unfold abortStalled
  repeat' first
    | with_reducible
        first
        | intro _ | exact abortHalf_within ‹_› .. | exact parkAfter_within ‹_› .. | exact endVeRun_within ‹_› ..
        | exact stalledWaves_within ‹_› .. | exact withSlot_within ‹_› .. | exact abortUpdate_within ‹_› ..
        | exact within_pure _ | refine within_bind ?_ fun _ => ?_ | refine within_ite ?_ ?_ | split | dsimp only

def actStallAbort_foot : Foot := reportStall_foot ++ abortStalled_foot
theorem actStallAbort_within {F : Foot} (hF : actStallAbort_foot ⊆ F) (u : StallUnit) : Within F (actStallAbort u : Act s₀ Unit) := by
  simp only [actStallAbort_foot, List.append_subset] at hF
  obtain ⟨_, _⟩ := hF
  unfold actStallAbort
  repeat' first
    | with_reducible
        first
        | intro _ | exact reportStall_within ‹_› .. | exact abortStalled_within ‹_› .. | exact within_pure _
        | exact within_now | exact within_freeIndex | refine within_bind ?_ fun _ => ?_ | refine within_ite ?_ ?_
        | split | dsimp only

def actQuiesceStallAbort_foot : Foot := abortStalled_foot
theorem actQuiesceStallAbort_within {F : Foot} (hF : actQuiesceStallAbort_foot ⊆ F) (id : Nat) : Within F (actQuiesceStallAbort id : Act s₀ Unit) := by
  simp only [actQuiesceStallAbort_foot] at hF
  unfold actQuiesceStallAbort
  repeat' first
    | with_reducible
        first
        | intro _ | exact abortStalled_within ‹_› .. | exact within_pure _ | exact within_now
        | refine within_bind ?_ fun _ => ?_ | refine within_ite ?_ ?_ | split | dsimp only

end Sys2Proof.Machine
end

