-- ==== Sys2Proof/Laws/FootHostAccess.lean ====
section
/-! SUPPORT. The footprints of the actions of HostAccess. -/

namespace Sys2Proof.Machine

variable {s₀ : State}

def hookRiskCtl_foot : Foot := [.fld MX_CTL_TREE_EN]
theorem hookRiskCtl_within {F : Foot} (hF : hookRiskCtl_foot ⊆ F) {w : RegWrite} (hw : F.free w.addr) : Within F (hookRiskCtl w : Act s₀ Unit) := by
  simp only [hookRiskCtl_foot, List.cons_subset, List.nil_subset, and_true] at hF
  unfold hookRiskCtl
  repeat' first
    | with_reducible
        first
        | intro _ | exact plainHook_within ‹_› .. | exact within_pure _ | exact within_now
        | exact within_setF _ _ _ _ ‹_› | exact within_emitFree _ _ ‹_› | refine within_bind ?_ fun _ => ?_
        | refine within_ite ?_ ?_ | refine within_each _ _ fun _ => ?_ | split | dsimp only

theorem hookRegion_within {F : Foot} {w : RegWrite} (hw : F.free w.addr) : Within F (hookRegion w : Act s₀ Unit) := by
  unfold hookRegion
  repeat' first
    | with_reducible
        first
        | intro _ | exact within_pure _ | exact within_emitReg _ _ _ _ ‹_› | exact within_emitAddr _ _ ‹_›
        | exact within_emitFree _ _ ‹_› | refine within_bind ?_ fun _ => ?_ | split | dsimp only

def hookRoute_foot : Foot := [.routes]
theorem hookRoute_within {F : Foot} (hF : hookRoute_foot ⊆ F) (w : RegWrite) : Within F (hookRoute w : Act s₀ Unit) := by
  simp only [hookRoute_foot, List.cons_subset, List.nil_subset, and_true] at hF
  unfold hookRoute
  repeat' first
    | with_reducible
        first
        | intro _ | exact within_pure _ | exact within_fld _ _ _ | exact within_emit_route ‹_› ..
        | refine within_bind ?_ fun _ => ?_ | split | dsimp only

def tileHook_foot : Foot := hookSplit_foot ++ (hookPark_foot ++ (hookAcAdd_foot ++ (hookAc_foot ++ (hookFreeze_foot ++ (hookSbufCtl_foot ++ hookSelect_foot)))))
theorem tileHook_within {F : Foot} (hF : tileHook_foot ⊆ F) {w : RegWrite} (hw : F.free w.addr) : Within F (tileHook w : Act s₀ Unit) := by
  simp only [tileHook_foot, List.append_subset] at hF
  obtain ⟨_, _, _, _, _, _, _⟩ := hF
  unfold tileHook
  repeat' first
    | with_reducible
        first
        | intro _ | exact hookSplit_within ‹_› ‹_› .. | exact hookPark_within ‹_› .. | exact plainHook_within ‹_› ..
        | exact hookSets_within ‹_› .. | exact hookAcAdd_within ‹_› ‹_› .. | exact hookAc_within ‹_› ‹_› ..
        | exact hookFreeze_within ‹_› ‹_› .. | exact hookSbufCtl_within ‹_› ‹_› ..
        | exact hookSelect_within ‹_› ‹_› .. | exact within_pure _ | exact within_emitFree _ _ ‹_›
        | refine within_bind ?_ fun _ => ?_ | refine within_ite ?_ ?_ | split | dsimp only

def ringHook_foot : Foot := hookSched_foot ++ (hookRingCfg_foot ++ (hookRingCtl_foot ++ hookRetired_foot))
theorem ringHook_within {F : Foot} (hF : ringHook_foot ⊆ F) {w : RegWrite} (hw : F.free w.addr) : Within F (ringHook w : Act s₀ Unit) := by
  simp only [ringHook_foot, List.append_subset] at hF
  obtain ⟨_, _, _, _⟩ := hF
  unfold ringHook
  repeat' first
    | with_reducible
        first
        | intro _ | exact hookSched_within ‹_› ‹_› .. | exact plainHook_within ‹_› .. | exact hookGrpDb_within ‹_› ..
        | exact hookRingBase_within ‹_› .. | exact hookRingCfg_within ‹_› ‹_› .. | exact hookRingCtl_within ‹_› ..
        | exact hookRetired_within ‹_› ‹_› .. | exact hookWhileDisabled_within ‹_› .. | exact within_pure _
        | exact within_emitFree _ _ ‹_› | refine within_bind ?_ fun _ => ?_ | refine within_ite ?_ ?_ | split
        | dsimp only

def atlHook_foot : Foot := hookAtlOwner_foot ++ (hookAtlCtl_foot ++ (hookAtlTiles_foot ++ (hookAtlDies_foot ++ (hookAtlRings_foot ++ (hookAtlTxn_foot ++ (hookAtlHbm_foot ++ (hookAtlMgmt_foot ++ (hookAdopt_foot ++ (hookDissolve_foot ++ hookShare_foot)))))))))
theorem atlHook_within {F : Foot} (hF : atlHook_foot ⊆ F) {w : RegWrite} (hw : F.free w.addr) : Within F (atlHook w : Act s₀ Unit) := by
  simp only [atlHook_foot, List.append_subset] at hF
  obtain ⟨_, _, _, _, _, _, _, _, _, _, _⟩ := hF
  unfold atlHook
  repeat' first
    | with_reducible
        first
        | intro _ | exact hookAtlOwner_within ‹_› ‹_› .. | exact hookAtlCtl_within ‹_› ..
        | exact hookAtlTiles_within ‹_› ‹_› .. | exact hookAtlDies_within ‹_› ‹_› ..
        | exact hookAtlRings_within ‹_› ‹_› .. | exact hookAtlTxn_within ‹_› ‹_› ..
        | exact hookAtlHbm_within ‹_› ‹_› .. | exact hookAtlMgmt_within ‹_› ‹_› ..
        | exact hookAdopt_within ‹_› ‹_› .. | exact hookDissolve_within ‹_› ‹_› ..
        | exact hookShare_within ‹_› ‹_› .. | exact plainHook_within ‹_› .. | exact within_pure _
        | exact within_emitFree _ _ ‹_› | refine within_bind ?_ fun _ => ?_ | refine within_ite ?_ ?_ | split
        | dsimp only

def moduleHook_foot : Foot := hookTbCtl_foot ++ (hookTbSync_foot ++ (hookPwrCtl_foot ++ (hookRail_foot ++ (hookDomCmd_foot ++ (hookPlantCtl_foot ++ (hookPlantSoc_foot ++ (hookRiskCtl_foot ++ (hookRiskLevels_foot ++ (hookImagePlace_foot ++ (hookDbgCtl_foot ++ (hookFuseProg_foot ++ (hookCmcReset_foot ++ (hookSelect_foot ++ (hookLinkCtl_foot ++ (hookCollId_foot ++ hookRoute_foot)))))))))))))))
theorem moduleHook_within {F : Foot} (hF : moduleHook_foot ⊆ F) {w : RegWrite} (hw : F.free w.addr) : Within F (moduleHook w : Act s₀ Unit) := by
  simp only [moduleHook_foot, List.append_subset] at hF
  obtain ⟨_, _, _, _, _, _, _, _, _, _, _, _, _, _, _, _, _⟩ := hF
  unfold moduleHook
  repeat' first
    | with_reducible
        first
        | intro _ | exact hookTbCtl_within ‹_› ‹_› .. | exact hookTbSync_within ‹_› ‹_› ..
        | exact plainHook_within ‹_› .. | exact hookPwrCtl_within ‹_› ‹_› .. | exact hookRail_within ‹_› ‹_› ..
        | exact hookDomCmd_within ‹_› ‹_› .. | exact hookPlantCtl_within ‹_› ‹_› ..
        | exact hookPlantSoc_within ‹_› ‹_› .. | exact hookRiskCtl_within ‹_› ‹_› ..
        | exact hookRiskLevels_within ‹_› ‹_› .. | exact hookRegion_within ‹_› ..
        | exact hookDbgCtl_within ‹_› ‹_› .. | exact hookFuseProg_within ‹_› ‹_› ..
        | exact hookCmcReset_within ‹_› ‹_› .. | exact hookSelect_within ‹_› ‹_› ..
        | exact hookLinkCtl_within ‹_› ‹_› .. | exact hookCollId_within ‹_› ‹_› .. | exact hookRoute_within ‹_› ..
        | exact within_pure _ | exact within_emitFree _ _ ‹_› | refine within_bind ?_ fun _ => ?_
        | refine within_ite ?_ ?_ | refine hookImagePlace_within ‹_› ?_ | exact withinW_pure _ | exact withinW_get
        | refine withinW_doing ?_ | refine withinW_bind ?_ fun _ => ?_ | refine withinW_map _ ?_
        | refine withinP_run ?_ | exact withinP_pure _ | refine withinP_lift ?_ | refine withinP_bind ?_ fun _ => ?_
        | split | dsimp only

def regHook_foot : Foot := tileHook_foot ++ (ringHook_foot ++ (atlHook_foot ++ moduleHook_foot))
theorem regHook_within {F : Foot} (hF : regHook_foot ⊆ F) {w : RegWrite} (hw : F.free w.addr) : Within F (regHook w : Act s₀ Unit) := by
  simp only [regHook_foot, List.append_subset] at hF
  obtain ⟨_, _, _, _⟩ := hF
  unfold regHook
  repeat' first
    | with_reducible
        first
        | intro _ | exact tileHook_within ‹_› ‹_› .. | exact ringHook_within ‹_› ‹_› ..
        | exact atlHook_within ‹_› ‹_› .. | exact moduleHook_within ‹_› ‹_› .. | exact within_pure _
        | exact within_emitFree _ _ ‹_› | refine within_bind ?_ fun _ => ?_ | split | dsimp only

def writeReg_foot : Foot := recordLocked_foot ++ (writeFuseProg_foot ++ (checkedWrite_foot ++ regHook_foot))
theorem writeReg_within {F : Foot} (hF : writeReg_foot ⊆ F) (p a : Nat) (v : Word) (ha : ∀ b i off, place a = .reg b i off → F.free (regAddr b i off)) : Within F (writeReg p a v : Act s₀ Unit) := by
  simp only [writeReg_foot, List.append_subset] at hF
  obtain ⟨_, _, _, _⟩ := hF
  unfold writeReg
  repeat' first
    | with_reducible
        first
        | intro _ | exact recordLocked_within ‹_› .. | exact writeFuseProg_within ‹_› ..
        | exact regHook_within ‹_› ‹_› .. | exact within_pure _ | exact within_now
        | refine within_bind ?_ fun _ => ?_ | refine within_ite ?_ ?_
        | refine checkedWrite_within ‹_› _ _ _ _ fun w hw => ?_ | split | dsimp only
    | exact regHook_within ‹_› (by obtain ⟨b, i, off, hp, h⟩ := hw; exact h ▸ ha b i off hp)

def writeRegs_foot : Foot := recordDenied_foot ++ (recordNarrow_foot ++ writeReg_foot)
theorem writeRegs_within {F : Foot} (hF : writeRegs_foot ⊆ F) (p a : Nat) (bs : List (List (Option Byte)))
    (ha : ∀ n < bs.length, ∀ b i off, place (a + 8 * n) = .reg b i off → F.free (regAddr b i off)) :
    Within F (writeRegs p a bs : Act s₀ Unit) := by
  induction bs generalizing a with
  | nil => exact within_pure _
  | cons x xs ih =>
    have h := hF
    simp only [writeRegs_foot, List.append_subset] at h
    obtain ⟨_, _, _⟩ := h
    have ih := ih (a + 8) fun n hn b i off h => ha (n + 1) (by simpa using hn) b i off (by rw [← h]; congr 1; omega)
    have h0 := ha 0 (by simp)
    simp only [Nat.mul_zero, Nat.add_zero] at h0
    unfold writeRegs
    repeat' first
      | with_reducible
          first
          | exact ih | intro _ | exact recordDenied_within ‹_› .. | exact recordNarrow_within ‹_› .. | exact within_now
          | exact writeReg_within ‹_› _ _ _ h0 | refine within_bind ?_ fun _ => ?_ | split | dsimp only

/-- A list is cut into no more eights than its limit. -/
theorem eights_length {α : Type} (n : Nat) (xs : List α) : (eights n xs).length ≤ n := by
  induction n generalizing xs with
  | zero => exact Nat.le_refl _
  | succ n ih =>
    unfold eights
    split
    · exact Nat.zero_le _
    · exact Nat.succ_le_succ (ih _)

def hostRegWrite_foot : Foot := recordDenied_foot ++ (writeRegs_foot ++ recordNarrow_foot)
theorem hostRegWrite_within {F : Foot} (hF : hostRegWrite_foot ⊆ F) (p a : Nat) (bs : List (Option Byte)) (ha : ∀ n < bs.length, ∀ b i off, place (a + 8 * n) = .reg b i off → F.free (regAddr b i off)) : Within F (hostRegWrite p a bs : Act s₀ Unit) := by
  simp only [hostRegWrite_foot, List.append_subset] at hF
  obtain ⟨_, _, _⟩ := hF
  unfold hostRegWrite
  repeat' first
    | with_reducible
        first
        | intro _ | exact recordDenied_within ‹_› .. | exact recordNarrow_within ‹_› .. | exact within_pure _
        | exact within_now | refine within_bind ?_ fun _ => ?_ | refine within_ite ?_ ?_
        | refine writeRegs_within ‹_› _ _ _ fun n hn => ha n (Nat.lt_of_lt_of_le hn (eights_length _ _))
        | exact withinW_pure _ | exact withinW_get | refine withinW_doing ?_ | refine withinW_bind ?_ fun _ => ?_
        | refine withinW_map _ ?_ | refine withinP_run ?_ | exact withinP_pure _ | refine withinP_lift ?_
        | refine withinP_bind ?_ fun _ => ?_ | split | dsimp only

def hostGranule_foot : Foot := presentStack_foot ++ writeGranule_foot
theorem hostGranule_within {F : Foot} (hF : hostGranule_foot ⊆ F) (p : HostNo) (a : Nat) (bs : List (Option Byte)) (g : Nat) : Within F (hostGranule p a bs g : Act s₀ Unit) := by
  simp only [hostGranule_foot, List.append_subset] at hF
  obtain ⟨_, _⟩ := hF
  unfold hostGranule
  repeat' first
    | with_reducible
        first
        | intro _ | exact presentStack_within ‹_› .. | exact writeGranule_within ‹_› .. | exact within_pure _
        | exact within_now | exact within_freeIndex | refine within_bind ?_ fun _ => ?_ | refine within_ite ?_ ?_
        | split | dsimp only

def hostMemWrite_foot : Foot := recordDenied_foot ++ hostGranule_foot
theorem hostMemWrite_within {F : Foot} (hF : hostMemWrite_foot ⊆ F) (p : HostNo) (a : Nat) (bs : List (Option Byte)) : Within F (hostMemWrite p a bs : Act s₀ Unit) := by
  simp only [hostMemWrite_foot, List.append_subset] at hF
  obtain ⟨_, _⟩ := hF
  unfold hostMemWrite
  repeat' first
    | with_reducible
        first
        | intro _ | exact recordDenied_within ‹_› .. | exact hostGranule_within ‹_› .. | exact within_pure _
        | exact within_now | refine within_bind ?_ fun _ => ?_ | refine within_ite ?_ ?_
        | refine within_each _ _ fun _ => ?_ | split | dsimp only

def readHostGranules_foot : Foot := readGranule_foot
theorem readHostGranules_within {F : Foot} (hF : readHostGranules_foot ⊆ F) : ∀ x0, Within F (readHostGranules x0 : Act s₀ (List Granule × Bool))
  | [] => by
    have hF0 := hF
    simp only [readHostGranules_foot] at hF
    unfold readHostGranules
    repeat' first
      | with_reducible
          first
          | exact readHostGranules_within hF0 _ | intro _ | exact readGranule_within ‹_› .. | exact within_pure _
          | exact within_now | refine within_bind ?_ fun _ => ?_ | refine within_ite ?_ ?_ | split | dsimp only
  | g :: gs => by
    have hF0 := hF
    simp only [readHostGranules_foot] at hF
    unfold readHostGranules
    repeat' first
      | with_reducible
          first
          | exact readHostGranules_within hF0 _ | intro _ | exact readGranule_within ‹_› .. | exact within_pure _
          | exact within_now | refine within_bind ?_ fun _ => ?_ | refine within_ite ?_ ?_ | split | dsimp only

def hostMemRead_foot : Foot := [.fld HOST_POISON_COUNT, .part .hbm] ++ (send_foot ++ (recordDenied_foot ++ readHostGranules_foot))
theorem hostMemRead_within {F : Foot} (hF : hostMemRead_foot ⊆ F) (p : HostNo) (a n : Nat) : Within F (hostMemRead p a n : Act s₀ Unit) := by
  simp only [hostMemRead_foot, List.append_subset, List.cons_subset, List.nil_subset, and_true, and_assoc] at hF
  obtain ⟨_, _, _, _, _⟩ := hF
  unfold hostMemRead
  repeat' first
    | with_reducible
        first
        | intro _ | exact send_within ‹_› .. | exact recordDenied_within ‹_› ..
        | exact readHostGranules_within ‹_› .. | exact within_pure _ | exact within_now
        | exact within_countUp _ _ _ _ ‹_› | refine within_bind ?_ fun _ => ?_ | refine within_ite ?_ ?_ | split
        | dsimp only
    | exact within_change _ fun u p => by cases p <;> first | exact .inl rfl | exact .inr ‹_› | (refine .inl ?_; simp only [Part.same]; repeat' split) <;> rfl

def actPprComplete_foot : Foot := [.part .hbm] ++ (presentStack_foot ++ hostMemRead_foot)
theorem actPprComplete_within {F : Foot} (hF : actPprComplete_foot ⊆ F) (n : Nat) : Within F (actPprComplete n : Act s₀ Unit) := by
  simp only [actPprComplete_foot, List.append_subset, List.cons_subset, List.nil_subset, and_true] at hF
  obtain ⟨_, _, _⟩ := hF
  unfold actPprComplete
  repeat' first
    | with_reducible
        first
        | intro _ | exact presentStack_within ‹_› .. | exact hostMemRead_within ‹_› .. | exact within_pure _
        | exact within_now | refine within_bind ?_ fun _ => ?_ | refine within_ite ?_ ?_
        | refine within_each _ _ fun _ => ?_ | split | dsimp only
    | exact within_change _ fun u p => by cases p <;> first | exact .inl rfl | exact .inr ‹_› | (refine .inl ?_; simp only [Part.same]; repeat' split) <;> rfl

def hostRegRead_foot : Foot := recordDenied_foot ++ send_foot
theorem hostRegRead_within {F : Foot} (hF : hostRegRead_foot ⊆ F) (p : HostNo) (a n : Nat) : Within F (hostRegRead p a n : Act s₀ Unit) := by
  simp only [hostRegRead_foot, List.append_subset] at hF
  obtain ⟨_, _⟩ := hF
  unfold hostRegRead
  repeat' first
    | with_reducible
        first
        | intro _ | exact recordDenied_within ‹_› .. | exact send_within ‹_› .. | exact within_pure _
        | exact within_now | exact within_freeIndex | refine within_bind ?_ fun _ => ?_ | refine within_ite ?_ ?_
        | split | dsimp only

def writeEntry_foot : Foot := setMsix_foot ++ sendVector_foot
theorem writeEntry_within {F : Foot} (hF : writeEntry_foot ⊆ F) (p v : Nat) (bs : List (Option Byte)) : Within F (writeEntry p v bs : Act s₀ Unit) := by
  simp only [writeEntry_foot, List.append_subset] at hF
  obtain ⟨_, _⟩ := hF
  unfold writeEntry
  repeat' first
    | with_reducible
        first
        | intro _ | exact setMsix_within ‹_› .. | exact sendVector_within ‹_› .. | exact within_pure _
        | exact within_ask _ | refine within_bind ?_ fun _ => ?_ | refine within_ite ?_ ?_ | split | dsimp only

def hostBar0Write_foot : Foot := writeEntry_foot
theorem hostBar0Write_within {F : Foot} (hF : hostBar0Write_foot ⊆ F) (p o : Nat) (bs : List (Option Byte)) : Within F (hostBar0Write p o bs : Act s₀ Unit) := by
  simp only [hostBar0Write_foot] at hF
  unfold hostBar0Write
  repeat' first
    | with_reducible
        first
        | intro _ | exact writeEntry_within ‹_› .. | exact within_pure _ | refine within_bind ?_ fun _ => ?_
        | refine within_ite ?_ ?_ | refine within_each _ _ fun _ => ?_ | split | dsimp only

def actHostWrite_foot : Foot := hostBar0Write_foot ++ (hostMemWrite_foot ++ hostRegWrite_foot)
theorem actHostWrite_within {F : Foot} (hF : actHostWrite_foot ⊆ F) (p : HostNo) (b : Bar) (a : Nat) (bs : List (Option Byte)) (ha : ∀ n < bs.length, ∀ b i off, place (a + 8 * n) = .reg b i off → F.free (regAddr b i off)) : Within F (actHostWrite p b a bs : Act s₀ Unit) := by
  simp only [actHostWrite_foot, List.append_subset] at hF
  obtain ⟨_, _, _⟩ := hF
  unfold actHostWrite
  repeat' first
    | with_reducible
        first
        | intro _ | exact hostBar0Write_within ‹_› .. | exact hostMemWrite_within ‹_› .. | exact within_pure _
        | exact within_now | refine within_bind ?_ fun _ => ?_ | refine within_ite ?_ ?_
        | refine hostRegWrite_within ‹_› _ _ _ ha | exact withinW_pure _ | exact withinW_get
        | refine withinW_doing ?_ | refine withinW_bind ?_ fun _ => ?_ | refine withinW_map _ ?_
        | refine withinP_run ?_ | exact withinP_pure _ | refine withinP_lift ?_ | refine withinP_bind ?_ fun _ => ?_
        | split | dsimp only

def actHostRead_foot : Foot := send_foot ++ (hostMemRead_foot ++ hostRegRead_foot)
theorem actHostRead_within {F : Foot} (hF : actHostRead_foot ⊆ F) (p : HostNo) (b : Bar) (a n : Nat) : Within F (actHostRead p b a n : Act s₀ Unit) := by
  simp only [actHostRead_foot, List.append_subset] at hF
  obtain ⟨_, _, _⟩ := hF
  unfold actHostRead
  repeat' first
    | with_reducible
        first
        | intro _ | exact send_within ‹_› .. | exact hostMemRead_within ‹_› .. | exact hostRegRead_within ‹_› ..
        | exact within_pure _ | exact within_now | refine within_bind ?_ fun _ => ?_ | refine within_ite ?_ ?_
        | split | dsimp only

def writeConfig_foot : Foot := [.part .host] ++ (actHostLoss_foot ++ sendPending_foot)
theorem writeConfig_within {F : Foot} (hF : writeConfig_foot ⊆ F) (p : HostNo) (dw : Nat) (v : BitVec 32) : Within F (writeConfig p dw v : Act s₀ Unit) := by
  simp only [writeConfig_foot, List.append_subset, List.cons_subset, List.nil_subset, and_true] at hF
  obtain ⟨_, _, _⟩ := hF
  unfold writeConfig
  repeat' first
    | with_reducible
        first
        | intro _ | exact actHostLoss_within ‹_› .. | exact sendPending_within ‹_› .. | exact within_pure _
        | exact within_now | refine within_bind ?_ fun _ => ?_ | refine within_ite ?_ ?_ | split | dsimp only
    | exact within_change _ fun u p => by cases p <;> first | exact .inl rfl | exact .inr ‹_› | (refine .inl ?_; simp only [Part.same]; repeat' split) <;> rfl

def actHostConfig_foot : Foot := send_foot ++ writeConfig_foot
theorem actHostConfig_within {F : Foot} (hF : actHostConfig_foot ⊆ F) (p : HostNo) (dw : Nat) (acc : CfgAccess) : Within F (actHostConfig p dw acc : Act s₀ Unit) := by
  simp only [actHostConfig_foot, List.append_subset] at hF
  obtain ⟨_, _⟩ := hF
  unfold actHostConfig
  repeat' first
    | with_reducible
        first
        | intro _ | exact send_within ‹_› .. | exact writeConfig_within ‹_› .. | exact within_pure _
        | exact within_now | exact within_freeIndex | refine within_bind ?_ fun _ => ?_ | refine within_ite ?_ ?_
        | split | dsimp only

end Sys2Proof.Machine
end

