-- ==== Sys2Proof/Laws/FootTick.lean ====
section
/-! SUPPORT. The footprints of the actions of Tick. -/

namespace Sys2Proof.Machine

variable {s₀ : State}

theorem starvedOcc_within {F : Foot} (d : Slot) (u : Nat) (back : Bool) : Within F (starvedOcc d u back : Act s₀ Occ) := by
  unfold starvedOcc
  repeat' first
    | with_reducible
        first
        | intro _ | exact within_pure _ | exact within_freeIndex | refine within_bind ?_ fun _ => ?_
        | refine within_ite ?_ ?_ | split | dsimp only

def standBeat_foot : Foot := [.fld PMC_TD_BEATS_COUNT] ++ tallySlots_foot
theorem standBeat_within {F : Foot} (hF : standBeat_foot ⊆ F) (t u c n : Nat) (o : Occ) : Within F (standBeat t u c n o : Act s₀ Unit) := by
  simp only [standBeat_foot, List.append_subset, List.cons_subset, List.nil_subset, and_true] at hF
  obtain ⟨_, _⟩ := hF
  unfold standBeat
  repeat' first
    | with_reducible
        first
        | intro _ | exact tallySlots_within ‹_› .. | exact within_pure _ | exact within_countWrap _ _ _ _ ‹_›
        | refine within_bind ?_ fun _ => ?_ | split | dsimp only

def unitBeat_foot : Foot := standBeat_foot
theorem unitBeat_within {F : Foot} (hF : unitBeat_foot ⊆ F) (t u : Nat) : Within F (unitBeat t u : Act s₀ Unit) := by
  simp only [unitBeat_foot] at hF
  unfold unitBeat
  repeat' first
    | with_reducible
        first
        | intro _ | exact standBeat_within ‹_› .. | exact starvedOcc_within .. | exact within_pure _
        | exact within_now | exact within_freeIndex | refine within_bind ?_ fun _ => ?_ | refine within_ite ?_ ?_
        | split | dsimp only

def tileBeat_foot : Foot := tally_foot ++ (unitBeat_foot ++ endInterval_foot)
theorem tileBeat_within {F : Foot} (hF : tileBeat_foot ⊆ F) (t : Nat) : Within F (tileBeat t : Act s₀ Unit) := by
  simp only [tileBeat_foot, List.append_subset] at hF
  obtain ⟨_, _, _⟩ := hF
  unfold tileBeat
  repeat' first
    | with_reducible
        first
        | intro _ | exact tally_within ‹_› .. | exact unitBeat_within ‹_› .. | exact endInterval_within ‹_› ..
        | exact within_pure _ | exact within_now | refine within_bind ?_ fun _ => ?_ | refine within_ite ?_ ?_
        | refine within_each _ _ fun _ => ?_ | split | dsimp only

def tileBeats_foot : Foot := tileBeat_foot
theorem tileBeats_within {F : Foot} (hF : tileBeats_foot ⊆ F) (t : Nat) : Within F (tileBeats t : Act s₀ Unit) := by
  simp only [tileBeats_foot] at hF
  unfold tileBeats
  repeat' first
    | with_reducible
        first
        | intro _ | exact tileBeat_within ‹_› .. | exact within_pure _ | exact within_now | exact within_freeIndex
        | refine within_bind ?_ fun _ => ?_ | refine within_ite ?_ ?_ | refine within_each _ _ fun _ => ?_ | split
        | dsimp only

def uncoreTick_foot : Foot := uncore_foot ++ endInterval_foot
theorem uncoreTick_within {F : Foot} (hF : uncoreTick_foot ⊆ F) : Within F (uncoreTick : Act s₀ Unit) := by
  simp only [uncoreTick_foot, List.append_subset] at hF
  obtain ⟨_, _⟩ := hF
  unfold uncoreTick
  repeat' first
    | with_reducible
        first
        | intro _ | exact uncore_within ‹_› .. | exact endInterval_within ‹_› .. | exact within_pure _
        | exact within_now | exact within_freeIndex | refine within_bind ?_ fun _ => ?_ | refine within_ite ?_ ?_
        | refine within_each _ _ fun _ => ?_ | split | dsimp only

def actIdle_foot : Foot := actTick_foot ++ (tileBeats_foot ++ (tally_foot ++ (uncoreTick_foot ++ (endInterval_foot ++ (serveReads_foot ++ settleLoans_foot)))))
theorem actIdle_within {F : Foot} (hF : actIdle_foot ⊆ F) : Within F (actIdle : Act s₀ Unit) := by
  simp only [actIdle_foot, List.append_subset] at hF
  obtain ⟨_, _, _, _, _, _, _⟩ := hF
  unfold actIdle
  repeat' first
    | with_reducible
        first
        | intro _ | exact actTick_within ‹_› .. | exact tileBeats_within ‹_› .. | exact tally_within ‹_› ..
        | exact uncoreTick_within ‹_› .. | exact endInterval_within ‹_› .. | exact serveReads_within ‹_› ..
        | exact settleLoans_within ‹_› .. | exact within_pure _ | exact within_now
        | refine within_bind ?_ fun _ => ?_ | refine within_ite ?_ ?_ | refine within_each _ _ fun _ => ?_ | split
        | dsimp only

end Sys2Proof.Machine
end

