-- ==== Sys2Proof/Laws/FootCommands.lean ====
section
/-! SUPPORT. The footprint of every command. -/

namespace Sys2Proof.Machine

/-- The registers that `n` writes of eight bytes from an address on reach. -/
def writeAddrs (a n : Nat) : Foot := (List.range n).filterMap fun k =>
  match place (a + 8 * k) with
  | .reg b i off => some (.addr (regAddr b i off))
  | _ => none

/-- Each of them is listed. -/
theorem mem_writeAddrs {a n k : Nat} (hk : k < n) {b : Blk} {i off : Nat} (h : place (a + 8 * k) = .reg b i off) :
    Touch.addr (regAddr b i off) ∈ writeAddrs a n := by
  unfold writeAddrs
  rw [List.mem_filterMap]
  exact ⟨k, List.mem_range.2 hk, by simp [h]⟩

theorem execRegisterWrite_within (port : HostNo) (bar : Bar) (addr : Addr) (data : List Byte) (s : State) {z : State}
    (he : execRegisterWrite port bar addr data s = .next z) : ReachIn (writeAddrs addr.toNat data.length ++ actHostWrite_foot) s z := by
  unfold execRegisterWrite at he
  split at he
  · cases he
    refine Within.perform (actHostWrite_within (List.subset_append_right _ _) _ _ _ _ fun n hn b i off hp => .inr ?_)
    rw [List.length_map] at hn
    exact List.mem_append_left _ (mem_writeAddrs hn hp)
  · cases he

theorem execHostMemoryRead_within (port : HostNo) (bar : Bar) (addr : Addr) (len : Nat) (s : State) {z : State} (he : execHostMemoryRead port bar addr len s = .next z) :
    ReachIn actHostRead_foot s z := by
  have hF : actHostRead_foot ⊆ actHostRead_foot := fun _ h => h
  unfold execHostMemoryRead at he
  split at he <;> cases he
  refine Within.perform ?_
  repeat' first
    | with_reducible
        first
        | intro _ | exact actHostRead_within ‹_› .. | exact within_pure _ | refine within_bind ?_ fun _ => ?_
        | refine within_ite ?_ ?_ | split | dsimp only

theorem execHostMemoryWrite_within (port : HostNo) (bar : Bar) (addr : Addr) (data : List (Option Byte)) (s : State) {z : State}
    (he : execHostMemoryWrite port bar addr data s = .next z) : ReachIn (writeAddrs addr.toNat data.length ++ actHostWrite_foot) s z := by
  unfold execHostMemoryWrite at he
  split at he
  · cases he
    refine Within.perform (actHostWrite_within (List.subset_append_right _ _) _ _ _ _ fun n hn b i off hp => .inr ?_)
    exact List.mem_append_left _ (mem_writeAddrs hn hp)
  · cases he

theorem execHostConfigRequest_within (port : HostNo) (dword : Fin 1024) (acc : CfgAccess) (s : State) {z : State} (he : execHostConfigRequest port dword acc s = .next z) :
    ReachIn actHostConfig_foot s z := by
  have hF : actHostConfig_foot ⊆ actHostConfig_foot := fun _ h => h
  unfold execHostConfigRequest at he
  cases he
  refine Within.perform ?_
  repeat' first
    | with_reducible
        first
        | intro _ | exact actHostConfig_within ‹_› .. | exact within_pure _ | refine within_bind ?_ fun _ => ?_
        | split | dsimp only

theorem execGranuleAccept_within (x : Transfer) (s : State) {z : State} (he : execGranuleAccept x s = .next z) :
    ReachIn actGranuleAccept_foot s z := by
  have hF : actGranuleAccept_foot ⊆ actGranuleAccept_foot := fun _ h => h
  unfold execGranuleAccept at he
  split at he <;> cases he
  refine Within.perform ?_
  repeat' first
    | with_reducible
        first
        | intro _ | exact actGranuleAccept_within ‹_› .. | exact within_pure _ | refine within_bind ?_ fun _ => ?_
        | refine within_ite ?_ ?_ | split | dsimp only

theorem execGranuleCommit_within (t : TileNo) (src : Source) (s : State) {z : State} (he : execGranuleCommit t src s = .next z) :
    ReachIn actGranuleCommit_foot s z := by
  have hF : actGranuleCommit_foot ⊆ actGranuleCommit_foot := fun _ h => h
  unfold execGranuleCommit at he
  cases he
  refine Within.perform ?_
  repeat' first
    | with_reducible
        first
        | intro _ | exact actGranuleCommit_within ‹_› .. | exact within_pure _ | refine within_bind ?_ fun _ => ?_
        | split | dsimp only

theorem execPaletteRequestSet_within (t : TileNo) (req : Requester) (sender : Option Nat) (addrs : List Addr) (upsets : List Upset) (busy : Bool) (s : State) {z : State} (he : execPaletteRequestSet t req sender addrs upsets busy s = .next z) :
    ReachIn actPaletteRequestSet_foot s z := by
  have hF : actPaletteRequestSet_foot ⊆ actPaletteRequestSet_foot := fun _ h => h
  unfold execPaletteRequestSet at he
  split at he <;> cases he
  refine Within.perform ?_
  repeat' first
    | with_reducible
        first
        | intro _ | exact actPaletteRequestSet_within ‹_› .. | exact within_pure _
        | refine within_bind ?_ fun _ => ?_ | refine within_ite ?_ ?_ | split | dsimp only

theorem execEccWriteBack_within (t : TileNo) (s : State) {z : State} (he : execEccWriteBack t s = .next z) :
    ReachIn actEccWriteBack_foot s z := by
  have hF : actEccWriteBack_foot ⊆ actEccWriteBack_foot := fun _ h => h
  unfold execEccWriteBack at he
  cases he
  refine Within.perform ?_
  repeat' first
    | with_reducible
        first
        | intro _ | exact actEccWriteBack_within ‹_› .. | exact within_pure _ | refine within_bind ?_ fun _ => ?_
        | split | dsimp only

theorem execRequestAged_within (t : TileNo) (s : State) {z : State} (he : execRequestAged t s = .next z) :
    ReachIn actRequestAged_foot s z := by
  have hF : actRequestAged_foot ⊆ actRequestAged_foot := fun _ h => h
  unfold execRequestAged at he
  cases he
  refine Within.perform ?_
  repeat' first
    | with_reducible
        first
        | intro _ | exact actRequestAged_within ‹_› .. | exact within_pure _ | refine within_bind ?_ fun _ => ?_
        | split | dsimp only

theorem execPatrolScrub_within (t : TileNo) (upsets : List Upset) (idle : Bool) (s : State) {z : State} (he : execPatrolScrub t upsets idle s = .next z) :
    ReachIn actPatrolScrub_foot s z := by
  have hF : actPatrolScrub_foot ⊆ actPatrolScrub_foot := fun _ h => h
  unfold execPatrolScrub at he
  split at he <;> cases he
  refine Within.perform ?_
  repeat' first
    | with_reducible
        first
        | intro _ | exact actPatrolScrub_within ‹_› .. | exact within_pure _ | refine within_bind ?_ fun _ => ?_
        | refine within_ite ?_ ?_ | split | dsimp only

theorem execScrubPriorityRaise_within (t : TileNo) (upsets : List Upset) (s : State) {z : State} (he : execScrubPriorityRaise t upsets s = .next z) :
    ReachIn actScrubPriorityRaise_foot s z := by
  have hF : actScrubPriorityRaise_foot ⊆ actScrubPriorityRaise_foot := fun _ h => h
  unfold execScrubPriorityRaise at he
  split at he <;> cases he
  refine Within.perform ?_
  repeat' first
    | with_reducible
        first
        | intro _ | exact actScrubPriorityRaise_within ‹_› .. | exact within_pure _
        | refine within_bind ?_ fun _ => ?_ | refine within_ite ?_ ?_ | split | dsimp only

def execPalAcWrite_foot : Foot := [.reg PAL_AC_VALUE] ++ (checkedWrite_foot ++ hookAc_foot)
theorem execPalAcWrite_within (port : HostNo) (t : TileNo) (n : CtrNo) (v : Word) (s : State) {z : State} (he : execPalAcWrite port t n v s = .next z) :
    ReachIn execPalAcWrite_foot s z := by
  obtain ⟨G, hG⟩ : ∃ G, G = execPalAcWrite_foot := ⟨_, rfl⟩
  have hF : execPalAcWrite_foot ⊆ G := hG ▸ fun _ h => h
  rw [← hG]
  simp only [execPalAcWrite_foot, List.append_subset, List.cons_subset, List.nil_subset, and_true] at hF
  obtain ⟨_, _, _⟩ := hF
  unfold execPalAcWrite at he
  cases he
  refine Within.perform ?_
  repeat' first
    | with_reducible
        first
        | intro _ | exact hookAc_within ‹_› ‹_› .. | exact within_pure _ | refine within_bind ?_ fun _ => ?_
        | refine checkedWrite_within ‹_› _ _ _ _ fun w hw => ?_ | split | dsimp only
    | exact hookAc_within ‹_› (free_ofField ‹_› hw)

def execPalAcAdd_foot : Foot := [.reg PAL_AC_ADD_INDEX] ++ (checkedWrite_foot ++ hookAcAdd_foot)
theorem execPalAcAdd_within (port : HostNo) (t : TileNo) (v : Word) (s : State) {z : State} (he : execPalAcAdd port t v s = .next z) :
    ReachIn execPalAcAdd_foot s z := by
  obtain ⟨G, hG⟩ : ∃ G, G = execPalAcAdd_foot := ⟨_, rfl⟩
  have hF : execPalAcAdd_foot ⊆ G := hG ▸ fun _ h => h
  rw [← hG]
  simp only [execPalAcAdd_foot, List.append_subset, List.cons_subset, List.nil_subset, and_true] at hF
  obtain ⟨_, _, _⟩ := hF
  unfold execPalAcAdd at he
  cases he
  refine Within.perform ?_
  repeat' first
    | with_reducible
        first
        | intro _ | exact hookAcAdd_within ‹_› ‹_› .. | exact within_pure _ | refine within_bind ?_ fun _ => ?_
        | refine checkedWrite_within ‹_› _ _ _ _ fun w hw => ?_ | split | dsimp only
    | exact hookAcAdd_within ‹_› (free_ofField ‹_› hw)

def execPalInjectArm_foot : Foot := [.reg PAL_INJECT_ARM] ++ checkedWrite_foot
theorem execPalInjectArm_within (port : HostNo) (t : TileNo) (v : Word) (s : State) {z : State} (he : execPalInjectArm port t v s = .next z) :
    ReachIn execPalInjectArm_foot s z := by
  obtain ⟨G, hG⟩ : ∃ G, G = execPalInjectArm_foot := ⟨_, rfl⟩
  have hF : execPalInjectArm_foot ⊆ G := hG ▸ fun _ h => h
  rw [← hG]
  simp only [execPalInjectArm_foot, List.append_subset, List.cons_subset, List.nil_subset, and_true] at hF
  obtain ⟨_, _⟩ := hF
  unfold execPalInjectArm at he
  cases he
  refine Within.perform ?_
  repeat' first
    | with_reducible
        first
        | intro _ | exact hookSets_within ‹_› .. | exact within_pure _ | refine within_bind ?_ fun _ => ?_
        | refine checkedWrite_within ‹_› _ _ _ _ fun w hw => ?_ | split | dsimp only
    | exact hookSets_within (free_ofField ‹_› hw)

theorem execGateDrainEnd_within (t : TileNo) (q : Fin 4) (s : State) {z : State} (he : execGateDrainEnd t q s = .next z) :
    ReachIn actGateDrainEnd_foot s z := by
  have hF : actGateDrainEnd_foot ⊆ actGateDrainEnd_foot := fun _ h => h
  unfold execGateDrainEnd at he
  cases he
  refine Within.perform ?_
  repeat' first
    | with_reducible
        first
        | intro _ | exact actGateDrainEnd_within ‹_› .. | exact within_pure _ | refine within_bind ?_ fun _ => ?_
        | split | dsimp only

theorem execQuarterInitDone_within (t : TileNo) (q : Fin 4) (s : State) {z : State} (he : execQuarterInitDone t q s = .next z) :
    ReachIn actQuarterInitDone_foot s z := by
  have hF : actQuarterInitDone_foot ⊆ actQuarterInitDone_foot := fun _ h => h
  unfold execQuarterInitDone at he
  cases he
  refine Within.perform ?_
  repeat' first
    | with_reducible
        first
        | intro _ | exact actQuarterInitDone_within ‹_› .. | exact within_pure _ | refine within_bind ?_ fun _ => ?_
        | split | dsimp only

def execPalFill_foot : Foot := wholeRun_foot ++ palFillWork_foot
theorem execPalFill_within (t : TileNo) (s : State) {z : State} (he : execPalFill t s = .next z) :
    ReachIn execPalFill_foot s z := by
  obtain ⟨G, hG⟩ : ∃ G, G = execPalFill_foot := ⟨_, rfl⟩
  have hF : execPalFill_foot ⊆ G := hG ▸ fun _ h => h
  rw [← hG]
  simp only [execPalFill_foot, List.append_subset] at hF
  obtain ⟨_, _⟩ := hF
  unfold execPalFill at he
  cases he
  refine Within.perform ?_
  repeat' first
    | with_reducible
        first
        | intro _ | exact palFillWork_within ‹_› .. | exact within_pure _ | refine within_bind ?_ fun _ => ?_
        | refine wholeRun_within ‹_› _ _ fun _ => ?_ | exact withinW_pure _ | exact withinW_get
        | refine withinW_doing ?_ | refine withinW_bind ?_ fun _ => ?_ | refine withinW_map _ ?_
        | refine withinP_run ?_ | exact withinP_pure _ | refine withinP_lift ?_ | refine withinP_bind ?_ fun _ => ?_
        | split | dsimp only

def execPalCopy_foot : Foot := wholeRun_foot ++ palCopyWork_foot
theorem execPalCopy_within (t : TileNo) (s : State) {z : State} (he : execPalCopy t s = .next z) :
    ReachIn execPalCopy_foot s z := by
  obtain ⟨G, hG⟩ : ∃ G, G = execPalCopy_foot := ⟨_, rfl⟩
  have hF : execPalCopy_foot ⊆ G := hG ▸ fun _ h => h
  rw [← hG]
  simp only [execPalCopy_foot, List.append_subset] at hF
  obtain ⟨_, _⟩ := hF
  unfold execPalCopy at he
  cases he
  refine Within.perform ?_
  repeat' first
    | with_reducible
        first
        | intro _ | exact palCopyWork_within ‹_› .. | exact within_pure _ | refine within_bind ?_ fun _ => ?_
        | refine wholeRun_within ‹_› _ _ fun _ => ?_ | exact withinW_pure _ | exact withinW_get
        | refine withinW_doing ?_ | refine withinW_bind ?_ fun _ => ?_ | refine withinW_map _ ?_
        | refine withinP_run ?_ | exact withinP_pure _ | refine withinP_lift ?_ | refine withinP_bind ?_ fun _ => ?_
        | split | dsimp only

def execTensorCopy_foot : Foot := wholeRun_foot ++ tensorCopyWork_foot
theorem execTensorCopy_within (t : TileNo) (s : State) {z : State} (he : execTensorCopy t s = .next z) :
    ReachIn execTensorCopy_foot s z := by
  obtain ⟨G, hG⟩ : ∃ G, G = execTensorCopy_foot := ⟨_, rfl⟩
  have hF : execTensorCopy_foot ⊆ G := hG ▸ fun _ h => h
  rw [← hG]
  simp only [execTensorCopy_foot, List.append_subset] at hF
  obtain ⟨_, _⟩ := hF
  unfold execTensorCopy at he
  cases he
  refine Within.perform ?_
  repeat' first
    | with_reducible
        first
        | intro _ | exact tensorCopyWork_within ‹_› .. | exact within_pure _ | refine within_bind ?_ fun _ => ?_
        | refine wholeRun_within ‹_› _ _ fun _ => ?_ | exact withinW_pure _ | exact withinW_get
        | refine withinW_doing ?_ | refine withinW_bind ?_ fun _ => ?_ | refine withinW_map _ ?_
        | refine withinP_run ?_ | exact withinP_pure _ | refine withinP_lift ?_ | refine withinP_bind ?_ fun _ => ?_
        | split | dsimp only

def execTensorGather_foot : Foot := wholeRun_foot ++ tensorIndexedWork_foot
theorem execTensorGather_within (t : TileNo) (s : State) {z : State} (he : execTensorGather t s = .next z) :
    ReachIn execTensorGather_foot s z := by
  obtain ⟨G, hG⟩ : ∃ G, G = execTensorGather_foot := ⟨_, rfl⟩
  have hF : execTensorGather_foot ⊆ G := hG ▸ fun _ h => h
  rw [← hG]
  simp only [execTensorGather_foot, List.append_subset] at hF
  obtain ⟨_, _⟩ := hF
  unfold execTensorGather at he
  cases he
  refine Within.perform ?_
  repeat' first
    | with_reducible
        first
        | intro _ | exact tensorIndexedWork_within ‹_› .. | exact within_pure _ | refine within_bind ?_ fun _ => ?_
        | refine wholeRun_within ‹_› _ _ fun _ => ?_ | exact withinW_pure _ | exact withinW_get
        | refine withinW_doing ?_ | refine withinW_bind ?_ fun _ => ?_ | refine withinW_map _ ?_
        | refine withinP_run ?_ | exact withinP_pure _ | refine withinP_lift ?_ | refine withinP_bind ?_ fun _ => ?_
        | split | dsimp only

def execTensorScatter_foot : Foot := wholeRun_foot ++ tensorIndexedWork_foot
theorem execTensorScatter_within (t : TileNo) (s : State) {z : State} (he : execTensorScatter t s = .next z) :
    ReachIn execTensorScatter_foot s z := by
  obtain ⟨G, hG⟩ : ∃ G, G = execTensorScatter_foot := ⟨_, rfl⟩
  have hF : execTensorScatter_foot ⊆ G := hG ▸ fun _ h => h
  rw [← hG]
  simp only [execTensorScatter_foot, List.append_subset] at hF
  obtain ⟨_, _⟩ := hF
  unfold execTensorScatter at he
  cases he
  refine Within.perform ?_
  repeat' first
    | with_reducible
        first
        | intro _ | exact tensorIndexedWork_within ‹_› .. | exact within_pure _ | refine within_bind ?_ fun _ => ?_
        | refine wholeRun_within ‹_› _ _ fun _ => ?_ | exact withinW_pure _ | exact withinW_get
        | refine withinW_doing ?_ | refine withinW_bind ?_ fun _ => ?_ | refine withinW_map _ ?_
        | refine withinP_run ?_ | exact withinP_pure _ | refine withinP_lift ?_ | refine withinP_bind ?_ fun _ => ?_
        | split | dsimp only

def execMxProduct_foot : Foot := advancing_foot ++ actMxProduct_foot
theorem execMxProduct_within (t : TileNo) (h : Half) (s : State) {z : State} (he : execMxProduct t h s = .next z) :
    ReachIn execMxProduct_foot s z := by
  obtain ⟨G, hG⟩ : ∃ G, G = execMxProduct_foot := ⟨_, rfl⟩
  have hF : execMxProduct_foot ⊆ G := hG ▸ fun _ h => h
  rw [← hG]
  simp only [execMxProduct_foot, List.append_subset] at hF
  obtain ⟨_, _⟩ := hF
  unfold execMxProduct at he
  cases he
  refine Within.perform ?_
  repeat' first
    | with_reducible
        first
        | intro _ | exact actMxProduct_within ‹_› .. | exact within_pure _ | refine within_bind ?_ fun _ => ?_
        | refine advancing_within ‹_› _ _ ?_ | exact withinW_pure _ | exact withinW_get | refine withinW_doing ?_
        | refine withinW_bind ?_ fun _ => ?_ | refine withinW_map _ ?_ | refine withinP_run ?_ | exact withinP_pure _
        | refine withinP_lift ?_ | refine withinP_bind ?_ fun _ => ?_ | split | dsimp only

def execMxFirstFeed_foot : Foot := advancing_foot ++ actMxFirstFeed_foot
theorem execMxFirstFeed_within (t : TileNo) (h : Half) (s : State) {z : State} (he : execMxFirstFeed t h s = .next z) :
    ReachIn execMxFirstFeed_foot s z := by
  obtain ⟨G, hG⟩ : ∃ G, G = execMxFirstFeed_foot := ⟨_, rfl⟩
  have hF : execMxFirstFeed_foot ⊆ G := hG ▸ fun _ h => h
  rw [← hG]
  simp only [execMxFirstFeed_foot, List.append_subset] at hF
  obtain ⟨_, _⟩ := hF
  unfold execMxFirstFeed at he
  cases he
  refine Within.perform ?_
  repeat' first
    | with_reducible
        first
        | intro _ | exact actMxFirstFeed_within ‹_› .. | exact within_pure _ | refine within_bind ?_ fun _ => ?_
        | refine advancing_within ‹_› _ _ ?_ | exact withinW_pure _ | exact withinW_get | refine withinW_doing ?_
        | refine withinW_bind ?_ fun _ => ?_ | refine withinW_map _ ?_ | refine withinP_run ?_ | exact withinP_pure _
        | refine withinP_lift ?_ | refine withinP_bind ?_ fun _ => ?_ | split | dsimp only

def execMxPassStart_foot : Foot := advancing_foot ++ actMxPassStart_foot
theorem execMxPassStart_within (t : TileNo) (h : Half) (s : State) {z : State} (he : execMxPassStart t h s = .next z) :
    ReachIn execMxPassStart_foot s z := by
  obtain ⟨G, hG⟩ : ∃ G, G = execMxPassStart_foot := ⟨_, rfl⟩
  have hF : execMxPassStart_foot ⊆ G := hG ▸ fun _ h => h
  rw [← hG]
  simp only [execMxPassStart_foot, List.append_subset] at hF
  obtain ⟨_, _⟩ := hF
  unfold execMxPassStart at he
  cases he
  refine Within.perform ?_
  repeat' first
    | with_reducible
        first
        | intro _ | exact actMxPassStart_within ‹_› .. | exact within_pure _ | refine within_bind ?_ fun _ => ?_
        | refine advancing_within ‹_› _ _ ?_ | exact withinW_pure _ | exact withinW_get | refine withinW_doing ?_
        | refine withinW_bind ?_ fun _ => ?_ | refine withinW_map _ ?_ | refine withinP_run ?_ | exact withinP_pure _
        | refine withinP_lift ?_ | refine withinP_bind ?_ fun _ => ?_ | split | dsimp only

def execMxPaceRelease_foot : Foot := advancing_foot ++ actMxPaceRelease_foot
theorem execMxPaceRelease_within (t : TileNo) (h : Half) (s : State) {z : State} (he : execMxPaceRelease t h s = .next z) :
    ReachIn execMxPaceRelease_foot s z := by
  obtain ⟨G, hG⟩ : ∃ G, G = execMxPaceRelease_foot := ⟨_, rfl⟩
  have hF : execMxPaceRelease_foot ⊆ G := hG ▸ fun _ h => h
  rw [← hG]
  simp only [execMxPaceRelease_foot, List.append_subset] at hF
  obtain ⟨_, _⟩ := hF
  unfold execMxPaceRelease at he
  cases he
  refine Within.perform ?_
  repeat' first
    | with_reducible
        first
        | intro _ | exact actMxPaceRelease_within ‹_› .. | exact within_pure _ | refine within_bind ?_ fun _ => ?_
        | refine advancing_within ‹_› _ _ ?_ | exact withinW_pure _ | exact withinW_get | refine withinW_doing ?_
        | refine withinW_bind ?_ fun _ => ?_ | refine withinW_map _ ?_ | refine withinP_run ?_ | exact withinP_pure _
        | refine withinP_lift ?_ | refine withinP_bind ?_ fun _ => ?_ | split | dsimp only

theorem execStallReport_within (u : StallUnit) (cause : Fin 16) (s : State) {z : State} (he : execStallReport u cause s = .next z) :
    ReachIn actStallReport_foot s z := by
  have hF : actStallReport_foot ⊆ actStallReport_foot := fun _ h => h
  unfold execStallReport at he
  cases he
  refine Within.perform ?_
  repeat' first
    | with_reducible
        first
        | intro _ | exact actStallReport_within ‹_› .. | exact within_pure _ | refine within_bind ?_ fun _ => ?_
        | split | dsimp only

theorem execStallAbort_within (u : StallUnit) (s : State) {z : State} (he : execStallAbort u s = .next z) :
    ReachIn actStallAbort_foot s z := by
  have hF : actStallAbort_foot ⊆ actStallAbort_foot := fun _ h => h
  unfold execStallAbort at he
  cases he
  refine Within.perform ?_
  repeat' first
    | with_reducible
        first
        | intro _ | exact actStallAbort_within ‹_› .. | exact within_pure _ | refine within_bind ?_ fun _ => ?_
        | split | dsimp only

theorem execParkThreshold_within (t : TileNo) (right : Bool) (s : State) {z : State} (he : execParkThreshold t right s = .next z) :
    ReachIn actParkThreshold_foot s z := by
  have hF : actParkThreshold_foot ⊆ actParkThreshold_foot := fun _ h => h
  unfold execParkThreshold at he
  cases he
  refine Within.perform ?_
  repeat' first
    | with_reducible
        first
        | intro _ | exact actParkThreshold_within ‹_› .. | exact within_pure _ | refine within_bind ?_ fun _ => ?_
        | split | dsimp only

def execPark_foot : Foot := [.reg MX_PARK_PARK_L] ++ (checkedWrite_foot ++ hookPark_foot)
theorem execPark_within (port : HostNo) (t : TileNo) (v : Word) (s : State) {z : State} (he : execPark port t v s = .next z) :
    ReachIn execPark_foot s z := by
  obtain ⟨G, hG⟩ : ∃ G, G = execPark_foot := ⟨_, rfl⟩
  have hF : execPark_foot ⊆ G := hG ▸ fun _ h => h
  rw [← hG]
  simp only [execPark_foot, List.append_subset, List.cons_subset, List.nil_subset, and_true] at hF
  obtain ⟨_, _, _⟩ := hF
  unfold execPark at he
  cases he
  refine Within.perform ?_
  repeat' first
    | with_reducible
        first
        | intro _ | exact hookPark_within ‹_› .. | exact within_pure _ | refine within_bind ?_ fun _ => ?_
        | refine checkedWrite_within ‹_› _ _ _ _ fun w hw => ?_ | split | dsimp only
    | exact hookPark_within ‹_› _

theorem execParkTakeEffect_within (t : TileNo) (right : Bool) (s : State) {z : State} (he : execParkTakeEffect t right s = .next z) :
    ReachIn actParkTakeEffect_foot s z := by
  have hF : actParkTakeEffect_foot ⊆ actParkTakeEffect_foot := fun _ h => h
  unfold execParkTakeEffect at he
  cases he
  refine Within.perform ?_
  repeat' first
    | with_reducible
        first
        | intro _ | exact actParkTakeEffect_within ‹_› .. | exact within_pure _ | refine within_bind ?_ fun _ => ?_
        | split | dsimp only

def execReleaseHalf_foot : Foot := [.reg MX_PARK_RELEASE_L] ++ (checkedWrite_foot ++ hookPark_foot)
theorem execReleaseHalf_within (port : HostNo) (t : TileNo) (v : Word) (s : State) {z : State} (he : execReleaseHalf port t v s = .next z) :
    ReachIn execReleaseHalf_foot s z := by
  obtain ⟨G, hG⟩ : ∃ G, G = execReleaseHalf_foot := ⟨_, rfl⟩
  have hF : execReleaseHalf_foot ⊆ G := hG ▸ fun _ h => h
  rw [← hG]
  simp only [execReleaseHalf_foot, List.append_subset, List.cons_subset, List.nil_subset, and_true] at hF
  obtain ⟨_, _, _⟩ := hF
  unfold execReleaseHalf at he
  cases he
  refine Within.perform ?_
  repeat' first
    | with_reducible
        first
        | intro _ | exact hookPark_within ‹_› .. | exact within_pure _ | refine within_bind ?_ fun _ => ?_
        | refine checkedWrite_within ‹_› _ _ _ _ fun w hw => ?_ | split | dsimp only
    | exact hookPark_within ‹_› _

def execSplitWrite_foot : Foot := [.reg MX_CTL_SPLIT] ++ (checkedWrite_foot ++ hookSplit_foot)
theorem execSplitWrite_within (port : HostNo) (t : TileNo) (v : Word) (s : State) {z : State} (he : execSplitWrite port t v s = .next z) :
    ReachIn execSplitWrite_foot s z := by
  obtain ⟨G, hG⟩ : ∃ G, G = execSplitWrite_foot := ⟨_, rfl⟩
  have hF : execSplitWrite_foot ⊆ G := hG ▸ fun _ h => h
  rw [← hG]
  simp only [execSplitWrite_foot, List.append_subset, List.cons_subset, List.nil_subset, and_true] at hF
  obtain ⟨_, _, _⟩ := hF
  unfold execSplitWrite at he
  cases he
  refine Within.perform ?_
  repeat' first
    | with_reducible
        first
        | intro _ | exact hookSplit_within ‹_› ‹_› .. | exact within_pure _ | refine within_bind ?_ fun _ => ?_
        | refine checkedWrite_within ‹_› _ _ _ _ fun w hw => ?_ | split | dsimp only
    | exact hookSplit_within ‹_› (free_ofField ‹_› hw)

theorem execSplitTakeEffect_within (t : TileNo) (s : State) {z : State} (he : execSplitTakeEffect t s = .next z) :
    ReachIn splitNow_foot s z := by
  have hF : splitNow_foot ⊆ splitNow_foot := fun _ h => h
  unfold execSplitTakeEffect at he
  cases he
  refine Within.perform ?_
  repeat' first
    | with_reducible
        first
        | intro _ | exact splitNow_within ‹_› .. | exact within_pure _ | exact within_now
        | refine within_bind ?_ fun _ => ?_ | refine within_ite ?_ ?_ | split | dsimp only

def execVeStrokeMap_foot : Foot := advancing_foot ++ actStroke_foot
theorem execVeStrokeMap_within (t : TileNo) (s : State) {z : State} (he : execVeStrokeMap t s = .next z) :
    ReachIn execVeStrokeMap_foot s z := by
  obtain ⟨G, hG⟩ : ∃ G, G = execVeStrokeMap_foot := ⟨_, rfl⟩
  have hF : execVeStrokeMap_foot ⊆ G := hG ▸ fun _ h => h
  rw [← hG]
  simp only [execVeStrokeMap_foot, List.append_subset] at hF
  obtain ⟨_, _⟩ := hF
  unfold execVeStrokeMap at he
  cases he
  refine Within.perform ?_
  repeat' first
    | with_reducible
        first
        | intro _ | exact actStroke_within ‹_› .. | exact within_pure _ | refine within_bind ?_ fun _ => ?_
        | refine advancing_within ‹_› _ _ ?_ | exact withinW_pure _ | exact withinW_get | refine withinW_doing ?_
        | refine withinW_bind ?_ fun _ => ?_ | refine withinW_map _ ?_ | refine withinP_run ?_ | exact withinP_pure _
        | refine withinP_lift ?_ | refine withinP_bind ?_ fun _ => ?_ | split | dsimp only

def execVeStrokeReduce_foot : Foot := advancing_foot ++ actStroke_foot
theorem execVeStrokeReduce_within (t : TileNo) (s : State) {z : State} (he : execVeStrokeReduce t s = .next z) :
    ReachIn execVeStrokeReduce_foot s z := by
  obtain ⟨G, hG⟩ : ∃ G, G = execVeStrokeReduce_foot := ⟨_, rfl⟩
  have hF : execVeStrokeReduce_foot ⊆ G := hG ▸ fun _ h => h
  rw [← hG]
  simp only [execVeStrokeReduce_foot, List.append_subset] at hF
  obtain ⟨_, _⟩ := hF
  unfold execVeStrokeReduce at he
  cases he
  refine Within.perform ?_
  repeat' first
    | with_reducible
        first
        | intro _ | exact actStroke_within ‹_› .. | exact within_pure _ | refine within_bind ?_ fun _ => ?_
        | refine advancing_within ‹_› _ _ ?_ | exact withinW_pure _ | exact withinW_get | refine withinW_doing ?_
        | refine withinW_bind ?_ fun _ => ?_ | refine withinW_map _ ?_ | refine withinP_run ?_ | exact withinP_pure _
        | refine withinP_lift ?_ | refine withinP_bind ?_ fun _ => ?_ | split | dsimp only

def execVeStrokeScan_foot : Foot := advancing_foot ++ actStroke_foot
theorem execVeStrokeScan_within (t : TileNo) (s : State) {z : State} (he : execVeStrokeScan t s = .next z) :
    ReachIn execVeStrokeScan_foot s z := by
  obtain ⟨G, hG⟩ : ∃ G, G = execVeStrokeScan_foot := ⟨_, rfl⟩
  have hF : execVeStrokeScan_foot ⊆ G := hG ▸ fun _ h => h
  rw [← hG]
  simp only [execVeStrokeScan_foot, List.append_subset] at hF
  obtain ⟨_, _⟩ := hF
  unfold execVeStrokeScan at he
  cases he
  refine Within.perform ?_
  repeat' first
    | with_reducible
        first
        | intro _ | exact actStroke_within ‹_› .. | exact within_pure _ | refine within_bind ?_ fun _ => ?_
        | refine advancing_within ‹_› _ _ ?_ | exact withinW_pure _ | exact withinW_get | refine withinW_doing ?_
        | refine withinW_bind ?_ fun _ => ?_ | refine withinW_map _ ?_ | refine withinP_run ?_ | exact withinP_pure _
        | refine withinP_lift ?_ | refine withinP_bind ?_ fun _ => ?_ | split | dsimp only

def execVePaceRelease_foot : Foot := advancing_foot ++ actVePaceRelease_foot
theorem execVePaceRelease_within (t : TileNo) (s : State) {z : State} (he : execVePaceRelease t s = .next z) :
    ReachIn execVePaceRelease_foot s z := by
  obtain ⟨G, hG⟩ : ∃ G, G = execVePaceRelease_foot := ⟨_, rfl⟩
  have hF : execVePaceRelease_foot ⊆ G := hG ▸ fun _ h => h
  rw [← hG]
  simp only [execVePaceRelease_foot, List.append_subset] at hF
  obtain ⟨_, _⟩ := hF
  unfold execVePaceRelease at he
  cases he
  refine Within.perform ?_
  repeat' first
    | with_reducible
        first
        | intro _ | exact actVePaceRelease_within ‹_› .. | exact within_pure _ | refine within_bind ?_ fun _ => ?_
        | refine advancing_within ‹_› _ _ ?_ | exact withinW_pure _ | exact withinW_get | refine withinW_doing ?_
        | refine withinW_bind ?_ fun _ => ?_ | refine withinW_map _ ?_ | refine withinP_run ?_ | exact withinP_pure _
        | refine withinP_lift ?_ | refine withinP_bind ?_ fun _ => ?_ | split | dsimp only

def execNorm_foot : Foot := advancing_foot ++ (wholeRun_foot ++ normWork_foot)
theorem execNorm_within (t : TileNo) (s : State) {z : State} (he : execNorm t s = .next z) :
    ReachIn execNorm_foot s z := by
  obtain ⟨G, hG⟩ : ∃ G, G = execNorm_foot := ⟨_, rfl⟩
  have hF : execNorm_foot ⊆ G := hG ▸ fun _ h => h
  rw [← hG]
  simp only [execNorm_foot, List.append_subset] at hF
  obtain ⟨_, _, _⟩ := hF
  unfold execNorm at he
  cases he
  refine Within.perform ?_
  repeat' first
    | with_reducible
        first
        | intro _ | exact normWork_within ‹_› .. | exact within_pure _ | refine within_bind ?_ fun _ => ?_
        | refine advancing_within ‹_› _ _ ?_ | refine wholeRun_within ‹_› _ _ fun _ => ?_ | exact withinW_pure _
        | exact withinW_get | refine withinW_doing ?_ | refine withinW_bind ?_ fun _ => ?_ | refine withinW_map _ ?_
        | refine withinP_run ?_ | exact withinP_pure _ | refine withinP_lift ?_ | refine withinP_bind ?_ fun _ => ?_
        | split | dsimp only

def execSoftmaxFull_foot : Foot := advancing_foot ++ actSoftmax_foot
theorem execSoftmaxFull_within (t : TileNo) (s : State) {z : State} (he : execSoftmaxFull t s = .next z) :
    ReachIn execSoftmaxFull_foot s z := by
  obtain ⟨G, hG⟩ : ∃ G, G = execSoftmaxFull_foot := ⟨_, rfl⟩
  have hF : execSoftmaxFull_foot ⊆ G := hG ▸ fun _ h => h
  rw [← hG]
  simp only [execSoftmaxFull_foot, List.append_subset] at hF
  obtain ⟨_, _⟩ := hF
  unfold execSoftmaxFull at he
  cases he
  refine Within.perform ?_
  repeat' first
    | with_reducible
        first
        | intro _ | exact actSoftmax_within ‹_› .. | exact within_pure _ | refine within_bind ?_ fun _ => ?_
        | refine advancing_within ‹_› _ _ ?_ | exact withinW_pure _ | exact withinW_get | refine withinW_doing ?_
        | refine withinW_bind ?_ fun _ => ?_ | refine withinW_map _ ?_ | refine withinP_run ?_ | exact withinP_pure _
        | refine withinP_lift ?_ | refine withinP_bind ?_ fun _ => ?_ | split | dsimp only

def execSoftmaxPartial_foot : Foot := advancing_foot ++ actSoftmax_foot
theorem execSoftmaxPartial_within (t : TileNo) (s : State) {z : State} (he : execSoftmaxPartial t s = .next z) :
    ReachIn execSoftmaxPartial_foot s z := by
  obtain ⟨G, hG⟩ : ∃ G, G = execSoftmaxPartial_foot := ⟨_, rfl⟩
  have hF : execSoftmaxPartial_foot ⊆ G := hG ▸ fun _ h => h
  rw [← hG]
  simp only [execSoftmaxPartial_foot, List.append_subset] at hF
  obtain ⟨_, _⟩ := hF
  unfold execSoftmaxPartial at he
  cases he
  refine Within.perform ?_
  repeat' first
    | with_reducible
        first
        | intro _ | exact actSoftmax_within ‹_› .. | exact within_pure _ | refine within_bind ?_ fun _ => ?_
        | refine advancing_within ‹_› _ _ ?_ | exact withinW_pure _ | exact withinW_get | refine withinW_doing ?_
        | refine withinW_bind ?_ fun _ => ?_ | refine withinW_map _ ?_ | refine withinP_run ?_ | exact withinP_pure _
        | refine withinP_lift ?_ | refine withinP_bind ?_ fun _ => ?_ | split | dsimp only

def execSoftmaxApply_foot : Foot := advancing_foot ++ actSoftmax_foot
theorem execSoftmaxApply_within (t : TileNo) (s : State) {z : State} (he : execSoftmaxApply t s = .next z) :
    ReachIn execSoftmaxApply_foot s z := by
  obtain ⟨G, hG⟩ : ∃ G, G = execSoftmaxApply_foot := ⟨_, rfl⟩
  have hF : execSoftmaxApply_foot ⊆ G := hG ▸ fun _ h => h
  rw [← hG]
  simp only [execSoftmaxApply_foot, List.append_subset] at hF
  obtain ⟨_, _⟩ := hF
  unfold execSoftmaxApply at he
  cases he
  refine Within.perform ?_
  repeat' first
    | with_reducible
        first
        | intro _ | exact actSoftmax_within ‹_› .. | exact within_pure _ | refine within_bind ?_ fun _ => ?_
        | refine advancing_within ‹_› _ _ ?_ | exact withinW_pure _ | exact withinW_get | refine withinW_doing ?_
        | refine withinW_bind ?_ fun _ => ?_ | refine withinW_map _ ?_ | refine withinP_run ?_ | exact withinP_pure _
        | refine withinP_lift ?_ | refine withinP_bind ?_ fun _ => ?_ | split | dsimp only

def execSoftmaxMerge_foot : Foot := advancing_foot ++ actSoftmax_foot
theorem execSoftmaxMerge_within (t : TileNo) (s : State) {z : State} (he : execSoftmaxMerge t s = .next z) :
    ReachIn execSoftmaxMerge_foot s z := by
  obtain ⟨G, hG⟩ : ∃ G, G = execSoftmaxMerge_foot := ⟨_, rfl⟩
  have hF : execSoftmaxMerge_foot ⊆ G := hG ▸ fun _ h => h
  rw [← hG]
  simp only [execSoftmaxMerge_foot, List.append_subset] at hF
  obtain ⟨_, _⟩ := hF
  unfold execSoftmaxMerge at he
  cases he
  refine Within.perform ?_
  repeat' first
    | with_reducible
        first
        | intro _ | exact actSoftmax_within ‹_› .. | exact within_pure _ | refine within_bind ?_ fun _ => ?_
        | refine advancing_within ‹_› _ _ ?_ | exact withinW_pure _ | exact withinW_get | refine withinW_doing ?_
        | refine withinW_bind ?_ fun _ => ?_ | refine withinW_map _ ?_ | refine withinP_run ?_ | exact withinP_pure _
        | refine withinP_lift ?_ | refine withinP_bind ?_ fun _ => ?_ | split | dsimp only

theorem execPollSweep_within (s : State) {z : State} (he : execPollSweep s = .next z) :
    ReachIn actPollSweep_foot s z := by
  have hF : actPollSweep_foot ⊆ actPollSweep_foot := fun _ h => h
  unfold execPollSweep at he
  cases he
  refine Within.perform ?_
  repeat' first
    | with_reducible
        first
        | intro _ | exact actPollSweep_within ‹_› .. | exact within_pure _ | refine within_bind ?_ fun _ => ?_
        | split | dsimp only

theorem execSummaryReadReturn_within (g : GrpNo) (data : Option Summary) (s : State) {z : State} (he : execSummaryReadReturn g data s = .next z) :
    ReachIn actSummaryReadReturn_foot s z := by
  have hF : actSummaryReadReturn_foot ⊆ actSummaryReadReturn_foot := fun _ h => h
  unfold execSummaryReadReturn at he
  cases he
  refine Within.perform ?_
  repeat' first
    | with_reducible
        first
        | intro _ | exact actSummaryReadReturn_within ‹_› .. | exact within_pure _
        | refine within_bind ?_ fun _ => ?_ | split | dsimp only

theorem execTailReadReturn_within (g : GrpNo) (tails : Option (List (BitVec 32))) (s : State) {z : State} (he : execTailReadReturn g tails s = .next z) :
    ReachIn actTailReadReturn_foot s z := by
  have hF : actTailReadReturn_foot ⊆ actTailReadReturn_foot := fun _ h => h
  unfold execTailReadReturn at he
  split at he <;> cases he
  refine Within.perform ?_
  repeat' first
    | with_reducible
        first
        | intro _ | exact actTailReadReturn_within ‹_› .. | exact within_pure _ | refine within_bind ?_ fun _ => ?_
        | refine within_ite ?_ ?_ | split | dsimp only

theorem execSchedTableRead_within (a : AtlNo) (entries : List (BitVec 32)) (s : State) {z : State} (he : execSchedTableRead a entries s = .next z) :
    ReachIn actSchedTableRead_foot s z := by
  have hF : actSchedTableRead_foot ⊆ actSchedTableRead_foot := fun _ h => h
  unfold execSchedTableRead at he
  split at he <;> cases he
  refine Within.perform ?_
  repeat' first
    | with_reducible
        first
        | intro _ | exact actSchedTableRead_within ‹_› .. | exact within_pure _ | refine within_bind ?_ fun _ => ?_
        | refine within_ite ?_ ?_ | split | dsimp only

theorem execRingFetch_within (r : RingNo) (s : State) {z : State} (he : execRingFetch r s = .next z) :
    ReachIn actRingFetch_foot s z := by
  have hF : actRingFetch_foot ⊆ actRingFetch_foot := fun _ h => h
  unfold execRingFetch at he
  cases he
  refine Within.perform ?_
  repeat' first
    | with_reducible
        first
        | intro _ | exact actRingFetch_within ‹_› .. | exact within_pure _ | refine within_bind ?_ fun _ => ?_
        | split | dsimp only

theorem execRingFetchReturn_within (r : RingNo) (data : Option (List Descriptor)) (s : State) {z : State} (he : execRingFetchReturn r data s = .next z) :
    ReachIn actRingFetchReturn_foot s z := by
  have hF : actRingFetchReturn_foot ⊆ actRingFetchReturn_foot := fun _ h => h
  unfold execRingFetchReturn at he
  cases he
  refine Within.perform ?_
  repeat' first
    | with_reducible
        first
        | intro _ | exact actRingFetchReturn_within ‹_› .. | exact within_pure _ | refine within_bind ?_ fun _ => ?_
        | split | dsimp only

theorem execDescriptorDeliver_within (r : RingNo) (s : State) {z : State} (he : execDescriptorDeliver r s = .next z) :
    ReachIn actDescriptorDeliver_foot s z := by
  have hF : actDescriptorDeliver_foot ⊆ actDescriptorDeliver_foot := fun _ h => h
  unfold execDescriptorDeliver at he
  cases he
  refine Within.perform ?_
  repeat' first
    | with_reducible
        first
        | intro _ | exact actDescriptorDeliver_within ‹_› .. | exact within_pure _
        | refine within_bind ?_ fun _ => ?_ | split | dsimp only

theorem execDescriptorIssue_within (e : Engine) (s : State) {z : State} (he : execDescriptorIssue e s = .next z) :
    ReachIn actDescriptorIssue_foot s z := by
  have hF : actDescriptorIssue_foot ⊆ actDescriptorIssue_foot := fun _ h => h
  unfold execDescriptorIssue at he
  cases he
  refine Within.perform ?_
  repeat' first
    | with_reducible
        first
        | intro _ | exact actDescriptorIssue_within ‹_› .. | exact within_pure _ | refine within_bind ?_ fun _ => ?_
        | split | dsimp only

theorem execDescriptorComplete_within (id : Nat) (s : State) {z : State} (he : execDescriptorComplete id s = .next z) :
    ReachIn actDescriptorComplete_foot s z := by
  have hF : actDescriptorComplete_foot ⊆ actDescriptorComplete_foot := fun _ h => h
  unfold execDescriptorComplete at he
  cases he
  refine Within.perform ?_
  repeat' first
    | with_reducible
        first
        | intro _ | exact actDescriptorComplete_within ‹_› .. | exact within_pure _
        | refine within_bind ?_ fun _ => ?_ | split | dsimp only

theorem execCqRecordWrite_within (g : GrpNo) (ok : Bool) (s : State) {z : State} (he : execCqRecordWrite g ok s = .next z) :
    ReachIn actCqRecordWrite_foot s z := by
  have hF : actCqRecordWrite_foot ⊆ actCqRecordWrite_foot := fun _ h => h
  unfold execCqRecordWrite at he
  cases he
  refine Within.perform ?_
  repeat' first
    | with_reducible
        first
        | intro _ | exact actCqRecordWrite_within ‹_› .. | exact within_pure _ | refine within_bind ?_ fun _ => ?_
        | split | dsimp only

theorem execMsixSend_within (g : GrpNo) (s : State) {z : State} (he : execMsixSend g s = .next z) :
    ReachIn actMsixSend_foot s z := by
  have hF : actMsixSend_foot ⊆ actMsixSend_foot := fun _ h => h
  unfold execMsixSend at he
  cases he
  refine Within.perform ?_
  repeat' first
    | with_reducible
        first
        | intro _ | exact actMsixSend_within ‹_› .. | exact within_pure _ | refine within_bind ?_ fun _ => ?_ | split
        | dsimp only

theorem execMsixHoldoffEnd_within (g : GrpNo) (s : State) {z : State} (he : execMsixHoldoffEnd g s = .next z) :
    ReachIn actMsixHoldoffEnd_foot s z := by
  have hF : actMsixHoldoffEnd_foot ⊆ actMsixHoldoffEnd_foot := fun _ h => h
  unfold execMsixHoldoffEnd at he
  cases he
  refine Within.perform ?_
  repeat' first
    | with_reducible
        first
        | intro _ | exact actMsixHoldoffEnd_within ‹_› .. | exact within_pure _ | refine within_bind ?_ fun _ => ?_
        | split | dsimp only

theorem execMsixUnmask_within (port : HostNo) (vec : Option (Fin 2048)) (s : State) {z : State} (he : execMsixUnmask port vec s = .next z) :
    ReachIn actMsixUnmask_foot s z := by
  have hF : actMsixUnmask_foot ⊆ actMsixUnmask_foot := fun _ h => h
  unfold execMsixUnmask at he
  cases he
  refine Within.perform ?_
  repeat' first
    | with_reducible
        first
        | intro _ | exact actMsixUnmask_within ‹_› .. | exact within_pure _ | refine within_bind ?_ fun _ => ?_
        | split | dsimp only

theorem execNop_within (id : Nat) (s : State) {z : State} (he : execNop id s = .next z) :
    ReachIn selfExec_foot s z := by
  have hF : selfExec_foot ⊆ selfExec_foot := fun _ h => h
  unfold execNop at he
  cases he
  refine Within.perform ?_
  repeat' first
    | with_reducible
        first
        | intro _ | exact demand_within .. | exact sound_within .. | exact within_pure _
        | refine within_bind ?_ fun _ => ?_ | refine withinP_seqRight ?_ ?_
        | refine selfExec_within ‹_› _ _ fun _ => ?_ | exact withinW_pure _ | exact withinW_get
        | refine withinW_doing ?_ | refine withinW_bind ?_ fun _ => ?_ | refine withinW_map _ ?_
        | refine withinP_run ?_ | exact withinP_pure _ | refine withinP_lift ?_ | refine withinP_bind ?_ fun _ => ?_
        | split | dsimp only

theorem execStreamSet_within (id : Nat) (s : State) {z : State} (he : execStreamSet id s = .next z) :
    ReachIn actStreamSet_foot s z := by
  have hF : actStreamSet_foot ⊆ actStreamSet_foot := fun _ h => h
  unfold execStreamSet at he
  cases he
  refine Within.perform ?_
  repeat' first
    | with_reducible
        first
        | intro _ | exact actStreamSet_within ‹_› .. | exact within_pure _ | refine within_bind ?_ fun _ => ?_
        | split | dsimp only

def execCounterAdd_foot : Foot := selfExec_foot ++ counterAddWork_foot
theorem execCounterAdd_within (id : Nat) (s : State) {z : State} (he : execCounterAdd id s = .next z) :
    ReachIn execCounterAdd_foot s z := by
  obtain ⟨G, hG⟩ : ∃ G, G = execCounterAdd_foot := ⟨_, rfl⟩
  have hF : execCounterAdd_foot ⊆ G := hG ▸ fun _ h => h
  rw [← hG]
  simp only [execCounterAdd_foot, List.append_subset] at hF
  obtain ⟨_, _⟩ := hF
  unfold execCounterAdd at he
  cases he
  refine Within.perform ?_
  repeat' first
    | with_reducible
        first
        | intro _ | exact counterAddWork_within ‹_› .. | exact within_pure _ | refine within_bind ?_ fun _ => ?_
        | refine selfExec_within ‹_› _ _ fun _ => ?_ | exact withinW_pure _ | exact withinW_get
        | refine withinW_doing ?_ | refine withinW_bind ?_ fun _ => ?_ | refine withinW_map _ ?_
        | refine withinP_run ?_ | exact withinP_pure _ | refine withinP_lift ?_ | refine withinP_bind ?_ fun _ => ?_
        | split | dsimp only

def execHostWrite_foot : Foot := selfExec_foot ++ hostWriteWork_foot
theorem execHostWrite_within (id : Nat) (s : State) {z : State} (he : execHostWrite id s = .next z) :
    ReachIn execHostWrite_foot s z := by
  obtain ⟨G, hG⟩ : ∃ G, G = execHostWrite_foot := ⟨_, rfl⟩
  have hF : execHostWrite_foot ⊆ G := hG ▸ fun _ h => h
  rw [← hG]
  simp only [execHostWrite_foot, List.append_subset] at hF
  obtain ⟨_, _⟩ := hF
  unfold execHostWrite at he
  cases he
  refine Within.perform ?_
  repeat' first
    | with_reducible
        first
        | intro _ | exact hostWriteWork_within ‹_› .. | exact within_pure _ | refine within_bind ?_ fun _ => ?_
        | refine selfExec_within ‹_› _ _ fun _ => ?_ | exact withinW_pure _ | exact withinW_get
        | refine withinW_doing ?_ | refine withinW_bind ?_ fun _ => ?_ | refine withinW_map _ ?_
        | refine withinP_run ?_ | exact withinP_pure _ | refine withinP_lift ?_ | refine withinP_bind ?_ fun _ => ?_
        | split | dsimp only

def execRingEnable_foot : Foot := [.reg RING_CTL_ENABLE] ++ (checkedWrite_foot ++ hookRingCtl_foot)
theorem execRingEnable_within (port : HostNo) (r : RingNo) (v : Word) (s : State) {z : State} (he : execRingEnable port r v s = .next z) :
    ReachIn execRingEnable_foot s z := by
  obtain ⟨G, hG⟩ : ∃ G, G = execRingEnable_foot := ⟨_, rfl⟩
  have hF : execRingEnable_foot ⊆ G := hG ▸ fun _ h => h
  rw [← hG]
  simp only [execRingEnable_foot, List.append_subset, List.cons_subset, List.nil_subset, and_true] at hF
  obtain ⟨_, _, _⟩ := hF
  unfold execRingEnable at he
  cases he
  refine Within.perform ?_
  repeat' first
    | with_reducible
        first
        | intro _ | exact hookRingCtl_within ‹_› .. | exact within_pure _ | refine within_bind ?_ fun _ => ?_
        | refine checkedWrite_within ‹_› _ _ _ _ fun w hw => ?_ | split | dsimp only
    | exact hookRingCtl_within ‹_› _

def execRingDisable_foot : Foot := [.reg RING_CTL_ENABLE] ++ (checkedWrite_foot ++ hookRingCtl_foot)
theorem execRingDisable_within (port : HostNo) (r : RingNo) (v : Word) (s : State) {z : State} (he : execRingDisable port r v s = .next z) :
    ReachIn execRingDisable_foot s z := by
  obtain ⟨G, hG⟩ : ∃ G, G = execRingDisable_foot := ⟨_, rfl⟩
  have hF : execRingDisable_foot ⊆ G := hG ▸ fun _ h => h
  rw [← hG]
  simp only [execRingDisable_foot, List.append_subset, List.cons_subset, List.nil_subset, and_true] at hF
  obtain ⟨_, _, _⟩ := hF
  unfold execRingDisable at he
  cases he
  refine Within.perform ?_
  repeat' first
    | with_reducible
        first
        | intro _ | exact hookRingCtl_within ‹_› .. | exact within_pure _ | refine within_bind ?_ fun _ => ?_
        | refine checkedWrite_within ‹_› _ _ _ _ fun w hw => ?_ | split | dsimp only
    | exact hookRingCtl_within ‹_› _

def execRingResume_foot : Foot := [.reg RING_CTL_RESUME] ++ (checkedWrite_foot ++ hookRingCtl_foot)
theorem execRingResume_within (port : HostNo) (r : RingNo) (v : Word) (s : State) {z : State} (he : execRingResume port r v s = .next z) :
    ReachIn execRingResume_foot s z := by
  obtain ⟨G, hG⟩ : ∃ G, G = execRingResume_foot := ⟨_, rfl⟩
  have hF : execRingResume_foot ⊆ G := hG ▸ fun _ h => h
  rw [← hG]
  simp only [execRingResume_foot, List.append_subset, List.cons_subset, List.nil_subset, and_true] at hF
  obtain ⟨_, _, _⟩ := hF
  unfold execRingResume at he
  cases he
  refine Within.perform ?_
  repeat' first
    | with_reducible
        first
        | intro _ | exact hookRingCtl_within ‹_› .. | exact within_pure _ | refine within_bind ?_ fun _ => ?_
        | refine checkedWrite_within ‹_› _ _ _ _ fun w hw => ?_ | split | dsimp only
    | exact hookRingCtl_within ‹_› _

def execRetiredWrite_foot : Foot := [.reg RING_RETIRED_RETIRED] ++ (checkedWrite_foot ++ hookRetired_foot)
theorem execRetiredWrite_within (port : HostNo) (r : RingNo) (v : Word) (s : State) {z : State} (he : execRetiredWrite port r v s = .next z) :
    ReachIn execRetiredWrite_foot s z := by
  obtain ⟨G, hG⟩ : ∃ G, G = execRetiredWrite_foot := ⟨_, rfl⟩
  have hF : execRetiredWrite_foot ⊆ G := hG ▸ fun _ h => h
  rw [← hG]
  simp only [execRetiredWrite_foot, List.append_subset, List.cons_subset, List.nil_subset, and_true] at hF
  obtain ⟨_, _, _⟩ := hF
  unfold execRetiredWrite at he
  cases he
  refine Within.perform ?_
  repeat' first
    | with_reducible
        first
        | intro _ | exact hookRetired_within ‹_› ‹_› .. | exact within_pure _ | refine within_bind ?_ fun _ => ?_
        | refine checkedWrite_within ‹_› _ _ _ _ fun w hw => ?_ | split | dsimp only
    | exact hookRetired_within ‹_› (free_ofField ‹_› hw)

def execGroupActivate_foot : Foot := [.reg GRP_DB_ADDR] ++ checkedWrite_foot
theorem execGroupActivate_within (port : HostNo) (g : GrpNo) (v : Word) (s : State) {z : State} (he : execGroupActivate port g v s = .next z) :
    ReachIn execGroupActivate_foot s z := by
  obtain ⟨G, hG⟩ : ∃ G, G = execGroupActivate_foot := ⟨_, rfl⟩
  have hF : execGroupActivate_foot ⊆ G := hG ▸ fun _ h => h
  rw [← hG]
  simp only [execGroupActivate_foot, List.append_subset, List.cons_subset, List.nil_subset, and_true] at hF
  obtain ⟨_, _⟩ := hF
  unfold execGroupActivate at he
  cases he
  refine Within.perform ?_
  repeat' first
    | with_reducible
        first
        | intro _ | exact hookGrpDb_within ‹_› .. | exact within_pure _ | refine within_bind ?_ fun _ => ?_
        | refine checkedWrite_within ‹_› _ _ _ _ fun w hw => ?_ | split | dsimp only
    | exact hookGrpDb_within (free_ofField ‹_› hw)

theorem execTxnTagGrant_within (s : State) {z : State} (he : execTxnTagGrant s = .next z) :
    ReachIn actTxnTagGrant_foot s z := by
  have hF : actTxnTagGrant_foot ⊆ actTxnTagGrant_foot := fun _ h => h
  unfold execTxnTagGrant at he
  cases he
  refine Within.perform ?_
  repeat' first
    | with_reducible
        first
        | intro _ | exact actTxnTagGrant_within ‹_› .. | exact within_pure _ | refine within_bind ?_ fun _ => ?_
        | split | dsimp only

theorem execPllLock_within (s : State) {z : State} (he : execPllLock s = .next z) :
    ReachIn actPllLock_foot s z := by
  have hF : actPllLock_foot ⊆ actPllLock_foot := fun _ h => h
  unfold execPllLock at he
  cases he
  refine Within.perform ?_
  repeat' first
    | with_reducible
        first
        | intro _ | exact actPllLock_within ‹_› .. | exact within_pure _ | refine within_bind ?_ fun _ => ?_ | split
        | dsimp only

theorem execPllUnlock_within (s : State) {z : State} (he : execPllUnlock s = .next z) :
    ReachIn actPllUnlock_foot s z := by
  have hF : actPllUnlock_foot ⊆ actPllUnlock_foot := fun _ h => h
  unfold execPllUnlock at he
  cases he
  refine Within.perform ?_
  repeat' first
    | with_reducible
        first
        | intro _ | exact actPllUnlock_within ‹_› .. | exact within_pure _ | refine within_bind ?_ fun _ => ?_
        | split | dsimp only

theorem execTbBroadcast_within (diffs : List (Fin 105 × Int)) (s : State) {z : State} (he : execTbBroadcast diffs s = .next z) :
    ReachIn actTbBroadcast_foot s z := by
  have hF : actTbBroadcast_foot ⊆ actTbBroadcast_foot := fun _ h => h
  unfold execTbBroadcast at he
  cases he
  refine Within.perform ?_
  repeat' first
    | with_reducible
        first
        | intro _ | exact actTbBroadcast_within ‹_› .. | exact within_pure _ | refine within_bind ?_ fun _ => ?_
        | split | dsimp only

def execTbCapture_foot : Foot := [.reg TB_CTL_CAPTURE] ++ (checkedWrite_foot ++ hookTbCtl_foot)
theorem execTbCapture_within (port : HostNo) (v : Word) (s : State) {z : State} (he : execTbCapture port v s = .next z) :
    ReachIn execTbCapture_foot s z := by
  obtain ⟨G, hG⟩ : ∃ G, G = execTbCapture_foot := ⟨_, rfl⟩
  have hF : execTbCapture_foot ⊆ G := hG ▸ fun _ h => h
  rw [← hG]
  simp only [execTbCapture_foot, List.append_subset, List.cons_subset, List.nil_subset, and_true] at hF
  obtain ⟨_, _, _⟩ := hF
  unfold execTbCapture at he
  cases he
  refine Within.perform ?_
  repeat' first
    | with_reducible
        first
        | intro _ | exact hookTbCtl_within ‹_› ‹_› .. | exact within_pure _ | refine within_bind ?_ fun _ => ?_
        | refine checkedWrite_within ‹_› _ _ _ _ fun w hw => ?_ | split | dsimp only
    | exact hookTbCtl_within ‹_› (free_ofField ‹_› hw)

def execTbLoad_foot : Foot := [.reg TB_CTL_LOAD] ++ (checkedWrite_foot ++ hookTbCtl_foot)
theorem execTbLoad_within (port : HostNo) (v : Word) (s : State) {z : State} (he : execTbLoad port v s = .next z) :
    ReachIn execTbLoad_foot s z := by
  obtain ⟨G, hG⟩ : ∃ G, G = execTbLoad_foot := ⟨_, rfl⟩
  have hF : execTbLoad_foot ⊆ G := hG ▸ fun _ h => h
  rw [← hG]
  simp only [execTbLoad_foot, List.append_subset, List.cons_subset, List.nil_subset, and_true] at hF
  obtain ⟨_, _, _⟩ := hF
  unfold execTbLoad at he
  cases he
  refine Within.perform ?_
  repeat' first
    | with_reducible
        first
        | intro _ | exact hookTbCtl_within ‹_› ‹_› .. | exact within_pure _ | refine within_bind ?_ fun _ => ?_
        | refine checkedWrite_within ‹_› _ _ _ _ fun w hw => ?_ | split | dsimp only
    | exact hookTbCtl_within ‹_› (free_ofField ‹_› hw)

theorem execSyncRequestSend_within (f1 : BitVec 2) (s : State) {z : State} (he : execSyncRequestSend f1 s = .next z) :
    ReachIn actSyncRequestSend_foot s z := by
  have hF : actSyncRequestSend_foot ⊆ actSyncRequestSend_foot := fun _ h => h
  unfold execSyncRequestSend at he
  cases he
  refine Within.perform ?_
  repeat' first
    | with_reducible
        first
        | intro _ | exact actSyncRequestSend_within ‹_› .. | exact within_pure _ | refine within_bind ?_ fun _ => ?_
        | split | dsimp only

theorem execSyncRequestReceive_within (p : PortNo) (f2 f3 : BitVec 2) (s : State) {z : State} (he : execSyncRequestReceive p f2 f3 s = .next z) :
    ReachIn actSyncRequestReceive_foot s z := by
  have hF : actSyncRequestReceive_foot ⊆ actSyncRequestReceive_foot := fun _ h => h
  unfold execSyncRequestReceive at he
  cases he
  refine Within.perform ?_
  repeat' first
    | with_reducible
        first
        | intro _ | exact actSyncRequestReceive_within ‹_› .. | exact within_pure _
        | refine within_bind ?_ fun _ => ?_ | split | dsimp only

theorem execSyncResponseReceive_within (p : PortNo) (f4 : BitVec 2) (replayed : Bool) (s : State) {z : State} (he : execSyncResponseReceive p f4 replayed s = .next z) :
    ReachIn actSyncResponseReceive_foot s z := by
  have hF : actSyncResponseReceive_foot ⊆ actSyncResponseReceive_foot := fun _ h => h
  unfold execSyncResponseReceive at he
  cases he
  refine Within.perform ?_
  repeat' first
    | with_reducible
        first
        | intro _ | exact actSyncResponseReceive_within ‹_› .. | exact within_pure _
        | refine within_bind ?_ fun _ => ?_ | split | dsimp only

theorem execSyncResponseMissed_within (s : State) {z : State} (he : execSyncResponseMissed s = .next z) :
    ReachIn actSyncResponseMissed_foot s z := by
  have hF : actSyncResponseMissed_foot ⊆ actSyncResponseMissed_foot := fun _ h => h
  unfold execSyncResponseMissed at he
  cases he
  refine Within.perform ?_
  repeat' first
    | with_reducible
        first
        | intro _ | exact actSyncResponseMissed_within ‹_› .. | exact within_pure _
        | refine within_bind ?_ fun _ => ?_ | split | dsimp only

theorem execStampReached_within (target : BitVec 8) (lc : Fin 16) (s : State) {z : State} (he : execStampReached target lc s = .next z) :
    ReachIn actStampReached_foot s z := by
  have hF : actStampReached_foot ⊆ actStampReached_foot := fun _ h => h
  unfold execStampReached at he
  cases he
  refine Within.perform ?_
  repeat' first
    | with_reducible
        first
        | intro _ | exact actStampReached_within ‹_› .. | exact within_pure _ | refine within_bind ?_ fun _ => ?_
        | split | dsimp only

def execLinkEnable_foot : Foot := [.reg LINK_CTL_EN] ++ (checkedWrite_foot ++ hookLinkCtl_foot)
theorem execLinkEnable_within (port : HostNo) (p : PortNo) (v : Word) (s : State) {z : State} (he : execLinkEnable port p v s = .next z) :
    ReachIn execLinkEnable_foot s z := by
  obtain ⟨G, hG⟩ : ∃ G, G = execLinkEnable_foot := ⟨_, rfl⟩
  have hF : execLinkEnable_foot ⊆ G := hG ▸ fun _ h => h
  rw [← hG]
  simp only [execLinkEnable_foot, List.append_subset, List.cons_subset, List.nil_subset, and_true] at hF
  obtain ⟨_, _, _⟩ := hF
  unfold execLinkEnable at he
  cases he
  refine Within.perform ?_
  repeat' first
    | with_reducible
        first
        | intro _ | exact hookLinkCtl_within ‹_› ‹_› .. | exact within_pure _ | refine within_bind ?_ fun _ => ?_
        | refine checkedWrite_within ‹_› _ _ _ _ fun w hw => ?_ | split | dsimp only
    | exact hookLinkCtl_within ‹_› (free_ofField ‹_› hw)

theorem execLaneTrained_within (p : PortNo) (lane : Fin 8) (ok : Bool) (s : State) {z : State} (he : execLaneTrained p lane ok s = .next z) :
    ReachIn actLaneTrained_foot s z := by
  have hF : actLaneTrained_foot ⊆ actLaneTrained_foot := fun _ h => h
  unfold execLaneTrained at he
  cases he
  refine Within.perform ?_
  repeat' first
    | with_reducible
        first
        | intro _ | exact actLaneTrained_within ‹_› .. | exact within_pure _ | refine within_bind ?_ fun _ => ?_
        | split | dsimp only

theorem execPortAligned_within (p : PortNo) (reversed : Bool) (tx rx : BitVec 16) (s : State) {z : State} (he : execPortAligned p reversed tx rx s = .next z) :
    ReachIn actPortAligned_foot s z := by
  have hF : actPortAligned_foot ⊆ actPortAligned_foot := fun _ h => h
  unfold execPortAligned at he
  cases he
  refine Within.perform ?_
  repeat' first
    | with_reducible
        first
        | intro _ | exact actPortAligned_within ‹_› .. | exact within_pure _ | refine within_bind ?_ fun _ => ?_
        | split | dsimp only

theorem execPeerInfoReceive_within (p : PortNo) (mod : BitVec 16) (peer : BitVec 5) (lanes : BitVec 8) (tx rx : BitVec 16) (s : State) {z : State} (he : execPeerInfoReceive p mod peer lanes tx rx s = .next z) :
    ReachIn actPeerInfoReceive_foot s z := by
  have hF : actPeerInfoReceive_foot ⊆ actPeerInfoReceive_foot := fun _ h => h
  unfold execPeerInfoReceive at he
  cases he
  refine Within.perform ?_
  repeat' first
    | with_reducible
        first
        | intro _ | exact actPeerInfoReceive_within ‹_› .. | exact within_pure _ | refine within_bind ?_ fun _ => ?_
        | split | dsimp only

def execRetrain_foot : Foot := [.reg LINK_CTL_RETRAIN] ++ (checkedWrite_foot ++ hookLinkCtl_foot)
theorem execRetrain_within (port : HostNo) (p : PortNo) (v : Word) (s : State) {z : State} (he : execRetrain port p v s = .next z) :
    ReachIn execRetrain_foot s z := by
  obtain ⟨G, hG⟩ : ∃ G, G = execRetrain_foot := ⟨_, rfl⟩
  have hF : execRetrain_foot ⊆ G := hG ▸ fun _ h => h
  rw [← hG]
  simp only [execRetrain_foot, List.append_subset, List.cons_subset, List.nil_subset, and_true] at hF
  obtain ⟨_, _, _⟩ := hF
  unfold execRetrain at he
  cases he
  refine Within.perform ?_
  repeat' first
    | with_reducible
        first
        | intro _ | exact hookLinkCtl_within ‹_› ‹_› .. | exact within_pure _ | refine within_bind ?_ fun _ => ?_
        | refine checkedWrite_within ‹_› _ _ _ _ fun w hw => ?_ | split | dsimp only
    | exact hookLinkCtl_within ‹_› (free_ofField ‹_› hw)

theorem execFlitReceive_within (p : PortNo) (f : Flit) (fecBad : Bool) (s : State) {z : State} (he : execFlitReceive p f fecBad s = .next z) :
    ReachIn actFlitReceive_foot s z := by
  have hF : actFlitReceive_foot ⊆ actFlitReceive_foot := fun _ h => h
  unfold execFlitReceive at he
  cases he
  refine Within.perform ?_
  repeat' first
    | with_reducible
        first
        | intro _ | exact actFlitReceive_within ‹_› .. | exact within_pure _ | refine within_bind ?_ fun _ => ?_
        | split | dsimp only

theorem execReplayTimeout_within (p : PortNo) (s : State) {z : State} (he : execReplayTimeout p s = .next z) :
    ReachIn actReplayTimeout_foot s z := by
  have hF : actReplayTimeout_foot ⊆ actReplayTimeout_foot := fun _ h => h
  unfold execReplayTimeout at he
  cases he
  refine Within.perform ?_
  repeat' first
    | with_reducible
        first
        | intro _ | exact actReplayTimeout_within ‹_› .. | exact within_pure _ | refine within_bind ?_ fun _ => ?_
        | split | dsimp only

theorem execLaneLockLoss_within (p : PortNo) (lane : Fin 8) (s : State) {z : State} (he : execLaneLockLoss p lane s = .next z) :
    ReachIn actLaneLockLoss_foot s z := by
  have hF : actLaneLockLoss_foot ⊆ actLaneLockLoss_foot := fun _ h => h
  unfold execLaneLockLoss at he
  cases he
  refine Within.perform ?_
  repeat' first
    | with_reducible
        first
        | intro _ | exact actLaneLockLoss_within ‹_› .. | exact within_pure _ | refine within_bind ?_ fun _ => ?_
        | split | dsimp only

theorem execDegradeWindowEnd_within (p : PortNo) (ce ue : List (BitVec 32)) (s : State) {z : State} (he : execDegradeWindowEnd p ce ue s = .next z) :
    ReachIn actDegradeWindowEnd_foot s z := by
  have hF : actDegradeWindowEnd_foot ⊆ actDegradeWindowEnd_foot := fun _ h => h
  unfold execDegradeWindowEnd at he
  split at he <;> cases he
  refine Within.perform ?_
  repeat' first
    | with_reducible
        first
        | intro _ | exact actDegradeWindowEnd_within ‹_› .. | exact within_pure _ | refine within_bind ?_ fun _ => ?_
        | refine within_ite ?_ ?_ | split | dsimp only

theorem execPortIdleEnd_within (p : PortNo) (s : State) {z : State} (he : execPortIdleEnd p s = .next z) :
    ReachIn actPortIdleEnd_foot s z := by
  have hF : actPortIdleEnd_foot ⊆ actPortIdleEnd_foot := fun _ h => h
  unfold execPortIdleEnd at he
  cases he
  refine Within.perform ?_
  repeat' first
    | with_reducible
        first
        | intro _ | exact actPortIdleEnd_within ‹_› .. | exact within_pure _ | refine within_bind ?_ fun _ => ?_
        | split | dsimp only

theorem execFrameForward_within (p : PortNo) (s : State) {z : State} (he : execFrameForward p s = .next z) :
    ReachIn actFrameForward_foot s z := by
  have hF : actFrameForward_foot ⊆ actFrameForward_foot := fun _ h => h
  unfold execFrameForward at he
  cases he
  refine Within.perform ?_
  repeat' first
    | with_reducible
        first
        | intro _ | exact actFrameForward_within ‹_› .. | exact within_pure _ | refine within_bind ?_ fun _ => ?_
        | split | dsimp only

theorem execWriteFrameReceive_within (p : Option PortNo) (s : State) {z : State} (he : execWriteFrameReceive p s = .next z) :
    ReachIn actWriteFrameReceive_foot s z := by
  have hF : actWriteFrameReceive_foot ⊆ actWriteFrameReceive_foot := fun _ h => h
  unfold execWriteFrameReceive at he
  cases he
  refine Within.perform ?_
  repeat' first
    | with_reducible
        first
        | intro _ | exact actWriteFrameReceive_within ‹_› .. | exact within_pure _
        | refine within_bind ?_ fun _ => ?_ | split | dsimp only

theorem execCollFrameReceive_within (p : Option PortNo) (contrib : BitVec 32) (s : State) {z : State} (he : execCollFrameReceive p contrib s = .next z) :
    ReachIn actCollFrameReceive_foot s z := by
  have hF : actCollFrameReceive_foot ⊆ actCollFrameReceive_foot := fun _ h => h
  unfold execCollFrameReceive at he
  cases he
  refine Within.perform ?_
  repeat' first
    | with_reducible
        first
        | intro _ | exact actCollFrameReceive_within ‹_› .. | exact within_pure _ | refine within_bind ?_ fun _ => ?_
        | split | dsimp only

theorem execMembershipFrameReceive_within (p : Option PortNo) (s : State) {z : State} (he : execMembershipFrameReceive p s = .next z) :
    ReachIn actMembershipFrameReceive_foot s z := by
  have hF : actMembershipFrameReceive_foot ⊆ actMembershipFrameReceive_foot := fun _ h => h
  unfold execMembershipFrameReceive at he
  cases he
  refine Within.perform ?_
  repeat' first
    | with_reducible
        first
        | intro _ | exact actMembershipFrameReceive_within ‹_› .. | exact within_pure _
        | refine within_bind ?_ fun _ => ?_ | split | dsimp only

theorem execAckReceive_within (p : Option PortNo) (s : State) {z : State} (he : execAckReceive p s = .next z) :
    ReachIn actAckReceive_foot s z := by
  have hF : actAckReceive_foot ⊆ actAckReceive_foot := fun _ h => h
  unfold execAckReceive at he
  cases he
  refine Within.perform ?_
  repeat' first
    | with_reducible
        first
        | intro _ | exact actAckReceive_within ‹_› .. | exact within_pure _ | refine within_bind ?_ fun _ => ?_
        | split | dsimp only

theorem execNoticeReceive_within (p : Option PortNo) (s : State) {z : State} (he : execNoticeReceive p s = .next z) :
    ReachIn actNoticeReceive_foot s z := by
  have hF : actNoticeReceive_foot ⊆ actNoticeReceive_foot := fun _ h => h
  unfold execNoticeReceive at he
  cases he
  refine Within.perform ?_
  repeat' first
    | with_reducible
        first
        | intro _ | exact actNoticeReceive_within ‹_› .. | exact within_pure _ | refine within_bind ?_ fun _ => ?_
        | split | dsimp only

theorem execReasmTimeout_within (p : PortNo) (vl : Fin 17) (cls : Bool) (s : State) {z : State} (he : execReasmTimeout p vl cls s = .next z) :
    ReachIn actReasmTimeout_foot s z := by
  have hF : actReasmTimeout_foot ⊆ actReasmTimeout_foot := fun _ h => h
  unfold execReasmTimeout at he
  cases he
  refine Within.perform ?_
  repeat' first
    | with_reducible
        first
        | intro _ | exact actReasmTimeout_within ‹_› .. | exact within_pure _ | refine within_bind ?_ fun _ => ?_
        | refine within_ite ?_ ?_ | split | dsimp only

theorem execAckTimeout_within (tag : BitVec 32) (s : State) {z : State} (he : execAckTimeout tag s = .next z) :
    ReachIn actAckTimeout_foot s z := by
  have hF : actAckTimeout_foot ⊆ actAckTimeout_foot := fun _ h => h
  unfold execAckTimeout at he
  cases he
  refine Within.perform ?_
  repeat' first
    | with_reducible
        first
        | intro _ | exact actAckTimeout_within ‹_› .. | exact within_pure _ | refine within_bind ?_ fun _ => ?_
        | split | dsimp only

theorem execGenHoldExpire_within (e : EngNo) (s : State) {z : State} (he : execGenHoldExpire e s = .next z) :
    ReachIn actGenHoldExpire_foot s z := by
  have hF : actGenHoldExpire_foot ⊆ actGenHoldExpire_foot := fun _ h => h
  unfold execGenHoldExpire at he
  cases he
  refine Within.perform ?_
  repeat' first
    | with_reducible
        first
        | intro _ | exact actGenHoldExpire_within ‹_› .. | exact within_pure _ | refine within_bind ?_ fun _ => ?_
        | split | dsimp only

theorem execSilentThreshold_within (e : EngNo) (id : Nat) (member : BitVec 16) (s : State) {z : State} (he : execSilentThreshold e id member s = .next z) :
    ReachIn actSilentThreshold_foot s z := by
  have hF : actSilentThreshold_foot ⊆ actSilentThreshold_foot := fun _ h => h
  unfold execSilentThreshold at he
  cases he
  refine Within.perform ?_
  repeat' first
    | with_reducible
        first
        | intro _ | exact actSilentThreshold_within ‹_› .. | exact within_pure _ | refine within_bind ?_ fun _ => ?_
        | split | dsimp only

theorem execFabSend_within (id : Nat) (s : State) {z : State} (he : execFabSend id s = .next z) :
    ReachIn actFabSend_foot s z := by
  have hF : actFabSend_foot ⊆ actFabSend_foot := fun _ h => h
  unfold execFabSend at he
  cases he
  refine Within.perform ?_
  repeat' first
    | with_reducible
        first
        | intro _ | exact actFabSend_within ‹_› .. | exact within_pure _ | refine within_bind ?_ fun _ => ?_ | split
        | dsimp only

theorem execCollAllReduce_within (id : Nat) (s : State) {z : State} (he : execCollAllReduce id s = .next z) :
    ReachIn actCollective_foot s z := by
  have hF : actCollective_foot ⊆ actCollective_foot := fun _ h => h
  unfold execCollAllReduce at he
  cases he
  refine Within.perform ?_
  repeat' first
    | with_reducible
        first
        | intro _ | exact actCollective_within ‹_› .. | exact within_pure _ | refine within_bind ?_ fun _ => ?_
        | split | dsimp only

theorem execCollReduceScatter_within (id : Nat) (s : State) {z : State} (he : execCollReduceScatter id s = .next z) :
    ReachIn actCollective_foot s z := by
  have hF : actCollective_foot ⊆ actCollective_foot := fun _ h => h
  unfold execCollReduceScatter at he
  cases he
  refine Within.perform ?_
  repeat' first
    | with_reducible
        first
        | intro _ | exact actCollective_within ‹_› .. | exact within_pure _ | refine within_bind ?_ fun _ => ?_
        | split | dsimp only

theorem execCollAllGather_within (id : Nat) (s : State) {z : State} (he : execCollAllGather id s = .next z) :
    ReachIn actCollective_foot s z := by
  have hF : actCollective_foot ⊆ actCollective_foot := fun _ h => h
  unfold execCollAllGather at he
  cases he
  refine Within.perform ?_
  repeat' first
    | with_reducible
        first
        | intro _ | exact actCollective_within ‹_› .. | exact within_pure _ | refine within_bind ?_ fun _ => ?_
        | split | dsimp only

theorem execCollVoteSum_within (id : Nat) (s : State) {z : State} (he : execCollVoteSum id s = .next z) :
    ReachIn actCollective_foot s z := by
  have hF : actCollective_foot ⊆ actCollective_foot := fun _ h => h
  unfold execCollVoteSum at he
  cases he
  refine Within.perform ?_
  repeat' first
    | with_reducible
        first
        | intro _ | exact actCollective_within ‹_› .. | exact within_pure _ | refine within_bind ?_ fun _ => ?_
        | split | dsimp only

theorem execCollDispatch_within (id : Nat) (s : State) {z : State} (he : execCollDispatch id s = .next z) :
    ReachIn actCollDispatch_foot s z := by
  have hF : actCollDispatch_foot ⊆ actCollDispatch_foot := fun _ h => h
  unfold execCollDispatch at he
  cases he
  refine Within.perform ?_
  repeat' first
    | with_reducible
        first
        | intro _ | exact actCollDispatch_within ‹_› .. | exact within_pure _ | refine within_bind ?_ fun _ => ?_
        | split | dsimp only

theorem execCollCombine_within (id : Nat) (s : State) {z : State} (he : execCollCombine id s = .next z) :
    ReachIn actCollCombine_foot s z := by
  have hF : actCollCombine_foot ⊆ actCollCombine_foot := fun _ h => h
  unfold execCollCombine at he
  cases he
  refine Within.perform ?_
  repeat' first
    | with_reducible
        first
        | intro _ | exact actCollCombine_within ‹_› .. | exact within_pure _ | refine within_bind ?_ fun _ => ?_
        | split | dsimp only

theorem execGroupSetLocal_within (id : Nat) (s : State) {z : State} (he : execGroupSetLocal id s = .next z) :
    ReachIn actGroupSet_foot s z := by
  have hF : actGroupSet_foot ⊆ actGroupSet_foot := fun _ h => h
  unfold execGroupSetLocal at he
  cases he
  refine Within.perform ?_
  repeat' first
    | with_reducible
        first
        | intro _ | exact actGroupSet_within ‹_› .. | exact within_pure _ | refine within_bind ?_ fun _ => ?_ | split
        | dsimp only

theorem execGroupSetDistribute_within (id : Nat) (s : State) {z : State} (he : execGroupSetDistribute id s = .next z) :
    ReachIn actGroupSet_foot s z := by
  have hF : actGroupSet_foot ⊆ actGroupSet_foot := fun _ h => h
  unfold execGroupSetDistribute at he
  cases he
  refine Within.perform ?_
  repeat' first
    | with_reducible
        first
        | intro _ | exact actGroupSet_within ‹_› .. | exact within_pure _ | refine within_bind ?_ fun _ => ?_ | split
        | dsimp only

theorem execGroupSetRemove_within (id : Nat) (s : State) {z : State} (he : execGroupSetRemove id s = .next z) :
    ReachIn actGroupSet_foot s z := by
  have hF : actGroupSet_foot ⊆ actGroupSet_foot := fun _ h => h
  unfold execGroupSetRemove at he
  cases he
  refine Within.perform ?_
  repeat' first
    | with_reducible
        first
        | intro _ | exact actGroupSet_within ‹_› .. | exact within_pure _ | refine within_bind ?_ fun _ => ?_ | split
        | dsimp only

theorem execVarUpdate_within (n : DieNo) (s : State) {z : State} (he : execVarUpdate n s = .next z) :
    ReachIn actVarUpdate_foot s z := by
  have hF : actVarUpdate_foot ⊆ actVarUpdate_foot := fun _ h => h
  unfold execVarUpdate at he
  cases he
  refine Within.perform ?_
  repeat' first
    | with_reducible
        first
        | intro _ | exact actVarUpdate_within ‹_› .. | exact within_pure _ | refine within_bind ?_ fun _ => ?_
        | split | dsimp only

theorem execVarPass1End_within (n : DieNo) (s : State) {z : State} (he : execVarPass1End n s = .next z) :
    ReachIn actVarPass1End_foot s z := by
  have hF : actVarPass1End_foot ⊆ actVarPass1End_foot := fun _ h => h
  unfold execVarPass1End at he
  cases he
  refine Within.perform ?_
  repeat' first
    | with_reducible
        first
        | intro _ | exact actVarPass1End_within ‹_› .. | exact within_pure _ | refine within_bind ?_ fun _ => ?_
        | split | dsimp only

theorem execExchangeModuleRecord_within (e : EngNo) (s : State) {z : State} (he : execExchangeModuleRecord e s = .next z) :
    ReachIn actExchangeModuleRecord_foot s z := by
  have hF : actExchangeModuleRecord_foot ⊆ actExchangeModuleRecord_foot := fun _ h => h
  unfold execExchangeModuleRecord at he
  cases he
  refine Within.perform ?_
  repeat' first
    | with_reducible
        first
        | intro _ | exact actExchangeModuleRecord_within ‹_› .. | exact within_pure _
        | refine within_bind ?_ fun _ => ?_ | split | dsimp only

theorem execExchangeGatherComplete_within (e : EngNo) (s : State) {z : State} (he : execExchangeGatherComplete e s = .next z) :
    ReachIn actExchangeGatherComplete_foot s z := by
  have hF : actExchangeGatherComplete_foot ⊆ actExchangeGatherComplete_foot := fun _ h => h
  unfold execExchangeGatherComplete at he
  cases he
  refine Within.perform ?_
  repeat' first
    | with_reducible
        first
        | intro _ | exact actExchangeGatherComplete_within ‹_› .. | exact within_pure _
        | refine within_bind ?_ fun _ => ?_ | split | dsimp only

theorem execVarPass2End_within (n : DieNo) (s : State) {z : State} (he : execVarPass2End n s = .next z) :
    ReachIn actVarPass2End_foot s z := by
  have hF : actVarPass2End_foot ⊆ actVarPass2End_foot := fun _ h => h
  unfold execVarPass2End at he
  cases he
  refine Within.perform ?_
  repeat' first
    | with_reducible
        first
        | intro _ | exact actVarPass2End_within ‹_› .. | exact within_pure _ | refine within_bind ?_ fun _ => ?_
        | split | dsimp only

def execVarPush_foot : Foot := wholeRun_foot ++ pushWork_foot
theorem execVarPush_within (n : DieNo) (s : State) {z : State} (he : execVarPush n s = .next z) :
    ReachIn execVarPush_foot s z := by
  obtain ⟨G, hG⟩ : ∃ G, G = execVarPush_foot := ⟨_, rfl⟩
  have hF : execVarPush_foot ⊆ G := hG ▸ fun _ h => h
  rw [← hG]
  simp only [execVarPush_foot, List.append_subset] at hF
  obtain ⟨_, _⟩ := hF
  unfold execVarPush at he
  cases he
  refine Within.perform ?_
  repeat' first
    | with_reducible
        first
        | intro _ | exact pushWork_within ‹_› .. | exact within_pure _ | refine within_bind ?_ fun _ => ?_
        | refine wholeRun_within ‹_› _ _ fun _ => ?_ | exact withinW_pure _ | exact withinW_get
        | refine withinW_doing ?_ | refine withinW_bind ?_ fun _ => ?_ | refine withinW_map _ ?_
        | refine withinP_run ?_ | exact withinP_pure _ | refine withinP_lift ?_ | refine withinP_bind ?_ fun _ => ?_
        | split | dsimp only

theorem execVarProgram_within (n : DieNo) (s : State) {z : State} (he : execVarProgram n s = .next z) :
    ReachIn actVarProgram_foot s z := by
  have hF : actVarProgram_foot ⊆ actVarProgram_foot := fun _ h => h
  unfold execVarProgram at he
  cases he
  refine Within.perform ?_
  repeat' first
    | with_reducible
        first
        | intro _ | exact actVarProgram_within ‹_› .. | exact within_pure _ | refine within_bind ?_ fun _ => ?_
        | split | dsimp only

theorem execVarStateSetStep_within (n : DieNo) (s : State) {z : State} (he : execVarStateSetStep n s = .next z) :
    ReachIn actVarState_foot s z := by
  have hF : actVarState_foot ⊆ actVarState_foot := fun _ h => h
  unfold execVarStateSetStep at he
  cases he
  refine Within.perform ?_
  repeat' first
    | with_reducible
        first
        | intro _ | exact actVarState_within ‹_› .. | exact within_pure _ | refine within_bind ?_ fun _ => ?_ | split
        | dsimp only

theorem execVarStateRelease_within (n : DieNo) (s : State) {z : State} (he : execVarStateRelease n s = .next z) :
    ReachIn actVarState_foot s z := by
  have hF : actVarState_foot ⊆ actVarState_foot := fun _ h => h
  unfold execVarStateRelease at he
  cases he
  refine Within.perform ?_
  repeat' first
    | with_reducible
        first
        | intro _ | exact actVarState_within ‹_› .. | exact within_pure _ | refine within_bind ?_ fun _ => ?_ | split
        | dsimp only

theorem execStackAccess_within (n : DieNo) (own : Bool) (sender : Option Nat) (addr : Addr) (wr : Option (Granule × Granule)) (upset : BitVec 576) (spare : Bool) (s : State) {z : State} (he : execStackAccess n own sender addr wr upset spare s = .next z) :
    ReachIn actStackAccess_foot s z := by
  have hF : actStackAccess_foot ⊆ actStackAccess_foot := fun _ h => h
  unfold execStackAccess at he
  cases he
  refine Within.perform ?_
  repeat' first
    | with_reducible
        first
        | intro _ | exact actStackAccess_within ‹_› .. | exact within_pure _ | refine within_bind ?_ fun _ => ?_
        | split | dsimp only

theorem execPprComplete_within (n : DieNo) (s : State) {z : State} (he : execPprComplete n s = .next z) :
    ReachIn actPprComplete_foot s z := by
  have hF : actPprComplete_foot ⊆ actPprComplete_foot := fun _ h => h
  unfold execPprComplete at he
  cases he
  refine Within.perform ?_
  repeat' first
    | with_reducible
        first
        | intro _ | exact actPprComplete_within ‹_› .. | exact within_pure _ | refine within_bind ?_ fun _ => ?_
        | split | dsimp only

theorem execVarDieFail_within (n : DieNo) (s : State) {z : State} (he : execVarDieFail n s = .next z) :
    ReachIn actVarDieFail_foot s z := by
  have hF : actVarDieFail_foot ⊆ actVarDieFail_foot := fun _ h => h
  unfold execVarDieFail at he
  cases he
  refine Within.perform ?_
  repeat' first
    | with_reducible
        first
        | intro _ | exact actVarDieFail_within ‹_› .. | exact within_pure _ | refine within_bind ?_ fun _ => ?_
        | split | dsimp only

theorem execRiskWindow_within (hottest : Int) (s : State) {z : State} (he : execRiskWindow hottest s = .next z) :
    ReachIn actRiskWindow_foot s z := by
  have hF : actRiskWindow_foot ⊆ actRiskWindow_foot := fun _ h => h
  unfold execRiskWindow at he
  cases he
  refine Within.perform ?_
  repeat' first
    | with_reducible
        first
        | intro _ | exact actRiskWindow_within ‹_› .. | exact within_pure _ | refine within_bind ?_ fun _ => ?_
        | split | dsimp only

theorem execCopyStepAdvance_within (s : State) {z : State} (he : execCopyStepAdvance s = .next z) :
    ReachIn actCopyStepAdvance_foot s z := by
  have hF : actCopyStepAdvance_foot ⊆ actCopyStepAdvance_foot := fun _ h => h
  unfold execCopyStepAdvance at he
  cases he
  refine Within.perform ?_
  repeat' first
    | with_reducible
        first
        | intro _ | exact actCopyStepAdvance_within ‹_› .. | exact within_pure _ | refine within_bind ?_ fun _ => ?_
        | split | dsimp only

theorem execFixSnapshot_within (id : Nat) (s : State) {z : State} (he : execFixSnapshot id s = .next z) :
    ReachIn actFixSnapshot_foot s z := by
  have hF : actFixSnapshot_foot ⊆ actFixSnapshot_foot := fun _ h => h
  unfold execFixSnapshot at he
  cases he
  refine Within.perform ?_
  repeat' first
    | with_reducible
        first
        | intro _ | exact actFixSnapshot_within ‹_› .. | exact within_pure _ | refine within_bind ?_ fun _ => ?_
        | split | dsimp only

theorem execFixRestoreSend_within (id : Nat) (s : State) {z : State} (he : execFixRestoreSend id s = .next z) :
    ReachIn actFixRestoreSend_foot s z := by
  have hF : actFixRestoreSend_foot ⊆ actFixRestoreSend_foot := fun _ h => h
  unfold execFixRestoreSend at he
  cases he
  refine Within.perform ?_
  repeat' first
    | with_reducible
        first
        | intro _ | exact actFixRestoreSend_within ‹_› .. | exact within_pure _ | refine within_bind ?_ fun _ => ?_
        | split | dsimp only

theorem execFixRestoreApply_within (id : Nat) (s : State) {z : State} (he : execFixRestoreApply id s = .next z) :
    ReachIn actFixRestoreApply_foot s z := by
  have hF : actFixRestoreApply_foot ⊆ actFixRestoreApply_foot := fun _ h => h
  unfold execFixRestoreApply at he
  cases he
  refine Within.perform ?_
  repeat' first
    | with_reducible
        first
        | intro _ | exact actFixRestoreApply_within ‹_› .. | exact within_pure _ | refine within_bind ?_ fun _ => ?_
        | split | dsimp only

theorem execFixRestoreServe_within (id : Nat) (s : State) {z : State} (he : execFixRestoreServe id s = .next z) :
    ReachIn actFixRestoreServe_foot s z := by
  have hF : actFixRestoreServe_foot ⊆ actFixRestoreServe_foot := fun _ h => h
  unfold execFixRestoreServe at he
  cases he
  refine Within.perform ?_
  repeat' first
    | with_reducible
        first
        | intro _ | exact actFixRestoreServe_within ‹_› .. | exact within_pure _ | refine within_bind ?_ fun _ => ?_
        | split | dsimp only

def execRngCheckDisarm_foot : Foot := [.reg RISK_RNG_CHECK_ARMED] ++ checkedWrite_foot
theorem execRngCheckDisarm_within (port : HostNo) (v : Word) (s : State) {z : State} (he : execRngCheckDisarm port v s = .next z) :
    ReachIn execRngCheckDisarm_foot s z := by
  obtain ⟨G, hG⟩ : ∃ G, G = execRngCheckDisarm_foot := ⟨_, rfl⟩
  have hF : execRngCheckDisarm_foot ⊆ G := hG ▸ fun _ h => h
  rw [← hG]
  simp only [execRngCheckDisarm_foot, List.append_subset, List.cons_subset, List.nil_subset, and_true] at hF
  obtain ⟨_, _⟩ := hF
  unfold execRngCheckDisarm at he
  cases he
  refine Within.perform ?_
  repeat' first
    | with_reducible
        first
        | intro _ | exact plainHook_within ‹_› .. | exact within_pure _ | refine within_bind ?_ fun _ => ?_
        | refine checkedWrite_within ‹_› _ _ _ _ fun w hw => ?_ | split | dsimp only
    | exact plainHook_within (free_ofField ‹_› hw)

theorem execHostLoss_within (port : HostNo) (cause : LossCause) (s : State) {z : State} (he : execHostLoss port cause s = .next z) :
    ReachIn actHostLoss_foot s z := by
  have hF : actHostLoss_foot ⊆ actHostLoss_foot := fun _ h => h
  unfold execHostLoss at he
  cases he
  refine Within.perform ?_
  repeat' first
    | with_reducible
        first
        | intro _ | exact actHostLoss_within ‹_› .. | exact within_pure _ | refine within_bind ?_ fun _ => ?_ | split
        | dsimp only

def execAtsInvalidate_foot : Foot := [.fld HOST_ATS_INVALIDATIONS]
theorem execAtsInvalidate_within (port : HostNo) (s : State) {z : State} (he : execAtsInvalidate port s = .next z) :
    ReachIn execAtsInvalidate_foot s z := by
  obtain ⟨G, hG⟩ : ∃ G, G = execAtsInvalidate_foot := ⟨_, rfl⟩
  have hF : execAtsInvalidate_foot ⊆ G := hG ▸ fun _ h => h
  rw [← hG]
  simp only [execAtsInvalidate_foot, List.cons_subset, List.nil_subset, and_true] at hF
  unfold execAtsInvalidate at he
  cases he
  refine Within.perform ?_
  repeat' first
    | with_reducible
        first
        | intro _ | exact within_pure _ | exact within_countUp _ _ _ _ ‹_› | refine within_bind ?_ fun _ => ?_
        | split | dsimp only

def execLock_foot : Foot := [.reg ATL_CTL_LOCK] ++ (checkedWrite_foot ++ hookAtlCtl_foot)
theorem execLock_within (port : HostNo) (a : AtlNo) (v : Word) (s : State) {z : State} (he : execLock port a v s = .next z) :
    ReachIn execLock_foot s z := by
  obtain ⟨G, hG⟩ : ∃ G, G = execLock_foot := ⟨_, rfl⟩
  have hF : execLock_foot ⊆ G := hG ▸ fun _ h => h
  rw [← hG]
  simp only [execLock_foot, List.append_subset, List.cons_subset, List.nil_subset, and_true] at hF
  obtain ⟨_, _, _⟩ := hF
  unfold execLock at he
  cases he
  refine Within.perform ?_
  repeat' first
    | with_reducible
        first
        | intro _ | exact hookAtlCtl_within ‹_› .. | exact within_pure _ | refine within_bind ?_ fun _ => ?_
        | refine checkedWrite_within ‹_› _ _ _ _ fun w hw => ?_ | split | dsimp only
    | exact hookAtlCtl_within ‹_› _

def execQuiesce_foot : Foot := [.reg ATL_CTL_QUIESCE] ++ (checkedWrite_foot ++ hookAtlCtl_foot)
theorem execQuiesce_within (port : HostNo) (a : AtlNo) (v : Word) (s : State) {z : State} (he : execQuiesce port a v s = .next z) :
    ReachIn execQuiesce_foot s z := by
  obtain ⟨G, hG⟩ : ∃ G, G = execQuiesce_foot := ⟨_, rfl⟩
  have hF : execQuiesce_foot ⊆ G := hG ▸ fun _ h => h
  rw [← hG]
  simp only [execQuiesce_foot, List.append_subset, List.cons_subset, List.nil_subset, and_true] at hF
  obtain ⟨_, _, _⟩ := hF
  unfold execQuiesce at he
  cases he
  refine Within.perform ?_
  repeat' first
    | with_reducible
        first
        | intro _ | exact hookAtlCtl_within ‹_› .. | exact within_pure _ | refine within_bind ?_ fun _ => ?_
        | refine checkedWrite_within ‹_› _ _ _ _ fun w hw => ?_ | split | dsimp only
    | exact hookAtlCtl_within ‹_› _

theorem execQuiesceDone_within (a : AtlNo) (s : State) {z : State} (he : execQuiesceDone a s = .next z) :
    ReachIn actQuiesceDone_foot s z := by
  have hF : actQuiesceDone_foot ⊆ actQuiesceDone_foot := fun _ h => h
  unfold execQuiesceDone at he
  cases he
  refine Within.perform ?_
  repeat' first
    | with_reducible
        first
        | intro _ | exact actQuiesceDone_within ‹_› .. | exact within_pure _ | refine within_bind ?_ fun _ => ?_
        | split | dsimp only

theorem execQuiesceStallAbort_within (id : Nat) (s : State) {z : State} (he : execQuiesceStallAbort id s = .next z) :
    ReachIn actQuiesceStallAbort_foot s z := by
  have hF : actQuiesceStallAbort_foot ⊆ actQuiesceStallAbort_foot := fun _ h => h
  unfold execQuiesceStallAbort at he
  cases he
  refine Within.perform ?_
  repeat' first
    | with_reducible
        first
        | intro _ | exact actQuiesceStallAbort_within ‹_› .. | exact within_pure _
        | refine within_bind ?_ fun _ => ?_ | split | dsimp only

def execRelease_foot : Foot := [.reg ATL_CTL_RELEASE] ++ (checkedWrite_foot ++ hookAtlCtl_foot)
theorem execRelease_within (port : HostNo) (a : AtlNo) (v : Word) (s : State) {z : State} (he : execRelease port a v s = .next z) :
    ReachIn execRelease_foot s z := by
  obtain ⟨G, hG⟩ : ∃ G, G = execRelease_foot := ⟨_, rfl⟩
  have hF : execRelease_foot ⊆ G := hG ▸ fun _ h => h
  rw [← hG]
  simp only [execRelease_foot, List.append_subset, List.cons_subset, List.nil_subset, and_true] at hF
  obtain ⟨_, _, _⟩ := hF
  unfold execRelease at he
  cases he
  refine Within.perform ?_
  repeat' first
    | with_reducible
        first
        | intro _ | exact hookAtlCtl_within ‹_› .. | exact within_pure _ | refine within_bind ?_ fun _ => ?_
        | refine checkedWrite_within ‹_› _ _ _ _ fun w hw => ?_ | split | dsimp only
    | exact hookAtlCtl_within ‹_› _

def execAdopt_foot : Foot := [.reg ATL_ADOPT_GO] ++ (checkedWrite_foot ++ hookAdopt_foot)
theorem execAdopt_within (port : HostNo) (v : Word) (s : State) {z : State} (he : execAdopt port v s = .next z) :
    ReachIn execAdopt_foot s z := by
  obtain ⟨G, hG⟩ : ∃ G, G = execAdopt_foot := ⟨_, rfl⟩
  have hF : execAdopt_foot ⊆ G := hG ▸ fun _ h => h
  rw [← hG]
  simp only [execAdopt_foot, List.append_subset, List.cons_subset, List.nil_subset, and_true] at hF
  obtain ⟨_, _, _⟩ := hF
  unfold execAdopt at he
  cases he
  refine Within.perform ?_
  repeat' first
    | with_reducible
        first
        | intro _ | exact hookAdopt_within ‹_› ‹_› .. | exact within_pure _ | refine within_bind ?_ fun _ => ?_
        | refine checkedWrite_within ‹_› _ _ _ _ fun w hw => ?_ | split | dsimp only
    | exact hookAdopt_within ‹_› (free_ofField ‹_› hw)

def execDissolve_foot : Foot := [.reg ATL_DISSOLVE_GO] ++ (checkedWrite_foot ++ hookDissolve_foot)
theorem execDissolve_within (port : HostNo) (v : Word) (s : State) {z : State} (he : execDissolve port v s = .next z) :
    ReachIn execDissolve_foot s z := by
  obtain ⟨G, hG⟩ : ∃ G, G = execDissolve_foot := ⟨_, rfl⟩
  have hF : execDissolve_foot ⊆ G := hG ▸ fun _ h => h
  rw [← hG]
  simp only [execDissolve_foot, List.append_subset, List.cons_subset, List.nil_subset, and_true] at hF
  obtain ⟨_, _, _⟩ := hF
  unfold execDissolve at he
  cases he
  refine Within.perform ?_
  repeat' first
    | with_reducible
        first
        | intro _ | exact hookDissolve_within ‹_› ‹_› .. | exact within_pure _ | refine within_bind ?_ fun _ => ?_
        | refine checkedWrite_within ‹_› _ _ _ _ fun w hw => ?_ | split | dsimp only
    | exact hookDissolve_within ‹_› (free_ofField ‹_› hw)

def execShareSet_foot : Foot := [.reg ATL_SHARE_VALID] ++ (checkedWrite_foot ++ hookShare_foot)
theorem execShareSet_within (port : HostNo) (t : TileNo) (v : Word) (s : State) {z : State} (he : execShareSet port t v s = .next z) :
    ReachIn execShareSet_foot s z := by
  obtain ⟨G, hG⟩ : ∃ G, G = execShareSet_foot := ⟨_, rfl⟩
  have hF : execShareSet_foot ⊆ G := hG ▸ fun _ h => h
  rw [← hG]
  simp only [execShareSet_foot, List.append_subset, List.cons_subset, List.nil_subset, and_true] at hF
  obtain ⟨_, _, _⟩ := hF
  unfold execShareSet at he
  cases he
  refine Within.perform ?_
  repeat' first
    | with_reducible
        first
        | intro _ | exact hookShare_within ‹_› ‹_› .. | exact within_pure _ | refine within_bind ?_ fun _ => ?_
        | refine checkedWrite_within ‹_› _ _ _ _ fun w hw => ?_ | split | dsimp only
    | exact hookShare_within ‹_› (free_ofField ‹_› hw)

def execShareOkWrite_foot : Foot := [.reg ATL_CTL_SHARE_OK] ++ (checkedWrite_foot ++ hookAtlCtl_foot)
theorem execShareOkWrite_within (port : HostNo) (a : AtlNo) (v : Word) (s : State) {z : State} (he : execShareOkWrite port a v s = .next z) :
    ReachIn execShareOkWrite_foot s z := by
  obtain ⟨G, hG⟩ : ∃ G, G = execShareOkWrite_foot := ⟨_, rfl⟩
  have hF : execShareOkWrite_foot ⊆ G := hG ▸ fun _ h => h
  rw [← hG]
  simp only [execShareOkWrite_foot, List.append_subset, List.cons_subset, List.nil_subset, and_true] at hF
  obtain ⟨_, _, _⟩ := hF
  unfold execShareOkWrite at he
  cases he
  refine Within.perform ?_
  repeat' first
    | with_reducible
        first
        | intro _ | exact hookAtlCtl_within ‹_› .. | exact within_pure _ | refine within_bind ?_ fun _ => ?_
        | refine checkedWrite_within ‹_› _ _ _ _ fun w hw => ?_ | split | dsimp only
    | exact hookAtlCtl_within ‹_› _

def execRailOpWrite_foot : Foot := [.reg PWR_RAIL_OP] ++ (checkedWrite_foot ++ hookRail_foot)
theorem execRailOpWrite_within (port : HostNo) (d : RailNo) (v : Word) (s : State) {z : State} (he : execRailOpWrite port d v s = .next z) :
    ReachIn execRailOpWrite_foot s z := by
  obtain ⟨G, hG⟩ : ∃ G, G = execRailOpWrite_foot := ⟨_, rfl⟩
  have hF : execRailOpWrite_foot ⊆ G := hG ▸ fun _ h => h
  rw [← hG]
  simp only [execRailOpWrite_foot, List.append_subset, List.cons_subset, List.nil_subset, and_true] at hF
  obtain ⟨_, _, _⟩ := hF
  unfold execRailOpWrite at he
  cases he
  refine Within.perform ?_
  repeat' first
    | with_reducible
        first
        | intro _ | exact hookRail_within ‹_› ‹_› .. | exact within_pure _ | refine within_bind ?_ fun _ => ?_
        | refine checkedWrite_within ‹_› _ _ _ _ fun w hw => ?_ | split | dsimp only
    | exact hookRail_within ‹_› (free_ofField ‹_› hw)

theorem execRailOpSettle_within (d : RailNo) (mv : BitVec 16) (s : State) {z : State} (he : execRailOpSettle d mv s = .next z) :
    ReachIn actRailOpSettle_foot s z := by
  have hF : actRailOpSettle_foot ⊆ actRailOpSettle_foot := fun _ h => h
  unfold execRailOpSettle at he
  cases he
  refine Within.perform ?_
  repeat' first
    | with_reducible
        first
        | intro _ | exact actRailOpSettle_within ‹_› .. | exact within_pure _ | refine within_bind ?_ fun _ => ?_
        | split | dsimp only

theorem execRailSettleTimeout_within (d : RailNo) (mv : BitVec 16) (s : State) {z : State} (he : execRailSettleTimeout d mv s = .next z) :
    ReachIn actRailSettleTimeout_foot s z := by
  have hF : actRailSettleTimeout_foot ⊆ actRailSettleTimeout_foot := fun _ h => h
  unfold execRailSettleTimeout at he
  cases he
  refine Within.perform ?_
  repeat' first
    | with_reducible
        first
        | intro _ | exact actRailSettleTimeout_within ‹_› .. | exact within_pure _
        | refine within_bind ?_ fun _ => ?_ | split | dsimp only

theorem execDroopStart_within (d : RailNo) (mv : BitVec 16) (s : State) {z : State} (he : execDroopStart d mv s = .next z) :
    ReachIn actDroopStart_foot s z := by
  have hF : actDroopStart_foot ⊆ actDroopStart_foot := fun _ h => h
  unfold execDroopStart at he
  cases he
  refine Within.perform ?_
  repeat' first
    | with_reducible
        first
        | intro _ | exact actDroopStart_within ‹_› .. | exact within_pure _ | refine within_bind ?_ fun _ => ?_
        | split | dsimp only

theorem execDroopEnd_within (d : RailNo) (s : State) {z : State} (he : execDroopEnd d s = .next z) :
    ReachIn changePwr_foot s z := by
  have hF : changePwr_foot ⊆ changePwr_foot := fun _ h => h
  unfold execDroopEnd at he
  cases he
  refine Within.perform ?_
  repeat' first
    | with_reducible
        first
        | intro _ | exact changePwr_within ‹_› .. | exact within_pure _ | refine within_bind ?_ fun _ => ?_ | split
        | dsimp only

theorem execPwrDomainWake_within (id : Nat) (s : State) {z : State} (he : execPwrDomainWake id s = .next z) :
    ReachIn actPwrDomain_foot s z := by
  have hF : actPwrDomain_foot ⊆ actPwrDomain_foot := fun _ h => h
  unfold execPwrDomainWake at he
  cases he
  refine Within.perform ?_
  repeat' first
    | with_reducible
        first
        | intro _ | exact actPwrDomain_within ‹_› .. | exact within_pure _ | refine within_bind ?_ fun _ => ?_
        | split | dsimp only

theorem execPwrDomainIdle_within (id : Nat) (s : State) {z : State} (he : execPwrDomainIdle id s = .next z) :
    ReachIn actPwrDomain_foot s z := by
  have hF : actPwrDomain_foot ⊆ actPwrDomain_foot := fun _ h => h
  unfold execPwrDomainIdle at he
  cases he
  refine Within.perform ?_
  repeat' first
    | with_reducible
        first
        | intro _ | exact actPwrDomain_within ‹_› .. | exact within_pure _ | refine within_bind ?_ fun _ => ?_
        | split | dsimp only

theorem execPwrDomainOff_within (id : Nat) (s : State) {z : State} (he : execPwrDomainOff id s = .next z) :
    ReachIn actPwrDomain_foot s z := by
  have hF : actPwrDomain_foot ⊆ actPwrDomain_foot := fun _ h => h
  unfold execPwrDomainOff at he
  cases he
  refine Within.perform ?_
  repeat' first
    | with_reducible
        first
        | intro _ | exact actPwrDomain_within ‹_› .. | exact within_pure _ | refine within_bind ?_ fun _ => ?_
        | split | dsimp only

theorem execPwrDomainRelease_within (id : Nat) (s : State) {z : State} (he : execPwrDomainRelease id s = .next z) :
    ReachIn actPwrDomain_foot s z := by
  have hF : actPwrDomain_foot ⊆ actPwrDomain_foot := fun _ h => h
  unfold execPwrDomainRelease at he
  cases he
  refine Within.perform ?_
  repeat' first
    | with_reducible
        first
        | intro _ | exact actPwrDomain_within ‹_› .. | exact within_pure _ | refine within_bind ?_ fun _ => ?_
        | split | dsimp only

theorem execWowSet_within (id : Nat) (s : State) {z : State} (he : execWowSet id s = .next z) :
    ReachIn actWow_foot s z := by
  have hF : actWow_foot ⊆ actWow_foot := fun _ h => h
  unfold execWowSet at he
  cases he
  refine Within.perform ?_
  repeat' first
    | with_reducible
        first
        | intro _ | exact actWow_within ‹_› .. | exact within_pure _ | refine within_bind ?_ fun _ => ?_ | split
        | dsimp only

theorem execWowClear_within (id : Nat) (s : State) {z : State} (he : execWowClear id s = .next z) :
    ReachIn actWow_foot s z := by
  have hF : actWow_foot ⊆ actWow_foot := fun _ h => h
  unfold execWowClear at he
  cases he
  refine Within.perform ?_
  repeat' first
    | with_reducible
        first
        | intro _ | exact actWow_within ‹_› .. | exact within_pure _ | refine within_bind ?_ fun _ => ?_ | split
        | dsimp only

def execDomCmdWake_foot : Foot := [.reg PWR_DOM_CMD_GO] ++ (checkedWrite_foot ++ hookDomCmd_foot)
theorem execDomCmdWake_within (port : HostNo) (v : Word) (s : State) {z : State} (he : execDomCmdWake port v s = .next z) :
    ReachIn execDomCmdWake_foot s z := by
  obtain ⟨G, hG⟩ : ∃ G, G = execDomCmdWake_foot := ⟨_, rfl⟩
  have hF : execDomCmdWake_foot ⊆ G := hG ▸ fun _ h => h
  rw [← hG]
  simp only [execDomCmdWake_foot, List.append_subset, List.cons_subset, List.nil_subset, and_true] at hF
  obtain ⟨_, _, _⟩ := hF
  unfold execDomCmdWake at he
  cases he
  refine Within.perform ?_
  repeat' first
    | with_reducible
        first
        | intro _ | exact hookDomCmd_within ‹_› ‹_› .. | exact within_pure _ | refine within_bind ?_ fun _ => ?_
        | refine checkedWrite_within ‹_› _ _ _ _ fun w hw => ?_ | split | dsimp only
    | exact hookDomCmd_within ‹_› (free_ofField ‹_› hw)

def execDomCmdIdle_foot : Foot := [.reg PWR_DOM_CMD_OP] ++ (checkedWrite_foot ++ hookDomCmd_foot)
theorem execDomCmdIdle_within (port : HostNo) (v : Word) (s : State) {z : State} (he : execDomCmdIdle port v s = .next z) :
    ReachIn execDomCmdIdle_foot s z := by
  obtain ⟨G, hG⟩ : ∃ G, G = execDomCmdIdle_foot := ⟨_, rfl⟩
  have hF : execDomCmdIdle_foot ⊆ G := hG ▸ fun _ h => h
  rw [← hG]
  simp only [execDomCmdIdle_foot, List.append_subset, List.cons_subset, List.nil_subset, and_true] at hF
  obtain ⟨_, _, _⟩ := hF
  unfold execDomCmdIdle at he
  cases he
  refine Within.perform ?_
  repeat' first
    | with_reducible
        first
        | intro _ | exact hookDomCmd_within ‹_› ‹_› .. | exact within_pure _ | refine within_bind ?_ fun _ => ?_
        | refine checkedWrite_within ‹_› _ _ _ _ fun w hw => ?_ | split | dsimp only
    | exact hookDomCmd_within ‹_› (free_ofField ‹_› hw)

def execDomCmdOff_foot : Foot := [.reg PWR_DOM_CMD_RESULT] ++ (checkedWrite_foot ++ hookDomCmd_foot)
theorem execDomCmdOff_within (port : HostNo) (v : Word) (s : State) {z : State} (he : execDomCmdOff port v s = .next z) :
    ReachIn execDomCmdOff_foot s z := by
  obtain ⟨G, hG⟩ : ∃ G, G = execDomCmdOff_foot := ⟨_, rfl⟩
  have hF : execDomCmdOff_foot ⊆ G := hG ▸ fun _ h => h
  rw [← hG]
  simp only [execDomCmdOff_foot, List.append_subset, List.cons_subset, List.nil_subset, and_true] at hF
  obtain ⟨_, _, _⟩ := hF
  unfold execDomCmdOff at he
  cases he
  refine Within.perform ?_
  repeat' first
    | with_reducible
        first
        | intro _ | exact hookDomCmd_within ‹_› ‹_› .. | exact within_pure _ | refine within_bind ?_ fun _ => ?_
        | refine checkedWrite_within ‹_› _ _ _ _ fun w hw => ?_ | split | dsimp only
    | exact hookDomCmd_within ‹_› (free_ofField ‹_› hw)

def execDomCmdRelease_foot : Foot := [.reg PWR_DOM_CMD_DOMAIN] ++ (checkedWrite_foot ++ hookDomCmd_foot)
theorem execDomCmdRelease_within (port : HostNo) (v : Word) (s : State) {z : State} (he : execDomCmdRelease port v s = .next z) :
    ReachIn execDomCmdRelease_foot s z := by
  obtain ⟨G, hG⟩ : ∃ G, G = execDomCmdRelease_foot := ⟨_, rfl⟩
  have hF : execDomCmdRelease_foot ⊆ G := hG ▸ fun _ h => h
  rw [← hG]
  simp only [execDomCmdRelease_foot, List.append_subset, List.cons_subset, List.nil_subset, and_true] at hF
  obtain ⟨_, _, _⟩ := hF
  unfold execDomCmdRelease at he
  cases he
  refine Within.perform ?_
  repeat' first
    | with_reducible
        first
        | intro _ | exact hookDomCmd_within ‹_› ‹_› .. | exact within_pure _ | refine within_bind ?_ fun _ => ?_
        | refine checkedWrite_within ‹_› _ _ _ _ fun w hw => ?_ | split | dsimp only
    | exact hookDomCmd_within ‹_› (free_ofField ‹_› hw)

theorem execDomainTransitionDone_within (d : DomNo) (s : State) {z : State} (he : execDomainTransitionDone d s = .next z) :
    ReachIn actDomainTransitionDone_foot s z := by
  have hF : actDomainTransitionDone_foot ⊆ actDomainTransitionDone_foot := fun _ h => h
  unfold execDomainTransitionDone at he
  cases he
  refine Within.perform ?_
  repeat' first
    | with_reducible
        first
        | intro _ | exact actDomainTransitionDone_within ‹_› .. | exact within_pure _
        | refine within_bind ?_ fun _ => ?_ | split | dsimp only

def execQuietWrite_foot : Foot := [.reg PWR_CTL_QUIET] ++ (checkedWrite_foot ++ hookPwrCtl_foot)
theorem execQuietWrite_within (port : HostNo) (v : Word) (s : State) {z : State} (he : execQuietWrite port v s = .next z) :
    ReachIn execQuietWrite_foot s z := by
  obtain ⟨G, hG⟩ : ∃ G, G = execQuietWrite_foot := ⟨_, rfl⟩
  have hF : execQuietWrite_foot ⊆ G := hG ▸ fun _ h => h
  rw [← hG]
  simp only [execQuietWrite_foot, List.append_subset, List.cons_subset, List.nil_subset, and_true] at hF
  obtain ⟨_, _, _⟩ := hF
  unfold execQuietWrite at he
  cases he
  refine Within.perform ?_
  repeat' first
    | with_reducible
        first
        | intro _ | exact hookPwrCtl_within ‹_› ‹_› .. | exact within_pure _ | refine within_bind ?_ fun _ => ?_
        | refine checkedWrite_within ‹_› _ _ _ _ fun w hw => ?_ | split | dsimp only
    | exact hookPwrCtl_within ‹_› (free_ofField ‹_› hw)

theorem execThermalTrip_within (quarterDegrees : Int) (s : State) {z : State} (he : execThermalTrip quarterDegrees s = .next z) :
    ReachIn actThermalTrip_foot s z := by
  have hF : actThermalTrip_foot ⊆ actThermalTrip_foot := fun _ h => h
  unfold execThermalTrip at he
  cases he
  refine Within.perform ?_
  repeat' first
    | with_reducible
        first
        | intro _ | exact actThermalTrip_within ‹_› .. | exact within_pure _ | refine within_bind ?_ fun _ => ?_
        | split | dsimp only

theorem execGovernorUpdate_within (rails : List RailSense) (quarterDegrees : Int) (s : State) {z : State} (he : execGovernorUpdate rails quarterDegrees s = .next z) :
    ReachIn actGovernorUpdate_foot s z := by
  have hF : actGovernorUpdate_foot ⊆ actGovernorUpdate_foot := fun _ h => h
  unfold execGovernorUpdate at he
  split at he <;> cases he
  refine Within.perform ?_
  repeat' first
    | with_reducible
        first
        | intro _ | exact actGovernorUpdate_within ‹_› .. | exact within_pure _ | refine within_bind ?_ fun _ => ?_
        | refine within_ite ?_ ?_ | split | dsimp only

theorem execBallastStop_within (t : TileNo) (s : State) {z : State} (he : execBallastStop t s = .next z) :
    ReachIn actBallastStop_foot s z := by
  have hF : actBallastStop_foot ⊆ actBallastStop_foot := fun _ h => h
  unfold execBallastStop at he
  cases he
  refine Within.perform ?_
  repeat' first
    | with_reducible
        first
        | intro _ | exact actBallastStop_within ‹_› .. | exact within_pure _ | refine within_bind ?_ fun _ => ?_
        | split | dsimp only

theorem execLsnAssert_within (s : State) {z : State} (he : execLsnAssert s = .next z) :
    ReachIn actLsnAssert_foot s z := by
  have hF : actLsnAssert_foot ⊆ actLsnAssert_foot := fun _ h => h
  unfold execLsnAssert at he
  cases he
  refine Within.perform ?_
  repeat' first
    | with_reducible
        first
        | intro _ | exact actLsnAssert_within ‹_› .. | exact within_pure _ | refine within_bind ?_ fun _ => ?_
        | split | dsimp only

theorem execLsnAck_within (s : State) {z : State} (he : execLsnAck s = .next z) :
    ReachIn actLsnAck_foot s z := by
  have hF : actLsnAck_foot ⊆ actLsnAck_foot := fun _ h => h
  unfold execLsnAck at he
  cases he
  refine Within.perform ?_
  repeat' first
    | with_reducible
        first
        | intro _ | exact actLsnAck_within ‹_› .. | exact within_pure _ | refine within_bind ?_ fun _ => ?_ | split
        | dsimp only

theorem execLsnAckTimeout_within (s : State) {z : State} (he : execLsnAckTimeout s = .next z) :
    ReachIn actLsnAckTimeout_foot s z := by
  have hF : actLsnAckTimeout_foot ⊆ actLsnAckTimeout_foot := fun _ h => h
  unfold execLsnAckTimeout at he
  cases he
  refine Within.perform ?_
  repeat' first
    | with_reducible
        first
        | intro _ | exact actLsnAckTimeout_within ‹_› .. | exact within_pure _ | refine within_bind ?_ fun _ => ?_
        | split | dsimp only

theorem execRiseCovered_within (s : State) {z : State} (he : execRiseCovered s = .next z) :
    ReachIn actRiseCovered_foot s z := by
  have hF : actRiseCovered_foot ⊆ actRiseCovered_foot := fun _ h => h
  unfold execRiseCovered at he
  cases he
  refine Within.perform ?_
  repeat' first
    | with_reducible
        first
        | intro _ | exact actRiseCovered_within ‹_› .. | exact within_pure _ | refine within_bind ?_ fun _ => ?_
        | split | dsimp only

theorem execLsnDeassert_within (s : State) {z : State} (he : execLsnDeassert s = .next z) :
    ReachIn actLsnDeassert_foot s z := by
  have hF : actLsnDeassert_foot ⊆ actLsnDeassert_foot := fun _ h => h
  unfold execLsnDeassert at he
  cases he
  refine Within.perform ?_
  repeat' first
    | with_reducible
        first
        | intro _ | exact actLsnDeassert_within ‹_› .. | exact within_pure _ | refine within_bind ?_ fun _ => ?_
        | split | dsimp only

theorem execLsnHoldMax_within (s : State) {z : State} (he : execLsnHoldMax s = .next z) :
    ReachIn actLsnHoldMax_foot s z := by
  have hF : actLsnHoldMax_foot ⊆ actLsnHoldMax_foot := fun _ h => h
  unfold execLsnHoldMax at he
  cases he
  refine Within.perform ?_
  repeat' first
    | with_reducible
        first
        | intro _ | exact actLsnHoldMax_within ‹_› .. | exact within_pure _ | refine within_bind ?_ fun _ => ?_
        | split | dsimp only

def execCurtailAssert_foot : Foot := changePlant_foot ++ settleCurtail_foot
theorem execCurtailAssert_within (level : Fin 16) (s : State) {z : State} (he : execCurtailAssert level s = .next z) :
    ReachIn execCurtailAssert_foot s z := by
  obtain ⟨G, hG⟩ : ∃ G, G = execCurtailAssert_foot := ⟨_, rfl⟩
  have hF : execCurtailAssert_foot ⊆ G := hG ▸ fun _ h => h
  rw [← hG]
  simp only [execCurtailAssert_foot, List.append_subset] at hF
  obtain ⟨_, _⟩ := hF
  unfold execCurtailAssert at he
  cases he
  refine Within.perform ?_
  repeat' first
    | with_reducible
        first
        | intro _ | exact changePlant_within ‹_› .. | exact settleCurtail_within ‹_› .. | exact within_pure _
        | refine within_bind ?_ fun _ => ?_ | split | dsimp only

def execCurtailLevelChange_foot : Foot := changePlant_foot ++ settleCurtail_foot
theorem execCurtailLevelChange_within (level : Fin 16) (s : State) {z : State} (he : execCurtailLevelChange level s = .next z) :
    ReachIn execCurtailLevelChange_foot s z := by
  obtain ⟨G, hG⟩ : ∃ G, G = execCurtailLevelChange_foot := ⟨_, rfl⟩
  have hF : execCurtailLevelChange_foot ⊆ G := hG ▸ fun _ h => h
  rw [← hG]
  simp only [execCurtailLevelChange_foot, List.append_subset] at hF
  obtain ⟨_, _⟩ := hF
  unfold execCurtailLevelChange at he
  cases he
  refine Within.perform ?_
  repeat' first
    | with_reducible
        first
        | intro _ | exact changePlant_within ‹_› .. | exact settleCurtail_within ‹_› .. | exact within_pure _
        | refine within_bind ?_ fun _ => ?_ | split | dsimp only

def execCurtailRelease_foot : Foot := changePlant_foot ++ settleCurtail_foot
theorem execCurtailRelease_within (s : State) {z : State} (he : execCurtailRelease s = .next z) :
    ReachIn execCurtailRelease_foot s z := by
  obtain ⟨G, hG⟩ : ∃ G, G = execCurtailRelease_foot := ⟨_, rfl⟩
  have hF : execCurtailRelease_foot ⊆ G := hG ▸ fun _ h => h
  rw [← hG]
  simp only [execCurtailRelease_foot, List.append_subset] at hF
  obtain ⟨_, _⟩ := hF
  unfold execCurtailRelease at he
  cases he
  refine Within.perform ?_
  repeat' first
    | with_reducible
        first
        | intro _ | exact changePlant_within ‹_› .. | exact settleCurtail_within ‹_› .. | exact within_pure _
        | refine within_bind ?_ fun _ => ?_ | split | dsimp only

theorem execSocFrameReceive_within (frame : BitVec 192) (gap : Bool) (s : State) {z : State} (he : execSocFrameReceive frame gap s = .next z) :
    ReachIn actSocFrameReceive_foot s z := by
  have hF : actSocFrameReceive_foot ⊆ actSocFrameReceive_foot := fun _ h => h
  unfold execSocFrameReceive at he
  cases he
  refine Within.perform ?_
  repeat' first
    | with_reducible
        first
        | intro _ | exact actSocFrameReceive_within ‹_› .. | exact within_pure _ | refine within_bind ?_ fun _ => ?_
        | split | dsimp only

theorem execSocTimeout_within (s : State) {z : State} (he : execSocTimeout s = .next z) :
    ReachIn actSocTimeout_foot s z := by
  have hF : actSocTimeout_foot ⊆ actSocTimeout_foot := fun _ h => h
  unfold execSocTimeout at he
  cases he
  refine Within.perform ?_
  repeat' first
    | with_reducible
        first
        | intro _ | exact actSocTimeout_within ‹_› .. | exact within_pure _ | refine within_bind ?_ fun _ => ?_
        | split | dsimp only

theorem execForecastSend_within (s : State) {z : State} (he : execForecastSend s = .next z) :
    ReachIn actForecastSend_foot s z := by
  have hF : actForecastSend_foot ⊆ actForecastSend_foot := fun _ h => h
  unfold execForecastSend at he
  cases he
  refine Within.perform ?_
  repeat' first
    | with_reducible
        first
        | intro _ | exact actForecastSend_within ‹_› .. | exact within_pure _ | refine within_bind ?_ fun _ => ?_
        | split | dsimp only

theorem execPmbusPoll_within (readings : List (Option Telemetry)) (s : State) {z : State} (he : execPmbusPoll readings s = .next z) :
    ReachIn actPmbusPoll_foot s z := by
  have hF : actPmbusPoll_foot ⊆ actPmbusPoll_foot := fun _ h => h
  unfold execPmbusPoll at he
  split at he <;> cases he
  refine Within.perform ?_
  repeat' first
    | with_reducible
        first
        | intro _ | exact actPmbusPoll_within ‹_› .. | exact within_pure _ | refine within_bind ?_ fun _ => ?_
        | refine within_ite ?_ ?_ | split | dsimp only

def execPlantEnWrite_foot : Foot := [.reg PLANT_CTL_EN] ++ (checkedWrite_foot ++ hookPlantCtl_foot)
theorem execPlantEnWrite_within (port : HostNo) (v : Word) (s : State) {z : State} (he : execPlantEnWrite port v s = .next z) :
    ReachIn execPlantEnWrite_foot s z := by
  obtain ⟨G, hG⟩ : ∃ G, G = execPlantEnWrite_foot := ⟨_, rfl⟩
  have hF : execPlantEnWrite_foot ⊆ G := hG ▸ fun _ h => h
  rw [← hG]
  simp only [execPlantEnWrite_foot, List.append_subset, List.cons_subset, List.nil_subset, and_true] at hF
  obtain ⟨_, _, _⟩ := hF
  unfold execPlantEnWrite at he
  cases he
  refine Within.perform ?_
  repeat' first
    | with_reducible
        first
        | intro _ | exact hookPlantCtl_within ‹_› ‹_› .. | exact within_pure _ | refine within_bind ?_ fun _ => ?_
        | refine checkedWrite_within ‹_› _ _ _ _ fun w hw => ?_ | split | dsimp only
    | exact hookPlantCtl_within ‹_› (free_ofField ‹_› hw)

theorem execPmcWindow_within (id : Nat) (s : State) {z : State} (he : execPmcWindow id s = .next z) :
    ReachIn actPmcWindow_foot s z := by
  have hF : actPmcWindow_foot ⊆ actPmcWindow_foot := fun _ h => h
  unfold execPmcWindow at he
  cases he
  refine Within.perform ?_
  repeat' first
    | with_reducible
        first
        | intro _ | exact actPmcWindow_within ‹_› .. | exact within_pure _ | refine within_bind ?_ fun _ => ?_
        | split | dsimp only

theorem execWindowEdge_within (t : TileNo) (s : State) {z : State} (he : execWindowEdge t s = .next z) :
    ReachIn actWindowEdge_foot s z := by
  have hF : actWindowEdge_foot ⊆ actWindowEdge_foot := fun _ h => h
  unfold execWindowEdge at he
  cases he
  refine Within.perform ?_
  repeat' first
    | with_reducible
        first
        | intro _ | exact actWindowEdge_within ‹_› .. | exact within_pure _ | refine within_bind ?_ fun _ => ?_
        | split | dsimp only

def execSbufRdWrite_foot : Foot := [.reg PMC_SBUF_CTL_RD] ++ (checkedWrite_foot ++ hookSbufCtl_foot)
theorem execSbufRdWrite_within (port : HostNo) (t : TileNo) (v : Word) (s : State) {z : State} (he : execSbufRdWrite port t v s = .next z) :
    ReachIn execSbufRdWrite_foot s z := by
  obtain ⟨G, hG⟩ : ∃ G, G = execSbufRdWrite_foot := ⟨_, rfl⟩
  have hF : execSbufRdWrite_foot ⊆ G := hG ▸ fun _ h => h
  rw [← hG]
  simp only [execSbufRdWrite_foot, List.append_subset, List.cons_subset, List.nil_subset, and_true] at hF
  obtain ⟨_, _, _⟩ := hF
  unfold execSbufRdWrite at he
  cases he
  refine Within.perform ?_
  repeat' first
    | with_reducible
        first
        | intro _ | exact hookSbufCtl_within ‹_› ‹_› .. | exact within_pure _ | refine within_bind ?_ fun _ => ?_
        | refine checkedWrite_within ‹_› _ _ _ _ fun w hw => ?_ | split | dsimp only
    | exact hookSbufCtl_within ‹_› (free_ofField ‹_› hw)

theorem execPeriodicDump_within (t : TileNo) (room : Bool) (s : State) {z : State} (he : execPeriodicDump t room s = .next z) :
    ReachIn actPeriodicDump_foot s z := by
  have hF : actPeriodicDump_foot ⊆ actPeriodicDump_foot := fun _ h => h
  unfold execPeriodicDump at he
  cases he
  refine Within.perform ?_
  repeat' first
    | with_reducible
        first
        | intro _ | exact actPeriodicDump_within ‹_› .. | exact within_pure _ | refine within_bind ?_ fun _ => ?_
        | split | dsimp only

theorem execColdReset_within (s : State) {z : State} (he : execColdReset s = .next z) :
    ReachIn actColdReset_foot s z := by
  have hF : actColdReset_foot ⊆ actColdReset_foot := fun _ h => h
  unfold execColdReset at he
  cases he
  refine Within.performAlways ?_
  repeat' first
    | with_reducible
        first
        | intro _ | exact actColdReset_within ‹_› .. | exact within_pure _ | refine within_bind ?_ fun _ => ?_
        | split | dsimp only

theorem execModuleReset_within (cause : BitVec 2) (s : State) {z : State} (he : execModuleReset cause s = .next z) :
    ReachIn actModuleReset_foot s z := by
  have hF : actModuleReset_foot ⊆ actModuleReset_foot := fun _ h => h
  unfold execModuleReset at he
  split at he <;> cases he
  split
  · refine Within.performAlways ?_
    exact actModuleReset_within ‹_› _
  · exact .refl

theorem execHostPerst_within (port : HostNo) (high : Bool) (s : State) {z : State} (he : execHostPerst port high s = .next z) :
    ReachIn actHostPerst_foot s z := by
  have hF : actHostPerst_foot ⊆ actHostPerst_foot := fun _ h => h
  unfold execHostPerst at he
  cases he
  refine Within.performAlways ?_
  repeat' first
    | with_reducible
        first
        | intro _ | exact actHostPerst_within ‹_› .. | exact within_pure _ | refine within_bind ?_ fun _ => ?_
        | split | dsimp only

theorem execBootStepDone_within (r : BootResult) (s : State) {z : State} (he : execBootStepDone r s = .next z) :
    ReachIn actBootStep_foot s z := by
  have hF : actBootStep_foot ⊆ actBootStep_foot := fun _ h => h
  unfold execBootStepDone at he
  split at he <;> cases he
  refine Within.perform ?_
  repeat' first
    | with_reducible
        first
        | intro _ | exact actBootStep_within ‹_› .. | exact within_pure _ | refine within_bind ?_ fun _ => ?_
        | refine within_ite ?_ ?_ | split | dsimp only

theorem execFuseProg_within (port : HostNo) (v : Word) (s : State) {z : State} (he : execFuseProg port v s = .next z) :
    ReachIn writeFuseProg_foot s z := by
  have hF : writeFuseProg_foot ⊆ writeFuseProg_foot := fun _ h => h
  unfold execFuseProg at he
  cases he
  refine Within.perform ?_
  repeat' first
    | with_reducible
        first
        | intro _ | exact writeFuseProg_within ‹_› .. | exact within_pure _ | refine within_bind ?_ fun _ => ?_
        | split | dsimp only

theorem execFusePulseDone_within (marginOk : Bool) (s : State) {z : State} (he : execFusePulseDone marginOk s = .next z) :
    ReachIn actFusePulseDone_foot s z := by
  have hF : actFusePulseDone_foot ⊆ actFusePulseDone_foot := fun _ h => h
  unfold execFusePulseDone at he
  cases he
  refine Within.perform ?_
  repeat' first
    | with_reducible
        first
        | intro _ | exact actFusePulseDone_within ‹_› .. | exact within_pure _ | refine within_bind ?_ fun _ => ?_
        | split | dsimp only

def execSketchEnable_foot : Foot := [.reg DBG_CTL_EN] ++ (checkedWrite_foot ++ hookDbgCtl_foot)
theorem execSketchEnable_within (port : HostNo) (v : Word) (s : State) {z : State} (he : execSketchEnable port v s = .next z) :
    ReachIn execSketchEnable_foot s z := by
  obtain ⟨G, hG⟩ : ∃ G, G = execSketchEnable_foot := ⟨_, rfl⟩
  have hF : execSketchEnable_foot ⊆ G := hG ▸ fun _ h => h
  rw [← hG]
  simp only [execSketchEnable_foot, List.append_subset, List.cons_subset, List.nil_subset, and_true] at hF
  obtain ⟨_, _, _⟩ := hF
  unfold execSketchEnable at he
  cases he
  refine Within.perform ?_
  repeat' first
    | with_reducible
        first
        | intro _ | exact hookDbgCtl_within ‹_› ‹_› .. | exact within_pure _ | refine within_bind ?_ fun _ => ?_
        | refine checkedWrite_within ‹_› _ _ _ _ fun w hw => ?_ | split | dsimp only
    | exact hookDbgCtl_within ‹_› (free_ofField ‹_› hw)

def execSketchDisable_foot : Foot := [.reg DBG_CTL_DIV] ++ (checkedWrite_foot ++ hookDbgCtl_foot)
theorem execSketchDisable_within (port : HostNo) (v : Word) (s : State) {z : State} (he : execSketchDisable port v s = .next z) :
    ReachIn execSketchDisable_foot s z := by
  obtain ⟨G, hG⟩ : ∃ G, G = execSketchDisable_foot := ⟨_, rfl⟩
  have hF : execSketchDisable_foot ⊆ G := hG ▸ fun _ h => h
  rw [← hG]
  simp only [execSketchDisable_foot, List.append_subset, List.cons_subset, List.nil_subset, and_true] at hF
  obtain ⟨_, _, _⟩ := hF
  unfold execSketchDisable at he
  cases he
  refine Within.perform ?_
  repeat' first
    | with_reducible
        first
        | intro _ | exact hookDbgCtl_within ‹_› ‹_› .. | exact within_pure _ | refine within_bind ?_ fun _ => ?_
        | refine checkedWrite_within ‹_› _ _ _ _ fun w hw => ?_ | split | dsimp only
    | exact hookDbgCtl_within ‹_› (free_ofField ‹_› hw)

theorem execSketchSample_within (s : State) {z : State} (he : execSketchSample s = .next z) :
    ReachIn actSketchSample_foot s z := by
  have hF : actSketchSample_foot ⊆ actSketchSample_foot := fun _ h => h
  unfold execSketchSample at he
  cases he
  refine Within.perform ?_
  repeat' first
    | with_reducible
        first
        | intro _ | exact actSketchSample_within ‹_› .. | exact within_pure _ | refine within_bind ?_ fun _ => ?_
        | split | dsimp only

theorem execPwrGoodFall_within (s : State) {z : State} (he : execPwrGoodFall s = .next z) :
    ReachIn actColdReset_foot s z := by
  have hF : actColdReset_foot ⊆ actColdReset_foot := fun _ h => h
  unfold execPwrGoodFall at he
  cases he
  refine Within.performAlways ?_
  repeat' first
    | with_reducible
        first
        | intro _ | exact actColdReset_within ‹_› .. | exact within_pure _ | refine within_bind ?_ fun _ => ?_
        | split | dsimp only

theorem execResetNRelease_within (s : State) {z : State} (he : execResetNRelease s = .next z) :
    ReachIn changeBoot_foot s z := by
  have hF : changeBoot_foot ⊆ changeBoot_foot := fun _ h => h
  unfold execResetNRelease at he
  cases he
  refine Within.performAlways ?_
  repeat' first
    | with_reducible
        first
        | intro _ | exact changeBoot_within ‹_› .. | exact within_pure _ | refine within_bind ?_ fun _ => ?_ | split
        | dsimp only

theorem execHostLinkUp_within (port : HostNo) (width rate : BitVec 8) (flitMode : Bool) (s : State) {z : State} (he : execHostLinkUp port width rate flitMode s = .next z) :
    ReachIn actHostLinkUp_foot s z := by
  have hF : actHostLinkUp_foot ⊆ actHostLinkUp_foot := fun _ h => h
  unfold execHostLinkUp at he
  cases he
  refine Within.perform ?_
  repeat' first
    | with_reducible
        first
        | intro _ | exact actHostLinkUp_within ‹_› .. | exact within_pure _ | refine within_bind ?_ fun _ => ?_
        | split | dsimp only

def execLsnAckFall_foot : Foot := [.fld PLANT_STATUS_LSN_ACK]
theorem execLsnAckFall_within (s : State) {z : State} (he : execLsnAckFall s = .next z) :
    ReachIn execLsnAckFall_foot s z := by
  obtain ⟨G, hG⟩ : ∃ G, G = execLsnAckFall_foot := ⟨_, rfl⟩
  have hF : execLsnAckFall_foot ⊆ G := hG ▸ fun _ h => h
  rw [← hG]
  simp only [execLsnAckFall_foot, List.cons_subset, List.nil_subset, and_true] at hF
  unfold execLsnAckFall at he
  cases he
  refine Within.perform ?_
  repeat' first
    | with_reducible
        first
        | intro _ | exact within_pure _ | exact within_setF _ _ _ _ ‹_› | refine within_bind ?_ fun _ => ?_ | split
        | dsimp only

theorem execFenceHostReadReturn_within (id : Nat) (s : State) {z : State} (he : execFenceHostReadReturn id s = .next z) :
    ReachIn actFenceHostReadReturn_foot s z := by
  have hF : actFenceHostReadReturn_foot ⊆ actFenceHostReadReturn_foot := fun _ h => h
  unfold execFenceHostReadReturn at he
  cases he
  refine Within.perform ?_
  repeat' first
    | with_reducible
        first
        | intro _ | exact actFenceHostReadReturn_within ‹_› .. | exact within_pure _
        | refine within_bind ?_ fun _ => ?_ | split | dsimp only

theorem execHostReadTimeout_within (h : HostRead) (s : State) {z : State} (he : execHostReadTimeout h s = .next z) :
    ReachIn actHostReadTimeout_foot s z := by
  have hF : actHostReadTimeout_foot ⊆ actHostReadTimeout_foot := fun _ h => h
  unfold execHostReadTimeout at he
  cases he
  refine Within.perform ?_
  repeat' first
    | with_reducible
        first
        | intro _ | exact actHostReadTimeout_within ‹_› .. | exact within_pure _ | refine within_bind ?_ fun _ => ?_
        | split | dsimp only

theorem execBankRefresh_within (n : DieNo) (_pc : Fin 32) (temp : BitVec 8) (s : State) {z : State} (he : execBankRefresh n _pc temp s = .next z) :
    ReachIn actBankRefresh_foot s z := by
  have hF : actBankRefresh_foot ⊆ actBankRefresh_foot := fun _ h => h
  unfold execBankRefresh at he
  cases he
  refine Within.perform ?_
  repeat' first
    | with_reducible
        first
        | intro _ | exact actBankRefresh_within ‹_› .. | exact within_pure _ | refine within_bind ?_ fun _ => ?_
        | split | dsimp only

/-- What each command can change. -/
def footOf : Instr → Foot
  | .registerWrite _ _ addr data => writeAddrs addr.toNat data.length ++ actHostWrite_foot
  | .hostMemoryRead _ _ _ _ => actHostRead_foot
  | .hostMemoryWrite _ _ addr data => writeAddrs addr.toNat data.length ++ actHostWrite_foot
  | .hostConfigRequest _ _ _ => actHostConfig_foot
  | .granuleAccept _ => actGranuleAccept_foot
  | .granuleCommit _ _ => actGranuleCommit_foot
  | .paletteRequestSet _ _ _ _ _ _ => actPaletteRequestSet_foot
  | .eccWriteBack _ => actEccWriteBack_foot
  | .requestAged _ => actRequestAged_foot
  | .patrolScrub _ _ _ => actPatrolScrub_foot
  | .scrubPriorityRaise _ _ => actScrubPriorityRaise_foot
  | .palAcWrite _ _ _ _ => execPalAcWrite_foot
  | .palAcAdd _ _ _ => execPalAcAdd_foot
  | .palInjectArm _ _ _ => execPalInjectArm_foot
  | .gateDrainEnd _ _ => actGateDrainEnd_foot
  | .quarterInitDone _ _ => actQuarterInitDone_foot
  | .palFill _ => execPalFill_foot
  | .palCopy _ => execPalCopy_foot
  | .tensorCopy _ => execTensorCopy_foot
  | .tensorGather _ => execTensorGather_foot
  | .tensorScatter _ => execTensorScatter_foot
  | .mxProduct _ _ => execMxProduct_foot
  | .mxFirstFeed _ _ => execMxFirstFeed_foot
  | .mxPassStart _ _ => execMxPassStart_foot
  | .mxPaceRelease _ _ => execMxPaceRelease_foot
  | .stallReport _ _ => actStallReport_foot
  | .stallAbort _ => actStallAbort_foot
  | .parkThreshold _ _ => actParkThreshold_foot
  | .park _ _ _ => execPark_foot
  | .parkTakeEffect _ _ => actParkTakeEffect_foot
  | .releaseHalf _ _ _ => execReleaseHalf_foot
  | .splitWrite _ _ _ => execSplitWrite_foot
  | .splitTakeEffect _ => splitNow_foot
  | .veStrokeMap _ => execVeStrokeMap_foot
  | .veStrokeReduce _ => execVeStrokeReduce_foot
  | .veStrokeScan _ => execVeStrokeScan_foot
  | .vePaceRelease _ => execVePaceRelease_foot
  | .norm _ => execNorm_foot
  | .softmaxFull _ => execSoftmaxFull_foot
  | .softmaxPartial _ => execSoftmaxPartial_foot
  | .softmaxApply _ => execSoftmaxApply_foot
  | .softmaxMerge _ => execSoftmaxMerge_foot
  | .pollSweep => actPollSweep_foot
  | .summaryReadReturn _ _ => actSummaryReadReturn_foot
  | .tailReadReturn _ _ => actTailReadReturn_foot
  | .schedTableRead _ _ => actSchedTableRead_foot
  | .ringFetch _ => actRingFetch_foot
  | .ringFetchReturn _ _ => actRingFetchReturn_foot
  | .descriptorDeliver _ => actDescriptorDeliver_foot
  | .descriptorIssue _ => actDescriptorIssue_foot
  | .descriptorComplete _ => actDescriptorComplete_foot
  | .cqRecordWrite _ _ => actCqRecordWrite_foot
  | .msixSend _ => actMsixSend_foot
  | .msixHoldoffEnd _ => actMsixHoldoffEnd_foot
  | .msixUnmask _ _ => actMsixUnmask_foot
  | .nop _ => selfExec_foot
  | .streamSet _ => actStreamSet_foot
  | .counterAdd _ => execCounterAdd_foot
  | .hostWrite _ => execHostWrite_foot
  | .ringEnable _ _ _ => execRingEnable_foot
  | .ringDisable _ _ _ => execRingDisable_foot
  | .ringResume _ _ _ => execRingResume_foot
  | .retiredWrite _ _ _ => execRetiredWrite_foot
  | .groupActivate _ _ _ => execGroupActivate_foot
  | .txnTagGrant => actTxnTagGrant_foot
  | .pllLock => actPllLock_foot
  | .pllUnlock => actPllUnlock_foot
  | .tbBroadcast _ => actTbBroadcast_foot
  | .tbCapture _ _ => execTbCapture_foot
  | .tbLoad _ _ => execTbLoad_foot
  | .syncRequestSend _ => actSyncRequestSend_foot
  | .syncRequestReceive _ _ _ => actSyncRequestReceive_foot
  | .syncResponseReceive _ _ _ => actSyncResponseReceive_foot
  | .syncResponseMissed => actSyncResponseMissed_foot
  | .stampReached _ _ => actStampReached_foot
  | .linkEnable _ _ _ => execLinkEnable_foot
  | .laneTrained _ _ _ => actLaneTrained_foot
  | .portAligned _ _ _ _ => actPortAligned_foot
  | .peerInfoReceive _ _ _ _ _ _ => actPeerInfoReceive_foot
  | .retrain _ _ _ => execRetrain_foot
  | .flitReceive _ _ _ => actFlitReceive_foot
  | .replayTimeout _ => actReplayTimeout_foot
  | .laneLockLoss _ _ => actLaneLockLoss_foot
  | .degradeWindowEnd _ _ _ => actDegradeWindowEnd_foot
  | .portIdleEnd _ => actPortIdleEnd_foot
  | .frameForward _ => actFrameForward_foot
  | .writeFrameReceive _ => actWriteFrameReceive_foot
  | .collFrameReceive _ _ => actCollFrameReceive_foot
  | .membershipFrameReceive _ => actMembershipFrameReceive_foot
  | .ackReceive _ => actAckReceive_foot
  | .noticeReceive _ => actNoticeReceive_foot
  | .reasmTimeout _ _ _ => actReasmTimeout_foot
  | .ackTimeout _ => actAckTimeout_foot
  | .genHoldExpire _ => actGenHoldExpire_foot
  | .silentThreshold _ _ _ => actSilentThreshold_foot
  | .fabSend _ => actFabSend_foot
  | .collAllReduce _ => actCollective_foot
  | .collReduceScatter _ => actCollective_foot
  | .collAllGather _ => actCollective_foot
  | .collVoteSum _ => actCollective_foot
  | .collDispatch _ => actCollDispatch_foot
  | .collCombine _ => actCollCombine_foot
  | .groupSetLocal _ => actGroupSet_foot
  | .groupSetDistribute _ => actGroupSet_foot
  | .groupSetRemove _ => actGroupSet_foot
  | .varUpdate _ => actVarUpdate_foot
  | .varPass1End _ => actVarPass1End_foot
  | .exchangeModuleRecord _ => actExchangeModuleRecord_foot
  | .exchangeGatherComplete _ => actExchangeGatherComplete_foot
  | .varPass2End _ => actVarPass2End_foot
  | .varPush _ => execVarPush_foot
  | .varProgram _ => actVarProgram_foot
  | .varStateSetStep _ => actVarState_foot
  | .varStateRelease _ => actVarState_foot
  | .stackAccess _ _ _ _ _ _ _ => actStackAccess_foot
  | .pprComplete _ => actPprComplete_foot
  | .varDieFail _ => actVarDieFail_foot
  | .riskWindow _ => actRiskWindow_foot
  | .copyStepAdvance => actCopyStepAdvance_foot
  | .fixSnapshot _ => actFixSnapshot_foot
  | .fixRestoreSend _ => actFixRestoreSend_foot
  | .fixRestoreApply _ => actFixRestoreApply_foot
  | .fixRestoreServe _ => actFixRestoreServe_foot
  | .rngCheckDisarm _ _ => execRngCheckDisarm_foot
  | .hostLoss _ _ => actHostLoss_foot
  | .atsInvalidate _ => execAtsInvalidate_foot
  | .lock _ _ _ => execLock_foot
  | .quiesce _ _ _ => execQuiesce_foot
  | .quiesceDone _ => actQuiesceDone_foot
  | .quiesceStallAbort _ => actQuiesceStallAbort_foot
  | .release _ _ _ => execRelease_foot
  | .adopt _ _ => execAdopt_foot
  | .dissolve _ _ => execDissolve_foot
  | .shareSet _ _ _ => execShareSet_foot
  | .shareOkWrite _ _ _ => execShareOkWrite_foot
  | .railOpWrite _ _ _ => execRailOpWrite_foot
  | .railOpSettle _ _ => actRailOpSettle_foot
  | .railSettleTimeout _ _ => actRailSettleTimeout_foot
  | .droopStart _ _ => actDroopStart_foot
  | .droopEnd _ => changePwr_foot
  | .pwrDomainWake _ => actPwrDomain_foot
  | .pwrDomainIdle _ => actPwrDomain_foot
  | .pwrDomainOff _ => actPwrDomain_foot
  | .pwrDomainRelease _ => actPwrDomain_foot
  | .wowSet _ => actWow_foot
  | .wowClear _ => actWow_foot
  | .domCmdWake _ _ => execDomCmdWake_foot
  | .domCmdIdle _ _ => execDomCmdIdle_foot
  | .domCmdOff _ _ => execDomCmdOff_foot
  | .domCmdRelease _ _ => execDomCmdRelease_foot
  | .domainTransitionDone _ => actDomainTransitionDone_foot
  | .quietWrite _ _ => execQuietWrite_foot
  | .thermalTrip _ => actThermalTrip_foot
  | .governorUpdate _ _ => actGovernorUpdate_foot
  | .ballastStop _ => actBallastStop_foot
  | .lsnAssert => actLsnAssert_foot
  | .lsnAck => actLsnAck_foot
  | .lsnAckTimeout => actLsnAckTimeout_foot
  | .riseCovered => actRiseCovered_foot
  | .lsnDeassert => actLsnDeassert_foot
  | .lsnHoldMax => actLsnHoldMax_foot
  | .curtailAssert _ => execCurtailAssert_foot
  | .curtailLevelChange _ => execCurtailLevelChange_foot
  | .curtailRelease => execCurtailRelease_foot
  | .socFrameReceive _ _ => actSocFrameReceive_foot
  | .socTimeout => actSocTimeout_foot
  | .forecastSend => actForecastSend_foot
  | .pmbusPoll _ => actPmbusPoll_foot
  | .plantEnWrite _ _ => execPlantEnWrite_foot
  | .pmcWindow _ => actPmcWindow_foot
  | .windowEdge _ => actWindowEdge_foot
  | .sbufRdWrite _ _ _ => execSbufRdWrite_foot
  | .periodicDump _ _ => actPeriodicDump_foot
  | .coldReset => actColdReset_foot
  | .moduleReset _ => actModuleReset_foot
  | .hostPerst _ _ => actHostPerst_foot
  | .bootStepDone _ => actBootStep_foot
  | .fuseProg _ _ => writeFuseProg_foot
  | .fusePulseDone _ => actFusePulseDone_foot
  | .sketchEnable _ _ => execSketchEnable_foot
  | .sketchDisable _ _ => execSketchDisable_foot
  | .sketchSample => actSketchSample_foot
  | .pwrGoodFall => actColdReset_foot
  | .resetNRelease => changeBoot_foot
  | .hostLinkUp _ _ _ _ => actHostLinkUp_foot
  | .lsnAckFall => execLsnAckFall_foot
  | .fenceHostReadReturn _ => actFenceHostReadReturn_foot
  | .hostReadTimeout _ => actHostReadTimeout_foot
  | .bankRefresh _ _ _ => actBankRefresh_foot

/-- A command that answers a next state has changed only what its footprint lists. -/
theorem exec_within {i : Instr} {s z : State} (he : exec i s = .next z) : ReachIn (footOf i) s z := by
  cases i with
  | registerWrite port bar addr data => exact execRegisterWrite_within port bar addr data s he
  | hostMemoryRead port bar addr len => exact execHostMemoryRead_within port bar addr len s he
  | hostMemoryWrite port bar addr data => exact execHostMemoryWrite_within port bar addr data s he
  | hostConfigRequest port dword acc => exact execHostConfigRequest_within port dword acc s he
  | granuleAccept x => exact execGranuleAccept_within x s he
  | granuleCommit t src => exact execGranuleCommit_within t src s he
  | paletteRequestSet t req sender addrs upsets busy => exact execPaletteRequestSet_within t req sender addrs upsets busy s he
  | eccWriteBack t => exact execEccWriteBack_within t s he
  | requestAged t => exact execRequestAged_within t s he
  | patrolScrub t upsets idle => exact execPatrolScrub_within t upsets idle s he
  | scrubPriorityRaise t upsets => exact execScrubPriorityRaise_within t upsets s he
  | palAcWrite port t n v => exact execPalAcWrite_within port t n v s he
  | palAcAdd port t v => exact execPalAcAdd_within port t v s he
  | palInjectArm port t v => exact execPalInjectArm_within port t v s he
  | gateDrainEnd t q => exact execGateDrainEnd_within t q s he
  | quarterInitDone t q => exact execQuarterInitDone_within t q s he
  | palFill t => exact execPalFill_within t s he
  | palCopy t => exact execPalCopy_within t s he
  | tensorCopy t => exact execTensorCopy_within t s he
  | tensorGather t => exact execTensorGather_within t s he
  | tensorScatter t => exact execTensorScatter_within t s he
  | mxProduct t h => exact execMxProduct_within t h s he
  | mxFirstFeed t h => exact execMxFirstFeed_within t h s he
  | mxPassStart t h => exact execMxPassStart_within t h s he
  | mxPaceRelease t h => exact execMxPaceRelease_within t h s he
  | stallReport u cause => exact execStallReport_within u cause s he
  | stallAbort u => exact execStallAbort_within u s he
  | parkThreshold t right => exact execParkThreshold_within t right s he
  | park port t v => exact execPark_within port t v s he
  | parkTakeEffect t right => exact execParkTakeEffect_within t right s he
  | releaseHalf port t v => exact execReleaseHalf_within port t v s he
  | splitWrite port t v => exact execSplitWrite_within port t v s he
  | splitTakeEffect t => exact execSplitTakeEffect_within t s he
  | veStrokeMap t => exact execVeStrokeMap_within t s he
  | veStrokeReduce t => exact execVeStrokeReduce_within t s he
  | veStrokeScan t => exact execVeStrokeScan_within t s he
  | vePaceRelease t => exact execVePaceRelease_within t s he
  | norm t => exact execNorm_within t s he
  | softmaxFull t => exact execSoftmaxFull_within t s he
  | softmaxPartial t => exact execSoftmaxPartial_within t s he
  | softmaxApply t => exact execSoftmaxApply_within t s he
  | softmaxMerge t => exact execSoftmaxMerge_within t s he
  | pollSweep => exact execPollSweep_within s he
  | summaryReadReturn g data => exact execSummaryReadReturn_within g data s he
  | tailReadReturn g tails => exact execTailReadReturn_within g tails s he
  | schedTableRead a entries => exact execSchedTableRead_within a entries s he
  | ringFetch r => exact execRingFetch_within r s he
  | ringFetchReturn r data => exact execRingFetchReturn_within r data s he
  | descriptorDeliver r => exact execDescriptorDeliver_within r s he
  | descriptorIssue e => exact execDescriptorIssue_within e s he
  | descriptorComplete id => exact execDescriptorComplete_within id s he
  | cqRecordWrite g ok => exact execCqRecordWrite_within g ok s he
  | msixSend g => exact execMsixSend_within g s he
  | msixHoldoffEnd g => exact execMsixHoldoffEnd_within g s he
  | msixUnmask port vec => exact execMsixUnmask_within port vec s he
  | nop id => exact execNop_within id s he
  | streamSet id => exact execStreamSet_within id s he
  | counterAdd id => exact execCounterAdd_within id s he
  | hostWrite id => exact execHostWrite_within id s he
  | ringEnable port r v => exact execRingEnable_within port r v s he
  | ringDisable port r v => exact execRingDisable_within port r v s he
  | ringResume port r v => exact execRingResume_within port r v s he
  | retiredWrite port r v => exact execRetiredWrite_within port r v s he
  | groupActivate port g v => exact execGroupActivate_within port g v s he
  | txnTagGrant => exact execTxnTagGrant_within s he
  | pllLock => exact execPllLock_within s he
  | pllUnlock => exact execPllUnlock_within s he
  | tbBroadcast diffs => exact execTbBroadcast_within diffs s he
  | tbCapture port v => exact execTbCapture_within port v s he
  | tbLoad port v => exact execTbLoad_within port v s he
  | syncRequestSend frac => exact execSyncRequestSend_within frac s he
  | syncRequestReceive p t2 t3 => exact execSyncRequestReceive_within p t2 t3 s he
  | syncResponseReceive p t4 replayed => exact execSyncResponseReceive_within p t4 replayed s he
  | syncResponseMissed => exact execSyncResponseMissed_within s he
  | stampReached target lc => exact execStampReached_within target lc s he
  | linkEnable port p v => exact execLinkEnable_within port p v s he
  | laneTrained p lane ok => exact execLaneTrained_within p lane ok s he
  | portAligned p reversed txDelay rxDelay => exact execPortAligned_within p reversed txDelay rxDelay s he
  | peerInfoReceive p mod peer lanes txDelay rxDelay => exact execPeerInfoReceive_within p mod peer lanes txDelay rxDelay s he
  | retrain port p v => exact execRetrain_within port p v s he
  | flitReceive p flit fecBad => exact execFlitReceive_within p flit fecBad s he
  | replayTimeout p => exact execReplayTimeout_within p s he
  | laneLockLoss p lane => exact execLaneLockLoss_within p lane s he
  | degradeWindowEnd p ce ue => exact execDegradeWindowEnd_within p ce ue s he
  | portIdleEnd p => exact execPortIdleEnd_within p s he
  | frameForward p => exact execFrameForward_within p s he
  | writeFrameReceive p => exact execWriteFrameReceive_within p s he
  | collFrameReceive p contrib => exact execCollFrameReceive_within p contrib s he
  | membershipFrameReceive p => exact execMembershipFrameReceive_within p s he
  | ackReceive p => exact execAckReceive_within p s he
  | noticeReceive p => exact execNoticeReceive_within p s he
  | reasmTimeout p vl cls => exact execReasmTimeout_within p vl cls s he
  | ackTimeout tag => exact execAckTimeout_within tag s he
  | genHoldExpire e => exact execGenHoldExpire_within e s he
  | silentThreshold e id member => exact execSilentThreshold_within e id member s he
  | fabSend id => exact execFabSend_within id s he
  | collAllReduce id => exact execCollAllReduce_within id s he
  | collReduceScatter id => exact execCollReduceScatter_within id s he
  | collAllGather id => exact execCollAllGather_within id s he
  | collVoteSum id => exact execCollVoteSum_within id s he
  | collDispatch id => exact execCollDispatch_within id s he
  | collCombine id => exact execCollCombine_within id s he
  | groupSetLocal id => exact execGroupSetLocal_within id s he
  | groupSetDistribute id => exact execGroupSetDistribute_within id s he
  | groupSetRemove id => exact execGroupSetRemove_within id s he
  | varUpdate n => exact execVarUpdate_within n s he
  | varPass1End n => exact execVarPass1End_within n s he
  | exchangeModuleRecord e => exact execExchangeModuleRecord_within e s he
  | exchangeGatherComplete e => exact execExchangeGatherComplete_within e s he
  | varPass2End n => exact execVarPass2End_within n s he
  | varPush n => exact execVarPush_within n s he
  | varProgram n => exact execVarProgram_within n s he
  | varStateSetStep n => exact execVarStateSetStep_within n s he
  | varStateRelease n => exact execVarStateRelease_within n s he
  | stackAccess n own sender addr wr upset spare => exact execStackAccess_within n own sender addr wr upset spare s he
  | pprComplete n => exact execPprComplete_within n s he
  | varDieFail n => exact execVarDieFail_within n s he
  | riskWindow hottest => exact execRiskWindow_within hottest s he
  | copyStepAdvance => exact execCopyStepAdvance_within s he
  | fixSnapshot id => exact execFixSnapshot_within id s he
  | fixRestoreSend id => exact execFixRestoreSend_within id s he
  | fixRestoreApply id => exact execFixRestoreApply_within id s he
  | fixRestoreServe id => exact execFixRestoreServe_within id s he
  | rngCheckDisarm port v => exact execRngCheckDisarm_within port v s he
  | hostLoss port cause => exact execHostLoss_within port cause s he
  | atsInvalidate port => exact execAtsInvalidate_within port s he
  | lock port a v => exact execLock_within port a v s he
  | quiesce port a v => exact execQuiesce_within port a v s he
  | quiesceDone a => exact execQuiesceDone_within a s he
  | quiesceStallAbort id => exact execQuiesceStallAbort_within id s he
  | release port a v => exact execRelease_within port a v s he
  | adopt port v => exact execAdopt_within port v s he
  | dissolve port v => exact execDissolve_within port v s he
  | shareSet port t v => exact execShareSet_within port t v s he
  | shareOkWrite port a v => exact execShareOkWrite_within port a v s he
  | railOpWrite port d v => exact execRailOpWrite_within port d v s he
  | railOpSettle d mv => exact execRailOpSettle_within d mv s he
  | railSettleTimeout d mv => exact execRailSettleTimeout_within d mv s he
  | droopStart d mv => exact execDroopStart_within d mv s he
  | droopEnd d => exact execDroopEnd_within d s he
  | pwrDomainWake id => exact execPwrDomainWake_within id s he
  | pwrDomainIdle id => exact execPwrDomainIdle_within id s he
  | pwrDomainOff id => exact execPwrDomainOff_within id s he
  | pwrDomainRelease id => exact execPwrDomainRelease_within id s he
  | wowSet id => exact execWowSet_within id s he
  | wowClear id => exact execWowClear_within id s he
  | domCmdWake port v => exact execDomCmdWake_within port v s he
  | domCmdIdle port v => exact execDomCmdIdle_within port v s he
  | domCmdOff port v => exact execDomCmdOff_within port v s he
  | domCmdRelease port v => exact execDomCmdRelease_within port v s he
  | domainTransitionDone d => exact execDomainTransitionDone_within d s he
  | quietWrite port v => exact execQuietWrite_within port v s he
  | thermalTrip quarterDegrees => exact execThermalTrip_within quarterDegrees s he
  | governorUpdate rails quarterDegrees => exact execGovernorUpdate_within rails quarterDegrees s he
  | ballastStop t => exact execBallastStop_within t s he
  | lsnAssert => exact execLsnAssert_within s he
  | lsnAck => exact execLsnAck_within s he
  | lsnAckTimeout => exact execLsnAckTimeout_within s he
  | riseCovered => exact execRiseCovered_within s he
  | lsnDeassert => exact execLsnDeassert_within s he
  | lsnHoldMax => exact execLsnHoldMax_within s he
  | curtailAssert level => exact execCurtailAssert_within level s he
  | curtailLevelChange level => exact execCurtailLevelChange_within level s he
  | curtailRelease => exact execCurtailRelease_within s he
  | socFrameReceive frame gap => exact execSocFrameReceive_within frame gap s he
  | socTimeout => exact execSocTimeout_within s he
  | forecastSend => exact execForecastSend_within s he
  | pmbusPoll readings => exact execPmbusPoll_within readings s he
  | plantEnWrite port v => exact execPlantEnWrite_within port v s he
  | pmcWindow id => exact execPmcWindow_within id s he
  | windowEdge t => exact execWindowEdge_within t s he
  | sbufRdWrite port t v => exact execSbufRdWrite_within port t v s he
  | periodicDump t room => exact execPeriodicDump_within t room s he
  | coldReset => exact execColdReset_within s he
  | moduleReset cause => exact execModuleReset_within cause s he
  | hostPerst port high => exact execHostPerst_within port high s he
  | bootStepDone r => exact execBootStepDone_within r s he
  | fuseProg port v => exact execFuseProg_within port v s he
  | fusePulseDone marginOk => exact execFusePulseDone_within marginOk s he
  | sketchEnable port v => exact execSketchEnable_within port v s he
  | sketchDisable port v => exact execSketchDisable_within port v s he
  | sketchSample => exact execSketchSample_within s he
  | pwrGoodFall => exact execPwrGoodFall_within s he
  | resetNRelease => exact execResetNRelease_within s he
  | hostLinkUp port width rate flitMode => exact execHostLinkUp_within port width rate flitMode s he
  | lsnAckFall => exact execLsnAckFall_within s he
  | fenceHostReadReturn id => exact execFenceHostReadReturn_within id s he
  | hostReadTimeout r => exact execHostReadTimeout_within r s he
  | bankRefresh n pc temp => exact execBankRefresh_within n pc temp s he

end Sys2Proof.Machine
end

