-- ==== Sys2Proof/Laws/Maps.lean ====
section
/-! SUPPORT. What the sparse maps and sets do: reading back, and keeping the canonical form. -/

namespace Sys2Proof.Machine

theorem keysAbove_get {α : Type} (d : Nat → α) {k : Nat} {m : List (Nat × α)} (h : keysAbove k m = true) :
    mapGet d m k = d k := by
  induction m with
  | nil => rfl
  | cons e m ih =>
    simp only [keysAbove, List.all_cons, Bool.and_eq_true, decide_eq_true_eq] at h
    have h2 : k ≠ e.1 := by omega
    simp only [mapGet, h2, if_false]
    exact ih (by simpa [keysAbove] using h.2)

theorem keysAbove_mono {α : Type} {j k : Nat} {m : List (Nat × α)} (hjk : j ≤ k) (h : keysAbove k m = true) :
    keysAbove j m = true := by
  simp only [keysAbove, List.all_eq_true, decide_eq_true_eq] at *
  intro e he
  exact Nat.lt_of_le_of_lt hjk (h e he)

/-- A key that is not taken away reads as before; one that is reads as if nothing had been put there. -/
theorem mapGet_filter {α : Type} (d : Nat → α) {m : List (Nat × α)} (p : Nat → Bool) (k : Nat) :
    mapGet d (m.filter fun e => p e.1) k = if p k then mapGet d m k else d k := by
  induction m with
  | nil => simp [mapGet]
  | cons e m ih =>
    simp only [List.filter_cons]
    by_cases hp : p e.1
    · simp only [hp, if_true, mapGet]
      by_cases hk : k = e.1
      · simp [hk, hp]
      · simp only [hk, if_false]; exact ih
    · simp only [hp, Bool.false_eq_true, if_false]
      rw [ih]
      by_cases hk : k = e.1
      · subst hk; simp [hp]
      · simp [mapGet, hk]

theorem mapGet_mapDrop {α : Type} (d : Nat → α) (m : List (Nat × α)) (j k : Nat) :
    mapGet d (mapDrop m k) j = if j = k then d j else mapGet d m j := by
  refine (mapGet_filter d (fun j => j != k) j).trans ?_
  by_cases h : j = k <;> simp [h]

theorem keysAbove_mapDrop {α : Type} {j k : Nat} {m : List (Nat × α)} (h : keysAbove j m = true) :
    keysAbove j (mapDrop m k) = true := by
  simp only [keysAbove, List.all_eq_true] at *
  exact fun e he => h e (List.mem_filter.1 he).1

theorem keysAbove_mapSet {α : Type} [DecidableEq α] (d : Nat → α) {j k : Nat} {m : List (Nat × α)} (v : α) (hk : j < k)
    (h : keysAbove j m = true) : keysAbove j (mapSet d m k v) = true := by
  induction m with
  | nil => unfold mapSet; split <;> simp [keysAbove, hk]
  | cons e m ih =>
    have h0 := h
    simp only [keysAbove, List.all_cons, Bool.and_eq_true, decide_eq_true_eq] at h
    have hm : keysAbove j m = true := by simpa [keysAbove] using h.2
    have := ih hm
    unfold mapSet
    split
    · split
      · exact keysAbove_mapDrop h0
      · simp only [keysAbove, List.all_cons, Bool.and_eq_true, decide_eq_true_eq] at hm ⊢
        exact ⟨hk, h.1, hm⟩
    · split
      · split
        · exact keysAbove_mapDrop hm
        · simp only [keysAbove, List.all_cons, Bool.and_eq_true, decide_eq_true_eq] at hm ⊢
          exact ⟨hk, hm⟩
      · simp only [keysAbove, List.all_cons, Bool.and_eq_true, decide_eq_true_eq] at this ⊢
        exact ⟨h.1, this⟩

/-- A key reads back what was put there. -/
theorem mapGet_mapSet_same {α : Type} [DecidableEq α] (d : Nat → α) (m : List (Nat × α)) (k : Nat) (v : α) :
    mapGet d (mapSet d m k v) k = v := by
  induction m with
  | nil => unfold mapSet; split <;> simp_all [mapGet]
  | cons e m ih =>
    unfold mapSet
    split
    · split
      · rename_i hvd
        rw [mapGet_mapDrop, if_pos rfl, hvd]
      · simp [mapGet]
    · split
      · split
        · rename_i hvd
          rw [mapGet_mapDrop, if_pos rfl, hvd]
        · simp [mapGet]
      · rename_i h2
        simp only [mapGet, h2, if_false]
        exact ih

/-- Every other key reads as before. -/
theorem mapGet_mapSet_ne {α : Type} [DecidableEq α] (d : Nat → α) {m : List (Nat × α)} {j k : Nat} (v : α)
    (hjk : j ≠ k) : mapGet d (mapSet d m k v) j = mapGet d m j := by
  induction m with
  | nil => unfold mapSet; split <;> simp [mapGet, hjk]
  | cons e m ih =>
    unfold mapSet
    repeat' split
    all_goals simp_all [mapGet, mapGet_mapDrop]

/-- Taking entries away keeps the canonical form. -/
theorem mapWf_filter {α : Type} [DecidableEq α] (d : Nat → α) {m : List (Nat × α)} (p : Nat × α → Bool)
    (h : mapWf d m = true) : mapWf d (m.filter p) = true := by
  induction m with
  | nil => rfl
  | cons e m ih =>
    simp only [mapWf, Bool.and_eq_true, decide_eq_true_eq] at h
    obtain ⟨⟨ha, hv⟩, hm⟩ := h
    simp only [List.filter_cons]
    split
    · simp only [mapWf, Bool.and_eq_true, decide_eq_true_eq]
      refine ⟨⟨?_, hv⟩, ih hm⟩
      simp only [keysAbove, List.all_eq_true] at *
      intro x hx
      exact ha x ((List.mem_filter.1 hx).1)
    · exact ih hm

/-- Putting a value keeps the canonical form. -/
theorem mapWf_mapSet {α : Type} [DecidableEq α] (d : Nat → α) {m : List (Nat × α)} (k : Nat) (v : α)
    (h : mapWf d m = true) : mapWf d (mapSet d m k v) = true := by
  induction m with
  | nil =>
    unfold mapSet
    split
    · rfl
    · simp_all [mapWf, keysAbove]
  | cons e m ih =>
    have h0 := h
    simp only [mapWf, Bool.and_eq_true, decide_eq_true_eq] at h
    obtain ⟨⟨ha, hv⟩, hm⟩ := h
    unfold mapSet
    by_cases h1 : k < e.1
    · rw [if_pos h1]
      split
      · exact mapWf_filter d _ h0
      · rename_i hvd
        have := keysAbove_mono (Nat.le_of_lt h1) ha
        simp only [mapWf, Bool.and_eq_true, decide_eq_true_eq]
        refine ⟨⟨?_, hvd⟩, ⟨ha, hv⟩, hm⟩
        simp only [keysAbove, List.all_cons, Bool.and_eq_true, decide_eq_true_eq]
        exact ⟨h1, this⟩
    · rw [if_neg h1]
      by_cases h2 : k = e.1
      · rw [if_pos h2]
        split
        · exact mapWf_filter d _ hm
        · subst h2
          simp_all [mapWf]
      · rw [if_neg h2]
        have h3 : e.1 < k := by omega
        simp only [mapWf, Bool.and_eq_true, decide_eq_true_eq]
        exact ⟨⟨keysAbove_mapSet d v h3 ha, hv⟩, ih hm⟩

theorem setWf_setIns {m : List Nat} (k : Nat) (h : setWf m = true) : setWf (setIns m k) = true := by
  induction m with
  | nil => simp [setIns, setWf]
  | cons j m ih =>
    simp only [setWf, Bool.and_eq_true, List.all_eq_true, decide_eq_true_eq] at h
    have hins : ∀ x ∈ setIns m k, x = k ∨ x ∈ m := by
      clear ih h
      induction m with
      | nil => simp [setIns]
      | cons i m ih2 =>
        unfold setIns
        split
        · simp
        · split
          · exact fun x hx => Or.inr hx
          · simp only [List.mem_cons]
            rintro x (hx | hx)
            · exact Or.inr (Or.inl hx)
            · rcases ih2 x hx with h | h
              · exact Or.inl h
              · exact Or.inr (Or.inr h)
    unfold setIns
    split
    · rename_i hlt
      simp only [setWf, Bool.and_eq_true, List.all_eq_true, decide_eq_true_eq, List.mem_cons]
      refine ⟨?_, h⟩
      rintro x (hx | hx)
      · omega
      · have := h.1 x hx; omega
    · split
      · simpa [setWf] using h
      · simp only [setWf, Bool.and_eq_true, List.all_eq_true, decide_eq_true_eq]
        refine ⟨?_, ih h.2⟩
        intro x hx
        rcases hins x hx with hx | hx
        · omega
        · exact h.1 x hx

theorem setWf_filter {m : List Nat} (p : Nat → Bool) (h : setWf m = true) : setWf (m.filter p) = true := by
  induction m with
  | nil => rfl
  | cons j m ih =>
    simp only [setWf, Bool.and_eq_true, List.all_eq_true, decide_eq_true_eq] at h
    simp only [List.filter_cons]
    split
    · simp only [setWf, Bool.and_eq_true, List.all_eq_true, decide_eq_true_eq]
      exact ⟨fun x hx => h.1 x ((List.mem_filter.1 hx).1), ih h.2⟩
    · exact ih h.2

end Sys2Proof.Machine
end

