-- ==== Sys2Proof/Laws/Sound.lean ====
section
/-! SUPPORT. Soundness: every effect keeps every table canonical and keeps what registers and memory may hold. -/

namespace Sys2Proof.Machine

/-- The uncore holds registers only. -/
theorem uncorePlace_register (o : Nat) : (∃ b i r, uncorePlace o = .reg b i r) ∨ uncorePlace o = .absent := by
  unfold uncorePlace ringPlace
  dsimp only
  repeat' split
  all_goals first | exact .inr rfl | exact .inl ⟨_, _, _, rfl⟩

/-- A tile's window holds registers only. -/
theorem tilePlace_register (t o : Nat) : ∃ b i r, tilePlace t o = .reg b i r := by
  unfold tilePlace
  split <;> exact ⟨_, _, _, rfl⟩

/-- A place is memory. -/
def Place.isMemory : Place → Bool
  | .palette _ _ => true
  | .stack _ _ => true
  | _ => false

/-- Memory is what lies in palettes and stacks. -/
theorem isMemory_place (a : Nat) : Sys2Proof.Machine.isMemory a = (place a).isMemory := by
  unfold Sys2Proof.Machine.isMemory
  cases place a <;> rfl

/-- Nothing above the palettes is memory. -/
theorem place_high (a : Nat) (h : ¬ a < 0x20000000000) : (place a).isMemory = false := by
  unfold place
  rw [if_neg (by omega), if_neg h]
  split
  · dsimp only
    split
    · obtain ⟨b, i, r, h⟩ := tilePlace_register ((a - 0x20000000000) / 0x100000) ((a - 0x20000000000) % 0x100000)
      rw [h]
      rfl
    · rfl
  · rcases uncorePlace_register (a - 0x21000000000) with ⟨b, i, r, h⟩ | h <;> rw [h] <;> rfl

/-- The addresses of memory. -/
theorem isMemory_iff (a : Nat) : isMemory a = true ↔
    (a < 0x10000000000 ∧ a % 0x1000000000 < stackBytes)
      ∨ (0x10000000000 ≤ a ∧ a < 0x20000000000 ∧ (a - 0x10000000000) / 0x4000000 < 64
          ∧ (a - 0x10000000000) % 0x4000000 < paletteBytes) := by
  rw [isMemory_place]
  by_cases h1 : a < 0x10000000000
  · unfold place
    rw [if_pos h1]
    by_cases h2 : a % 0x1000000000 < stackBytes
    · rw [if_pos h2]
      exact ⟨fun _ => .inl ⟨h1, h2⟩, fun _ => rfl⟩
    · rw [if_neg h2]
      refine ⟨fun h => absurd h (by decide), fun h => ?_⟩
      omega
  · by_cases h2 : a < 0x20000000000
    · unfold place
      rw [if_neg h1, if_pos h2]
      dsimp only
      by_cases h3 : (a - 0x10000000000) / 0x4000000 < 64 ∧ (a - 0x10000000000) % 0x4000000 < paletteBytes
      · rw [if_pos h3]
        exact ⟨fun _ => .inr ⟨by omega, h2, h3⟩, fun _ => rfl⟩
      · rw [if_neg h3]
        refine ⟨fun h => absurd h (by decide), fun h => ?_⟩
        omega
    · rw [place_high a h2]
      refine ⟨fun h => absurd h (by decide), fun h => ?_⟩
      omega

/-- A granule of memory is memory in each of its bytes. -/
theorem isMemory_granule {g i : Nat} (h : isMemory (64 * g) = true) (hi : i < 64) : isMemory (64 * g + i) = true := by
  rw [isMemory_iff] at *
  unfold stackBytes paletteBytes at *
  omega

/-- A property of all entries is kept where the new one has it. -/
theorem all_mapSet {α : Type} [DecidableEq α] (d : Nat → α) {m : List (Nat × α)} (p : Nat × α → Bool) {k : Nat} {v : α}
    (h : m.all p = true) (hk : p (k, v) = true) : (mapSet d m k v).all p = true := by
  induction m with
  | nil => unfold mapSet; split <;> simp [hk]
  | cons e m ih =>
    simp only [List.all_cons, Bool.and_eq_true] at h
    have hd (m : List (Nat × α)) (h : m.all p = true) : (mapDrop m k).all p = true := by
      simp only [List.all_eq_true] at h ⊢
      exact fun e he => h e (List.mem_filter.1 he).1
    unfold mapSet
    split
    · split
      · exact hd _ (by simp only [List.all_cons, Bool.and_eq_true]; exact h)
      · simp only [List.all_cons, Bool.and_eq_true]
        exact ⟨hk, h⟩
    · split
      · split
        · exact hd _ h.2
        · simp only [List.all_cons, Bool.and_eq_true]
          exact ⟨hk, h.2⟩
      · simp only [List.all_cons, Bool.and_eq_true]
        exact ⟨h.1, ih h.2⟩

/-- A property of all entries is a property of the entries that stay. -/
theorem all_filter {α : Type} {m : List α} (p q : α → Bool) (h : m.all p = true) : (m.filter q).all p = true := by
  simp only [List.all_eq_true] at *
  exact fun x hx => h x (List.mem_filter.1 hx).1

/-- Writing one byte of memory keeps its form. -/
theorem Memory.wf_mapSet {m : List Host.Cell} (h : Memory.wf m = true) {a : Nat} (ha : isMemory a = true) (v : Byte) :
    Memory.wf (mapSet memReset m a v) = true := by
  unfold Memory.wf at *
  rw [Bool.and_eq_true] at *
  exact ⟨mapWf_mapSet memReset a v h.1, all_mapSet memReset _ h.2 ha⟩

/-- Taking bytes away keeps memory's form. -/
theorem Memory.wf_filter {m : List Host.Cell} (h : Memory.wf m = true) (q : Host.Cell → Bool) :
    Memory.wf (m.filter q) = true := by
  unfold Memory.wf at *
  rw [Bool.and_eq_true] at *
  exact ⟨mapWf_filter memReset q h.1, all_filter _ q h.2⟩

/-- Writing a granule keeps memory's form. -/
theorem Memory.wf_putBytes {m : List Host.Cell} (h : Memory.wf m = true) {g : Nat} (hg : isMemory (64 * g) = true)
    (v k : BitVec 512) (n : Nat) (hn : n ≤ 64) : Memory.wf (putBytes (64 * g) v k n m) = true := by
  induction n with
  | zero => exact h
  | succ n ih =>
    unfold putBytes
    exact Memory.wf_mapSet (ih (by omega)) (isMemory_granule hg (by omega)) _

/-- Writing a register keeps what registers may hold. -/
theorem regsWf_mapSet {m : List (Nat × Word)} (h : regsWf m = true) (a : Nat) (v : Word) :
    regsWf (mapSet regReset m a ((v &&& regBits a) ||| (regReset a &&& ~~~ regBits a))) = true := by
  unfold regsWf at *
  rw [Bool.and_eq_true] at *
  refine ⟨mapWf_mapSet regReset a _ h.1, all_mapSet regReset _ h.2 ?_⟩
  simp only [beq_iff_eq]
  apply BitVec.eq_of_getLsbD_eq
  intro i hi
  simp only [BitVec.getLsbD_and, BitVec.getLsbD_or, BitVec.getLsbD_not, hi, decide_true, Bool.true_and]
  cases (regBits a).getLsbD i <;> simp

/-- Taking registers back to their reset values keeps what registers may hold. -/
theorem regsWf_filter {m : List (Nat × Word)} (h : regsWf m = true) (q : Nat × Word → Bool) : regsWf (m.filter q) = true := by
  unfold regsWf at *
  rw [Bool.and_eq_true] at *
  exact ⟨mapWf_filter regReset q h.1, all_filter _ q h.2⟩

/-- The parts of soundness. -/
theorem State.sound_iff {s : State} : s.sound = true ↔ regsWf s.regs = true ∧ Memory.wf s.mem = true
    ∧ setWf s.poison = true ∧ mapWf upsetReset s.upsets = true ∧ mapWf routeReset s.routes = true
    ∧ mapWf fuseReset s.fuses = true := by
  unfold State.sound
  simp only [Bool.and_eq_true, and_assoc]

/-- Every effect keeps soundness. -/
theorem apply_sound {s : State} (h : s.sound = true) (e : Eff) : (e.apply s).sound = true := by
  rw [State.sound_iff] at *
  obtain ⟨hr, hm, hp, hu, hro, hf⟩ := h
  cases e with
  | reg a v => exact ⟨regsWf_mapSet hr a v, hm, hp, hu, hro, hf⟩
  | granule g v k =>
    refine ⟨hr, ?_, hp, hu, hro, hf⟩
    unfold Eff.apply
    dsimp only
    split
    · exact Memory.wf_putBytes hm ‹_› v k 64 (Nat.le_refl _)
    · exact hm
  | poison g => exact ⟨hr, hm, setWf_setIns g hp, hu, hro, hf⟩
  | heal g => exact ⟨hr, hm, setWf_filter _ hp, hu, hro, hf⟩
  | upset g m => exact ⟨hr, hm, hp, mapWf_mapSet upsetReset g m hu, hro, hf⟩
  | route m v => exact ⟨hr, hm, hp, hu, mapWf_mapSet routeReset m (v &&& routeMask) hro, hf⟩
  | blow w b => exact ⟨hr, hm, hp, hu, hro, mapWf_mapSet fuseReset w _ hf⟩
  | out o => exact ⟨hr, hm, hp, hu, hro, hf⟩
  | draw => exact ⟨hr, hm, hp, hu, hro, hf⟩
  | units u => exact ⟨hr, hm, hp, hu, hro, hf⟩
  | wipeRegs p => exact ⟨regsWf_filter hr _, hm, hp, hu, hro, hf⟩
  | wipeMem p => exact ⟨hr, Memory.wf_filter hm _, setWf_filter _ hp, mapWf_filter upsetReset _ hu, hro, hf⟩
  | wipeRoutes => exact ⟨hr, hm, hp, hu, rfl, hf⟩

/-- Effects keep soundness. -/
theorem Reach.sound {s t : State} (h : Reach s t) (hs : s.sound = true) : t.sound = true :=
  h.keeps (fun u => u.sound = true) hs fun _ e hu => apply_sound hu e

end Sys2Proof.Machine
end

