-- ==== Sys2Proof/Laws/Frame.lean ====
section
/-! SUPPORT. Frames: what effects within a footprint leave as it was, and what setting a field leaves. -/

namespace Sys2Proof.Machine

/-! ### Bits of a word -/

/-- A field of a word as a bit vector. -/
theorem bits_eq (w : Word) (hi lo : Nat) : bits w hi lo = (w.extractLsb' lo (hi - lo + 1)).toNat := by
  simp [bits, BitVec.extractLsb'_toNat]

/-- Two words that agree in the bits of a field agree in the field. -/
theorem bits_congr {w v : Word} {hi lo : Nat} (hlo : lo ≤ hi) (h : ∀ i, lo ≤ i → i ≤ hi → w.getLsbD i = v.getLsbD i) :
    bits w hi lo = bits v hi lo := by
  rw [bits_eq, bits_eq]
  congr 1
  apply BitVec.eq_of_getLsbD_eq
  intro i hi'
  simp only [BitVec.getLsbD_extractLsb', hi', decide_true, Bool.true_and]
  exact h _ (by omega) (by omega)

/-- The bits of a word with a field replaced. -/
theorem putBits_getLsbD (w : Word) (hi lo v i : Nat) (hi64 : hi < 64) (hlo : lo ≤ hi) : (putBits w hi lo v).getLsbD i =
    if lo ≤ i ∧ i ≤ hi then v.testBit (i - lo) else w.getLsbD i := by
  unfold putBits
  dsimp only
  simp only [BitVec.getLsbD_or, BitVec.getLsbD_and, BitVec.getLsbD_not, BitVec.getLsbD_ofNat, Nat.testBit_shiftLeft,
    Nat.testBit_two_pow_sub_one]
  by_cases h64 : i < 64
  · by_cases h1 : lo ≤ i <;> by_cases h2 : i ≤ hi
    · have h3 : i - lo < hi - lo + 1 := by omega
      simp [h1, h2, h3, h64]
    · have h3 : ¬ i - lo < hi - lo + 1 := by omega
      simp [h1, h2, h3, h64]
    · simp [h1, h64]
    · simp [h1, h64]
  · rw [BitVec.getLsbD_of_ge w i (by omega)]
    have : ¬ (lo ≤ i ∧ i ≤ hi) := by omega
    simp [h64, this]

/-- A field that was put is what it was set to, modulo its width. -/
theorem bits_putBits (w : Word) (hi lo v : Nat) (hi64 : hi < 64) (hlo : lo ≤ hi) :
    bits (putBits w hi lo v) hi lo = v % 2 ^ (hi - lo + 1) := by
  apply Nat.eq_of_testBit_eq
  intro i
  rw [bits_eq, BitVec.testBit_toNat, BitVec.getLsbD_extractLsb', Nat.testBit_mod_two_pow,
    putBits_getLsbD _ _ _ _ _ hi64 hlo]
  by_cases h : i < hi - lo + 1
  · have : lo ≤ lo + i ∧ lo + i ≤ hi := by omega
    simp [h, this]
  · simp [h]

/-- Putting a field leaves the bits of the others. -/
theorem bits_putBits_ne (w : Word) {hi lo hi' lo' : Nat} (v : Nat) (hi64 : hi < 64) (hlo : lo ≤ hi) (hlo' : lo' ≤ hi')
    (h : hi < lo' ∨ hi' < lo) : bits (putBits w hi lo v) hi' lo' = bits w hi' lo' := by
  apply bits_congr hlo'
  intro i h1 h2
  rw [putBits_getLsbD _ _ _ _ _ hi64 hlo, if_neg (by omega)]

/-! ### Fields that the registers implement -/

/-- The parts of `Fld.implemented`. -/
theorem implemented_iff {f : Fld} : f.implemented = true ↔ f.lo ≤ f.hi ∧ f.hi < 64 ∧ f.blk ≠ .cap
    ∧ f.off + f.stride * (f.count - 1) < blkSize f.blk ∧ 0 < f.count ∧
    ∀ k < f.count, ∃ d, findDef (blkRegs f.blk) (f.off + f.stride * k) = some d ∧
      ∀ i, f.lo ≤ i → i ≤ f.hi → d.impl.getLsbD i = true := by
  unfold Fld.implemented
  simp only [Bool.and_eq_true, decide_eq_true_eq, bne_iff_ne, ne_eq, List.all_eq_true, List.mem_range, and_assoc]
  refine and_congr_right fun _ => and_congr_right fun _ => and_congr_right fun _ => and_congr_right fun _ =>
    and_congr_right fun _ => forall_congr' fun k => imp_congr_right fun _ => ?_
  cases findDef (blkRegs f.blk) (f.off + f.stride * k) with
  | none => simp
  | some d =>
    simp only [List.all_eq_true, List.mem_range, Bool.or_eq_true, decide_eq_true_eq, Option.some.injEq, exists_eq_left']
    exact ⟨fun h i h1 h2 => (h i (by omega)).resolve_left (by omega), fun h i hi => by
      by_cases h1 : i < f.lo
      · exact .inl h1
      · exact .inr (h i (by omega) (by omega))⟩

/-- An element's offset lies in the window. -/
theorem elem_lt {f : Fld} (h : f.implemented = true) (k : Nat) : f.off + f.stride * (k % f.count) < blkSize f.blk := by
  obtain ⟨_, _, _, h4, h5, _⟩ := implemented_iff.1 h
  have h6 : k % f.count ≤ f.count - 1 := by have := Nat.mod_lt k h5; omega
  have := Nat.mul_le_mul_left f.stride h6
  omega

/-- The bits of an implemented field are bits that its registers implement. -/
theorem regBits_addr {f : Fld} (h : f.implemented = true) (i k j : Nat) (h1 : f.lo ≤ j) (h2 : j ≤ f.hi) :
    (regBits (f.addr i k)).getLsbD j = true := by
  obtain ⟨_, _, h3, _, h5, h6⟩ := implemented_iff.1 h
  obtain ⟨d, hd, hb⟩ := h6 (k % f.count) (Nat.mod_lt k h5)
  unfold Fld.addr
  rw [regBits_regAddr, Nat.mod_eq_of_lt (elem_lt h k), hd]
  simp only [h3, if_false]
  exact hb j h1 h2

/-- What a register holds after it is written. -/
theorem held_reg_same {s : State} (a : Nat) (v : Word) :
    (Eff.apply s (.reg a v)).held a = (v &&& regBits a) ||| (regReset a &&& ~~~ regBits a) := by
  unfold State.held
  rw [reg_regs, mapGet_mapSet_same]

/-- The bits that a register does not implement hold their reset values. -/
theorem held_fixed {s : State} (hs : s.sound = true) (a : Nat) :
    s.held a &&& ~~~ regBits a = regReset a &&& ~~~ regBits a := by
  have h : (s.regs.all fun e => e.2 &&& ~~~ regBits e.1 == regReset e.1 &&& ~~~ regBits e.1) = true := by
    have := (State.sound_iff.1 hs).1
    unfold regsWf at this
    exact (Bool.and_eq_true_iff.1 this).2
  unfold State.held
  revert h
  induction s.regs with
  | nil => exact fun _ => rfl
  | cons e m ih =>
    intro h
    obtain ⟨k, v⟩ := e
    rw [List.all_cons, Bool.and_eq_true, beq_iff_eq] at h
    unfold mapGet
    split
    · subst_vars
      exact h.1
    · exact ih h.2

/-- A register that implements no bit holds its reset value. -/
theorem held_unimplemented {s : State} (hs : s.sound = true) {a : Nat} (ha : regBits a = 0) : s.held a = regReset a := by
  have := held_fixed hs a
  rw [ha] at this
  have e : ~~~(0 : Word) = BitVec.allOnes 64 := by decide
  rwa [e, BitVec.and_allOnes, BitVec.and_allOnes] at this

/-- The other registers hold what they held. -/
theorem held_reg_ne {s : State} {a b : Nat} (v : Word) (h : b ≠ a) : (Eff.apply s (.reg a v)).held b = s.held b := by
  unfold State.held
  rw [reg_regs, mapGet_mapSet_ne]
  exact h

/-- The field of a register that is written reads as written. -/
theorem bits_held_reg {s : State} {f : Fld} (hf : f.implemented = true) (i k : Nat) (v : Word) :
    (Eff.apply s (.reg (f.addr i k) v)).fld f i k = bits v f.hi f.lo := by
  unfold State.fld
  rw [held_reg_same]
  apply bits_congr (implemented_iff.1 hf).1
  intro j h1 h2
  simp [regBits_addr hf i k j h1 h2]

/-- A field that is set reads as it was set, modulo its width. -/
theorem fld_set_same {s : State} {f : Fld} (hf : f.implemented = true) (v i k : Nat) :
    (Eff.apply s (.reg (f.addr i k) (putBits (s.held (f.addr i k)) f.hi f.lo v))).fld f i k = v % 2 ^ (f.hi - f.lo + 1) := by
  obtain ⟨h1, h2, _⟩ := implemented_iff.1 hf
  rw [bits_held_reg hf, bits_putBits _ _ _ _ h2 h1]

/-- Fields that are apart lie in different registers or in different bits. -/
theorem apart_addr {f g : Fld} (h : f.apart g = true) {i j k l : Nat} (he : f.addr i k = g.addr j l) (hf : 0 < f.count)
    (hg : 0 < g.count) : f.hi < g.lo ∨ g.hi < f.lo := by
  unfold Fld.apart at h
  simp only [Bool.or_eq_true, bne_iff_ne, ne_eq, decide_eq_true_eq, Bool.and_eq_true, beq_iff_eq] at h
  have hb : f.blk = g.blk := by
    have h1 := blkAt_addr f i k
    rw [he, blkAt_addr] at h1
    exact (Option.some.inj h1).symm
  have ho : (f.off + f.stride * (k % f.count)) % blkSize f.blk = (g.off + g.stride * (l % g.count)) % blkSize g.blk := by
    have h1 := place_regAddr f.blk i (f.off + f.stride * (k % f.count))
    have h2 := place_regAddr g.blk j (g.off + g.stride * (l % g.count))
    unfold Fld.addr at he
    rw [he, h2] at h1
    simp only [Place.reg.injEq] at h1
    exact h1.2.2.symm
  rcases h with ((h | h) | h) | h
  · exact absurd hb h
  · exact .inl h
  · exact .inr h
  · exfalso
    obtain ⟨⟨h1, h2⟩, h3⟩ := h
    have hk : f.stride * (k % f.count) ≤ f.stride * (f.count - 1) := by
      have := Nat.mod_lt k hf
      exact Nat.mul_le_mul_left _ (by omega)
    have hl : g.stride * (l % g.count) ≤ g.stride * (g.count - 1) := by
      have := Nat.mod_lt l hg
      exact Nat.mul_le_mul_left _ (by omega)
    have e1 : f.off + f.stride * (k % f.count) < blkSize f.blk := by omega
    have e2 : g.off + g.stride * (l % g.count) < blkSize g.blk := by omega
    rw [Nat.mod_eq_of_lt e1, Nat.mod_eq_of_lt e2] at ho
    rcases h3 with (h3 | h3) | h3
    · omega
    · omega
    · have h4 := congrArg (· % f.stride) ho
      simp only [Nat.add_mul_mod_self_left] at h4
      rw [h3.1, Nat.add_mul_mod_self_left] at h4
      exact h3.2 (by rw [h3.1]; exact h4)

/-! ### What effects within a footprint keep -/

/-- The fields that a footprint lists. -/
def Foot.flds (F : Foot) : List Fld := F.filterMap fun
  | .fld f => some f
  | _ => none
/-- The registers that a footprint lists whole, by one of their fields. -/
def Foot.regs (F : Foot) : List Fld := F.filterMap fun
  | .reg f => some f
  | _ => none

/-- A field is a range of bits of a register, or of each register of an array. -/
def Fld.plain (f : Fld) : Bool := decide (f.lo ≤ f.hi) && decide (f.hi < 64) && decide (0 < f.count)

/-- A field that shares nothing with what a footprint lists. -/
def Foot.clear (F : Foot) (g : Fld) : Bool :=
  F.all fun
    | .fld f => g.apart f && f.plain
    | .reg f => g.apart { f with hi := 63, lo := 0 } && decide (0 < f.count)
    | .addr _ | .lost => false
    | _ => true

/-- An allowed effect keeps a field that the footprint is clear of. -/
theorem apply_fld {F : Foot} {s : State} {e : Eff} (he : F.allows s e) {g : Fld}
    (hg : g.implemented = true) (hc : F.clear g = true) (i k : Nat) : (e.apply s).fld g i k = s.fld g i k := by
  unfold Foot.clear at hc
  rw [List.all_eq_true] at hc
  obtain ⟨hg1, hg2, _, _, hg5, _⟩ := implemented_iff.1 hg
  cases e with
  | reg a v =>
    unfold State.fld
    by_cases ha : g.addr i k = a
    · subst ha
      rcases he with ⟨f, j, l, n, hf, hfa, rfl⟩ | ⟨f, j, l, hf, hfa⟩ | hf
      · have h1 := hc _ hf
        simp only [Fld.plain, Bool.and_eq_true, decide_eq_true_eq] at h1
        obtain ⟨h1, ⟨h2, h3⟩, h4⟩ := h1
        rw [held_reg_same]
        refine (bits_congr hg1 fun b hb hb' => ?_).trans
          (bits_putBits_ne (s.held (g.addr i k)) n h3 h2 hg1 (apart_addr h1 hfa hg5 h4).symm)
        simp [regBits_addr hg i k b hb hb']
      · have h1 := hc _ hf
        simp only [Bool.and_eq_true, decide_eq_true_eq] at h1
        have := apart_addr h1.1 (i := i) (k := k) (j := j) (l := l) hfa hg5 h1.2
        dsimp only at this
        omega
      · exact absurd (hc _ hf) (by simp)
    · rw [held_reg_ne v ha]
  | wipeRegs p => exact absurd (hc _ he) (by simp)
  | _ => rfl

/-- Effects within a footprint keep every field that the footprint is clear of. -/
theorem ReachIn.fld {F : Foot} {s t : State} (h : ReachIn F s t) {g : Fld} (hg : g.implemented = true)
    (hc : F.clear g = true) (i k : Nat) : t.fld g i k = s.fld g i k := by
  exact h.keeps (fun u => u.fld g i k = s.fld g i k) rfl fun u e he hu => (apply_fld he hg hc i k).trans hu

/-- The lists of fields that a frame names. -/
theorem ReachIn.fieldsKept {F : Foot} {s t : State} (h : ReachIn F s t) (fs : List Fld)
    (hF : ∀ g : Fld, (∀ f ∈ fs, g.apart f = true) → F.clear g = true) : fieldsKeptBut fs s t :=
  fun _ i k hg hf => h.fld hg (hF _ hf) i k

/-- Memory, its poison and its errors, where a footprint leaves them out. -/
theorem ReachIn.memory {F : Foot} {s t : State} (h : ReachIn F s t) (hm : Touch.mem ∉ F) :
    t.mem = s.mem ∧ t.poison = s.poison ∧ t.upsets = s.upsets := by
  refine h.keeps (fun u => u.mem = s.mem ∧ u.poison = s.poison ∧ u.upsets = s.upsets) ⟨rfl, rfl, rfl⟩ fun u e he hu => ?_
  cases e <;> first | exact hu | exact absurd he hm

/-- The route table, where a footprint leaves it out. -/
theorem ReachIn.routes {F : Foot} {s t : State} (h : ReachIn F s t) (hr : Touch.routes ∉ F) : t.routes = s.routes := by
  refine h.keeps (fun u => u.routes = s.routes) rfl fun u e he hu => ?_
  cases e <;> first | exact hu | exact absurd he hr

/-- The fuses, where a footprint leaves them out. -/
theorem ReachIn.fuses {F : Foot} {s t : State} (h : ReachIn F s t) (hf : Touch.fuses ∉ F) : t.fuses = s.fuses := by
  refine h.keeps (fun u => u.fuses = s.fuses) rfl fun u e he hu => ?_
  cases e <;> first | exact hu | exact absurd he hf

/-- What has been sent outside, where a footprint leaves it out. -/
theorem ReachIn.out {F : Foot} {s t : State} (h : ReachIn F s t) (ho : Touch.out ∉ F) : t.out = s.out := by
  refine h.keeps (fun u => u.out = s.out) rfl fun u e he hu => ?_
  cases e <;> first | exact hu | exact absurd he ho

/-- Agreement in a part is transitive. -/
theorem Part.same_trans {p : Part} {u v w : Units} (h : p.same u v) (h' : p.same v w) : p.same u w := by
  cases p <;> exact Eq.trans h h'

/-- A part of the units' own state, where a footprint leaves it out. -/
theorem ReachIn.part {F : Foot} {s t : State} (h : ReachIn F s t) (p : Part) (hp : Touch.part p ∉ F) :
    p.same s.units t.units := by
  refine h.keeps (fun u => p.same s.units u.units) (by cases p <;> rfl) fun u e he hu => ?_
  cases e with
  | units v => exact Part.same_trans hu ((he p).resolve_right hp)
  | _ => exact hu

/-! ### What every effect keeps -/

/-- Nothing sent outside is taken back. -/
theorem Reach.sent {s t : State} (h : Reach s t) : sentKept s t := by
  refine h.keeps (fun u => s.out <+: u.out) (List.prefix_refl _) fun u e hu => ?_
  cases e <;> first | exact hu | exact hu.trans (List.prefix_append _ _)

end Sys2Proof.Machine
end

