-- ==== Sys2Proof/Laws/Keeps.lean ====
section
/-! SUPPORT. What an action within a footprint leaves as it was, said of the action, and what its first steps come to. -/

namespace Sys2Proof.Machine

variable {s₀ : State} {α β : Type} {F : Foot}

/-- Every state an action comes to from a sound one is sound. -/
theorem act_sound (hs : s₀.sound = true) (x : {s // Reach s₀ s}) : x.1.sound = true := x.2.sound hs

/-- A field that the footprint is clear of keeps its value. -/
theorem Within.fld {a : Act s₀ α} (h : Within F a) (x : {s // Reach s₀ s}) {g : Fld}
    (hg : g.implemented = true) (hc : F.clear g = true) (i k : Nat) : (a x).2.1.fld g i k = x.1.fld g i k :=
  (h x).fld hg hc i k

/-- Memory keeps its bytes. -/
theorem Within.mem {a : Act s₀ α} (h : Within F a) (hm : Touch.mem ∉ F) (x : {s // Reach s₀ s}) :
    (a x).2.1.mem = x.1.mem := ((h x).memory hm).1

/-- Memory keeps its poison. -/
theorem Within.poison {a : Act s₀ α} (h : Within F a) (hm : Touch.mem ∉ F) (x : {s // Reach s₀ s}) :
    (a x).2.1.poison = x.1.poison := ((h x).memory hm).2.1

/-- Memory keeps its standing errors. -/
theorem Within.upsets {a : Act s₀ α} (h : Within F a) (hm : Touch.mem ∉ F) (x : {s // Reach s₀ s}) :
    (a x).2.1.upsets = x.1.upsets := ((h x).memory hm).2.2

/-- Nothing leaves the module. -/
theorem Within.out {a : Act s₀ α} (h : Within F a) (ho : Touch.out ∉ F) (x : {s // Reach s₀ s}) :
    (a x).2.1.out = x.1.out := (h x).out ho

/-- The route table is kept. -/
theorem Within.routes {a : Act s₀ α} (h : Within F a) (hr : Touch.routes ∉ F) (x : {s // Reach s₀ s}) :
    (a x).2.1.routes = x.1.routes := (h x).routes hr

/-- The fuses are kept. -/
theorem Within.fuses {a : Act s₀ α} (h : Within F a) (hr : Touch.fuses ∉ F) (x : {s // Reach s₀ s}) :
    (a x).2.1.fuses = x.1.fuses := (h x).fuses hr

/-- A part of the units' own state is kept. -/
theorem Within.part {a : Act s₀ α} (h : Within F a) (p : Part) (hp : Touch.part p ∉ F) (x : {s // Reach s₀ s}) :
    p.same x.1.units (a x).2.1.units := (h x).part p hp

/-- The units' own state is kept whole where the footprint lists no part of it. -/
theorem Within.units {a : Act s₀ α} (h : Within F a) (hp : ∀ p, Touch.part p ∉ F) (x : {s // Reach s₀ s}) :
    (a x).2.1.units = x.1.units := by
  have k (p : Part) := h.part p (hp p) x
  have := k .pwr; have := k .plant; have := k .boot; have := k .var; have := k .fab
  have := k .pmc; have := k .mx; have := k .ve; have := k .nv; have := k .hbm
  have := k .tb; have := k .fail; have := k .host; have := k .rings; have := k .pal
  simp only [Part.same] at *
  revert this
  generalize (a x).2.1.units = v at *
  generalize x.1.units = u at *
  cases u
  cases v
  simp_all

/-- Nothing but registers differs. -/
def regsOnly (s t : State) : Prop := t = { s with regs := t.regs }

theorem regsOnly_refl (s : State) : regsOnly s s := rfl
theorem regsOnly.trans {s t u : State} (h : regsOnly s t) (h' : regsOnly t u) : regsOnly s u := by
  unfold regsOnly at *
  cases s
  cases t
  cases u
  simp_all
theorem regsOnly_setF (f : Fld) (v i k : Nat) (x : {s // Reach s₀ s}) : regsOnly x.1 (setF f v i k x).2.1 := rfl
theorem regsOnly_raise (f : Fld) (i k : Nat) (x : {s // Reach s₀ s}) : regsOnly x.1 (raise f i k x).2.1 := rfl
theorem regsOnly_countUp (f : Fld) (n i k : Nat) (x : {s // Reach s₀ s}) : regsOnly x.1 (countUp f n i k x).2.1 := rfl
theorem regsOnly_bind {a : Act s₀ α} {f : α → Act s₀ β} {x : {s // Reach s₀ s}} (ha : regsOnly x.1 (a x).2.1)
    (hf : ∀ v y, regsOnly y.1 (f v y).2.1) : regsOnly x.1 ((a >>= f) x).2.1 := ha.trans (hf _ _)

/-- A count that saturates. -/
theorem countUp_fld {f : Fld} (hf : f.implemented = true) (n i k : Nat) (x : {s // Reach s₀ s}) :
    (countUp f n i k x).2.1.fld f i k = min (x.1.fld f i k + n) (2 ^ f.width - 1) := by
  rw [countUp_run]
  refine (fld_set_same hf _ i k).trans (Nat.mod_eq_of_lt ?_)
  have h1 : 0 < 2 ^ f.width := Nat.two_pow_pos _
  have h2 : f.width = f.hi - f.lo + 1 := rfl
  rw [← h2]
  omega

/-- A field that is set holds what it was set to, modulo its width. -/
theorem setF_fld {f : Fld} (hf : f.implemented = true) (v i k : Nat) (x : {s // Reach s₀ s}) :
    (setF f v i k x).2.1.fld f i k = v % 2 ^ (f.hi - f.lo + 1) := fld_set_same hf v i k

/-- A field that shares no bit with the one set keeps its value. -/
theorem setF_fld_apart {f g : Fld} (hg : g.implemented = true) (hf : f.plain = true)
    (h : g.apart f = true) (v i k j l : Nat) (x : {s // Reach s₀ s}) :
    (setF f v i k x).2.1.fld g j l = x.1.fld g j l :=
  (within_setF (F := [.fld f]) f v i k (List.mem_singleton.2 rfl)).fld x hg (by simp [Foot.clear, h, hf]) j l

/-- The same field of another instance or element keeps its value. -/
theorem setF_fld_other {f : Fld} (v i k j l : Nat) (h : f.addr j l ≠ f.addr i k) (x : {s // Reach s₀ s}) :
    (setF f v i k x).2.1.fld f j l = x.1.fld f j l := by
  show (Eff.apply x.1 (.reg (f.addr i k) _)).fld f j l = _
  unfold State.fld
  rw [held_reg_ne _ h]

/-- A register that is written holds what the write leaves in the bits it implements. -/
theorem reg_fld {f : Fld} (hf : f.implemented = true) (i k : Nat) (v : Word) (x : {s // Reach s₀ s}) :
    (emit (.reg (f.addr i k) v) x).2.1.fld f i k = bits v f.hi f.lo := bits_held_reg hf i k v

/-- A field of a running module's registers is read out of the state. -/
theorem running_sound {s : State} (h : s.running = true) : s.sound = true ∧ s.inReset = false := by
  unfold State.running at h
  simpa using h

end Sys2Proof.Machine
end

