-- ==== Sys2Proof/Laws/Granules.lean ====
section
/-! SUPPORT. Granules: what a granule transfer and a granule read do to memory, byte by byte. -/

namespace Sys2Proof.Machine

variable {s₀ : State} {α β : Type} {F : Foot}

/-! ### Bytes of memory -/

/-- What a write of the first `n` bytes of a granule leaves at each address. -/
theorem putBytes_get (m : List Host.Cell) (g : Nat) (v k : Granule) (n : Nat) (hn : n ≤ 64) (a : Nat) :
    mapGet memReset (putBytes (64 * g) v k n m) a =
      if a / 64 = g ∧ a % 64 < n then mergeByte (mapGet memReset m a) v k (a % 64) else mapGet memReset m a := by
  induction n with
  | zero => simp [putBytes]
  | succ n ih =>
    have ih2 := ih (by omega)
    unfold putBytes
    dsimp only
    by_cases ha : a = 64 * g + n
    · have h1 : a / 64 = g := by omega
      have h2 : a % 64 = n := by omega
      rw [← ha]
      refine (mapGet_mapSet_same memReset _ _ _).trans ?_
      rw [if_pos ⟨h1, by omega⟩, h2]
      rfl
    · refine (mapGet_mapSet_ne memReset _ ha).trans (ih2.trans ?_)
      by_cases h1 : a / 64 = g
      · by_cases h2 : a % 64 < n
        · rw [if_pos ⟨h1, h2⟩, if_pos ⟨h1, by omega⟩]
        · rw [if_neg (by omega), if_neg (by omega)]
      · rw [if_neg (by omega), if_neg (by omega)]

/-- What a granule effect leaves at each address. -/
theorem granule_byte {s : State} {g : Nat} (hg : isMemory (64 * g) = true) (v k : Granule) (a : Nat) :
    (Eff.apply s (.granule g v k)).byte a = s.afterGranule g v k a := by
  unfold State.byte State.afterGranule
  rw [granule_mem, if_pos hg, putBytes_get s.mem g v k 64 (Nat.le_refl _) a]
  by_cases h1 : a / 64 = g
  · rw [if_pos ⟨h1, Nat.mod_lt _ (by decide)⟩, if_pos h1]
    rfl
  · rw [if_neg (by omega), if_neg h1]
    rfl

/-- A write that names every bit leaves its data. -/
theorem mergeByte_full (old : Byte) (v : Granule) (n : Nat) (hn : n < 64) : mergeByte old v fullMask n = v.extractLsb' (8 * n) 8 := by
  unfold mergeByte fullMask
  apply BitVec.eq_of_getLsbD_eq
  intro i hi
  have : 8 * n + i < 512 := by omega
  simp only [BitVec.getLsbD_or, BitVec.getLsbD_and, BitVec.getLsbD_not, BitVec.getLsbD_extractLsb', hi, decide_true,
    Bool.true_and, BitVec.getLsbD_allOnes, this, Bool.not_true, Bool.and_false, Bool.false_or, Bool.and_true]

/-- A write that names no bit of a byte leaves it. -/
theorem mergeByte_none {old : Byte} {v k : Granule} {n : Nat} (h : k.extractLsb' (8 * n) 8 = 0) : mergeByte old v k n = old := by
  unfold mergeByte
  rw [h]
  have e : ~~~(0 : BitVec 8) = BitVec.allOnes 8 := by decide
  rw [e, BitVec.and_allOnes]
  simp

/-! ### Memory kept whole -/

/-- Memory, its poison and its standing errors are the same. -/
def memSame (s t : State) : Prop := t.mem = s.mem ∧ t.poison = s.poison ∧ t.upsets = s.upsets

theorem memSame_refl (s : State) : memSame s s := ⟨rfl, rfl, rfl⟩
theorem memSame.trans {s t u : State} (h : memSame s t) (h' : memSame t u) : memSame s u :=
  ⟨h'.1.trans h.1, h'.2.1.trans h.2.1, h'.2.2.trans h.2.2⟩
theorem memSame.byte {s t : State} (h : memSame s t) (a : Nat) : t.byte a = s.byte a := by unfold State.byte; rw [h.1]
theorem memSame.granule {s t : State} (h : memSame s t) (g : Nat) : t.granule g = s.granule g := by
  unfold State.granule; rw [h.1]
theorem memSame.poisoned {s t : State} (h : memSame s t) (g : Nat) : t.poisoned g = s.poisoned g := by
  unfold State.poisoned; rw [h.2.1]
theorem memSame.errors {s t : State} (h : memSame s t) (g : Nat) : t.errors g = s.errors g := by
  unfold State.errors; rw [h.2.2]

/-- An action within a footprint without memory keeps it whole. -/
theorem Within.memSame {a : Act s₀ α} (h : Within F a) (hm : Touch.mem ∉ F) (x : {s // Reach s₀ s}) :
    memSame x.1 (a x).2.1 := ⟨h.mem hm x, h.poison hm x, h.upsets hm x⟩

/-! ### A granule's write -/

/-- Poison taken off a granule: the other granules' stays. -/
theorem poisoned_heal (s : State) (g g' : Nat) : (Eff.apply s (.heal g)).poisoned g' = (s.poisoned g' && decide (g' ≠ g)) := by
  unfold State.poisoned
  rw [heal_poison]
  by_cases h : g' = g <;> simp [h]

/-- The errors standing in a granule after they were set. -/
theorem errors_upset {s : State} (g : Nat) (m : BitVec 576) (g' : Nat) :
    (Eff.apply s (.upset g m)).errors g' = if g' = g then m else s.errors g' := by
  unfold State.errors
  rw [upset_upsets]
  split
  · subst_vars
    exact mapGet_mapSet_same upsetReset _ _ _
  · exact mapGet_mapSet_ne upsetReset _ ‹_›

/-- What a write itself does: the bytes, and no error stands in the granule. -/
theorem storeGranule_does (g : Nat) (hg : isMemory (64 * g) = true) (v k : Granule) (x : {s // Reach s₀ s}) :
    let t := (storeGranule g v k x).2.1
    (∀ a, t.byte a = x.1.afterGranule g v k a) ∧ (∀ g', t.poisoned g' = x.1.poisoned g')
      ∧ (∀ g', t.errors g' = if g' = g then 0 else x.1.errors g') ∧ t.regs = x.1.regs := by
  refine ⟨fun a => ?_, fun g' => rfl, fun g' => ?_, rfl⟩
  · exact granule_byte hg v k a
  · exact errors_upset (s := Eff.apply x.1 (.granule g v k)) g 0 g'

/-- Memory's bytes are the same, and so are the poison and the errors of every granule but one. -/
def memSameBut (g : Nat) (s t : State) : Prop :=
  (∀ a, t.byte a = s.byte a) ∧ ∀ g', g' ≠ g → t.poisoned g' = s.poisoned g' ∧ t.errors g' = s.errors g'

theorem memSame.but {s t : State} (h : memSame s t) (g : Nat) : memSameBut g s t :=
  ⟨h.byte, fun g' _ => ⟨h.poisoned g', h.errors g'⟩⟩
theorem memSameBut.trans {g : Nat} {s t u : State} (h : memSameBut g s t) (h' : memSameBut g t u) : memSameBut g s u :=
  ⟨fun a => (h'.1 a).trans (h.1 a), fun g' hg => ⟨(h'.2 g' hg).1.trans (h.2 g' hg).1, (h'.2 g' hg).2.trans (h.2 g' hg).2⟩⟩

theorem healGranule_but (g : Nat) (x : {s // Reach s₀ s}) : memSameBut g x.1 (healGranule g x).2.1 := by
  have h1 : memSameBut g x.1 (Eff.apply x.1 (.heal g)) :=
    ⟨fun _ => rfl, fun g' hg => ⟨by rw [poisoned_heal]; simp [hg], rfl⟩⟩
  refine h1.trans ?_
  unfold healGranule
  rw [bind_run]
  cases place (64 * g) <;> exact memSame.but (memSame_refl _) g

theorem injectOn_but (t g : Nat) (x : {s // Reach s₀ s}) : memSameBut g x.1 (injectOn t g x).2.1 := by
  unfold injectOn
  rw [now_bind]
  split
  · refine ⟨fun _ => rfl, fun g' hg => ⟨rfl, ?_⟩⟩
    rw [bind_run]
    exact (errors_upset g _ g').trans (if_neg hg)
  · exact memSame.but (memSame_refl _) g

/-- After a granule is healed it is not poisoned. -/
theorem healGranule_clears (g : Nat) (x : {s // Reach s₀ s}) : (healGranule g x).2.1.poisoned g = false := by
  have h : (Eff.apply x.1 (.heal g)).poisoned g = false := by rw [poisoned_heal]; simp
  unfold healGranule
  rw [bind_run]
  cases place (64 * g) <;> exact h

theorem memSameBut.bind {g : Nat} {a : Act s₀ α} {f : α → Act s₀ β} {x : {s // Reach s₀ s}}
    (ha : memSameBut g x.1 (a x).2.1) (hf : ∀ v y, memSameBut g y.1 (f v y).2.1) : memSameBut g x.1 ((a >>= f) x).2.1 :=
  ha.trans (hf _ _)

/-- What replacing a granule does: the bytes named, no poison and no error there, every other granule as it was. -/
theorem replaceGranule_does (g : Nat) (hg : isMemory (64 * g) = true) (v k : Granule)
    (x : {s // Reach s₀ s}) :
    let t := (replaceGranule g v k x).2.1
    (∀ a, t.byte a = x.1.afterGranule g v k a) ∧ t.poisoned g = false
      ∧ (∀ g', g' ≠ g → t.poisoned g' = x.1.poisoned g' ∧ t.errors g' = x.1.errors g')
      ∧ (x.1.units.pal.banks = [] → t.units.pal.banks = []) := by
  unfold replaceGranule
  rw [now_bind, bind_run]
  obtain ⟨h3, h4, h5, -⟩ := storeGranule_does g hg v k x
  have h6 : x.1.units.pal.banks = [] → (storeGranule g v k x).2.1.units.pal.banks = [] := fun h => by
    show List.filter _ x.1.units.pal.banks = []
    rw [h]
    rfl
  generalize (storeGranule g v k x).2 = z at h3 h4 h5 h6 ⊢
  rw [ite_run]
  by_cases hp : x.1.poisoned g = true
  · rw [if_pos hp]
    have h := healGranule_but g z
    refine ⟨fun a => (h.1 a).trans (h3 a), healGranule_clears g z, fun g' hg' =>
      ⟨(h.2 g' hg').1.trans (h4 g'), (h.2 g' hg').2.trans ((h5 g').trans (if_neg hg'))⟩, ?_⟩
    have hh : Within (s₀ := s₀) healGranule_foot (healGranule g) := healGranule_within (List.Subset.refl _) g
    exact fun h => (congrArg PalUnit.banks (hh.part .pal (by decide) z)).symm.trans (h6 h)
  · rw [if_neg hp]
    exact ⟨h3, (h4 g).trans (by simpa using hp), fun g' hg' => ⟨h4 g', (h5 g').trans (if_neg hg')⟩, h6⟩

/-- What is left of a commit, its correction past. -/
theorem commitTail_does (who : Who) (t g : Nat) (v k : Granule) (ac : Option Nat)
    (hg : isMemory (64 * g) = true) (x : {s // Reach s₀ s}) :
    let r := (do
      replaceGranule g v k
      injectOn t g
      countCommit who t g ac
      pure Got.ok : Act s₀ Got) x
    r.1 = .ok ∧ (∀ a, r.2.1.byte a = x.1.afterGranule g v k a)
      ∧ (∀ g', g' ≠ g → r.2.1.poisoned g' = x.1.poisoned g' ∧ r.2.1.errors g' = x.1.errors g')
      ∧ (x.1.units.pal.banks = [] → r.2.1.units.pal.banks = []) := by
  obtain ⟨h1, -, h2, q1⟩ := replaceGranule_does g hg v k x
  simp only [bind_run, pure_run]
  generalize (replaceGranule g v k x).2 = y at h1 h2 q1 ⊢
  have h3 := injectOn_but t g y
  have q2 := (injectOn_within (F := injectOn_foot) (List.Subset.refl _) t g : Within (s₀ := s₀) _ _).part .pal (by decide) y
  generalize (injectOn t g y).2 = z at h3 q2 ⊢
  have q3 := (countCommit_within (F := countCommit_foot) (List.Subset.refl _) who t g ac : Within (s₀ := s₀) _ _).part .pal (by decide) z
  have h4 : memSame z.1 (countCommit who t g ac z).2.1 :=
    (countCommit_within (F := countCommit_foot) (List.Subset.refl _) who t g ac : Within _ _).memSame (by decide) z
  exact ⟨trivial, fun a => (h4.byte a).trans ((h3.1 a).trans (h1 a)), fun g' hg' =>
    ⟨(h4.poisoned g').trans ((h3.2 g' hg').1.trans (h2 g' hg').1), (h4.errors g').trans ((h3.2 g' hg').2.trans (h2 g' hg').2)⟩,
    fun h => (congrArg PalUnit.banks q3).symm.trans ((congrArg PalUnit.banks q2).symm.trans (q1 h))⟩

/-- A larger footprint allows no less. -/
theorem ReachIn.mono {s t : State} (h : ReachIn F s t) {G : Foot} (hG : F ⊆ G) : ReachIn G s t := by
  induction h with
  | refl => exact .refl
  | eff _ e he ih =>
    refine ih.eff e ?_
    cases e with
    | reg a v =>
      rcases he with ⟨f, i, k, n, h1, h2⟩ | ⟨f, i, k, h1, h2⟩ | h1
      · exact .inl ⟨f, i, k, n, hG h1, h2⟩
      · exact .inr (.inl ⟨f, i, k, hG h1, h2⟩)
      · exact .inr (.inr (hG h1))
    | units u => exact fun p => (he p).imp id fun h => hG h
    | draw => trivial
    | _ => exact hG he

/-- What a transfer that meets neither poison nor an uncorrectable error can touch: an arrival counter only where it names
one. -/
def cleanWrite_foot (c : Bool) : Foot :=
  (if c then acAdd_foot else []) ++ palCorrected_foot ++ replaceGranule_foot ++ injectOn_foot ++ tally_foot
    ++ stackCorrected_foot ++ tallyStack_foot

theorem cleanWrite_parts (c : Bool) : palCorrected_foot ⊆ cleanWrite_foot c ∧ replaceGranule_foot ⊆ cleanWrite_foot c
    ∧ injectOn_foot ⊆ cleanWrite_foot c ∧ tally_foot ⊆ cleanWrite_foot c ∧ stackCorrected_foot ⊆ cleanWrite_foot c
    ∧ tallyStack_foot ⊆ cleanWrite_foot c := by
  cases c <;> decide

/-- Counting a commit touches an arrival counter only where the transfer names one. -/
theorem countCommit_clean (who : Who) (t g : Nat) (ac : Option Nat) :
    Within (s₀ := s₀) (cleanWrite_foot ac.isSome) (countCommit who t g ac) := by
  obtain ⟨-, -, -, f4, -, -⟩ := cleanWrite_parts ac.isSome
  unfold countCommit
  cases ac with
  | none => with_reducible exact tally_within f4 ..
  | some n =>
    have f7 : acAdd_foot ⊆ cleanWrite_foot (some n).isSome := by
      show acAdd_foot ⊆ cleanWrite_foot true
      decide
    repeat' with_reducible
      first
      | exact acAdd_within f7 .. | exact tally_within f4 .. | refine within_bind ?_ fun _ => ?_

/-- A transfer is taken: its status, the bytes it names, every other granule as it was, and nothing touched but what such a
transfer touches. -/
def taken (g : Nat) (v k : Granule) (ac : Option Nat) (s : State) (r : Got × State) : Prop :=
  r.1 = .ok ∧ (∀ a, r.2.byte a = s.afterGranule g v k a)
    ∧ (∀ g', g' ≠ g → r.2.poisoned g' = s.poisoned g' ∧ r.2.errors g' = s.errors g')
    ∧ (s.units.pal.banks = [] → r.2.units.pal.banks = []) ∧ ReachIn (cleanWrite_foot ac.isSome) s r.2

/-- What is left of a taken transfer, after a correction that leaves memory. -/
theorem taken_after {g : Nat} {v k : Granule} {ac : Option Nat} {s t : State} {r : Got × State} (h : memSame s t)
    (hr : ReachIn (cleanWrite_foot ac.isSome) s t) (hq : t.units.pal.banks = s.units.pal.banks) (h' : taken g v k ac t r) :
    taken g v k ac s r := by
  obtain ⟨h1, h2, h3, h5, h4⟩ := h'
  refine ⟨h1, fun a => (h2 a).trans ?_, fun g' hg' =>
    ⟨(h3 g' hg').1.trans (h.poisoned g'), (h3 g' hg').2.trans (h.errors g')⟩, fun h => h5 (hq.trans h), hr.trans h4⟩
  unfold State.afterGranule
  rw [h.byte]

/-- A transfer that its palette granule takes. -/
theorem commitPalette_does (who : Who) (t g : Nat) (v k : Granule) (ac : Option Nat)
    (hg : isMemory (64 * g) = true) (x : {s // Reach s₀ s}) (hw : x.1.writesInto g k = true) :
    taken g v k ac x.1 ((commitPalette who t g v k ac x).1, (commitPalette who t g v k ac x).2.1) := by
  obtain ⟨f1, f2, f3, -, -, -⟩ := cleanWrite_parts ac.isSome
  have tail (y : {s // Reach s₀ s}) := commitTail_does who t g v k ac hg y
  have tailIn : Within (s₀ := s₀) (cleanWrite_foot ac.isSome) (do
      replaceGranule g v k
      injectOn t g
      countCommit who t g ac
      pure Got.ok) :=
    within_bind (replaceGranule_within f2 g v k) fun _ => within_bind (injectOn_within f3 t g) fun _ =>
      within_bind (countCommit_clean who t g ac) fun _ => within_pure _
  have tl (y : {s // Reach s₀ s}) : taken g v k ac y.1 ((do
      replaceGranule g v k
      injectOn t g
      countCommit who t g ac
      pure Got.ok : Act s₀ Got) y |>.1, ((do
      replaceGranule g v k
      injectOn t g
      countCommit who t g ac
      pure Got.ok : Act s₀ Got) y).2.1) := ⟨(tail y).1, (tail y).2.1, (tail y).2.2.1, (tail y).2.2.2, tailIn y⟩
  unfold State.writesInto at hw
  simp only [Bool.or_eq_true, beq_iff_eq, Bool.and_eq_true, Bool.not_eq_true'] at hw
  unfold commitPalette
  rw [now_bind]
  dsimp only
  rw [if_neg (fun h => hw.elim h.1 fun h' => by simp [h'.1] at h), if_neg (fun h => hw.elim h.1 fun h' => by simp [h'.2] at h),
    ite_run]
  split
  · rw [bind_run]
    have hc : Within (s₀ := s₀) palCorrected_foot (palCorrected who t g (x.1.errors g)) :=
      palCorrected_within (List.Subset.refl _) who t g _
    exact taken_after (hc.memSame (by decide) x) ((hc x).mono f1) (congrArg PalUnit.banks (hc.part .pal (by decide) x)).symm (tl _)
  · exact tl x

/-- With no repair in progress at the start, no access meets one. -/
theorem meetRepair_run (n : Nat) (x : {s // Reach s₀ s}) (hr : s₀.units.hbm.repairing = []) : meetRepair n x = ((), x) := by
  unfold meetRepair
  simp [hr]

/-- A transfer that its stack granule takes. -/
theorem commitStack_does (who : Who) (n g : Nat) (v k : Granule) (ac : Option Nat) (hg : isMemory (64 * g) = true)
    (x : {s // Reach s₀ s}) (hr : s₀.units.hbm.repairing = []) (hw : x.1.writesInto g k = true) :
    taken g v k ac x.1 ((commitStack who n g v k x).1, (commitStack who n g v k x).2.1) := by
  obtain ⟨-, f2, -, -, f5, f6⟩ := cleanWrite_parts ac.isSome
  have tail (y : {s // Reach s₀ s}) : taken g v k ac y.1 ((do
      tallyStack who n 0x05
      replaceGranule g v k
      pure Got.ok : Act s₀ Got) y |>.1, ((do
      tallyStack who n 0x05
      replaceGranule g v k
      pure Got.ok : Act s₀ Got) y).2.1) := by
    have hc : Within (s₀ := s₀) tallyStack_foot (tallyStack who n 0x05) := tallyStack_within (List.Subset.refl _) who n _
    have hr : Within (s₀ := s₀) (cleanWrite_foot ac.isSome) (replaceGranule g v k) := replaceGranule_within f2 g v k
    have h1 := hc.memSame (by decide) y
    have h2 := (hc y).mono f6
    have h3 := (congrArg PalUnit.banks (hc.part .pal (by decide) y)).symm
    rw [bind_run]
    generalize (tallyStack who n 0x05 y).2 = z at h1 h2 h3 ⊢
    have h := replaceGranule_does g hg v k z
    rw [bind_run]
    exact taken_after h1 h2 h3 ⟨rfl, h.1, h.2.2.1, h.2.2.2, hr z⟩
  unfold State.writesInto at hw
  simp only [Bool.or_eq_true, beq_iff_eq, Bool.and_eq_true, Bool.not_eq_true'] at hw
  unfold commitStack
  rw [bind_run, meetRepair_run n x hr, now_bind]
  dsimp only
  rw [if_neg (fun h => hw.elim h.1 fun h' => by simp [h'.1] at h), if_neg (fun h => hw.elim h.1 fun h' => by simp [h'.2] at h),
    ite_run]
  split
  · rw [bind_run]
    have hc : Within (s₀ := s₀) stackCorrected_foot (stackCorrected n (x.1.errors g)) :=
      stackCorrected_within (List.Subset.refl _) n _
    have h1 := hc.memSame (by decide) x
    have h2 := (hc x).mono f5
    have h3 := (congrArg PalUnit.banks (hc.part .pal (by decide) x)).symm
    generalize (stackCorrected n (x.1.errors g) x).2 = y at h1 h2 h3 ⊢
    exact taken_after h1 h2 h3 (tail y)
  · exact tail x

/-- What makes an access of memory get through stays when a transfer is taken. -/
theorem meets_kept {s t : State} {c : Bool} (h : ReachIn (cleanWrite_foot c) s t) (own : Option Nat) (g : Nat) :
    t.meets own g = s.meets own g := by
  have hd (d : Nat) : t.dom d = s.dom d := by
    unfold State.dom
    rw [h.fld (by decide) (by cases c <;> decide)]
  have hen (k : Nat) : t.on PAL_CTL_EN k = s.on PAL_CTL_EN k := by
    unfold State.on
    rw [h.fld (by decide) (by cases c <;> decide)]
  have hf (n : Nat) : t.dieFailed n = s.dieFailed n := by
    unfold State.dieFailed
    rw [h.fld (by decide) (by cases c <;> decide)]
  have hn : t.units.nv = s.units.nv := (h.part .nv (by cases c <;> decide)).symm
  unfold State.meets State.gateOpen State.stackOn State.retiredOut
  simp only [hd, hen, hf, hn]

/-- With nothing accepted, nothing comes first. -/
theorem settleBanks_run (t : Nat) (held : List Banked → Bool) (x : {s // Reach s₀ s}) (h : x.1.units.pal.banks = []) :
    settleBanks t held x = ((), x) := by
  unfold settleBanks
  rw [now_bind, h]
  rfl

/-- A granule transfer that has arrived where nothing waits, gets through to memory and is taken there. -/
theorem landGranule_does (who : Who) (g : Nat) (v k : Granule) (ac : Option Nat) (x : {s // Reach s₀ s})
    (hr : s₀.units.hbm.repairing = []) (hb : x.1.units.pal.banks = []) (hm : x.1.meets who.own g = .ok) (hw : x.1.writesInto g k = true) :
    taken g v k ac x.1 ((landGranule who g v k ac x).1, (landGranule who g v k ac x).2.1) := by
  have hg : isMemory (64 * g) = true := by
    rw [isMemory_place]
    unfold State.meets at hm
    revert hm
    cases place (64 * g) <;> simp [Place.isMemory]
  unfold landGranule
  rw [now_bind, hm]
  dsimp only
  have hp := isMemory_place (64 * g)
  rw [hg] at hp
  revert hp
  cases place (64 * g) with
  | palette t o =>
    intro _
    dsimp only
    rw [bind_run, settleFor, settleBanks_run _ _ x hb]
    exact commitPalette_does who t g v k ac hg x hw
  | stack n o => exact fun _ => commitStack_does who n g v k ac hg x hr hw
  | _ => exact fun h => absurd h (by simp [Place.isMemory])

/-- A granule transfer that gets through to memory, where nothing waits, and is taken there. -/
theorem writeGranule_does (who : Who) (g : Nat) (v k : Granule) (ac : Option Nat) (x : {s // Reach s₀ s})
    (hr : s₀.units.hbm.repairing = []) (hb : x.1.units.pal.banks = []) (hm : x.1.meets who.own g = .ok) (hw : x.1.writesInto g k = true) :
    taken g v k ac x.1 ((writeGranule who g v k ac x).1, (writeGranule who g v k ac x).2.1) := by
  have ha : Within (s₀ := s₀) noteRemote_foot (noteRemote who g) := noteRemote_within (List.Subset.refl _) who g
  have h1 := ha.memSame (by decide) x
  have h2 := (ha x).mono (G := cleanWrite_foot ac.isSome) (by cases ac.isSome <;> decide)
  have h3 := (congrArg PalUnit.banks (ha.part .pal (by decide) x)).symm
  unfold writeGranule
  rw [bind_run]
  generalize (noteRemote who g x).2 = y at h1 h2 h3 ⊢
  refine taken_after h1 h2 h3 (landGranule_does who g v k ac y hr (h3.trans hb) ((meets_kept h2 _ _).trans hm) ?_)
  unfold State.writesInto at hw ⊢
  rw [h1.poisoned, h1.errors]
  exact hw

/-! ### A granule's read -/

/-- A read that gets through, where nothing waits, and meets neither poison nor an error gives the granule and leaves
memory. -/
theorem readGranule_does (who : Who) (g : Nat) (x : {s // Reach s₀ s}) (hr : s₀.units.hbm.repairing = [])
    (hb : x.1.units.pal.banks = []) (hm : x.1.meets who.own g = .ok) (hp : x.1.poisoned g = false) (he : x.1.errors g = 0) :
    (readGranule who g x).1 = (x.1.granule g, .ok) ∧ memSame x.1 (readGranule who g x).2.1
      ∧ ReachIn noteRead_foot x.1 (readGranule who g x).2.1 := by
  have ha : Within (s₀ := s₀) noteRead_foot (noteRead who g) := noteRead_within (List.Subset.refl _) who g
  have h1 := ha.memSame (by decide) x
  have h3 := ha x
  have hg : (place (64 * g)).isMemory = true := by
    unfold State.meets at hm
    revert hm
    cases place (64 * g) <;> simp [Place.isMemory]
  unfold readGranule
  rw [now_bind, hm]
  dsimp only
  revert hg
  cases place (64 * g) with
  | palette t o =>
    intro _
    dsimp only
    rw [bind_run, settleBanks_run _ _ x hb]
    unfold readPalette
    rw [bind_run]
    generalize (noteRead who g x).2 = y at h1 h3 ⊢
    rw [now_bind]
    rw [if_neg (by simp [h1.poisoned, hp]), h1.errors, he, if_pos rfl, h1.granule]
    exact ⟨rfl, h1, h3⟩
  | stack n o =>
    intro _
    dsimp only
    unfold readStack
    rw [bind_run, meetRepair_run n x hr, bind_run]
    generalize (noteRead who g x).2 = y at h1 h3 ⊢
    rw [now_bind]
    rw [if_neg (by simp [h1.poisoned, hp]), h1.errors, he, if_pos rfl, h1.granule]
    exact ⟨rfl, h1, h3⟩
  | _ => exact fun h => absurd h (by simp [Place.isMemory])

end Sys2Proof.Machine
end

