-- ==== Sys2Proof/Laws/HostMemory.lean ====
section
/-! SUPPORT. Host accesses of memory: the bytes that a host write leaves, granule by granule. -/

namespace Sys2Proof.Machine

variable {s₀ : State}

/-- A byte of the number that bytes spell. -/
theorem ofBytes_byte (bs : List Byte) (n : Nat) : ofBytes bs / 256 ^ n % 256 = (bs.getD n 0).toNat := by
  induction bs generalizing n with
  | nil => simp [ofBytes]
  | cons b bs ih =>
    have hb : b.toNat < 256 := b.isLt
    have e : ofBytes (b :: bs) = b.toNat + 256 * ofBytes bs := rfl
    cases n with
    | zero =>
      rw [e]
      simp only [Nat.pow_zero, Nat.div_one, List.getD_cons_zero]
      omega
    | succ n =>
      rw [e, List.getD_cons_succ, ← ih n, Nat.pow_succ, Nat.mul_comm (256 ^ n), ← Nat.div_div_eq_div_mul]
      congr 2
      omega

/-- A byte of a granule that bytes spell. -/
theorem extract_ofBytes (bs : List Byte) (n : Nat) (hn : n < 64) :
    (BitVec.ofNat 512 (ofBytes bs)).extractLsb' (8 * n) 8 = bs.getD n 0 := by
  apply BitVec.eq_of_toNat_eq
  rw [BitVec.extractLsb'_toNat, BitVec.toNat_ofNat, ← ofBytes_byte, Nat.shiftRight_eq_div_pow]
  have h1 : (256 : Nat) ^ n = 2 ^ (8 * n) := by rw [Nat.pow_mul]
  have h2 : (2 : Nat) ^ 512 = 2 ^ (8 * n) * 2 ^ (512 - 8 * n) := by rw [← Nat.pow_add]; congr 1; omega
  have h3 : (2 : Nat) ^ (512 - 8 * n) = 256 * 2 ^ (504 - 8 * n) := by
    have : 512 - 8 * n = 8 + (504 - 8 * n) := by omega
    rw [this, Nat.pow_add]
  rw [h1, h2, Nat.mod_mul_right_div_self, h3, Nat.mod_mul_right_mod]
/-- What a host write's granule merges into a byte: the byte written where it is enabled. -/
theorem mergeByte_host (old : Byte) (a : Nat) (bs : List (Option Byte)) (g n : Nat) (hn : n < 64) :
    mergeByte old (BitVec.ofNat 512 (enabledValue (bytesFor a bs g))) (BitVec.ofNat 512 (enabledMask (bytesFor a bs g))) n =
      ((bytesFor a bs g)[n]?.getD none).getD old := by
  unfold mergeByte enabledValue enabledMask
  rw [extract_ofBytes _ _ hn, extract_ofBytes _ _ hn]
  have hl : (bytesFor a bs g).length = 64 := by simp [bytesFor]
  obtain ⟨x, hx⟩ : ∃ x, (bytesFor a bs g)[n]? = some x := ⟨_, List.getElem?_eq_getElem (by omega)⟩
  rw [List.getD_eq_getElem?_getD, List.getD_eq_getElem?_getD, List.getElem?_map, List.getElem?_map, hx]
  have e4 : ∀ b : Byte, b &&& ~~~(0 : Byte) ||| (0 : Byte) &&& 0 = b := by decide
  have e2 : ∀ b : Byte, b &&& 0xff = b := by decide
  have e3 : ∀ b c : Byte, b &&& ~~~(0xff : Byte) ||| c = c := by
    intro b c
    have : ~~~(0xff : Byte) = 0 := by decide
    rw [this]
    simp
  cases x with
  | none =>
    simp only [Option.map_some, Option.getD_some, Option.getD_none, Option.isSome_none, Bool.false_eq_true, if_false]
    exact e4 old
  | some v =>
    simp only [Option.map_some, Option.getD_some, Option.isSome_some, if_true]
    exact (e3 old _).trans (e2 v)

/-- A byte of what a write puts into a granule. -/
theorem bytesFor_get (a : Nat) (bs : List (Option Byte)) (g n : Nat) (hn : n < 64) :
    (bytesFor a bs g)[n]?.getD none = if 64 * g + n < a then none else (bs[64 * g + n - a]?).getD none := by
  unfold bytesFor
  simp [hn]

/-- A byte after a host write to address `a`. -/
def hostByte (s : State) (a : Nat) (bs : List (Option Byte)) (x : Nat) : Byte :=
  if a ≤ x then ((bs[x - a]?).getD none).getD (s.byte x) else s.byte x

/-- Host writes to the granules are taken: nothing accepted waits, no stack is in repair, and each granule serves and holds
neither poison nor an uncorrectable error. -/
def hostReady (s : State) (gs : List Nat) : Prop :=
  s.units.pal.banks = [] ∧ s.units.hbm.repairing = []
    ∧ ∀ g ∈ gs, s.meets none g = .ok ∧ s.poisoned g = false ∧ uncorrectable (s.errors g) = false

/-- One granule of a host write. -/
theorem hostGranule_does (p : HostNo) (a : Nat) (bs : List (Option Byte)) (g : Nat) (x : {s // Reach s₀ s})
    (hr : s₀.units.hbm.repairing = []) (h : hostReady x.1 [g]) :
    (∀ y, (hostGranule p a bs g x).2.1.byte y = if y / 64 = g then hostByte x.1 a bs y else x.1.byte y)
    ∧ (hostGranule p a bs g x).2.1.units.pal.banks = []
    ∧ (∀ g', g' ≠ g → (hostGranule p a bs g x).2.1.poisoned g' = x.1.poisoned g'
        ∧ (hostGranule p a bs g x).2.1.errors g' = x.1.errors g')
    ∧ ReachIn (cleanWrite_foot false) x.1 (hostGranule p a bs g x).2.1 := by
  obtain ⟨hb, hx, hg⟩ := h
  obtain ⟨hm, hp, he⟩ := hg g (List.mem_singleton.2 rfl)
  have hbyte : ∀ y, y / 64 = g → mergeByte (x.1.byte y) (BitVec.ofNat 512 (enabledValue (bytesFor a bs g)))
      (BitVec.ofNat 512 (enabledMask (bytesFor a bs g))) (y % 64) = hostByte x.1 a bs y := by
    intro y hy
    rw [mergeByte_host _ _ _ _ _ (Nat.mod_lt _ (by decide)), bytesFor_get _ _ _ _ (Nat.mod_lt _ (by decide))]
    have : 64 * g + y % 64 = y := by omega
    rw [this]; unfold hostByte
    by_cases h : a ≤ y
    · rw [if_neg (by omega), if_pos h]
    · rw [if_pos (by omega), if_neg h]; rfl
  have hn : x.1.repairs g = false := by
    unfold State.repairs
    rw [hx]
    cases stackOf (64 * g) <;> rfl
  unfold hostGranule
  rw [now_bind]
  rw [ite_run]
  split
  · rename_i hz
    refine ⟨fun y => ?_, hb, fun _ _ => ⟨rfl, rfl⟩, .refl⟩
    split
    · rw [← hbyte y ‹_›, hz]
      symm
      apply mergeByte_none
      simp
    · rfl
  · rw [hn]
    obtain ⟨-, w2, w3, w4, w5⟩ := writeGranule_does { src := some (.host p) } g (BitVec.ofNat 512 (enabledValue (bytesFor a bs g)))
      (BitVec.ofNat 512 (enabledMask (bytesFor a bs g))) none x hr hb hm (by unfold State.writesInto; simp [hp, he])
    refine ⟨fun y => (w2 y).trans ?_, w4 hb, w3, w5⟩
    unfold State.afterGranule
    split
    · exact hbyte y ‹_›
    · rfl

/-- The granules of a host write. -/
theorem hostGranules_do (p : HostNo) (a : Nat) (bs : List (Option Byte)) (gs : List Nat) (hnd : gs.Nodup)
   (x : {s // Reach s₀ s}) (hr : s₀.units.hbm.repairing = []) (h : hostReady x.1 gs) :
   (∀ y, (each gs (hostGranule p a bs) x).2.1.byte y = if y / 64 ∈ gs then hostByte x.1 a bs y else x.1.byte y) ∧
   ReachIn (cleanWrite_foot false) x.1 (each gs (hostGranule p a bs) x).2.1 := by
  induction gs generalizing x with
  | nil => exact ⟨fun y => by simp, .refl⟩
  | cons g gs ih =>
    rw [List.nodup_cons] at hnd
    obtain ⟨h1, h2, h3, h4⟩ := hostGranule_does p a bs g x hr
      ⟨h.1, h.2.1, fun g' hg' => h.2.2 g' (by simp at hg'; simp [hg'])⟩
    rw [each_cons, bind_run]
    generalize (hostGranule p a bs g x).2 = y at h1 h2 h3 h4 ⊢
    have hn : y.1.units.hbm = x.1.units.hbm := (h4.part .hbm (by decide)).symm
    have hy : hostReady y.1 gs := ⟨h2, by rw [hn]; exact h.2.1, fun g' hg' => by
      have hne : g' ≠ g := fun e => hnd.1 (e ▸ hg')
      obtain ⟨r1, r2, r3⟩ := h.2.2 g' (List.mem_cons_of_mem _ hg')
      rw [(h3 g' hne).1, (h3 g' hne).2, meets_kept h4]
      exact ⟨r1, r2, r3⟩⟩
    obtain ⟨i1, i2⟩ := ih hnd.2 y hy
    refine ⟨fun z => (i1 z).trans ?_, h4.trans i2⟩
    by_cases hz : z / 64 = g
    · have : z / 64 ∉ gs := fun e => hnd.1 (hz ▸ e)
      rw [if_neg this, if_pos (by simp [hz]), h1, if_pos hz]
    · by_cases hm : z / 64 ∈ gs
      · rw [if_pos hm, if_pos (by simp [hm])]
        unfold hostByte
        rw [h1 z, if_neg hz]
      · rw [if_neg hm, if_neg (by simp [hm, hz]), h1, if_neg hz]

end Sys2Proof.Machine
end

