-- ==== Sys2Proof/Laws/Writes.lean ====
section
/-! SUPPORT. The checked register write: what a write to a register that is open to its port comes to. -/

namespace Sys2Proof.Machine

variable {s₀ : State}

/-- The bits of a field of some access code, in every register of its array. -/
def Fld.within (f : Fld) (m : RegDef → Word) : Bool :=
  (List.range f.count).all fun k => match findDef (blkRegs f.blk) (f.off + f.stride * k) with
    | some d => (List.range (f.hi + 1)).all fun i => i < f.lo || (m d).getLsbD i
    | none => false

/-- The definition of a field's register. -/
theorem findDef_addr {f : Fld} (h : f.implemented = true) (k : Nat) :
    ∃ d, findDef (blkRegs f.blk) (f.off + f.stride * (k % f.count)) = some d := by
  obtain ⟨_, _, _, _, h5, h6⟩ := implemented_iff.1 h
  obtain ⟨d, hd, _⟩ := h6 _ (Nat.mod_lt k h5)
  exact ⟨d, hd⟩

/-- What `Fld.within` says of one register. -/
theorem within_bits {f : Fld} {m : RegDef → Word} (h : f.within m = true) (hi : f.implemented = true) {k : Nat} {d : RegDef}
    (hd : findDef (blkRegs f.blk) (f.off + f.stride * (k % f.count)) = some d) {j : Nat} (h1 : f.lo ≤ j) (h2 : j ≤ f.hi) :
    (m d).getLsbD j = true := by
  unfold Fld.within at h
  rw [List.all_eq_true] at h
  have := h (k % f.count) (List.mem_range.2 (Nat.mod_lt k (implemented_iff.1 hi).2.2.2.2.1))
  rw [hd] at this
  simp only [List.all_eq_true, List.mem_range, Bool.or_eq_true, decide_eq_true_eq] at this
  exact (this j (by omega)).resolve_left (by omega)

/-- The place of a field's register. -/
theorem place_addr {f : Fld} (h : f.implemented = true) (i k : Nat) : place (f.addr i k) =
    .reg f.blk (if oneCopy f.blk (f.off + f.stride * (k % f.count)) then 0 else i % blkCount f.blk)
      (f.off + f.stride * (k % f.count)) := by
  unfold Fld.addr
  rw [place_regAddr, Nat.mod_eq_of_lt (elem_lt h k)]

/-- The write that reaches a register: what its hook is given. -/
def State.writeOf (s : State) (d : RegDef) (p : Nat) (f : Fld) (i k : Nat) (v : Word) : RegWrite :=
  { port := p
    blk := f.blk
    inst := if oneCopy f.blk (f.off + f.stride * (k % f.count)) then 0 else i % blkCount f.blk
    off := f.off + f.stride * (k % f.count)
    addr := f.addr i k
    old := s.held (f.addr i k)
    new := ((s.held (f.addr i k) &&& ~~~ (d.rw ||| d.rwl)) ||| (v &&& (d.rw ||| d.rwl))) &&& ~~~ (v &&& d.w1c)
    sets := v &&& d.w1s
    raw := v
    may := 0xffffffffffffffff }

/-- A write to a register that is open to its port, and whose lock holds none of its fields, is what the register does with
it. -/
theorem checkedWrite_opened {f : Fld} (hf : f.implemented = true) {p i k : Nat} {v : Word} {hook : RegWrite → Act s₀ Unit}
    {x : {s // Reach s₀ s}} (hw : x.1.opened p f i k = true) {d : RegDef}
    (hd : findDef (blkRegs f.blk) (f.off + f.stride * (k % f.count)) = some d)
    (hl : d.rwl = 0 ∨ x.1.writable p f i k = true) :
    checkedWrite p (f.addr i k) v hook x = hook (x.1.writeOf d p f i k v) x := by
  unfold State.writable at hl
  unfold State.opened at hw
  rw [place_addr hf] at hw hl
  simp only [Bool.and_eq_true, Bool.not_eq_true', beq_iff_eq] at hw hl
  obtain ⟨⟨⟨⟨h1, h2⟩, h3⟩, h4⟩, h5⟩ := hw
  unfold checkedWrite
  rw [bind_run, now_run]
  dsimp only
  rw [place_addr hf]
  dsimp only
  rw [if_neg (by simp [h1, h5]), if_neg (by simp [h2]), hd]
  dsimp only
  rw [if_neg (by simp [h3]), h4]
  have ha : regAddr f.blk (if oneCopy f.blk (f.off + f.stride * (k % f.count)) then 0 else i % blkCount f.blk)
      (f.off + f.stride * (k % f.count)) = f.addr i k := regAddr_place (place_addr hf i k)
  rw [ha]
  have e1 : (0xffffffffffffffff : Word) = BitVec.allOnes 64 := by decide
  have e2 : ~~~(0 : Word) = BitVec.allOnes 64 := by decide
  have e3 : ~~~(BitVec.allOnes 64) ||| (0 : Word) = 0 := by decide
  have e4 : (BitVec.allOnes 64 != (0 : Word)) = true := by decide
  have e5 : (if x.1.locked f.blk (if oneCopy f.blk (f.off + f.stride * (k % f.count)) then 0 else i % blkCount f.blk)
      (f.off + f.stride * (k % f.count)) = true then d.rwl else 0) = 0 := by
    rcases hl with hl | hl
    · rw [hl, ite_self]
    · rw [if_neg (by simp [hl.2])]
  unfold State.writeOf
  simp only [applyCodes, e5, e1, e2, e3, e4, BitVec.and_allOnes, if_true]
  rw [if_neg (by simp)]

/-- A write to a register that is open to its port and not locked is what the register does with it. -/
theorem checkedWrite_run {f : Fld} (hf : f.implemented = true) {p i k : Nat} {v : Word} {hook : RegWrite → Act s₀ Unit}
    {x : {s // Reach s₀ s}} (hw : x.1.writable p f i k = true) {d : RegDef}
    (hd : findDef (blkRegs f.blk) (f.off + f.stride * (k % f.count)) = some d) :
    checkedWrite p (f.addr i k) v hook x = hook (x.1.writeOf d p f i k v) x :=
  checkedWrite_opened hf (by have h := hw; unfold State.writable at h; exact (Bool.and_eq_true _ _ ▸ h).1) hd (.inr hw)

/-- The tables of registers: offsets in eights, and no bit of two access codes. -/
def RegDef.tidy (d : RegDef) : Bool :=
  d.off % 8 == 0 && d.stride % 8 == 0 && d.rw &&& d.rwl == 0 && (d.rw ||| d.rwl) &&& (d.w1c ||| d.w1s) == 0
    && d.w1c &&& d.w1s == 0 && d.ro &&& (d.rw ||| d.rwl ||| d.w1c ||| d.w1s) == 0

theorem blkRegs_tidy (b : Blk) : (blkRegs b).all RegDef.tidy = true := by cases b <;> decide +kernel

/-- A definition that an offset finds is in the table. -/
theorem findDef_mem {ds : List RegDef} {off : Nat} {d : RegDef} (h : findDef ds off = some d) :
    d ∈ ds ∧ d.off ≤ off ∧ (off - d.off) % d.stride = 0 := by
  induction ds with
  | nil => exact absurd h (by simp [findDef])
  | cons e es ih =>
    unfold findDef at h
    split at h
    · injection h with h
      subst h
      rename_i h1
      exact ⟨List.mem_cons_self, h1.1, h1.2.2⟩
    · exact ⟨List.mem_cons_of_mem _ (ih h).1, (ih h).2⟩

/-- A register's offset is a multiple of 8. -/
theorem findDef_aligned {b : Blk} {off : Nat} {d : RegDef} (h : findDef (blkRegs b) off = some d) : off % 8 = 0 := by
  obtain ⟨h1, h2, h3⟩ := findDef_mem h
  have h4 := List.all_eq_true.1 (blkRegs_tidy b) d h1
  unfold RegDef.tidy at h4
  simp only [Bool.and_eq_true, beq_iff_eq, and_assoc] at h4
  obtain ⟨h5, h6, -⟩ := h4
  have h7 : (off - d.off) % 8 = 0 := Nat.mod_eq_zero_of_dvd
    (Nat.dvd_trans (Nat.dvd_of_mod_eq_zero h6) (Nat.dvd_of_mod_eq_zero h3))
  omega

/-- Register windows lie at multiples of 8, below the top of the module's address space. -/
theorem blkBase_range (b : Blk) (i : Nat) (h : i < blkCount b) : blkBase b i % 8 = 0
    ∧ blkBase b i + blkSize b ≤ 0x22000000000 := by
  cases b <;> (simp only [blkCount] at h; simp only [blkBase, blkSize]) <;> first | decide | (refine ⟨?_, ?_⟩ <;> omega)

/-- An address in a register window is no memory. -/
theorem isMemory_reg {a : Nat} {b : Blk} {i off : Nat} (h : place a = .reg b i off) : isMemory a = false := by
  rw [isMemory_place, h]
  rfl

/-- All bits from `lo` to `hi` of a mask are 1. -/
def maskHas (m : Word) (hi lo : Nat) : Bool := (List.range (hi + 1)).all fun i => i < lo || m.getLsbD i

theorem maskHas_iff {m : Word} {hi lo j : Nat} (h : maskHas m hi lo = true) (h1 : lo ≤ j) (h2 : j ≤ hi) :
    m.getLsbD j = true := by
  unfold maskHas at h
  simp only [List.all_eq_true, List.mem_range, Bool.or_eq_true, decide_eq_true_eq] at h
  exact (h j (by omega)).resolve_left (by omega)

/-- A field that the write may change takes its value. -/
theorem writeOf_field (s : State) (d : RegDef) (p : Nat) (f : Fld) (i k : Nat) (v : Word) {g : Fld} (hg : g.lo ≤ g.hi)
    (h : maskHas ((d.rw ||| d.rwl) &&& ~~~ d.w1c) g.hi g.lo = true) :
    (s.writeOf d p f i k v).field g = bits v g.hi g.lo := by
  unfold RegWrite.field
  apply bits_congr hg
  intro j h1 h2
  have := maskHas_iff h h1 h2
  simp only [BitVec.getLsbD_and, BitVec.getLsbD_or, Bool.and_eq_true, Bool.or_eq_true] at this
  have hj : j < 64 := by
    by_cases h : j < 64
    · exact h
    · have h2 := this.2
      rw [BitVec.getLsbD_of_ge _ _ (by omega)] at h2
      exact absurd h2 (by decide)
  obtain ⟨h3, h4⟩ := this
  simp only [BitVec.getLsbD_not, hj, decide_true, Bool.true_and, Bool.not_eq_true'] at h4
  simp only [State.writeOf, BitVec.getLsbD_and, BitVec.getLsbD_or, BitVec.getLsbD_not, h4, hj]
  rcases h3 with h3 | h3 <;> simp [h3]

/-- A W1S field that the write sets. -/
theorem writeOf_does (s : State) (d : RegDef) (p : Nat) (f : Fld) (i k : Nat) (v : Word) {g : Fld} (hg : g.lo ≤ g.hi)
    (h : maskHas d.w1s g.hi g.lo = true) : (s.writeOf d p f i k v).does g = (bits v g.hi g.lo != 0) := by
  unfold RegWrite.does
  congr 1
  apply bits_congr hg
  intro j h1 h2
  simp [State.writeOf, maskHas_iff h h1 h2]

end Sys2Proof.Machine
end

