-- ==== Sys2Proof/Tests/Slice0.lean ====
section
/-! SUPPORT. Tests of the model: small states that meet the hypotheses of the statements, clause by clause, with what the
rules give for them; and ill-formed commands, each refused. -/

namespace Sys2Proof.Tests

open Sys2Proof Sys2Proof.Machine

-- one theorem after another: each kernel evaluation takes a thread of its own
set_option Elab.async false

/-! ### Helpers -/

/-- A register field set. -/
def poke (s : State) (f : Fld) (v : Nat) (i : Nat := 0) (k : Nat := 0) : State :=
  (Eff.reg (f.addr i k) (putBits (s.held (f.addr i k)) f.hi f.lo v)).apply s
/-- Several fields set. -/
def pokes (s : State) (l : List (Fld × Nat × Nat × Nat)) : State := l.foldl (fun s e => poke s e.1 e.2.1 e.2.2.1 e.2.2.2) s
/-- The state after a command that answers one. -/
def after (c : Instr) (s : State) : State :=
  match exec c s with
  | .next t => t
  | _ => s
/-- The module after start-up: tile 0, die 0, its PHY, the ports and the hosts are on. -/
def up : State :=
  pokes State.reset [(CMC_STATUS_READY, 1, 0, 0), (PWR_DSTATE.whole, 0x3333333333333333, 0, 0),
    (PWR_DSTATE.whole, 0x3333333333333333, 0, 24), (PWR_DSTATE.whole, 0x3333333333333333, 0, 25),
    (PWR_DSTATE.whole, 0x3333333333333333, 0, 26), (PAL_CTL_EN, 1, 0, 0), (HBM_STATUS_STATE, 2, 0, 0)]
/-- Atelier 1 of host port 0: tile 0, die 0, ring group 0 and the first 64 blocks of stack 0. -/
def atl : State :=
  pokes up [(ATL_OWNER_VALID, 1, 1, 0), (ATL_STATUS_STATE, 1, 1, 0), (ATL_TILES_MASK, 1, 1, 0), (ATL_DIES_MASK, 1, 1, 0),
    (ATL_RINGS_COUNT, 1, 1, 0), (ATL_HBM_VALID, 1, 1, 0), (ATL_HBM_BLOCKS, 64, 1, 0), (HOST_STATUS_UP, 1, 0, 0)]
/-- A descriptor: header words and body words. -/
def desc (h0 h1 : Nat) (b : List Nat) : Descriptor :=
  BitVec.ofNat 512 ((h0 :: h1 :: b).zipIdx.foldl (fun n x => n + x.1 * 2 ^ (64 * x.2)) 0)
/-- A delivered descriptor of atelier 1 and ring 0. -/
def slot (id target : Nat) (w : Descriptor) : Slot :=
  { id := id, target := target, ring := 0, pos := 0, words := w, ctx := {}, atelier := 1 }
/-- The same, in progress on an engine. -/
def busy (id target : Nat) (e : Engine) (w : Descriptor) (recs : List Nat := []) : Slot :=
  { slot id target w with phase := .issued, on := some e, recs := recs }
/-- A state with changed ring state. -/
def withRings (s : State) (f : RingUnit → RingUnit) : State :=
  { s with units := { s.units with rings := f s.units.rings } }
/-- A state with these slots. -/
def slots (s : State) (l : List Slot) : State := withRings s fun u => { u with slots := l, nextId := 100 }
/-- A state with changed palette traffic. -/
def withPal (s : State) (f : PalUnit → PalUnit) : State := { s with units := { s.units with pal := f s.units.pal } }
/-- A palette address of tile 0. -/
def pal (o : Nat) : Addr := BitVec.ofNat 48 (paletteBase 0 + o)
/-- A tensor record: type code, base, and (extent, stride, box) of each dimension. -/
def tensorRec (ty base : Nat) (ds : List (Nat × Nat)) : Nat :=
  base + ty * 2 ^ 48 + ds.length * 2 ^ 53
    + (ds.zipIdx.foldl (fun n x => n + (x.1.1 * 2 ^ 40 + x.1.2) * 2 ^ (64 * (2 + x.2)) + x.1.1 * 2 ^ 24 * 2 ^ (64 * (7 + x.2))) 0)


/-! ### Ill-formed commands are refused, one for each check -/

theorem refused_register_write_empty : (Instr.registerWrite 0 .bar2 0 []).wellFormed = false := by decide
theorem refused_register_write_beyond : (Instr.registerWrite 0 .bar0 0xffff [0, 0]).wellFormed = false := by decide +kernel
theorem refused_memory_read_long : (Instr.hostMemoryRead 0 .bar2 0 4097).wellFormed = false := by decide
theorem refused_memory_write_empty : (Instr.hostMemoryWrite 0 .bar2 0 []).wellFormed = false := by decide
theorem refused_transfer_misaligned : (Instr.granuleAccept ⟨pal 8, 0, fullMask, none, .host 0, none⟩).wellFormed = false := by
  decide +kernel
theorem refused_transfer_unnamed_bits : (Instr.granuleAccept ⟨pal 0, 2, 1, none, .host 0, none⟩).wellFormed = false := by
  decide +kernel
theorem refused_transfer_elsewhere : (Instr.granuleAccept ⟨0, 0, fullMask, none, .host 0, none⟩).wellFormed = false := by
  decide +kernel
theorem refused_request_set_empty : (Instr.paletteRequestSet 0 .vector none [] [] false).wellFormed = false := by decide
theorem refused_request_set_elsewhere : (Instr.paletteRequestSet 0 .vector none [0] [] false).wellFormed = false := by
  decide +kernel
theorem refused_request_set_long : (Instr.paletteRequestSet 0 .vector none (List.replicate 513 (pal 0)) [] false).wellFormed
    = false := by decide +kernel
theorem refused_request_set_upset : (Instr.paletteRequestSet 0 .vector none [pal 0] [⟨0, 1, false⟩] false).wellFormed = false := by
  decide +kernel
theorem refused_scrub_upset : (Instr.patrolScrub 0 [⟨0, 1, false⟩] true).wellFormed = false
    ∧ (Instr.scrubPriorityRaise 0 [⟨0, 1, false⟩]).wellFormed = false := by decide +kernel
theorem refused_schedule_long : (Instr.schedTableRead 0 (List.replicate 1025 0)).wellFormed = false := by decide +kernel
theorem refused_tails_short : (Instr.tailReadReturn 0 (some [0])).wellFormed = false := by decide
theorem refused_window_counts : (Instr.degradeWindowEnd 0 [0] (List.replicate 8 0)).wellFormed = false
    ∧ (Instr.degradeWindowEnd 0 (List.replicate 8 0) []).wellFormed = false := by decide
theorem refused_rails : (Instr.governorUpdate [] 0).wellFormed = false ∧ (Instr.pmbusPoll [none]).wellFormed = false := by decide
theorem refused_reset_cause : (Instr.moduleReset 0).wellFormed = false := by decide
theorem refused_stacks : (Instr.bootStepDone (.stacksAndTiles [] none)).wellFormed = false := by decide
theorem refused_stops : exec (.moduleReset 0) up = .fault (.illFormed "MODULE_RESET") := rfl

/-! ### The machine -/

theorem meets_states_run : up.running = true ∧ atl.running = true ∧ State.reset.running = true := by decide +kernel
theorem test_step_runs_front : step { up with pending := [.pllLock, .socTimeout] } = exec .pllLock { up with pending := [.socTimeout] } := rfl
/-- R215: the count advances on an idle step while the PLL is locked. -/
theorem test_idle_tick : (match step (after .pllLock State.reset) with
    | .next t => t.units.tb.count == 1
    | _ => false) = true := by decide +kernel
theorem meets_emptyQueueTicks : up.pending = [] ∧ up.settledBanks = true ∧ up.units.tb.locked = false ∧ (after .pllLock up).units.tb.locked = true
    ∧ (after .pllLock up).fld TB_STATUS_STATE ≠ 3 ∧ (-(2 ^ 40 : Int) < (after .pllLock up).units.tb.acc) := by decide +kernel
theorem meets_execAnswers : (Instr.pllLock).wellFormed = true ∧ (Instr.moduleReset 0).wellFormed = false := by decide
theorem meets_stepKeepsSound : up.sound = true ∧ ∃ t, step up = .next t := ⟨by decide +kernel, _, rfl⟩
theorem meets_capFixed : State.reset.sound = true ∧ State.reset.held 0x21000000000 = 0x3A9EF064B1010000#64 := by decide +kernel
theorem meets_fusesAndSentStay : ∃ t, step up = .next t := ⟨_, rfl⟩

/-! ### Host and register access -/

/-- R10 at PAL.INJECT (W1S, RW) and PAL.ECC_CE_LOG (W1C). -/
theorem meets_accessCodes : (blkRegs .pal).any (fun d => d.off == 0x40 && d.w1s.getLsbD 63 && d.rw.getLsbD 0
      && ((applyCodes d 0 0x8000000000000001 0xffffffffffffffff false).1 == 1)) = true
    ∧ (blkRegs .pal).any (fun d => d.w1c.getLsbD 63 && ((applyCodes d 0x8000000000000000 0x8000000000000000 0xffffffffffffffff
        false).1 == 0)) = true
    ∧ (blkRegs .pal).any (fun d => d.rwl.getLsbD 0 && ((applyCodes d 0 1 0xffffffffffffffff true).1 == 0)) = true := by
  decide +kernel
theorem meets_registerWrite : VE_FLAGS_FLAGS.implemented = true ∧ VE_WDOG_THRESH_A.implemented = true
    ∧ (findDef (blkRegs VE_WDOG_THRESH_A.blk) (VE_WDOG_THRESH_A.off + VE_WDOG_THRESH_A.stride * (0 % VE_WDOG_THRESH_A.count))).isSome
      = true
    ∧ atl.writable 0 VE_WDOG_THRESH_A 0 = true ∧ (bytesOf 8 7).length = 8
    ∧ (after (.registerWrite 0 .bar2 (BitVec.ofNat 48 (VE_WDOG_THRESH_A.addr 0 0)) (bytesOf 8 7)) atl).fld VE_WDOG_THRESH_A 0 = 7 := by
  decide +kernel
/-- Host port 0's Function is in D3hot. -/
def asleep : State := { up with units := { up.units with host := { up.units.host with config := [(0x11, 3)] } } }
theorem meets_narrowAccess : atl.early .ve = false ∧ atl.d3hot 0 = false ∧ atl.mayTry 0 .ve 0 0x18 = true ∧ atl.mayRead 0 .ve 0 0x18 = true
    ∧ (after (.registerWrite 0 .bar2 (BitVec.ofNat 48 (blkBase .ve 0 + 0x1c)) [1, 2, 3, 4]) atl).fld HOST_NARROW_COUNT 0 = 1
    ∧ (after (.registerWrite 0 .bar2 (BitVec.ofNat 48 (blkBase .ve 0 + 0x1c)) (bytesOf 8 0)) atl).fld HOST_NARROW_COUNT 0 = 1
    ∧ (after (.hostMemoryRead 0 .bar2 0x21000000004 4) atl).out
      = [.hostCompletion 0 (some (bytesOf 8 0x3A9EF064B1010000)) false] := by decide +kernel
theorem meets_nothingBehind : place 0x2FFFFFFFF00 = .absent ∧ place 0x103ffffffff = .absent
    ∧ up.d3hot 0 = false ∧ asleep.d3hot 0 = true ∧ asleep.d3hot 1 = false ∧ asleep.running = true
    ∧ (after (.registerWrite 0 .bar2 0x2FFFFFFFF00 (bytesOf 8 0)) asleep).fld HOST_DENIED_COUNT 0 = 0
    ∧ (after (.hostMemoryRead 0 .bar2 0x2FFFFFFFF00 8) asleep).out = [.hostCompletion 0 none false]
    ∧ (after (.registerWrite 0 .bar2 0x2FFFFFFFF00 (bytesOf 8 0)) up).fld HOST_DENIED_COUNT 0 = 1
    ∧ (after (.hostMemoryRead 0 .bar2 0x2FFFFFFFF00 8) up).out = [.hostCompletion 0 none false]
    ∧ (after (.hostMemoryRead 0 .bar2 0x2FFFFFFFF00 8) up).fld HOST_DENIED_COUNT 0 = 1 := by decide +kernel
theorem meets_hostMemory : accessWf .bar2 (pal 62).toNat 4 = true ∧ isMemory (pal 62).toNat = true
    ∧ atl.portOwns 0 (pal 62).toNat 4 = true ∧ atl.settledBanks = true ∧ atl.units.hbm.repairing = [] ∧ atl.d3hot 0 = false
    ∧ (∀ g ∈ spanGranules (pal 62).toNat 4, atl.meets none g = .ok ∧ atl.poisoned g = false ∧ atl.errors g = 0)
    ∧ (after (.hostMemoryWrite 0 .bar2 (pal 62) [some 1, none, some 3, some 4]) atl).byte (paletteBase 0 + 64) = 3
    ∧ (after (.hostMemoryRead 0 .bar2 (pal 62) 4) (after (.hostMemoryWrite 0 .bar2 (pal 62) [some 1, none, some 3, some 4]) atl)).out
      = [.hostCompletion 0 (some [1, 0, 3, 4]) false] := by decide +kernel
theorem meets_configRequest : State.reset.on CMC_STATUS_READY = false ∧ State.reset.units.boot.failed = false
    ∧ up.on CMC_STATUS_READY = true
    ∧ (after (.hostConfigRequest 2 0 .read) State.reset).out = [.cfgCompletion 2 none]
    ∧ (after (.hostConfigRequest 0 5 (.write 7)) up).config 0 5 = 7
    ∧ (after (.hostConfigRequest 0 0x11 (.write 2)) asleep).config 0 0x11 = 3 ∧ (after (.hostConfigRequest 0 0x11 (.write 0)) asleep).d3hot 0 = false := by decide +kernel

/-! ### What commands leave alone -/

theorem meets_memoryFrame : ∃ t, exec .pllLock up = .next t ∧ Instr.storesMemory .pllLock = false
    ∧ Instr.setsRoutes .pllLock = false ∧ Instr.blowsFuses .pllLock = false ∧ Instr.sends .pllLock = false :=
  ⟨_, rfl, by decide⟩
theorem meets_registerFrame : ∃ t fs, exec .socTimeout up = .next t ∧ Instr.writes .socTimeout = some fs :=
  ⟨_, _, rfl, rfl⟩

/-! ### Palette -/

/-- A transfer of port 0 into granule 2 of tile 0, counted in counter 3. -/
def give : Transfer := ⟨pal 128, 0x55, fullMask, some 3, .host 0, none⟩
/-- Every transaction tag is in use. -/
def tagless : State := poke up RING_TXN_IN_USE 65536
theorem meets_granuleAccept : transferWf give = true ∧ place give.addr.toNat = .palette 0 128
    ∧ up.tagFree (up.sharer give.sender) = true ∧ up.heldBefore (.write 0 give) = false ∧ tagless.tagFree (tagless.sharer give.sender) = false
    ∧ up.meets (sourceOwn give.src) (granuleOf give.addr.toNat) = .ok
    ∧ (poke up PWR_DSTATE.whole 0 0 0).meets (sourceOwn give.src) (granuleOf give.addr.toNat) = .dark
    ∧ (poke up PAL_CTL_EN 0).meets (sourceOwn give.src) (granuleOf give.addr.toNat) = .denied
    ∧ (after (.granuleAccept give) up).units.pal.banks = [.write 0 give] ∧ (after (.granuleAccept give) up).fld RING_TXN_IN_USE = 1
    ∧ (after (.granuleAccept give) tagless).fld RING_TXN_WAIT_COUNT = 1
    ∧ ((after (.granuleAccept give) tagless).units.rings.tagWaits.map TagWait.access) = [some (.write 0 give)]
    ∧ (after (.granuleAccept give) (poke up PWR_DSTATE.whole 0 0 0)).fld PAL_DARK_REFUSED_COUNT 0 = 1 := by decide +kernel
/-- A read set of its granule. -/
def readGive : Banked := .read ⟨0, .vector, none, [granuleOf give.addr.toNat]⟩
/-- R32: a read accepted before the write is served before it commits, and the oldest access goes first. -/
theorem test_readBeforeWrite : (after (.granuleCommit 0 (.host 0)) (after (.granuleAccept give)
      (after (.paletteRequestSet 0 .vector none [give.addr] [] true) up))).units.pal.banks = []
    ∧ (after (.requestAged 0) (after (.paletteRequestSet 0 .vector none [give.addr] [] true)
      (after (.granuleAccept give) up))).units.pal.banks = [readGive] := by decide +kernel
theorem meets_granuleCommit : (after (.granuleAccept give) up).units.pal.banks = [] ++ .write 0 give :: []
    ∧ Banked.follows (.write 0 give) (.write 0 { give with src := .host 1 }) = false
    ∧ Banked.follows (.write 0 give) (.write 0 { give with data := 7 }) = true ∧ Banked.follows (.write 0 give) readGive = true
    ∧ up.writesInto (granuleOf give.addr.toNat) give.bits = true
    ∧ (after (.granuleCommit 0 (.host 0)) (after (.granuleAccept give) up)).byte (paletteBase 0 + 128) = 0x55
    ∧ (after (.granuleCommit 0 (.host 0)) (after (.granuleAccept give) up)).fld PAL_AC_VALUE 0 3 = 1
    ∧ (after (.granuleCommit 0 (.host 0)) (after (.granuleAccept give) up)).fld RING_TXN_IN_USE = 0
    ∧ (after (.granuleCommit 0 (.host 1)) (after (.granuleAccept give) up)).units.pal.banks = [.write 0 give] := by decide +kernel
theorem clean_first (own : Option Nat) : up.clean own [paletteBase 0 / 64] := by
  intro g hg
  rw [List.mem_singleton] at hg
  subst hg
  refine ⟨?_, by decide +kernel, by decide +kernel⟩
  have hp : place (64 * (paletteBase 0 / 64)) = .palette 0 0 := by decide +kernel
  have he : up.on PAL_CTL_EN 0 = true := by decide +kernel
  have hg : up.gateOpen 0 0 = true := by decide +kernel
  simp [State.meets, hp, he, hg]
theorem meets_requestSets : [pal 0].all (inPalette 0) = true
    ∧ readSets [paletteBase 0 / 64] = [[paletteBase 0 / 64]] ∧ up.settledBanks = true
    ∧ up.poisoned (paletteBase 0 / 64) = false ∧ up.errors (paletteBase 0 / 64) = 0
    ∧ up.tagFree (up.sharer none) = true ∧ up.heldBefore (.read ⟨0, .remote, none, [paletteBase 0 / 64]⟩) = false
    ∧ (up.admitted ⟨0, .vector, none, [paletteBase 0 / 64]⟩).granules = [paletteBase 0 / 64]
    ∧ ((poke up PWR_DSTATE.whole 0 0 0).admitted ⟨0, .vector, none, [paletteBase 0 / 64]⟩).granules = []
    ∧ (poke up PWR_DSTATE.whole 0 0 0).meets ((requesterUnit .vector).map fun _ => 0) (paletteBase 0 / 64) = .dark
    ∧ ((after (.paletteRequestSet 0 .vector none [pal 0] [] true) up).units.pal.banks
        = [] ++ .read ⟨0, .vector, none, [paletteBase 0 / 64]⟩ :: [])
    ∧ (after (.paletteRequestSet 0 .vector none [pal 0] [] false) up).units.pal.banks = []
    ∧ (after (.requestAged 0) (after (.paletteRequestSet 0 .vector none [pal 0] [] true) up)).units.pal.banks = []
    ∧ (after (.requestAged 0) (after (.granuleAccept give) up)).byte (paletteBase 0 + 128) = 0x55 := by
  decide +kernel
/-- A granule of line 0 with one wrong bit in word 2. -/
def wrong : State := { up with upsets := [(paletteBase 0 / 64 + 5, BitVec.ofNat 576 (2 ^ (72 * 2 + 7)))] }
theorem meets_scrubAndWriteBack : up.on PAL_CTL_SCRUB_EN 0 = true ∧ wrong.sound = true ∧ up.scrubOpen 0 = true ∧ wrong.scrubOpen 0 = true
    ∧ wrong.settledBanks = true ∧ (poke up PWR_DSTATE.whole 0 0 0).scrubOpen 0 = false
    ∧ (poke up PWR_DSTATE.whole 0 0 0).on PAL_CTL_SCRUB_EN 0 = true
    ∧ (after (.patrolScrub 0 [] false) (poke up PWR_DSTATE.whole 0 0 0)).scrub 0 = ⟨1, false⟩
    ∧ ((after (.patrolScrub 0 [] false) up).scrub 0).pending = true
    ∧ (after (.scrubPriorityRaise 0 []) (after (.patrolScrub 0 [] false) up)).scrub 0 = ⟨1, false⟩
    ∧ wrong.errors (palFirst 0 + 5) = BitVec.ofNat 576 (2 ^ (72 * 2 + 7))
    ∧ (after (.patrolScrub 0 [] true) wrong).units.pal.banks = [] ++ .back 0 (palFirst 0 + 5) :: []
    ∧ (after (.patrolScrub 0 [] true) wrong).fld PAL_ECC_CE_LOG_WORD 0 = 2
    ∧ (after (.patrolScrub 0 [] true) wrong).fld PAL_ECC_CE_LOG_SYNDROME 0 = 7
    ∧ (after (.eccWriteBack 0) (after (.patrolScrub 0 [] true) wrong)).errors (palFirst 0 + 5) = 0
    ∧ (after (.eccWriteBack 0) (after (.patrolScrub 0 [] true) wrong)).units.pal.banks = [] := by decide +kernel
/-- A set of `n` granules of tile 0 at a constant stride. -/
def column (start stride n : Nat) : List Nat := (List.range n).map fun k => palFirst 0 + start + stride * k
/-- R59, R65: the banks of a BF16 weight tile's column, and the one beat of a part of it; R62: a broadcast, and two granules of one bank. -/
theorem test_banks : palBank (palFirst 0 + 8 * 63) = 504 ∧ palBank (palFirst 0 + 8 * 64) = 1 ∧ palBank (palFirst 0 + 8 * 255) = 507
    ∧ setBeats (column 480 8 16) = 1 ∧ setBeats (column 3 0 16) = 1 ∧ setBeats (column 0 1023 2) = 2 := by decide +kernel
theorem meets_paletteRegisters : atl.writable 0 PAL_AC_VALUE 0 3 = true ∧ atl.writable 0 PAL_AC_VALUE 0 1023 = true
    ∧ atl.writable 0 PAL_AC_ADD_INDEX 0 = true ∧ atl.writable 0 PAL_INJECT_ARM 0 = true
    ∧ (after (.palAcWrite 0 0 1023 9) atl).fld PAL_AC_VALUE 0 1023 = 9
    ∧ (after (.palAcAdd 0 0 0x1fffffff0) (after (.palAcWrite 0 0 1 9) atl)).fld PAL_AC_VALUE 0 1 = 0xfffffff9
    ∧ (after (.palInjectArm 0 0 0xc000000000000005) atl).on PAL_INJECT_ARM 0 = true := by decide +kernel
/-- A read set that quarter 3's banks accepted still waits as its gate closes. -/
def accepted : State := withPal (poke up PWR_DSTATE.whole 0x3333333333533333 0 0) fun p =>
  { p with banks := [.read ⟨0, .vector, none, [palFirst 0 + 589824]⟩] }
/-- A management wake of quarter 0 has ended its ramp. -/
def waking : State :=
  let s := poke (poke up PWR_DSTATE.whole 0x3333333333333133 0 0) PWR_DOM_CMD_GO 1
  { s with units := { s.units with pwr := { s.units.pwr with reqs := [⟨2, .wake false, .command⟩] } } }
theorem meets_quarterGates : (poke up PWR_DSTATE.whole 0x3333333333533333 0 0).dom (6 * 0 + 2 + 3) = 5
    ∧ (after (.gateDrainEnd 0 3) (poke up PWR_DSTATE.whole 0x3333333333533333 0 0)).dom 5 = 0
    ∧ (after (.gateDrainEnd 0 3) (poke up PWR_DSTATE.whole 0x3333333333533333 0 0)).units.pwr.moving = [5]
    ∧ accepted.dom 5 = 5 ∧ inQuarter 0 3 (64 * (palFirst 0 + 589824)) = true ∧ (after (.gateDrainEnd 0 3) accepted).dom 5 = 5
    ∧ waking.dom 2 = 1 ∧ waking.units.pwr.moving.contains 2 = false ∧ (after (.quarterInitDone 0 0) waking).dom 2 = 3
    ∧ (after (.quarterInitDone 0 0) waking).units.pwr.reqs = [] ∧ (after (.quarterInitDone 0 0) waking).fld PWR_DOM_CMD_RESULT = 1
    ∧ (poke up PWR_DSTATE.whole 0x3333333333333133 0 0).dom (6 * 0 + 2 + 0) = 1
    ∧ (poke up PWR_DSTATE.whole 0x3333333333333133 0 0).units.pwr.moving.contains 2 = false
    ∧ (after (.quarterInitDone 0 0) (poke up PWR_DSTATE.whole 0x3333333333333133 0 0)).dom 2 = 3 := by decide +kernel

/-! ### Tensor moves, the array, the vector engine and special functions -/

/-- PAL_FILL of `len` granules from `dst`, counted in counter 3. -/
def fillWords (dst len : Nat) : Descriptor := desc 0x10 0 [dst + len * 2 ^ 32, 0x1122334455667788, 0x8003]
def fill (dst len : Nat) : State := slots atl [busy 7 0 (.copy 0) (fillWords dst len)]
/-- R74, R76: the pattern's bytes, the counter, and a fill that runs past the palette's end. -/
theorem meets_palFill : (fill 4 2).settledBanks = true ∧ (fill 4 2).engaged (.copy 0) [0x10] (busy 7 0 (.copy 0) (fillWords 4 2)) = true
    ∧ (∀ k, k < 2 → (fill 4 2).meets (some 0) (palFirst 0 + 4 + k) = .ok) ∧ acOf (fillWords 4 2) 2 = some 3
    ∧ (after (.palFill 0) (fill 4 2)).byte (paletteBase 0 + 5 * 64 + 9) = 0x77
    ∧ (after (.palFill 0) (fill 4 2)).fld PAL_AC_VALUE 0 3 = 2
    ∧ (after (.palFill 0) (fill 4 2)).byte (paletteBase 0 + 6 * 64) = 0 := by decide +kernel
def tail2 : State := pokes (fill 786431 2) [(PWR_DSTATE.whole, 0x3333333333333333, 0, 0)]
theorem meets_palFill_edge : tail2.settledBanks = true ∧ tail2.engaged (.copy 0) [0x10] (busy 7 0 (.copy 0) (fillWords 786431 2)) = true
    ∧ (∀ k, k < 2 → 786431 + k < palGranules → tail2.meets (some 0) (palFirst 0 + 786431 + k) = .ok)
    ∧ palGranules < 786431 + 2 ∧ (after (.palFill 0) tail2).fld PAL_AC_VALUE 0 3 = 1
    ∧ (after (.palFill 0) tail2).fld SEQ_OOB_WRITE_COUNT_COUNT 0 = 1
    ∧ ((after (.palFill 0) tail2).slots.all fun x => x.has .oobWrite && x.phase == .done) = true := by decide +kernel
def copyWords : Descriptor := desc 0x11 0 [1 + 2 * 2 ^ 32, 0, 0]
/-- Granules 0 and 1 hold bytes 7 and 9; the copy moves both by one. -/
def copySt : State := { slots atl [busy 7 0 (.copy 0) copyWords] with
  mem := [(paletteBase 0, 7), (paletteBase 0 + 64, 9)] }
theorem clean_first_two : copySt.clean (some 0) ((List.range 2).map fun k => palFirst 0 + min (0 + k) (palGranules - 1)) := by
  intro g hg
  have h : g = palFirst 0 ∨ g = palFirst 0 + 1 := by
    obtain ⟨k, hk, rfl⟩ := List.mem_map.mp hg
    rw [List.mem_range] at hk
    have e : palGranules = 786432 := by decide +kernel
    rw [e]
    omega
  rcases h with h | h <;> subst h <;> decide +kernel
theorem meets_palCopy : copySt.settledBanks = true ∧ copySt.engaged (.copy 0) [0x11] (busy 7 0 (.copy 0) copyWords) = true
    ∧ (∀ k, k < 2 → copySt.meets (some 0) (palFirst 0 + 1 + k) = .ok)
    ∧ (after (.palCopy 0) copySt).byte (paletteBase 0 + 64) = 7 ∧ (after (.palCopy 0) copySt).byte (paletteBase 0 + 128) = 9 := by
  decide +kernel
/-- FP32 tensors of one element at bytes 0 and 256. -/
def one (o : Nat) : Nat := tensorRec 0 (paletteBase 0 + o) [(1, 1)]
def moveSt (op : Nat) (recs : List Nat) (b : List Nat := []) : State :=
  { slots atl [busy 7 0 (.copy 0) (desc op 0 b) recs] with mem := [(paletteBase 0, 7)] }
theorem meets_tensorCopyElement : (moveSt 0x18 [one 0, one 256]).settledBanks = true
    ∧ (moveSt 0x18 [one 0, one 256]).engaged (.copy 0) [0x18] (busy 7 0 (.copy 0) (desc 0x18 0 []) [one 0, one 256]) = true
    ∧ ((busy 7 0 (.copy 0) (desc 0x18 0 []) [one 0, one 256]).tensor 0).count = 1
    ∧ ((busy 7 0 (.copy 0) (desc 0x18 0 []) [one 0, one 256]).tensor 1).count = 1
    ∧ ((busy 7 0 (.copy 0) (desc 0x18 0 []) [one 0, one 256]).tensor 0).clamp [0, 0, 0, 0, 0] = some [0, 0, 0, 0, 0]
    ∧ ((busy 7 0 (.copy 0) (desc 0x18 0 []) [one 0, one 256]).tensor 1).inBox [0, 0, 0, 0, 0] = true
    ∧ (∀ g ∈ [paletteBase 0 / 64, (paletteBase 0 + 256) / 64],
        (moveSt 0x18 []).meets (some 0) g = .ok ∧ (moveSt 0x18 []).poisoned g = false ∧ (moveSt 0x18 []).errors g = 0)
    ∧ (after (.tensorCopy 0) (moveSt 0x18 [one 0, one 256])).byte (paletteBase 0 + 256) = 7 := by decide +kernel
/-- Ten operations in progress, each on one tile. -/
def veSt (op : Nat) (b : List Nat) (recs : List Nat := []) : State :=
  { slots atl [busy 7 0 (.ve 0) (desc op 0 b) recs] with mem := [(paletteBase 0 + 2, 0x80), (paletteBase 0 + 3, 0x3f)] }
/-- A stroke block of one dimension of extent 1 with one instruction. -/
def block (mode instr chunk : Nat) : Nat :=
  (1 * 2 ^ 53 + mode * 2 ^ 50 + chunk * 2 ^ 43 + 1) + 1 * 2 ^ 64 + 8 * 2 ^ (64 * 4) + 8 * 2 ^ (64 * 8) + instr * 2 ^ (64 * 14)
/-- ST t of input 0, RED of its sum, SCAN with a = 1 and b = input 0. -/
def stI0 : Nat := 0x1E * 2 ^ 26 + 0x10 * 2 ^ 16
theorem test_veStrokeMap : (after (.veStrokeMap 0) (veSt 0x28 [] [block 0 stI0 0, one 0, one 256])).byte (paletteBase 0 + 259)
      = 0x3f
    ∧ ((after (.veStrokeMap 0) (veSt 0x28 [] [block 0 stI0 0, one 0, one 256])).slots.all fun x => x.phase == .done) = true := by
  decide +kernel
theorem meets_tileOperationsEnd : (moveSt 0x19 [one 0, one 256, one 64]).engaged (.copy 0) [0x19]
      (busy 7 0 (.copy 0) (desc 0x19 0 []) [one 0, one 256, one 64]) = true
    ∧ (moveSt 0x1A []).engaged (.copy 0) [0x1A] (busy 7 0 (.copy 0) (desc 0x1A 0 [])) = true
    ∧ (veSt 0x30 []).engaged (.ve 0) [0x30] (busy 7 0 (.ve 0) (desc 0x30 0 [])) = true
    ∧ ([0, 1, 2, 3].all fun m => (veSt 0x31 [0, 0, 0, 0, 0, m * 2 ^ 30]).engaged (.ve 0) [0x31]
        (busy 7 0 (.ve 0) (desc 0x31 0 [0, 0, 0, 0, 0, m * 2 ^ 30])) && nsMode (desc 0x31 0 [0, 0, 0, 0, 0, m * 2 ^ 30]) == m) = true
    ∧ ([0, 1, 2].all fun m => (busy 7 0 (.ve 0) (desc 0x28 0 []) [block m stI0 4]).stroke.mode == m) = true
    ∧ vePaced (desc 0x28 0 []) = false := by decide +kernel
/-- Every operation of a tile's engines ends its descriptor's work. -/
theorem test_tileOperationsEnd : ([(moveSt 0x19 [one 0, one 256, one 64], Instr.tensorGather 0),
      (moveSt 0x1A [one 0, one 256, one 64], .tensorScatter 0), (veSt 0x30 [1] [one 0], .norm 0),
      (veSt 0x31 [1] [one 0], .softmaxFull 0), (veSt 0x31 [1, 0, 0, 0, 0, 2 ^ 30] [one 0], .softmaxPartial 0),
      (veSt 0x31 [1, 0, 0, 0, 0, 2 ^ 31] [one 0], .softmaxApply 0), (veSt 0x31 [1, 0, 0, 0, 0, 3 * 2 ^ 30] [one 0], .softmaxMerge 0),
      (veSt 0x28 [] [block 1 stI0 0], .veStrokeReduce 0), (veSt 0x28 [] [block 2 stI0 4], .veStrokeScan 0)].all fun e =>
    (after e.2 e.1).slots.all fun x => x.phase == .done) = true := by decide +kernel
theorem meets_tileOperationsStore : ((fill 4 2).upsets = [] ∧ (fill 4 2).settledBanks = true) ∧ (∀ u : TileNo, (fill 4 2).on PAL_INJECT_ARM u = false)
    ∧ (fill 4 2).working (.copy 0) = some (busy 7 0 (.copy 0) (fillWords 4 2)) ∧ (∃ t, exec (.palFill 0) (fill 4 2) = .next t) := by
  refine ⟨?_, ?_, ?_, _, rfl⟩ <;> decide +kernel

/-! #### The matrix array -/

/-- A product of BF16 tensors: A is 1 by m, W is k by n, C is n by m, in granules 0, 8 and 16. -/
def mxRecs (k n m : Nat) : List Nat :=
  [tensorRec 1 (paletteBase 0) [(k, 1), (m, k)], tensorRec 1 (paletteBase 0 + 512) [(k, 1), (n, k)],
   tensorRec 0 (paletteBase 0 + 1024) [(n, 1), (m, n)]]
def mxD (h : Half) (k n m : Nat) (b : List Nat) (stamp : Nat := 0) : Slot :=
  busy 7 0 (.mx 0 h) (desc (0x20 + stamp * 2 ^ 24) 0 b) (mxRecs k n m)
/-- 2 in A and 3 in W. -/
def mxSt (d : Slot) : State := { slots atl [d] with
  mem := [(paletteBase 0, 0x00), (paletteBase 0 + 1, 0x40), (paletteBase 0 + 512, 0x40), (paletteBase 0 + 513, 0x40)].filter
    fun e => e.2 != 0 }
def withMx (s : State) (f : MxUnit → MxUnit) : State := { s with units := { s.units with mx := f s.units.mx } }
def paced : List Nat := [0, 0, 0, 0, 0, 0x18001]
theorem test_mxProduct : (after (.mxProduct 0 .whole) (mxSt (mxD .whole 1 1 1 []))).byte (paletteBase 0 + 1027) = 0x40
    ∧ (after (.mxProduct 0 .whole) (mxSt (mxD .whole 1 1 1 []))).byte (paletteBase 0 + 1026) = 0xc0 := by decide +kernel
theorem meets_mxProgress_start : (mxSt (mxD .whole 1 1 1 [])).otherUnpaced 0 .whole = true ∧ (mxSt (mxD .left 1 129 1 [])).otherUnpaced 0 .left = true
    ∧ (mxSt (mxD .whole 1 1 1 [])).engaged (.mx 0 .whole) [0x20] (mxD .whole 1 1 1 []) = true
    ∧ (mxSt (mxD .whole 1 1 1 [])).healthy = true ∧ (mxSt (mxD .whole 1 1 1 [])).mxRun 0 .whole = none
    ∧ (productOf 0 .whole (mxD .whole 1 1 0 [])).outer = [] ∧ (productOf 0 .whole (mxD .whole 1 0 1 [])).n = 0
    ∧ (productOf 0 .whole (mxD .whole 0 1 1 [])).k = 0 ∧ (productOf 0 .whole (mxD .whole 0 1 1 [])).outer ≠ []
    ∧ (productOf 0 .whole (mxD .whole 1 1 1 [])).total = 1 ∧ (productOf 0 .left (mxD .left 1 129 1 [])).total = 2
    ∧ (mxD .whole 1 1 1 []).unlaunched = false ∧ (mxD .whole 1 1 1 [] 5).unlaunched = true
    ∧ mxPaced (desc 0x20 0 []) = false
    ∧ ((after (.mxProduct 0 .whole) (mxSt (mxD .whole 1 1 0 []))).slots.all fun x => x.phase == .done) = true
    ∧ ((after (.mxProduct 0 .whole) (mxSt (mxD .whole 0 1 1 []))).slots.all fun x => x.phase == .done && x.has .emptyReduce) = true
    ∧ ((after (.mxProduct 0 .whole) (mxSt (mxD .whole 1 1 1 []))).slots.all fun x => x.phase == .done) = true := by decide +kernel
/-- A product of two passes, its first one fed. -/
def two : State := after (.mxProduct 0 .left) (mxSt (mxD .left 1 129 1 []))
theorem meets_mxProgress_pass : two.otherUnpaced 0 .left = true ∧ two.engaged (.mx 0 .left) [0x20] (mxD .left 1 129 1 []) = true ∧ two.healthy = true
    ∧ (two.mxRun 0 .left).any (fun r => r.slot == 7 && r.pass == 0 && r.fed && r.next == 1 && r.shadow.isSome) = true
    ∧ ((after (.mxPassStart 0 .left) two).slots.all fun x => x.phase == .done) = true
    ∧ (after (.mxPassStart 0 .left) two).mxRun 0 .left = none := by decide +kernel
/-- A stamped product whose stamp is met, and a paced one whose pace is open. -/
def stamped : State := after (.mxProduct 0 .whole) (mxSt { mxD .whole 1 1 1 [] 5 with lc := some 0 })
def stampedMet : State := withRings stamped fun u => { u with slots := u.slots.map fun x => { x with stampMet := true } }
def pacedRun : State := withMx (poke (mxSt (mxD .whole 1 1 1 paced)) PAL_AC_VALUE 1 0 1) fun u =>
  { u with runs := [{ tile := 0, half := .whole, slot := 7, fed := true, active := [[(0x4040, 0x7f)]] }] }
theorem meets_mxProgress_feed : (stamped.mxRun 0 .whole).any (fun r => r.pass == 0 && r.next == 0 && !r.fed) = true
    ∧ stampedMet.engaged (.mx 0 .whole) [0x20] { mxD .whole 1 1 1 [] 5 with lc := some 0, stampMet := true } = true
    ∧ stampedMet.healthy = true ∧ stampedMet.otherUnpaced 0 .whole = true ∧ pacedRun.otherUnpaced 0 .whole = true
    ∧ ((after (.mxFirstFeed 0 .whole) stampedMet).slots.all fun x => x.phase == .done) = true
    ∧ pacedRun.engaged (.mx 0 .whole) [0x20] (mxD .whole 1 1 1 paced) = true ∧ pacedRun.healthy = true
    ∧ paceOpen pacedRun (productOf 0 .whole (mxD .whole 1 1 1 paced)) 0 = true
    ∧ mxPaced (desc 0x20 0 paced) = true ∧ ((productOf 0 .whole (mxD .whole 1 1 1 paced)).at 0).2 = 0
    ∧ ((after (.mxPaceRelease 0 .whole) pacedRun).slots.all fun x => x.phase == .done) = true
    ∧ (after (.mxPaceRelease 0 .whole) pacedRun).byte (paletteBase 0 + 1027) = 0x40 := by decide +kernel
/-- A paced stroke that waits for its first wave. -/
def veRun : State :=
  { poke (veSt 0x28 [0, 0x18001] [block 0 stI0 0, one 0, one 256]) PAL_AC_VALUE 1 0 1 with
    units := { (veSt 0x28 [0, 0x18001] [block 0 stI0 0, one 0, one 256]).units with ve := [{ tile := 0, slot := 7 }] } }
theorem meets_vePace : veRun.engaged (.ve 0) [0x28] (busy 7 0 (.ve 0) (desc 0x28 0 [0, 0x18001]) [block 0 stI0 0, one 0, one 256])
      = true
    ∧ (veRun.veRun 0).any (fun r => r.wave == 0 && r.slot == 7) = true ∧ veRun.healthy = true
    ∧ wavePaceOpen veRun (busy 7 0 (.ve 0) (desc 0x28 0 [0, 0x18001]) [block 0 stI0 0, one 0, one 256]).stroke
        (busy 7 0 (.ve 0) (desc 0x28 0 [0, 0x18001])) 0
        ((wavesOf (busy 7 0 (.ve 0) (desc 0x28 0 [0, 0x18001]) [block 0 stI0 0, one 0, one 256]).stroke).getD 0 []) = true
    ∧ (wavesOf (busy 7 0 (.ve 0) (desc 0x28 0 [0, 0x18001]) [block 0 stI0 0, one 0, one 256]).stroke).length = 1
    ∧ ((after (.vePaceRelease 0) veRun).slots.all fun x => x.phase == .done) = true
    ∧ (after (.vePaceRelease 0) veRun).byte (paletteBase 0 + 259) = 0x3f := by decide +kernel
/-- A stroke of two waves, which the first release leaves in progress. -/
def veTwo : Slot := busy 7 0 (.ve 0) (desc 0x28 0 []) [1 * 2 ^ 53 + 1 + 4097 * 2 ^ 64 + stI0 * 2 ^ (64 * 14)]
theorem meets_vePace_more : (wavesOf veTwo.stroke).length = 3 ∧ veTwo.stroke.mode ≠ 2 := by decide +kernel

/-! #### Parking, splitting, stalls -/

def mxIdleSt : State := mxSt (mxD .whole 1 1 1 [])
theorem meets_parks_write : mxIdleSt.writable 0 MX_PARK_PARK_L 0 = true ∧ mxIdleSt.on MX_STATUS_SPLIT_ACTIVE 0 = false
    ∧ mxIdleSt.parked 0 false = false ∧ mxIdleSt.working (.mx 0 .whole) = some (mxD .whole 1 1 1 [])
    ∧ (after (.park 0 0 1) mxIdleSt).units.mx.parks = [] ++ (0, false, 0) :: []
    ∧ ((after (.park 0 0 1) mxIdleSt).slots.all fun x => x.phase == .done && x.has .parked) = true
    ∧ (after (.parkTakeEffect 0 false) (after (.park 0 0 1) mxIdleSt)).on MX_PARK_LOG_VALID 0 = true
    ∧ (after (.releaseHalf 0 0 0x100) (after (.park 0 0 1) mxIdleSt)).parked 0 false = false
    ∧ halfStopped (after (.park 0 0 1) mxIdleSt) 0 false = false
    ∧ (after (.park 0 0 1) mxIdleSt).writable 0 MX_PARK_RELEASE_L 0 = true := by decide +kernel
/-- A split array with a descriptor on each half; the right one belongs to atelier 2. -/
def split : State := pokes (slots (mxSt (mxD .left 1 1 1 [])) [mxD .left 1 1 1 [], { mxD .right 1 1 1 [] with id := 8 }])
  [(MX_STATUS_SPLIT_ACTIVE, 1, 0, 0), (MX_CTL_SPLIT, 1, 0, 0), (ATL_SHARE_VALID, 1, 0, 0), (ATL_SHARE_RIGHT, 2, 0, 0),
   (ATL_OWNER_VALID, 1, 2, 0), (ATL_CTL_SHARE_OK, 1, 1, 0), (ATL_CTL_SHARE_OK, 1, 2, 0)]
/-- The same when the descriptors have stalled long. -/
def aged : State := { split with units := { split.units with tb := { split.units.tb with count := 2 ^ 33 } } }
theorem meets_parks_threshold : split.on MX_STATUS_SPLIT_ACTIVE 0 = true ∧ split.fld MX_PARK_THRESH_TICKS 0 ≠ 0
    ∧ split.working (mxEngine 0 true true) = some { mxD .right 1 1 1 [] with id := 8 } ∧ split.busy (mxEngine 0 false true) = true
    ∧ split.running = true ∧ split.parked 0 true = false
    ∧ (aged.slot 8).any (fun x => aged.fld MX_PARK_THRESH_TICKS 0 ≤ aged.stallAge x) = true
    ∧ (split.slot 8).all (fun x => split.stallAge x < split.fld MX_PARK_THRESH_TICKS 0) = true
    ∧ (after (.parkThreshold 0 true) aged).parked 0 true = true ∧ (after (.parkThreshold 0 true) split).parked 0 true = false
    ∧ (after (.parkThreshold 0 true) aged).units.mx.parks = [(0, true, 1)] := by decide +kernel
/-- The sharing policy in force, with the array whole and idle. -/
def shared : State := poke (slots split []) MX_STATUS_SPLIT_ACTIVE 0 0
theorem meets_split : (poke shared MX_CTL_SPLIT 0).writable 0 MX_CTL_SPLIT 0 = true
    ∧ (shared.rightOf 0).isSome = true ∧ mxIdle shared 0 = true ∧ mxIdle split 0 = false ∧ (atl.rightOf 0).isNone = true
    ∧ atl.writable 0 MX_CTL_SPLIT 0 = true ∧ atl.fld MX_CTL_SPLIT 0 = 0
    ∧ (after (.splitWrite 0 0 1) (poke shared MX_CTL_SPLIT 0)).fld MX_STATUS_SPLIT_ACTIVE 0 = 1
    ∧ (after (.splitWrite 0 0 0) (poke (slots split []) MX_STATUS_PARKED_R 1 0)).fld MX_STATUS_PARKED_R 0 = 0
    ∧ (after (.splitWrite 0 0 0) split).on MX_STATUS_SPLIT_PENDING 0 = true
    ∧ (after (.splitWrite 0 0 0) split).fld MX_STATUS_SPLIT_ACTIVE 0 = 1
    ∧ (after (.splitWrite 0 0 1) atl).fld HOST_LOCKED_COUNT 0 = 1
    ∧ (after (.splitTakeEffect 0) (slots (after (.splitWrite 0 0 0) split) [])).fld MX_STATUS_SPLIT_ACTIVE 0 = 0
    ∧ mxIdle (slots (after (.splitWrite 0 0 0) split) []) 0 = true := by decide +kernel
/-- A stall of 1,000,000 ticks in an atelier that quiesces. -/
def stalled : State :=
  { pokes mxIdleSt [(ATL_STATUS_STATE, 2, 1, 0), (MX_WDOG_THRESH_B, 1000000, 0, 0)] with
    units := { mxIdleSt.units with tb := { mxIdleSt.units.tb with count := 1000000 } } }
theorem meets_stalls : stalled.stallSlot (.mx 0 false) = some (mxD .whole 1 1 1 []) ∧ stalled.threshA (.mx 0 false) = 1000000
    ∧ stalled.threshB (.mx 0 false) = 1000000 ∧ stalled.stallAge (mxD .whole 1 1 1 []) = 1000000
    ∧ stalled.slot 7 = some (mxD .whole 1 1 1 []) ∧ (mxD .whole 1 1 1 []).ages = true
    ∧ stalled.fld ATL_QCFG_STALL_TICKS 1 = 1000000 ∧ stalled.running = true ∧ stalled.units.hbm.repairing = []
    ∧ stalled.stallCause (.mx 0 false) 2 = 2 ∧ (poke pacedRun PAL_AC_VALUE 0 0 1).stallCause (.mx 0 false) 2 = 4
    ∧ (after (.stallReport (.mx 0 false) 2) stalled).units.rings.cqWait.length = 1
    ∧ (after (.stallReport (.mx 0 false) 2) stalled).fld MX_STALL_LOG_CAUSE 0 = 2
    ∧ ((after (.stallAbort (.mx 0 false)) (after (.stallReport (.mx 0 false) 2) stalled)).slots.all fun x =>
        x.phase == .done && x.has .stallAbort) = true
    ∧ ((after (.quiesceStallAbort 7) (after (.stallReport (.mx 0 false) 2) stalled)).slots.all fun x =>
        x.phase == .done && x.has .stallAbort) = true := by decide +kernel

/-! ### Rings -/

/-- Group 0 with its doorbell and CQ, and ring 0, running, with 16 entries for tile 0. -/
def ringSt : State := pokes atl
  [(GRP_DB_ADDR, 0x40, 0, 0), (GRP_DB_ACTIVE, 1, 0, 0), (GRP_CQ_ADDR, 0x80, 0, 0), (GRP_CQ_LOG2_ENTRIES, 6, 0, 0),
   (RING_BASE_ADDR, 0x100, 0, 0), (RING_BASE_LOG2_ENTRIES, 4, 0, 0), (RING_STATE_STATE, 1, 0, 0), (RING_POS_TAIL, 3, 0, 0)]
def swept : State := after .pollSweep ringSt
theorem meets_pollerReads_summary : ringSt.units.rings.sweeping = false ∧ ringSt.polled = [0] ∧ swept.units.rings.sweeping = true
    ∧ swept.units.rings.sweepOwed = false ∧ swept.units.rings.sumReads.contains 0 = true
    ∧ swept.waitsTag (swept.summaryRead 0) = false ∧ swept.out = [.hostRead 0 0x40000 16]
    ∧ (after .pollSweep swept).fld RING_POLL_STATUS_OVERRUN = 1
    ∧ (after (.summaryReadReturn 0 (some ⟨5, 2⟩)) swept).fld GRP_CQ_POS_HEAD_SEEN 0 = 2
    ∧ ((ringSt.groupOwner 0).any fun a => ringSt.fetches a) = true
    ∧ (after (.summaryReadReturn 0 (some ⟨5, 2⟩)) swept).units.rings.tailReads = [(0, 5)] := by decide +kernel
def tails : State := after (.summaryReadReturn 0 (some ⟨5, 2⟩)) swept
/-- Ring 0 was enabled while the group's TAIL read was out. -/
def lateTails : State := withRings tails fun u => { u with late := [(0, true)] }
theorem meets_pollerReads_tail : (tails.units.rings.tailReads.find? fun x => x.1 = 0) = some (0, 5)
    ∧ tails.waitsTag (tails.tailRead 0) = false ∧ (List.replicate 64 (7 : BitVec 32)).length = 64
    ∧ tails.units.rings.late.contains (0, true) = false ∧ lateTails.units.rings.late.contains (0, true) = true
    ∧ (after (.tailReadReturn 0 (some (List.replicate 64 7))) lateTails).fld RING_POS_TAIL 0 = 3
    ∧ (after (.tailReadReturn 0 (some (List.replicate 64 7))) tails).fld RING_POS_TAIL 0 = 7
    ∧ (after (.tailReadReturn 0 (some (List.replicate 64 7))) tails).fld GRP_SUMMARY_SEEN_VALUE 0 = 5
    ∧ 0 ≤ sdiff 20 (tails.fld RING_POS_TAIL 0) 32 ∧ (16 : Int) < sdiff 20 (tails.fld RING_RETIRED_RETIRED 0) 32
    ∧ sdiff 2 (tails.fld RING_POS_TAIL 0) 32 < 0
    ∧ (after (.tailReadReturn 0 (some (List.replicate 64 2))) tails).on GRP_STATUS_DB_BACKWARD 0 = true
    ∧ (after (.tailReadReturn 0 (some (List.replicate 64 2))) tails).fld RING_POS_TAIL 0 = 3 := by decide +kernel
/-- R190: 20 entries in a ring of 16. The record of the halt holds free values, so only its effect on the ring is read. -/
theorem meets_pollerReads_overfill : tails.fld RING_BASE_LOG2_ENTRIES 0 = 4 ∧ tails.fld RING_STATE_STATE 0 = 1 := by decide +kernel
/-- A NOP of position 0 and one of position 1, and an entry with a stale SEQ. -/
def nopW (seq : Nat) (rec1 : Nat := 0) : Descriptor := desc (rec1 * 2 ^ 12) (seq + 1 * 2 ^ 6) []
def fetching : State := after (.ringFetch 0) ringSt
theorem meets_ringFetches : ringSt.fetchable 0 = 3 ∧ (fetching.units.rings.fetching.find? fun x => x.1 = 0) = some (0, 0, 3)
    ∧ fetching.waitsTag (fetching.ringRead 0 0 3) = false ∧ fetching.units.rings.fresh.contains 0 = false
    ∧ fetching.units.rings.stale.contains 0 = false
    ∧ fetching.fld RING_POS_FETCHED 0 = 0 ∧ ((fetching.ringOwner 0).any fun a => fetching.fetches a) = true
    ∧ entriesInOrder 0 4 [nopW 0, nopW 0, nopW 0] = 3 ∧ entriesInOrder 0 4 [nopW 0, nopW 5, nopW 0] = 1
    ∧ fetching.out = [.hostRead 0 0x40000 192] ∧ [nopW 0, nopW 0, nopW 0].length = 3
    ∧ ([nopW 0, nopW 0].all fun x => opcodeOf x != 1) = true
    ∧ fetching.delivered 0 ((0 + 1) % 2 ^ 32) = false
    ∧ (after (.ringFetchReturn 0 (some [nopW 0, nopW 0, nopW 0])) fetching).fld RING_POS_FETCHED 0 = 3
    ∧ (after (.ringFetchReturn 0 (some [nopW 0, nopW 0, nopW 0])) fetching).units.rings.fetched.length = 3 := by decide +kernel
/-- A read of a schedule of two entries is outstanding for ring 0. -/
def sched : State := withRings (pokes ringSt [(RING_SCHED_LENGTH, 2, 0, 1), (RING_CFG_SCHED, 1, 0, 0)]) fun u => { u with schedReads := [0] }
theorem meets_ringFetches_schedule : extractFirst (fun x => sched.ringOwner x = some 1) sched.units.rings.schedReads = (some 0, [])
    ∧ sched.schedOut 1 = true ∧ (0 : Nat) ∉ ([] : List Nat) ∧ sched.running = true ∧ sched.fld RING_STATE_STATE 0 = 1
    ∧ (after (.schedTableRead 1 [0, 1]) sched).units.rings.schedules = [(0, [0, 1])] := by decide +kernel
def fetched : State := after (.ringFetchReturn 0 (some [nopW 0, nopW 0, nopW 0])) fetching
/-- A descriptor whose header names another atelier. -/
def denied : State := after (.ringFetchReturn 0 (some [desc 0 (2 * 2 ^ 6) [], nopW 0, nopW 0])) fetching
theorem meets_delivery : (fetched.nextDelivery 0).any (fun x => x.1.pos == 0) = true ∧ fetched.ringOwner 0 = some 1
    ∧ fetched.canDeliver 0 = true ∧ fetched.turnOf (fetched.fld RING_CFG_TARGET 0) = some 0 ∧ fetched.slots = []
    ∧ fetched.units.pwr.reqs = [] ∧ fetched.headerFaults 1 0 0 0 (nopW 0) = [] ∧ fetched.running = true
    ∧ denied.headerFaults 1 0 0 0 (desc 0 (2 * 2 ^ 6) []) ≠ [] ∧ denied.canDeliver 0 = true
    ∧ denied.turnOf (denied.fld RING_CFG_TARGET 0) = some 0
    ∧ ((after (.descriptorDeliver 0) fetched).slots.map fun x => (x.id, x.phase, x.pos)) = [(0, .delivered, 0)]
    ∧ ((after (.descriptorDeliver 0) denied).slots.map fun x => (x.id, x.phase, x.has .accessDenied)) = [(0, .recorded, true)] := by
  decide +kernel
/-- A PAL_FILL that is eligible, and one whose work is over. -/
def fillSlot : Slot := { slot 7 0 (fillWords 4 2) with waitMet := true, stampMet := true }
def ready : State := slots ringSt [fillSlot]
def ended (rec1 : Nat) : State := slots ringSt [{ busy 7 0 (.copy 0) (desc (0x10 + rec1 * 2 ^ 12) 0 []) with phase := .done }]
theorem meets_issueAndComplete : ready.nextIssue (.copy 0) = some fillSlot ∧ ready.units.hbm.repairing = [] ∧ bit (ready.fld RISK_RNG_CHECK_ARMED) 1 = false
    ∧ body (fillWords 4 2) 0 63 52 = 0 ∧ body (fillWords 4 2) 0 31 20 = 0 ∧ body (fillWords 4 2) 2 63 16 = 0
    ∧ zeroFrom (fillWords 4 2) 3 = true ∧ body (fillWords 4 2) 0 51 32 ≠ 0
    ∧ body (fillWords 4 2) 0 19 0 + body (fillWords 4 2) 0 51 32 ≤ palGranules
    ∧ ready.allowed 1 (64 * (palFirst 0 + 4)) (64 * (palFirst 0 + 4 + 2) - 1) = true
    ∧ ((after (.descriptorIssue (.copy 0)) ready).slots.map fun x => (x.phase, x.on)) = [(.issued, some (.copy 0))]
    ∧ (after (.descriptorIssue (.copy 0)) ready).fld SEQ_LAST_ISSUE_OPCODE 0 = 0x10 := by decide +kernel
theorem meets_issueAndComplete_end : (∀ k : Fin 2, (ended k).slot 7 = some ((ended k).slots.headD fillSlot)
      ∧ (ended k).units.var.runs = [] ∧ (ended k).units.pwr.reqs = [] ∧ (ended k).running = true)
    ∧ ((ended 0).slots.headD fillSlot).records = false ∧ ((ended 1).slots.headD fillSlot).records = true
    ∧ (after (.descriptorComplete 7) (ended 0)).slots = [] ∧ (after (.descriptorComplete 7) (ended 0)).fld RING_RETIRED_RETIRED 0 = 1
    ∧ (after (.descriptorComplete 7) (ended 1)).units.rings.cqWait.length = 1
    ∧ (slots ringSt [{ fillSlot with fence := .reading }]).slot 7 = some { fillSlot with fence := .reading }
    ∧ ((after (.fenceHostReadReturn 7) (slots ringSt [{ fillSlot with fence := .reading }])).slots.map (·.fence)) = [.confirmed] := by
  decide +kernel
def selfSt (op : Nat) (b : List Nat) (rec1 : Nat := 0) : State :=
  slots ringSt [{ slot 7 0 (desc (op + rec1 * 2 ^ 12) 0 b) with waitMet := true, stampMet := true }]
theorem meets_selfExecuted : ((selfSt 0 []).selfRun 7 0).isSome = true ∧ ((selfSt 1 [5, 6, 1] 1).selfRun 7 1).any (·.records) = true
    ∧ zeroFrom (desc 0 0 []) 0 = true ∧ waitKind (desc 1 0 [5, 6, 1]) = 0 ∧ stampOf (desc 1 0 [5, 6, 1]) = 0
    ∧ body (desc 1 0 [5, 6, 1]) 2 63 1 = 0 ∧ zeroFrom (desc 1 0 [5, 6, 1]) 3 = true
    ∧ ((selfSt 2 [7 * 2 ^ 32 + 3]).selfRun 7 2).isSome = true ∧ (selfSt 2 [7 * 2 ^ 32 + 3]).ownsCounter 1 0 3 = true
    ∧ ((selfSt 3 [0x1000, 9]).selfRun 7 3).isSome = true ∧ (selfSt 3 [0x1000, 9]).on ATL_STATUS_ORPHANED 1 = false
    ∧ ((after (.nop 7) (selfSt 0 [])).slots.all fun x => x.phase == .done) = true
    ∧ ((after (.streamSet 7) (selfSt 1 [5, 6, 1] 1)).slots.all fun x => x.phase == .recorded) = true
    ∧ (after (.counterAdd 7) (selfSt 2 [7 * 2 ^ 32 + 3])).fld PAL_AC_VALUE 0 3 = 7
    ∧ (after (.hostWrite 7) (selfSt 3 [0x1000, 9])).out = [.hostWrite 0 0x1000 (wordBytes 9)] := by decide +kernel
/-- A record waits, and a message's cause; the entry of vector 0 is unmasked, or has a pending message. -/
def rec1 : CqRecord := ⟨0, 5, none, true, false, false⟩
def cqSt : State := withRings ringSt fun u => { u with cqWait := [rec1] }
def irqSt (run : Bool) (e : MsixEntry) : State :=
  let s := withRings ringSt fun u => { u with holdoffs := [(0, ⟨run, true⟩)], msix := [(0, e)] }
  { s with units := { s.units with host := { s.units.host with config := [(0x2c, 0x80000000)] } } }
theorem meets_completionQueues : cqSt.groupOwner 0 = some 1 ∧ cqSt.holdsRecords 1 = false
    ∧ extractFirst (fun x : CqRecord => x.group = 0) cqSt.units.rings.cqWait = (some rec1, []) ∧ cqSt.cqFull 0 = false
    ∧ cqSt.units.rings.cqHeld.contains 0 = false ∧ cqSt.tagFree (some 1) = true ∧ (poke cqSt RING_TXN_IN_USE 65536).tagFree (some 1) = false
    ∧ (after (.cqRecordWrite 0 true) (poke cqSt RING_TXN_IN_USE 65536)).out = []
    ∧ (after (.cqRecordWrite 0 true) (after (.cqRecordWrite 0 true) (poke cqSt RING_TXN_IN_USE 65536))).fld RING_TXN_WAIT_COUNT = 1
    ∧ (after (.cqRecordWrite 0 true) cqSt).out = [.hostWrite 0 0x80000 (bytesOf 32 (5 + 2 ^ 63))]
    ∧ (after (.cqRecordWrite 0 true) cqSt).fld GRP_CQ_POS_TAIL 0 = 1
    ∧ (after (.cqRecordWrite 0 false) cqSt).on GRP_STATUS_CQ_WRITE_ERR 0 = true := by decide +kernel
theorem meets_completionQueues_messages : (irqSt false { mask := false, addr := 64, data := 3 }).running = true
    ∧ ((irqSt false {}).holdoff 0) = ⟨false, true⟩ ∧ ((irqSt true {}).holdoff 0) = ⟨true, true⟩
    ∧ (irqSt false {}).msixEnabled 0 = true ∧ (irqSt false {}).msixMasked 0 = false
    ∧ (after (.msixSend 0) (irqSt false { mask := false, addr := 64, data := 3 })).out.getLast? = some (.msix 0 0 64 3)
    ∧ ((after (.msixHoldoffEnd 0) (irqSt true {})).msixEntry 0 0).pending = true
    ∧ (after (.msixHoldoffEnd 0) (withRings (irqSt true {}) fun u => { u with holdoffs := [(0, ⟨true, false⟩)] })).holdoff 0 = {}
    ∧ (after (.msixUnmask 0 (some 0)) (irqSt false { pending := true, addr := 64, data := 3 })).out = [.msix 0 0 64 3]
    ∧ (irqSt false { pending := true, mask := false }).msixEntry 0 0 = { pending := true, mask := false }
    ∧ (after (.msixUnmask 0 none) (irqSt false { pending := true, mask := false, addr := 64 })).out = [.msix 0 0 64 0] := by
  decide +kernel
def stopped (st : Nat) : State := poke ringSt RING_STATE_STATE st 0
theorem meets_ringRegisters : ringSt.writable 0 RING_CTL_ENABLE 0 = true ∧ (stopped 0).canEnable 0 = true
    ∧ (after (.ringEnable 0 0 1) (stopped 0)).fld RING_STATE_STATE 0 = 1 ∧ (after (.ringEnable 0 0 1) (stopped 0)).units.rings.fresh = [0]
    ∧ (after (.ringDisable 0 0 0) ringSt).fld RING_STATE_STATE 0 = 0
    ∧ (after (.ringResume 0 0 3) (stopped 2)).fld RING_STATE_STATE 0 = 1
    ∧ (stopped 0).writable 0 RING_RETIRED_RETIRED 0 = true ∧ (after (.retiredWrite 0 0 9) (stopped 0)).fld RING_POS_FETCHED 0 = 9
    ∧ (after (.retiredWrite 0 0 9) ringSt).fld RING_RETIRED_RETIRED 0 = 0
    ∧ ringSt.writable 0 GRP_DB_ADDR 0 = true ∧ (after (.groupActivate 0 0 0x5001) (poke ringSt GRP_DB_ACTIVE 0)).on GRP_DB_ACTIVE 0 = true
    ∧ (after (.groupActivate 0 0 0x5001) (pokes ringSt [(GRP_DB_ACTIVE, 0, 0, 0), (GRP_CQ_ADDR, 0, 0, 0)])).on GRP_DB_ACTIVE 0 = false := by
  decide +kernel
def tagWait : TagWait := { atelier := some 1, what := [.hostRead 0 64 16] }
def waitTag : State := withRings ringSt fun u => { u with tagWaits := [tagWait] }
/-- A transfer that waits for a tag. -/
def waitGive : State := withRings ringSt fun u => { u with tagWaits := [{ atelier := none, what := [], access := some (.write 0 give) }] }
theorem meets_ringRegisters_access : waitGive.mayGo { atelier := none, what := [], access := some (.write 0 give) } = true
    ∧ waitGive.meets (sourceOwn give.src) (granuleOf give.addr.toNat) = .ok
    ∧ (after .txnTagGrant waitGive).units.rings.tagWaits = [] ∧ (after .txnTagGrant waitGive).units.pal.banks = [.write 0 give] := by
  decide +kernel
theorem meets_ringRegisters_tag : extractFirst waitTag.mayGo waitTag.units.rings.tagWaits
      = (some tagWait, [])
    ∧ (after .txnTagGrant waitTag).out = [.hostRead 0 64 16] ∧ (after .txnTagGrant waitTag).fld RING_TXN_IN_USE = 1 := by decide +kernel

/-! ### Timebase -/

/-- Module 1, with the PLL locked at count 1000. -/
def withTbS (s : State) (f : Timebase → Timebase) : State := { s with units := { s.units with tb := f s.units.tb } }
def tbSt : State := withTbS (pokes up [(COLL_ID_MODULE, 1, 0, 0), (TB_STATUS_STATE, 1, 0, 0)]) fun t =>
  { t with locked := true, count := 1000 }
def master : State := pokes tbSt [(TB_CTL_ROLE, 1, 0, 0), (TB_LOAD_VALUE.whole, 5000, 0, 0)]
theorem meets_timebaseCount : tbSt.running = true ∧ up.units.tb.locked = false ∧ tbSt.units.tb.locked = true
    ∧ (after .pllLock up).fld TB_STATUS_STATE = 1 ∧ (after .pllLock (poke up TB_CTL_ROLE 1)).fld TB_STATUS_HOPS = 0
    ∧ (after .pllUnlock tbSt).fld TB_STATUS_HOPS = 0xff ∧ (after .pllUnlock tbSt).units.tb.count = 1000
    ∧ (after (.tbBroadcast [(5, 2), (6, -3)]) tbSt).replica 5 = 1002 ∧ (after (.tbBroadcast [(5, 2), (6, -3)]) tbSt).replica 6 = 1000
    ∧ (after (.tbBroadcast [(5, 2)]) tbSt).on TB_EVENT_SKEW_ERR = false
    ∧ (after (.tbBroadcast [(5, 2), (6, -3)]) tbSt).on TB_EVENT_SKEW_ERR = true := by decide +kernel
theorem meets_timebaseCount_writes : tbSt.writable 0 TB_CTL_CAPTURE = true ∧ tbSt.writable 0 TB_CTL_LOAD = true
    ∧ (after (.tbCapture 0 8) tbSt).held (TB_CAPTURE_VALUE.addr 0 0) = 1000
    ∧ (after (.tbLoad 0 5) master).units.tb.count = 5000 ∧ (after (.tbLoad 0 5) master).on TB_EVENT_STEPPED = true
    ∧ (after (.tbLoad 0 13) master).held (TB_CAPTURE_VALUE.addr 0 0) = 1000 ∧ (after (.tbLoad 0 13) master).units.tb.count = 5000
    ∧ (after (.tbLoad 0 4) tbSt).units.tb.count = 1000 ∧ (after (.tbLoad 0 4) tbSt).fld HOST_LOCKED_COUNT 0 = 1 := by decide +kernel
theorem meets_captureAndLoad : master.running = true ∧ master.writable 0 TB_CTL_CAPTURE = true ∧ bits 13 3 3 = 1 ∧ bits 13 2 2 = 1
    ∧ (after (.tbCapture 0 13) master).units.tb.count = 5000 ∧ (after (.tbCapture 0 13) tbSt).units.tb.count = 1000
    ∧ (after (.tbCapture 0 13) tbSt).held (TB_CAPTURE_VALUE.addr 0 0) = 0 ∧ (after (.tbCapture 0 13) tbSt).on TB_CTL_ROLE = false
    ∧ (after (.tbCapture 0 13) master).held (TB_CAPTURE_VALUE.addr 0 0) = 1000 := by decide +kernel
/-- A stamped descriptor of target 0, with comparator 2. -/
def stampedSlot (t : Nat) : Slot := { slot 7 0 (desc (900 * 2 ^ 24) 0 []) with lc := some 2, came := 900, start := t }
theorem meets_timebaseCount_stamp : (slots tbSt [stampedSlot 0]).slots = [stampedSlot 0] ∧ (stampedSlot 0).unlaunched = true
    ∧ (slots tbSt [stampedSlot 0]).stampPast (stampedSlot 0) = true
    ∧ ((after (.stampReached 0 2) (slots tbSt [stampedSlot 0])).slots.map (·.stampMet)) = [true]
    ∧ ((after (.stampReached 0 1) (slots tbSt [stampedSlot 0])).slots.map (·.stampMet)) = [false] := by decide +kernel

/-! ### The sync exchange -/

/-- Port 3, ACTIVE, is upstream, and its peer is module 9; it holds credits of VL0. -/
def withPorts (s : State) (l : List (Nat × PortUnit)) : State :=
  { s with units := { s.units with fab := { s.units.fab with ports := l } } }
def arrived (s : State) (l : List Arrived) : State := { s with units := { s.units with fab := { s.units.fab with rx := l } } }
def linked (st : Nat := 3) : State :=
  withPorts (pokes tbSt [(LINK_STATUS_STATE, st, 3, 0), (LINK_STATUS_LANES_UP, 0xff, 3, 0), (LINK_STATUS_LANE_SET, 0xff, 3, 0),
    (LINK_STATUS_WIDTH, 8, 3, 0), (LINK_CTL_EN, 1, 3, 0), (LINK_CTL_AUTO_DEGRADE, 1, 3, 0), (LINK_PEER_MODULE, 9, 3, 0), (TB_SYNC_UP_VALID, 1, 0, 0),
    (TB_SYNC_UP_PORT, 3, 0, 0), (TB_SYNC_DOMAIN, 4, 0, 0), (COLL_ROUTE_CTL_TTL, 16, 0, 0), (TB_STATUS_UP_IN_USE, 1, 0, 0)])
    [(3, { credits := [(0, 8), (2, 8), (3, 8)] })]
def syncReq : Frame := (mkFrame 9 1 kindSync 0 0 0 0 none 0
  [syncPayload 0 0 (linked.fld TB_SYNC_DOMAIN) (linked.fld TB_STATUS_HOPS) linked.synced 0]).withTtl 16
theorem meets_syncExchange_request : linked.running = true ∧ linked.units.tb.locked = true ∧ linked.on TB_CTL_ROLE = false
    ∧ linked.units.tb.request = none ∧ linked.portInUse = (1, some 3)
    ∧ syncReq = (mkFrame (linked.fld LINK_PEER_MODULE 3) linked.moduleId kindSync 0 0 0 0 none 0
        [syncPayload 0 0 (linked.fld TB_SYNC_DOMAIN) (linked.fld TB_STATUS_HOPS) linked.synced 0]).withTtl (linked.fld COLL_ROUTE_CTL_TTL)
    ∧ (after (.syncRequestSend 3) linked).units.tb.request = some (some (timestamp 1000 3), 3, 4)
    ∧ (after (.syncRequestSend 3) linked).out = [linked.flitOf 3 syncReq 0]
    ∧ (after (.syncRequestSend 3) linked).on TB_EVENT_PORT_SWITCH = false
    ∧ (after (.syncRequestSend 3) (withTbS linked fun t => { t with lastPort := .some 5 })).on TB_EVENT_PORT_SWITCH = true := by decide +kernel
theorem meets_portReady : linked.portReady 3 syncReq 0 := by
  simp only [State.portReady]; decide +kernel
def came (p : Nat) (f : Frame) (at_ : Nat := 1000) : Arrived := { port := some p, frame := f, came := at_ }
def server : State := arrived (poke linked TB_CTL_SERVE 1) [came 3 (mkFrame 1 9 kindSync 0 0 0 0 none 0 [syncPayload 0 0 4 255 false 0]) 990]
def syncAns : Frame := (mkFrame 9 1 kindSyncResp 0 0 0 0 none 0
  [syncPayload (timestamp 990 1) (timestamp 1000 2) 4 (server.fld TB_STATUS_HOPS) server.synced 0]).withTtl 16
theorem meets_syncExchange_serve : (server.arrived (some 3) [kindSync]).1.isSome = true ∧ server.on TB_CTL_SERVE = true
    ∧ (after (.syncRequestReceive 3 1 2) server).out.getLast? = some (server.flitOf 3 syncAns 0)
    ∧ (after (.syncRequestReceive 3 1 2) server).out.length = 2 ∧ (poke server TB_CTL_SERVE 0).on TB_CTL_SERVE = false
    ∧ (after (.syncRequestReceive 3 1 2) (poke server TB_CTL_SERVE 0)).out.length = 1 := by decide +kernel
theorem meets_portReady_serve : server.portReady 3 syncAns 0 := by
  simp only [State.portReady]; decide +kernel
/-- A response to a request of t1 = 1000 ticks: the peer is 50 ticks ahead over a delay of 10 each way. -/
def answered (st hops dom : Nat) (sync : Bool) (ahead : Nat := 50) : State :=
  let s := withTbS (pokes linked [(TB_STATUS_STATE, st, 0, 0), (TB_SYNC_STEP_THRESH, 100, 0, 0), (TB_SYNC_PERIOD, 1, 0, 0)]) fun t =>
    { t with count := 1030, request := some (some 65536000, 3, 4) }
  arrived s [came 3 (mkFrame 1 9 kindSyncResp 0 0 0 0 none 0
    [syncPayload (BitVec.ofNat 64 ((1010 + ahead) * 2 ^ 16)) (BitVec.ofNat 64 ((1012 + ahead) * 2 ^ 16)) dom hops sync 0]) 1022]
def taken (s : State) (replayed : Bool := false) : State := after (.syncResponseReceive 3 0 replayed) s
/-- R221: d = 10 ticks and θ = −50 ticks; FREE_RUN, ACQUIRE and a wide LOCKED step by 50; a near LOCKED slews. -/
theorem meets_syncExchange_response : ((answered 1 253 4 true).arrived (some 3) [kindSyncResp]).1.isSome = true
    ∧ (taken (answered 1 253 4 true)).fld TB_DELAY_D = 10 * 2 ^ 16 ∧ (taken (answered 1 253 4 true)).fld TB_OFFSET_THETA = 2 ^ 48 - 50 * 2 ^ 16
    ∧ (taken (answered 1 253 4 true)).units.tb.count = 1080 ∧ (taken (answered 1 253 4 true)).fld TB_STATUS_STATE = 2
    ∧ (taken (answered 1 253 4 true)).fld TB_STATUS_HOPS = 254
    ∧ (taken (answered 2 0 4 true)).units.tb.count = 1080 ∧ (taken (answered 3 0 4 true 101)).units.tb.count = 1131
    ∧ (taken (answered 3 0 4 true 101)).fld TB_STATUS_STATE = 2
    ∧ (taken (answered 3 0 4 true)).units.tb.count = 1030 ∧ (taken (answered 3 0 4 true)).fld TB_STATUS_STATE = 3
    ∧ (taken (answered 3 0 4 true)).fld TB_FREQ_FREQ = 109951163
    ∧ (answered 1 253 4 true).upPort.isSome = true ∧ (taken (answered 4 0 4 true 101)).fld TB_STATUS_STATE = 2
    ∧ (taken (withTbS (answered 2 0 4 true 4) fun t => { t with good := 7 })).fld TB_STATUS_STATE = 3
    ∧ (taken (withTbS (answered 2 0 4 true 5) fun t => { t with good := 7 })).fld TB_STATUS_STATE = 2
    ∧ (taken (withTbS (poke (answered 3 0 4 true) TB_STATUS_SETTLING 1) fun t => { t with settled := 15 })).on TB_STATUS_SETTLING = false
    ∧ (taken (answered 3 0 4 true 0)).fld TB_FREQ_FREQ = 0 := by decide +kernel
theorem meets_syncExchange_invalid : (taken (answered 1 254 4 true)).units.tb.count = 1030 ∧ (taken (answered 1 0 5 true)).units.tb.count = 1030
    ∧ (taken (answered 1 0 4 false)).units.tb.missed = 1 ∧ (taken (withTbS (answered 2 0 4 false) fun t => { t with good := 7 })).units.tb.good = 0 ∧ (taken (answered 1 0 4 true) true).fld TB_OFFSET_THETA = 0 := by decide +kernel
def missing (n : Nat) (alt : Bool) (st : Nat := 3) : State :=
  withTbS (pokes linked [(TB_SYNC_ALT_VALID, if alt then 1 else 0, 0, 0), (TB_SYNC_ALT_PORT, 5, 0, 0), (TB_STATUS_STATE, st, 0, 0)])
    fun t => { t with missed := n, request := some (some 0, 3, 4) }
theorem meets_syncExchange_missed : (missing 3 true).units.tb.request.isSome = true ∧ (missing 3 true).fld TB_STATUS_UP_IN_USE = 1
    ∧ ((missing 3 true).altPort.isSome = true ∧ (missing 3 true).units.tb.altLost = false ∧ (missing 3 false).altPort.isSome = false)
    ∧ (after .syncResponseMissed (missing 3 true)).on TB_STATUS_SETTLING = true
    ∧ (after .syncResponseMissed (missing 2 true)).units.tb.missed = 3
    ∧ (after .syncResponseMissed (missing 3 true)).fld TB_STATUS_UP_IN_USE = 2
    ∧ (after .syncResponseMissed (missing 3 true)).on TB_EVENT_PORT_SWITCH = true
    ∧ (after .syncResponseMissed (missing 3 false)).fld TB_STATUS_STATE = 4 := by decide +kernel

/-! ### The link layer -/

def port0 (st : Nat) (u : PortUnit := {}) : State :=
  withPorts (pokes tbSt [(LINK_STATUS_STATE, st, 3, 0), (LINK_CTL_EN, 1, 3, 0), (COLL_VL_VALID_VALID, 3, 0, 0),
    (LINK_STATUS_LANES_UP, 0x0f, 3, 0), (LINK_CREDIT_VL_RESERVE, 100, 3, 0)]) [(3, u)]
theorem meets_linkTraining : (port0 0).running = true ∧ (port0 0).writable 0 LINK_CTL_EN 3 = true ∧ (port0 0).dom (portDomain 3) = 3
    ∧ (after (.linkEnable 0 3 1) (port0 0)).fld LINK_STATUS_STATE 3 = 1 ∧ (after (.retrain 0 3 3) (port0 0)).fld LINK_STATUS_STATE 3 = 1
    ∧ ((after (.retrain 0 3 3) (port0 0)).port 3).retraining = true
    ∧ (after (.linkEnable 0 3 0) (port0 2)).fld LINK_STATUS_LANES_UP 3 = 0
    ∧ (after (.linkEnable 0 3 0) (port0 2)).fld LINK_STATUS_STATE 3 = 0 ∧ (after (.linkEnable 0 3 0) (port0 3)).fld LINK_STATUS_STATE 3 = 5
    ∧ (after (.linkEnable 0 3 0) (port0 5)).fld LINK_STATUS_STATE 3 = 5 ∧ (after (.retrain 0 3 3) (port0 1)).fld LINK_STATUS_STATE 3 = 5
    ∧ (after (.retrain 0 3 3) (port0 1)).on LINK_CTL_RETRAIN 3 = true := by decide +kernel
def lanes (up tried : Nat) : State := poke (port0 1 { tried := BitVec.ofNat 8 tried }) LINK_STATUS_LANES_UP up 3
theorem meets_linkTraining_lanes : bit ((lanes 0x7f 0x7f).port 3).tried.toNat 7 = false
    ∧ (after (.laneTrained 3 7 true) (lanes 0x7f 0x7f)).fld LINK_STATUS_STATE 3 = 2
    ∧ (after (.laneTrained 3 7 false) (lanes 0 0x7f)).fld LINK_STATUS_STATE 3 = 5
    ∧ (after (.laneTrained 3 0 true) (lanes 0 0)).fld LINK_STATUS_STATE 3 = 1
    ∧ (after (.laneTrained 3 0 true) (lanes 0 0)).fld LINK_STATUS_LANES_UP 3 = 1 := by decide +kernel
theorem meets_linkTraining_align : chooseLanes ((port0 2).fld LINK_STATUS_LANES_UP 3) 8 = some 0x0f ∧ (port0 2).minLanes 3 ≤ lanesIn 0x0f
    ∧ lanesIn 0x0f < (poke (port0 2) LINK_CTL_MIN_WIDTH 3 3).minLanes 3
    ∧ (after (.portAligned 3 true 5 6) (port0 2)).out.head? = some (.peerInfo 3 1 0x0f 5 6)
    ∧ ((port0 2).port 3).told = false ∧ (port0 2).moduleId ≠ 0xffff ∧ ((port0 2).port 3).aligned = false
    ∧ (after (.portAligned 3 true 5 6) (port0 2)).fld LINK_STATUS_WIDTH 3 = 4
    ∧ (after (.portAligned 3 true 5 6) (poke (port0 2) LINK_CTL_MIN_WIDTH 3 3)).fld LINK_STATUS_STATE 3 = 5 := by decide +kernel
def told (own : Nat) : State := pokes (port0 2 { aligned := true, told := true, retraining := true }) [(LINK_STATUS_LANE_SET, own, 3, 0)]
theorem meets_linkTraining_peer : ((told 0x0f).port 3).told = true
    ∧ (after (.peerInfoReceive 3 9 4 0xf0 5 6) (told 0x0f)).fld LINK_STATUS_STATE 3 = 3
    ∧ (after (.peerInfoReceive 3 9 4 0xf0 5 6) (told 0x0f)).fld LINK_STATUS_LANE_SET 3 = 0x0f
    ∧ agreeLanes 0x0f 0xf0 (decide (1 < 0)) = 0xf0 ∧ agreeLanes 0x0f 3 (decide (1 < 0)) = 3 ∧ agreeLanes 0x0f 0xf0 (decide (1 < 9)) = 0x0f
    ∧ laneSets.contains 0xf0 = true ∧ laneSets.contains 7 = false
    ∧ (after (.peerInfoReceive 3 1 4 0xf0 5 6) (told 0x0f)).fld LINK_STATUS_STATE 3 = 5
    ∧ (after (.peerInfoReceive 3 9 4 0xf0 5 6) (told 0x0f)).fld LINK_CREDIT_RESERVE_USED 3 = 100
    ∧ (after (.peerInfoReceive 3 9 4 0xf0 5 6) (told 0x0f)).fld LINK_CREDIT_POOL 3 = 6016 - 400
    ∧ (after (.peerInfoReceive 3 9 4 0xf0 5 6) (told 0x0f)).on LINK_EVENT_RETRAINED 3 = true := by decide +kernel
theorem meets_linkTraining_idle : ((port0 5 { idle := true }).port 3).idle = true
    ∧ (after (.portIdleEnd 3) (port0 5 { idle := true })).fld LINK_STATUS_STATE 3 = 1
    ∧ (after (.portIdleEnd 3) (poke (port0 5 { idle := true }) LINK_CTL_PMD 2 3)).fld LINK_STATUS_STATE 3 = 0
    ∧ (after (.portIdleEnd 3) (poke (port0 5 { idle := true }) LINK_CTL_EN 0 3)).fld LINK_STATUS_STATE 3 = 0 := by decide +kernel

/-- A NOTICE frame of two chunks in one flit of VL0, in order. -/
def notice : Frame := (mkFrame 1 9 kindNotice 0 0 0 0 none 5 []).withTag 77
def oneFlit : Flit := mkFlit { seq := 0, ack := 4095, type := 1, first := true } notice.chunks
set_option maxRecDepth 1000000 in
theorem meets_linkTraffic : linked.live 3 = true ∧ crcOk oneFlit = true ∧ crcOk (oneFlit ^^^ 1) = false
    ∧ (hdrOf oneFlit).seq = ((linked.port 3).seen + 1) % 4096 ∧ (hdrOf oneFlit).first = true ∧ (hdrOf oneFlit).type = 1
    ∧ mapGet (fun _ => []) (linked.port 3).partials (laneKey (hdrOf oneFlit).vl (hdrOf oneFlit).cls) = []
    ∧ chunksNeeded ((List.range 15).map (chunkOf oneFlit)) = 2
    ∧ (after (.flitReceive 3 oneFlit false) linked).units.fab.rx = [came 3 notice]
    ∧ ((after (.flitReceive 3 (oneFlit ^^^ 1) false) linked).port 3).gap = true
    ∧ (after (.flitReceive 3 oneFlit true) linked).out.length = 1
    ∧ (after (.flitReceive 3 oneFlit true) (after (.flitReceive 3 oneFlit true) linked)).out.length = 1 := by decide +kernel
def unacked (storm : Nat) : State := withPorts linked [(3, { replay := [oneFlit], storm := storm })]
theorem meets_linkTraffic_replay : ((unacked 14).port 3).replay ≠ [] ∧ (after (.replayTimeout 3) (unacked 14)).out = [.flit 3 oneFlit]
    ∧ (after (.replayTimeout 3) (unacked 14)).fld LINK_RETRY_REPLAYS 3 = 1
    ∧ (after (.replayTimeout 3) (unacked 15)).fld LINK_STATUS_STATE 3 = 5
    ∧ (after (.replayTimeout 3) (unacked 15)).on LINK_EVENT_REPLAY_STORM 3 = true := by decide +kernel
theorem meets_linkTraffic_lanes : bit ((unacked 0).fld LINK_STATUS_LANE_SET 3) 2 = true ∧ chooseLanes (255 - 4) 8 = some 0xf0
    ∧ (unacked 0).on LINK_CTL_AUTO_DEGRADE 3 = true ∧ (unacked 0).minLanes 3 ≤ lanesIn 0xf0
    ∧ (after (.laneLockLoss 3 2) (poke (unacked 0) LINK_CTL_MIN_WIDTH 3 3)).fld LINK_STATUS_STATE 3 = 5
    ∧ (after (.laneLockLoss 3 2) (poke (unacked 0) LINK_STATUS_LANES_UP 4 3)).fld LINK_STATUS_STATE 3 = 5 := by decide +kernel
theorem meets_linkTraffic_window : (after (.degradeWindowEnd 3 [0, 1, 0, 0, 0, 0, 0, 0] (List.replicate 8 0)) linked).fld LINK_LANE_CE_COUNT 3 1 = 1
    ∧ (after (.degradeWindowEnd 3 (List.replicate 8 0) (List.replicate 8 0)) linked).fld LINK_STATUS_STATE 3 = 3
    ∧ (linked.port 3).bad.toNat &&& linked.fld LINK_STATUS_LANE_SET 3 = 0
    ∧ ((after (.degradeWindowEnd 3 (List.replicate 7 0 ++ [0xffffffff]) (List.replicate 8 0))
        (poke linked LINK_CTL_AUTO_DEGRADE 0 3)).port 3).bad.getLsbD 7 = true := by
  decide +kernel
def part : State := withPorts linked [(3, { partials := [(2, notice.chunks.take 1)] })]
theorem meets_linkTraffic_partial : 2 = laneKey 1 0 ∧ mapGet (fun _ => []) (part.port 3).partials 2 ≠ []
    ∧ (after (.reasmTimeout 3 1 false) part).fld LINK_REASM_DROP_COUNT 3 = 1
    ∧ mapGet (fun _ => []) ((after (.reasmTimeout 3 1 false) part).port 3).partials 2 = [] := by decide +kernel

/-! ### Frames -/

/-- Module 1 with port 3 ACTIVE, lanes 1 and 2 of atelier 1, and a route to module 9 by port 3. -/
def fabSt : State :=
  let s := withPorts (pokes atl [(COLL_ID_MODULE, 1, 0, 0), (LINK_STATUS_STATE, 3, 3, 0), (COLL_ROUTE_CTL_TTL, 16, 0, 0),
    (COLL_VL_VALID_VALID, 3, 0, 0), (COLL_VL_OWNER_OWNER.whole, 0x11, 0, 0), (PWR_DSTATE.whole, 0x3333333333333333, 0, 26)])
    [(3, { credits := [(0, 8), (2, 8), (3, 8)] })]
  { s with routes := [(9, 2 ^ 63 + 2 ^ 3)] }
def rx (s : State) (l : List Arrived) : State := { s with units := { s.units with fab := { s.units.fab with rx := l } } }
def frameAt (p : Nat) (f : Frame) : Arrived := { port := some p, frame := f }
def passing : Frame := (mkFrame 9 5 kindWrite 1 0 64 0 none 0 [7]).withTtl 4
set_option maxRecDepth 1000000 in
theorem meets_framesPass_forward : fabSt.running = true ∧ passing.dst ≠ fabSt.moduleId ∧ passing.kind < kindSync
    ∧ (after (.frameForward 3) (rx fabSt [frameAt 3 passing])).units.fab.rx = []
    ∧ (after (.frameForward 3) (rx fabSt [frameAt 3 passing])).out.head? = some (fabSt.flitOf 3 passing 0) := by decide +kernel
set_option maxRecDepth 1000000 in
theorem meets_leavesBy : fabSt.leavesBy passing 3 0 := by
  simp only [State.leavesBy, State.portReady]; decide +kernel
/-- Two granules for tile 0's palette, of the last the first two bytes. -/
def writing (vl : Nat) : Frame := (mkFrame 1 9 kindWrite vl 0 (64 * (palFirst 0 + 4)) 0 none 3 [0x11, 0x2222]).withTtl 4
set_option maxRecDepth 1000000 in
theorem meets_framesPass_write : (extractFirst (fun x : Arrived => x.port = some 3 && x.frame.dst = fabSt.moduleId && x.frame.kind = kindWrite
        && !(rx fabSt [frameAt 3 (writing 2)]).heldUp x) [frameAt 3 (writing 2)]) = (some (frameAt 3 (writing 2)), [])
    ∧ (rx fabSt [frameAt 3 (writing 2)]).settledBanks = true ∧ (rx fabSt [frameAt 3 (writing 2)]).units.hbm.repairing = []
    ∧ (writing 2).group = 0 ∧ fabSt.laneOwner (writing 2).vl = some 1 ∧ fabSt.laneOwner (writing 3).vl = none
    ∧ ((writeParts (writing 2)).all fun r => fabSt.allowed 1 (64 * r.g) (64 * r.g + 63) && fabSt.meets none r.g == .ok
        && fabSt.writesInto r.g r.mask && (writing 2).ac.isNone) = true
    ∧ (after (.writeFrameReceive (some 3)) (rx fabSt [frameAt 3 (writing 2)])).byte (64 * (palFirst 0 + 4)) = 0x11
    ∧ (after (.writeFrameReceive (some 3)) (rx fabSt [frameAt 3 (writing 2)])).byte (64 * (palFirst 0 + 5) + 1) = 0x22
    ∧ (after (.writeFrameReceive (some 3)) (rx fabSt [frameAt 3 (writing 2)])).out.head?
        = some (fabSt.flitOf 3 (fabSt.ackOf (writing 2) .ok 0) 0)
    ∧ (after (.writeFrameReceive (some 3)) (rx fabSt [frameAt 3 (writing 3)])).mem = fabSt.mem
    ∧ (after (.writeFrameReceive (some 3)) (rx fabSt [frameAt 3 (writing 3)])).out.head?
        = some (fabSt.flitOf 3 (fabSt.ackOf (writing 3) .accessDenied 3) 0) := by decide +kernel
set_option maxRecDepth 1000000 in
theorem meets_leavesBy_ack : fabSt.leavesBy (fabSt.ackOf (writing 2) .ok 0) 3 0 ∧ fabSt.leavesBy (fabSt.ackOf (writing 3) .accessDenied 3) 3 0 := by
  simp only [State.leavesBy, State.portReady]; decide +kernel

/-- A descriptor with one frame out, of tag 77. -/
def sender : Slot := { busy 7 0x50 (.coll 0) (desc 0x40 0 []) with phase := .done, outstanding := 1 }
def flying : Flight := ⟨77, ⟨7, some 1, 0, 0, passing⟩⟩
def flight (l : List Arrived := []) : State :=
  let s := rx (slots (pokes fabSt [(RING_TXN_IN_USE, 3, 0, 0), (ATL_TAGS_IN_USE_COUNT, 1, 1, 0)]) [sender]) l
  { s with units := { s.units with fab := { s.units.fab with flights := [flying] } } }
def ackFrame (k st : Nat) : Frame := (mkFrame 1 9 k 0 0 0 0 none st []).withTag 77
set_option maxRecDepth 1000000 in
theorem meets_framesArrive_answer : (flight []).slot 7 = some sender ∧ (flight []).units.fab.waiting = []
    ∧ ((flight []).units.fab.flights.find? fun x => x.tag = 77) = some flying
    ∧ (flight [frameAt 3 (ackFrame kindAck 0)]).arrived (some 3) [kindAck] = (some (frameAt 3 (ackFrame kindAck 0)), [])
    ∧ (after (.ackReceive (some 3)) (flight [frameAt 3 (ackFrame kindAck 0)])).fld RING_TXN_IN_USE = 2
    ∧ (after (.ackReceive (some 3)) (flight [frameAt 3 (ackFrame kindAck 0)])).units.fab.flights = []
    ∧ ((after (.ackReceive (some 3)) (flight [frameAt 3 (ackFrame kindAck 0)])).slots.map fun x => (x.outstanding, x.arose)) = [(0, [])]
    ∧ ((after (.noticeReceive (some 3)) (flight [frameAt 3 (ackFrame kindNotice Status.frameTimeout.code)])).slots.map (·.has .frameTimeout)) = [true]
    ∧ ((after (.ackTimeout 77) (flight [])).slots.map fun x => (x.outstanding, x.has .frameTimeout)) = [(0, true)] := by decide +kernel

/-- Group 40 of modules 1 and 9 in slot 2 of engine 0, at generation 6; its next collective is number 5. -/
def grouped : State :=
  let s := pokes fabSt [(COLL_GROUP_ID_VALID, 1, 0, 2), (COLL_GROUP_ID_GROUP, 40, 0, 2), (COLL_GROUP_ID_GEN, 6, 0, 2),
    (COLL_GROUP_ID_ATELIER, 1, 0, 2), (COLL_GROUP_ID_VL, 1, 0, 2), (COLL_GROUP_ID_SEQ, 5, 0, 2), (COLL_GROUP_SIZE_COUNT, 2, 0, 2)]
  { s with units := { s.units with fab := { s.units.fab with members := [(2, [1, 9])] } } }
def gatherSig : Nat := 0x43 * 2 ^ 24 + 0 * 2 ^ 19 + 4
/-- Units 2 and 3 of a COLL_ALL_GATHER of 4 values, from module 9. -/
def gathered : Frame := (mkFrame 1 9 kindGather 1 6 2 40 none (5 * 2 ^ 32 + gatherSig) [0x4000000040000000]).withTtl 4
def incoming (l : List Coll) (ds : List Slot) : State :=
  let s := slots (rx grouped [frameAt 3 gathered]) ds
  { s with units := { s.units with fab := { s.units.fab with colls := l } } }
set_option maxRecDepth 1000000 in
theorem meets_framesArrive_staged : (incoming [] []).genCheck gathered = .accept 0 2 ∧ (incoming [] []).refusal 0 gathered = none
    ∧ (incoming [] []).collFor 0 gathered = none ∧ 0 ≤ sdiff gathered.collSeq ((incoming [] []).fld COLL_GROUP_ID_SEQ 0 2) 16
    ∧ (incoming [] []).stageRoom (frameAt 3 gathered) = true
    ∧ (after (.collFrameReceive (some 3) 2) (incoming [] [])).units.fab.staged = [(0, { frameAt 3 gathered with contrib := 2 })] := by
  decide +kernel
/-- Its descriptor, with DST in tile 0's palette. -/
def gatherSlot : Slot := busy 7 0x50 (.coll 0) (desc 0x43 0 [0, 0, 40 * 2 ^ 24])
  [tensorRec 0 0 [(2, 0)], tensorRec 0 (64 * (palFirst 0 + 8)) [(4, 0)]]
def gatherColl : Coll := { eng := 0, slot := 7, group := 40, gen := 6, seq := 5, sig := gatherSig, members := [1, 9], rank := 0,
                           count := 4, terms := [0, 0], owe := 0 }
set_option maxRecDepth 1000000 in
theorem meets_framesArrive_stored : (incoming [gatherColl] [gatherSlot]).collFor 0 gathered = some gatherColl
    ∧ (incoming [gatherColl] [gatherSlot]).coll 7 = some gatherColl ∧ (incoming [gatherColl] [gatherSlot]).units.hbm.repairing = []
    ∧ (incoming [gatherColl] [gatherSlot]).slot 7 = some gatherSlot ∧ gathered.sig = gatherColl.sig ∧ sigTree gatherColl.sig = false
    ∧ (frameUnits gatherColl gathered) = (2, [0x40000000, 0x40000000])
    ∧ ((after (.collFrameReceive (some 3) 2) (incoming [gatherColl] [gatherSlot])).units.fab.colls.map fun c => (c.held, c.total)) = [([3, 2], some 2)] := by
  decide +kernel
def memberFrame (gen : Nat) (ids : List Nat) : Frame :=
  mkFrame 1 9 kindMembership 0 gen 0 40 none (ids.length * 2 ^ 48 + 70 * 2 ^ 32) (packRun 16 ids)
set_option maxRecDepth 1000000 in
theorem meets_framesArrive_membership : grouped.groupAt 40 = some (0, 2) ∧ grouped.units.hbm.repairing = []
    ∧ (rx grouped [frameAt 3 (memberFrame 7 [1, 9, 12])]).arrived (some 3) [kindMembership] = (some (frameAt 3 (memberFrame 7 [1, 9, 12])), [])
    ∧ (memberFrame 7 [1, 9, 12]).kw / 2 ^ 48 % 2 ^ 13 = 3 ∧ 0 < sdiff 7 (grouped.genOf 0 2) 16 ∧ sdiff 5 (grouped.genOf 0 2) 16 ≤ 0
    ∧ (after (.membershipFrameReceive (some 3)) (rx grouped [frameAt 3 (memberFrame 7 [1, 9, 12])])).membersOf 0 2 = [1, 9, 12]
    ∧ (after (.membershipFrameReceive (some 3)) (rx grouped [frameAt 3 (memberFrame 7 [1, 9, 12])])).fld COLL_GROUP_ID_SEQ 0 2 = 70
    ∧ (after (.membershipFrameReceive (some 3)) (rx grouped [frameAt 3 (memberFrame 5 [1, 12])])).membersOf 0 2 = [1, 9]
    ∧ (after (.membershipFrameReceive (some 3)) (rx grouped [frameAt 3 (memberFrame 6 [1, 9])])).membersOf 0 2 = [1, 9] := by
  decide +kernel
def holding : State :=
  { grouped with units := { grouped.units with fab := { grouped.units.fab with held := [(0, frameAt 3 gathered)], colls := [gatherColl] } } }
set_option maxRecDepth 1000000 in
theorem meets_framesArrive_held : extractFirst (fun x : Nat × Arrived => x.1 = 0) holding.units.fab.held = (some (0, frameAt 3 gathered), [])
    ∧ holding.groupSlot 0 40 = some 2 ∧ (after (.genHoldExpire 0) holding).fld COLL_GEN_STALE_COUNT_COUNT 0 = 1
    ∧ (after (.genHoldExpire 0) holding).units.fab.held = [] ∧ holding.coll 7 = some gatherColl
    ∧ (poke holding COLL_SILENT_THRESH_TICKS 9 0).fld COLL_SILENT_THRESH_TICKS 0 ≠ 0
    ∧ (after (.silentThreshold 0 7 9) (poke holding COLL_SILENT_THRESH_TICKS 9 0)).fld COLL_SILENT_LOG_MODULE 0 = 9
    ∧ (after (.silentThreshold 0 7 9) (after (.silentThreshold 0 7 9) (poke holding COLL_SILENT_THRESH_TICKS 9 0))).on COLL_SILENT_LOG_OVERRUN 0 = true := by
  decide +kernel

/-! ### Sends and collectives -/

/-- FAB_SEND of two INT8 values to module 9. -/
def sendSlot : Slot := busy 7 0x50 (.coll 0) (desc 0x40 0 [0x1000, 0x2000, 9 * 2 ^ 48 + 1 * 2 ^ 31])
  [tensorRec 8 (64 * (palFirst 0 + 8)) [(2, 0)], tensorRec 8 (64 * 5) [(2, 0)]]
set_option maxRecDepth 1000000 in
theorem meets_collectives_send : (slots fabSt [sendSlot]).units.hbm.repairing = [] ∧ (slots fabSt [sendSlot]).collRuns 0 0x40 sendSlot = true ∧ (slots fabSt [sendSlot]).healthy = true
    ∧ ((after (.fabSend 7) (slots fabSt [sendSlot])).sendings.map fun x => (x.slot, x.frame.kind, x.frame.dst, x.frame.src, x.frame.vl))
      = [(7, kindWrite, 9, 1, 1)]
    ∧ ((after (.fabSend 7) (slots fabSt [sendSlot])).slots.map (·.phase)) = [.done] := by decide +kernel
/-- COLL_DISPATCH of one token of one value to expert 0, at module 9; and a combine of one row whose tag names module 9. -/
def dispatchSlot : Slot := busy 7 0x50 (.coll 0)
  (desc 0x45 0 [0x1000, 0x2000, 1 * 2 ^ 48 + 0x40000, 0x80000, 0,
    8 * 2 ^ 59 + 8 * 2 ^ 54 + 40 * 2 ^ 31])
  [tensorRec 8 (64 * (palFirst 0 + 8)) [(1, 0), (1, 1)], tensorRec 10 (64 * (palFirst 0 + 9)) [(1, 0), (1, 1)], 0,
   9 * 2 ^ 48 + 0x4000 + 0x8000 * 2 ^ 64 + (1 * 2 ^ 40 + 1 * 2 ^ 24) * 2 ^ 128]
def combineSlot : Slot := busy 8 0x50 (.coll 0) (desc 0x46 0 [0x1000, 64 * (palFirst 0 + 10), 1, 8 * 2 ^ 59 + 40 * 2 ^ 36])
  [tensorRec 8 (64 * (palFirst 0 + 8)) [(1, 0), (1, 1)]]
def expertSt (d : Slot) : State :=
  (Eff.granule (palFirst 0 + 10) (9 * 2 ^ 48 + 64) fullMask).apply (slots grouped [d])
set_option maxRecDepth 1000000 in
theorem meets_collectives_dispatch : (expertSt dispatchSlot).collRuns 0 0x45 dispatchSlot = true ∧ body dispatchSlot.words 5 42 31 = 40
    ∧ (expertSt dispatchSlot).groupSlot 0 40 = some 2
    ∧ ((after (.collDispatch 7) (expertSt dispatchSlot)).sendings.map fun x => (x.frame.kind, x.frame.dst, x.frame.group, x.frame.addr))
      = [(kindWrite, 9, 40, 0x8000), (kindWrite, 9, 40, 0x4000)] := by decide +kernel
set_option maxRecDepth 1000000 in
theorem meets_collectives_combine : (expertSt combineSlot).collRuns 0 0x46 combineSlot = true ∧ body combineSlot.words 3 47 36 = 40
    ∧ rowType (body combineSlot.words 3 63 59) = some .int8 ∧ (expertSt combineSlot).healthy = true
    ∧ ((after (.collCombine 8) (expertSt combineSlot)).sendings.map fun x => (x.frame.kind, x.frame.dst, x.frame.group, x.frame.addr))
      = [(kindWrite, 9, 40, 64)] := by decide +kernel
/-- A collective of two FP32 values on the group. -/
def collSlot (op ty : Nat) (n m : Nat) : Slot := busy 7 0x50 (.coll 0) (desc op 0 [0x1000, 0x2000, 40 * 2 ^ 24])
  [tensorRec ty (64 * (palFirst 0 + 8)) [(n, 0)], tensorRec ty (64 * (palFirst 0 + 12)) [(m, 0)]]
def collAt (d : Slot) : State := slots grouped [d]
def begun (c : Instr) (d : Slot) : List (Nat × Nat × Nat) :=
  (after c (collAt d)).units.fab.colls.map fun x => (x.slot, x.seq, x.group)
set_option maxRecDepth 1000000 in
theorem meets_collectives : ([(0x41, 2, 2), (0x42, 2, 1), (0x43, 1, 2), (0x44, 2, 2)].all fun x =>
      (collAt (collSlot x.1 0 x.2.1 x.2.2)).collRuns 0 x.1 (collSlot x.1 0 x.2.1 x.2.2)
      && (collAt (collSlot x.1 0 x.2.1 x.2.2)).groupSlot 0 (body (collSlot x.1 0 x.2.1 x.2.2).words 2 35 24) == some 2
      && (collAt (collSlot x.1 0 x.2.1 x.2.2)).coll 7 == none) = true
    ∧ begun (.collAllReduce 7) (collSlot 0x41 0 2 2) = [(7, 5, 40)]
    ∧ begun (.collReduceScatter 7) (collSlot 0x42 0 2 1) = [(7, 5, 40)]
    ∧ begun (.collAllGather 7) (collSlot 0x43 0 1 2) = [(7, 5, 40)]
    ∧ begun (.collVoteSum 7) (collSlot 0x44 8 2 2) = [(7, 5, 40)]
    ∧ (after (.collAllReduce 7) (collAt (collSlot 0x41 0 2 2))).fld COLL_GROUP_ID_SEQ 0 2 = 6
    ∧ (poke (collAt (collSlot 0x41 0 2 2)) COLL_GROUP_ID_SEQ 65535 0 2).fld COLL_GROUP_ID_SEQ 0 2 = 65535
    ∧ (after (.collAllReduce 7) (poke (collAt (collSlot 0x41 0 2 2)) COLL_GROUP_ID_SEQ 65535 0 2)).fld COLL_GROUP_ID_SEQ 0 2 = 0 := by
  decide +kernel

/-- GROUP_SET of group 40 or 41, with a list of modules 1, 9 and 12. -/
def setSlot (mode g gen : Nat) : Slot :=
  busy 7 0x50 (.coll 0) (desc 0x47 0 [0x1000, gen * 2 ^ 48 + g * 2 ^ 36 + 3 * 2 ^ 23 + mode * 2 ^ 21 + 1 * 2 ^ 16 + 8])
    [1 + 9 * 2 ^ 16 + 12 * 2 ^ 32]
def setAt (mode g gen : Nat) : State := slots grouped [setSlot mode g gen]
set_option maxRecDepth 1000000 in
theorem meets_groupSet : ([(0, 41, 1), (0, 40, 7), (0, 40, 5), (1, 40, 7), (2, 40, 9)].all fun x =>
      (setAt x.1 x.2.1 x.2.2).collRuns 0 0x47 (setSlot x.1 x.2.1 x.2.2) && (setAt x.1 x.2.1 x.2.2).coll 7 == none) = true
    ∧ (setAt 0 41 1).units.hbm.repairing = [] ∧ (setAt 0 41 1).groupSlot 0 41 = none ∧ (firstBelow 64 fun n => !(setAt 0 41 1).on COLL_GROUP_ID_VALID 0 n) = some 0
    ∧ (setAt 0 40 7).compareGen 0 2 7 [1, 9, 12] = .fresh ∧ (setAt 0 40 5).compareGen 0 2 5 [1, 9, 12] = .stale
    ∧ (after (.groupSetLocal 7) (setAt 0 41 1)).membersOf 0 0 = [1, 9, 12] ∧ (after (.groupSetLocal 7) (setAt 0 41 1)).fld COLL_GROUP_ID_SEQ 0 0 = 8
    ∧ (after (.groupSetLocal 7) (setAt 0 40 7)).genOf 0 2 = 7 ∧ (after (.groupSetLocal 7) (setAt 0 40 7)).sendings = []
    ∧ ((after (.groupSetLocal 7) (setAt 0 40 5)).slots.map (·.has .genStale)) = [true]
    ∧ ((after (.groupSetDistribute 7) (setAt 1 40 7)).sendings.map fun x => (x.frame.kind, x.frame.dst)) = [(kindMembership, 9), (kindMembership, 12)]
    ∧ (after (.groupSetRemove 7) (setAt 2 40 9)).membersOf 0 2 = [] ∧ (after (.groupSetRemove 7) (setAt 2 40 9)).on COLL_GROUP_ID_VALID 0 2 = false := by
  decide +kernel

/-! ### Varnish dies -/

def withVar (s : State) (f : VarUnit → VarUnit) : State := { s with units := { s.units with var := f s.units.var } }
/-- A segment of one element at bytes 0, 64 and 128 of stack 0, under a program that takes the norm of W and stores SCALE. -/
def segEntry : Nat := 64 * 2 ^ 64 + 128 * 2 ^ 128 + 1 * 2 ^ 192
def progWords : List Nat := [0x1F * 2 ^ 26 + 0x10 * 2 ^ 16, 0x1E * 2 ^ 26 + 0x34 * 2 ^ 16]
def varWords (group : Nat := 0) : Descriptor := desc 0x50 0 [1 * 2 ^ 51, 0, 0, 7 * 2 ^ 16 + 1, group]
def varSlot (group : Nat := 0) : Slot := busy 7 0x40 (.die 0) (varWords group) [1, segEntry, 0, packWords progWords, 2, 0]
def varAt (l : List VarRun) (xs : List Exchange) (group : Nat := 0) : State :=
  withVar (poke (slots atl [varSlot group]) VAR_STEP_K 41 0) fun v => { v with runs := l, exchanges := xs }
def sums0 (code : Nat) : List Nat := code :: List.replicate 64 0
def counts0 : List Nat := 1 :: List.replicate 64 0
def rep (fault : Bool) : Report := ⟨0, 7, 41, fault, sums0 0x40800000, counts0⟩
def exch (fault : Bool) : Exchange := ⟨0, 7, 1, 0, [rep fault], none, []⟩
theorem meets_varUpdateSteps_pass1 : (varAt [] []).running = true ∧ (varAt [] []).units.hbm.repairing = [] ∧ (varAt [] []).slot 7 = some (varSlot)
    ∧ (varAt [] []).workingOp (.die 0) 0x50 = some (varSlot) ∧ (varAt [] []).units.var.runs = []
    ∧ ((after (.varUpdate 0) (varAt [] [])).units.var.runs.map fun x => (x.die, x.slot, x.phase, x.fault)) = [(0, 7, 1, false)]
    ∧ (varAt [] []).healthy = true := by decide +kernel
def inPass1 (group : Nat) : State := varAt [{ die := 0, slot := 7, sums := sums0 0x40800000, counts := counts0 }] [] group
theorem meets_varUpdateSteps_report : (inPass1 0).varRun 0 = some { die := 0, slot := 7, sums := sums0 0x40800000, counts := counts0 }
    ∧ normGroup (varWords 0) = 0 ∧ normGroup (varWords 40) = 40 ∧ (inPass1 40).groupAt 40 = none
    ∧ (after (.varPass1End 0) (inPass1 0)).units.var.exchanges = [exch false]
    ∧ ((after (.varPass1End 0) (inPass1 40)).slots.map fun x => (x.phase, x.has .genStale)) = [(.done, true)] := by decide +kernel
/-- After the report, and after the record. -/
def inPhase2 (fault rec : Bool) : State :=
  let s := varAt [{ die := 0, slot := 7, phase := 2, sums := sums0 0x40800000, counts := counts0, fault := fault }] [exch fault]
  if rec then after (.exchangeModuleRecord 0) s else s
theorem meets_varUpdateSteps_record : ((inPhase2 false false).units.var.exchanges.find? fun y => y.eng = 0) = some (exch false)
    ∧ (inPhase2 false false).allReported (exch false) = true
    ∧ ((after (.exchangeModuleRecord 0) (inPhase2 false false)).units.var.exchanges.map fun y => y.record.map recK) = [some 41] := by
  decide +kernel
def full (fault : Bool) : Exchange := { exch fault with record := some ((inPhase2 fault false).recordOf (exch fault)) }
theorem meets_varUpdateSteps_gather : ((inPhase2 false true).units.var.exchanges.find? fun y => y.eng = 0) = some (full false)
    ∧ (((inPhase2 false true).gatheredRecords (full false)).map fun rs => (rs.map fun q => (recUseq q.2, recK q.2), holdCause rs)) = some ([(7, 41)], none)
    ∧ (((inPhase2 true true).gatheredRecords (full true)).map fun rs => (rs.map fun q => recUseq q.2, (holdCause rs).isSome)) = some ([7], true) := by
  decide +kernel
theorem meets_varUpdateSteps_gathered : ((after (.exchangeGatherComplete 0) (inPhase2 false true)).units.var.runs.map (·.phase)) = [3]
    ∧ (after (.exchangeGatherComplete 0) (inPhase2 false true)).units.var.exchanges = [] := by decide +kernel
theorem meets_varUpdateSteps_held : (after (.exchangeGatherComplete 0) (inPhase2 true true)).on VAR_STATUS_HELD 0 = true
    ∧ ((after (.exchangeGatherComplete 0) (inPhase2 true true)).slots.map fun x => (x.phase, x.has .stepSkew)) = [(.done, true)] := by
  decide +kernel
def inPass2 : State := varAt [{ die := 0, slot := 7, phase := 3, scales := sums0 0x3f000000 }] []
theorem meets_varUpdateSteps_pass2 : inPass2.varRun 0 = some { die := 0, slot := 7, phase := 3, scales := sums0 0x3f000000 }
    ∧ inPass2.fixativeHolds 0 = false ∧ (after (.varPass2End 0) inPass2).fld VAR_STEP_K 0 = 42
    ∧ (after (.varPass2End 0) inPass2).byte 3 = 0x3f ∧ ((after (.varPass2End 0) inPass2).slots.map (·.phase)) = [.done]
    ∧ (after (.varPass2End 0) (poke inPass2 VAR_STEP_K (2 ^ 32 - 1) 0)).fld VAR_STEP_K 0 = 0 := by decide +kernel

def progSlot : Slot := busy 7 0x40 (.die 0) (desc 0x53 0 [2 * 2 ^ 50 + 3 * 2 ^ 48]) [packWords progWords]
def stateSlot (op : Nat) : Slot := busy 7 0x40 (.die 0) (desc 0x52 0 [op * 2 ^ 32 + (if op = 0 then 99 else 0)])
def heldDie (d : Slot) : State := pokes (slots atl [d]) [(VAR_STATUS_HELD, 1, 0, 0), (VAR_STEP_K, 41, 0, 0)]
theorem meets_varCommands : (heldDie progSlot).workingOp (.die 0) 0x53 = some progSlot
    ∧ mapGet (fun _ => []) (after (.varProgram 0) (heldDie progSlot)).units.var.progs 3 = progWords
    ∧ (after (.varProgram 0) (heldDie progSlot)).fld VAR_PROG_N3 0 = 2
    ∧ (∀ op : Fin 2, ((heldDie (stateSlot op)).slots.find? fun x => x.on = some (.die 0) && x.phase = .issued && opcodeOf x.words = 0x52
        && body x.words 0 32 32 = op.val) = some (stateSlot op))
    ∧ (after (.varStateSetStep 0) (heldDie (stateSlot 0))).fld VAR_STEP_K 0 = 99
    ∧ (after (.varStateSetStep 0) (heldDie (stateSlot 0))).on VAR_STATUS_HELD 0 = false
    ∧ (after (.varStateRelease 0) (heldDie (stateSlot 1))).fld VAR_STEP_K 0 = 41
    ∧ (after (.varStateRelease 0) (heldDie (stateSlot 1))).on VAR_STATUS_HELD 0 = false := by decide +kernel
/-- A push of one FP32 value of stack 0 into tile 0's palette. -/
def pushSlot : Slot := busy 7 0x40 (.die 0) (desc 0x51 0 [1 * 2 ^ 48 + 0x1000])
  [0x2000 + 0x3000 * 2 ^ 64, tensorRec 0 0 [(1, 0)], tensorRec 0 (paletteBase 0 + 256) [(1, 0)]]
def pushSt : State := { slots atl [pushSlot] with mem := [(3, 0x40)] }
theorem meets_varCommands_push : pushSt.engaged (.die 0) [0x51] pushSlot = true ∧ pushSt.healthy = true
    ∧ ((after (.varPush 0) pushSt).slots.map (·.phase)) = [.done] := by decide +kernel

/-! ### Stacks -/

def ppr (l : List (Nat × StackWait)) : State := { atl with units := { atl.units with hbm := { repairing := [0], waits := l } } }
def double : BitVec 576 := 3
def wr : Option (Granule × Granule) := some (7, 0xff)
theorem meets_stacksServe : stackOf (4096 : Nat) = some 0 ∧ (ppr []).units.hbm.repairing.contains 0 = true ∧ atl.units.hbm.repairing.contains 0 = false
    ∧ atl.meets none 64 = .ok ∧ atl.poisoned 64 = false ∧ atl.errors 64 = 0
    ∧ (after (.stackAccess 0 false none 4096 wr 0 true) (ppr [])).units.hbm.waits = [(0, ⟨false, none, 64, wr, true⟩)]
    ∧ (after (.stackAccess 0 false none 4096 wr 0 true) atl).byte 4096 = 7
    ∧ (ppr []).units.hbm.waits = [] ∧ (ppr []).units.hbm.reads = [] ∧ stackOf (64 * 64) = some 0 ∧ (after (.pprComplete 0) (ppr [])).units.hbm.repairing = []
    ∧ (after (.pprComplete 0) (ppr [(0, ⟨false, none, 64, wr, true⟩)])).byte 4096 = 7 := by decide +kernel
theorem meets_stacksServe_fail : atl.dieFailed 0 = false ∧ (after (.varDieFail 0) (poke atl RISK_CTL_EN 1)).fld RISK_SCORE_SCORE = 255
    ∧ (after (.varDieFail 0) atl).fld RISK_VAR_FAILED_DIES = 1 ∧ (after (.varDieFail 0) inPass2).units.var.runs = []
    ∧ ((after (.varDieFail 0) inPass2).slots.map fun x => (x.phase, x.has .eccUncorr)) = [(.done, true)] := by decide +kernel
theorem meets_stacksServe_uncorrectable : uncorrectable (atl.errors 64 ^^^ double) = true ∧ (wr.any fun w => w.2 = fullMask) = false := by
  decide +kernel

/-! ### The risk estimator and the fixative -/

def withFail (s : State) (f : FailUnit → FailUnit) : State := { s with units := { s.units with fail := f s.units.fail } }
def risky : State := withFail (pokes up [(RISK_CTL_EN, 1, 0, 0), (RISK_WEIGHT_W_CE, 256, 0, 0), (RISK_LEVELS_L1, 5, 0, 0),
  (RISK_LEVELS_L2, 50, 0, 0), (RISK_LEVELS_L3, 90, 0, 0)]) fun f => { f with ce := 60, hottest := some 400 }
theorem meets_riskWindow : risky.running = true ∧ risky.on RISK_CTL_EN = true ∧ (poke risky RISK_CTL_EN 0).on RISK_CTL_EN = false
    ∧ (after (.riskWindow 390) risky).fld RISK_SCORE_SCORE = 60 ∧ (after (.riskWindow 390) risky).fld RISK_SCORE_LEVEL = 2
    ∧ (after (.riskWindow 390) risky).fld RISK_INPUTS_TEMP = 0 ∧ (after (.riskWindow 410) risky).fld RISK_INPUTS_TEMP = 10
    ∧ (after (.riskWindow 410) (poke risky RISK_CTL_EN 0)).fld RISK_SCORE_SCORE = 0
    ∧ risky.writable 0 RISK_RNG_CHECK_ARMED = true
    ∧ (after (.rngCheckDisarm 0 4) (poke risky RISK_RNG_CHECK_ARMED 6)).fld RISK_RNG_CHECK_ARMED = 2 := by decide +kernel
def copyJob (step : Nat) (bad : Bool) : FixJob :=
  { id := 7, kind := 1, slot := some 7, step := step, k := 41, useq := 3, serial := 5, bytes := 640, arose := if bad then [(.eccUncorr, 0)] else [] }
def snapSlot (op : Nat) (b : List Nat) (recs : List Nat) : Slot := busy 7 0x60 .fixative (desc op 0 b) recs
def copying (step : Nat) (bad : Bool) : State :=
  withFail (poke (slots atl [snapSlot 0x60 [1] []]) RISK_BUDDY_MODULE 9) fun f => { f with jobs := [copyJob step bad] }
theorem meets_fixative_copy : (copying 1 false).units.fail.jobs = [copyJob 1 false] ∧ (copying 1 false).units.hbm.repairing = [] ∧ (copyJob 1 false).outstanding = 0
    ∧ ((after .copyStepAdvance (copying 1 false)).units.fail.jobs.map (·.step)) = [2]
    ∧ ((after .copyStepAdvance (copying 3 false)).units.fail.jobs.map (·.step)) = [4]
    ∧ (after .copyStepAdvance (copying 4 false)).units.fail.jobs = [] ∧ (after .copyStepAdvance (copying 4 false)).fld RISK_IMAGE_K = 41
    ∧ (after .copyStepAdvance (copying 4 false)).fld RISK_LAST_COPY_BYTES = 640
    ∧ ((after .copyStepAdvance (copying 4 false)).slots.map (·.phase)) = [.done]
    ∧ (after .copyStepAdvance (copying 2 true)).fld RISK_LAST_COPY_STATUS = Status.eccUncorr.code
    ∧ (after .copyStepAdvance (copying 2 true)).on RISK_EVENT_SNAP_FAIL = true := by decide +kernel
def snapSt (buddy : Nat) : State := poke (slots atl [snapSlot 0x60 [1] []]) RISK_BUDDY_MODULE buddy
theorem meets_fixative_snapshot : (snapSt 0xffff).units.hbm.repairing = [] ∧ (snapSt 0xffff).slot 7 = some (snapSlot 0x60 [1] []) ∧ (snapSt 0xffff).units.fail.jobs = []
    ∧ (snapSt 0xffff).fld RISK_MANIFEST_ENTRIES = 0 ∧ (snapSt 0xffff).fld RISK_BUDDY_MODULE = 0xffff
    ∧ (after (.fixSnapshot 7) (snapSt 0xffff)).fld RISK_LAST_COPY_CAUSE = 1
    ∧ ((after (.fixSnapshot 7) (snapSt 0xffff)).slots.map fun x => (x.phase, x.has .accessDenied)) = [(.done, true)] := by decide +kernel
def restSt (mode : Nat) (recs : List Nat) : State :=
  poke (slots atl [snapSlot 0x61 [9 * 2 ^ 48, 0, mode * 2 ^ 62 + 1 * 2 ^ 51] recs]) COLL_ID_MODULE 1
theorem meets_fixative_restore : (restSt 0 [0, 0]).units.hbm.repairing = [] ∧ (restSt 0 [0, 0]).restoring 7 0 = some (snapSlot 0x61 [9 * 2 ^ 48, 0, 1 * 2 ^ 51] [0, 0])
    ∧ ((restSt 1 [0, 0]).restoring 7 1).isSome = true ∧ ((restSt 2 [0, 0, 0]).restoring 7 2).isSome = true
    ∧ ((after (.fixRestoreServe 7) (restSt 2 [0, 0, 0])).slots.map (·.phase)) = [.done]
    ∧ ((after (.fixRestoreApply 7) (restSt 1 [0, 0])).slots.map (·.phase)) = [.done] := by decide +kernel

/-! ### Hosts and ateliers -/

def withHost (s : State) (f : HostUnit → HostUnit) : State := { s with units := { s.units with host := f s.units.host } }
/-- Atelier 1 in a state, with ring 0's group; its tile is split, and shared with atelier 2. -/
def ctlSt (st : Nat) (orphan : Nat := 0) : State :=
  pokes atl [(ATL_STATUS_STATE, st, 1, 0), (ATL_STATUS_ORPHANED, orphan, 1, 0), (ATL_CTL_SHARE_OK, 1, 1, 0), (MX_STATUS_SPLIT_ACTIVE, 1, 0, 0)]
theorem meets_atelierControl : (ctlSt 1).running = true ∧ (ctlSt 1).on CMC_STATUS_READY = true ∧ (ctlSt 1).exists 1 = true
    ∧ (ctlSt 1).owns 0 (some 1) = true ∧ (ctlSt 1).tileOwner 0 = some 1 ∧ (ctlSt 1).d3hot 0 = false
    ∧ split.rightHolder 0 = some 2
    ∧ (after (.lock 0 1 0x84) (ctlSt 1)).on ATL_CTL_LOCK 1 = true ∧ (after (.lock 0 1 0x84) (ctlSt 1)).on ATL_CTL_SHARE_OK 1 = true
    ∧ (after (.quiesce 0 1 0x98) (ctlSt 1)).fld ATL_STATUS_STATE 1 = 2 ∧ (after (.quiesce 0 1 0x98) (ctlSt 1)).parked 0 false = true
    ∧ (after (.release 0 1 0x90) (ctlSt 3)).fld ATL_STATUS_STATE 1 = 1 ∧ (after (.release 0 1 0x90) (ctlSt 3 1)).fld ATL_STATUS_STATE 1 = 3
    ∧ (after (.shareOkWrite 0 1 0) (ctlSt 1)).parked 0 false = true ∧ (after (.shareOkWrite 0 1 0) (ctlSt 1)).on ATL_CTL_SHARE_OK 1 = false := by
  decide +kernel
/-- The management port, which does not own atelier 1. -/
def mgmtSt : State := pokes (ctlSt 1) [(ATL_OWNER_PORT, 2, 1, 0)]
theorem meets_atelierControl_management : mgmtSt.owns 0 (some 1) = false ∧ mgmtSt.mgmtPort = 0 ∧ mgmtSt.exists 1 = true
    ∧ (after (.lock 0 1 4) mgmtSt).on ATL_CTL_LOCK 1 = true ∧ (after (.lock 0 1 4) mgmtSt).on ATL_CTL_SHARE_OK 1 = true := by decide +kernel
def draining (l : List Nat) : State := withHost (ctlSt 2) fun h => { h with draining := l }
theorem meets_atelierControl_done : (draining [1]).fld ATL_STATUS_STATE 1 = 2 ∧ (draining [1]).fld ATL_TAGS_IN_USE_COUNT 1 = 0
    ∧ (draining [1]).slots = [] ∧ (after (.quiesceDone 1) (draining [])).fld ATL_STATUS_STATE 1 = 3
    ∧ (after (.quiesceDone 1) (draining [1])).on RISK_STATUS_DRAINED = true
    ∧ (after (.quiesceDone 1) (draining [1, 2])).on RISK_STATUS_DRAINED = false := by decide +kernel
/-- Atelier 1 is the management atelier; H0's Bus Master Enable is set. -/
def lossSt : State := withHost (pokes (ctlSt 1) [(ATL_MGMT_VALID, 1, 0, 0), (ATL_MGMT_ATELIER, 1, 0, 0), (ATL_OWNER_PORT, 2, 1, 0),
  (HOST_STATUS_UP, 1, 2, 0)]) fun h => { h with config := [(1, 4), (2049, 4)] }
theorem meets_hostsAndAteliers_loss : lossSt.running = true ∧ lossSt.mgmtAtelier = some 1 ∧ lossSt.portOf 1 = 2 ∧ lossSt.mgmtPort = 2
    ∧ lossSt.busMaster 2 = true ∧ ([LossCause.linkDown, .hotReset, .flr, .bmeCleared].all fun c =>
        (after (.hostLoss 2 c) lossSt).on ATL_STATUS_ORPHANED 1 && (after (.hostLoss 2 c) lossSt).fld ATL_STATUS_STATE 1 == 2
        && (after (.hostLoss 2 c) lossSt).mgmtPort == 0) = true
    ∧ (after (.hostLoss 2 .linkDown) lossSt).on HOST_STATUS_UP 2 = false ∧ (after (.hostLoss 2 .bmeCleared) lossSt).busMaster 2 = false
    ∧ (after (.hostLoss 2 .flr) lossSt).on HOST_EVENT_FLR 2 = true ∧ (after (.atsInvalidate 2) lossSt).fld HOST_ATS_INVALIDATIONS 2 = 1 := by
  decide +kernel
def ownSt (st : Nat) : State := withHost (pokes (ctlSt st 1) [(HOST_STATUS_UP, 1, 2, 0), (ATL_CTL_LOCK, 1, 1, 0), (ATL_SHARE_RIGHT, 1, 0, 5),
  (ATL_SHARE_VALID, 1, 0, 5), (RING_STATE_STATE, 1, 0, 0)]) fun h => { h with config := [(2049, 4)] }
def adoptW (q : Nat) : Word := BitVec.ofNat 64 (2 ^ 63 + q * 16 + 1)
theorem meets_hostsAndAteliers_adopt : (ownSt 3).opened 0 ATL_ADOPT_GO = true ∧ (ownSt 3).exists 1 = true ∧ (ownSt 3).on HOST_STATUS_UP 2 = true
    ∧ (ownSt 3).busMaster 2 = true ∧ (ownSt 3).mgmtAtelier = none
    ∧ (after (.adopt 0 (adoptW 2)) (ownSt 3)).portOf 1 = 2 ∧ (after (.adopt 0 (adoptW 2)) (ownSt 3)).on ATL_CTL_LOCK 1 = false
    ∧ (after (.adopt 0 (adoptW 2)) (ownSt 3)).units.host.adopted = [1]
    ∧ (after (.adopt 0 (adoptW 1)) (ownSt 3)).fld HOST_LOCKED_COUNT 0 = 1 ∧ (after (.adopt 0 (adoptW 2)) (ownSt 2)).fld HOST_LOCKED_COUNT 0 = 1
    ∧ (after (.adopt 0 (adoptW 1)) (ownSt 3)).portOf 1 = 0 := by decide +kernel
/-- Lane 1 is atelier 1's, and lane 2 is atelier 2's. -/
def laned : State := pokes (ownSt 3) [(COLL_VL_VALID_VALID, 3, 0, 0), (COLL_VL_OWNER_OWNER.whole, 0x21, 0, 0)]
theorem meets_hostsAndAteliers_dissolve : (ownSt 3).opened 0 ATL_DISSOLVE_GO = true
    ∧ (after (.dissolve 0 (2 ^ 63 + 1)) (ownSt 3)).exists 1 = false ∧ (after (.dissolve 0 (2 ^ 63 + 1)) (ownSt 3)).fld ATL_TILES_MASK 1 = 0
    ∧ (after (.dissolve 0 (2 ^ 63 + 1)) (ownSt 3)).on ATL_HBM_VALID 1 0 = false ∧ (ownSt 3).ringsOf 1 = List.range 64
    ∧ (after (.dissolve 0 (2 ^ 63 + 1)) (ownSt 3)).fld RING_STATE_STATE 0 = 0 ∧ (after (.dissolve 0 (2 ^ 63 + 1)) (ownSt 3)).on ATL_SHARE_VALID 0 5 = false
    ∧ (laned.laneOwner 1 = some 1 ∧ (after (.dissolve 0 (2 ^ 63 + 1)) laned).laneOwner 1 = none)
    ∧ (after (.dissolve 0 (2 ^ 63 + 1)) laned).fld COLL_VL_OWNER_OWNER = 0x20
    ∧ (after (.dissolve 0 (2 ^ 63 + 1)) (ownSt 2)).fld HOST_LOCKED_COUNT 0 = 1 := by decide +kernel
def shareW (rq ac : Nat) : Word := BitVec.ofNat 64 (2 ^ 63 + 2 * 2 ^ 52 + rq * 2 ^ 48 + ac * 2 ^ 32)
theorem meets_hostsAndAteliers_share : atl.opened 0 ATL_SHARE_VALID 0 7 = true ∧ atl.on MX_STATUS_SPLIT_ACTIVE 7 = false
    ∧ (after (.shareSet 0 7 (shareW 1 64)) atl).fld ATL_SHARE_RIGHT 0 7 = 2 ∧ (after (.shareSet 0 7 (shareW 14 960)) atl).fld ATL_SHARE_RQ 0 7 = 14
    ∧ (after (.shareSet 0 7 (shareW 15 64)) atl).fld HOST_LOCKED_COUNT 0 = 1 ∧ (after (.shareSet 0 7 (shareW 0 64)) atl).fld HOST_LOCKED_COUNT 0 = 1
    ∧ (after (.shareSet 0 7 (shareW 1 0)) atl).fld HOST_LOCKED_COUNT 0 = 1 ∧ (after (.shareSet 0 7 (shareW 1 1000)) atl).fld HOST_LOCKED_COUNT 0 = 1
    ∧ (after (.shareSet 0 0 (shareW 1 64)) (ctlSt 1)).fld HOST_LOCKED_COUNT 0 = 1 := by decide +kernel

/-! ### Power -/

def busyRail : State := pokes up [(PWR_RAIL_BUSY, 1, 0, 2), (PWR_STATUS_OP_BUSY, 4, 0, 0), (PWR_RAIL_OP, 2, 0, 2),
  (PWR_RAIL_VTARGET, opMv 2, 0, 2), (PWR_DROOP_CFG_MV, 30, 0, 0)]
def mv (n : Nat) : BitVec 16 := BitVec.ofNat 16 n
theorem meets_railsAndModes : up.writable 0 PWR_RAIL_OP 0 2 = true ∧ busyRail.on PWR_RAIL_BUSY 0 2 = true ∧ up.on PWR_RAIL_BUSY 0 2 = false
    ∧ opMv (busyRail.fld PWR_RAIL_OP 0 2) = busyRail.fld PWR_RAIL_VTARGET 0 2 ∧ opMv 2 ≠ up.fld PWR_RAIL_VTARGET 0 2
    ∧ (after (.railOpWrite 2 0 3) busyRail).fld PWR_RAIL_OP 0 2 = 2
    ∧ (after (.railOpSettle 2 (mv (opMv 2 + 10))) busyRail).on PWR_RAIL_BUSY 0 2 = false
    ∧ (after (.railOpSettle 2 (mv (opMv 2 + 11))) busyRail).on PWR_RAIL_BUSY 0 2 = true
    ∧ (after (.railSettleTimeout 2 (mv (opMv 2 - 11))) busyRail).on PLANT_EVENT_AVS_ERR = true
    ∧ (after (.railSettleTimeout 2 (mv (opMv 2 - 10))) busyRail).on PLANT_EVENT_AVS_ERR = false
    ∧ (after (.droopStart 2 (mv (opMv 2 - 31))) busyRail).fld PWR_DROOP_COUNT 0 2 = 1 ∧ (after (.droopStart 2 (mv (opMv 2 - 30))) busyRail).fld PWR_DROOP_COUNT 0 2 = 0
    ∧ (after (.droopEnd 2) (after (.droopStart 2 (mv (opMv 2 - 31))) busyRail)).units.pwr.droops = [] := by decide +kernel
theorem meets_railsAndModes_modes : up.opened 0 PWR_CTL_QUIET = true ∧ (after (.quietWrite 0 2) up).fld PWR_STATUS_MODE = 1
    ∧ (after (.quietWrite 0 0) (poke up PWR_STATUS_MODE 1)).fld PWR_STATUS_MODE = 0
    ∧ (after (.quietWrite 0 2) (poke up PWR_STATUS_MODE 2)).fld PWR_STATUS_MODE = 2 ∧ up.fld PWR_STATUS_MODE = 0
    ∧ (after (.thermalTrip 459) up).fld PWR_STATUS_MODE = 0 := by decide +kernel
theorem meets_railsAndModes_trip : (after (.thermalTrip 460) up).fld PWR_STATUS_MODE = 2 ∧ (after (.thermalTrip 460) up).dom 399 = 6
    ∧ (after (.thermalTrip 460) up).dom 400 = up.dom 400 ∧ (after (.thermalTrip 460) up).thermTripLow = true := by decide +kernel

/-- Tile 0's array in a state. -/
def domSt (k v : Nat) : State := poke atl { PWR_DSTATE.whole with lo := k % 16 * 4, hi := k % 16 * 4 + 3 } v 0 (k / 16)
def pwrSlot (tiles doms dies phys op rel : Nat) : Slot :=
  busy 7 0x78 .power (desc 0x78 0 [tiles, dies * 2 ^ 32 + phys * 2 ^ 16 + doms * 2 ^ 8 + rel * 2 ^ 4 + op])
def pwrAt (d : Slot) (s : State) : State := slots s [d]
theorem meets_powerDomains : (pwrAt (pwrSlot 1 1 0 0 0 0) (domSt 0 0)).running = true
    ∧ (pwrAt (pwrSlot 1 1 0 0 0 0) (domSt 0 0)).units.pwr.reqs = [] ∧ (pwrAt (pwrSlot 1 1 0 0 0 0) (domSt 0 0)).units.pwr.moving = []
    ∧ ([0, 1, 2, 3].all fun op => (pwrAt (pwrSlot 1 1 0 0 op 0) (domSt 0 0)).pwrRun 7 op == some (pwrSlot 1 1 0 0 op 0)
        && tileDoms (pwrSlot 1 1 0 0 op 0).words (op == 2) ++ pwrStacks (pwrSlot 1 1 0 0 op 0).words == [0]
        && (pwrAt (pwrSlot 1 1 0 0 op 0) (domSt 0 0)).alone 0 op) = true
    ∧ tileDoms (pwrSlot 0 0 0 0 0 0).words false ++ pwrStacks (pwrSlot 0 0 0 0 0 0).words = []
    ∧ (after (.pwrDomainWake 7) (pwrAt (pwrSlot 1 1 0 0 0 0) (domSt 0 0))).dom 0 = 1
    ∧ (after (.pwrDomainWake 7) (pwrAt (pwrSlot 1 1 0 0 0 0) (domSt 0 4))).dom 0 = 4
    ∧ (after (.pwrDomainWake 7) (pwrAt (pwrSlot 1 1 0 0 0 1) (domSt 0 2))).units.pwr.moving = [0]
    ∧ ((after (.pwrDomainWake 7) (pwrAt (pwrSlot 1 1 0 0 0 0) (domSt 0 3))).slots.map (·.phase)) = [.done]
    ∧ ((after (.pwrDomainWake 7) (pwrAt (pwrSlot 0 0 0 0 0 0) atl)).slots.map (·.phase)) = [.done]
    ∧ (after (.pwrDomainIdle 7) (pwrAt (pwrSlot 1 1 0 0 1 0) (domSt 0 3))).units.pwr.moving = [0]
    ∧ ((after (.pwrDomainIdle 7) (pwrAt (pwrSlot 1 1 0 0 1 0) (domSt 0 2))).slots.map (·.phase)) = [.done]
    ∧ (after (.pwrDomainOff 7) (pwrAt (pwrSlot 1 1 0 0 2 0) (domSt 0 3))).units.pwr.moving = [0]
    ∧ ((after (.pwrDomainOff 7) (pwrAt (pwrSlot 1 1 0 0 2 0) (domSt 0 0))).slots.map (·.phase)) = [.done]
    ∧ (after (.pwrDomainRelease 7) (pwrAt (pwrSlot 1 1 0 0 3 0) (domSt 0 2))).units.pwr.moving = [0] := by decide +kernel
/-- Quarter 1 of tile 0 (bit 3, domain 3), die 0 and its PHY. -/
theorem meets_powerDomains_others : (atl.alone 3 0 && atl.alone 400 0 && (domSt 400 0).alone 384 2 && !atl.alone 384 2
      && !(domSt 2 0).alone 3 0 && !(domSt 384 0).alone 400 0 && !(domSt 0 6).alone 0 0) = true
    ∧ (after (.pwrDomainOff 7) (pwrAt (pwrSlot 1 8 0 0 2 0) atl)).dom 3 = 5
    ∧ (after (.pwrDomainWake 7) (pwrAt (pwrSlot 1 8 0 0 0 0) (domSt 3 0))).dom 3 = 1
    ∧ (after (.pwrDomainWake 7) (pwrAt (pwrSlot 0 0 0 1 0 0) (domSt 400 0))).dom 400 = 1
    ∧ (after (.pwrDomainOff 7) (pwrAt (pwrSlot 0 0 1 0 2 0) (domSt 400 0))).units.pwr.moving = [384] := by decide +kernel
theorem meets_powerDomains_wow : (pwrAt (pwrSlot 5 0 3 0 4 0) atl).pwrRun 7 4 = some (pwrSlot 5 0 3 0 4 0)
    ∧ (pwrAt (pwrSlot 5 0 3 0 5 0) atl).pwrRun 7 5 = some (pwrSlot 5 0 3 0 5 0)
    ∧ (after (.wowSet 7) (pwrAt (pwrSlot 5 0 3 0 4 0) atl)).fld PWR_WOW_TILES = 5 ∧ (after (.wowSet 7) (pwrAt (pwrSlot 5 0 3 0 4 0) atl)).fld PWR_WOW_DIES_DIES = 3
    ∧ (after (.wowClear 7) (pwrAt (pwrSlot 5 0 3 0 5 0) (poke atl PWR_WOW_TILES 7))).fld PWR_WOW_TILES = 2 := by decide +kernel
def cmdW (op k : Nat) : Word := BitVec.ofNat 64 (2 ^ 63 + op * 2 ^ 12 + k)
theorem meets_powerDomains_command : atl.opened 0 PWR_DOM_CMD_GO = true ∧ atl.on PWR_DOM_CMD_GO = false
    ∧ atl.refusesCmd 4 0 = true ∧ atl.refusesCmd 0 432 = true ∧ atl.refusesCmd 1 3 = true ∧ atl.refusesCmd 0 0 = false ∧ atl.refusesCmd 2 2 = true
    ∧ (after (.domCmdWake 0 (cmdW 0 0)) (domSt 0 0)).dom 0 = 1 ∧ (after (.domCmdWake 0 (cmdW 0 0)) (domSt 0 0)).on PWR_DOM_CMD_GO = true
    ∧ (after (.domCmdWake 0 (cmdW 0 0)) (domSt 0 3)).fld PWR_DOM_CMD_RESULT = 1 ∧ (after (.domCmdWake 0 (cmdW 0 0)) (domSt 0 3)).on PWR_DOM_CMD_GO = false
    ∧ (after (.domCmdIdle 0 (cmdW 1 0)) atl).units.pwr.moving = [0] ∧ (after (.domCmdIdle 0 (cmdW 1 3)) atl).fld PWR_DOM_CMD_RESULT = 2
    ∧ (after (.domCmdOff 0 (cmdW 2 1)) atl).units.pwr.moving = [1] ∧ (after (.domCmdRelease 0 (cmdW 3 0)) (domSt 0 2)).units.pwr.moving = [0]
    ∧ (after (.domCmdOff 0 (cmdW 5 0)) atl).fld PWR_DOM_CMD_RESULT = 2 := by decide +kernel
/-- A timed step of tile 0's array under way for a PWR_DOMAIN. -/
def moving (st : Nat) (op : DomOp) : State :=
  let s := pwrAt (pwrSlot 1 1 0 0 0 0) (poke (domSt 0 st) MX_PARK_THRESH_TICKS 99)
  { s with units := { s.units with pwr := { s.units.pwr with reqs := [⟨0, op, .descriptor 7⟩], moving := [0] } } }
def moved (st : Nat) (op : DomOp) : State := after (.domainTransitionDone 0) (moving st op)
theorem meets_powerDomains_done : (moving 1 (.wake false)).running = true ∧ ((moving 1 (.wake false)).slot 7).isSome = true
    ∧ (moved 1 (.wake false)).dom 0 = 2 ∧ ((moved 1 (.wake false)).slots.map (·.phase)) = [.done]
    ∧ (moved 1 (.wake true)).dom 0 = 2 ∧ (moved 1 (.wake true)).units.pwr.moving = [0]
    ∧ (moved 4 (.wake false)).dom 0 = 3 ∧ (moved 3 .idle).dom 0 = 4 ∧ (moved 2 .release).dom 0 = 3 ∧ (moved 3 .off).dom 0 = 0
    ∧ ((moved 3 .off).slots.map (·.phase)) = [.done] ∧ (moving 3 .off).fld MX_PARK_THRESH_TICKS 0 = 99
    ∧ (moved 3 .off).held (MX_PARK_THRESH_TICKS.addr 0 0) = regReset (MX_PARK_THRESH_TICKS.addr 0 0) := by decide +kernel

/-- Power about to leave quarter q of tile 0, whose counter 5 and refusal count are not 0. -/
def closingQuarter (q : Nat) : State :=
  let s := pokes (domSt (2 + q) 0) [(PAL_AC_VALUE, 9, 0, 5), (PAL_DARK_REFUSED_COUNT, 4, 0, 0), (PAL_ECC_CE_COUNT_CE_COUNT, 3, 0, 0)]
  { s with units := { s.units with pwr := { s.units.pwr with reqs := [⟨2 + q, .off, .work⟩], moving := [2 + q] } } }
theorem meets_quarterPowerLoss : (closingQuarter 0).running = true ∧ (closingQuarter 0).headReq 2 = some ⟨2, .off, .work⟩
    ∧ (closingQuarter 0).units.pwr.moving.contains 2 = true ∧ (closingQuarter 3).headReq 5 = some ⟨5, .off, .work⟩
    ∧ (closingQuarter 0).fld PAL_AC_VALUE 0 5 = 9 ∧ (closingQuarter 0).fld PWR_STATUS_MODE = 0
    ∧ (after (.domainTransitionDone 2) (closingQuarter 0)).fld PAL_AC_VALUE 0 5 = 0
    ∧ (after (.domainTransitionDone 2) (closingQuarter 0)).fld PAL_DARK_REFUSED_COUNT 0 = 0
    ∧ (after (.domainTransitionDone 5) (closingQuarter 3)).fld PAL_AC_VALUE 0 5 = 9
    ∧ (after (.thermalTrip 460) (closingQuarter 0)).fld PAL_ECC_CE_COUNT_CE_COUNT 0 = 0
    ∧ (after (.thermalTrip 460) (closingQuarter 0)).fld PAL_AC_VALUE 0 5 = 0 := by decide +kernel

/-! ### The plant interface -/

def sense (m a : Nat) : RailSense := ⟨BitVec.ofNat 16 m, BitVec.ofNat 16 a⟩
def gov (q : Int) (s : State) : State := after (.governorUpdate [sense 800 100, sense 801 100, sense 800 100, sense 800 103] q) s
def governed : State := pokes up [(PLANT_LIMITS_CEILING, 3000, 0, 0), (PLANT_LIMITS_FLOOR, 500, 0, 0), (PLANT_UNCORE_W, 600, 0, 0),
  (PLANT_THERM_T_LIMIT, 95, 0, 0), (PLANT_THERM_STEP_W, 100, 0, 0)]
theorem meets_governor : governed.running = true ∧ (gov 380 governed).fld PLANT_STATUS_P_EST = 922
    ∧ (gov 380 governed).fld PLANT_STATUS_CEIL_EFF = 3000 ∧ (gov 380 governed).on PLANT_EVENT_THERM_LIMIT = false
    ∧ (gov 381 governed).fld PLANT_STATUS_CEIL_EFF = 2900 ∧ (gov 381 governed).on PLANT_EVENT_THERM_LIMIT = true
    ∧ (gov 380 governed).fld PLANT_STATUS_FLOOR_EFF = 500 ∧ (gov (-5) governed).fld PLANT_THERM_TJ_MAX = 65531
    ∧ (gov 380 governed).fld PWR_RAIL_VSENSE 0 1 = 801 ∧ (gov 380 governed).fld PWR_RAIL_ISENSE 0 3 = 103
    ∧ governed.theta 5 = 64 ∧ (gov 380 (poke governed PWR_STATUS_MODE 1)).units.plant.ballast = [] := by decide +kernel
def ballastSt : State :=
  let s := slots governed [{ slot 7 0 (desc (0x20 + 50 * 2 ^ 24) 0 []) with lc := some 1 }]
  { s with units := { s.units with plant := { s.units.plant with ballast := [0, 3] } } }
theorem meets_governor_ballast : ballastSt.ballastDue 0 = true ∧ (after (.ballastStop 0) ballastSt).units.plant.ballast = [3] := by decide +kernel
def hearing (p : Nat) : State := pokes up [(PLANT_CTL_EN, 1, 0, 0), (PLANT_CTL_CURT_EN, 1, 0, 0), (PLANT_STATUS_P_EST, p, 0, 0),
  (PLANT_CURT_TABLE, 2000 + 1500 * 2 ^ 16, 0, 0)]
def unheard : State := poke up PLANT_CTL_EN 0
def curt (p : Nat) (l : Fin 16) : State := after (.curtailAssert l) (hearing p)
theorem meets_governor_curtail : (hearing 0).hearsCurtail = true ∧ (hearing 0).curtailed = false ∧ (curt 1500 1).curtailed = true
    ∧ (curt 1500 1).on PLANT_STATUS_CURT_ACK = true ∧ (curt 1501 1).on PLANT_STATUS_CURT_ACK = false ∧ (curt 1500 1).units.plant.curtReq = true
    ∧ (after (.curtailLevelChange 1) (curt 1500 0)).on PLANT_STATUS_CURT_ACK = false
    ∧ (after (.curtailLevelChange 0) (curt 1500 1)).on PLANT_STATUS_CURT_ACK = true
    ∧ (after (.curtailLevelChange 1) (curt 1500 0)).fld PLANT_STATUS_CURT_LVL = 1
    ∧ (after .curtailRelease (curt 1500 1)).curtailed = false ∧ (after .curtailRelease (curt 1500 1)).on PLANT_STATUS_CURT_ACK = false
    ∧ unheard.hearsCurtail = false ∧ (after (.curtailAssert 1) unheard).curtailed = false := by decide +kernel
theorem meets_governor_enable : unheard.opened 0 PLANT_CTL_EN = true ∧ unheard.on PLANT_CTL_EN = false ∧ unheard.on DBG_STATUS_ACTIVE = false
    ∧ (after (.plantEnWrite 0 9) unheard).fld PLANT_STATUS_PINS_PLANT = 1 ∧ (after (.plantEnWrite 0 9) unheard).fld PLANT_CTL_CURT_EN = 1
    ∧ (after (.plantEnWrite 0 8) (curt 1500 1)).curtailed = false
    ∧ (after (.plantEnWrite 0 9) (poke unheard DBG_STATUS_ACTIVE 1)).on PLANT_EVENT_PINS = true
    ∧ (after (.plantEnWrite 0 9) (poke unheard DBG_STATUS_ACTIVE 1)).on PLANT_CTL_EN = false := by decide +kernel

def withPlant (s : State) (f : PlantUnit → PlantUnit) : State := { s with units := { s.units with plant := f s.units.plant } }
def lsn (out ack : Nat) (acked late : Bool) : State :=
  withTbS (withPlant (pokes up [(PLANT_CTL_EN, 1, 0, 0), (PLANT_STATUS_LSN_OUT, out, 0, 0), (PLANT_STATUS_LSN_ACK, ack, 0, 0)])
    fun p => { p with acked := acked, late := late }) fun t => { t with count := 6000 }
/-- A product on tile 0, which is to draw 40 units of 1/8 A where STEP_A is 0. -/
def rising : State := pokes (slots (lsn 0 0 false false) [mxD .whole 1 1 1 []]) [(PLANT_IEST_MX, 40, 0, 0), (PLANT_LSN_STEP_A, 0, 0, 0)]
theorem meets_notices : rising.on PLANT_CTL_EN = true ∧ rising.on PLANT_STATUS_LSN_OUT = false ∧ rising.lsnRested = true
    ∧ rising.risePredicted rising.lsnLead = true ∧ (after .lsnAssert rising).fld PLANT_LSN_NOTICES_COUNT = 1
    ∧ (after .lsnAssert rising).units.plant.lsnRose = 6000 ∧ (lsn 0 0 false false).risePredicted 5000 = false
    ∧ (withPlant rising fun p => { p with lsnFell := some 4000 }).lsnRested = false
    ∧ ((lsn 1 0 true false).lsnLead = 6000 ∧ (lsn 1 0 true false).ticks = 6000 ∧ (lsn 1 0 true false).units.plant.lsnRose = 0
      ∧ (lsn 1 0 true false).admittedWhole = true ∧ (lsn 1 0 true false).risePredicted 10000 = false)
    ∧ (after .lsnAssert rising).admittedWhole = true ∧ (after .lsnAssert rising).risePredicted 10000 = true
    ∧ (after .lsnDeassert (after .lsnAssert rising)).on PLANT_STATUS_LSN_OUT = true
    ∧ (after .lsnAck (lsn 1 0 false false)).units.plant.acked = true ∧ (after .lsnAck (lsn 1 0 false true)).on PLANT_EVENT_LATE_ACK = true
    ∧ (after .lsnAckTimeout (lsn 1 0 false false)).fld PLANT_LSN_NOACK_COUNT = 1 ∧ (after .lsnAckTimeout (lsn 1 0 false false)).units.plant.late = true
    ∧ (after .riseCovered (lsn 1 0 true false)).units.plant.covered = true ∧ (after .lsnDeassert (lsn 1 0 true false)).on PLANT_STATUS_LSN_OUT = false
    ∧ (after .lsnHoldMax (lsn 1 0 true false)).on PLANT_EVENT_HOLD_MAX = true ∧ (after .lsnAckFall (lsn 1 1 true false)).on PLANT_STATUS_LSN_ACK = false := by
  decide +kernel
/-- A frame from the energy buffer: FLAGS, SoC, and its CRC. -/
def socFrame (flags soc : Nat) : Nat :=
  let b := 0xa5 + 2 * 2 ^ 8 + 7 * 2 ^ 16 + flags * 2 ^ 24 + soc * 2 ^ 32
  b + plantCrc b * 256 ^ 22
def socIn (f : Nat) (gap : Bool) : State := after (.socFrameReceive (BitVec.ofNat 192 f) gap) (poke up PLANT_STATUS_SOC_STALE 1)
theorem meets_notices_soc : frameByte (socFrame 1 10000) 22 + 256 * frameByte (socFrame 1 10000) 23 = plantCrc (socFrame 1 10000)
    ∧ (socIn (socFrame 1 10000) false).fld PLANT_SOC_NOW_SOC = 10000 ∧ (socIn (socFrame 1 10000) false).fld PLANT_SOC_NOW_SEQ = 7
    ∧ (socIn (socFrame 1 10000) false).on PLANT_STATUS_SOC_STALE = false ∧ (socIn (socFrame 1 10001) false).on PLANT_STATUS_SOC_STALE = true
    ∧ (socIn (socFrame 1 10001) false).fld PLANT_LINK_ERR_COUNT = 0 ∧ (socIn (socFrame 0 5) false).on PLANT_STATUS_SOC_STALE = true
    ∧ (socIn (socFrame 1 5) true).fld PLANT_LINK_ERR_COUNT = 1 ∧ (socIn (socFrame 1 5 + 2 ^ 40) false).fld PLANT_LINK_ERR_COUNT = 1
    ∧ (after .socTimeout up).on PLANT_EVENT_SOC_STALE = true := by decide +kernel
def forecasting : State :=
  let s := withPlant (pokes up [(PLANT_CTL_FORECAST_EN, 1, 0, 0), (PLANT_PLAN_P_1MS, 900, 0, 0), (COLL_ID_MODULE, 1, 0, 0),
    (PLANT_STATUS_CEIL_EFF, 3000, 0, 0)]) fun p => { p with seq := 255 }
  { s with units := { s.units with tb := { s.units.tb with count := 200000 } } }
theorem meets_notices_forecast : forecasting.on PLANT_CTL_FORECAST_EN = true ∧ forecasting.ticks % 100000 = 0 ∧ forecasting.fld PLANT_PLAN_P_1MS ≠ 0
    ∧ (after .forecastSend forecasting).units.plant.seq = 0
    ∧ ((after .forecastSend forecasting).out.map fun o => match o with
        | .plantFrame f => (frameByte f.toNat 2, frameByte f.toNat 12 + 256 * frameByte f.toNat 13, decide (frameByte f.toNat 22 + 256 * frameByte f.toNat 23 = plantCrc f.toNat))
        | _ => (0, 0, false)) = [(255, 900, true)] := by decide +kernel
def telem : Telemetry := ⟨1, 2, 3, 4⟩
theorem meets_notices_poll : [some telem, none, none, some telem].length = 4
    ∧ (after (.pmbusPoll [some telem, none, none, some telem]) up).out.length = 4
    ∧ (after (.pmbusPoll [some telem, none, none, some telem]) up).on PLANT_EVENT_PMB_ERR = true
    ∧ (after (.pmbusPoll [some telem, none, none, some telem]) up).fld PLANT_RAIL_TELEM_VOUT 0 3 = telem.vout.toNat
    ∧ (after (.pmbusPoll [some telem, none, none, some telem]) up).fld PLANT_RAIL_TELEM_VOUT 0 1 = 0 := by decide +kernel

/-! ### Windows and dumps -/

/-- A PMC_WINDOW of tile 0 that claims counters 0 and 5, with CLEAR, for 100 ticks with points every 40. -/
def winSlot : Slot := busy 7 0 (.seq 0) (desc 0x70 0 [0x21 + 2 ^ 16, 100, 40])
def atTime (s : State) (n : Nat) : State := { s with units := { s.units with tb := { s.units.tb with count := BitVec.ofNat 64 n } } }
def winSt : State := atTime (pokes (slots atl [winSlot]) [(PMC_CTR_VALUE, 9, 0, 0), (PMC_CTR_VALUE, 9, 0, 5), (PMC_CTR_VALUE, 9, 0, 6),
  (PMC_EVSEL_SAMPLE, 1, 0, 5), (PMC_EVSEL_PERIOD, 100, 0, 5)]) 1000
def opened : State := after (.pmcWindow 7) winSt
theorem meets_windowsAndDumps : winSt.running = true ∧ winSt.slot 7 = some winSlot ∧ winSt.units.pmc.windows = [] ∧ winSt.claimed 0 &&& 0x21 = 0
    ∧ (opened.units.pmc.windows.map fun w => (w.claims, w.opened, w.duration, w.point, w.next)) = [(0x21, 1000, 100, 40, 1)]
    ∧ opened.fld PMC_CTR_VALUE 0 0 = 0 ∧ opened.fld PMC_CTR_VALUE 0 5 = 2 ^ 48 - 100 ∧ opened.fld PMC_CTR_VALUE 0 6 = 9 := by decide +kernel
def winOf (s : State) : PmcWindow := s.units.pmc.windows.headD { tile := 0, slot := 0, claims := 0, opened := 0, duration := 0, point := 0, dumps := false }
def pointed : State := after (.windowEdge 0) (atTime opened 1040)
def lastEdge : State := after (.windowEdge 0) (after (.windowEdge 0) (atTime opened 1100))
theorem meets_windowsAndDumps_edges : (atTime opened 1040).lentLc3 0 = true ∧ 0 ≤ (atTime opened 1040).edgeAge (winOf opened)
    ∧ (atTime opened 1039).edgeAge (winOf opened) < 0 ∧ (winOf opened).edge.2 = false ∧ (winOf opened).recalled = false
    ∧ (pointed.units.pmc.windows.map (·.next)) = [2] ∧ pointed.fld PMC_WIN_SKIPPED 0 = 0 ∧ (winOf lastEdge).edge.2 = true
    ∧ (after (.windowEdge 0) lastEdge).units.pmc.windows = [] ∧ ((after (.windowEdge 0) lastEdge).slots.map (·.phase)) = [.done] := by decide +kernel
def sbuf (n : Nat) : State := pokes atl [(PMC_SBUF_CTL_COUNT, n, 0, 0), (PMC_SBUF_CTL_RD, 14, 0, 0)]
def rdW (n : Nat) : Word := BitVec.ofNat 64 (n * 2 ^ 8)
theorem meets_windowsAndDumps_samples : (sbuf 5).opened 0 PMC_SBUF_CTL_RD 0 = true ∧ (after (.sbufRdWrite 0 0 (rdW 3)) (sbuf 5)).fld PMC_SBUF_CTL_COUNT 0 = 0
    ∧ (after (.sbufRdWrite 0 0 (rdW 3)) (sbuf 5)).fld PMC_SBUF_CTL_RD 0 = 3 ∧ (after (.sbufRdWrite 0 0 (rdW 4)) (sbuf 5)).fld HOST_LOCKED_COUNT 0 = 1
    ∧ (after (.sbufRdWrite 0 0 (rdW 14)) (sbuf 16)).on PMC_SBUF_CTL_FULL 0 = true := by decide +kernel
def dumpSt : State := atTime (pokes atl [(PMC_DUMP_CTL_EN, 1, 0, 0), (PMC_DUMP_CTL_PERIOD, 2, 0, 0), (PMC_DUMP_BASE_ADDR, 5, 0, 0),
  (PMC_DUMP_BASE_LOG2_RECORDS, 4, 0, 0), (PMC_DUMP_CTL_SEQ, 17, 0, 0)]) 4096
theorem meets_windowsAndDumps_dump : dumpSt.replica 0 % (dumpSt.fld PMC_DUMP_CTL_PERIOD 0 * 1024) = 0 ∧ dumpSt.tileOwner 0 = some 1
    ∧ dumpSt.on ATL_STATUS_ORPHANED 1 = false ∧ (after (.periodicDump 0 true) dumpSt).fld PMC_DUMP_CTL_SEQ 0 = 18
    ∧ (after (.periodicDump 0 true) dumpSt).out.getLast? = some (.hostWrite 0 (5 * 4096 + 512) (wordBytes 17))
    ∧ (after (.periodicDump 0 true) dumpSt).out.length = 2 ∧ (after (.periodicDump 0 false) dumpSt).out = []
    ∧ (after (.periodicDump 0 false) dumpSt).dumpsLost 0 = 1 ∧ (after (.periodicDump 0 true) (poke dumpSt ATL_STATUS_ORPHANED 1 1)).fld PMC_DUMP_LOST_COUNT 0 = 1 := by
  decide +kernel

/-! ### Resets and start-up -/

def withBoot (s : State) (f : BootUnit → BootUnit) : State := { s with units := { s.units with boot := f s.units.boot } }
def kept : State := { poke atl CMC_RESET_KEEP_STACKS 1 with mem := [(5, 7), (2 ^ 36 + 5, 8)] }
theorem meets_resets : (withBoot up fun b => { b with resetLow := true }).inReset = true ∧ up.sound = true ∧ up.units.boot.powerGood = true
    ∧ after .pollSweep (withBoot up fun b => { b with resetLow := true }) = (withBoot up fun b => { b with resetLow := true })
    ∧ (after .coldReset kept).mem = [] ∧ (after .coldReset kept).held (PWR_DSTATE.addr 0 0) = regReset (PWR_DSTATE.addr 0 0)
    ∧ (after .pwrGoodFall kept).inReset = true ∧ kept.on CMC_RESET_KEEP_STACKS = true ∧ kept.fld HBM_STATUS_STATE 0 = 2 ∧ kept.fld HBM_STATUS_STATE 1 ≠ 2
    ∧ (after (.moduleReset 2) kept).byte 5 = 7 ∧ (after (.moduleReset 2) kept).byte (2 ^ 36 + 5) = 0 ∧ (after (.moduleReset 2) kept).fld HBM_STATUS_STATE 0 = 3
    ∧ (after (.moduleReset 1) kept).inReset = true ∧ (after (.moduleReset 3) kept).fld CMC_RESET_CAUSE_CAUSE = 3 ∧ (after (.moduleReset 2) kept).exists 1 = false
    ∧ (after .resetNRelease (after (.moduleReset 1) kept)).inReset = false ∧ (after (.moduleReset 2) kept).on HOST_STATUS_UP 0 = true
    ∧ (after (.hostPerst 0 false) kept).on HOST_STATUS_UP 0 = false ∧ (after (.hostPerst 0 false) kept).on ATL_STATUS_ORPHANED 1 = true
    ∧ (after (.hostPerst 3 true) kept).units.boot.perst = [3] := by decide +kernel
def atStep (n : Nat) : State := withBoot State.reset fun b => { b with step := n }
def booted (n : Nat) (r : BootResult) : State := after (.bootStepDone r) (atStep n)
def board : BoardConfig := ⟨true, 77, 0x3, 0x2, 0x44434241, true⟩
def image (v : Nat) (ok : Bool) : ImageSlot := ⟨true, true, ok, true, true, BitVec.ofNat 32 v, 0⟩
theorem meets_startUp : (atStep 1).running = true ∧ (atStep 1).units.boot.failed = false ∧ (booted 1 (.rom true)).units.boot.step = 2
    ∧ (booted 1 (.rom true)).units.tb.locked = true ∧ (booted 1 (.rom false)).fld CMC_STATUS_BOOT_ERR = 4
    ∧ slotFault (image 3 true) (atStep 2).fuseRollback (atStep 2).secureBoot = none ∧ slotFault (image 4 false) (atStep 2).fuseRollback (atStep 2).secureBoot = some 2
    ∧ (booted 2 (.image false (image 3 true) (image 4 true))).fld CMC_STATUS_BOOT_ERR = 7
    ∧ (booted 2 (.image true (image 3 false) (image 4 false))).fld CMC_STATUS_BOOT_ERR = 2
    ∧ (booted 2 (.image true (image 3 true) (image 4 true))).fld CMC_BOOT_SLOT = 1 ∧ (booted 2 (.image true (image 4 true) (image 4 true))).fld CMC_BOOT_SLOT = 0
    ∧ (booted 2 (.image true (image 3 true) (image 4 false))).fld CMC_BOOT_FW_VERSION = 3
    ∧ (booted 3 (.firmware board)).units.boot.cfg = some board ∧ (booted 3 (.firmware { board with crcOk := false })).on CMC_BOOT_CFG_VALID = false := by
  decide +kernel
def bootSt (tr keep : Bool) : StackBoot := { trained := tr, keptOk := keep, hard := 3, sparesMin := 2 }
def tilesUp (l : List StackBoot) (bad : Option TileNo := none) : State :=
  after (.bootStepDone (.stacksAndTiles l bad)) { withBoot (atStep 5) (fun b => { b with kept := [0, 1] }) with mem := [(5, 7), (2 ^ 36 + 5, 8)] }
def sixteen : List StackBoot := bootSt true true :: bootSt true false :: bootSt false false :: List.replicate 13 (bootSt true false)
theorem meets_startUp_stacks : sixteen.length = 16 ∧ (tilesUp sixteen).units.boot.step = 7 ∧ (tilesUp sixteen).dom 415 = 3 ∧ (tilesUp sixteen).on PAL_CTL_EN 63 = true
    ∧ (tilesUp sixteen).byte 5 = 7 ∧ (tilesUp sixteen).on HBM_STATUS_KEPT 0 = true ∧ (tilesUp sixteen).byte (2 ^ 36 + 5) = 0 ∧ (tilesUp sixteen).on HBM_STATUS_KEPT 1 = false
    ∧ (tilesUp sixteen).fld HBM_STATUS_STATE 2 = 4 ∧ (tilesUp sixteen).dieFailed 2 = true ∧ (tilesUp sixteen).fld HBM_REPAIR_HARD 3 = 3
    ∧ (tilesUp sixteen (some 9)).fld CMC_STATUS_ERR_ARG = 9 ∧ (tilesUp sixteen (some 9)).faultLow = true := by decide +kernel
def linksUp (c : Option BoardConfig) : State :=
  after (.bootStepDone .links) (withBoot (pokes (atStep 7) [(PWR_DSTATE.whole, 0x3333333333333333, 0, 26)]) fun b => { b with cfg := c })
theorem meets_startUp_links : (linksUp none).fld COLL_ID_MODULE = 0xffff ∧ (linksUp none).on LINK_CTL_EN 23 = true ∧ (linksUp (some board)).fld COLL_ID_MODULE = 77
    ∧ (linksUp (some board)).fld LINK_CTL_PMD 1 = 1 ∧ (linksUp (some board)).on LINK_CTL_EN 1 = true ∧ (linksUp none).units.boot.step = 8
    ∧ (booted 8 .ready).on CMC_STATUS_READY = true ∧ (booted 8 .ready).units.boot.step = 9 := by decide +kernel
def linkSt : State := withBoot (poke up HOST_STATUS_UP 0 2) fun b => { b with step := 9, perst := [2] }
theorem meets_startUp_hosts : linkSt.dom (hostDomain 2) = 3 ∧ linkSt.units.boot.perst.contains 2 = true
    ∧ linkSt.units.boot.step = 9
    ∧ (after (.hostLinkUp 2 16 6 true) linkSt).on HOST_STATUS_UP 2 = true ∧ (after (.hostLinkUp 2 16 6 true) linkSt).fld HOST_STATUS_WIDTH 2 = 16
    ∧ (after (.hostLinkUp 2 16 6 false) linkSt).on HOST_STATUS_UP 2 = false
    ∧ (after (.hostLinkUp 2 16 6 false) linkSt).on HOST_STATUS_NO_FLIT 2 = true ∧ up.fld HBM_STATUS_STATE 0 = 2 ∧ up.fld HBM_STATUS_STATE 1 ≠ 2
    ∧ (after (.bankRefresh 0 1 86) up).on HBM_STATUS_REFRESH_X2 0 = true ∧ (after (.bankRefresh 0 1 85) up).on HBM_STATUS_REFRESH_X2 0 = false
    ∧ (after (.bankRefresh 0 1 86) up).fld HBM_STATUS_TEMP 0 = 86 := by decide +kernel

/-! ### Fuses and the sketch port -/

def fuseW (arm w b : Nat) : Word := BitVec.ofNat 64 (arm * 2 ^ 56 + 2 ^ 16 + w * 2 ^ 8 + b)
def fuseSt : State := poke up (FUSE_WORD_VALUE) (2 ^ 5) 0 32
theorem meets_fusesAndSketch : fuseSt.opened 0 FUSE_PROG_GO = true ∧ fuseSt.on FUSE_STATUS_BUSY = false
    ∧ ((List.range 16).any fuseSt.exists) = false ∧ fuseSt.on CMC_STATUS_READY = true ∧ bit (fuseSt.fuseWord 32) 5 = true ∧ bit (fuseSt.fuseWord 32) 6 = false
    ∧ fuseOpen 32 5 (bit (fuseSt.fuseWord 9) 2) = true ∧ fuseOpen 9 3 false = false ∧ fuseOpen 2 0 true = false
    ∧ bits (fuseW 0xa5 32 6) 63 56 = 0xa5 ∧ bits (fuseW 0xa5 32 6) 13 8 = 32 ∧ bits (fuseW 0xa5 32 6) 5 0 = 6 ∧ (fuseW 0xa5 32 6).getLsbD 16 = true := by
  decide +kernel
def pulsing (w b n : Nat) : State :=
  withBoot (pokes up [(FUSE_STATUS_BUSY, 1, 0, 0), (FUSE_PROG_GO, 1, 0, 0), (DBG_STATUS_ACTIVE, 1, 0, 0), (DBG_CTL_EN, 1, 0, 0)])
    fun x => { x with fuseWord := w, fuseBit := b, pulses := n }
theorem meets_fusesAndSketch_pulses : (pulsing 9 1 0).on FUSE_STATUS_BUSY = true ∧ (after (.fusePulseDone true) (pulsing 9 1 0)).fld FUSE_STATUS_RESULT = 1
    ∧ (after (.fusePulseDone true) (pulsing 9 1 0)).fuseWord 9 = 2 ∧ (after (.fusePulseDone true) (pulsing 9 1 0)).on DBG_STATUS_ACTIVE = false
    ∧ (after (.fusePulseDone true) (pulsing 8 1 0)).on DBG_STATUS_ACTIVE = true ∧ (after (.fusePulseDone false) (pulsing 8 1 1)).units.boot.pulses = 2
    ∧ (after (.fusePulseDone false) (pulsing 8 1 1)).on FUSE_STATUS_BUSY = true := by decide +kernel
def sketchSt (plant shut : Nat) : State := pokes up [(PLANT_CTL_EN, plant, 0, 0), (FUSE_WORD_VALUE, shut * 2, 0, 9)]
theorem meets_fusesAndSketch_port : (sketchSt 0 0).opened 0 DBG_CTL_EN = true ∧ (sketchSt 0 1).sealed = true ∧ (sketchSt 0 0).sealed = false
    ∧ (after (.sketchEnable 0 0x31) (sketchSt 0 0)).on DBG_STATUS_ACTIVE = true ∧ (after (.sketchEnable 0 0x31) (sketchSt 0 0)).fld DBG_CTL_DIV = 3
    ∧ (after (.sketchEnable 0 0x31) (sketchSt 1 0)).fld DBG_STATUS_RESULT = 0x0e ∧ (after (.sketchEnable 0 0x31) (sketchSt 0 1)).fld DBG_STATUS_RESULT = 0x0f
    ∧ (after (.sketchEnable 0 0x31) (sketchSt 0 1)).fld HOST_LOCKED_COUNT 0 = 1
    ∧ (after (.sketchDisable 0 0) (after (.sketchEnable 0 0x31) (sketchSt 0 0))).on DBG_STATUS_ACTIVE = false := by decide +kernel
def sampling (src grp : Nat) : State := atTime (pokes up [(DBG_STATUS_ACTIVE, 1, 0, 0), (DBG_SEL_SOURCE, src, 0, 0), (DBG_SEL_GROUP, grp, 0, 0)]) 0x123456789
theorem meets_fusesAndSketch_sample : (sampling 20 1).on DBG_STATUS_ACTIVE = true ∧ (sampling 20 1).sketchGroup 20 0 1 = (0x23456789, 0)
    ∧ (sampling 22 0).sketchGroup 22 0 0 = (0, 0) := by decide +kernel

end Sys2Proof.Tests
end

section
/-! PROOFS. A step is a run of effects, and the CAP registers keep the Fenzeam's values (R20, R22). -/

namespace Sys2Proof.Machine

/-! ### A step is a run of effects -/

/-- Whatever a step answers, effects reach it from the module with the front command taken off the queue: a command is one
run of effects, and so is a tick. -/
theorem step_reach {s t : State} (h : step s = .next t) : Reach { s with pending := s.pending.tail } t := by
  unfold step at h
  split at h
  case h_1 hp =>
    cases h
    have same : { s with pending := s.pending.tail } = s := by rw [hp, List.tail_nil, ← hp]
    rw [same]
    exact perform_reach s actIdle
  case h_2 c rest hp =>
    rw [hp]
    exact (exec_within h).reach

/-- The queue is no part of soundness. -/
@[simp] theorem sound_with_pending (s : State) (q : List Instr) : { s with pending := q }.sound = s.sound := rfl

/-- Effects keep soundness, so a command and a tick do (R11). -/
theorem step_sound {s t : State} (hs : s.sound = true) (h : step s = .next t) : t.sound = true :=
  (step_reach h).sound (by rwa [sound_with_pending])

/-! ### The CAP window -/

/-- An offset past the end of every register of a list finds none of them. -/
theorem findDef_past_end {ds : List RegDef} {off : Nat} (h : ∀ d ∈ ds, d.off + d.stride * d.count ≤ off) :
    findDef ds off = none := by
  induction ds with
  | nil => rfl
  | cons d ds ih =>
    have hd := h d List.mem_cons_self
    unfold findDef
    rw [if_neg (by omega)]
    exact ih fun e he => h e (List.mem_cons_of_mem d he)

/-- The offsets of the CAP window are addresses of the block's one instance (R19). -/
theorem regAddr_cap {off : Nat} (h : off < 0x10000) : regAddr .cap 0 off = 0x21000000000 + off := by
  have inside : off % blkSize .cap = off := Nat.mod_eq_of_lt h
  show 0x21000000000 + off % blkSize .cap = _
  rw [inside]

/-- Nothing can change a bit of the CAP window (R20). -/
theorem regBits_cap {off : Nat} (h : off < 0x10000) : regBits (0x21000000000 + off) = 0 := by
  rw [← regAddr_cap h, regBits_regAddr]
  cases findDef (blkRegs .cap) (off % blkSize .cap) <;> rfl

/-- The offsets past CAP.TIMEBASE hold no register (R22). -/
theorem regReset_cap_reserved {off : Nat} (h : 0x60 ≤ off) (h' : off < 0x10000) : regReset (0x21000000000 + off) = 0 := by
  have last : ∀ d ∈ blkRegs .cap, d.off + d.stride * d.count ≤ 0x60 := by decide
  have free : findDef (blkRegs .cap) (off % blkSize .cap) = none := by
    have inside : off % blkSize .cap = off := Nat.mod_eq_of_lt h'
    rw [inside]
    exact findDef_past_end fun d hd => Nat.le_trans (last d hd) h
  rw [← regAddr_cap h', regReset_regAddr, free]

/-- In a sound state every CAP register holds its reset value. -/
theorem held_cap {s : State} (hs : s.sound = true) {off : Nat} (h : off < 0x10000) :
    s.held (0x21000000000 + off) = regReset (0x21000000000 + off) :=
  held_unimplemented hs (regBits_cap h)

/-- Settles O6: no bit of the CAP window is implemented, so in a sound state it holds its reset values, which are R22's; and
every step leads from a sound state to a sound one. -/
theorem capFixed : Obligations.CapFixed := by
  unfold Obligations.CapFixed
  intro s hs
  have value {off : Nat} {v : Word} (h : off < 0x10000) (hv : regReset (0x21000000000 + off) = v) :
      s.held (0x21000000000 + off) = v := (held_cap hs h).trans hv
  refine ⟨⟨value (off := 0x0) (by decide) (by decide), value (off := 0x8) (by decide) (by decide),
    value (off := 0x10) (by decide) (by decide), value (off := 0x18) (by decide) (by decide),
    value (off := 0x20) (by decide) (by decide), value (off := 0x28) (by decide) (by decide),
    value (off := 0x30) (by decide) (by decide), value (off := 0x38) (by decide) (by decide),
    value (off := 0x40) (by decide) (by decide), value (off := 0x48) (by decide) (by decide),
    value (off := 0x50) (by decide) (by decide), value (off := 0x58) (by decide) (by decide),
    fun off h h' => value h' (regReset_cap_reserved h h')⟩, fun t ht off h => ?_⟩
  rw [held_cap (step_sound hs ht) h, held_cap hs h]

end Sys2Proof.Machine
end

section
/-! PROOFS. Power that leaves quarter Q0 takes the arrival counters, the ECC records and the refusal count with it; power
that leaves another quarter does not (R73). -/

namespace Sys2Proof.Machine

variable {s₀ : State} {α : Type} {F : Foot}

/-! ### Registers at their reset values -/

/-- A wipe brings the registers that it picks back to their reset values and leaves the others. -/
theorem held_wipeRegs (s : State) (p : Nat → Bool) (a : Nat) :
    (Eff.apply s (.wipeRegs p)).held a = if p a then regReset a else s.held a := by
  unfold State.held
  rw [wipeRegs_regs, mapGet_filter regReset fun a => !p a]
  cases p a <;> rfl

/-- A footprint, but for the loss of registers, is clear of every bit of a field's registers. -/
def Foot.sparesReset (F : Foot) (g : Fld) : Bool := decide (0 < g.count) && Foot.clear (F.filter (· != .lost)) g.whole

/-- Two fields that are apart, the first of them a whole register, lie in different registers. -/
theorem addr_ne_of_whole_apart {f g : Fld} (h : g.whole.apart f = true) (hf : f.plain = true) (hg : 0 < g.count)
    (i k j l : Nat) : g.addr i k ≠ f.addr j l := by
  intro e
  simp only [Fld.plain, Bool.and_eq_true, decide_eq_true_eq] at hf
  obtain ⟨⟨hle, hhi⟩, hcount⟩ := hf
  have whole : g.whole.addr i k = f.addr j l := e
  rcases apart_addr h whole hg hcount with h' | h'
  · have : (63 : Nat) < f.lo := h'
    omega
  · exact absurd h' (Nat.not_lt_zero _)

/-- A register write that a footprint allows goes to another register than those the footprint is clear of. -/
theorem addr_ne_of_allows {s : State} {a : Nat} {v : Word} (he : F.allows s (.reg a v)) {g : Fld}
    (hc : F.sparesReset g = true) (i k : Nat) : g.addr i k ≠ a := by
  simp only [Foot.sparesReset, Foot.clear, Bool.and_eq_true, decide_eq_true_eq, List.all_eq_true] at hc
  obtain ⟨hg, hc⟩ := hc
  rcases he with ⟨f, j, l, n, hf, rfl, -⟩ | ⟨f, j, l, hf, rfl⟩ | hf
  · have h := hc _ (List.mem_filter.2 ⟨hf, by simp⟩)
    rw [Bool.and_eq_true] at h
    exact addr_ne_of_whole_apart h.1 h.2 hg i k j l
  · have h := hc _ (List.mem_filter.2 ⟨hf, by simp⟩)
    rw [Bool.and_eq_true] at h
    exact addr_ne_of_whole_apart (f := { f with hi := 63, lo := 0 }) h.1 (by simpa [Fld.plain] using h.2) hg i k j l
  · exact absurd (hc _ (List.mem_filter.2 ⟨hf, by simp⟩)) (by simp)

/-- An allowed effect leaves a spared register at its reset value: a write goes elsewhere, and a loss of power brings
nothing but reset values. -/
theorem apply_atReset {s : State} {e : Eff} (he : F.allows s e) {g : Fld} (hc : F.sparesReset g = true) {i k : Nat}
    (h : s.held (g.addr i k) = regReset (g.addr i k)) : (e.apply s).held (g.addr i k) = regReset (g.addr i k) := by
  cases e with
  | reg a v => rwa [held_reg_ne v (addr_ne_of_allows he hc i k)]
  | wipeRegs p => rw [held_wipeRegs, h, ite_self]
  | _ => exact h

/-- An action leaves the registers that its footprint spares at their reset values. -/
theorem Within.atReset {a : Act s₀ α} (ha : Within F a) {g : Fld} (hc : F.sparesReset g = true) {i k : Nat}
    (x : {s // Reach s₀ s}) (h : x.1.held (g.addr i k) = regReset (g.addr i k)) :
    (a x).2.1.held (g.addr i k) = regReset (g.addr i k) :=
  (ha x).keeps (fun u => u.held (g.addr i k) = regReset (g.addr i k)) h fun _ _ he hu => apply_atReset he hc hu

/-! ### What Q0's power holds -/

/-- The registers that lose their values with the power of quarter Q0, by one field of each (R73). -/
def lostWithQ0 : List Fld :=
  [PAL_AC_VALUE, PAL_ECC_CE_COUNT_CE_COUNT, PAL_ECC_CE_LOG_VALID, PAL_ECC_UE_COUNT_UE_COUNT, PAL_ECC_UE_LOG_VALID,
    PAL_DARK_REFUSED_COUNT]

/-- The registers that go with Q0's power stand at their reset values in a tile. -/
def State.q0Reset (s : State) (t : Nat) : Prop :=
  ∀ f ∈ lostWithQ0, ∀ k, s.held (f.addr t k) = regReset (f.addr t k)

/-- Where the registers that go with Q0's power lie (R84). -/
theorem lostWithQ0_offset {f : Fld} (hf : f ∈ lostWithQ0) (k : Nat) : ∃ off, off < 0x10000
    ∧ (0x2000 ≤ off ∨ (0x10 ≤ off ∧ off < 0x30) ∨ off = 0x38) ∧ ∀ t, f.addr t k = regAddr .pal t off := by
  rcases List.mem_cons.1 hf with rfl | hf
  case inl =>
    have hk : k % 1024 < 1024 := Nat.mod_lt k (by decide)
    exact ⟨0x2000 + 8 * (k % 1024), by omega, .inl (by omega), fun _ => rfl⟩
  case inr =>
    have single : ∀ g ∈ lostWithQ0.tail,
        g.blk = .pal ∧ g.count = 1 ∧ ((0x10 ≤ g.off ∧ g.off < 0x30) ∨ g.off = 0x38) := by decide
    obtain ⟨hblk, hcount, hoff⟩ := single f hf
    refine ⟨f.off, by omega, .inr hoff, fun t => ?_⟩
    unfold Fld.addr
    rw [hblk, hcount, Nat.mod_one, Nat.mul_zero, Nat.add_zero]

/-- The array of a register found at an offset reaches past the offset. -/
theorem findDef_lt_end {ds : List RegDef} {off : Nat} {d : RegDef} (h : findDef ds off = some d) :
    off < d.off + d.stride * d.count := by
  induction ds with
  | nil => cases h
  | cons e ds ih =>
    unfold findDef at h
    split at h
    case isTrue he =>
      cases h
      exact he.2.1
    case isFalse => exact ih h

/-- Every register of the PAL block past PAL.CTL resets to 0 (R84). -/
theorem regReset_pal {off : Nat} (h : 0x8 ≤ off) (h' : off < 0x10000) (t : Nat) : regReset (regAddr .pal t off) = 0 := by
  have zero : ∀ d ∈ blkRegs .pal, d.off + d.stride * d.count ≤ 0x8 ∨ d.reset = 0 := by decide
  have inside : off % blkSize .pal = off := Nat.mod_eq_of_lt h'
  rw [regReset_regAddr, inside]
  cases hd : findDef (blkRegs .pal) off with
  | none => rfl
  | some d =>
    have hend := findDef_lt_end hd
    exact (zero d (findDef_mem hd).1).resolve_left (by omega)

/-- The registers that go with Q0's power reset to 0. -/
theorem regReset_lostWithQ0 {f : Fld} (hf : f ∈ lostWithQ0) (t k : Nat) : regReset (f.addr t k) = 0 := by
  obtain ⟨off, inside, place, haddr⟩ := lostWithQ0_offset hf k
  rw [haddr]
  exact regReset_pal (by omega) inside t

/-- At their reset values the counters and records are cleared. -/
theorem State.q0Reset.palCleared {s : State} {tl : TileNo} (h : s.q0Reset tl) : s.palCleared tl := by
  have zero {f : Fld} (hf : f ∈ lostWithQ0) (k : Nat) : s.held (f.addr tl k) = 0 :=
    (h f hf k).trans (regReset_lostWithQ0 hf tl k)
  exact ⟨fun n => zero List.mem_cons_self n, fun f hf => zero (List.mem_cons_of_mem _ hf) 0⟩

/-- A footprint that names none of the registers that go with Q0's power. -/
def Foot.sparesQ0 (F : Foot) : Bool := lostWithQ0.all F.sparesReset

/-- What Q0's power has taken stays at its reset values through an action whose footprint spares it. -/
theorem Within.q0Reset {a : Act s₀ α} (ha : Within F a) (hF : F.sparesQ0 = true) {t : Nat} {x : {s // Reach s₀ s}}
    (h : x.1.q0Reset t) : (a x).2.1.q0Reset t := fun f hf k =>
  ha.atReset (List.all_eq_true.1 hF f hf) x (h f hf k)

/-! ### Power leaves a quarter -/

/-- Darkening Q0 clears what its power holds, and noting the waits that this satisfies leaves it cleared. -/
theorem darkenQuarter_zero_q0Reset (tl : TileNo) (x : {s // Reach s₀ s}) :
    (darkenQuarter tl 0 x).2.1.q0Reset tl := by
  unfold darkenQuarter
  simp only [bind_run, if_true]
  refine (settleWaits_within (List.Subset.refl _)).q0Reset (by decide) fun f hf k => ?_
  obtain ⟨off, inside, lost, haddr⟩ := lostWithQ0_offset hf k
  have here : place (regAddr .pal tl off) = .reg .pal tl off := by
    have hoff : off % blkSize .pal = off := Nat.mod_eq_of_lt inside
    have htl : tl.val % blkCount .pal = tl := Nat.mod_eq_of_lt tl.isLt
    rw [place_regAddr, hoff, htl]
    rfl
  rw [haddr, emit_run, held_wipeRegs, here, if_pos]
  simpa [or_assoc] using lost

/-- What darkening a quarter other than Q0 may touch. -/
def darkenUpper_foot : Foot := [.fld PAL_POISONED_COUNT, .mem] ++ dropBanked_foot

/-- Darkening a quarter other than Q0 takes its contents, and no register but the count of poisoned granules. -/
theorem darkenQuarter_within_of_ne_zero (t : Nat) {q : Nat} (hq : q ≠ 0) :
    Within darkenUpper_foot (darkenQuarter t q : Act s₀ Unit) := by
  unfold darkenQuarter
  simp only [hq, if_false]
  refine within_bind within_now fun s => within_bind (within_emit_wipeMem ?_ _) fun _ =>
    within_bind (within_setF _ _ _ _ ?_) fun _ => within_bind (dropBanked_within ?_ _) fun _ => within_pure _
  · simp [darkenUpper_foot]
  · simp [darkenUpper_foot]
  · exact List.subset_append_right _ _

/-- Domain 6·t + 2 + q is quarter q of tile t (R361). -/
theorem domKind_quarter (tl : TileNo) (q : Fin 4) : domKind (6 * tl.val + 2 + q.val) = .quarter tl q := by
  have hd : 6 * tl.val + 2 + q.val < 384 := by omega
  have ht : (6 * tl.val + 2 + q.val) / 6 = tl.val := by omega
  have hq : (6 * tl.val + 2 + q.val) % 6 = q.val + 2 := by omega
  unfold domKind
  rw [if_pos hd, ht, hq]
  rfl

/-- Removing power from a quarter's domain darkens the quarter. -/
theorem removePower_quarter {d t q : Nat} (hd : domKind d = .quarter t q) :
    (removePower d : Act s₀ Unit) = darkenQuarter t q := by
  unfold removePower
  rw [hd]

/-! ### The end of an OFF -/

/-- What the end of a domain's OFF does (R366). -/
def endOff (d : Nat) (r : DomReq) : Act s₀ Unit := do
  changePwr fun p => { p with moving := p.moving.filter (· ≠ d) }
  removePower d
  setDom d 0
  endReq r
  settlePower

/-- The timed step that ends is that of an OFF. -/
theorem actDomainTransitionDone_off {d : Nat} {r : DomReq} {x : {s // Reach s₀ s}} (hr : x.1.headReq d = some r)
    (hop : r.op = .off) (hm : x.1.units.pwr.moving.contains d = true) :
    actDomainTransitionDone d x = endOff d r x := by
  unfold actDomainTransitionDone
  simp only [bind_run, now_run, hr, hm, if_true, hop]
  rfl

/-- The end of Q0's OFF leaves what its power held at its reset values. -/
theorem endOff_q0Reset {tl : TileNo} {d : Nat} (hd : domKind d = .quarter tl 0) (r : DomReq) (x : {s // Reach s₀ s}) :
    (endOff d r x).2.1.q0Reset tl := by
  unfold endOff
  rw [removePower_quarter hd]
  simp only [bind_run]
  refine (settlePower_within (List.Subset.refl _)).q0Reset (by decide) ?_
  refine (endReq_within (List.Subset.refl _) r).q0Reset (by decide) ?_
  refine (setDom_within (List.Subset.refl _) d 0).q0Reset (by decide) ?_
  exact darkenQuarter_zero_q0Reset tl _

/-- The end of another quarter's OFF leaves every arrival counter as it was. -/
theorem endOff_acValue {t q d : Nat} (hd : domKind d = .quarter t q) (hq : q ≠ 0) (r : DomReq) (i n : Nat)
    (x : {s // Reach s₀ s}) : (endOff d r x).2.1.fld PAL_AC_VALUE i n = x.1.fld PAL_AC_VALUE i n := by
  have himpl : PAL_AC_VALUE.implemented = true := by decide +kernel
  unfold endOff
  rw [removePower_quarter hd]
  simp only [bind_run]
  rw [(settlePower_within (List.Subset.refl _)).fld _ himpl (by decide),
    (endReq_within (List.Subset.refl _) r).fld _ himpl (by decide),
    (setDom_within (List.Subset.refl _) d 0).fld _ himpl (by decide),
    (darkenQuarter_within_of_ne_zero t hq).fld _ himpl (by decide),
    (changePwr_within (List.Subset.refl _) _).fld _ himpl (by decide)]

/-! ### The thermal trip -/

/-- What every pass of a loop keeps, the loop keeps. -/
theorem each_keeps {P : State → Prop} {f : α → Act s₀ Unit} (keeps : ∀ z x, P x.1 → P (f z x).2.1) (xs : List α)
    {x : {s // Reach s₀ s}} (h : P x.1) : P (each xs f x).2.1 := by
  induction xs generalizing x with
  | nil => exact h
  | cons z zs ih => exact ih (keeps z x h)

/-- What one pass of a loop brings about and every pass keeps, the loop brings about. -/
theorem each_brings {P : State → Prop} {f : α → Act s₀ Unit} (keeps : ∀ z x, P x.1 → P (f z x).2.1) {y : α}
    (brings : ∀ x, P (f y x).2.1) {xs : List α} (hy : y ∈ xs) (x : {s // Reach s₀ s}) : P (each xs f x).2.1 := by
  induction xs generalizing x with
  | nil => cases hy
  | cons z zs ih =>
    rcases List.mem_cons.1 hy with rfl | hy
    · exact each_keeps keeps zs (brings x)
    · exact ih hy _

/-- Power leaves every tile's Q0 in the trip's turn through the domains, and no later turn gives back what went with it
(R372). -/
theorem removePower_trippable_q0Reset (tl : TileNo) (x : {s // Reach s₀ s}) :
    (each trippable removePower x).2.1.q0Reset tl := by
  have inTurn : 6 * tl.val + 2 ∈ trippable := List.mem_range.2 (by omega)
  refine each_brings (P := (State.q0Reset · tl))
    (fun d _ => (removePower_within (List.Subset.refl _) d).q0Reset (by decide)) (fun x => ?_) inTurn x
  have hd : domKind (6 * tl.val + 2) = .quarter tl 0 := domKind_quarter tl 0
  rw [removePower_quarter hd]
  exact darkenQuarter_zero_q0Reset tl x

/-- The registers that the trip writes once power has left. -/
def afterTrip_foot : Foot := [.fld PWR_DSTATE, .fld PWR_DOM_CMD_GO]

/-- The thermal trip leaves what the power of every Q0 held at its reset values. -/
theorem actThermalTrip_q0Reset {h : Int} (hh : 460 ≤ h) {x : {s // Reach s₀ s}} (hm : x.1.fld PWR_STATUS_MODE ≠ 2)
    (tl : TileNo) : (actThermalTrip h x).2.1.q0Reset tl := by
  unfold actThermalTrip
  rw [now_bind, if_pos ⟨hh, hm⟩, bind_run, bind_run, bind_run, bind_run]
  refine Within.q0Reset (F := afterTrip_foot) (within_bind (within_each _ _ fun d => setDom_within ?_ d 6) fun _ =>
    within_bind within_now fun _ => within_ite (within_setF _ _ _ _ ?_) (within_pure _)) (by decide) ?_
  · simp [afterTrip_foot, setDom_foot]
  · simp [afterTrip_foot]
  · exact removePower_trippable_q0Reset tl _

/-! ### The obligation -/

/-- A command that meets no stack runs its action, out of reset. -/
theorem perform_within {s : State} (hs : s.running = true) {a : Act s Unit} (ha : Within F a)
    (hF : Touch.part .hbm ∉ F) : perform s a = (a ⟨s, .refl⟩).2.1 :=
  perform_running a (running_sound hs).2 (ha.part .hbm hF ⟨s, .refl⟩).symm

/-- Settles O21: both ways of losing Q0's power wipe the registers of R73, and what follows leaves them at their reset
values; the OFF of another quarter writes no arrival counter. -/
theorem quarterPowerLoss : Obligations.QuarterPowerLoss := by
  unfold Obligations.QuarterPowerLoss
  intro s tl hs
  constructor
  case left =>
    intro q k r hk hr hop hm
    have hd : domKind k = .quarter tl q := hk ▸ domKind_quarter tl q
    have ends : perform s (actDomainTransitionDone k) = (endOff k.val r ⟨s, .refl⟩).2.1 := by
      rw [perform_within hs (actDomainTransitionDone_within (List.Subset.refl _) k) (by decide),
        actDomainTransitionDone_off hr hop hm]
    refine ⟨_, rfl, fun hq => ?_, fun hq n => ?_⟩
    · rw [ends]
      subst hq
      exact (endOff_q0Reset hd r _).palCleared
    · rw [ends]
      exact endOff_acValue hd (fun h => hq (Fin.ext h)) r tl n _
  case right =>
    intro h hh hm
    refine ⟨_, rfl, ?_⟩
    rw [perform_within hs (actThermalTrip_within (List.Subset.refl _) h) (by decide)]
    exact (actThermalTrip_q0Reset hh hm tl).palCleared

end Sys2Proof.Machine
end

section
/-! PROOFS. A grandmaster's CAPTURE and LOAD in one access: the capture holds the count from before the load (R236). -/

namespace Sys2Proof.Machine

variable {s₀ : State} {α : Type} {F : Foot}

/-! ### Registers -/

/-- A field that is all of its register is the register's word. -/
theorem held_eq_of_fld_whole {s : State} {f : Fld} {i k : Nat} {w : Word} (h : s.fld f.whole i k = w.toNat) :
    s.held (f.addr i k) = w := by
  have word : s.fld f.whole i k = (s.held (f.addr i k)).toNat := Nat.mod_eq_of_lt (s.held (f.addr i k)).isLt
  exact BitVec.eq_of_toNat_eq (word.symm.trans h)

/-- A register that implements all of its bits holds the word that is written to it. -/
theorem held_emit_whole {f : Fld} (hf : f.whole.implemented = true) (i k : Nat) (w : Word) (x : {s // Reach s₀ s}) :
    (emit (.reg (f.addr i k) w) x).2.1.held (f.addr i k) = w :=
  held_eq_of_fld_whole ((reg_fld hf i k w x).trans (Nat.mod_eq_of_lt w.isLt))

/-- An action keeps a register that its footprint is clear of. -/
theorem Within.held {a : Act s₀ α} (ha : Within F a) {f : Fld} (hf : f.whole.implemented = true)
    (hc : F.clear f.whole = true) (i k : Nat) (x : {s // Reach s₀ s}) :
    (a x).2.1.held (f.addr i k) = x.1.held (f.addr i k) :=
  held_eq_of_fld_whole ((ha.fld x hf hc i k).trans (Nat.mod_eq_of_lt (BitVec.isLt _)))

/-- The capture register implements all of its bits (R234). -/
theorem implemented_TB_CAPTURE : TB_CAPTURE_VALUE.whole.implemented = true := by decide +kernel

/-- A write of 1 to a W1S bit sets it (R10). -/
theorem writeOf_does_of_one {s : State} {d : RegDef} {p i k : Nat} {f g : Fld} {v : Word} (hg : g.lo ≤ g.hi)
    (hw : maskHas d.w1s g.hi g.lo = true) (h : bits v g.hi g.lo = 1) : (s.writeOf d p f i k v).does g = true := by
  rw [writeOf_does s d p f i k v hg hw, h]
  rfl

/-! ### The count -/

/-- A change of role leaves the count alone. -/
theorem takeRole_count (role : Nat) (x : {s // Reach s₀ s}) :
    (takeRole role x).2.1.units.tb.count = x.1.units.tb.count := by
  have state (y : {s // Reach s₀ s}) : (setTbState 1 y).2.1.units.tb = y.1.units.tb :=
    ((setTbState_within (List.Subset.refl _) 1).part .tb (by decide) y).symm
  unfold takeRole
  rw [now_bind, bind_run, ite_run]
  split
  · simp only [bind_run, setF_run, emit_run, reg_units, state]
    rfl
  · rfl

/-- A step of the count adds its ticks, modulo 2^64 (R224). -/
theorem stepCount_count (d : Int) (x : {s // Reach s₀ s}) :
    (stepCount d x).2.1.units.tb.count = x.1.units.tb.count + BitVec.ofInt 64 d := by
  have settled (y : {s // Reach s₀ s}) : (settleStamps y).2.1.units.tb = y.1.units.tb :=
    ((settleStamps_within (List.Subset.refl _)).part .tb (by decide) y).symm
  unfold stepCount
  by_cases hd : d = 0
  case pos => simp [hd]
  case neg =>
    rw [if_pos hd]
    rw [bind_run, ite_run]
    split <;> simp only [bind_run, settled] <;> rfl

/-- The step from one count to another brings the other. -/
theorem add_ofInt_toNat_sub (c v : Word) : c + BitVec.ofInt 64 (v.toNat - c.toNat) = v := by
  have difference : BitVec.ofInt 64 (v.toNat - c.toNat) = v - c := by
    rw [Int.sub_eq_add_neg, BitVec.ofInt_add, BitVec.ofInt_neg, BitVec.ofInt_natCast, BitVec.ofInt_natCast,
      BitVec.ofNat_toNat, BitVec.ofNat_toNat, BitVec.setWidth_eq, BitVec.setWidth_eq, BitVec.sub_eq_add_neg]
  rw [difference, BitVec.add_comm, BitVec.sub_add_cancel]

/-! ### The write of TB.CTL -/

/-- What a write of TB.CTL does before CAPTURE and LOAD: the register takes its new value, and a changed ROLE its effect
(R218). -/
def writeRole (w : RegWrite) : Act s₀ Unit := do
  let s ← now
  emit (.reg w.addr w.new)
  if w.field TB_CTL_ROLE ≠ s.fld TB_CTL_ROLE then takeRole (w.field TB_CTL_ROLE)

/-- The write of ROLE leaves the count alone. -/
theorem writeRole_count (w : RegWrite) (x : {s // Reach s₀ s}) :
    (writeRole w x).2.1.units.tb.count = x.1.units.tb.count := by
  unfold writeRole
  rw [now_bind, bind_run, ite_run]
  split
  · rw [takeRole_count]
    rfl
  · rfl

/-- On a grandmaster a write of CAPTURE and LOAD is the write of ROLE, the capture of the count as it was, and the step to
the value of TB.LOAD, in this order (R236). -/
theorem hookTbCtl_captureLoad {w : RegWrite} {x : {s // Reach s₀ s}} (hc : w.does TB_CTL_CAPTURE = true)
    (hl : w.does TB_CTL_LOAD = true) (hr : x.1.on TB_CTL_ROLE = true) :
    hookTbCtl w x = (do
      writeRole w
      emit (.reg (TB_CAPTURE_VALUE.addr 0 0) x.1.units.tb.count)
      stepCount ((x.1.held (TB_LOAD_VALUE.addr 0 0)).toNat - x.1.units.tb.count.toNat)) x := by
  unfold hookTbCtl writeRole
  rw [now_bind, bind_run, now_bind]
  by_cases role : w.field TB_CTL_ROLE = x.1.fld TB_CTL_ROLE <;> simp [hc, hl, hr, role]

/-- The capture holds the count from before the load. -/
theorem hookTbCtl_captured {w : RegWrite} {x : {s // Reach s₀ s}} (hc : w.does TB_CTL_CAPTURE = true)
    (hl : w.does TB_CTL_LOAD = true) (hr : x.1.on TB_CTL_ROLE = true) :
    (hookTbCtl w x).2.1.held (TB_CAPTURE_VALUE.addr 0 0) = x.1.units.tb.count := by
  rw [hookTbCtl_captureLoad hc hl hr, bind_run, bind_run,
    (stepCount_within (List.Subset.refl _) _).held implemented_TB_CAPTURE (by decide),
    held_emit_whole implemented_TB_CAPTURE]

/-- The count is the loaded one afterwards. -/
theorem hookTbCtl_loaded {w : RegWrite} {x : {s // Reach s₀ s}} (hc : w.does TB_CTL_CAPTURE = true)
    (hl : w.does TB_CTL_LOAD = true) (hr : x.1.on TB_CTL_ROLE = true) :
    (hookTbCtl w x).2.1.units.tb.count = x.1.held (TB_LOAD_VALUE.addr 0 0) := by
  rw [hookTbCtl_captureLoad hc hl hr, bind_run, bind_run, stepCount_count, emit_run, reg_units, writeRole_count,
    add_ofInt_toNat_sub]

/-- The write of TB.CTL meets no stack. -/
theorem hookTbCtl_hbm (w : RegWrite) (x : {s // Reach s₀ s}) :
    (hookTbCtl w x).2.1.units.hbm = x.1.units.hbm := by
  have inFoot : Within (.addr w.addr :: hookTbCtl_foot) (hookTbCtl w : Act s₀ Unit) :=
    hookTbCtl_within (List.subset_cons_self _ _) (.inr List.mem_cons_self)
  have noHbm : Touch.part .hbm ∉ (.addr w.addr :: hookTbCtl_foot : Foot) :=
    List.not_mem_cons_of_ne_of_not_mem (by simp) (by decide)
  exact (inFoot.part .hbm noHbm x).symm

/-! ### The obligation -/

/-- CAPTURE and LOAD are fields of one register: a write of it is the same access by either name. -/
theorem exec_tbLoad_eq_tbCapture (p : HostNo) (v : Word) (s : State) :
    exec (.tbLoad p v) s = exec (.tbCapture p v) s := rfl

/-- A write of TB.CTL by a port that may write it is what the register does with it. -/
theorem exec_tbCapture_run {s : State} (hs : s.running = true) {p : HostNo} (hw : s.writable p TB_CTL_CAPTURE = true)
    {v : Word} {d : RegDef} (hd : findDef (blkRegs .tb) 0x8 = some d) :
    exec (.tbCapture p v) s = .next (hookTbCtl (s.writeOf d p TB_CTL_CAPTURE 0 0 v) ⟨s, .refl⟩).2.1 := by
  have write : performAlways s (checkedWrite p (TB_CTL_CAPTURE.addr 0 0) v hookTbCtl)
      = (hookTbCtl (s.writeOf d p TB_CTL_CAPTURE 0 0 v) ⟨s, .refl⟩).2.1 := by
    unfold performAlways
    rw [checkedWrite_run (x := ⟨s, .refl⟩) (by decide +kernel) hw hd]
  show Host.Outcome.next (perform s (checkedWrite p (TB_CTL_CAPTURE.addr 0 0) v hookTbCtl)) = _
  rw [perform_running _ (running_sound hs).2 (by rw [write, hookTbCtl_hbm]), write]

/-- Settles O38: the write of TB.CTL captures the count before it steps it to the value of TB.LOAD, and the step writes no
register that the capture is in. -/
theorem captureAndLoad : Obligations.CaptureAndLoad := by
  unfold Obligations.CaptureAndLoad
  intro s p v hs hw hcap hload hrole c hmem
  have same : exec c s = exec (.tbCapture p v) s := by
    simp only [List.mem_cons, List.not_mem_nil, or_false] at hmem
    rcases hmem with rfl | rfl
    · rfl
    · exact exec_tbLoad_eq_tbCapture p v s
  have hd : findDef (blkRegs .tb) 0x8 = some regsTb[1] := rfl
  have hc : (s.writeOf regsTb[1] p TB_CTL_CAPTURE 0 0 v).does TB_CTL_CAPTURE = true :=
    writeOf_does_of_one (by decide) (by decide) hcap
  have hl : (s.writeOf regsTb[1] p TB_CTL_CAPTURE 0 0 v).does TB_CTL_LOAD = true :=
    writeOf_does_of_one (by decide) (by decide) hload
  exact ⟨_, same.trans (exec_tbCapture_run hs hw hd), hookTbCtl_captured hc hl hrole, hookTbCtl_loaded hc hl hrole⟩

end Sys2Proof.Machine
end
